-- ==== Sys2Proof/Word.lean ====
section
/-! DEFINITION. Word.lean: the word types of the device (R4, R5, R109) and their plainest names. -/

namespace Sys2Proof

/-- A doubleword: a scalar register, an address, a system register (R109). -/
abbrev Word := BitVec 64

/-- One byte of memory (R4). -/
abbrev Byte := BitVec 8

/-- A scalar register number. -/
abbrev XReg := Fin 32

/-- A vector register number. -/
abbrev VNum := Fin 32

/-- A mask register number. -/
abbrev MNum := Fin 8

/-- A tile name. -/
abbrev TNum := Fin 8

/-- A ring handle number. -/
abbrev PNum := Fin 16

/-- An exact accumulator number (R76). -/
abbrev QNum := Fin 2

/-- An encoded format field, 0 to 15 (R28). -/
abbrev FmtCode := Fin 16

end Sys2Proof
end

