-- ==== Sys2Proof/Config.lean ====
section
/-! DEFINITION. Config.lean: what is fixed for the machine, and the free values, which no rule fixes.
A free value is an opaque constant: nothing can evaluate it, so a statement about it holds for every value. -/

namespace Sys2Proof.Config

/-- A stream of unconstrained numbers, one for each value or choice that the manual leaves open
(which free CID, frame or region entry is taken: R274, R323, R355; unpredictable bytes: R269).
It is read at the counter State.freeAt. DESIGN CHOICE (log 5). Safe. -/
opaque free : Nat → Nat

/-- The nanoseconds of TSTAMP that pass in step n of the machine (R6, R117). DESIGN CHOICE (log 5). Safe. -/
opaque nanos : Nat → Nat

/-- The edges of a cluster's clock in step n (R117): first argument the cluster. DESIGN CHOICE (log 5). Safe. -/
opaque cycles : Nat → Nat → Nat

/-- Events of a source that the model does not count (R390): the cluster, or the die for a source of the die, source,
step. Caches and directory pieces are timing only (R179). DESIGN CHOICE (log 5). Safe. -/
opaque events : Nat → Nat → Nat → Nat

/-- Stretched cycles of a cluster's clock in a step of a stretch (R118): cluster, step. DESIGN CHOICE (log 5). Safe. -/
opaque stretched : Nat → Nat → Nat

/-- Fills and writebacks of a frame in an epoch (R187): die, frame, step. DESIGN CHOICE (log 5). Safe. -/
opaque fills : Nat → Nat → Nat → Nat

/-- The demand measured for a class of a package, 8 being the system share (R372): package, class, step.
DESIGN CHOICE (log 5). Safe. -/
opaque demand : Nat → Nat → Nat → Nat

/-- Energy in pJ that a die charges to a token in a step (R387): die, token, step. Which rates apply hangs on the caches,
which are timing only (R179), and on the image. DESIGN CHOICE (log 5). Safe. -/
opaque energy : Nat → Nat → Nat → Nat

/-- Energy in pJ that a die draws in a step (R387, R389): die, step. DESIGN CHOICE (log 5). Safe. -/
opaque drawn : Nat → Nat → Nat

/-- Walks that wait and walks in progress on a die at a step, as WALKSTAT shows them (R184): die, step.
DESIGN CHOICE (log 5). Safe. -/
opaque walks : Nat → Nat → Nat

/-- SHA-384 of a list of bytes (R394, R395): its bits lie in a standard outside the manual. Safe. -/
opaque sha384 : List Byte → List Byte

/-- The signatures that Atelier puts under a transcript (R395): first RSASSA-3072, then SLH-DSA.
The keys are outside the manual. Safe. -/
opaque spdmSign : Bool → List Byte → List Byte

/-- The bytes of the mask ROM, which Atelier measures (R394, R395). Safe. -/
opaque maskRom : List Byte

/-- The energy-rate table within the bytes of a configuration image (R394, R395). Safe. -/
opaque energyTable : List Byte → List Byte

/-- The body of an answer of Atelier (R395): which request, the transcript so far and the measurements. The formats of
SPDM 1.3 and the certificates lie outside the manual. DESIGN CHOICE (log 27). Safe. -/
opaque spdmBody : Nat → List Byte → List (List Byte) → List Byte

/-- The CRC of a flit of the Voldin Link (R393): its polynomial is not in the manual. DESIGN CHOICE (log 26). Safe. -/
opaque flitCrc : List Byte → BitVec 32

/-- The virtual channel that a flit's header names (R393): its place is not in the manual. DESIGN CHOICE (log 26).
Safe. -/
opaque flitChannel : List Byte → Nat

/-- What a byte of memory reads as that nothing has written. The manual gives no contents at power-on.
DESIGN CHOICE (log 2). Unsafe. -/
def unwritten : Byte := 0

/-- Compute dies of a package (R2). -/
def diesPerPackage : Nat := 4

/-- Clusters of a compute die (R2). -/
def clustersPerDie : Nat := 32

/-- Cores of a cluster (R2). -/
def coresPerCluster : Nat := 4

/-- Cores of a package (R2). -/
def coresPerPackage : Nat := 512

/-- Accumulator cells of an easel (R25, capability 0x0019). -/
def cellsPerEasel : Nat := 96

/-- Region entries of a compute die (R323). -/
def regionsPerDie : Nat := 1024

/-- Granules that one region may touch (R324). -/
def granuleCapacity : Nat := 2048

end Sys2Proof.Config
end

