-- ==== Sys2Proof/Syntax.lean ====
section
/-! DEFINITION. Syntax.lean: the instructions of Efsel 1.0 and the steps of the device, one constructor
for each row of the opcode table. Operands are the fields of the formats of R75; the steps of the device carry
what their environment supplies. -/

namespace Sys2Proof

/-- SCOPE, CLS and WAIT of a memory instruction, with the codes of R79. -/
structure MemAttr where
  scope : Fin 8
  cls : Fin 4
  wait : Fin 4
deriving DecidableEq, Repr

/-- The fields of a VPX parcel that a vector instruction can use (R81). HRSV is ignored (R94) and MRSV is zero. -/
structure Vpx where
  mask : MNum
  mz : Bool
  rnd : Fin 8
  c : VNum
  hint : Fin 64
deriving DecidableEq, Repr

/-- What an access asks of a range register or a leaf (R176). -/
inductive Access where
  | read | write | fetch | atomic
deriving DecidableEq, Repr

/-- A message on its way: header and payload words (R275), and the sender's place for the ordering of R279. -/
structure Message where
  header : Word
  payload : List Word
deriving DecidableEq, Repr

/-- A global request that an agent of another core receives (R284, R285). -/
structure GlobalReq where
  /-- the issuing context inside the model -/
  uid : Nat
  /-- the global address -/
  addr : Nat
  /-- bytes -/
  size : Nat
  /-- the value to store -/
  value : Word
deriving DecidableEq, Repr

/-- The windows of the package that the host reaches (R391): BAR0 through the host ranges, BAR2 with the inbox windows,
BAR4 with the registers of R392. -/
inductive HostBar where
  | bar0 | bar2 | bar4
deriving DecidableEq, Repr

/-- An access made by the host (R391, R392): its window, a byte offset or address, and what is written, none for a
read. An access by CXL.mem names no window. -/
structure HostAccess where
  bar : HostBar
  addr : Nat
  size : Nat
  store : Option Word
deriving DecidableEq, Repr

/-- The supply of a cluster, by how many mV it lies beneath its set point (R118). -/
structure Sag where
  cluster : Nat
  sag : Nat
deriving DecidableEq, Repr

/-- The input of a package as its comparators measure it, in W (R377). -/
structure Input where
  pkg : Nat
  watts : BitVec 16
deriving DecidableEq, Repr

/-- A copy-on-write break of the page of an IA; lost says that its CAS meets an entry that software has rewritten (R186). -/
structure CowTry where
  ia : Nat
  lost : Bool
deriving DecidableEq, Repr

/-- The verdicts of the two signature checks over one object, RSASSA-PSS and SLH-DSA (R394). -/
structure Signatures where
  rsa : Bool
  slh : Bool
deriving DecidableEq, Repr

/-- The signed configuration image (R394), as the registers it sets, the verdicts of the signature checks
and what it says of the topology, of the energy rates and of the supervisors. -/
structure BootImage where
  /-- the signatures over Atelier -/
  atelier : Signatures
  /-- those over the image -/
  config : Signatures
  /-- those over the identity certificates -/
  identity : Signatures
  /-- control-block registers: die, offset, value (SAFELIM, TCTL, TFPT, TVPT, LBUD) -/
  control : List (Nat × Nat × Word)
  /-- GESSO of each string named -/
  gesso : List (Nat × Word)
  /-- DRPTH of each cluster named -/
  drpth : List (Nat × Word)
  /-- packages in the socket group, 1 to 8 -/
  packages : Nat
  /-- the routes of Voldin Link from this package: to a package, by a port -/
  routes : List (Nat × Nat)
  /-- the address at which the capability list is built -/
  capbase : Word
  /-- where that address lies in memory -/
  capIa : Nat
  /-- entry point of the supervisors -/
  entry : Word
  /-- range registers of the supervisor of each core named -/
  supervisorRanges : List (Nat × List (BitVec 128))
  /-- dispatch ranges of each core named -/
  dispatchRanges : List (Nat × List (BitVec 128))
  /-- the image's bytes, for measurement -/
  bytes : List Byte
  /-- Atelier's bytes, for measurement -/
  firmware : List Byte
deriving DecidableEq, Repr

/-- Where a register write of R7 lands when no other row covers it. -/
inductive RegPlace where
  /-- a control-block register: die and offset (R184) -/
  | control (die offset : Nat)
  /-- a BAR4 register of a package (R392) -/
  | bar4 (pkg offset : Nat)
  /-- a register of a core's inbox window (R282) -/
  | inbox (core offset : Nat)
deriving DecidableEq, Repr

/-- An SPDM request (R395): its bytes, as they enter the transcript. -/
structure SpdmRequest where
  pkg : Nat
  bytes : List Byte
deriving DecidableEq, Repr

/-- The instructions (R84 to R93) and the steps of the device (95_what_each_step_holds.md). -/
inductive Instr where
  -- integer, R123 to R126
  | add (d a b : XReg)
  | sub (d a b : XReg)
  | and (d a b : XReg)
  | or (d a b : XReg)
  | xor (d a b : XReg)
  | sll (d a b : XReg)
  | srl (d a b : XReg)
  | sra (d a b : XReg)
  | slli (d a : XReg) (n : Fin 64)
  | srli (d a : XReg) (n : Fin 64)
  | srai (d a : XReg) (n : Fin 64)
  | mul (d a b : XReg)
  | mulh (d a b : XReg)
  | mulhu (d a b : XReg)
  | div (d a b : XReg)
  | divu (d a b : XReg)
  | rem (d a b : XReg)
  | remu (d a b : XReg)
  | min (d a b : XReg)
  | max (d a b : XReg)
  | minu (d a b : XReg)
  | maxu (d a b : XReg)
  | clz (d a : XReg)
  | ctz (d a : XReg)
  | popc (d a : XReg)
  | slt (d a b : XReg)
  | sltu (d a b : XReg)
  | seq (d a b : XReg)
  | lea (d a b : XReg) (s : Fin 4)
  | addi (d a : XReg) (imm : BitVec 16)
  | lih (d : XReg) (imm : BitVec 32)
  | lihHi (d : XReg) (imm : BitVec 32)
  -- control transfer, R127 and R128; the hint space, R95
  | beq (a b : XReg) (off : BitVec 16)
  | bne (a b : XReg) (off : BitVec 16)
  | blt (a b : XReg) (off : BitVec 16)
  | bge (a b : XReg) (off : BitVec 16)
  | bltu (a b : XReg) (off : BitVec 16)
  | bgeu (a b : XReg) (off : BitVec 16)
  | jal (d : XReg) (off : BitVec 21)
  | jalLong (d : XReg) (off : BitVec 32)
  | jalr (d a : XReg) (imm : BitVec 16)
  | nop (hint : BitVec 26)
  -- scalar floating point, R130 to R137
  | fadd (d a b : XReg) (rnd : Fin 8) (single : Bool)
  | fsub (d a b : XReg) (rnd : Fin 8) (single : Bool)
  | fmul (d a b : XReg) (rnd : Fin 8) (single : Bool)
  | fma (d a b : XReg) (rnd : Fin 8) (single : Bool)
  | fdiv (d a b : XReg) (rnd : Fin 8) (single : Bool)
  | fsqrt (d a : XReg) (rnd : Fin 8) (single : Bool)
  | fmin (d a b : XReg) (single : Bool)
  | fmax (d a b : XReg) (single : Bool)
  | fcmp (d a b : XReg) (cond : Fin 8) (single : Bool)
  | fcvt (d a : XReg) (sel : Fin 32) (rnd : Fin 8)
  | fclass (d a : XReg) (single : Bool)
  -- loads and stores, R191 and R192
  | ldB (t a : XReg) (m : MemAttr) (off : BitVec 9)
  | ldH (t a : XReg) (m : MemAttr) (off : BitVec 9)
  | ldW (t a : XReg) (m : MemAttr) (off : BitVec 9)
  | ldD (t a : XReg) (m : MemAttr) (off : BitVec 9)
  | stB (t a : XReg) (m : MemAttr) (off : BitVec 9)
  | stH (t a : XReg) (m : MemAttr) (off : BitVec 9)
  | stW (t a : XReg) (m : MemAttr) (off : BitVec 9)
  | stD (t a : XReg) (m : MemAttr) (off : BitVec 9)
  | ldBLong (t a : XReg) (m : MemAttr) (off : BitVec 19)
  | ldHLong (t a : XReg) (m : MemAttr) (off : BitVec 19)
  | ldWLong (t a : XReg) (m : MemAttr) (off : BitVec 19)
  | ldDLong (t a : XReg) (m : MemAttr) (off : BitVec 19)
  | stBLong (t a : XReg) (m : MemAttr) (off : BitVec 19)
  | stHLong (t a : XReg) (m : MemAttr) (off : BitVec 19)
  | stWLong (t a : XReg) (m : MemAttr) (off : BitVec 19)
  | stDLong (t a : XReg) (m : MemAttr) (off : BitVec 19)
  -- returning atomics, R207 to R210: the second form of the size is .d, or .bf16 for fadd
  | amoAdd (d a b : XReg) (dbl : Bool) (scope : Fin 8) (acqrel : Bool)
  | amoMin (d a b : XReg) (dbl : Bool) (scope : Fin 8) (acqrel : Bool)
  | amoMax (d a b : XReg) (dbl : Bool) (scope : Fin 8) (acqrel : Bool)
  | amoAnd (d a b : XReg) (dbl : Bool) (scope : Fin 8) (acqrel : Bool)
  | amoOr (d a b : XReg) (dbl : Bool) (scope : Fin 8) (acqrel : Bool)
  | amoXor (d a b : XReg) (dbl : Bool) (scope : Fin 8) (acqrel : Bool)
  | amoSwap (d a b : XReg) (dbl : Bool) (scope : Fin 8) (acqrel : Bool)
  | amoCas (d a b : XReg) (dbl : Bool) (scope : Fin 8) (acqrel : Bool)
  | amoFadd (d a b : XReg) (bf16 : Bool) (scope : Fin 8) (acqrel : Bool)
  -- reductions, R211 to R215
  | redAdd (a b : XReg) (dbl : Bool) (scope : Fin 8) (rel : Bool)
  | redMin (a b : XReg) (dbl : Bool) (scope : Fin 8) (rel : Bool)
  | redMax (a b : XReg) (dbl : Bool) (scope : Fin 8) (rel : Bool)
  | redAnd (a b : XReg) (dbl : Bool) (scope : Fin 8) (rel : Bool)
  | redOr (a b : XReg) (dbl : Bool) (scope : Fin 8) (rel : Bool)
  | redXor (a b : XReg) (dbl : Bool) (scope : Fin 8) (rel : Bool)
  | redFadd (a b : XReg) (bf16 : Bool) (scope : Fin 8) (rel : Bool)
  -- fences, R204
  | fence (scope : Fin 8) (wait : Fin 4)
  | fenceAcq (scope : Fin 8) (wait : Fin 4)
  | fenceRel (scope : Fin 8) (wait : Fin 4)
  -- vector, R150
  | vld (p : Option Vpx) (fmt : FmtCode) (t : VNum) (a : XReg) (m : MemAttr) (off : BitVec 5)
  | vst (p : Option Vpx) (fmt : FmtCode) (t : VNum) (a : XReg) (m : MemAttr) (off : BitVec 5)
  | vadd (p : Option Vpx) (fmt : FmtCode) (d a b : VNum)
  | vsub (p : Option Vpx) (fmt : FmtCode) (d a b : VNum)
  | vmul (p : Option Vpx) (fmt : FmtCode) (d a b : VNum)
  | vfma (p : Option Vpx) (fmt : FmtCode) (d a b : VNum)
  | vmin (p : Option Vpx) (fmt : FmtCode) (d a b : VNum)
  | vmax (p : Option Vpx) (fmt : FmtCode) (d a b : VNum)
  | vabs (p : Option Vpx) (fmt : FmtCode) (d a : VNum)
  | vneg (p : Option Vpx) (fmt : FmtCode) (d a : VNum)
  | vcmpEq (p : Option Vpx) (fmt : FmtCode) (d : MNum) (a b : VNum)
  | vcmpNe (p : Option Vpx) (fmt : FmtCode) (d : MNum) (a b : VNum)
  | vcmpLt (p : Option Vpx) (fmt : FmtCode) (d : MNum) (a b : VNum)
  | vcmpLe (p : Option Vpx) (fmt : FmtCode) (d : MNum) (a b : VNum)
  | vcmpUnord (p : Option Vpx) (fmt : FmtCode) (d : MNum) (a b : VNum)
  | vsel (p : Option Vpx) (fmt : FmtCode) (d a b : VNum)
  | vand (p : Option Vpx) (fmt : FmtCode) (d a b : VNum)
  | vor (p : Option Vpx) (fmt : FmtCode) (d a b : VNum)
  | vxor (p : Option Vpx) (fmt : FmtCode) (d a b : VNum)
  | vshl (p : Option Vpx) (fmt : FmtCode) (d a b : VNum)
  | vshr (p : Option Vpx) (fmt : FmtCode) (d a b : VNum)
  | vldg (p : Option Vpx) (fmt : FmtCode) (d : VNum) (a : XReg) (b : VNum)
  | vsts (p : Option Vpx) (fmt : FmtCode) (d : VNum) (a : XReg) (b : VNum)
  | vsumRow (p : Option Vpx) (fmt : FmtCode) (d a : VNum)
  | vsumCol (p : Option Vpx) (fmt : FmtCode) (d a : VNum)
  | vmaxrRow (p : Option Vpx) (fmt : FmtCode) (d a : VNum)
  | vmaxrCol (p : Option Vpx) (fmt : FmtCode) (d a : VNum)
  | vperm (p : Option Vpx) (fmt : FmtCode) (d a b : VNum)
  | vrot (p : Option Vpx) (fmt : FmtCode) (d a : VNum) (b : XReg)
  | vtrn (p : Option Vpx) (fmt : FmtCode) (d a : VNum)
  | vbcast (p : Option Vpx) (fmt : FmtCode) (d : VNum) (a : XReg)
  | vmov (p : Option Vpx) (fmt : FmtCode) (d a : VNum)
  | vcvt (p : Option Vpx) (dst src : FmtCode) (d a : VNum)
  | vcvtSat (p : Option Vpx) (dst src : FmtCode) (d a : VNum)
  | vshape (p : Option Vpx) (fmt : FmtCode) (d a b : XReg)
  | vrint (p : Option Vpx) (fmt : FmtCode) (d a : VNum)
  | vexp2f (p : Option Vpx) (fmt : FmtCode) (d a : VNum)
  | vscaleb (p : Option Vpx) (fmt : FmtCode) (d a b : VNum)
  | vrcp (p : Option Vpx) (fmt : FmtCode) (d a : VNum)
  | vrsqrt (p : Option Vpx) (fmt : FmtCode) (d a : VNum)
  | vlog2 (p : Option Vpx) (fmt : FmtCode) (d a : VNum)
  | vsinpi (p : Option Vpx) (fmt : FmtCode) (d a : VNum)
  | mand (p : Option Vpx) (fmt : FmtCode) (d a b : MNum)
  | mor (p : Option Vpx) (fmt : FmtCode) (d a b : MNum)
  | mnot (p : Option Vpx) (fmt : FmtCode) (d a : MNum)
  | mpop (p : Option Vpx) (fmt : FmtCode) (d : XReg) (a : MNum)
  -- system, R91
  | srd (d : XReg) (sn : Fin 1024)
  | swr (sn : Fin 1024) (a : XReg)
  | svc (n : Fin 1024)
  | eret
  | trap (n : Fin 1024)
  | bkpt (n : Fin 1024)
  | pkrd (d a : XReg) (sn : Fin 1024)
  | pkwr (d a : XReg) (sn : Fin 1024)
  | spill (a : XReg)
  | amapw (n : Fin 8) (a : XReg)
  | tlbinv (a : XReg)
  | cflush (a : XReg)
  | cinv (a : XReg) (i : Bool)
  | capq (d a : XReg)
  -- task control, R138
  | spawn (d a : XReg)
  | tend (a : XReg)
  | cancel (d a b : XReg)
  | cwait (d a b : XReg)
  -- synchronisation, R311
  | barinit (d a b : XReg)
  | barw (d a b : XReg)
  | menter (d a : XReg)
  | mexit (a : XReg)
  | gzbegin (d : XReg)
  | gzend (d : XReg)
  | gzabort (a : XReg)
  -- power, R379 and R381
  | pclass (d a : XReg)
  | blease (d a b : XReg)
  -- messages, R278
  | msend (d a b : XReg)
  | mrecv (d a b : XReg)
  | mpeek (d : XReg) (sel : Fin 32)
  -- global accesses, R285
  | gld (dbl : Bool) (d a : XReg) (m : MemAttr) (off : BitVec 19)
  | gst (dbl : Bool) (d a : XReg) (m : MemAttr) (off : BitVec 19)
  | gamoAdd (dbl : Bool) (d a xs : XReg) (m : MemAttr) (off : BitVec 19)
  | gamoMin (dbl : Bool) (d a xs : XReg) (m : MemAttr) (off : BitVec 19)
  | gamoMax (dbl : Bool) (d a xs : XReg) (m : MemAttr) (off : BitVec 19)
  | gamoAnd (dbl : Bool) (d a xs : XReg) (m : MemAttr) (off : BitVec 19)
  | gamoOr (dbl : Bool) (d a xs : XReg) (m : MemAttr) (off : BitVec 19)
  | gamoXor (dbl : Bool) (d a xs : XReg) (m : MemAttr) (off : BitVec 19)
  | gamoSwap (dbl : Bool) (d a xs : XReg) (m : MemAttr) (off : BitVec 19)
  | gamoCas (dbl : Bool) (d a xs : XReg) (m : MemAttr) (off : BitVec 19)
  | gamoFadd (d a xs : XReg) (m : MemAttr) (off : BitVec 19)
  -- tiles and code tables, R244 and R245
  | tld (td : TNum) (a xs : XReg) (fmt : FmtCode) (m : MemAttr) (off : BitVec 19)
  | tldp (td : TNum) (pr : PNum) (xs : XReg) (fmt : FmtCode) (off : BitVec 19)
  | tst (ts : TNum) (a xs : XReg) (fmt : FmtCode) (m : MemAttr) (off : BitVec 19)
  | tstp (ts : TNum) (pr : PNum) (a xs : XReg) (fmt : FmtCode) (off : BitVec 19)
  | ctwr (a : XReg) (m : MemAttr) (off : BitVec 19)
  | ctswap
  | tmma (td ta tb : TNum) (fa fb fd : FmtCode) (pa pb : PNum) (ra rb : Bool)
  | tmmas (td ta tb : TNum) (fa fb fd : FmtCode) (pa pb : PNum) (ra rb : Bool) (sp : Fin 8) (xs : XReg)
  | tzero (td : TNum) (fd : FmtCode) (xs : XReg)
  | tcvt (td ta : TNum) (bank : Bool) (fa fd : FmtCode) (rnd : Fin 8) (sat : Bool)
  | tadd (td ta tb : TNum) (fd : FmtCode) (rnd : Fin 8)
  | tgrp (td : TNum) (fd : FmtCode) (xs : XReg)
  -- rings, R261
  | pdef (pn : PNum) (xs xt : XReg)
  | psub (pn : PNum) (xs xt : XReg)
  | pclaim (pn : PNum) (xt : XReg)
  | ppost (pn : PNum) (xs : XReg)
  | pwfill (pn : PNum) (xt : XReg)
  | pwfree (pn : PNum) (xs xt : XReg)
  | ppop (pn : PNum)
  -- ferries, R270 and R273
  | fapp (d a xs : XReg) (off : BitVec 19)
  | fseq (d a : XReg) (off : BitVec 19)
  -- exact accumulators, R288
  | qclr (q : QNum)
  | qadd (q : QNum) (xs xt : XReg)
  | qaddf (q : QNum) (fmt : FmtCode) (xs : XReg)
  | qrnd (q : QNum) (fmt : FmtCode) (rnd : Fin 8) (xs xt : XReg)
  | qsendQ (q : QNum) (xs xt : XReg)
  | qsendQ4n (ta tb : TNum) (fa fb : FmtCode) (xs xt : XReg)
  -- launching, placing and ending work
  | loaderJudge (obj ncore : Nat)
  | taskDispatch (lobj : Nat)
  | treeForward (lobj node : Nat)
  | cancelMarkDescendants (obj : Nat)
  | taskCancelEnd (uid : Nat)
  | taskEvict (uid : Nat)
  | contextRestore (uid : Nat)
  | streamRebalance (graph : Nat)
  -- strings and droops
  | strimbRefresh (str : Nat) (node1 node2 node3 : BitVec 10)
  | gessoStart (str : Nat)
  | gessoStop (str : Nat)
  | stringThrottle (str : Nat)
  | stringThrottleEnd (str : Nat)
  | droopEvent (at_ : Sag)
  | stretchEnd (cluster sag : Nat)
  | halfWidthHoldEnd (cluster : Nat)
  | coreIdle (core : Nat)
  -- the memory side
  | pageWalk (ia : Nat) (kind : Access)
  | faultRecordPost (die : Nat)
  | pgready (page : Nat)
  | pgfail (page : Nat)
  | cowBreak (at_ : CowTry)
  | epochEnd (pkg : Nat) (promote demote : List Nat)
  | regionMerge (ia log : Nat)
  -- accesses in flight
  | postedStoreAck (uid : Nat)
  | reductionPerform (uid : Nat)
  | reductionAck (uid : Nat)
  | forcedPublish (uid : Nat)
  -- easels and rings
  | easelCommandComplete (easel tag : Nat)
  | reservationSquash (uid rob : Nat)
  | easelSquash (easel core slot rob gen : Nat)
  | easelDiscard (easel tag : Nat)
  | tileStoreDrain (uid : Nat)
  | ringDelivery (cluster ring sub : Nat)
  | ringClaimGrant (cluster ring : Nat)
  -- ferries
  | ferryCopy (chain seq : Nat)
  | ferryGather (chain seq : Nat)
  | ferryScatter (chain seq : Nat)
  | ferryFill (chain seq : Nat)
  | ferryRingput (chain seq : Nat)
  | ferryReduce (chain seq : Nat)
  | ferryGcopy (chain seq : Nat)
  | ferryCommandComplete (chain : Nat)
  | chainIdle (chain : Nat)
  -- messages
  | user (dest : Word) (msg : Message)
  | ferryDone (dest : Word) (msg : Message)
  | spawnMessage (core : Nat) (msg : Message)
  | blocksum (dest : Word) (msg : Message)
  | messageRingWrite (dest : Word) (msg : Message)
  | post (core : Nat) (header : Word)
  -- the host and peers
  | hostBar0Access (pkg : Nat) (acc : HostAccess)
  | globalRequest (req : GlobalReq)
  -- glazes
  | glazePreemptExpiry (uid : Nat)
  | pendingEdgeRelease (uid : Nat)
  | glazeCommit (uid : Nat)
  -- interruption
  | tlbinvComplete (ia kind : Nat)
  | deliverTrap (uid cause : Nat) (info : Word)
  | safeSpillTimeout (uid : Nat)
  | machineCheckError (key : Nat) (corrected : Bool) (unit : BitVec 16) (syndrome : Word)
  -- power
  | tideFrame (pkg : Nat) (bytes : List Byte)
  | tideStale (pkg : Nat)
  | staleCeilingTick (pkg : Nat)
  | setPointStep (pkg : Nat)
  | shedHold (uid : Nat)
  | safetyLimit (at_ : Input)
  | safetySetPointStep (at_ : Input)
  | safetyClear (pkg : Nat)
  | pkgwRefresh (pkg : Nat) (watts : BitVec 16)
  | leaseExpiry (uid : Nat)
  -- accounting and deadlines
  | energyRecordPost (die token kind : Nat)
  | cwaitTimeout (uid : Nat)
  | mrecvTimeout (uid : Nat)
  -- the package around the dies
  | voldinFlit (port : Nat) (body : List Byte) (crc : BitVec 32)
  | packageReset
  | atelierBoot (pkg : Nat) (image : BootImage)
  | supervisorRestart (core : Nat)
  | getVersion (r : SpdmRequest)
  | getCapabilities (r : SpdmRequest)
  | negotiateAlgorithms (r : SpdmRequest)
  | getDigests (r : SpdmRequest)
  | getCertificate (r : SpdmRequest)
  | challenge (r : SpdmRequest)
  | getMeasurements (r : SpdmRequest)
  | registerWrite (place : RegPlace) (value : Word)
  | schedulerPreEmption (uid : Nat)
  | failedRoute (port key : Nat)
  | cxlMemAccess (acc : HostAccess)
deriving DecidableEq, Repr

end Sys2Proof
end

