-- ==== Sys2Proof/Decode.lean ====
section
/-! DEFINITION. Decode.lean: the decoder (R73 to R99), the decode checks 3 and 4 of R97, and the encoder.
Decoding has two stages. decodeParcels answers an instruction, or ILLEGAL_INSTRUCTION, or ILLEGAL_FIELD for a
nonzero field that must be zero. checkFields then refuses the reserved values of defined fields (ILLEGAL_FIELD)
and the formats that the instruction does not accept (FORMAT_MISMATCH). The order of the causes is that of R97. -/

namespace Sys2Proof

/-- Why the decode checks refuse an encoding (R96, R97). -/
inductive Reject where
  | illegalInstruction
  | illegalField
  | formatMismatch
deriving DecidableEq, Repr

/-- The n bits of w from bit lo up. -/
def fld (w lo n : Nat) : Nat := w / 2 ^ lo % 2 ^ n

/-- An x register field (R76). -/
def rx (w lo : Nat) : XReg := Fin.ofNat 32 (w / 2 ^ lo)

/-- A v register field. -/
def rv (w lo : Nat) : VNum := Fin.ofNat 32 (w / 2 ^ lo)

/-- An m register field, or any field of three bits. -/
def r3 (w lo : Nat) : Fin 8 := Fin.ofNat 8 (w / 2 ^ lo)

/-- A field of four bits: a format or a ring handle. -/
def r4 (w lo : Nat) : Fin 16 := Fin.ofNat 16 (w / 2 ^ lo)

/-- A flag bit. -/
def bt (w lo : Nat) : Bool := w / 2 ^ lo % 2 = 1

/-- An instruction whose other fields must be zero, or ILLEGAL_FIELD (R76, R94). -/
def must (zero : Bool) (i : Instr) : Except Reject Instr :=
  if zero then .ok i else .error .illegalField

/-- SCOPE, CLS and WAIT of the M format (R75). -/
def attrM (w : Nat) : MemAttr :=
  ⟨Fin.ofNat 8 (w / 2 ^ 13), Fin.ofNat 4 (w / 2 ^ 11), Fin.ofNat 4 (w / 2 ^ 9)⟩

/-- SCOPE, CLS and WAIT of the LM format (R75). -/
def attrL (w : Nat) : MemAttr :=
  ⟨Fin.ofNat 8 (w / 2 ^ 5), Fin.ofNat 4 (w / 2 ^ 3), Fin.ofNat 4 (w / 2)⟩

/-- Major 0x02 (R85). -/
def decodeInt (w : Nat) : Except Reject Instr :=
  let d := rx w 21
  let a := rx w 16
  let b := rx w 11
  let aux0 : Bool := fld w 0 4 = 0
  let b0 : Bool := fld w 11 5 = 0
  let sh : Fin 64 := Fin.ofNat 64 (fld w 0 1 * 32 + fld w 11 5)
  match fld w 4 7 with
  | 0x00 => must aux0 (.add d a b)
  | 0x01 => must aux0 (.sub d a b)
  | 0x02 => must aux0 (.and d a b)
  | 0x03 => must aux0 (.or d a b)
  | 0x04 => must aux0 (.xor d a b)
  | 0x05 => must aux0 (.sll d a b)
  | 0x06 => must aux0 (.srl d a b)
  | 0x07 => must aux0 (.sra d a b)
  | 0x08 => must (fld w 1 3 = 0) (.slli d a sh)
  | 0x09 => must (fld w 1 3 = 0) (.srli d a sh)
  | 0x0A => must (fld w 1 3 = 0) (.srai d a sh)
  | 0x0B => must aux0 (.mul d a b)
  | 0x0C => must aux0 (.mulh d a b)
  | 0x0D => must aux0 (.mulhu d a b)
  | 0x0E => must aux0 (.div d a b)
  | 0x0F => must aux0 (.divu d a b)
  | 0x10 => must aux0 (.rem d a b)
  | 0x11 => must aux0 (.remu d a b)
  | 0x12 => must aux0 (.min d a b)
  | 0x13 => must aux0 (.max d a b)
  | 0x14 => must aux0 (.minu d a b)
  | 0x15 => must aux0 (.maxu d a b)
  | 0x16 => must (aux0 && b0) (.clz d a)
  | 0x17 => must (aux0 && b0) (.ctz d a)
  | 0x18 => must (aux0 && b0) (.popc d a)
  | 0x19 => must aux0 (.slt d a b)
  | 0x1A => must aux0 (.sltu d a b)
  | 0x1B => must aux0 (.seq d a b)
  | 0x1C => must (fld w 2 2 = 0) (.lea d a b (Fin.ofNat 4 w))
  | _ => .error .illegalInstruction

/-- Major 0x0E (R86). -/
def decodeFloat (w : Nat) : Except Reject Instr :=
  let d := rx w 21
  let a := rx w 16
  let b := rx w 11
  let rnd := r3 w 1
  let p := bt w 0
  let b0 : Bool := fld w 11 5 = 0
  match fld w 4 7 with
  | 0x00 => .ok (.fadd d a b rnd p)
  | 0x01 => .ok (.fsub d a b rnd p)
  | 0x02 => .ok (.fmul d a b rnd p)
  | 0x03 => .ok (.fma d a b rnd p)
  | 0x04 => .ok (.fdiv d a b rnd p)
  | 0x05 => must b0 (.fsqrt d a rnd p)
  | 0x06 => must (fld w 1 3 = 0) (.fmin d a b p)
  | 0x07 => must (fld w 1 3 = 0) (.fmax d a b p)
  | 0x08 => .ok (.fcmp d a b rnd p)
  | 0x09 => must (fld w 0 1 = 0) (.fcvt d a b rnd)
  | 0x0A => must (b0 && (fld w 1 3 = 0)) (.fclass d a p)
  | _ => .error .illegalInstruction

/-- Major 0x17, AMO (R87). -/
def decodeAmo (w : Nat) : Except Reject Instr :=
  let d := rx w 21
  let a := rx w 16
  let b := rx w 11
  let z := bt w 4
  let s := r3 w 1
  let o := bt w 0
  match fld w 5 6 with
  | 0 => .ok (.amoAdd d a b z s o)
  | 1 => .ok (.amoMin d a b z s o)
  | 2 => .ok (.amoMax d a b z s o)
  | 3 => .ok (.amoAnd d a b z s o)
  | 4 => .ok (.amoOr d a b z s o)
  | 5 => .ok (.amoXor d a b z s o)
  | 6 => .ok (.amoSwap d a b z s o)
  | 7 => .ok (.amoCas d a b z s o)
  | 8 => .ok (.amoFadd d a b z s o)
  | _ => .error .illegalInstruction

/-- Major 0x18, RED (R87, R211). -/
def decodeRed (w : Nat) : Except Reject Instr :=
  let a := rx w 16
  let b := rx w 11
  let z := bt w 4
  let s := r3 w 1
  let o := bt w 0
  let d0 : Bool := fld w 21 5 = 0
  match fld w 5 6 with
  | 0 => must d0 (.redAdd a b z s o)
  | 1 => must d0 (.redMin a b z s o)
  | 2 => must d0 (.redMax a b z s o)
  | 3 => must d0 (.redAnd a b z s o)
  | 4 => must d0 (.redOr a b z s o)
  | 5 => must d0 (.redXor a b z s o)
  | 8 => must d0 (.redFadd a b z s o)
  | _ => .error .illegalInstruction

/-- Major 0x19, FENCE (R88). KIND 3 is a reserved value. -/
def decodeFence (w : Nat) : Except Reject Instr :=
  let z : Bool := fld w 7 19 = 0
  let s := r3 w 0
  let wt : Fin 4 := Fin.ofNat 4 (w / 2 ^ 5)
  match fld w 3 2 with
  | 0 => must z (.fence s wt)
  | 1 => must z (.fenceAcq s wt)
  | 2 => must z (.fenceRel s wt)
  | _ => .error .illegalField

/-- Major 0x1C, vector A (R89). -/
def decodeVecA (p : Option Vpx) (w : Nat) : Except Reject Instr :=
  let d := rv w 21
  let a := rv w 16
  let b := rv w 11
  let f := r4 w 7
  let b0 : Bool := fld w 11 5 = 0
  let m0 : Bool := fld w 24 2 = 0
  match fld w 0 7 with
  | 0x00 => .ok (.vadd p f d a b)
  | 0x01 => .ok (.vsub p f d a b)
  | 0x02 => .ok (.vmul p f d a b)
  | 0x03 => .ok (.vfma p f d a b)
  | 0x04 => .ok (.vmin p f d a b)
  | 0x05 => .ok (.vmax p f d a b)
  | 0x06 => must b0 (.vabs p f d a)
  | 0x07 => must b0 (.vneg p f d a)
  | 0x08 => must m0 (.vcmpEq p f (r3 w 21) a b)
  | 0x09 => must m0 (.vcmpNe p f (r3 w 21) a b)
  | 0x0A => must m0 (.vcmpLt p f (r3 w 21) a b)
  | 0x0B => must m0 (.vcmpLe p f (r3 w 21) a b)
  | 0x0C => must m0 (.vcmpUnord p f (r3 w 21) a b)
  | 0x0D => .ok (.vsel p f d a b)
  | 0x0E => .ok (.vand p f d a b)
  | 0x0F => .ok (.vor p f d a b)
  | 0x10 => .ok (.vxor p f d a b)
  | 0x11 => .ok (.vshl p f d a b)
  | 0x12 => .ok (.vshr p f d a b)
  | _ => .error .illegalInstruction

/-- Major 0x1D, vector B and masks (R90). -/
def decodeVecB (p : Option Vpx) (w : Nat) : Except Reject Instr :=
  let d := rv w 21
  let a := rv w 16
  let b := rv w 11
  let f := r4 w 7
  let b0 : Bool := fld w 11 5 = 0
  let mD : Bool := fld w 24 2 = 0
  let mA : Bool := fld w 19 2 = 0
  let mB : Bool := fld w 14 2 = 0
  match fld w 0 7 with
  | 0x00 => .ok (.vldg p f d (rx w 16) b)
  | 0x01 => .ok (.vsts p f d (rx w 16) b)
  | 0x02 => must b0 (.vsumRow p f d a)
  | 0x03 => must b0 (.vsumCol p f d a)
  | 0x04 => must b0 (.vmaxrRow p f d a)
  | 0x05 => must b0 (.vmaxrCol p f d a)
  | 0x06 => .ok (.vperm p f d a b)
  | 0x07 => .ok (.vrot p f d a (rx w 11))
  | 0x08 => must b0 (.vtrn p f d a)
  | 0x09 => must b0 (.vbcast p f d (rx w 16))
  | 0x0A => must b0 (.vmov p f d a)
  | 0x0B => must (fld w 15 1 = 0) (.vcvt p f (r4 w 11) d a)
  | 0x0C => must (fld w 15 1 = 0) (.vcvtSat p f (r4 w 11) d a)
  | 0x0D => .ok (.vshape p f (rx w 21) (rx w 16) (rx w 11))
  | 0x10 => must b0 (.vrint p f d a)
  | 0x11 => must b0 (.vexp2f p f d a)
  | 0x12 => .ok (.vscaleb p f d a b)
  | 0x13 => must b0 (.vrcp p f d a)
  | 0x14 => must b0 (.vrsqrt p f d a)
  | 0x15 => must b0 (.vlog2 p f d a)
  | 0x16 => must b0 (.vsinpi p f d a)
  | 0x20 => must (mD && mA && mB) (.mand p f (r3 w 21) (r3 w 16) (r3 w 11))
  | 0x21 => must (mD && mA && mB) (.mor p f (r3 w 21) (r3 w 16) (r3 w 11))
  | 0x22 => must (mD && mA && b0) (.mnot p f (r3 w 21) (r3 w 16))
  | 0x23 => must (mA && b0) (.mpop p f (rx w 21) (r3 w 16))
  | _ => .error .illegalInstruction

/-- Majors 0x1A to 0x1D, with or without a prefix (R81). -/
def decodeVector (p : Option Vpx) (w : Nat) : Except Reject Instr :=
  match fld w 26 6 with
  | 0x1A => .ok (.vld p (r4 w 5) (rv w 21) (rx w 16) (attrM w) (BitVec.ofNat 5 w))
  | 0x1B => .ok (.vst p (r4 w 5) (rv w 21) (rx w 16) (attrM w) (BitVec.ofNat 5 w))
  | 0x1C => decodeVecA p w
  | 0x1D => decodeVecB p w
  | _ => .error .illegalInstruction

/-- Major 0x1E, system (R91). -/
def decodeSystem (w : Nat) : Except Reject Instr :=
  let d := rx w 21
  let a := rx w 16
  let sn : Fin 1024 := Fin.ofNat 1024 w
  let d0 : Bool := fld w 21 5 = 0
  let a0 : Bool := fld w 16 5 = 0
  let s0 : Bool := fld w 0 10 = 0
  match fld w 10 6 with
  | 0x00 => must a0 (.srd d sn)
  | 0x01 => must d0 (.swr sn a)
  | 0x02 => must (d0 && a0) (.svc sn)
  | 0x03 => must (d0 && a0 && s0) .eret
  | 0x04 => must (d0 && a0) (.trap sn)
  | 0x05 => must (d0 && a0) (.bkpt sn)
  | 0x06 => .ok (.pkrd d a sn)
  | 0x07 => .ok (.pkwr d a sn)
  | 0x08 => must (d0 && s0) (.spill a)
  | 0x09 => must (d0 && (fld w 3 7 = 0)) (.amapw (r3 w 0) a)
  | 0x0A => must (d0 && s0) (.tlbinv a)
  | 0x0B => must (d0 && s0) (.cflush a)
  | 0x0C => must (d0 && (fld w 1 9 = 0)) (.cinv a (bt w 0))
  | 0x0D => must s0 (.capq d a)
  | _ => .error .illegalInstruction

/-- Majors 0x1F to 0x22 (R92), AUX zero. -/
def decodeTask (w : Nat) : Except Reject Instr :=
  let d := rx w 21
  let a := rx w 16
  let b := rx w 11
  let z : Bool := fld w 0 4 = 0
  let d0 : Bool := fld w 21 5 = 0
  let a0 : Bool := fld w 16 5 = 0
  let b0 : Bool := fld w 11 5 = 0
  match fld w 26 6, fld w 4 7 with
  | 0x1F, 0x00 => must (z && b0) (.spawn d a)
  | 0x1F, 0x01 => must (z && d0 && b0) (.tend a)
  | 0x1F, 0x02 => must z (.cancel d a b)
  | 0x1F, 0x03 => must z (.cwait d a b)
  | 0x20, 0x00 => must z (.barinit d a b)
  | 0x20, 0x01 => must z (.barw d a b)
  | 0x20, 0x02 => must (z && b0) (.menter d a)
  | 0x20, 0x03 => must (z && d0 && b0) (.mexit a)
  | 0x20, 0x04 => must (z && a0 && b0) (.gzbegin d)
  | 0x20, 0x05 => must (z && a0 && b0) (.gzend d)
  | 0x20, 0x06 => must (z && d0 && b0) (.gzabort a)
  | 0x21, 0x00 => must (z && b0) (.pclass d a)
  | 0x21, 0x01 => must z (.blease d a b)
  | 0x22, 0x00 => must z (.msend d a b)
  | 0x22, 0x01 => must z (.mrecv d a b)
  | 0x22, 0x02 => must (z && a0) (.mpeek d b)
  | _, _ => .error .illegalInstruction

/-- An instruction of one parcel (R84). -/
def decodeShort (w : Nat) : Except Reject Instr :=
  let d := rx w 21
  let a := rx w 16
  match fld w 26 6 with
  | 0x01 => .ok (.nop (BitVec.ofNat 26 w))
  | 0x02 => decodeInt w
  | 0x03 => .ok (.addi d a (BitVec.ofNat 16 w))
  | 0x06 => .ok (.beq d a (BitVec.ofNat 16 w))
  | 0x07 => .ok (.bne d a (BitVec.ofNat 16 w))
  | 0x08 => .ok (.blt d a (BitVec.ofNat 16 w))
  | 0x09 => .ok (.bge d a (BitVec.ofNat 16 w))
  | 0x0A => .ok (.bltu d a (BitVec.ofNat 16 w))
  | 0x0B => .ok (.bgeu d a (BitVec.ofNat 16 w))
  | 0x0C => .ok (.jal d (BitVec.ofNat 21 w))
  | 0x0D => .ok (.jalr d a (BitVec.ofNat 16 w))
  | 0x0E => decodeFloat w
  | 0x0F => .ok (.ldB d a (attrM w) (BitVec.ofNat 9 w))
  | 0x10 => .ok (.ldH d a (attrM w) (BitVec.ofNat 9 w))
  | 0x11 => .ok (.ldW d a (attrM w) (BitVec.ofNat 9 w))
  | 0x12 => .ok (.ldD d a (attrM w) (BitVec.ofNat 9 w))
  | 0x13 => .ok (.stB d a (attrM w) (BitVec.ofNat 9 w))
  | 0x14 => .ok (.stH d a (attrM w) (BitVec.ofNat 9 w))
  | 0x15 => .ok (.stW d a (attrM w) (BitVec.ofNat 9 w))
  | 0x16 => .ok (.stD d a (attrM w) (BitVec.ofNat 9 w))
  | 0x17 => decodeAmo w
  | 0x18 => decodeRed w
  | 0x19 => decodeFence w
  | 0x1A => decodeVector none w
  | 0x1B => decodeVector none w
  | 0x1C => decodeVector none w
  | 0x1D => decodeVector none w
  | 0x1E => decodeSystem w
  | 0x1F => decodeTask w
  | 0x20 => decodeTask w
  | 0x21 => decodeTask w
  | 0x22 => decodeTask w
  | _ => .error .illegalInstruction

/-- The LM forms (R93): w the first parcel, v the second. -/
def decodeLM (w v : Nat) : Except Reject Instr :=
  let d := rx w 13
  let a := rx w 8
  let m := attrL w
  let f := r4 v 28
  let xs := rx v 23
  let pr := r4 v 19
  let off : BitVec 19 := BitVec.ofNat 19 v
  let td := r3 w 13
  let d0 : Bool := fld w 13 5 = 0
  let dt : Bool := fld w 16 2 = 0
  let a0 : Bool := fld w 8 5 = 0
  let m0 : Bool := fld w 1 7 = 0
  let f0 : Bool := fld v 28 4 = 0
  let x0 : Bool := fld v 23 5 = 0
  let p0 : Bool := fld v 19 4 = 0
  let z := f0 && x0 && p0
  match fld w 18 8 with
  | 0x00 => must z (.ldBLong d a m off)
  | 0x01 => must z (.ldHLong d a m off)
  | 0x02 => must z (.ldWLong d a m off)
  | 0x03 => must z (.ldDLong d a m off)
  | 0x04 => must z (.stBLong d a m off)
  | 0x05 => must z (.stHLong d a m off)
  | 0x06 => must z (.stWLong d a m off)
  | 0x07 => must z (.stDLong d a m off)
  | 0x08 => must (a0 && m0) (.lih d (BitVec.ofNat 32 v))
  | 0x09 => must (a0 && m0) (.lihHi d (BitVec.ofNat 32 v))
  | 0x0A => must (a0 && m0) (.jalLong d (BitVec.ofNat 32 v))
  | 0x10 => must z (.gld false d a m off)
  | 0x11 => must z (.gld true d a m off)
  | 0x12 => must z (.gst false d a m off)
  | 0x13 => must z (.gst true d a m off)
  | 0x14 =>
    match fld v 28 4 with
    | 0 => must p0 (.gamoAdd false d a xs m off)
    | 1 => must p0 (.gamoMin false d a xs m off)
    | 2 => must p0 (.gamoMax false d a xs m off)
    | 3 => must p0 (.gamoAnd false d a xs m off)
    | 4 => must p0 (.gamoOr false d a xs m off)
    | 5 => must p0 (.gamoXor false d a xs m off)
    | 6 => must p0 (.gamoSwap false d a xs m off)
    | 7 => must p0 (.gamoCas false d a xs m off)
    | 8 => must p0 (.gamoFadd d a xs m off)
    | _ => .error .illegalField
  | 0x15 =>
    match fld v 28 4 with
    | 0 => must p0 (.gamoAdd true d a xs m off)
    | 1 => must p0 (.gamoMin true d a xs m off)
    | 2 => must p0 (.gamoMax true d a xs m off)
    | 3 => must p0 (.gamoAnd true d a xs m off)
    | 4 => must p0 (.gamoOr true d a xs m off)
    | 5 => must p0 (.gamoXor true d a xs m off)
    | 6 => must p0 (.gamoSwap true d a xs m off)
    | 7 => must p0 (.gamoCas true d a xs m off)
    | _ => .error .illegalField
  | 0x20 => must (dt && p0) (.tld td a xs f m off)
  | 0x21 => must (dt && a0 && m0 && (fld v 18 1 = 0)) (.tldp td pr xs f off)
  | 0x22 => must (dt && p0) (.tst td a xs f m off)
  | 0x23 => must (dt && m0 && (fld v 18 1 = 0)) (.tstp td pr a xs f off)
  | 0x24 => must (d0 && z) (.ctwr a m off)
  | 0x28 => must (m0 && f0 && p0) (.fapp d a xs off)
  | 0x29 => must (m0 && z) (.fseq d a off)
  | _ => .error .illegalInstruction

/-- The LT forms (R93, R245, R288). A field with a dash must be zero. -/
def decodeLT (w v : Nat) : Except Reject Instr :=
  let td := r3 w 15
  let ta := r3 w 12
  let tb := r3 w 9
  let fa := r4 w 5
  let fb := r4 w 1
  let fd := r4 v 28
  let pa := r4 v 24
  let pb := r4 v 20
  let ra := bt v 19
  let rb := bt v 18
  let sp := r3 v 15
  let rnd := r3 v 12
  let sat := bt v 11
  let xs := rx v 6
  let xt := rx v 1
  let q : QNum := Fin.ofNat 2 (w / 2 ^ 15)
  let qd : Bool := fld w 16 2 = 0
  let zTD : Bool := fld w 15 3 = 0
  let zTA : Bool := fld w 12 3 = 0
  let zTB : Bool := fld w 9 3 = 0
  let zFA : Bool := fld w 5 4 = 0
  let zFB : Bool := fld w 1 4 = 0
  let zFD : Bool := fld v 28 4 = 0
  let zPA : Bool := fld v 24 4 = 0
  let zPB : Bool := fld v 18 6 = 0
  let zSP : Bool := fld v 15 3 = 0
  let zRN : Bool := fld v 12 3 = 0
  let zST : Bool := fld v 11 1 = 0
  let zXS : Bool := fld v 6 5 = 0
  let zXT : Bool := fld v 1 5 = 0
  let zM : Bool := fld v 0 1 = 0
  let zT := zTA && zTB && zFA && zFB
  match fld w 18 8 with
  | 0x40 => must (zSP && zRN && zST && zXS && zXT && zM) (.tmma td ta tb fa fb fd pa pb ra rb)
  | 0x41 => must (zRN && zST && zXT && zM) (.tmmas td ta tb fa fb fd pa pb ra rb sp xs)
  | 0x42 => must (zT && zPA && zPB && zSP && zRN && zST && zXT && zM) (.tzero td fd xs)
  | 0x43 => must ((fld w 10 2 = 0) && zFB && zPA && zPB && zSP && zXS && zXT && zM)
      (.tcvt td ta (bt w 9) fa fd rnd sat)
  | 0x44 => must (zFA && zFB && zPA && zPB && zSP && zST && zXS && zXT && zM) (.tadd td ta tb fd rnd)
  | 0x45 => must (zT && zPA && zPB && zSP && zRN && zST && zXT && zM) (.tgrp td fd xs)
  | 0x46 => must (zTD && zT && zFD && zPA && zPB && zSP && zRN && zST && zXS && zXT && zM) .ctswap
  | 0x50 => must (zTD && zT && zFD && zPB && zSP && zRN && zST && zM) (.pdef pa xs xt)
  | 0x51 => must (zTD && zT && zFD && zPB && zSP && zRN && zST && zM) (.psub pa xs xt)
  | 0x52 => must (zTD && zT && zFD && zPB && zSP && zRN && zST && zXS && zM) (.pclaim pa xt)
  | 0x53 => must (zTD && zT && zFD && zPB && zSP && zRN && zST && zXT && zM) (.ppost pa xs)
  | 0x54 => must (zTD && zT && zFD && zPB && zSP && zRN && zST && zXS && zM) (.pwfill pa xt)
  | 0x55 => must (zTD && zT && zFD && zPB && zSP && zRN && zST && zM) (.pwfree pa xs xt)
  | 0x56 => must (zTD && zT && zFD && zPB && zSP && zRN && zST && zXS && zXT && zM) (.ppop pa)
  | 0x60 => must (qd && zT && zFD && zPA && zPB && zSP && zRN && zST && zXS && zXT && zM) (.qclr q)
  | 0x61 => must (qd && zT && zFD && zPA && zPB && zSP && zRN && zST && zM) (.qadd q xs xt)
  | 0x62 => must (qd && zTA && zTB && zFB && zFD && zPA && zPB && zSP && zRN && zST && zXT && zM)
      (.qaddf q fa xs)
  | 0x63 => must (qd && zT && zPA && zPB && zSP && zST && zM) (.qrnd q fd rnd xs xt)
  | 0x64 =>
    if zFA then must (qd && zT && zFD && zPA && zPB && zSP && zRN && zST && zM) (.qsendQ q xs xt)
    else must (zTD && zFD && zPA && zPB && zSP && zRN && zST && zM) (.qsendQ4n ta tb fa fb xs xt)
  | _ => .error .illegalInstruction

/-- A vector parcel under the prefix w (R81). MRSV is must-understand, and is looked at after check 2. -/
def decodePrefixed (w v : Nat) : Except Reject Instr :=
  match decodeVector (some ⟨r3 w 23, bt w 22, r3 w 19, rv w 14, Fin.ofNat 64 (w / 2 ^ 8)⟩) v with
  | .error e => .error e
  | .ok i => must (fld w 4 4 = 0) i

/-- Whether an instruction with first parcel w has a second one (R74). -/
def isLong (w : Nat) : Bool := fld w 26 6 = 0x3E || fld w 26 6 = 0x3F

/-- The decoder: the first parcel and, where isLong says so, the second. -/
def decodeParcels (w v : Nat) : Except Reject Instr :=
  if fld w 26 6 = 0x3F then
    (if fld w 18 8 < 0x40 then decodeLM w v else decodeLT w v)
  else if fld w 26 6 = 0x3E then decodePrefixed w v
  else decodeShort w

/-- A number from bytes, the first byte lowest (R4). -/
def fromBytes : List Byte → Nat
  | [] => 0
  | b :: bs => b.toNat + 256 * fromBytes bs

/-- The n lowest bytes of a number, the first byte lowest (R4). -/
def toBytes : Nat → Nat → List Byte
  | 0, _ => []
  | n + 1, w => BitVec.ofNat 8 w :: toBytes n (w / 256)

/-- Decoding of a list of bytes: none where the list ends within the instruction. -/
def decodeBytes (bs : List Byte) : Option (Except Reject Instr) :=
  if bs.length < 4 then none
  else
    let w := fromBytes (bs.take 4)
    if isLong w && bs.length < 8 then none
    else some (decodeParcels w (fromBytes ((bs.drop 4).take 4)))

/-- The instruction that the decoder reads from the bits of a table word. -/
def decodeTableWord (_nbits w : Nat) : Option Instr :=
  match decodeBytes (toBytes 8 w) with
  | some (.ok i) => some i
  | _ => none

/-! Acceptance: the tables of R111, R150, R162, R241 and R252. -/

/-- Format group F of R150: tags 1 to 4. -/
def fmtF (f : FmtCode) : Bool := 1 ≤ f.val && f.val ≤ 4

/-- Format group I of R150: tags 7 to 11. -/
def fmtI (f : FmtCode) : Bool := 7 ≤ f.val && f.val ≤ 11

/-- Format group W of R150: tags 1 to 11. -/
def fmtW (f : FmtCode) : Bool := 1 ≤ f.val && f.val ≤ 11

/-- The floating-point formats of R162. -/
def fmtFloat (f : FmtCode) : Bool := 1 ≤ f.val && f.val ≤ 6

/-- The integer formats of R162. -/
def fmtInteger (f : FmtCode) : Bool := 7 ≤ f.val && f.val ≤ 12

/-- The tile formats (R241). -/
def fmtTile (f : FmtCode) : Bool :=
  f = 2 || f = 3 || f = 4 || f = 5 || f = 6 || f = 8 || f = 10 || f = 12 || f = 13 || f = 14

/-- Q4N or Q4P. -/
def fmtQ4 (f : FmtCode) : Bool := f = 13 || f = 14

/-- The pairs that VCVT accepts (R162). -/
def cvtPair (dst src : FmtCode) : Bool :=
  ((fmtFloat src || fmtInteger src) && (fmtFloat dst || fmtInteger dst)) ||
  (src = 2 && fmtQ4 dst) || (fmtQ4 src && fmtF dst)

/-- The combinations that TMMA accepts (R252). -/
def tmmaFmts (fa fb fd : FmtCode) : Bool :=
  ((fa = 5 || fa = 6) && (fb = 5 || fb = 6) && fd = 2) ||
  (fa = 3 && fb = 3 && fd = 2) || (fa = 4 && fb = 4 && fd = 2) ||
  (fa = 10 && fb = 10 && fd = 8) || (fa = 12 && fb = 12 && fd = 8) ||
  (fmtQ4 fa && fb = 5 && fd = 2)

/-- The combinations that TMMAS accepts (R233, R252). -/
def tmmasFmts (fa fb fd : FmtCode) : Bool :=
  tmmaFmts fa fb fd && (fa = 5 || fa = 6 || fa = 3 || fa = 4 || fa = 10)

/-- The assigned system register numbers (R111). -/
def sysAssigned (n : Nat) : Bool := n ≤ 0x014 || (0x020 ≤ n && n ≤ 0x03F)

/-- The numbers that PKRD and PKWR accept (R350). -/
def parkAssigned (n : Nat) : Bool := n ≤ 0x024 || (0x100 ≤ n && n ≤ 0x13F && sysAssigned (n - 0x100))

/-- The causes that TRAP accepts (R352). -/
def trapAccepts (n : Nat) : Bool := 1 ≤ n && n ≤ 0x14 && n != 0x0F && n != 0x12 && n != 0x13

/-- Which prefix fields a vector instruction accepts (R150). -/
structure VpxAccept where
  mask : Bool
  mz : Bool
  rnd : Bool
  c : Bool
deriving DecidableEq, Repr

/-- Every prefix field that is not accepted is zero, and RND is not the reserved 7 (R81, R94). -/
def vpxOk (p : Option Vpx) (k : VpxAccept) : Bool :=
  match p with
  | none => true
  | some v => (k.mask || v.mask = 0) && (k.mz || !v.mz) && (k.rnd || v.rnd = 0) && (k.c || v.c = 0) &&
      v.rnd != 7

/-- A reserved field value comes before a format that is not accepted (R97). -/
def verdict (fieldsOk fmtOk : Bool) : Option Reject :=
  if !fieldsOk then some .illegalField else if !fmtOk then some .formatMismatch else none

/-- The verdict of a vector instruction. -/
def vecCheck (p : Option Vpx) (mask mz rnd c fmtOk : Bool) : Option Reject :=
  verdict (vpxOk p ⟨mask, mz, rnd, c⟩) fmtOk

/-- SCOPE 7 is reserved (R79). -/
def scopeOk (m : MemAttr) : Bool := m.scope != 7

/-- The prefix's C field for a conversion (R162): the bank of a Q4P destination, else zero. -/
def cvtC (p : Option Vpx) (dst : FmtCode) : Bool :=
  match p with
  | none => true
  | some v => if dst = 14 then v.c.val ≤ 1 else v.c = 0

/-- RA and RB choose between the tile name and the ring handle (R245). -/
def ringFields (ta tb : TNum) (pa pb : PNum) (ra rb : Bool) : Bool :=
  (if ra then decide (ta = 0) else decide (pa = 0)) && (if rb then decide (tb = 0) else decide (pb = 0))

/-- Decode checks 3 and 4 of R97 on defined fields: none where the instruction passes. -/
def checkFields (i : Instr) : Option Reject :=
  match i with
  | .fadd _ _ _ r _ | .fsub _ _ _ r _ | .fmul _ _ _ r _ | .fma _ _ _ r _ | .fdiv _ _ _ r _
  | .fsqrt _ _ r _ => verdict (r != 7) true
  | .fcmp _ _ _ c _ => verdict (1 ≤ c.val && c.val ≤ 4) true
  | .fcvt _ _ sel r => verdict (sel.val ≤ 9 && r != 7) true
  | .ldB _ _ m _ | .ldH _ _ m _ | .ldW _ _ m _ | .ldD _ _ m _
  | .stB _ _ m _ | .stH _ _ m _ | .stW _ _ m _ | .stD _ _ m _
  | .ldBLong _ _ m _ | .ldHLong _ _ m _ | .ldWLong _ _ m _ | .ldDLong _ _ m _
  | .stBLong _ _ m _ | .stHLong _ _ m _ | .stWLong _ _ m _ | .stDLong _ _ m _
  | .ctwr _ m _ => verdict (scopeOk m) true
  | .amoAdd _ _ _ _ s _ | .amoMin _ _ _ _ s _ | .amoMax _ _ _ _ s _ | .amoAnd _ _ _ _ s _
  | .amoOr _ _ _ _ s _ | .amoXor _ _ _ _ s _ | .amoSwap _ _ _ _ s _ | .amoCas _ _ _ _ s _
  | .amoFadd _ _ _ _ s _ => verdict (s != 7) true
  | .redAdd _ _ _ s _ | .redMin _ _ _ s _ | .redMax _ _ _ s _ | .redAnd _ _ _ s _
  | .redOr _ _ _ s _ | .redXor _ _ _ s _ | .redFadd _ _ _ s _ => verdict (s != 7) true
  | .fence s _ | .fenceAcq s _ | .fenceRel s _ => verdict (s != 7) true
  | .vld p f _ _ m _ => verdict (scopeOk m && vpxOk p ⟨f != 0, f != 0, false, false⟩) (f != 15)
  | .vst p f _ _ m _ => verdict (scopeOk m && vpxOk p ⟨f != 0, false, false, false⟩) (f != 15)
  | .vadd p f _ _ _ | .vsub p f _ _ _ | .vmul p f _ _ _ => vecCheck p true true true false (fmtF f || fmtI f)
  | .vfma p f _ _ _ => vecCheck p true true true true (fmtF f || fmtI f)
  | .vmin p f _ _ _ | .vmax p f _ _ _ => vecCheck p true true false false (fmtF f || fmtI f)
  | .vabs p f _ _ | .vneg p f _ _ => vecCheck p true true false false (fmtF f || fmtI f)
  | .vcmpEq p f _ _ _ | .vcmpNe p f _ _ _ | .vcmpLt p f _ _ _ | .vcmpLe p f _ _ _ =>
      vecCheck p true true false false (fmtF f || fmtI f)
  | .vcmpUnord p f _ _ _ => vecCheck p true true false false (fmtF f)
  | .vsel p f _ _ _ => vecCheck p true false false false (fmtW f)
  | .vand p f _ _ _ | .vor p f _ _ _ | .vxor p f _ _ _ =>
      vecCheck p (f != 0) (f != 0) false false (f = 0 || fmtW f)
  | .vshl p f _ _ _ | .vshr p f _ _ _ => vecCheck p true true false false (fmtI f)
  | .vldg p f _ _ _ => vecCheck p true true false false (fmtW f)
  | .vsts p f _ _ _ => vecCheck p true false false false (fmtW f)
  | .vsumRow p f _ _ | .vsumCol p f _ _ => vecCheck p true false true false (fmtF f || fmtI f)
  | .vmaxrRow p f _ _ | .vmaxrCol p f _ _ => vecCheck p true false false false (fmtF f || fmtI f)
  | .vperm p f _ _ _ | .vrot p f _ _ _ => vecCheck p true true false false (fmtW f)
  | .vtrn p f _ _ | .vbcast p f _ _ => vecCheck p true true false false (fmtW f)
  | .vmov p f _ _ => vecCheck p (f != 0) (f != 0) false false (f = 0 || fmtW f)
  | .vcvt p dst src _ _ | .vcvtSat p dst src _ _ =>
      verdict (vpxOk p ⟨true, true, true, true⟩ && cvtC p dst) (cvtPair dst src)
  | .vshape p f _ _ _ => vecCheck p false false false false (f = 0)
  | .vrint p f _ _ | .vrcp p f _ _ | .vrsqrt p f _ _ => vecCheck p true true true false (fmtF f)
  | .vscaleb p f _ _ _ => vecCheck p true true true false (fmtF f)
  | .vexp2f p f _ _ | .vlog2 p f _ _ | .vsinpi p f _ _ => vecCheck p true true false false (f = 2)
  | .mand p f _ _ _ | .mor p f _ _ _ => vecCheck p false false false false (f = 0)
  | .mnot p f _ _ => vecCheck p false false false false (f = 0)
  | .mpop p f _ _ => vecCheck p false false false false (f = 0)
  | .srd _ n | .swr n _ => verdict (sysAssigned n.val) true
  | .trap n => verdict (trapAccepts n.val) true
  | .pkrd _ _ n | .pkwr _ _ n => verdict (parkAssigned n.val) true
  | .mpeek _ sel => verdict (sel.val ≤ 2) true
  | .gld _ _ _ m _ | .gst _ _ _ m _ => verdict (scopeOk m && m.cls.val ≤ 1) true
  | .gamoAdd _ _ _ _ m _ | .gamoMin _ _ _ _ m _ | .gamoMax _ _ _ _ m _ | .gamoAnd _ _ _ _ m _
  | .gamoOr _ _ _ _ m _ | .gamoXor _ _ _ _ m _ | .gamoSwap _ _ _ _ m _ | .gamoCas _ _ _ _ m _
  | .gamoFadd _ _ _ m _ => verdict (scopeOk m && m.cls.val ≤ 1) true
  | .tld _ _ _ f m _ | .tst _ _ _ f m _ => verdict (scopeOk m) (fmtTile f)
  | .tldp _ _ _ f off | .tstp _ _ _ _ f off => verdict (!off.msb) (fmtTile f)
  | .tmma _ ta tb fa fb fd pa pb ra rb => verdict (ringFields ta tb pa pb ra rb) (tmmaFmts fa fb fd)
  | .tmmas _ ta tb fa fb fd pa pb ra rb sp _ =>
      verdict (ringFields ta tb pa pb ra rb && 1 ≤ sp.val && sp.val ≤ 3) (tmmasFmts fa fb fd)
  | .tzero _ f _ => verdict true (fmtTile f)
  | .tcvt _ _ bank fa fd r _ =>
      verdict ((fd = 14 || !bank) && r != 7) (fmtTile fa && fmtTile fd && cvtPair fd fa)
  | .tadd _ _ _ f r => verdict (r != 7) (f = 2 || f = 8)
  | .tgrp _ f _ => verdict true (f = 2 || f = 8)
  | .qaddf _ f _ => verdict true (f = 1 || f = 2 || f = 7)
  | .qrnd _ f r _ _ => verdict (r != 7) (f = 1 || f = 2)
  | .qsendQ4n _ _ fa fb _ _ => verdict true (fmtQ4 fa && fb = 5)
  | _ => none

/-! The encoder, from the formats of R75. -/

/-- RR format. -/
def encRR (maj : Nat) (d a b : Nat) (fn aux : Nat) : List Nat :=
  [maj * 2 ^ 26 + d * 2 ^ 21 + a * 2 ^ 16 + b * 2 ^ 11 + fn * 2 ^ 4 + aux]

/-- RI and B formats. -/
def encRI (maj d a imm : Nat) : List Nat := [maj * 2 ^ 26 + d * 2 ^ 21 + a * 2 ^ 16 + imm]

/-- M scalar format. -/
def encM (maj : Nat) (t a : XReg) (m : MemAttr) (off : BitVec 9) : List Nat :=
  [maj * 2 ^ 26 + t.val * 2 ^ 21 + a.val * 2 ^ 16 + m.scope.val * 2 ^ 13 + m.cls.val * 2 ^ 11 +
    m.wait.val * 2 ^ 9 + off.toNat]

/-- The VPX parcel of a prefix, or none. -/
def encVpx (p : Option Vpx) (w : Nat) : List Nat :=
  match p with
  | none => [w]
  | some v => [0x3E * 2 ^ 26 + v.mask.val * 2 ^ 23 + v.mz.toNat * 2 ^ 22 + v.rnd.val * 2 ^ 19 +
      v.c.val * 2 ^ 14 + v.hint.val * 2 ^ 8, w]

/-- M vector format. -/
def encMV (p : Option Vpx) (maj : Nat) (f : FmtCode) (t : VNum) (a : XReg) (m : MemAttr) (off : BitVec 5) :
    List Nat :=
  encVpx p (maj * 2 ^ 26 + t.val * 2 ^ 21 + a.val * 2 ^ 16 + m.scope.val * 2 ^ 13 + m.cls.val * 2 ^ 11 +
    m.wait.val * 2 ^ 9 + f.val * 2 ^ 5 + off.toNat)

/-- V format. -/
def encV (p : Option Vpx) (maj : Nat) (f : FmtCode) (d a b fn : Nat) : List Nat :=
  encVpx p (maj * 2 ^ 26 + d * 2 ^ 21 + a * 2 ^ 16 + b * 2 ^ 11 + f.val * 2 ^ 7 + fn)

/-- LM format, address layout. -/
def encLM (lop d a : Nat) (m : MemAttr) (f xs pr : Nat) (off : BitVec 19) : List Nat :=
  [0x3F * 2 ^ 26 + lop * 2 ^ 18 + d * 2 ^ 13 + a * 2 ^ 8 + m.scope.val * 2 ^ 5 + m.cls.val * 2 ^ 3 +
      m.wait.val * 2,
    f * 2 ^ 28 + xs * 2 ^ 23 + pr * 2 ^ 19 + off.toNat]

/-- LM format, immediate layout. -/
def encLI (lop : Nat) (d : XReg) (imm : BitVec 32) : List Nat :=
  [0x3F * 2 ^ 26 + lop * 2 ^ 18 + d.val * 2 ^ 13, imm.toNat]

/-- LT format, first parcel. -/
def encT0 (lop td ta tb fa fb : Nat) : Nat :=
  0x3F * 2 ^ 26 + lop * 2 ^ 18 + td * 2 ^ 15 + ta * 2 ^ 12 + tb * 2 ^ 9 + fa * 2 ^ 5 + fb * 2

/-- LT format, second parcel. -/
def encT1 (fd pa pb : Nat) (ra rb : Bool) (sp rnd : Nat) (sat : Bool) (xs xt : Nat) : Nat :=
  fd * 2 ^ 28 + pa * 2 ^ 24 + pb * 2 ^ 20 + ra.toNat * 2 ^ 19 + rb.toNat * 2 ^ 18 + sp * 2 ^ 15 +
    rnd * 2 ^ 12 + sat.toNat * 2 ^ 11 + xs * 2 ^ 6 + xt * 2

/-- System format: SF and SN in the immediate (R91). -/
def encS (sf d a sn : Nat) : List Nat := encRI 0x1E d a (sf * 2 ^ 10 + sn)

/-- Scalar floating point (R86). -/
def encF (fn : Nat) (d a b : Nat) (rnd : Nat) (p : Bool) : List Nat := encRR 0x0E d a b fn (rnd * 2 + p.toNat)

/-- AMO and RED (R87): op is FN without its size bit. -/
def encA (maj op d : Nat) (a b : XReg) (z : Bool) (s : Fin 8) (o : Bool) : List Nat :=
  encRR maj d a.val b.val (op * 2 + z.toNat) (s.val * 2 + o.toNat)

/-- No attributes. -/
def attr0 : MemAttr := ⟨0, 0, 0⟩

/-- GAMO (R285). -/
def encG (op : Nat) (dbl : Bool) (d a xs : XReg) (m : MemAttr) (off : BitVec 19) : List Nat :=
  encLM (0x14 + dbl.toNat) d.val a.val m op xs.val 0 off

/-- A ring instruction (R245). -/
def encP (lop : Nat) (p : PNum) (xs xt : Nat) : List Nat :=
  [encT0 lop 0 0 0 0 0, encT1 0 p.val 0 false false 0 0 false xs xt]

/-- The parcels of an instruction; a step of the device has none. -/
def encode (i : Instr) : List Nat :=
  match i with
  | .add d a b => encRR 2 d.val a.val b.val 0x00 0
  | .sub d a b => encRR 2 d.val a.val b.val 0x01 0
  | .and d a b => encRR 2 d.val a.val b.val 0x02 0
  | .or d a b => encRR 2 d.val a.val b.val 0x03 0
  | .xor d a b => encRR 2 d.val a.val b.val 0x04 0
  | .sll d a b => encRR 2 d.val a.val b.val 0x05 0
  | .srl d a b => encRR 2 d.val a.val b.val 0x06 0
  | .sra d a b => encRR 2 d.val a.val b.val 0x07 0
  | .slli d a n => encRR 2 d.val a.val (n.val % 32) 0x08 (n.val / 32)
  | .srli d a n => encRR 2 d.val a.val (n.val % 32) 0x09 (n.val / 32)
  | .srai d a n => encRR 2 d.val a.val (n.val % 32) 0x0A (n.val / 32)
  | .mul d a b => encRR 2 d.val a.val b.val 0x0B 0
  | .mulh d a b => encRR 2 d.val a.val b.val 0x0C 0
  | .mulhu d a b => encRR 2 d.val a.val b.val 0x0D 0
  | .div d a b => encRR 2 d.val a.val b.val 0x0E 0
  | .divu d a b => encRR 2 d.val a.val b.val 0x0F 0
  | .rem d a b => encRR 2 d.val a.val b.val 0x10 0
  | .remu d a b => encRR 2 d.val a.val b.val 0x11 0
  | .min d a b => encRR 2 d.val a.val b.val 0x12 0
  | .max d a b => encRR 2 d.val a.val b.val 0x13 0
  | .minu d a b => encRR 2 d.val a.val b.val 0x14 0
  | .maxu d a b => encRR 2 d.val a.val b.val 0x15 0
  | .clz d a => encRR 2 d.val a.val 0 0x16 0
  | .ctz d a => encRR 2 d.val a.val 0 0x17 0
  | .popc d a => encRR 2 d.val a.val 0 0x18 0
  | .slt d a b => encRR 2 d.val a.val b.val 0x19 0
  | .sltu d a b => encRR 2 d.val a.val b.val 0x1A 0
  | .seq d a b => encRR 2 d.val a.val b.val 0x1B 0
  | .lea d a b s => encRR 2 d.val a.val b.val 0x1C s.val
  | .addi d a imm => encRI 3 d.val a.val imm.toNat
  | .lih d imm => encLI 0x08 d imm
  | .lihHi d imm => encLI 0x09 d imm
  | .beq a b off => encRI 0x06 a.val b.val off.toNat
  | .bne a b off => encRI 0x07 a.val b.val off.toNat
  | .blt a b off => encRI 0x08 a.val b.val off.toNat
  | .bge a b off => encRI 0x09 a.val b.val off.toNat
  | .bltu a b off => encRI 0x0A a.val b.val off.toNat
  | .bgeu a b off => encRI 0x0B a.val b.val off.toNat
  | .jal d off => encRI 0x0C d.val 0 off.toNat
  | .jalLong d off => encLI 0x0A d off
  | .jalr d a imm => encRI 0x0D d.val a.val imm.toNat
  | .nop hint => encRI 0x01 0 0 hint.toNat
  | .fadd d a b r p => encF 0x00 d.val a.val b.val r.val p
  | .fsub d a b r p => encF 0x01 d.val a.val b.val r.val p
  | .fmul d a b r p => encF 0x02 d.val a.val b.val r.val p
  | .fma d a b r p => encF 0x03 d.val a.val b.val r.val p
  | .fdiv d a b r p => encF 0x04 d.val a.val b.val r.val p
  | .fsqrt d a r p => encF 0x05 d.val a.val 0 r.val p
  | .fmin d a b p => encF 0x06 d.val a.val b.val 0 p
  | .fmax d a b p => encF 0x07 d.val a.val b.val 0 p
  | .fcmp d a b c p => encF 0x08 d.val a.val b.val c.val p
  | .fcvt d a sel r => encF 0x09 d.val a.val sel.val r.val false
  | .fclass d a p => encF 0x0A d.val a.val 0 0 p
  | .ldB t a m off => encM 0x0F t a m off
  | .ldH t a m off => encM 0x10 t a m off
  | .ldW t a m off => encM 0x11 t a m off
  | .ldD t a m off => encM 0x12 t a m off
  | .stB t a m off => encM 0x13 t a m off
  | .stH t a m off => encM 0x14 t a m off
  | .stW t a m off => encM 0x15 t a m off
  | .stD t a m off => encM 0x16 t a m off
  | .ldBLong t a m off => encLM 0x00 t.val a.val m 0 0 0 off
  | .ldHLong t a m off => encLM 0x01 t.val a.val m 0 0 0 off
  | .ldWLong t a m off => encLM 0x02 t.val a.val m 0 0 0 off
  | .ldDLong t a m off => encLM 0x03 t.val a.val m 0 0 0 off
  | .stBLong t a m off => encLM 0x04 t.val a.val m 0 0 0 off
  | .stHLong t a m off => encLM 0x05 t.val a.val m 0 0 0 off
  | .stWLong t a m off => encLM 0x06 t.val a.val m 0 0 0 off
  | .stDLong t a m off => encLM 0x07 t.val a.val m 0 0 0 off
  | .amoAdd d a b z s o => encA 0x17 0 d.val a b z s o
  | .amoMin d a b z s o => encA 0x17 1 d.val a b z s o
  | .amoMax d a b z s o => encA 0x17 2 d.val a b z s o
  | .amoAnd d a b z s o => encA 0x17 3 d.val a b z s o
  | .amoOr d a b z s o => encA 0x17 4 d.val a b z s o
  | .amoXor d a b z s o => encA 0x17 5 d.val a b z s o
  | .amoSwap d a b z s o => encA 0x17 6 d.val a b z s o
  | .amoCas d a b z s o => encA 0x17 7 d.val a b z s o
  | .amoFadd d a b z s o => encA 0x17 8 d.val a b z s o
  | .redAdd a b z s o => encA 0x18 0 0 a b z s o
  | .redMin a b z s o => encA 0x18 1 0 a b z s o
  | .redMax a b z s o => encA 0x18 2 0 a b z s o
  | .redAnd a b z s o => encA 0x18 3 0 a b z s o
  | .redOr a b z s o => encA 0x18 4 0 a b z s o
  | .redXor a b z s o => encA 0x18 5 0 a b z s o
  | .redFadd a b z s o => encA 0x18 8 0 a b z s o
  | .fence s w => encRI 0x19 0 0 (w.val * 2 ^ 5 + s.val)
  | .fenceAcq s w => encRI 0x19 0 0 (w.val * 2 ^ 5 + 1 * 2 ^ 3 + s.val)
  | .fenceRel s w => encRI 0x19 0 0 (w.val * 2 ^ 5 + 2 * 2 ^ 3 + s.val)
  | .vld p f t a m off => encMV p 0x1A f t a m off
  | .vst p f t a m off => encMV p 0x1B f t a m off
  | .vadd p f d a b => encV p 0x1C f d.val a.val b.val 0x00
  | .vsub p f d a b => encV p 0x1C f d.val a.val b.val 0x01
  | .vmul p f d a b => encV p 0x1C f d.val a.val b.val 0x02
  | .vfma p f d a b => encV p 0x1C f d.val a.val b.val 0x03
  | .vmin p f d a b => encV p 0x1C f d.val a.val b.val 0x04
  | .vmax p f d a b => encV p 0x1C f d.val a.val b.val 0x05
  | .vabs p f d a => encV p 0x1C f d.val a.val 0 0x06
  | .vneg p f d a => encV p 0x1C f d.val a.val 0 0x07
  | .vcmpEq p f d a b => encV p 0x1C f d.val a.val b.val 0x08
  | .vcmpNe p f d a b => encV p 0x1C f d.val a.val b.val 0x09
  | .vcmpLt p f d a b => encV p 0x1C f d.val a.val b.val 0x0A
  | .vcmpLe p f d a b => encV p 0x1C f d.val a.val b.val 0x0B
  | .vcmpUnord p f d a b => encV p 0x1C f d.val a.val b.val 0x0C
  | .vsel p f d a b => encV p 0x1C f d.val a.val b.val 0x0D
  | .vand p f d a b => encV p 0x1C f d.val a.val b.val 0x0E
  | .vor p f d a b => encV p 0x1C f d.val a.val b.val 0x0F
  | .vxor p f d a b => encV p 0x1C f d.val a.val b.val 0x10
  | .vshl p f d a b => encV p 0x1C f d.val a.val b.val 0x11
  | .vshr p f d a b => encV p 0x1C f d.val a.val b.val 0x12
  | .vldg p f d a b => encV p 0x1D f d.val a.val b.val 0x00
  | .vsts p f d a b => encV p 0x1D f d.val a.val b.val 0x01
  | .vsumRow p f d a => encV p 0x1D f d.val a.val 0 0x02
  | .vsumCol p f d a => encV p 0x1D f d.val a.val 0 0x03
  | .vmaxrRow p f d a => encV p 0x1D f d.val a.val 0 0x04
  | .vmaxrCol p f d a => encV p 0x1D f d.val a.val 0 0x05
  | .vperm p f d a b => encV p 0x1D f d.val a.val b.val 0x06
  | .vrot p f d a b => encV p 0x1D f d.val a.val b.val 0x07
  | .vtrn p f d a => encV p 0x1D f d.val a.val 0 0x08
  | .vbcast p f d a => encV p 0x1D f d.val a.val 0 0x09
  | .vmov p f d a => encV p 0x1D f d.val a.val 0 0x0A
  | .vcvt p dst src d a => encV p 0x1D dst d.val a.val src.val 0x0B
  | .vcvtSat p dst src d a => encV p 0x1D dst d.val a.val src.val 0x0C
  | .vshape p f d a b => encV p 0x1D f d.val a.val b.val 0x0D
  | .vrint p f d a => encV p 0x1D f d.val a.val 0 0x10
  | .vexp2f p f d a => encV p 0x1D f d.val a.val 0 0x11
  | .vscaleb p f d a b => encV p 0x1D f d.val a.val b.val 0x12
  | .vrcp p f d a => encV p 0x1D f d.val a.val 0 0x13
  | .vrsqrt p f d a => encV p 0x1D f d.val a.val 0 0x14
  | .vlog2 p f d a => encV p 0x1D f d.val a.val 0 0x15
  | .vsinpi p f d a => encV p 0x1D f d.val a.val 0 0x16
  | .mand p f d a b => encV p 0x1D f d.val a.val b.val 0x20
  | .mor p f d a b => encV p 0x1D f d.val a.val b.val 0x21
  | .mnot p f d a => encV p 0x1D f d.val a.val 0 0x22
  | .mpop p f d a => encV p 0x1D f d.val a.val 0 0x23
  | .srd d n => encS 0x00 d.val 0 n.val
  | .swr n a => encS 0x01 0 a.val n.val
  | .svc n => encS 0x02 0 0 n.val
  | .eret => encS 0x03 0 0 0
  | .trap n => encS 0x04 0 0 n.val
  | .bkpt n => encS 0x05 0 0 n.val
  | .pkrd d a n => encS 0x06 d.val a.val n.val
  | .pkwr d a n => encS 0x07 d.val a.val n.val
  | .spill a => encS 0x08 0 a.val 0
  | .amapw n a => encS 0x09 0 a.val n.val
  | .tlbinv a => encS 0x0A 0 a.val 0
  | .cflush a => encS 0x0B 0 a.val 0
  | .cinv a k => encS 0x0C 0 a.val k.toNat
  | .capq d a => encS 0x0D d.val a.val 0
  | .spawn d a => encRR 0x1F d.val a.val 0 0x00 0
  | .tend a => encRR 0x1F 0 a.val 0 0x01 0
  | .cancel d a b => encRR 0x1F d.val a.val b.val 0x02 0
  | .cwait d a b => encRR 0x1F d.val a.val b.val 0x03 0
  | .barinit d a b => encRR 0x20 d.val a.val b.val 0x00 0
  | .barw d a b => encRR 0x20 d.val a.val b.val 0x01 0
  | .menter d a => encRR 0x20 d.val a.val 0 0x02 0
  | .mexit a => encRR 0x20 0 a.val 0 0x03 0
  | .gzbegin d => encRR 0x20 d.val 0 0 0x04 0
  | .gzend d => encRR 0x20 d.val 0 0 0x05 0
  | .gzabort a => encRR 0x20 0 a.val 0 0x06 0
  | .pclass d a => encRR 0x21 d.val a.val 0 0x00 0
  | .blease d a b => encRR 0x21 d.val a.val b.val 0x01 0
  | .msend d a b => encRR 0x22 d.val a.val b.val 0x00 0
  | .mrecv d a b => encRR 0x22 d.val a.val b.val 0x01 0
  | .mpeek d sel => encRR 0x22 d.val 0 sel.val 0x02 0
  | .gld z d a m off => encLM (0x10 + z.toNat) d.val a.val m 0 0 0 off
  | .gst z d a m off => encLM (0x12 + z.toNat) d.val a.val m 0 0 0 off
  | .gamoAdd z d a xs m off => encG 0 z d a xs m off
  | .gamoMin z d a xs m off => encG 1 z d a xs m off
  | .gamoMax z d a xs m off => encG 2 z d a xs m off
  | .gamoAnd z d a xs m off => encG 3 z d a xs m off
  | .gamoOr z d a xs m off => encG 4 z d a xs m off
  | .gamoXor z d a xs m off => encG 5 z d a xs m off
  | .gamoSwap z d a xs m off => encG 6 z d a xs m off
  | .gamoCas z d a xs m off => encG 7 z d a xs m off
  | .gamoFadd d a xs m off => encG 8 false d a xs m off
  | .tld td a xs f m off => encLM 0x20 td.val a.val m f.val xs.val 0 off
  | .tldp td pr xs f off => encLM 0x21 td.val 0 attr0 f.val xs.val pr.val off
  | .tst ts a xs f m off => encLM 0x22 ts.val a.val m f.val xs.val 0 off
  | .tstp ts pr a xs f off => encLM 0x23 ts.val a.val attr0 f.val xs.val pr.val off
  | .ctwr a m off => encLM 0x24 0 a.val m 0 0 0 off
  | .ctswap => [encT0 0x46 0 0 0 0 0, 0]
  | .tmma td ta tb fa fb fd pa pb ra rb =>
      [encT0 0x40 td.val ta.val tb.val fa.val fb.val, encT1 fd.val pa.val pb.val ra rb 0 0 false 0 0]
  | .tmmas td ta tb fa fb fd pa pb ra rb sp xs =>
      [encT0 0x41 td.val ta.val tb.val fa.val fb.val, encT1 fd.val pa.val pb.val ra rb sp.val 0 false xs.val 0]
  | .tzero td fd xs => [encT0 0x42 td.val 0 0 0 0, encT1 fd.val 0 0 false false 0 0 false xs.val 0]
  | .tcvt td ta bank fa fd r sat =>
      [encT0 0x43 td.val ta.val bank.toNat fa.val 0, encT1 fd.val 0 0 false false 0 r.val sat 0 0]
  | .tadd td ta tb fd r => [encT0 0x44 td.val ta.val tb.val 0 0, encT1 fd.val 0 0 false false 0 r.val false 0 0]
  | .tgrp td fd xs => [encT0 0x45 td.val 0 0 0 0, encT1 fd.val 0 0 false false 0 0 false xs.val 0]
  | .pdef p xs xt => encP 0x50 p xs.val xt.val
  | .psub p xs xt => encP 0x51 p xs.val xt.val
  | .pclaim p xt => encP 0x52 p 0 xt.val
  | .ppost p xs => encP 0x53 p xs.val 0
  | .pwfill p xt => encP 0x54 p 0 xt.val
  | .pwfree p xs xt => encP 0x55 p xs.val xt.val
  | .ppop p => encP 0x56 p 0 0
  | .fapp d a xs off => encLM 0x28 d.val a.val attr0 0 xs.val 0 off
  | .fseq d a off => encLM 0x29 d.val a.val attr0 0 0 0 off
  | .qclr q => [encT0 0x60 q.val 0 0 0 0, 0]
  | .qadd q xs xt => [encT0 0x61 q.val 0 0 0 0, encT1 0 0 0 false false 0 0 false xs.val xt.val]
  | .qaddf q f xs => [encT0 0x62 q.val 0 0 f.val 0, encT1 0 0 0 false false 0 0 false xs.val 0]
  | .qrnd q f r xs xt => [encT0 0x63 q.val 0 0 0 0, encT1 f.val 0 0 false false 0 r.val false xs.val xt.val]
  | .qsendQ q xs xt => [encT0 0x64 q.val 0 0 0 0, encT1 0 0 0 false false 0 0 false xs.val xt.val]
  | .qsendQ4n ta tb fa fb xs xt =>
      [encT0 0x64 0 ta.val tb.val fa.val fb.val, encT1 0 0 0 false false 0 0 false xs.val xt.val]
  | _ => []

/-- The decoder on the parcels that encode writes. -/
def decodeList (ws : List Nat) : Option (Except Reject Instr) :=
  match ws with
  | [w] => if isLong w then none else some (decodeParcels w 0)
  | [w, v] => if isLong w then some (decodeParcels w v) else none
  | _ => none

end Sys2Proof
end

