-- ==== Sys2Proof/Machine/State.lean ====
section
/-! DEFINITION. State.lean: everything the manual gives the machine to hold, as plain data, and the machine after
package reset. Units are numbered through the socket group: core k of package p is p * 512 + k, its cluster is that
number divided by 4, a string is four clusters, a die 32 clusters and a package four dies (R2). -/

namespace Sys2Proof.Machine

/-- A vector register: 512 bytes, format tag, companion bit (R29, R109). -/
structure VReg where
  bits : BitVec 4096
  tag : FmtCode
  comp : Bool
deriving DecidableEq, Repr

/-- Cells of easels: an easel, numbered 4 times its cluster plus its place there, with the numbers of its cells
(R219, R220). -/
abbrev Cells := List (Nat × List Nat)

/-- A bound tile (R219, R220, R242). Elements are bit patterns in row-major order. A Q4 tile has block scales us
and one group scale of ss for each row. cells are the cells that it occupies, which no rule fixes. -/
structure Tile where
  cells : Cells
  rows : Nat
  cols : Nat
  tag : FmtCode
  comp : Bool
  elems : List Nat
  us : List Nat
  ss : List Nat
  group : Bool
deriving DecidableEq, Repr

/-- The role of a ring handle (R260); easelAll is EASEL_SUB with the four records of KIND 3 (R262). -/
inductive RingRole where
  | producer | contextSub | easelSub | easelAll
deriving DecidableEq, Repr

/-- A bound ring handle (R260): ring index in the cluster, role, subscriber record, next sequence number. -/
structure RingHandle where
  ring : Nat
  role : RingRole
  record : Nat
  next : BitVec 32
deriving DecidableEq, Repr

/-- An exact accumulator (R286). -/
structure QAcc where
  q : BitVec 320
  eq : Int
  em : Int
  empty : Bool
  sat : Bool
  pinf : Bool
  ninf : Bool
  nanf : Bool
deriving DecidableEq, Repr

/-- A segment register (R109). -/
structure Seg where
  base : Word
  limit : Word
deriving DecidableEq, Repr

/-- The registers of a context (R109, R111). -/
structure Regs where
  pc : Word
  x : Vector Word 32
  v : Vector VReg 32
  m : Vector (BitVec 512) 8
  t : Vector (Option Tile) 8
  p : Vector (Option RingHandle) 16
  q : Vector QAcc 2
  sg : Vector Seg 16
  amap : Vector (BitVec 128) 8
  /-- the binding mode is SEGMENT (R80) -/
  segMode : Bool
  shape : Word
  fps : Word
  tcoord : Word
  tlaunch : Word
  cls : Nat
  gzstat : Word
  ecause : Word
  epcx : Word
  eaddr : Word
  edepth : Nat
  spillbase : Word
deriving DecidableEq, Repr

/-- Who a context is: uid is the model's own number (log 4). Core and slot are where it is, or was last, resident;
home and cid are its mailbox address (R274), gen the generation of its token (R188), rob the number of its next
instruction in its slot (R217). -/
structure Ident where
  uid : Nat
  core : Nat
  slot : Nat
  sup : Bool
  home : Nat
  cid : Nat
  gen : Nat
  rob : Nat
deriving DecidableEq, Repr

/-- What a context has of its launch (R54, R218, R236, R295). launch is the number of a record in State.launches, cells
are the cells reserved for it on its bound easel, or on each member of its string. -/
structure Job where
  launch : Nat
  task : Nat
  lclass : Nat
  tcells : Nat
  easel : Option Nat
  cells : Cells
  group : Nat
  coreset : Nat
  coresident : Bool
deriving DecidableEq, Repr

/-- Which counter counts a posted store (R199); c is a store through the caches that a glaze holds up, which no
counter counts (R310), w a store to a register window that waits for what stands before it (R192, R194, R203). -/
inductive PostKind where
  | d | p | f | c | w
deriving DecidableEq, Repr

/-- What a store or a reduction that has retired still waits for before it is performed (R192, R203, R205): the counter
that its WAIT field names, 0 for none, and, for a release of core scope or wider, every earlier access of its context.
scope is that of the release as which it is performed (R304), sc a release-sc (R196). -/
structure Gate where
  wait : Nat := 0
  behind : Bool := false
  scope : Option Nat := none
  sc : Bool := false
deriving DecidableEq, Repr

/-- A posted store on its way (R199, R201): its parts, each an IA and bytes within one 32-byte granule, and the issuing
instruction's bits. A GST carries its global address in place of an IA (R285). born is the step that issued it. -/
structure Posted where
  kind : PostKind
  parts : List (Nat × List Byte)
  bits : Word
  global : Bool
  /-- it waits at the walker for its page (R188) -/
  held : Bool
  born : Nat
  gate : Gate
deriving DecidableEq, Repr

/-- The operations of the atomic units (R209). -/
inductive AmoFn where
  | add | min | max | and | or | xor | swap | cas | fadd32 | fadd16
deriving DecidableEq, Repr

/-- A reduction not yet acknowledged (R212). -/
structure Red where
  fn : AmoFn
  size : Nat
  ia : Nat
  b : Word
  bits : Word
  performed : Bool
  held : Bool
  born : Nat
  gate : Gate
deriving DecidableEq, Repr

/-- A retired tile store that has not drained (R227): its rows in ascending order, those of them still to write, the cells it
keeps, the ring slot that it fills, as ring and sequence number (R250), the counter of a streaming one (R198), and whether it
is a store of the context's open region, whose granules its rows enter (R325, R334). -/
structure Drain where
  rows : List (Nat × List Byte)
  left : List (Nat × List Byte)
  cells : Cells
  slot : Option (Nat × BitVec 32)
  bits : Word
  tag : Nat
  held : Bool
  counted : Option PostKind
  born : Nat
  gate : Gate
  region : Bool
deriving DecidableEq, Repr

/-- Which kind of access failed late, which decides who meets it (R201, R212, R249, R296). -/
inductive LateKind where
  | posted (k : PostKind)
  | drain | reduction | message
deriving DecidableEq, Repr

/-- A late failure that no instruction has met yet (R201, R212, R296). -/
structure Late where
  kind : LateKind
  cause : Nat
  info : Word
deriving DecidableEq, Repr

/-- Accesses of a context that are in flight (R199 to R203, R212 to R215, R227). -/
structure InFlight where
  posted : List Posted
  reds : List Red
  deferred : BitVec 6
  drains : List Drain
  late : List Late
deriving DecidableEq, Repr

/-- What a context has ordered and what its fetches are sure to see (R100, R304): the scope of a fence whose later stores
count as releases, the step of its last acquire, and for lines that it has invalidated after the sequence of R100, by
their number in memory, the step up to which it sees their bytes. began is the step at which its task started. -/
structure Order where
  fenced : Option Nat
  acquired : Nat
  seen : List (Nat × Nat)
  began : Nat
deriving DecidableEq, Repr

/-- A predecessor edge (R327). -/
structure Edge where
  pred : Nat
  consumed : Bool
deriving DecidableEq, Repr

/-- What an abort restores (R326). -/
structure Checkpoint where
  x : Vector Word 32
  v : Vector VReg 32
  m : Vector (BitVec 512) 8
  t : Vector (Option Tile) 8
  q : Vector QAcc 2
  fps : Word
  shape : Word
  monitors : List Nat
deriving DecidableEq, Repr

/-- A write or a reduction that a region holds (R325): IA, location in memory, bytes. -/
inductive Held where
  | write (ia loc : Nat) (bytes : List Byte)
  | red (ia loc : Nat) (r : Red)
deriving DecidableEq, Repr

/-- A live region (R323 to R332). entry is its number on its die; born is the step of its GZBEGIN, from which its
age follows. log holds its writes and reductions in program order. -/
structure Region where
  die : Nat
  entry : Nat
  born : Nat
  senior : Bool
  gzpc : Word
  gzd : XReg
  ckpt : Checkpoint
  log : List Held
  granules : List Nat
  edges : List Edge
  /-- predecessors that an abort has given the region beyond the eight that it has registers for: they take the place of the
  first edges that go (log 31) -/
  owed : List Nat
  /-- predecessors that a waiting access of the region waits for (R328) -/
  pending : List Nat
  /-- cells that retirements in the region would have freed (R326) -/
  freed : Cells
  /-- the region stands at its GZEND -/
  ending : Bool
  /-- a held store has WAIT naming POSTF, so that the region commits only once that counter is zero (R203, R325) -/
  postf : Bool
deriving DecidableEq, Repr

/-- What an instruction wants of a ring: a claim through a handle, a delivery to a subscriber record, EMPTY slots. -/
inductive RingNeed where
  | claim (p : PNum)
  | slot (record : Nat)
  | room (n : Nat)
deriving DecidableEq, Repr

/-- What a context waits for (R121). -/
inductive Wait where
  | none
  | barrier (ia : Nat)
  | monitor (ia : Nat)
  | entry (die : Nat)
  | object (ia : Nat)
  | ring (idx : Nat) (need : RingNeed)
  | message
  | edge
  /-- an access that has not performed: a page it waits for, a region it waits behind -/
  | access
  /-- a global access that waits at its target for the page of an IA (R285) -/
  | target (ia : Nat)
  /-- an MSEND whose message is in the network (R278) -/
  | reply
  | record
  /-- a tile instruction whose easel has not reported (R223) -/
  | easel
  /-- the free cells that a new tile needs (R220) -/
  | cells
  /-- a CTWR or CTSWAP that waits at the code table, and an operation that waits behind one with the bank that it
  captures (R266, R267) -/
  | table
  | bank (b : Bool)
deriving DecidableEq, Repr

/-- Regions, monitors and waits of a context (R311 to R336). grant is the status a barrier or monitor gave. -/
structure Sync where
  region : Option Region
  monitors : List Nat
  wait : Wait
  since : Nat
  grant : Option Word
deriving DecidableEq, Repr

/-- A message in an inbox: in a guaranteed entry of its slot, or in a shared one of a core (R277, R282). -/
structure InEntry where
  msg : Message
  core : Option Nat
deriving DecidableEq, Repr

/-- The mailbox (R277), and the messages a QADD has still to count (R289). -/
structure Mail where
  inbox : List InEntry
  frame : List Message
  qleft : Option Nat
deriving DecidableEq, Repr

/-- Why a context is in its frame (R65, R188). A shed one keeps the address of a page fault that PGFAIL has failed. -/
inductive Saved where
  | fault (page : Nat) (ia : Nat) (va : Word)
  | failed (va : Word)
  | preempted
  | evicted
  | shed (failed : Option Word)
deriving DecidableEq, Repr

/-- Where a context is. -/
inductive Place where
  | slot
  | frame (why : Saved)
  | ended
deriving DecidableEq, Repr

/-- Scheduling state and frame (R65, R340, R350, R355, R357). stopped is a supervisor that does not run: before
its start (R347), or after a double fault (R349). -/
structure Sched where
  place : Place
  parked : Bool
  stopped : Bool
  savedAt : Nat
  sptab : Word
  spcnt : Nat
  xbase : Nat
  xsize : Nat
  /-- a SPILL with SAFE runs it on to a safe point, from this step on (R360) -/
  toSafe : Option Nat
  /-- a cancel waits for the next boundary (R67) -/
  cancelled : Bool
  /-- the task is ending with this status word, and its accesses still drain (R141, R142) -/
  ending : Option (BitVec 32)
deriving DecidableEq, Repr

/-- A boost lease (R380, R383). -/
structure Lease where
  level : Nat
  string : Nat
  expiry : Nat
deriving DecidableEq, Repr

/-- The power state of a context (R375, R383). -/
structure Power where
  lease : Option Lease
  shedAt : Option Nat
  hold : Bool
  afterBarw : Bool
deriving DecidableEq, Repr

/-- A context (R107, R109). bits and long are the instruction in issue, for EADDR and ECAUSE (R98, R343). -/
structure Context where
  id : Ident
  reg : Regs
  job : Job
  io : InFlight
  order : Order
  sync : Sync
  mail : Mail
  sched : Sched
  power : Power
  bits : Word
  long : Bool
deriving DecidableEq, Repr

/-- The state of a ring slot (R230). -/
inductive SlotState where
  | empty | filling | ready | draining
deriving DecidableEq, Repr

/-- Who claims a slot (R263): a context through a handle, or a ferry. -/
inductive Claimer where
  | handle (uid : Nat) (p : PNum)
  | ferry (chain seq : Nat)
deriving DecidableEq, Repr

/-- A slot and who fills it. -/
structure RingSlot where
  st : SlotState
  filler : Option Claimer
deriving DecidableEq, Repr

/-- A slot in an easel's operand staging (R231): its sequence number, the step of its delivery, its bytes, and the poisoned
bytes that they were copied from. -/
structure Staged where
  seq : BitVec 32
  step : Nat
  bytes : List Byte
  bad : List Nat
deriving DecidableEq, Repr

/-- A subscriber record (R229): owner is the context that made it; easel none is a context subscription; staged holds
the slots delivered to an easel. -/
structure RingSub where
  owner : Nat
  handle : PNum
  easel : Option Nat
  window : Nat
  delivered : BitVec 32
  popped : BitVec 32
  closed : Bool
  staged : List Staged
deriving DecidableEq, Repr

/-- A live ring of a cluster's tile table (R229, R259). -/
structure Ring where
  pbase : Nat
  slotBytes : Nat
  nslot : Nat
  nsub : Nat
  fmt : FmtCode
  stringRing : Bool
  rows : Nat
  cols : Nat
  stride : Nat
  claim : BitVec 32
  head : BitVec 32
  tail : BitVec 32
  slots : List RingSlot
  subs : List RingSub
  waiting : List Claimer
deriving DecidableEq, Repr

/-- An event counter: source, value, and the step from which a source that the model does not count runs (R390). -/
structure Counter where
  src : Nat
  value : Nat
  since : Nat
deriving DecidableEq, Repr

/-- Where an engine command is (R225). -/
inductive CmdState where
  | received | executing | complete
deriving DecidableEq, Repr

/-- A fault that an easel reports with the command's tag (R226). -/
inductive CmdFault where
  | trap (cause : Nat) (info : Word)
  | page (kind level ia : Nat) (va : Word)
deriving DecidableEq, Repr

/-- An engine command in flight (R217): its easel in the cluster, its tag, its LOP, its context, the instruction's bits,
the cells of its source tiles, its new cells, the tile name, the ring slots that it names, the LFSR that it starts
from, where it is, the code-table banks that it has captured (R266), and what it reports: the tile that it writes, its
flags, the LFSR after its steps, or a fault. -/
structure EngineCmd where
  easel : Nat
  tag : Nat
  op : Nat
  uid : Nat
  bits : Word
  sources : Cells
  cells : List Nat
  name : Nat
  slots : List (Nat × BitVec 32)
  start : Option (BitVec 32)
  state : CmdState
  squashed : Bool
  banks : List Bool
  result : Option Tile
  flags : BitVec 6
  lfsr : Option (BitVec 32)
  fault : Option CmdFault
deriving DecidableEq, Repr

/-- A squash on its way to an easel of a cluster (R225, R293): whose it is, the slot of a core, and the age of its oldest
squashed entry. -/
structure Squash where
  uid : Nat
  easel : Nat
  core : Nat
  slot : Nat
  age : Nat
deriving DecidableEq, Repr

/-- A CTWR or a CTSWAP at a cluster's code table (R266, R267): its context, and the image that a CTWR writes. -/
structure TableOp where
  uid : Nat
  image : Option (List Nat)
deriving DecidableEq, Repr

/-- What a cluster holds (R41, R114, R118, R229, R389). stretch counts the stretched cycles of the last event that is over,
stretchAt is the step at which the one in progress began. -/
structure Cluster where
  drpth : Word
  droops : BitVec 32
  stretch : Nat
  stretching : Bool
  stretchAt : Nat
  /-- the value of CYC at which the half-width hold ends, and the one at which the last one ended -/
  holdEnd : Option Nat
  holdOff : Nat
  banks : List (List Nat)
  bank : Bool
  swaps : BitVec 16
  rings : List (Nat × Ring)
  counters : List Counter
  cmds : List EngineCmd
  squashes : List Squash
  /-- CTWR and CTSWAP at the table, in the order they came -/
  table : List TableOp
deriving DecidableEq, Repr

/-- What a string holds (R70 to R72): the imbalances as last measured, whether gesso and throttling are active, and
whether the last refresh showed them so; for each node the step since which its imbalance has been above THRESH, and
the steps since which every node has been below 3/4 of THRESH, and below THRESH. -/
structure StringSt where
  node1 : BitVec 10
  node2 : BitVec 10
  node3 : BitVec 10
  gact : Bool
  throt : Bool
  gactShown : Bool
  throtShown : Bool
  above : List (Option Nat)
  calm : Option Nat
  below : Option Nat
  gesso : Word
  gessoNext : Option Word
  /-- the step at which throttling last ended -/
  throtOff : Option Nat
deriving DecidableEq, Repr

/-- A trap record that waits for the supervisor (R342); info is a record for information only (R353). -/
structure TrapRec where
  uid : Nat
  info : Bool
  ecause : Word
  epcx : Word
  eaddr : Word
deriving DecidableEq, Repr

/-- What a core holds beside its contexts (R171, R282, R342, R347, R349, R364). -/
structure CoreSt where
  ranges : Vector (BitVec 128) 8
  traps : List TrapRec
  /-- the context whose record the supervisor serves -/
  serving : Option Nat
  dead : Bool
  stage : List Word
  ovf : Bool
  /-- SPAWN messages that the agent has taken and not answered -/
  spawns : List Message
  /-- the page that the agent's SPAWN waits for, and whether PGFAIL has failed it (R283) -/
  spawnWait : Option (Nat × Bool)
  /-- the status word of the oldest of them, once its launch has been judged: its reply is still to be written -/
  spawnDone : Option Nat
  idle : Bool
  /-- the last step at which one of its slots was seen ready -/
  readyAt : Nat
deriving DecidableEq, Repr

/-- A fault record (R188). -/
structure FaultRec where
  va : Word
  ia : Nat
  token : Nat
  kind : Nat
  level : Nat
  time : Nat
deriving DecidableEq, Repr

/-- What a die holds (R186 to R188, R323, R333, R365, R388): epochAt is the step of the end of its last epoch. -/
structure Die where
  reserve : Option Nat
  epochAt : Nat
  /-- fault and energy records that found their ring full -/
  faultWait : List FaultRec
  energyWait : List (List Byte)
  /-- contexts that wait for a region entry, in the order they came, and entries reserved for the oldest -/
  entryQueue : List Nat
  reserved : List (Nat × Nat)
deriving DecidableEq, Repr

/-- What a package holds for the tide and the ceiling (R369, R372, R373, R377): the steps of the last valid frame, of the
last setting of HWPWR and of the last setting of SAFE, by how many times 25 mV the set points are lowered for the
ceiling and for safety, the demands of the eight classes and the system share as last measured, and the step since which the
input has been below 95 % of SAFELIM. -/
structure Pkg where
  lastFrame : Nat
  halfAt : Nat
  safeAt : Nat
  lowered : Nat
  safeLowered : Nat
  demands : List Nat
  safeBelow : Option Nat
  /-- the step of the last sampling of the demands, and whether HWPWR or SAFE stood after it (R372) -/
  sampledAt : Nat
  wasHalf : Bool
deriving DecidableEq, Repr

/-- The demands of a task (R18). -/
structure Demands where
  vregs : Nat
  mregs : Nat
  tregs : Nat
  rings : Nat
  qacc : Nat
  group : Nat
  coreset : Nat
  tcells : Nat
  pal : Nat
  tcm : Nat
  lag : Nat
deriving DecidableEq, Repr

/-- A set of tasks that is being placed one to a cluster of a string (R69): the string, how many of its tasks are still to
come, and whether it is a set of four, not a remainder. -/
structure Spread where
  string : Nat
  left : Nat
  whole : Bool
deriving DecidableEq, Repr

/-- A created launch (R53, R60): the number of the record is its place in the order of creation. -/
structure Launch where
  num : Nat
  lobj : Word
  lobjIa : Nat
  /-- the IAs of its graph, phase and job, as far as they could be followed at the SPAWN -/
  chain : List Nat
  /-- the IA of the phase before its own (R61) -/
  prev : Option Nat
  queue : Nat
  overlap : Bool
  coresident : Bool
  stage : Bool
  cls : Nat
  dimx : Nat
  dimy : Nat
  dimz : Nat
  arg : Word
  record : Word
  entry : Word
  segMode : Bool
  segs : Vector Seg 16
  demands : Demands
  pkgmask : Nat
  diemask : Nat
  qin : Nat
  qout : Nat
  slotmin : Nat
  slotmax : Nat
  /-- the next task that has not been dispatched -/
  next : Nat
  /-- tasks that ended before their dispatch, by a cancel -/
  dropped : Nat
  /-- where an admitted CORESIDENT launch holds its slots: a core for each task -/
  places : List Nat
  /-- the cores on which its tasks were first dispatched, in order -/
  used : List Nat
  /-- the set of tasks that its dispatch is in, none where its next task begins one (R69) -/
  set : Option Spread
  /-- the TCM bytes by core and the palette bytes by cluster that its tasks have taken, which it keeps until its COUNT
  reaches zero (R141) -/
  tcmKept : List (Nat × Nat)
  palKept : List (Nat × Nat)
  /-- its dispatch waits for the page of one of its objects, whose fault record has been posted -/
  stalled : Bool
  finished : Bool
deriving DecidableEq, Repr

/-- A node of a completion tree (R385): launch, node, ended tasks and combined word not yet forwarded. -/
structure Node where
  launch : Nat
  node : Nat
  ended : Nat
  word : BitVec 32
deriving DecidableEq, Repr

/-- A graph, a phase or a job's child as the home slices keep it from its attachment to its end (R57, R58, R67): the IAs of
the object and of its parent, and of the phase before it. -/
structure Attach where
  ia : Nat
  up : Nat
  prev : Option Nat
deriving DecidableEq, Repr

/-- A ferry command that FAPP appended (R270): the IA and the VA of its chain object and of the command, and the
core, number, token, mailbox and ranges of the context that appended it as they stood then. -/
structure FerryCmd where
  chain : Nat
  chainVa : Word
  seq : Nat
  cmdIa : Nat
  cmdVa : Word
  core : Nat
  uid : Nat
  token : Nat
  mailbox : Word
  amap : Vector (BitVec 128) 8
  /-- the ferry has accepted the submission; it has fetched the command -/
  accepted : Bool
  started : Bool
  /-- how far its units are done, in bytes of its packed side (R297), and how many more than one its next step takes -/
  pos : Nat
  pace : Nat
  /-- the elements' addresses of GATHER and SCATTER, once its index array has been read -/
  places : Option (List Nat)
  /-- what it has still to write of these units, once it has read their source: addresses and bytes -/
  plan : Option (List (Nat × List Byte))
  /-- whether it may complete before its last writes are performed; those then, with their IAs and their places, and the TAGV
  of the message that follows them (R307) -/
  early : Bool
  tail : List (Nat × Nat × List Byte)
  note : Option Nat
  /-- its TAGV, as fetched -/
  tagv : Nat
  /-- its accesses are over; it has completed -/
  performed : Bool
  completed : Bool
  /-- a plain store has hit its RUNNING chain object (R268) -/
  wild : Bool
  /-- the page that it waits for, and whether PGFAIL has failed it -/
  page : Option (Nat × Bool)
  status : Nat
  errAddr : Word
deriving DecidableEq, Repr

/-- A message in the network (R277 to R279): who sent it, where to, and whether its MSEND waits for the answer.
A context sends under its number, a chain under 2^64 plus the IA of its object. A post of the host that keeps a shared entry
of a core, since its target's mailbox is full (R282), stands under 2^65 plus the number of the core. -/
structure NetMsg where
  sender : Nat
  dest : Word
  msg : Message
  awaited : Bool
deriving DecidableEq, Repr

/-- A capability entry (R25). -/
structure Capability where
  capid : Nat
  ver : Nat
  value : Word
deriving DecidableEq, Repr

/-- A touch of a granule by a live region, oldest first (R327); source is the region a read took values from. -/
structure Touch where
  granule : Nat
  uid : Nat
  write : Bool
  source : Option Nat
deriving DecidableEq, Repr

/-- Who wrote a byte: the token, and the core of a context, none for a ferry, an agent or the host. -/
structure Writer where
  token : Nat
  core : Option Nat
deriving DecidableEq, Repr

/-- A value that a byte has held (R298): the step that wrote it, 0 for its initial value, and who did. -/
structure Version where
  step : Nat
  writer : Writer
  byte : Byte
deriving DecidableEq, Repr

/-- A write of bytes at a location in memory (R298): its step, who wrote, the bytes before it and those that it wrote. -/
structure Written where
  step : Nat
  writer : Writer
  loc : Nat
  old : List Byte
  new : List Byte
deriving DecidableEq, Repr

/-- A release of a scope narrower than system, which the home slice of its line notes (R304): the line's number, who
released, at which core and with which scope, and the step that issued it. -/
structure Narrow where
  line : Nat
  uid : Nat
  core : Nat
  scope : Nat
  born : Nat
deriving DecidableEq, Repr

/-- A CFLUSH of a line, by its number in memory (R100, R366): who executed it and when, and the steps, the cores and the
scopes of the writer's releases after it, but for those that an earlier one covers. -/
structure Flush where
  line : Nat
  uid : Nat
  step : Nat
  released : List (Nat × Nat × Nat)
deriving DecidableEq, Repr

/-- Atelier's state (R394 to R396), with the records reported over the management ports. -/
structure Atelier where
  booted : Bool
  failed : Bool
  measurements : List (List Byte)
  transcript : List Byte
  version : Bool
  capabilities : Bool
  algorithms : Bool
  entry : Word
  responses : List (List Byte)
  reports : List (List Byte)
deriving DecidableEq, Repr

/-- How the last access of the host completed (R391, R392): not yet, with its write done, with data, as an unsupported
request, with poisoned data, or held at a walker or behind a region. -/
inductive HostReply where
  | none | done | data (w : Word) | unsupported | poisoned | held
deriving DecidableEq, Repr

/-- A Voldin Link port (R393): whether it has asked for a retry, and the flits delivered on each virtual channel, oldest
first, whose traffic the agents have not taken. -/
structure Link where
  retry : Bool
  channels : List (List (List Byte))
deriving DecidableEq, Repr

/-- A token and the launch that it accounts to (R387, R388): the steps at which it was given and at which its task ended,
for each die the step of its last record, and the dies that have posted its end record. -/
structure Account where
  uid : Nat
  token : Nat
  lobj : Word
  born : Nat
  ended : Option Nat
  records : List (Nat × Nat)
  posted : List Nat
deriving DecidableEq, Repr

/-- The kinds of object that home slices keep (R55, R268, R313, R318). -/
inductive ObjKind where
  | completion | barrier | monitor | chain
deriving DecidableEq, Repr

/-- Work that the device has still to do of itself, each item one step of the opcode table: the row, and what it names. -/
inductive Duty where
  /-- TREE_FORWARD -/
  | treeForward (lobj node : Nat)
  /-- CANCEL_MARK_DESCENDANTS -/
  | cancelMark (obj : Nat)
  /-- TASK_CANCEL_END -/
  | cancelEnd (uid : Nat)
  /-- FAULT_RECORD_POST -/
  | faultRecord (die : Nat)
  /-- POSTED_STORE_ACK -/
  | postedAck (uid : Nat)
  /-- REDUCTION_PERFORM -/
  | redPerform (uid : Nat)
  /-- REDUCTION_ACK -/
  | redAck (uid : Nat)
  /-- TILE_STORE_DRAIN -/
  | tileDrain (uid : Nat)
  /-- the step of the command's opcode: FERRY_COPY to FERRY_GCOPY -/
  | ferry (chain seq : Nat)
  /-- FERRY_COMMAND_COMPLETE -/
  | ferryComplete (chain : Nat)
  /-- CHAIN_IDLE -/
  | chainIdle (chain : Nat)
  /-- SPAWN_MESSAGE -/
  | spawnMessage (core : Nat)
  /-- EASEL_COMMAND_COMPLETE, EASEL_DISCARD -/
  | easelComplete (easel tag : Nat)
  | easelDiscard (easel tag : Nat)
  /-- EASEL_SQUASH -/
  | easelSquash (easel core slot rob gen : Nat)
deriving DecidableEq, Repr

/-- Whose turn it is: a context, or a step of the device or of the world around it. -/
inductive Turn where
  | run (uid : Nat)
  | event (i : Instr)
deriving DecidableEq, Repr

/-- The machine. Tables are lists sorted by key, a missing key standing for the reset contents. -/
structure State where
  /-- the context whose turn it is, and the others -/
  cur : Context
  others : List Context
  /-- steps of the device that are due, and the turns that the outside has laid down (log 8) -/
  agenda : List Duty
  turns : List Turn
  /-- steps since power-on, the step of the last reset, the counter of free values (log 5) -/
  now : Nat
  resetAt : Nat
  freeAt : Nat
  /-- the next context number and token generation -/
  nextUid : Nat
  nextGen : Nat
  /-- for each priority the launch that a task was last dispatched of, for the turns of R61 -/
  lastLaunch : List (Nat × Nat)
  /-- the last loader status word (R26) -/
  judged : BitVec 32
  mem : List Host.Cell
  /-- the writes of memory, latest first (R298) -/
  history : List Written
  /-- bytes that a live task has read by an invariant load, with its number, and bytes whose promise is broken (R197) -/
  promised : List (Nat × Nat)
  broken : List Nat
  narrow : List Narrow
  flushes : List Flush
  /-- poisoned bytes, by their location in memory (R361) -/
  poison : List Nat
  /-- control-block registers by 0x1000 times the die plus the offset (R184), and BAR4 by 0x10000 times the package plus
  the offset (R392); a missing one holds its reset value -/
  ctl : List (Nat × Word)
  bar4 : List (Nat × Word)
  /-- MSI-X messages sent to the host, oldest first: 64 times the package plus the vector (R392) -/
  msix : List Nat
  clusters : List (Nat × Cluster)
  strings : List (Nat × StringSt)
  cores : List (Nat × CoreSt)
  dies : List (Nat × Die)
  pkgs : List (Nat × Pkg)
  /-- packages of the socket group (R177) -/
  packages : Nat
  launches : List Launch
  attached : List Attach
  /-- cancelled objects with a descendant whose page is away, so that it is still to be marked (R67) -/
  unmarked : List Nat
  nodes : List Node
  ferry : List FerryCmd
  net : List NetMsg
  /-- the capability lists by package, as Atelier built them (R25, R367) -/
  caps : List (Nat × List Capability)
  /-- CAPBASE by package -/
  capbase : List (Nat × Word)
  /-- where in memory each package's capability list lies (R25) -/
  capAt : List (Nat × Nat)
  /-- EVCIDX by 0x1000 times the die plus the requesting core (R389) -/
  evcidx : List (Nat × Word)
  accounts : List Account
  touches : List Touch
  /-- objects that an instruction has named, so that the home slices watch stores to them (R56, R317; log 9): IA,
  location in memory, kind -/
  objects : List (Nat × Nat × ObjKind)
  atelier : List (Nat × Atelier)
  host : HostReply
  links : List (Nat × Link)
  /-- the routes of Voldin Link that the images set (R393, R394): from a package, to another one, by a port -/
  routes : List (Nat × Nat × Nat)
  /-- requests on failed routes (R393): the package whose next request for a granule of memory brings it poisoned data -/
  lost : List (Nat × Nat)
deriving DecidableEq, Repr

/-- Why the machine stops. Every meaning of this model answers a next state. -/
inductive Fault where
  /-- Raised by nothing: the manual gives every instruction and every step of the device an outcome, and the model
  follows it. The constructor stands for a stop that no rule asks for. Safe. -/
  | unreachable
deriving DecidableEq, Repr

/-- Why the machine gives an instruction no meaning. -/
inductive Refusal where
  /-- Raised by the arms of exec that have no meaning yet, by the mnemonic of the opcode table. Safe. -/
  | notModelled (mnemonic : String)
deriving DecidableEq, Repr

/-! Reset. -/

/-- A vector register at reset (R109). -/
def VReg.reset : VReg := ⟨0, 0, false⟩

/-- An accumulator as QCLR leaves it (R286, R288). -/
def QAcc.clear : QAcc := ⟨0, 0, 0, true, false, false, false, false⟩

/-- The registers of a context in its reset state (R109, R111). -/
def Regs.reset : Regs where
  pc := 0
  x := .replicate 32 0
  v := .replicate 32 VReg.reset
  m := .replicate 8 0
  t := .replicate 8 none
  p := .replicate 16 none
  q := .replicate 2 QAcc.clear
  sg := .replicate 16 ⟨0, 0⟩
  amap := .replicate 8 0
  segMode := false
  shape := 0x0000000000010080
  fps := 0x13579BDF00000200
  tcoord := 0
  tlaunch := 0
  cls := 0
  gzstat := 0
  ecause := 0
  epcx := 0
  eaddr := 0
  edepth := 0
  spillbase := 0

/-- No access in flight. -/
def InFlight.none : InFlight := ⟨[], [], 0, [], []⟩

/-- A context in its reset state, at a core and a slot. -/
def Context.reset (uid core slot : Nat) (sup : Bool) : Context where
  id := ⟨uid, core, slot, sup, core, 0, 0, 0⟩
  reg := Regs.reset
  job := ⟨0, 0, 0, 0, none, [], 0, 0, false⟩
  io := InFlight.none
  order := ⟨none, 0, [], 0⟩
  sync := ⟨none, [], .none, 0, none⟩
  mail := ⟨[], [], none⟩
  sched := ⟨.slot, false, false, 0, 0, 0, 0, 0, none, false, none⟩
  power := ⟨none, none, false, false⟩
  bits := 0
  long := false

/-- The Q4N table, which both banks of the Q4P table hold after reset (R38, R41): nine-bit two's complement. -/
def q4n : List Nat :=
  [384, 424, 446, 462, 476, 489, 501, 0, 9, 19, 29, 40, 52, 66, 88, 128]

/-- A cluster at reset (R41, R111, R118). -/
def Cluster.reset : Cluster where
  drpth := 0x0000000000400008
  droops := 0
  stretch := 0
  stretching := false
  stretchAt := 0
  holdEnd := none
  holdOff := 0
  banks := [q4n, q4n]
  bank := false
  swaps := 0
  rings := []
  counters := List.replicate 16 ⟨0, 0, 0⟩
  cmds := []
  squashes := []
  table := []

/-- A string at reset: THRESH 200, LIMIT 280, EN 1 (R71). -/
def StringSt.reset : StringSt :=
  ⟨0, 0, 0, false, false, false, false, [none, none, none], none, none, 0x0000000011832001, none, none⟩

/-- A core at reset. -/
def CoreSt.reset : CoreSt := ⟨.replicate 8 0, [], none, false, List.replicate 7 0, false, [], none, none, false, 0⟩

/-- A die at reset. -/
def Die.reset : Die := ⟨none, 0, [], [], [], []⟩

/-- A package at reset. -/
def Pkg.reset : Pkg := ⟨0, 0, 0, 0, 0, List.replicate 9 0, none, 0, false⟩

/-- Atelier before it boots. -/
def Atelier.reset : Atelier := ⟨false, false, [], [], false, false, false, 0, [], []⟩

/-- The supervisor of a core before Atelier starts it: it stands in its slot and does not run (R107, R347). -/
def supervisorAtReset (core : Nat) : Context :=
  { Context.reset core core 7 true with sched := ⟨.slot, false, true, 0, 0, 0, 0, 0, none, false, none⟩ }

/-- The supervisors of the other cores of package 0. -/
def supervisorsAtReset : List Context := (List.range 511).map (fun k => supervisorAtReset (k + 1))

/-- The machine right after package reset: memory with nothing listed, no task, no launch, every register at its
reset value, and every supervisor waiting for Atelier. -/
def State.reset : State where
  cur := supervisorAtReset 0
  others := supervisorsAtReset
  agenda := []
  turns := []
  now := 0
  resetAt := 0
  freeAt := 0
  nextUid := 4096
  nextGen := 0
  lastLaunch := []
  judged := 0
  mem := []
  history := []
  promised := []
  broken := []
  narrow := []
  flushes := []
  poison := []
  ctl := []
  bar4 := []
  msix := []
  clusters := []
  strings := []
  cores := []
  dies := []
  pkgs := []
  packages := 1
  launches := []
  attached := []
  unmarked := []
  nodes := []
  ferry := []
  net := []
  caps := []
  capbase := []
  capAt := []
  evcidx := []
  accounts := []
  touches := []
  objects := []
  atelier := []
  host := .none
  links := []
  routes := []
  lost := []

end Sys2Proof.Machine
end

