-- ==== Sys2Proof/Machine/Bits.lean ====
section
/-! DEFINITION. Bits.lean: bit fields of words, sorted tables, and sparse memory. -/

namespace Sys2Proof.Machine

/-- Bits hi down to lo of a word, as a number (R4). -/
def bitsOf (w : Word) (hi lo : Nat) : Nat := w.toNat / 2 ^ lo % 2 ^ (hi + 1 - lo)

/-- A word with its bits hi down to lo replaced. -/
def setBits (w : Word) (hi lo : Nat) (v : Nat) : Word :=
  BitVec.ofNat 64 (w.toNat - bitsOf w hi lo * 2 ^ lo + v % 2 ^ (hi + 1 - lo) * 2 ^ lo)

/-- A number read as a w-bit two's complement integer. -/
def toSigned (w n : Nat) : Int :=
  let k := n % 2 ^ w
  if 2 * k < 2 ^ w then (k : Int) else (k : Int) - 2 ^ w

/-- The w-bit two's complement pattern of an integer. -/
def ofSigned (w : Nat) (i : Int) : Nat := (i % 2 ^ w).toNat

/-- A number rounded up to a quotient. -/
def ceilDiv (a b : Nat) : Nat := (a + b - 1) / b

/-- The word whose value is a Bool. -/
def wordOf (b : Bool) : Word := if b then 1 else 0

/-! Sorted tables: association lists in strictly rising order of their keys. -/

/-- The entry of a key, or the default. -/
def tabGet {α : Type} (dflt : α) : List (Nat × α) → Nat → α
  | [], _ => dflt
  | (k, v) :: rest, a => if a = k then v else tabGet dflt rest a

/-- A table with one entry replaced or put in. -/
def tabPut {α : Type} : List (Nat × α) → Nat → α → List (Nat × α)
  | [], a, x => [(a, x)]
  | (k, v) :: rest, a, x =>
    if a < k then (a, x) :: (k, v) :: rest
    else if a = k then (a, x) :: rest
    else (k, v) :: tabPut rest a x

/-- A table without one key. -/
def tabDel {α : Type} : List (Nat × α) → Nat → List (Nat × α)
  | [], _ => []
  | (k, v) :: rest, a => if a = k then tabDel rest a else (k, v) :: tabDel rest a

/-- Keys strictly rising. -/
def tabSorted {α : Type} : List (Nat × α) → Bool
  | [] => true
  | [_] => true
  | (k, _) :: (k', v') :: rest => k < k' && tabSorted ((k', v') :: rest)

/-! Memory: bytes by location, listed where they differ from Config.unwritten. -/

/-- The byte at a location. -/
def cellGet (m : List Host.Cell) (a : Nat) : Byte := tabGet Config.unwritten m a

/-- Memory with one byte written; a byte equal to what an unlisted location reads as is not listed. -/
def cellSet (m : List Host.Cell) (a : Nat) (b : Byte) : List Host.Cell :=
  if b = Config.unwritten then tabDel m a else tabPut m a b

/-- The canonical form of memory: rising locations, no entry that an unlisted location would read as. -/
def Memory.wf (m : List Host.Cell) : Bool := tabSorted m && m.all (fun c => c.2 != Config.unwritten)

/-- The n bytes from a location up. -/
def cellsGet (m : List Host.Cell) (a : Nat) : Nat → List Byte
  | 0 => []
  | n + 1 => cellGet m a :: cellsGet m (a + 1) n

/-- Memory with a list of bytes written from a location up. -/
def cellsSet (m : List Host.Cell) (a : Nat) : List Byte → List Host.Cell
  | [] => m
  | b :: bs => cellsSet (cellSet m a b) (a + 1) bs

/-- A list with one element replaced. -/
def putAt {α : Type} (l : List α) (i : Nat) (x : α) : List α := l.set i x

/-- The element of a list at a place, or a default. -/
def getAt {α : Type} (l : List α) (i : Nat) (d : α) : α := l.getD i d

/-- Drop the elements that satisfy a test. -/
def dropWhere {α : Type} (l : List α) (f : α → Bool) : List α := l.filter (fun x => !f x)

end Sys2Proof.Machine
end

