-- ==== Sys2Proof/Machine/Units.lean ====
section
/-! DEFINITION. Units.lean: the units of the machine, its contexts and their registers, time, counters, the raw
control registers, and the record rings. -/

namespace Sys2Proof.Machine

/-! Numbering (R2). -/

/-- The cluster of a core. -/
def clusterOf (core : Nat) : Nat := core / 4

/-- The string of a core. -/
def stringOf (core : Nat) : Nat := core / 16

/-- The die of a core. -/
def dieOf (core : Nat) : Nat := core / 128

/-- The package of a core. -/
def pkgOf (core : Nat) : Nat := core / 512

/-- The first location of a package's memory. -/
def pkgBase (pkg : Nat) : Nat := pkg * 2 ^ 53

/-! Tables of units. -/

/-- A cluster. -/
def State.cluster (s : State) (c : Nat) : Cluster := tabGet Cluster.reset s.clusters c

/-- The machine with a cluster replaced. -/
def State.setCluster (s : State) (c : Nat) (v : Cluster) : State := { s with clusters := tabPut s.clusters c v }

/-- A string. -/
def State.string (s : State) (c : Nat) : StringSt := tabGet StringSt.reset s.strings c

/-- The machine with a string replaced. -/
def State.setString (s : State) (c : Nat) (v : StringSt) : State := { s with strings := tabPut s.strings c v }

/-- A core. -/
def State.core (s : State) (c : Nat) : CoreSt := tabGet CoreSt.reset s.cores c

/-- The machine with a core replaced. -/
def State.setCore (s : State) (c : Nat) (v : CoreSt) : State := { s with cores := tabPut s.cores c v }

/-- A die. -/
def State.die (s : State) (d : Nat) : Die := tabGet Die.reset s.dies d

/-- The machine with a die replaced. -/
def State.setDie (s : State) (d : Nat) (v : Die) : State := { s with dies := tabPut s.dies d v }

/-- A package. -/
def State.pkg (s : State) (p : Nat) : Pkg := tabGet Pkg.reset s.pkgs p

/-- The machine with a package replaced. -/
def State.setPkg (s : State) (p : Nat) (v : Pkg) : State := { s with pkgs := tabPut s.pkgs p v }

/-- Atelier of a package. -/
def State.atel (s : State) (p : Nat) : Atelier := tabGet Atelier.reset s.atelier p

/-- The machine with Atelier of a package replaced. -/
def State.setAtel (s : State) (p : Nat) (v : Atelier) : State := { s with atelier := tabPut s.atelier p v }

/-! Time (R6, R117). -/

/-- A sum over the steps from one to another. -/
def sumSteps (f : Nat → Nat) (a : Nat) : Nat → Nat
  | 0 => 0
  | n + 1 => sumSteps f a n + f (a + n)

/-- The capability list of a package (R25). -/
def State.capsOf (s : State) (pkg : Nat) : List Capability := tabGet [] s.caps pkg

/-- TSTAMP: nanoseconds since package reset. -/
def State.tstamp (s : State) : Nat := sumSteps Config.nanos s.resetAt (s.now - s.resetAt)

/-- TSTAMP as it was at a step. -/
def State.tstampAt (s : State) (step : Nat) : Nat := sumSteps Config.nanos s.resetAt (step - s.resetAt)

/-- CYC of a cluster: edges of its clock since package reset. -/
def State.cyc (s : State) (cl : Nat) : Nat := sumSteps (Config.cycles cl) s.resetAt (s.now - s.resetAt)

/-- A free value, and the machine that has used it up. -/
def State.draw (s : State) : Nat × State := (Config.free s.freeAt, { s with freeAt := s.freeAt + 1 })

/-- Nanoseconds of TSTAMP between an earlier step and now. -/
def State.elapsed (s : State) (since : Nat) : Nat := sumSteps Config.nanos since (s.now - since)

/-! Event counters (R390). -/

/-- One event of a source in a cluster. -/
def State.event (s : State) (cl src : Nat) : State :=
  let c := s.cluster cl
  if c.counters.any (fun k => k.src = src) then
    s.setCluster cl { c with counters := c.counters.map (fun k =>
      if k.src = src then { k with value := (k.value + 1) % 2 ^ 64 } else k) }
  else s

/-- One event of a source of a die, in every cluster's counters that select it. -/
def State.dieEvent (s : State) (die src : Nat) : State :=
  (List.range 32).foldl (fun s i => s.event (die * 32 + i) src) s

/-- The sources that this model does not count event by event: CYC, caches and directory pieces. -/
def uncounted (src : Nat) : Bool := src = 1 || src = 9 || src = 30 || src = 32

/-- What a counter reads (R389, R390): those of a die's sources 30 and 32 count every event of the die. -/
def State.counterValue (s : State) (cl : Nat) (k : Counter) : Nat :=
  if k.src = 1 then (k.value + sumSteps (Config.cycles cl) k.since (s.now - k.since)) % 2 ^ 64
  else if uncounted k.src then
    let unit := if k.src = 30 || k.src = 32 then cl / 32 else cl
    (k.value + sumSteps (Config.events unit k.src) k.since (s.now - k.since)) % 2 ^ 64
  else k.value

/-! Contexts. -/

/-- Every context. -/
def State.contexts (s : State) : List Context := s.cur :: s.others

/-- A context that has not ended. -/
def Context.live (c : Context) : Bool := c.sched.place != .ended

/-- A context in a slot. -/
def Context.resident (c : Context) : Bool := c.sched.place = .slot

/-- The live context of a number. -/
def State.ctx (s : State) (uid : Nat) : Option Context :=
  s.contexts.find? (fun c => c.id.uid = uid && c.live)

/-- The machine with every context mapped. -/
def State.mapAll (s : State) (f : Context → Context) : State :=
  { s with cur := f s.cur, others := s.others.map f }

/-- The machine with the context of a number mapped. -/
def State.mapCtx (s : State) (uid : Nat) (f : Context → Context) : State :=
  s.mapAll (fun c => if c.id.uid = uid && c.live then f c else c)

/-- The context in a slot of a core. -/
def State.inSlot (s : State) (core slot : Nat) : Option Context :=
  s.contexts.find? (fun c => c.resident && c.id.core = core && c.id.slot = slot)

/-- The parked context in a slot of a core, or else the one that SPILL saved from it (R351). -/
def State.parkedIn (s : State) (core slot : Nat) : Option Context :=
  match s.contexts.find? (fun c => c.resident && c.sched.parked && c.id.core = core && c.id.slot = slot) with
  | some c => some c
  | none => s.contexts.find? (fun c => c.live && c.sched.parked && c.id.core = core && c.id.slot = slot)

/-- The free user slots of a core (R107). -/
def State.freeSlots (s : State) (core : Nat) : List Nat :=
  (List.range 7).filter (fun k => (s.inSlot core k).isNone)

/-! Registers of a context. -/

/-- x[a]; x0 reads zero (R76). -/
def Context.getX (c : Context) (a : XReg) : Word := if a = 0 then 0 else c.reg.x[a]

/-- The instruction in issue of a context, if its bits are one. -/
def Context.inIssue (c : Context) : Option Instr :=
  match decodeParcels (c.bits.toNat % 2 ^ 32) (c.bits.toNat / 2 ^ 32) with
  | .error _ => none
  | .ok i => some i

/-- Whether a deadline has passed; 0 stands for none. -/
def State.due (s : State) (limit : Word) : Bool := limit != 0 && decide (limit.toNat ≤ s.tstamp)

/-- Whether the deadline of a CWAIT or of an MRECV that waits has passed; time off-core counts (R145, R278). -/
def State.overdue (s : State) (c : Context) : Bool :=
  match c.inIssue with
  | some (.cwait _ _ b) => s.due (c.getX b)
  | some (.mrecv _ _ b) => s.due (c.getX b)
  | _ => false

/-- x[d] := w; a write to x0 is discarded (R76). -/
def Context.setX (c : Context) (d : XReg) (w : Word) : Context :=
  if d = 0 then c else { c with reg := { c.reg with x := c.reg.x.set d w } }

/-- The flags of FPS (R113): NV, DZ, OF, UF, NX, SAT from bit 0 up. -/
abbrev Flags := BitVec 6

/-- NV, invalid. -/
def fNV : Flags := 1

/-- DZ, divide by zero. -/
def fDZ : Flags := 2

/-- OF, overflow. -/
def fOF : Flags := 4

/-- UF, underflow. -/
def fUF : Flags := 8

/-- NX, inexact. -/
def fNX : Flags := 16

/-- SAT, saturation. -/
def fSAT : Flags := 32

/-- Flags OR'ed into FPS (R36, R137). -/
def Context.orFlags (c : Context) (f : Flags) : Context :=
  { c with reg := { c.reg with fps := c.reg.fps ||| f.zeroExtend 64 } }

/-- FPS.RND. -/
def Context.rnd (c : Context) : Nat := bitsOf c.reg.fps 11 9

/-- FPS.LFSR. -/
def Context.lfsr (c : Context) : BitVec 32 := c.reg.fps.extractLsb' 32 32

/-- FPS with a new LFSR (R44). -/
def Context.setLfsr (c : Context) (l : BitVec 32) : Context :=
  { c with reg := { c.reg with fps := l ++ c.reg.fps.extractLsb' 0 32 } }

/-- SHAPE.ROWS and SHAPE.COLS (R112). -/
def Context.rows (c : Context) : Nat := bitsOf c.reg.shape 31 16

/-- SHAPE.COLS (R112). -/
def Context.cols (c : Context) : Nat := bitsOf c.reg.shape 15 0

/-- The program counter set. -/
def Context.setPc (c : Context) (pc : Word) : Context := { c with reg := { c.reg with pc := pc } }

/-- The next number in the context's slot (R217). -/
def Context.count (c : Context) : Context := { c with id := { c.id with rob := c.id.rob + 1 } }

/-! The context whose turn it is. -/

/-- x[a] of the context whose turn it is. -/
def State.x (s : State) (a : XReg) : Word := s.cur.getX a

/-- Its x[d] written. -/
def State.setX (s : State) (d : XReg) (w : Word) : State := { s with cur := s.cur.setX d w }

/-- Its program counter. -/
def State.pc (s : State) : Word := s.cur.reg.pc

/-- Flags OR'ed into its FPS. -/
def State.orFlags (s : State) (f : Flags) : State := { s with cur := s.cur.orFlags f }

/-- The cluster it stands in. -/
def State.cl (s : State) : Nat := clusterOf s.cur.id.core

/-- Control at an address, and the instruction counted as retired (R390, source 2). -/
def State.goto (s : State) (pc : Word) : State :=
  ({ s with cur := (s.cur.setPc pc).count } : State).event s.cl 2

/-- The instruction of len bytes retires, and the next one follows (R73). -/
def State.retire (s : State) (len : Nat) : State := s.goto (s.cur.reg.pc + BitVec.ofNat 64 len)

/-! The token and the identities of a context. -/

/-- TOKEN (R188). -/
def Context.token (c : Context) : Nat :=
  c.id.core % 512 * 2 ^ 23 + c.id.slot % 8 * 2 ^ 20 + c.id.gen % 2 ^ 20

/-- The identity in the SRC layout (R275). -/
def Context.src (c : Context) : Nat := pkgOf c.id.home * 2 ^ 15 + c.id.home % 512 * 2 ^ 6 + c.id.cid

/-- The destination word of the context's mailbox (R274). -/
def Context.dest (c : Context) : Word :=
  BitVec.ofNat 64 (pkgOf c.id.home * 2 ^ 47 + c.id.home % 512 * 2 ^ 38 + c.id.cid)

/-! Control registers (R184, R239, R284, R355, R362, R371, R380, R389): raw contents. -/

/-- Registers that a package has once: PTROOT, FDBASE and those of the tide but LBUD (R184, R371). -/
def pkgWide (off : Nat) : Bool := off < 0x010 || (0x700 ≤ off && off < 0x800 && !(0x780 ≤ off && off < 0x7C0))

/-- Where a register's contents are kept. -/
def ctlKey (die off : Nat) : Nat := (if pkgWide off then die / 4 * 4 else die) * 0x1000 + off

/-- Reset contents. -/
def ctlReset (off : Nat) : Word :=
  if off = 0x040 then 1000
  else if off = 0x048 then 0x0100000400000003
  else if 0x700 ≤ off && off < 0x740 then 3300
  else if off = 0x740 then 0x0000000007D00CE4
  else if off = 0x748 then 0x0000000007D00080
  else if off = 0x760 then 3300
  else 0

/-- A register's contents. -/
def State.ctlGet (s : State) (die off : Nat) : Word := tabGet (ctlReset off) s.ctl (ctlKey die off)

/-- A register's contents set. -/
def State.ctlSet (s : State) (die off : Nat) (w : Word) : State :=
  { s with ctl := tabPut s.ctl (ctlKey die off) w }

/-- A field of a register. -/
def State.ctlField (s : State) (die off hi lo : Nat) : Nat := bitsOf (s.ctlGet die off) hi lo

/-- A field of a register set. -/
def State.ctlPutField (s : State) (die off hi lo v : Nat) : State :=
  s.ctlSet die off (setBits (s.ctlGet die off) hi lo v)

/-! Memory by location. -/

/-- The n bytes at a location. -/
def State.bytesAt (s : State) (loc n : Nat) : List Byte := cellsGet s.mem loc n

/-- The number in the n bytes at a location. -/
def State.numAt (s : State) (loc n : Nat) : Nat := fromBytes (s.bytesAt loc n)

/-- A writer that is no context. -/
def Writer.agent (token : Nat) : Writer := ⟨token, none⟩

/-- The poison that a store of n bytes at a location leaves: in each 32-byte granule it is cleared where the store covers
every poisoned byte (R361). -/
def poisonLeft (poison : List Nat) (loc n : Nat) : List Nat :=
  poison.filter (fun b => poison.any (fun q => q / 32 = b / 32 && !(loc ≤ q && q < loc + n)))

/-- The bytes of n at a location that a live task has promised not to be written (R197). -/
def State.promisesOn (s : State) (loc n : Nat) : List Nat :=
  (s.promised.filter (fun p => loc ≤ p.1 && p.1 < loc + n && (s.ctx p.2).isSome)).map (fun p => p.1)

/-- Bytes written at a location: the write enters the coherence order of its bytes (R298), breaks the promises of live
tasks that no agent writes them (R197), and clears the poison that it covers (R361). -/
def State.putBy (s : State) (w : Writer) (loc : Nat) (bs : List Byte) : State :=
  { s with
    mem := cellsSet s.mem loc bs
    history := ⟨s.now, w, loc, cellsGet s.mem loc bs.length, bs⟩ :: s.history
    broken := (s.broken ++ s.promisesOn loc bs.length).eraseDups
    poison := poisonLeft s.poison loc bs.length }

/-- Bytes that the device writes of itself at a location. -/
def State.putBytes (s : State) (loc : Nat) (bs : List Byte) : State := s.putBy (Writer.agent 0) loc bs

/-- A number that the device writes of itself in n bytes at a location. -/
def State.putNum (s : State) (loc n v : Nat) : State := s.putBytes loc (toBytes n v)

/-- Bytes laid over a granule's image at an offset. -/
def overlay (image : List (Option Byte)) (off : Nat) (bs : List Byte) : List (Option Byte) :=
  image.take off ++ bs.map some ++ image.drop (off + bs.length)

/-- The runs of bytes of an image, each with its address, from an address up. -/
def imageRuns : Nat → List (Option Byte) → List (Nat × List Byte)
  | _, [] => []
  | a, none :: rest => imageRuns (a + 1) rest
  | a, some b :: rest =>
    match imageRuns (a + 1) rest with
    | [] => [(a, [b])]
    | (k, bs) :: more => if k = a + 1 then (a, b :: bs) :: more else (a, [b]) :: (k, bs) :: more

/-- The parts of one store, each within one granule, joined granule by granule, a later part over an earlier one, so that
a store which covers a granule in parts covers it at once (R361). -/
def mergedParts (parts : List (Nat × List Byte)) : List (Nat × List Byte) :=
  ((parts.map (fun p => p.1 / 32)).eraseDups).flatMap (fun g =>
    imageRuns (g * 32) ((parts.filter (fun p => p.1 / 32 = g)).foldl (fun image p => overlay image (p.1 % 32) p.2)
      (List.replicate 32 none)))

/-- Whether any of n bytes at a location is poisoned in memory (R361). -/
def State.poisonAt (s : State) (loc n : Nat) : Bool :=
  s.poison.any (fun b => loc ≤ b && b < loc + n)

/-- Whether a request on a failed route is one of a package for some of n bytes at a location (R393). -/
def lostFor (pkg loc n : Nat) (r : Nat × Nat) : Bool := r.1 = pkg && r.2 * 32 < loc + n && loc < r.2 * 32 + 32

/-- Whether a request of a package for n bytes at a location meets poisoned data (R361, R393). -/
def State.poisonedTo (s : State) (pkg loc n : Nat) : Bool := s.poisonAt loc n || s.lost.any (lostFor pkg loc n)

/-- Whether the context whose turn it is would read poisoned data in n bytes at a location. -/
def State.poisoned (s : State) (loc n : Nat) : Bool := s.poisonedTo (pkgOf s.cur.id.core) loc n

/-- The requests of a package for n bytes at a location that a failed route has spoilt are over (R393). -/
def State.endLost (s : State) (pkg loc n : Nat) : State :=
  if s.lost.isEmpty then s else { s with lost := s.lost.filter (fun r => !(lostFor pkg loc n r)) }

/-! Record rings of a die and the vectors they signal (R184, R362, R388, R392). -/

/-- BAR4 at reset: zero, but for the mask bits of the MSI-X table. PRESUMED: the layout and the reset values of an entry
are those of PCI Express (log 12). Unsafe. -/
def bar4Reset (off : Nat) : Word :=
  if 0x8000 ≤ off && off < 0x8400 && off % 16 = 8 then 0x0000000100000000 else 0

/-- A doubleword of BAR4 as it is kept. -/
def State.bar4Get (s : State) (pkg off : Nat) : Word := tabGet (bar4Reset off) s.bar4 (pkg * 0x10000 + off)

/-- A doubleword of BAR4 kept. -/
def State.bar4Put (s : State) (pkg off : Nat) (w : Word) : State :=
  { s with bar4 := tabPut s.bar4 (pkg * 0x10000 + off) w }

/-- Vector 8d + e signalled to the host (R392): its message goes out, or, where its entry is masked, its pending bit is
set. -/
def State.signal (s : State) (die e : Nat) : State :=
  let pkg := die / 4
  let v := die % 4 * 8 + e
  if (s.bar4Get pkg (0x8008 + 16 * v)).getLsbD 32 then
    s.bar4Put pkg 0x9000 (s.bar4Get pkg 0x9000 ||| BitVec.ofNat 64 (2 ^ v))
  else { s with msix := s.msix ++ [pkg * 64 + v] }

/-- A record put into the ring whose base and control are at the offsets given; none where the ring is full. -/
def State.ringPost (s : State) (die baseOff ctlOff e : Nat) (bs : List Byte) : Option State :=
  let size := s.ctlField die ctlOff 63 48
  let tail := s.ctlField die ctlOff 31 16
  let head := s.ctlField die ctlOff 15 0
  if size = 0 || (head + 1) % size = tail then none
  else
    let base := pkgBase (die / 4) + (s.ctlGet die baseOff).toNat % 2 ^ 52
    let s1 := (s.putBytes (base + head * bs.length) bs).ctlPutField die ctlOff 15 0 ((head + 1) % size)
    some (if head = tail then s1.signal die e else s1)

/-- Atelier reads a record of a machine-check ring and reports it over the management ports (R396). DESIGN CHOICE (log
128): each record as it is posted, TAIL staying software's. -/
def State.atelReport (s : State) (pkg : Nat) (bs : List Byte) : State :=
  s.setAtel pkg { s.atel pkg with reports := (s.atel pkg).reports ++ [bs] }

/-- A machine-check record (R362, R398): posted to the ring of the die, or dropped and counted. -/
def State.machineCheck (s : State) (die ia unit kind cause token : Nat) (detail : Word) : State :=
  let bs := toBytes 8 s.tstamp ++ toBytes 8 ia ++ toBytes 2 (die % 4 * 2 ^ 14 + unit) ++ toBytes 1 kind ++
    toBytes 1 cause ++ toBytes 4 token ++ toBytes 8 detail.toNat
  match s.ringPost die 0x070 0x078 0 bs with
  | some s' => s'.atelReport (die / 4) bs
  | none =>
    let n := s.ctlField die 0x078 47 32
    s.ctlPutField die 0x078 47 32 (if n = 0xFFFF then n else n + 1)

/-- The unit of a core in a machine-check record (R398). -/
def unitCore (core : Nat) : Nat := core % 128

/-- The unit of a class and an index in a machine-check record (R398). -/
def unitOf (cls idx : Nat) : Nat := cls * 2 ^ 11 + idx % 2 ^ 11

/-- The bytes of a fault record (R188). -/
def FaultRec.bytes (r : FaultRec) : List Byte :=
  toBytes 8 r.va.toNat ++ toBytes 8 r.ia ++ toBytes 4 r.token ++ toBytes 1 r.kind ++ toBytes 1 r.level ++
    toBytes 2 0 ++ toBytes 8 r.time

/-- A fault record posted, or kept at the walker until the ring has room (R188). -/
def State.postFault (s : State) (die : Nat) (r : FaultRec) : State :=
  match s.ringPost die 0x020 0x028 2 r.bytes with
  | some s' => s'
  | none =>
    let d := s.die die
    s.setDie die { d with faultWait := d.faultWait ++ [r] }

/-- Whether an IA lies in a palette or lagoon of a package. -/
def sharedSram (pkg ia : Nat) : Bool :=
  ia / 2 ^ 53 = pkg &&
  ((0x10000000000000 ≤ ia % 2 ^ 53 && ia % 2 ^ 53 < 0x10000000000000 + 4 * 0x1000000) ||
   (0x11000000000000 ≤ ia % 2 ^ 53 && ia % 2 ^ 53 < 0x11000000000000 + 128 * 0x100000))

/-- A trace record of a cluster (R239, R240). -/
def State.trace (s : State) (cl easel tag event op detail : Nat) : State :=
  let die := cl / 32
  let off := 0x100 + 0x20 * (cl % 32)
  let filt := s.ctlGet die (off + 0x18)
  let named := bitsOf filt 6 5 = tag / 2 ^ 12 % 4 && bitsOf filt 4 2 = tag / 2 ^ 9 % 8
  if !(filt.getLsbD 15) || !(filt.getLsbD (48 + event)) ||
      (filt.getLsbD 7 && event != 8 && !named) then s
  else
    let size := s.ctlField die (off + 0x08) 63 48
    let tail := s.ctlField die (off + 0x08) 31 16
    let head := s.ctlField die (off + 0x08) 15 0
    let base := (s.ctlGet die off).toNat % 2 ^ 56
    let t16 := if event = 8 then 0 else easel % 4 * 2 ^ 14 + tag % 2 ^ 14
    if size = 0 || (head + 1) % size = tail % size || !(sharedSram (cl / 128) base) then
      s.ctlPutField die (off + 0x10) 63 32 (s.ctlField die (off + 0x10) 63 32 + 1)
    else
      let bs := toBytes 8 (s.cyc cl) ++ toBytes 2 t16 ++ toBytes 1 event ++ toBytes 1 op ++ toBytes 4 detail
      let s1 := (s.putBytes (base + head * 16) bs).ctlPutField die (off + 0x08) 15 0 ((head + 1) % size)
      let s2 := s1.ctlPutField die (off + 0x10) 31 0 (s1.ctlField die (off + 0x10) 31 0 + 1)
      if head % size = tail % size then s2.signal die 4 else s2

/-! Squashes at an easel (R225, R293). -/

/-- The first cell and the number of cells of a list, as a trace record holds them (R240). -/
def cellField (cells : List Nat) : Nat := cells.headD 0 % 2 ^ 7 + cells.length % 2 ^ 6 * 2 ^ 7

/-- A record of the end of a squashed command: its new cells are free again. -/
def State.discardTrace (s : State) (cl : Nat) (k : EngineCmd) : State :=
  (s.trace cl k.easel k.tag 4 k.op (cellField k.cells)).event cl 4

/-- One command squashed: gone at once unless it is executing, which stops at its next cell-write boundary. -/
def State.squashOne (s : State) (cl : Nat) (k : EngineCmd) : State :=
  let v := s.cluster cl
  if k.state = .executing then
    let s1 := s.setCluster cl { v with cmds := v.cmds.map (fun q => if q = k then { q with squashed := true } else q) }
    { s1 with agenda := s1.agenda ++ [.easelDiscard (cl * 4 + k.easel) k.tag] }
  else (s.setCluster cl { v with cmds := v.cmds.erase k }).discardTrace cl k

/-- The number of a command's instruction in its slot, from its tag (R217). -/
def tagAge (tag : Nat) : Nat := tag % 2 * 256 + tag / 2 % 256

/-- Whether a tag is at or younger than an entry, numbers running modulo 512. -/
def youngerThan (tag age : Nat) : Bool := decide ((tagAge tag + 512 - age % 512) % 512 < 256)

/-- Whether a squash names a command. The tags of two contexts of a string may be alike where commands go to all of it, and
a squash concerns no other context (R122). -/
def Squash.hits (q : Squash) (k : EngineCmd) : Bool :=
  k.uid = q.uid && k.easel = q.easel && k.tag / 2 ^ 12 = q.core && k.tag / 2 ^ 9 % 8 = q.slot && youngerThan k.tag q.age

/-- A squash reaches its easel. -/
def State.squashAt (s : State) (cl : Nat) (q : Squash) : State :=
  let v := s.cluster cl
  (v.cmds.filter (fun k => !k.squashed && q.hits k)).foldl (fun s k => s.squashOne cl k)
    (s.setCluster cl { v with squashes := v.squashes.erase q })

/-- The commands of a context that no squash has met, with their clusters. -/
def State.commandsOf (s : State) (uid : Nat) : List (Nat × EngineCmd) :=
  s.clusters.flatMap (fun c => (c.2.cmds.filter (fun k =>
    k.uid = uid && !k.squashed && !(c.2.squashes.any (fun q => q.hits k)))).map (fun k => (c.1, k)))

/-- A squash of a context from an age on is sent to each easel that holds a command of it at or younger than that. -/
def State.squashFrom (s : State) (uid : Nat) (younger : EngineCmd → Bool) : State :=
  (((s.commandsOf uid).filter (fun k => younger k.2)).map (fun k => (k.1, (⟨uid, k.2.easel, k.2.tag / 2 ^ 12, k.2.tag / 2 ^ 9 % 8,
    tagAge k.2.tag⟩ : Squash)))).foldl (fun s q =>
      if (s.cluster q.1).squashes.any (fun x => x.uid = uid && x.easel = q.2.easel) then s
      else
        let s1 := s.setCluster q.1 { s.cluster q.1 with squashes := (s.cluster q.1).squashes ++ [q.2] }
        { s1 with agenda := s1.agenda ++
          [.easelSquash (q.1 * 4 + q.2.easel) q.2.core q.2.slot (q.2.age % 256) (q.2.age / 256)] }) s

/-- A context's CTWR or CTSWAP gives up its place at the code table. -/
def State.leaveTable (s : State) (uid : Nat) : State :=
  { s with clusters := s.clusters.map (fun c => (c.1, { c.2 with table := c.2.table.filter (fun o => o.uid != uid) })) }

/-- Everything of a context that has not retired squashed: its commands, and its place at the code table. -/
def State.squashOf (s : State) (uid : Nat) : State := (s.leaveTable uid).squashFrom uid (fun _ => true)

/-- A context's registers at a field. -/
def State.setReg (s : State) (f : Regs → Regs) : State := { s with cur := { s.cur with reg := f s.cur.reg } }

/-! Half width (R118, R378, R390). -/

/-- Cycles left in the half-width hold of a cluster (R118). -/
def State.holdLeft (s : State) (cl : Nat) : Nat :=
  match (s.cluster cl).holdEnd with
  | none => 0
  | some e => e - s.cyc cl

/-- Half-width issue of a cluster (R378). -/
def State.halfWidth (s : State) (cl : Nat) : Bool :=
  let pwr := s.ctlGet (cl / 32) 0x758
  decide (0 < s.holdLeft cl) || (s.string (cl / 4)).throt || pwr.getLsbD 30 || pwr.getLsbD 31 ||
  s.contexts.any (fun c => c.live && c.power.hold && stringOf c.id.core = cl / 4)

/-- What a step's cycles add to a counter of a cluster (R390): those at half width for source 7, and for source 6, while gesso
issue is active in its string, as many as is free. -/
def State.stepCycles (s : State) (cl : Nat) (k : Counter) : Nat :=
  if k.src = 7 then (if s.halfWidth cl then Config.cycles cl s.now else 0)
  else if k.src = 6 then
    (if (s.string (cl / 4)).gact then min (Config.events cl 6 s.now) (Config.cycles cl s.now) else 0)
  else 0

/-- A step's cycles counted. -/
def State.countCycles (s : State) : State :=
  { s with clusters := s.clusters.map (fun c =>
      if c.2.counters.any (fun k => k.src = 6 || k.src = 7) then
        (c.1, { c.2 with counters := c.2.counters.map (fun k =>
          { k with value := (k.value + s.stepCycles c.1 k) % 2 ^ 64 }) })
      else c) }

end Sys2Proof.Machine
end

