-- ==== Sys2Proof/Machine/Flags.lean ====
section
/-! DEFINITION. Flags.lean: number formats, exact values, rounding, and the flags that each operation raises
(R28, R33 to R52). An operation answers a bit pattern and its flags. -/

namespace Sys2Proof.Machine

/-! Formats. -/

/-- Width in bits of an element of a format (R28); UNTYPED and the reserved tag have none. -/
def fmtWidth (f : FmtCode) : Nat :=
  match f.val with
  | 1 => 64
  | 2 => 32
  | 3 => 16
  | 4 => 16
  | 5 => 8
  | 6 => 8
  | 7 => 64
  | 8 => 32
  | 9 => 16
  | 10 => 8
  | 11 => 8
  | 12 => 4
  | 13 => 4
  | 14 => 4
  | _ => 0

/-- A floating-point format is given by its exponent and fraction widths; E4M3 has no infinities (R33). -/
structure FpFmt where
  eb : Nat
  fb : Nat
  bias : Nat
  noInf : Bool
deriving DecidableEq, Repr

/-- FP64. -/
def FP64 : FpFmt := ⟨11, 52, 1023, false⟩

/-- FP32. -/
def FP32 : FpFmt := ⟨8, 23, 127, false⟩

/-- BF16. -/
def BF16 : FpFmt := ⟨8, 7, 127, false⟩

/-- FP16. -/
def FP16 : FpFmt := ⟨5, 10, 15, false⟩

/-- E4M3. -/
def E4M3 : FpFmt := ⟨4, 3, 7, true⟩

/-- E5M2. -/
def E5M2 : FpFmt := ⟨5, 2, 15, false⟩

/-- The floating-point format of a tag from 1 to 6. -/
def fpFmt (f : FmtCode) : FpFmt :=
  match f.val with
  | 1 => FP64
  | 2 => FP32
  | 3 => BF16
  | 4 => FP16
  | 5 => E4M3
  | _ => E5M2

/-- The width of a floating-point format. -/
def FpFmt.width (f : FpFmt) : Nat := 1 + f.eb + f.fb

/-- The canonical NaN (R34). -/
def FpFmt.nan (f : FpFmt) : Nat :=
  if f.noInf then 0x7F else (2 ^ f.eb - 1) * 2 ^ f.fb + 2 ^ (f.fb - 1)

/-- The sign bit in place. -/
def FpFmt.sign (f : FpFmt) (neg : Bool) : Nat := if neg then 2 ^ (f.eb + f.fb) else 0

/-- An infinity; E4M3 has none. -/
def FpFmt.inf (f : FpFmt) (neg : Bool) : Nat := f.sign neg + (2 ^ f.eb - 1) * 2 ^ f.fb

/-- The magnitude of the largest finite value. -/
def FpFmt.largest (f : FpFmt) : Nat := if f.noInf then 0x7E else (2 ^ f.eb - 1) * 2 ^ f.fb - 1

/-- The exponent of the smallest normal. -/
def FpFmt.emin (f : FpFmt) : Int := 1 - (f.bias : Int)

/-- The exponent of the largest finite value. -/
def FpFmt.emax (f : FpFmt) : Int := if f.noInf then 8 else f.bias

/-- The largest significand at emax. -/
def FpFmt.maxSig (f : FpFmt) : Nat := if f.noInf then 14 else 2 ^ (f.fb + 1) - 1

/-! Exact values. -/

/-- A NaN, an infinity, or (-1)^neg × m × 2^e. -/
inductive FpVal where
  | nan (signalling : Bool)
  | inf (neg : Bool)
  | fin (neg : Bool) (m : Nat) (e : Int)
deriving DecidableEq, Repr

/-- The value of a bit pattern (R33). -/
def FpFmt.value (f : FpFmt) (n : Nat) : FpVal :=
  let neg : Bool := n / 2 ^ (f.eb + f.fb) % 2 = 1
  let ex := n / 2 ^ f.fb % 2 ^ f.eb
  let fr := n % 2 ^ f.fb
  if f.noInf && ex = 15 && fr = 7 then .nan false
  else if !f.noInf && ex = 2 ^ f.eb - 1 then
    (if fr = 0 then .inf neg else .nan (fr < 2 ^ (f.fb - 1)))
  else if ex = 0 then .fin neg fr (f.emin - f.fb)
  else .fin neg (2 ^ f.fb + fr) ((ex : Int) - f.bias - f.fb)

/-- Whether a value is a NaN. -/
def FpVal.isNan : FpVal → Bool
  | .nan _ => true
  | _ => false

/-- Whether a value is a signalling NaN. -/
def FpVal.isSig : FpVal → Bool
  | .nan s => s
  | _ => false

/-- Whether a value is zero. -/
def FpVal.isZero : FpVal → Bool
  | .fin _ m _ => m = 0
  | _ => false

/-- The sign of a value. -/
def FpVal.neg : FpVal → Bool
  | .nan _ => false
  | .inf n => n
  | .fin n _ _ => n

/-- NV where one of the values is a signalling NaN (R34). -/
def nvOf (vs : List FpVal) : Flags := if vs.any FpVal.isSig then fNV else 0

/-- Bits in a number. -/
def bitLen (n : Nat) : Nat := if n = 0 then 0 else Nat.log2 n + 1

/-- A number scaled by a power of two, for exponents not below. -/
def scaleUp (m : Nat) (k : Int) : Nat := m * 2 ^ k.toNat

/-- A signed significand. -/
def signedSig (neg : Bool) (m : Nat) : Int := if neg then -(m : Int) else m

/-- Two finite values as integers over one exponent. -/
def alignTwo (n1 : Bool) (m1 : Nat) (e1 : Int) (n2 : Bool) (m2 : Nat) (e2 : Int) : Int × Int × Int :=
  let e := min e1 e2
  (signedSig n1 (scaleUp m1 (e1 - e)), signedSig n2 (scaleUp m2 (e2 - e)), e)

/-! Rounding. -/

/-- The rounding modes of R42. -/
def RNE : Nat := 1

/-- Toward zero. -/
def RTZ : Nat := 2

/-- Toward +∞. -/
def RUP : Nat := 3

/-- Toward −∞. -/
def RDN : Nat := 4

/-- Nearest, ties away. -/
def RNA : Nat := 5

/-- Stochastic. -/
def SR : Nat := 6

/-- One step of the LFSR (R44). -/
def lfsrStep (s : BitVec 32) : BitVec 32 :=
  let b := s.getLsbD 31 ^^ s.getLsbD 21 ^^ s.getLsbD 1 ^^ s.getLsbD 0
  let n := (s <<< 1) ||| (if b then 1 else 0)
  if n = 0 then 1 else n

/-- Whether the magnitude t, with rem of 2^sh discarded, is increased by one unit (R42, R43). lfsr is the stepped
state. -/
def roundUp (mode : Nat) (lfsr : BitVec 32) (neg : Bool) (t rem sh : Nat) : Bool :=
  let half := 2 ^ sh
  if rem = 0 then false
  else if mode = 2 then false
  else if mode = 3 then !neg
  else if mode = 4 then neg
  else if mode = 5 then 2 * rem ≥ half
  else if mode = 6 then
    let d := min sh 32
    decide (rem / 2 ^ (sh - d) + lfsr.toNat / 2 ^ (32 - d) ≥ 2 ^ d)
  else 2 * rem > half || (2 * rem = half && t % 2 = 1)

/-- A magnitude m × 2^e rounded to a multiple of 2^q: the multiple, and whether it is exact. -/
def roundTo (mode : Nat) (lfsr : BitVec 32) (neg : Bool) (m : Nat) (e q : Int) : Nat × Bool :=
  if q ≤ e then (scaleUp m (e - q), true)
  else
    let sh := (q - e).toNat
    let t := m / 2 ^ sh
    let rem := m % 2 ^ sh
    (if roundUp mode lfsr neg t rem sh then t + 1 else t, rem = 0)

/-- What an overflow gives (R46). -/
def overflow (f : FpFmt) (mode : Nat) (sat : Bool) (neg : Bool) : Nat × Flags :=
  if sat then (f.sign neg + f.largest, fSAT ||| fNX)
  else if mode = 2 || (mode = 3 && neg) || (mode = 4 && !neg) then (f.sign neg + f.largest, fOF ||| fNX)
  else if f.noInf then (f.nan, fNV ||| fOF ||| fNX)
  else (f.inf neg, fOF ||| fNX)

/-- A finite value rounded once into a format: overflow by R46, tininess after rounding by R35. R43 does not say what T is for
a value whose truncation lies beyond the largest finite value: it is the truncation with an unbounded exponent here, so
that such a value overflows whatever R is (log 94). -/
def roundFin (f : FpFmt) (mode : Nat) (lfsr : BitVec 32) (sat : Bool) (neg : Bool) (m : Nat) (e : Int) :
    Nat × Flags :=
  if m = 0 then (f.sign neg, 0)
  else
    let top : Int := e + bitLen m - 1
    let q : Int := max (top - f.fb) (f.emin - f.fb)
    let (r, exact) := roundTo mode lfsr neg m e q
    let (r', _) := roundTo mode lfsr neg m e (top - f.fb)
    let tiny : Bool := top < f.emin && !(top + 1 = f.emin && r' = 2 ^ (f.fb + 1))
    let carry : Bool := r = 2 ^ (f.fb + 1)
    let r1 := if carry then 2 ^ f.fb else r
    let q1 : Int := if carry then q + 1 else q
    if q1 > f.emax - f.fb || (q1 = f.emax - f.fb && r1 > f.maxSig) then overflow f mode sat neg
    else
      let fl : Flags := if exact then 0 else if tiny then fNX ||| fUF else fNX
      if r1 < 2 ^ f.fb then (f.sign neg + r1, fl)
      else (f.sign neg + (q1 + f.fb + f.bias).toNat * 2 ^ f.fb + (r1 - 2 ^ f.fb), fl)

/-- A value rounded into a format. A NaN is canonical; an infinity has no place in E4M3 and raises NV there
(R45). Flags of NaN operands are the caller's. -/
def roundVal (f : FpFmt) (mode : Nat) (lfsr : BitVec 32) (sat : Bool) (v : FpVal) : Nat × Flags :=
  match v with
  | .nan _ => (f.nan, 0)
  | .inf n => if f.noInf then (f.nan, fNV) else (f.inf n, 0)
  | .fin n m e => roundFin f mode lfsr sat n m e

/-- A value rounded by an arithmetic instruction: SR rounds by RNE (R42). -/
def roundArith (f : FpFmt) (mode : Nat) (v : FpVal) : Nat × Flags :=
  roundVal f (if mode = 6 then 1 else mode) 0 false v

/-- ResolveMode (R131): rnd of the instruction, FPS.RND, narrowing. -/
def resolveMode (rnd fpsRnd : Nat) (narrowing : Bool) : Nat :=
  let m := if rnd = 0 then fpsRnd else rnd
  if m = 6 && !narrowing then 1 else m

/-- A conversion to BF16, FP16, E4M3 or E5M2 (R42, R149). -/
def narrowingFmt (f : FmtCode) : Bool := 3 ≤ f.val && f.val ≤ 6

/-! Exact arithmetic on values. The flag of an invalid operation is NV (R34). -/

/-- The exact sum of finite values: an exact zero of operands of unlike sign is +0, and −0 under RDN (R132). -/
def addFin (mode : Nat) (n1 : Bool) (m1 : Nat) (e1 : Int) (n2 : Bool) (m2 : Nat) (e2 : Int) : FpVal :=
  let (a, b, e) := alignTwo n1 m1 e1 n2 m2 e2
  let s := a + b
  if s = 0 then .fin (if n1 = n2 then n1 else mode = 4) 0 e
  else .fin (s < 0) s.natAbs e

/-- The exact sum of two values. -/
def addVal (mode : Nat) (a b : FpVal) : FpVal × Flags :=
  match a, b with
  | .nan _, _ => (.nan false, nvOf [a, b])
  | _, .nan _ => (.nan false, nvOf [a, b])
  | .inf n1, .inf n2 => if n1 = n2 then (.inf n1, 0) else (.nan false, fNV)
  | .inf n1, .fin _ _ _ => (.inf n1, 0)
  | .fin _ _ _, .inf n2 => (.inf n2, 0)
  | .fin n1 m1 e1, .fin n2 m2 e2 => (addFin mode n1 m1 e1 n2 m2 e2, 0)

/-- A value with its sign turned. -/
def negVal (a : FpVal) : FpVal :=
  match a with
  | .nan s => .nan s
  | .inf n => .inf (!n)
  | .fin n m e => .fin (!n) m e

/-- The exact product of two values. -/
def mulVal (a b : FpVal) : FpVal × Flags :=
  match a, b with
  | .nan _, _ => (.nan false, nvOf [a, b])
  | _, .nan _ => (.nan false, nvOf [a, b])
  | .inf n1, .inf n2 => (.inf (n1 != n2), 0)
  | .inf n1, .fin n2 m2 _ => if m2 = 0 then (.nan false, fNV) else (.inf (n1 != n2), 0)
  | .fin n1 m1 _, .inf n2 => if m1 = 0 then (.nan false, fNV) else (.inf (n1 != n2), 0)
  | .fin n1 m1 e1, .fin n2 m2 e2 => (.fin (n1 != n2) (m1 * m2) (e1 + e2), 0)

/-- a × b + c before rounding. 0 × ∞ is invalid even where c is a quiet NaN (R132). -/
def fmaVal (mode : Nat) (a b c : FpVal) : FpVal × Flags :=
  let (p, f1) := mulVal a b
  let (r, f2) := addVal mode p c
  (r, f1 ||| f2)

/-- The quotient of finite values with a sticky last bit, for any format of at most 53 bits. -/
def divFin (n1 : Bool) (m1 : Nat) (e1 : Int) (n2 : Bool) (m2 : Nat) (e2 : Int) : FpVal :=
  let sh := 130 + bitLen m2
  let num := m1 * 2 ^ sh
  .fin (n1 != n2) (num / m2 * 2 + (if num % m2 = 0 then 0 else 1)) (e1 - e2 - sh - 1)

/-- a ÷ b before rounding (R132). -/
def divVal (a b : FpVal) : FpVal × Flags :=
  match a, b with
  | .nan _, _ => (.nan false, nvOf [a, b])
  | _, .nan _ => (.nan false, nvOf [a, b])
  | .inf _, .inf _ => (.nan false, fNV)
  | .inf n1, .fin n2 _ _ => (.inf (n1 != n2), 0)
  | .fin n1 _ _, .inf n2 => (.fin (n1 != n2) 0 0, 0)
  | .fin n1 m1 e1, .fin n2 m2 e2 =>
    if m2 = 0 then (if m1 = 0 then (.nan false, fNV) else (.inf (n1 != n2), fDZ))
    else (divFin n1 m1 e1 n2 m2 e2, 0)

/-- The integer square root of a number below 4^k, from a partial root r. -/
def isqrtFrom (n : Nat) : Nat → Nat → Nat
  | 0, r => r
  | k + 1, r => if (r + 2 ^ k) * (r + 2 ^ k) ≤ n then isqrtFrom n k (r + 2 ^ k) else isqrtFrom n k r

/-- The integer square root. -/
def isqrt (n : Nat) : Nat := isqrtFrom n (bitLen n / 2 + 1) 0

/-- The square root of m × 2^e with a sticky last bit. -/
def sqrtFin (m : Nat) (e : Int) : FpVal :=
  let odd : Nat := if e % 2 = 0 then 0 else 1
  let n := m * 2 ^ (odd + 220)
  let r := isqrt n
  .fin false (r * 2 + (if r * r = n then 0 else 1)) ((e - odd - 220) / 2 - 1)

/-- √a before rounding (R132). -/
def sqrtVal (a : FpVal) : FpVal × Flags :=
  match a with
  | .nan _ => (.nan false, nvOf [a])
  | .inf n => if n then (.nan false, fNV) else (.inf false, 0)
  | .fin n m e => if m = 0 then (.fin n 0 0, 0) else if n then (.nan false, fNV) else (sqrtFin m e, 0)

/-! Operations on bit patterns. -/

/-- A value rounded in a mode, with flags raised before. -/
def finishFp (f : FpFmt) (mode : Nat) (r : FpVal × Flags) : Nat × Flags :=
  let (v, fl) := roundArith f mode r.1
  (v, r.2 ||| fl)

/-- a + b. -/
def fpAdd (f : FpFmt) (mode a b : Nat) : Nat × Flags := finishFp f mode (addVal mode (f.value a) (f.value b))

/-- a − b. -/
def fpSub (f : FpFmt) (mode a b : Nat) : Nat × Flags :=
  finishFp f mode (addVal mode (f.value a) (negVal (f.value b)))

/-- a × b. -/
def fpMul (f : FpFmt) (mode a b : Nat) : Nat × Flags := finishFp f mode (mulVal (f.value a) (f.value b))

/-- a × b + c, rounded once. -/
def fpFma (f : FpFmt) (mode a b c : Nat) : Nat × Flags :=
  finishFp f mode (fmaVal mode (f.value a) (f.value b) (f.value c))

/-- a ÷ b. -/
def fpDiv (f : FpFmt) (mode a b : Nat) : Nat × Flags := finishFp f mode (divVal (f.value a) (f.value b))

/-- √a. -/
def fpSqrt (f : FpFmt) (mode a : Nat) : Nat × Flags := finishFp f mode (sqrtVal (f.value a))

/-- Whether a is below b; false where either is a NaN. -/
def ltVal (a b : FpVal) : Bool :=
  match a, b with
  | .nan _, _ => false
  | _, .nan _ => false
  | .inf n1, .inf n2 => n1 && !n2
  | .inf n1, .fin _ _ _ => n1
  | .fin _ _ _, .inf n2 => !n2
  | .fin n1 m1 e1, .fin n2 m2 e2 => (alignTwo n1 m1 e1 n2 m2 e2).1 < (alignTwo n1 m1 e1 n2 m2 e2).2.1

/-- Whether a and b are equal, +0 and −0 included; false where either is a NaN. -/
def eqVal (a b : FpVal) : Bool := !a.isNan && !b.isNan && !(ltVal a b) && !(ltVal b a)

/-- Whether a orders before b with −0 before +0 (R133). -/
def beforeVal (a b : FpVal) : Bool := ltVal a b || (eqVal a b && a.neg && !b.neg)

/-- FMIN (R133). -/
def fpMin (f : FpFmt) (a b : Nat) : Nat × Flags :=
  let va := f.value a
  let vb := f.value b
  (if va.isNan && vb.isNan then f.nan else if va.isNan then b else if vb.isNan then a
   else if beforeVal vb va then b else a, nvOf [va, vb])

/-- FMAX (R133). -/
def fpMax (f : FpFmt) (a b : Nat) : Nat × Flags :=
  let va := f.value a
  let vb := f.value b
  (if va.isNan && vb.isNan then f.nan else if va.isNan then b else if vb.isNan then a
   else if beforeVal va vb then b else a, nvOf [va, vb])

/-- The conditions of FCMP (R134): 1 eq, 2 lt, 3 le, 4 unordered. -/
def fpCmp (f : FpFmt) (cond a b : Nat) : Bool × Flags :=
  let va := f.value a
  let vb := f.value b
  let un := va.isNan || vb.isNan
  match cond with
  | 1 => (eqVal va vb, nvOf [va, vb])
  | 2 => (ltVal va vb, if un then fNV else 0)
  | 3 => (ltVal va vb || eqVal va vb, if un then fNV else 0)
  | _ => (un, nvOf [va, vb])

/-- FCLASS: the number of the bit (R135). -/
def fpClass (f : FpFmt) (a : Nat) : Nat :=
  match f.value a with
  | .nan s => if s then 8 else 9
  | .inf n => if n then 0 else 7
  | .fin n m e =>
    if m = 0 then (if n then 3 else 4)
    else if e + bitLen m - 1 < f.emin then (if n then 2 else 5)
    else (if n then 1 else 6)

/-! Conversions (R45 to R48). -/

/-- Float to float, with the saturation control; lfsr is the stepped state. The same format gives the value
unchanged, except that a NaN becomes canonical. -/
def cvtFF (dst src : FpFmt) (mode : Nat) (lfsr : BitVec 32) (sat : Bool) (a : Nat) : Nat × Flags :=
  let v := src.value a
  let (r, fl) := roundVal dst mode lfsr sat v
  (r, nvOf [v] ||| fl)

/-- The least and the greatest value of an integer format (R37). -/
def intRange (f : FmtCode) : Int × Int :=
  match f.val with
  | 7 => (-(2 ^ 63), 2 ^ 63 - 1)
  | 8 => (-(2 ^ 31), 2 ^ 31 - 1)
  | 9 => (-32768, 32767)
  | 10 => (-128, 127)
  | 11 => (0, 255)
  | _ => (-8, 7)

/-- The integer that a pattern of an integer format stands for. -/
def intValue (f : FmtCode) (n : Nat) : Int := if f = 11 then ((n % 256 : Nat) : Int) else toSigned (fmtWidth f) n

/-- The pattern of an integer in an integer format. -/
def intBits (f : FmtCode) (i : Int) : Nat := ofSigned (fmtWidth f) i

/-- An integer saturated to a format, and whether it saturates. -/
def intSat (f : FmtCode) (i : Int) : Int × Bool :=
  let (lo, hi) := intRange f
  if i < lo then (lo, true) else if i > hi then (hi, true) else (i, false)

/-- A value rounded to an integer: the integer, and whether it is exact. -/
def roundInt (mode : Nat) (n : Bool) (m : Nat) (e : Int) : Int × Bool :=
  let (r, ex) := roundTo (if mode = 6 then 1 else mode) 0 n m e 0
  (signedSig n r, ex)

/-- Float to integer (R47). -/
def cvtFI (dst : FmtCode) (src : FpFmt) (mode a : Nat) : Nat × Flags :=
  let (lo, hi) := intRange dst
  match src.value a with
  | .nan _ => (0, fNV)
  | .inf n => (intBits dst (if n then lo else hi), fNV ||| fSAT)
  | .fin n m e =>
    let (i, ex) := roundInt mode n m e
    let (j, s) := intSat dst i
    (intBits dst j, if s then fNV ||| fSAT else if ex then 0 else fNX)

/-- Integer to float (R48). -/
def cvtIF (dst : FpFmt) (mode : Nat) (lfsr : BitVec 32) (sat : Bool) (i : Int) : Nat × Flags :=
  roundFin dst mode lfsr sat (i < 0) i.natAbs 0

/-- Integer to integer (R48). -/
def cvtII (dst : FmtCode) (i : Int) : Nat × Flags :=
  let (j, s) := intSat dst i
  (intBits dst j, if s then fSAT else 0)

/-! Quantile codes (R38, R40, R41, R49). -/

/-- E(k) of a table entry: nine bits of two's complement. -/
def codeValue (table : List Nat) (k : Nat) : Int := toSigned 9 (getAt table k 0)

/-- The code for y over a table: nearest decoded value, then smaller magnitude, then lower index (R49). The
distance is compared over a common denominator: y = num / 2^k against E / 128. -/
def nearestCode (table : List Nat) (dist : Int → Int) : Nat :=
  (List.range 16).foldl (fun best k =>
    let d := dist (codeValue table k)
    let b := dist (codeValue table best)
    if d < b || (d = b && (codeValue table k).natAbs < (codeValue table best).natAbs) then k else best) 0

/-- FP32 to Q4N or Q4P (R49). -/
def cvtToQ4 (table : List Nat) (a : Nat) : Nat × Flags :=
  let es := (List.range 16).map (codeValue table)
  let hi := es.foldl max (codeValue table 0)
  let lo := es.foldl min (codeValue table 0)
  match FP32.value a with
  | .nan _ => (nearestCode table (fun v => v.natAbs), fNV)
  | .inf n => (nearestCode table (fun v => if n then v - lo else hi - v), fSAT)
  | .fin n m e =>
    let (y, u, _) := alignTwo n m e false 1 (-7)
    let k := nearestCode table (fun v => (y - v * u).natAbs)
    let f : Flags := if y > hi * u || y < lo * u then fSAT else if y = codeValue table k * u then 0 else fNX
    (k, f)

/-- The exact value E × u × S as R40 gives it, before rounding to FP32. A zero product is +0 for a finite S. -/
def q4Value (code : Int) (u : Nat) (s : Nat) : FpVal × Flags :=
  let p := code * u
  match FP32.value s with
  | .nan sig => (.nan false, if sig then fNV else 0)
  | .inf n => if p = 0 then (.nan false, fNV) else (.inf (n != decide (p < 0)), 0)
  | .fin n m e => if p = 0 then (.fin false 0 0, 0) else (.fin (n != decide (p < 0)) (p.natAbs * m) (e - 7), 0)

/-! Exact sums (R50). -/

/-- Whether every term is −0. -/
def allNegZero (ts : List FpVal) : Bool := ts.all (fun t => t.isZero && t.neg)

/-- The sum of finite terms over one exponent. -/
def sumFin (ts : List FpVal) (e : Int) : Int :=
  ts.foldl (fun a t => match t with
    | .fin n m e1 => a + signedSig n (scaleUp m (e1 - e))
    | _ => a) 0

/-- The least exponent among finite terms. -/
def leastExp (ts : List FpVal) : Int :=
  ts.foldl (fun a t => match t with
    | .fin _ _ e1 => min a e1
    | _ => a) 0

/-- ExactSum: a NaN term that is signalling stands for a signalling NaN or for 0 × ∞. Whether a quiet NaN beside opposite
infinities raises NV the manual's text and its pseudocode leave open: the NaN comes first and raises none here (log 95). -/
def exactSum (ts : List FpVal) : FpVal × Flags :=
  if ts.any FpVal.isNan then (.nan false, nvOf ts)
  else
    let pos := ts.any (fun t => t = .inf false)
    let neg := ts.any (fun t => t = .inf true)
    if pos && neg then (.nan false, fNV)
    else if pos then (.inf false, 0)
    else if neg then (.inf true, 0)
    else
      let e := leastExp ts
      let s := sumFin ts e
      if s = 0 then (.fin (!ts.isEmpty && allNegZero ts) 0 0, 0) else (.fin (s < 0) s.natAbs e, 0)

/-- A product as a term of ExactSum: an invalid product is a signalling term. -/
def termOf (a b : FpVal) : FpVal :=
  match mulVal a b with
  | (.nan _, fl) => .nan (fl != 0)
  | (v, _) => v

/-! Addition at an atomic unit (R210): always RNE. -/

/-- AtomicFAdd. -/
def atomicFAdd (f : FpFmt) (m b : Nat) : Nat × Flags := fpAdd f 1 m b

end Sys2Proof.Machine
end

