-- ==== Sys2Proof/Machine/Memory.lean ====
section
/-! DEFINITION. Memory.lean: from a virtual address to a place in memory (R80, R175 to R190), stores and the objects
they clobber (R56, R317), and the arithmetic of the atomic units (R206 to R210). -/

namespace Sys2Proof.Machine

/-! Range registers (R175, R176). -/

/-- A field of a 128-bit range image. -/
def rangeField (a : BitVec 128) (hi lo : Nat) : Nat := a.toNat / 2 ^ lo % 2 ^ (hi + 1 - lo)

/-- The image with its reserved bits zero (R8, R175). -/
def rangeImage (a : BitVec 128) : BitVec 128 :=
  a &&& BitVec.ofNat 128 (2 ^ 122 - 2 ^ 21 + 0x1F)

/-- Whether a range matches an address: valid, sane, and BASE ≤ VA[59:25] < LIMIT. -/
def rangeMatches (a : BitVec 128) (va : Nat) : Bool :=
  let base := rangeField a 55 21
  let limit := rangeField a 121 87
  let unit := va / 2 ^ 25 % 2 ^ 35
  rangeField a 0 0 = 1 && base < limit && rangeField a 86 56 + limit - base ≤ 2 ^ 31 && base ≤ unit && unit < limit

/-- What a kind of access needs of a range (R176). -/
def rangePermits (a : BitVec 128) (k : Access) : Bool :=
  let r := rangeField a 1 1 = 1
  let w := rangeField a 2 2 = 1
  match k with
  | .read => r
  | .write => w
  | .fetch => rangeField a 3 3 = 1
  | .atomic => rangeField a 4 4 = 1 && r && w

/-- RangeMap over a list of images, the lowest match first: an IA or a cause. -/
def rangeMap (k : Access) (va : Nat) : List (BitVec 128) → Except Nat Nat
  | [] => .error 0x05
  | a :: rest =>
    if rangeMatches a va then
      (if rangePermits a k then .ok (rangeField a 86 56 * 2 ^ 25 + va - rangeField a 55 21 * 2 ^ 25)
       else .error 0x07)
    else rangeMap k va rest

/-! The intermediate address (R177). -/

/-- What lies at an IA. -/
inductive Where where
  | pageable
  | lagoon (die : Nat)
  | palette (cluster : Nat)
  | tcm (core : Nat)
  | inbox (core off : Nat)
  | control (die off : Nat)
  | reserved
deriving DecidableEq, Repr

/-- The map of R177. A package beyond the socket group is reserved. -/
def State.whereIs (s : State) (ia : Nat) : Where :=
  let pkg := ia / 2 ^ 53
  let o := ia % 2 ^ 53
  if s.packages ≤ pkg then .reserved
  else if o < 0x10000000000000 then .pageable
  else if o < 0x10000000000000 + 4 * 0x1000000 then .lagoon (pkg * 4 + (o - 0x10000000000000) / 0x1000000)
  else if 0x11000000000000 ≤ o && o < 0x11000000000000 + 128 * 0x100000 then
    .palette (pkg * 128 + (o - 0x11000000000000) / 0x100000)
  else if 0x12000000000000 ≤ o && o < 0x12000000000000 + 512 * 0x10000 then
    .tcm (pkg * 512 + (o - 0x12000000000000) / 0x10000)
  else if 0x13000000000000 ≤ o && o < 0x13000000000000 + 512 * 0x1000 then
    .inbox (pkg * 512 + (o - 0x13000000000000) / 0x1000) (o % 0x1000)
  else if 0x14000000000000 ≤ o && o < 0x14000000000000 + 4 * 0x1000 then
    .control (pkg * 4 + (o - 0x14000000000000) / 0x1000) (o % 0x1000)
  else .reserved

/-- Whether an IA lies in memory, and not in a register window. -/
def State.inMemory (s : State) (ia : Nat) : Bool :=
  match s.whereIs ia with
  | .inbox _ _ => false
  | .control _ _ => false
  | _ => true

/-- The IA of a core's TCM, of a cluster's palette and of a die's lagoon (R177). -/
def paletteIa (cl : Nat) : Nat := pkgBase (cl / 128) + 0x11000000000000 + cl % 128 * 0x100000

/-- The die that homes an IA (R178). -/
def homeDie (ia : Nat) : Nat := ia / 2 ^ 53 * 4 + ia / 2 ^ 16 % 4

/-- The home slice of an IA on its die (R178). -/
def homeSlice (ia : Nat) : Nat := (ia / 2 ^ 18 % 32) ^^^ (ia / 2 ^ 23 % 32)

/-! Page walks (R180 to R182). -/

/-- How a walk ends: at a leaf (its entry's location and value, its page size as a power of two), at an absent
entry, at a malformed one, or nowhere because translation is off (R184). -/
inductive Walk where
  | leaf (loc entry log : Nat)
  | absent (level : Nat)
  | malformed (entry : Nat)
  | off
deriving DecidableEq, Repr

/-- Whether a PA lies in the physical map (R182). -/
def physical (pa : Nat) : Bool :=
  pa < 0x9000000000 || (0x100000000000 ≤ pa && pa < 0x100000000000 + 2 ^ 44) ||
  (0x200000000000 ≤ pa && pa < 0x200000000000 + 2 ^ 44)

/-- PA[51:8] of an entry, in place. -/
def entryAddr (e : Nat) : Nat := e / 2 ^ 8 % 2 ^ 44 * 2 ^ 8

/-- A bit of an entry. -/
def entryBit (e i : Nat) : Bool := e / 2 ^ i % 2 = 1

/-- The malformed entries of R181: log is the alignment that ADDR needs. -/
def malformed (e level log : Nat) : Bool :=
  e / 2 ^ 52 % 2 ^ 8 != 0 || entryBit e 1 || (entryBit e 2 && level = 0) || (!entryBit e 2 && level = 4) ||
  entryAddr e % 2 ^ log != 0 || !physical (entryAddr e)

/-- The walk from a table: the levels still to go, as level, lowest index bit, index bits and table alignment of
the next level. -/
def walkFrom (mem : List Host.Cell) (base ia : Nat) : List (Nat × Nat × Nat × Nat) → Nat → Walk
  | [], _ => .off
  | (level, low, bits, nextLog) :: rest, table =>
    let loc := base + table + ia / 2 ^ low % 2 ^ bits * 8
    let e := fromBytes (cellsGet mem loc 8)
    if !entryBit e 0 then .absent level
    else if malformed e level (if entryBit e 2 then low else nextLog) then .malformed e
    else if entryBit e 2 then .leaf loc e low
    else walkFrom mem base ia rest (entryAddr e)

/-- The levels of R180. -/
def levels : List (Nat × Nat × Nat × Nat) :=
  [(0, 41, 11, 14), (1, 30, 11, 8), (2, 25, 5, 8), (3, 20, 5, 8), (4, 15, 5, 8)]

/-- The walk of a pageable IA through its package's tree. R183 lets a walker cache entries until TLBINV: this model's walkers
keep none, so a changed entry holds from the next walk on. DESIGN CHOICE (log 116). Unsafe. -/
def State.walk (s : State) (ia : Nat) : Walk :=
  let pkg := ia / 2 ^ 53
  let root := s.ctlGet (pkg * 4) 0x000
  if !root.getLsbD 0 then .off
  else walkFrom s.mem (pkgBase pkg) (ia % 2 ^ 52) levels (bitsOf root 51 14 * 2 ^ 14)

/-- Frame descriptors (R185): one of 16 bytes for each 32 KiB frame of the physical map, in PA order. -/
def frameIndex (pa : Nat) : Nat :=
  if pa < 0x9000000000 then pa / 2 ^ 15
  else if pa < 0x200000000000 then 0x1200000 + (pa - 0x100000000000) / 2 ^ 15
  else 0x1200000 + 2 ^ 29 + (pa - 0x200000000000) / 2 ^ 15

/-- Where the descriptor of a frame lies. -/
def State.descLoc (s : State) (pkg pa : Nat) : Nat :=
  pkgBase pkg + bitsOf (s.ctlGet (pkg * 4) 0x008) 51 12 * 2 ^ 12 + frameIndex pa * 16

/-- What an access meets at the memory side: a location, a page fault (its kind and level), or a failure. -/
inductive Met where
  | ok (loc : Nat)
  | fault (kind level : Nat)
  | fail (cause : Nat)
deriving DecidableEq, Repr

/-- The walker that serves an access on a die: no rule says which. -/
def State.walker (s : State) : Nat × State := ((s.draw).1 % 128, (s.draw).2)

/-- TakeFrame of R186: the die's reserve, else the head of its pool. -/
def State.takeFrame (s : State) (die : Nat) : Option Nat × State :=
  match (s.die die).reserve with
  | some f => (some f, s.setDie die { s.die die with reserve := none })
  | none =>
    let size := s.ctlField die 0x018 63 48
    let tail := s.ctlField die 0x018 31 16
    let head := s.ctlField die 0x018 15 0
    if size = 0 || head = tail then (none, s)
    else
      let base := pkgBase (die / 4) + bitsOf (s.ctlGet die 0x010) 51 6 * 2 ^ 6
      (some (s.numAt (base + head * 8) 8), s.ctlPutField die 0x018 15 0 ((head + 1) % size))

/-- The copy-on-write break of R186 on a leaf of size 2^log, or a fault at the leaf's level (R180, R188): the location of
the page afterwards. The steps of the break follow one another with no access between, so its CAS succeeds. -/
def State.cowBreak (s : State) (ia loc e log token : Nat) : Met × State :=
  let die := homeDie ia
  let pkg := ia / 2 ^ 53
  if log > 15 then (.fault 5 ((35 - log) / 5), s)
  else
    let pa := entryAddr e
    let desc := s.descLoc pkg pa
    let r := s.numAt desc 4
    let done (s : State) : State :=
      (s.ctlPutField die 0x060 63 32 (s.ctlField die 0x060 63 32 + 1)).dieEvent die 27
    if r = 0 then
      let (w, s1) := s.walker
      (.fail 0x06, s1.machineCheck die ia (unitOf 6 w) 8 0x06 token (BitVec.ofNat 64 e))
    else if r = 1 then
      let new := e - (if entryBit e 6 then 2 ^ 6 else 0) + (if entryBit e 7 then 0 else 2 ^ 7)
      (.ok (pkgBase pkg + pa), done (s.putNum loc 8 new))
    else
      match s.takeFrame die with
      | (none, s1) => (.fault 4 4, s1)
      | (some f, s1) =>
        let data := s1.bytesAt (pkgBase pkg + pa) (2 ^ 15)
        let new := e % 2 ^ 8 - (if entryBit e 6 then 2 ^ 6 else 0) + (if entryBit e 7 then 0 else 2 ^ 7) +
          f / 2 ^ 8 % 2 ^ 44 * 2 ^ 8 + e / 2 ^ 52 * 2 ^ 52
        let s2 := (s1.putBytes (pkgBase pkg + f) data).putNum loc 8 new
        let s3 := s2.putNum desc 4 (s2.numAt desc 4 + 2 ^ 32 - 1)
        let fd := s3.descLoc pkg f
        (.ok (pkgBase pkg + f), done ((s3.putNum fd 4 1).putNum (fd + 4) 2 0))

/-- What an access of a kind to an IA meets: unpaged memory is where its IA says; pageable memory is walked, its
leaf checked (R182), a copy-on-write page broken (R186) and D set on a write (R190). -/
def State.meet (s : State) (ia : Nat) (k : Access) (token : Nat) : Met × State :=
  if s.whereIs ia != .pageable then (.ok ia, s)
  else
    let writes : Bool := k = .write || k = .atomic
    match s.walk ia with
    | .off => (.fail 0x06, s)
    | .absent level =>
      (.fault (match k with | .read => 0 | .write => 1 | .fetch => 2 | .atomic => 3) level, s)
    | .malformed e =>
      let (w, s1) := s.walker
      (.fail 0x06, s1.machineCheck (homeDie ia) ia (unitOf 6 w) 3 0x06 token (BitVec.ofNat 64 e))
    | .leaf loc e log =>
      let allowed : Bool := match k with
        | .read => entryBit e 3
        | .write => entryBit e 4
        | .fetch => entryBit e 5
        | .atomic => entryBit e 3 && entryBit e 4
      if !allowed then (.fail 0x07, s)
      else if writes && entryBit e 6 then
        match s.cowBreak ia loc e log token with
        | (.ok page, s1) => (.ok (page + ia % 2 ^ log), s1)
        | r => r
      else
        let at_ := pkgBase (ia / 2 ^ 53) + entryAddr e + ia % 2 ^ log
        if writes && !entryBit e 7 then (.ok at_, s.putNum loc 8 (e + 2 ^ 7)) else (.ok at_, s)

/-- Bytes of a capability list: twenty entries of 16 bytes (R25). -/
def capListBytes : Nat := 320

/-- Whether n bytes at a location reach into a capability list, which is read-only to every context (R25). -/
def State.readOnly (s : State) (loc n : Nat) : Bool :=
  s.capAt.any (fun p => p.2 < loc + n && loc < p.2 + capListBytes)

/-! Objects and clobbers (R55, R56, R313, R317, R318). -/

/-- An object judged live from its bytes. -/
def State.objectLive (s : State) (loc : Nat) (k : ObjKind) : Bool :=
  match k with
  | .barrier => s.numAt (loc + 0x0C) 1 = 1 && s.numAt loc 4 != 0
  | .monitor => s.numAt (loc + 0x05) 1 = 1 && s.numAt (loc + 0x04) 1 ≤ 1
  | .completion => 1 ≤ s.numAt (loc + 0x08) 1 && s.numAt (loc + 0x08) 1 ≤ 3
  | .chain => s.numAt (loc + 0x1A) 1 = 1

/-- Every waiter of an object is given a status, and takes it when its turn comes. -/
def State.releaseWaiters (s : State) (w : Wait) (status : Word) : State :=
  s.mapAll (fun c => if c.live && c.sync.wait = w && c.sync.grant.isNone then
    { c with sync := { c.sync with grant := some status } } else c)

/-- The effect of a store on one watched object: a live one is clobbered. -/
def State.clobberOne (s : State) (ia loc : Nat) (k : ObjKind) (token : Nat) : State :=
  if !s.objectLive loc k then s
  else if k = .chain then
    { s with ferry := s.ferry.map (fun f => if f.chain = ia then { f with wild := true } else f) }
  else
    let s1 := match k with
      | .barrier => (s.releaseWaiters (.barrier ia) 2).dieEvent (homeDie ia) 33
      | .monitor => (s.releaseWaiters (.monitor ia) 2).dieEvent (homeDie ia) 33
      | .completion => s.releaseWaiters (.object ia) 3
      | .chain => s
    s1.machineCheck (homeDie ia) ia (unitOf 2 (homeSlice ia)) 6 0 token 0

/-- The effect of a store of n bytes on the watched objects that it reaches. -/
def State.clobber (s : State) (ia loc n token : Nat) : State :=
  s.objects.foldl (fun s o =>
    if o.1 < ia + n && ia < o.1 + 64 then s.clobberOne o.1 (loc + o.1 - ia) o.2.2 token else s) s

/-- The home slices watch an object from now on. -/
def State.watch (s : State) (ia loc : Nat) (k : ObjKind) : State :=
  if s.objects.contains (ia, loc, k) then s
  else { s with objects := s.objects.filter (fun o => !(o.1 = ia && o.2.2 = k)) ++ [(ia, loc, k)] }

/-- The home slices give up a page (R317, R144): waiters on its live objects are released with GONE. -/
def State.goneIn (s : State) (lo hi : Nat) : State :=
  (s.objects.filter (fun o => lo ≤ o.1 && o.1 < hi)).foldl (fun s o =>
    let (ia, loc, k) := o
    if !(s.objectLive loc k) then s
    else match k with
      | .barrier => (s.releaseWaiters (.barrier ia) 3).putNum (loc + 0x18) 4 0
      | .monitor => (s.releaseWaiters (.monitor ia) 3).putNum (loc + 0x08) 4 0
      | .completion => s.releaseWaiters (.object ia) 4
      | .chain => s) s

/-! What a byte has held (R100, R197, R298, R305). -/

/-- A context as a writer. -/
def Context.writer (c : Context) : Writer := ⟨c.token, some c.id.core⟩

/-- The values a byte at a location has held, latest first: those of its writes, and before the first one its initial
value. -/
def State.versions (s : State) (loc : Nat) : List Version :=
  let ws := s.history.filter (fun w => w.loc ≤ loc && loc < w.loc + w.new.length)
  match ws.getLast? with
  | none => []
  | some f => ws.map (fun w => ⟨w.step, w.writer, getAt w.new (loc - w.loc) 0⟩) ++
      [⟨0, Writer.agent 0, getAt f.old (loc - f.loc) 0⟩]

/-- The byte of a location as of a step: the last version not later, or its initial value. -/
def versionAt (vs : List Version) (step : Nat) (now : Byte) : Byte :=
  match vs.find? (fun v => v.step ≤ step) with
  | some v => v.byte
  | none => now

/-- Whether the bytes at a location are those of an object as software prepares one of a kind; reserved bytes are ignored
(R56, R313, R314, R318). -/
def State.prepared (s : State) (loc : Nat) (k : ObjKind) : Bool :=
  let n (off size : Nat) : Nat := s.numAt (loc + off) size
  match k with
  | .completion => n 8 1 = 1 && 2 ≤ n 9 1 && n 9 1 ≤ 4 && n 0 4 != 0 && n 0 4 = n 4 4 && n 0x0A 1 = 0 &&
      n 0x0C 4 = 0 && n 0x20 24 = 0
  | .barrier => n 0x0C 1 = 1 && n 0 4 != 0 && n 4 4 = 0 && n 0x0D 1 ≤ 3 && n 0x18 4 = 0
  | .monitor => n 5 1 = 1 && n 0 5 = 0 && n 8 4 = 0
  | .chain => false

/-- A store of n bytes that publishes a prepared object by its STATE lets the home slice know it (R56, R314, R318, R317;
log 9). loc is where the store has written. -/
def State.announce (s : State) (ia loc n : Nat) : State :=
  let b := ia / 64 * 64
  let at_ := loc - ia % 64
  let covers (off : Nat) : Bool := decide (ia ≤ b + off) && decide (b + off < ia + n) && s.numAt (at_ + off) 1 = 1
  if !(covers 8 || covers 0x0C || covers 5) || s.whereIs ia != .pageable then s
  else if covers 8 && s.prepared at_ .completion then s.watch b at_ .completion
  else if covers 0x0C && s.prepared at_ .barrier then s.watch b at_ .barrier
  else if covers 5 && s.prepared at_ .monitor then s.watch b at_ .monitor
  else s

/-- A store that is performed: objects clobbered, its bytes written, and an object that it publishes known. A store reaches
one granule. -/
def State.storeAt (s : State) (ia loc : Nat) (bs : List Byte) (w : Writer) : State :=
  ((s.clobber ia loc bs.length w.token).putBy w loc bs).announce ia loc bs.length

/-- Who wrote a byte at a location last, where a store has. -/
def State.lastWriter (s : State) (loc : Nat) : Option Writer :=
  match s.versions loc with
  | [] => none
  | v :: _ => if v.step = 0 then none else some v.writer

/-! Scopes (R195, R304). -/

/-- Whether a reader, a context with its core or another agent, lies outside the scope of a core. Agents that are no
context are in the package's scope and in wider ones. -/
def outsideScope (scope core : Nat) (reader : Option Nat) : Bool :=
  match scope, reader with
  | 0, _ => true
  | 1, some k => k != core
  | 2, some k => clusterOf k != clusterOf core
  | 3, some k => dieOf k != dieOf core
  | 4, some k => pkgOf k != pkgOf core
  | 5, some _ => false
  | 1, none => true
  | 2, none => true
  | 3, none => true
  | _, _ => false

/-- The releases that a home slice has noted with the lines of n bytes at an IA, towards which a reader is outside: a
context by number and core, or another agent. -/
def State.narrowAt (s : State) (ia n : Nat) (reader : Option (Nat × Nat)) : List Narrow :=
  s.narrow.filter (fun r => ia / 128 ≤ r.line && r.line ≤ (ia + n - 1) / 128 && some r.uid != reader.map (·.1) &&
    outsideScope r.scope r.core (reader.map (·.2)))

/-- Whether a context still has accesses in flight that precede a step. -/
def State.pendsBefore (s : State) (uid step : Nat) : Bool :=
  match s.ctx uid with
  | none => false
  | some c =>
    c.io.posted.any (fun p => p.kind != .f && decide (p.born < step)) ||
    c.io.reds.any (fun r => !r.performed && decide (r.born < step)) || c.io.drains.any (fun d => decide (d.born < step))

/-- Whether a release noted with a line keeps a reader from its bytes until its accesses before it are performed. -/
def State.withheld (s : State) (ia n : Nat) (reader : Option (Nat × Nat)) : Bool :=
  (s.narrowAt ia n reader).any (fun r => s.pendsBefore r.uid r.born)

/-- The forced publishes that a reader has brought about are counted, and the lines forget their releases. -/
def State.published (s : State) (ia n : Nat) (reader : Option (Nat × Nat)) : State :=
  let rs := s.narrowAt ia n reader
  if rs.isEmpty then s
  else rs.foldl (fun s r => s.event (clusterOf r.core) 10) { s with narrow := s.narrow.filter (fun r => !(rs.contains r)) }

/-- A context's flushes of lines that precede a release of it are released (R100). -/
def State.releaseFlushes (s : State) (uid core scope born : Nat) : State :=
  { s with flushes := s.flushes.map (fun f =>
    if f.uid = uid && f.step < born && !(f.released.any (fun r => r.2.1 = core && scope ≤ r.2.2)) then
      { f with released := f.released ++ [(s.now, core, scope)] }
    else f) }

/-- A release of a context that is performed on lines (R100, R304): the home slices note one narrower than system with each
of them, and the flushes of the context's lines that precede it are released. -/
def State.noteRelease (s : State) (uid core : Nat) (lines : List Nat) (scope born : Nat) : State :=
  let s1 := s.releaseFlushes uid core scope born
  if 6 ≤ scope then s1
  else { s1 with narrow := s1.narrow.filter (fun r => !(lines.contains r.line && r.uid = uid)) ++
      lines.eraseDups.map (fun l => ⟨l, uid, core, scope, born⟩) }

/-! Late failures (R201, R212, R249, R398). -/

/-- A context's token, for accesses that outlive its turn. -/
def State.tokenOf (s : State) (uid : Nat) : Nat :=
  match s.contexts.find? (fun c => c.id.uid = uid) with
  | none => 0
  | some c => c.token

/-- A context as a writer, for accesses that outlive its turn. -/
def State.writerOf (s : State) (uid : Nat) : Writer :=
  match s.contexts.find? (fun c => c.id.uid = uid) with
  | none => Writer.agent 0
  | some c => c.writer

/-- A late failure: logged, and left for the first instruction that meets it. -/
def State.lateFail (s : State) (uid : Nat) (kind : LateKind) (ia : Nat) (bits : Word) : State :=
  let (w, s1) := s.walker
  (s1.machineCheck (homeDie ia) ia (unitOf 6 w) 2 0x06 (s.tokenOf uid) bits).mapCtx uid (fun c =>
    { c with io := { c.io with late := c.io.late ++ [⟨kind, 0x06, BitVec.ofNat 64 ia⟩] } })

/-! The atomic units (R206 to R210). -/

/-- AmoOp: old value m, operand b, compare value c, each of n bytes: the new value and the flags. -/
def amoOp (fn : AmoFn) (n m b c : Nat) : Nat × Flags :=
  let w := 8 * n
  let k := 2 ^ w
  match fn with
  | .add => ((m + b) % k, 0)
  | .min => (if toSigned w b < toSigned w m then b % k else m, 0)
  | .max => (if toSigned w b > toSigned w m then b % k else m, 0)
  | .and => (m &&& b % k, 0)
  | .or => (m ||| b % k, 0)
  | .xor => (m ^^^ b % k, 0)
  | .swap => (b % k, 0)
  | .cas => (if m = c % k then b % k else m, 0)
  | .fadd32 => atomicFAdd FP32 m (b % 2 ^ 32)
  | .fadd16 => atomicFAdd BF16 m (b % 2 ^ 16)

/-- A location has an atomic unit for a core (R206). -/
def State.atomicAt (s : State) (ia core : Nat) : Bool :=
  match s.whereIs ia with
  | .pageable => true
  | .palette _ => true
  | .lagoon _ => true
  | .tcm k => k = core
  | _ => false

end Sys2Proof.Machine
end

