-- ==== Sys2Proof/Machine/Frame.lean ====
section
/-! DEFINITION. Frame.lean: the context frame and its extension, to bytes and back (R355 to R357, R383), and the cells
that a tile takes (R219). -/

namespace Sys2Proof.Machine

/-! Cells (R219, R241). -/

/-- Cells(R, C, w). -/
def gridCells (rows cols w : Nat) : Nat := ceilDiv rows 32 * ceilDiv (cols * w) 1024

/-- The cells of a tile, scale cells included. -/
def tileCells (rows cols : Nat) (f : FmtCode) : Nat :=
  gridCells rows cols (fmtWidth f) + (if fmtQ4 f then ceilDiv rows 32 else 0)

/-- The blocks of a group tile that its shape covers, in member order: first row, rows, first column, columns
(R236). -/
def groupBlocks (rows cols w : Nat) : List (Nat × Nat × Nat × Nat) :=
  let bc := 8192 / w
  (List.range 16).map (fun k =>
    let i := k / 4
    let j := k % 4
    (128 * i, min 128 (rows - 128 * i), bc * j, min bc (cols - bc * j)))

/-- The cells that a group tile takes on each member. -/
def groupCells (rows cols w : Nat) : List Nat :=
  (groupBlocks rows cols w).map (fun b => if b.2.2.2 = 0 then 0 else gridCells b.2.1 b.2.2.2 w)

/-! Tiles as cell images (R357). -/

/-- One byte of a block's images: el r c is an element of the block. -/
def blockByte (rows cols w : Nat) (el : Nat → Nat → Nat) (k : Nat) : Byte :=
  let across := ceilDiv (cols * w) 1024
  let cell := k / 4096
  let r := cell / across * 32 + k / 128 % 32
  let bit := cell % across * 1024 + k % 128 * 8
  let one (c : Nat) : Nat := if r < rows && c < cols then el r c else 0
  if w = 4 then BitVec.ofNat 8 (one (bit / 4) % 16 + one (bit / 4 + 1) % 16 * 16)
  else BitVec.ofNat 8 (one (bit / w) / 2 ^ (bit % w))

/-- The images of a block. -/
def blockBytes (rows cols w : Nat) (el : Nat → Nat → Nat) : List Byte :=
  (List.range (gridCells rows cols w * 4096)).map (blockByte rows cols w el)

/-- An element of a block from its images. -/
def blockElem (cols w : Nat) (bs : List Byte) (r c : Nat) : Nat :=
  let across := ceilDiv (cols * w) 1024
  let k := (r / 32 * across + c * w / 1024) * 4096 + r % 32 * 128 + c * w / 8 % 128
  if w = 4 then (getAt bs k 0).toNat / 2 ^ (c % 2 * 4) % 16
  else fromBytes ((bs.drop k).take (w / 8))

/-- Element (r, c) of a tile. -/
def Tile.elem (t : Tile) (r c : Nat) : Nat := getAt t.elems (r * t.cols + c) 0

/-- Block scale u of row r and block b of a Q4 tile. -/
def Tile.scaleU (t : Tile) (r b : Nat) : Nat := getAt t.us (r * (t.cols / 64) + b) 0

/-- Group scale S of row r of a Q4 tile. -/
def Tile.scaleS (t : Tile) (r : Nat) : Nat := getAt t.ss r 0

/-- The scale cells of a Q4 tile: row r of the block at row r mod 32, its u bytes first and S in bytes 32 to 35.
The manual does not lay the scale cells out (log 10). -/
def scaleBytes (t : Tile) : List Byte :=
  (List.range (ceilDiv t.rows 32 * 4096)).map (fun k =>
    let r := k / 128
    let b := k % 128
    if t.rows ≤ r then 0
    else if b < 32 then (if b < t.cols / 64 then BitVec.ofNat 8 (t.scaleU r b) else 0)
    else if b < 36 then BitVec.ofNat 8 (t.scaleS r / 2 ^ ((b - 32) * 8))
    else 0)

/-- The cell images of a tile. -/
def Tile.image (t : Tile) : List Byte :=
  let w := fmtWidth t.tag
  if w = 0 then []
  else if t.group then
    (groupBlocks t.rows t.cols w).flatMap (fun b =>
      if b.2.2.2 = 0 then [] else blockBytes b.2.1 b.2.2.2 w (fun r c => t.elem (b.1 + r) (b.2.2.1 + c)))
  else blockBytes t.rows t.cols w t.elem ++ (if fmtQ4 t.tag then scaleBytes t else [])

/-- How many cells a tile occupies, scale cells included. -/
def Tile.cellTotal (t : Tile) : Nat :=
  if t.group then (groupCells t.rows t.cols (fmtWidth t.tag)).sum else tileCells t.rows t.cols t.tag

/-- The 32-byte entry of a tile name; off is the place of its images. -/
def tileEntry (t : Option Tile) (off : Nat) : List Byte :=
  match t with
  | none => toBytes 32 0
  | some t => toBytes 4 (t.rows % 2 ^ 16 * 2 ^ 16 + t.cols % 2 ^ 16) ++ toBytes 1 (t.tag.val + 16 * t.comp.toNat) ++
      toBytes 1 (1 + 2 * t.group.toNat) ++ toBytes 2 t.cellTotal ++ toBytes 4 off ++ toBytes 20 0

/-- The entries of tile names and their images behind one another. -/
def tilesFrom (ts : List (Option Tile)) (off : Nat) : List Byte × List Byte :=
  match ts with
  | [] => ([], [])
  | t :: rest =>
    let im := match t with
      | none => []
      | some t => t.image
    let r := tilesFrom rest (off + im.length)
    (tileEntry t off ++ r.1, im ++ r.2)

/-- A tile extension or a glaze tile image. -/
def tileExtension (ts : Vector (Option Tile) 8) : List Byte :=
  let r := tilesFrom ts.toList 256
  r.1 ++ r.2

/-- A tile read back from an extension: entry n. It has no cells yet. -/
def tileBack (ext : List Byte) (n : Nat) : Option Tile :=
  let e := (ext.drop (32 * n)).take 32
  let num (o k : Nat) : Nat := fromBytes ((e.drop o).take k)
  if num 5 1 % 2 = 0 then none
  else
    let rows := num 2 2
    let cols := num 0 2
    let tag : FmtCode := Fin.ofNat 16 (num 4 1)
    let group : Bool := num 5 1 / 2 % 2 = 1
    let w := fmtWidth tag
    let im := ext.drop (num 8 4)
    let plain := gridCells rows cols w * 4096
    let el (r c : Nat) : Nat :=
      if group then
        let bc := 8192 / w
        let k := r / 128 * 4 + c / bc
        let b := getAt (groupBlocks rows cols w) k (0, 0, 0, 0)
        let skip := (((groupCells rows cols w).take k).foldl (· + ·) 0) * 4096
        blockElem b.2.2.2 w (im.drop skip) (r % 128) (c % bc)
      else blockElem cols w im r c
    let sc := im.drop plain
    some {
      cells := [], rows := rows, cols := cols, tag := tag, comp := tag = 14 && num 4 1 / 16 % 2 = 1,
      elems := (List.range (rows * cols)).map (fun k => el (k / cols) (k % cols)),
      us := if fmtQ4 tag then
          (List.range (rows * (cols / 64))).map (fun k =>
            (getAt sc (k / (cols / 64) * 128 + k % (cols / 64)) 0).toNat)
        else [],
      ss := if fmtQ4 tag then
          (List.range rows).map (fun r => fromBytes ((sc.drop (r * 128 + 32)).take 4))
        else [],
      group := group }

/-! The base frame (R356). -/

/-- Stores and submissions of a kind that a counter counts: streaming tile stores among them (R198, R199). -/
def InFlight.counted (f : InFlight) (k : PostKind) : Nat :=
  (f.posted.filter (fun p => p.kind = k)).length + (f.drains.filter (fun d => d.counted = some k)).length

/-- A context-owned system register as the frame holds it; shared and unassigned numbers are 0. -/
def sysOwned (c : Context) (n : Nat) : Nat :=
  let r := c.reg
  if 0x20 ≤ n && n < 0x30 then (getAt r.sg.toList (n - 0x20) ⟨0, 0⟩).base.toNat
  else if 0x30 ≤ n && n < 0x40 then (getAt r.sg.toList (n - 0x30) ⟨0, 0⟩).limit.toNat
  else match n with
    | 0x00 => r.shape.toNat
    | 0x01 => r.fps.toNat
    | 0x04 => r.tcoord.toNat
    | 0x05 => r.tlaunch.toNat
    | 0x06 => r.cls
    | 0x0B => c.io.counted .d
    | 0x0C => c.io.counted .p
    | 0x0D => c.io.counted .f
    | 0x0E => r.gzstat.toNat
    | 0x0F => r.ecause.toNat
    | 0x10 => r.epcx.toNat
    | 0x11 => r.eaddr.toNat
    | 0x12 => r.spillbase.toNat
    | _ => 0

/-- The bits of a context-owned system register that are not reserved (R8, R109, R112, R113, R336, R343, R355). -/
def sysBits (n : Nat) : Word :=
  match n with
  | 0x00 => 0x00000000FFFFFFFF
  | 0x01 => 0xFFFFFFFF00000E3F
  | 0x04 => 0x0000FFFFFFFFFFFF
  | 0x06 => 0x0000000000000007
  | 0x0E => 0xFFFFFFFFFFFE7000
  | 0x0F => 0x000000000003FFFF
  | 0x12 => 0x00FFFFFFFFFFF000
  | _ => 0xFFFFFFFFFFFFFFFF

/-- The 64 bytes of an accumulator. -/
def qBytes (a : QAcc) : List Byte :=
  toBytes 40 a.q.toNat ++ toBytes 2 (ofSigned 16 a.eq) ++ toBytes 2 (ofSigned 16 a.em) ++
    toBytes 1 (a.empty.toNat + 2 * a.sat.toNat + 4 * a.pinf.toNat + 8 * a.ninf.toNat + 16 * a.nanf.toNat) ++
    toBytes 19 0

/-- An accumulator from its 64 bytes. -/
def qBack (bs : List Byte) : QAcc :=
  let fl := (getAt bs 44 0).toNat
  { q := BitVec.ofNat 320 (fromBytes (bs.take 40)), eq := toSigned 16 (fromBytes ((bs.drop 40).take 2)),
    em := toSigned 16 (fromBytes ((bs.drop 42).take 2)), empty := fl % 2 = 1, sat := fl / 2 % 2 = 1,
    pinf := fl / 4 % 2 = 1, ninf := fl / 8 % 2 = 1, nanf := fl / 16 % 2 = 1 }

/-- The 8 bytes of a ring handle. -/
def handleBytes (h : Option RingHandle) : List Byte :=
  match h with
  | none => toBytes 8 0
  | some h =>
    let role := match h.role with
      | .producer => 1
      | .contextSub => 2
      | .easelSub => 3
      | .easelAll => 3
    toBytes 8 (h.ring % 64 + role * 2 ^ 6 + h.record % 4 * 2 ^ 8 + h.next.toNat * 2 ^ 32)

/-- The monitor list, 8 IAs. -/
def monitorBytes (l : List Nat) : List Byte := (List.range 8).flatMap (fun k => toBytes 8 (getAt l k 0))

/-- A message in 64 bytes. -/
def messageBytes (m : Message) : List Byte :=
  toBytes 8 m.header.toNat ++ (List.range 7).flatMap (fun k => toBytes 8 (getAt m.payload k 0).toNat)

/-- What a safe-point entry leaves live (R359): masks of x, v, m, t and q. -/
structure LiveMap where
  x : Nat
  v : Nat
  m : Nat
  t : Nat
  q : Nat
deriving DecidableEq, Repr

/-- Everything live. -/
def LiveMap.all : LiveMap := ⟨2 ^ 32 - 1, 2 ^ 32 - 1, 255, 255, 255⟩

/-- The registers with the dead ones cleared (R360). -/
def Regs.alive (r : Regs) (l : LiveMap) : Regs :=
  { r with
    x := r.x.mapFinIdx (fun i w _ => if l.x.testBit i then w else 0)
    v := r.v.mapFinIdx (fun i w _ => if l.v.testBit i then w else VReg.reset)
    m := r.m.mapFinIdx (fun i w _ => if l.m.testBit i then w else 0)
    t := r.t.mapFinIdx (fun i w _ => if l.t.testBit i then w else none)
    q := r.q.mapFinIdx (fun i w _ => if l.q.testBit i then w else QAcc.clear) }

/-- The power state at 0x50 of the header (R383). -/
def powerBytes (c : Context) : List Byte :=
  let l := c.power.lease
  let lv := match l with
    | none => 0
    | some l => l.level
  let ls := match l with
    | none => 0
    | some l => l.string % 32
  let le := match l with
    | none => 0
    | some l => l.expiry
  let shed : Bool := match c.sched.place with
    | .frame (.shed _) => true
    | _ => false
  toBytes 1 c.reg.cls ++ toBytes 1 c.job.lclass ++ toBytes 1 lv ++ toBytes 1 ls ++
    toBytes 1 (shed.toNat + 2 * c.power.hold.toNat + 4 * c.power.afterBarw.toNat) ++ toBytes 3 0 ++
    toBytes 8 le ++ toBytes 8 (c.power.shedAt.getD 0) ++ toBytes 8 0

/-- The header (R356). -/
def headerBytes (s : State) (c : Context) (safe : Bool) (live : LiveMap) : List Byte :=
  let tx : Bool := c.reg.t.toList.any (fun t => t.isSome)
  toBytes 4 1 ++
    toBytes 2 (safe.toNat + 2 * tx.toNat + 4 * c.sync.region.isSome.toNat + 8 * c.sched.parked.toNat) ++
    toBytes 1 c.reg.edepth ++ toBytes 1 (!c.reg.segMode).toNat ++ toBytes 8 c.reg.pc.toNat ++ toBytes 4 c.token ++
    toBytes 4 c.src ++ toBytes 8 c.sched.xbase ++ toBytes 4 c.sched.xsize ++ toBytes 1 c.io.reds.length ++
    toBytes 1 c.mail.frame.length ++ toBytes 2 0 ++ toBytes 8 (s.tstampAt c.sched.savedAt) ++ toBytes 4 live.x ++ toBytes 4 live.v ++
    toBytes 1 live.m ++ toBytes 1 live.t ++ toBytes 1 live.q ++ toBytes 5 0 ++ toBytes 8 c.sched.sptab.toNat ++
    toBytes 4 c.sched.spcnt ++ toBytes 4 0 ++ powerBytes c ++ toBytes 144 0

/-- x0 to x31, x0 as 0. -/
def xBytes (x : Vector Word 32) : List Byte := toBytes 8 0 ++ (x.toList.drop 1).flatMap (fun w => toBytes 8 w.toNat)

/-- m0 to m7. -/
def mBytes (m : Vector (BitVec 512) 8) : List Byte := m.toList.flatMap (fun w => toBytes 64 w.toNat)

/-- Tags and companion bits of v0 to v31. -/
def tagBytes (v : Vector VReg 32) : List Byte :=
  v.toList.map (fun r => BitVec.ofNat 8 (r.tag.val + 16 * r.comp.toNat))

/-- v0 to v31. -/
def vBytes (v : Vector VReg 32) : List Byte := v.toList.flatMap (fun r => toBytes 512 r.bits.toNat)

/-- The base frame of 24 KiB. -/
def frameBytes (s : State) (c : Context) (safe : Bool) (live : LiveMap) : List Byte :=
  headerBytes s c safe live ++ xBytes c.reg.x ++ (List.range 64).flatMap (fun n => toBytes 8 (sysOwned c n)) ++
    c.reg.amap.toList.flatMap (fun a => toBytes 16 a.toNat) ++ c.reg.q.toList.flatMap qBytes ++ mBytes c.reg.m ++
    tagBytes c.reg.v ++ monitorBytes c.sync.monitors ++ c.reg.p.toList.flatMap handleBytes ++ toBytes 32 0 ++
    (List.range 32).flatMap (fun k => messageBytes (getAt c.mail.frame k ⟨0, []⟩)) ++ vBytes c.reg.v ++
    toBytes 4096 0

/-- The glaze register image of 20,480 bytes (R357). -/
def glazeImage (c : Context) (k : Checkpoint) : List Byte :=
  let c' := { c with reg := { c.reg with fps := k.fps, shape := k.shape } }
  xBytes k.x ++ (List.range 64).flatMap (fun n => toBytes 8 (sysOwned c' n)) ++ k.q.toList.flatMap qBytes ++
    mBytes k.m ++ tagBytes k.v ++ monitorBytes k.monitors ++ toBytes 2592 0 ++ vBytes k.v

/-- T of R357: the size of a tile extension. -/
def tileRoom (tcells group : Nat) : Nat := if tcells = 0 then 0 else 256 + 4096 * tcells * (if group > 1 then 16 else 1)

/-- Bytes written by the device at an IA, 4 KiB at a time, up to a fault: its cause. -/
def State.putIa (s : State) (token : Nat) : Nat → Nat → List Byte → Option Nat × State
  | 0, _, _ => (none, s)
  | fuel + 1, ia, bs =>
    if bs.isEmpty then (none, s)
    else
      let n := 4096 - ia % 4096
      match s.meet ia .write token with
      | (.ok loc, s1) =>
        ((s1.clobber ia loc (bs.take n).length token).putBytes loc (bs.take n)).putIa token fuel (ia + n) (bs.drop n)
      | (.fail c, s1) => (some c, s1)
      | (.fault _ _, s1) => (some 0x06, s1)

/-- Bytes read by the device at an IA, 4 KiB at a time, or the cause of a fault met on the way. -/
def State.getIa (s : State) (token : Nat) : Nat → Nat → Nat → Except Nat (List Byte) × State
  | 0, _, _ => (.ok [], s)
  | fuel + 1, ia, n =>
    if n = 0 then (.ok [], s)
    else
      let k := min n (4096 - ia % 4096)
      match s.meet ia .read token with
      | (.ok loc, s1) =>
        match s1.getIa token fuel (ia + k) (n - k) with
        | (.ok bs, s2) => (.ok (s1.bytesAt loc k ++ bs), s2)
        | (.error c, s2) => (.error c, s2)
      | (.fail c, s1) => (.error c, s1)
      | (.fault _ _, s1) => (.error 0x06, s1)

/-- A write that follows another, if that met no fault. -/
def thenPut (r : Option Nat × State) (f : State → Option Nat × State) : Option Nat × State :=
  match r.1 with
  | none => f r.2
  | some _ => r

/-- The frame's IA (R355). -/
def Context.frameIa (c : Context) : Nat := bitsOf c.reg.spillbase 55 12 * 2 ^ 12

/-- The frame and the extension of a context written (R356, R357), up to a fault: its cause. -/
def State.writeFrame (s : State) (c : Context) (safe : Bool) (live : LiveMap) : Option Nat × State :=
  let fuel := c.sched.xsize / 4096 + 2
  let t := tileRoom c.job.tcells c.job.group
  let r1 := s.putIa c.token 8 c.frameIa (frameBytes s c safe live)
  let r2 := thenPut r1 (fun s => if t = 0 then (none, s) else s.putIa c.token fuel c.sched.xbase (tileExtension c.reg.t))
  match c.sync.region with
  | none => r2
  | some r =>
    thenPut (thenPut r2 (fun s => s.putIa c.token fuel (c.sched.xbase + t) (glazeImage c r.ckpt)))
      (fun s => if t = 0 then (none, s)
        else s.putIa c.token fuel (c.sched.xbase + t + 20480) (tileExtension r.ckpt.t))

/-- The registers that a frame and an extension hold, in place of those of the context that saved them; their reserved bits
read as zero whatever software has stored there (R8). An FPS.RND of 0 or 7, which no rule lets FPS hold (R42), stays as it
is stored, and the context rounds by RNE. DESIGN CHOICE (log 117). Unsafe. -/
def Context.readBack (c : Context) (f ext : List Byte) : Context :=
  let num (o k : Nat) : Nat := fromBytes ((f.drop o).take k)
  let w (o : Nat) : Word := BitVec.ofNat 64 (num o 8)
  let sr (n : Nat) : Word := w (0x200 + 8 * n) &&& sysBits n
  { c with
    reg := { c.reg with
      pc := w 0x08
      edepth := num 0x06 1 % 4
      segMode := num 0x07 1 = 0
      x := Vector.ofFn (fun i => w (0x100 + 8 * i.val))
      shape := sr 0x00
      fps := sr 0x01
      tcoord := sr 0x04
      tlaunch := sr 0x05
      cls := (sr 0x06).toNat
      gzstat := sr 0x0E
      ecause := sr 0x0F
      epcx := sr 0x10
      eaddr := sr 0x11
      spillbase := sr 0x12
      sg := Vector.ofFn (fun i => ⟨sr (0x20 + i.val), sr (0x30 + i.val)⟩)
      amap := Vector.ofFn (fun i => rangeImage (BitVec.ofNat 128 (num (0x400 + 16 * i.val) 16)))
      q := Vector.ofFn (fun i => qBack ((f.drop (0x480 + 64 * i.val)).take 64))
      m := Vector.ofFn (fun i => BitVec.ofNat 512 (num (0x500 + 64 * i.val) 64))
      v := Vector.ofFn (fun i => ⟨BitVec.ofNat 4096 (num (0x1000 + 512 * i.val) 512),
        Fin.ofNat 16 (num (0x700 + i.val) 1),
        num (0x700 + i.val) 1 % 16 = 14 && num (0x700 + i.val) 1 / 16 % 2 = 1⟩)
      t := Vector.ofFn (fun i => if ext.isEmpty then none else tileBack ext i.val) }
    job := { c.job with lclass := num 0x51 1 % 8 }
    power := {
      lease := if num 0x52 1 = 0 then none
        else some ⟨num 0x52 1, pkgOf c.id.core * 32 + num 0x53 1 % 32, num 0x58 8⟩
      shedAt := if num 0x60 8 = 0 then none else some (num 0x60 8)
      hold := num 0x54 1 / 2 % 2 = 1
      afterBarw := num 0x54 1 / 4 % 2 = 1 }
    sched := { c.sched with sptab := w 0x40, spcnt := num 0x48 4 % 2 ^ 16 } }

/-- The context as its frame in memory holds it. -/
def State.readFrame (s : State) (c : Context) : Except Nat Context × State :=
  match s.getIa c.token 8 c.frameIa 0x6000 with
  | (.error k, s1) => (.error k, s1)
  | (.ok f, s1) =>
    let t := tileRoom c.job.tcells c.job.group
    let tx : Bool := (getAt f 4 0).toNat / 2 % 2 = 1
    if t = 0 || !tx then (.ok (c.readBack f []), s1)
    else
      match s1.getIa c.token (t / 4096 + 2) c.sched.xbase t with
      | (.error k, s2) => (.error k, s2)
      | (.ok ext, s2) => (.ok (c.readBack f ext), s2)

end Sys2Proof.Machine
end

