-- ==== Sys2Proof/Machine/Glaze.lean ====
section
/-! DEFINITION. Glaze.lean: live regions, their granules and edges, forwarding, waits, cycles, abort and commit
(R310, R323 to R336). -/

namespace Sys2Proof.Machine

/-- The region of a context. -/
def State.region (s : State) (uid : Nat) : Option Region := (s.ctx uid).bind (fun c => c.sync.region)

/-- A context's region changed. -/
def State.mapRegion (s : State) (uid : Nat) (f : Region → Region) : State :=
  s.mapCtx uid (fun c => { c with sync := { c.sync with region := c.sync.region.map f } })

/-- The contexts that have a live region. -/
def State.regions (s : State) : List Nat :=
  (s.contexts.filter (fun c => c.live && c.sync.region.isSome)).map (fun c => c.id.uid)

/-- A region's identity (R323). -/
def Region.rid (r : Region) : Nat := r.die / 4 * 2 ^ 12 + r.die % 4 * 2 ^ 10 + r.entry

/-- Whether a region is younger than another (R323): a later TSTAMP at its GZBEGIN, or on a tie a higher identity. -/
def State.younger (s : State) (a b : Region) : Bool :=
  let t (r : Region) : Nat := sumSteps Config.nanos s.resetAt (r.born - s.resetAt)
  t b < t a || (t a = t b && b.rid < a.rid)

/-- The granules of n bytes from an IA (R324). -/
def granulesOf (ia n : Nat) : List Nat :=
  if n = 0 then [] else (List.range ((ia + n - 1) / 32 + 1 - ia / 32)).map (fun k => ia / 32 + k)

/-- Whether a live region of another context has read or written one of the granules (R310). -/
def State.touchedBy (s : State) (uid : Option Nat) (ia n : Nat) : Bool :=
  s.touches.any (fun t => some t.uid != uid && ia / 32 ≤ t.granule && t.granule * 32 < ia + n)

/-- The other live writers of a granule, in edge order. -/
def State.writersOf (s : State) (g uid : Nat) : List Nat :=
  ((s.touches.filter (fun t => t.granule = g && t.write && t.uid != uid)).map (fun t => t.uid))

/-- The depth of a region (R328). No edge leads to a depth above 4, so the fuel is enough. -/
def State.depth (s : State) : Nat → Nat → Nat
  | 0, _ => 1
  | fuel + 1, uid =>
    match s.region uid with
    | none => 1
    | some r => 1 + (r.edges.filter (fun e => e.consumed)).foldl (fun d e => max d (s.depth fuel e.pred)) 0

/-- Depth with enough fuel. -/
def State.depthOf (s : State) (uid : Nat) : Nat := s.depth 8 uid

/-- A path of edges and pending edges from one region to another, in that order (R329). -/
def State.path (s : State) : Nat → Nat → Nat → Option (List Nat)
  | 0, _, _ => none
  | fuel + 1, y, x =>
    if y = x then some [x]
    else
      let next := s.regions.filter (fun z => match s.region z with
        | none => false
        | some r => r.edges.any (fun e => e.pred = y) || r.owed.contains y || r.pending.contains y)
      next.firstM (fun z => (s.path fuel z x).map (fun p => y :: p))

/-- The victim of a cycle: the youngest region that is not senior, or of senior ones the youngest (R329, R331). -/
def State.victim (s : State) (cycle : List Nat) : Option Nat :=
  let rs := cycle.filterMap (fun u => (s.region u).map (fun r => (u, r)))
  let free := rs.filter (fun r => !r.2.senior)
  let pool := if free.isEmpty then rs else free
  (pool.foldl (fun (b : Option (Nat × Region)) r => match b with
    | none => some r
    | some q => if s.younger r.2 q.2 then some r else some q) none).map (fun r => r.1)

/-! Views (R327). -/

/-- Whether a log writes a byte. -/
def logCovers (log : List Held) (a : Nat) : Bool :=
  log.any (fun h => match h with
    | .write ia _ bs => ia ≤ a && a < ia + bs.length
    | .red _ _ _ => false)

/-- Whether a log holds a reduction on a granule. -/
def logReduces (log : List Held) (g : Nat) : Bool :=
  log.any (fun h => match h with
    | .write _ _ _ => false
    | .red ia _ _ => ia / 32 = g)

/-- Bytes from an IA on, with one entry of a log applied. -/
def applyHeld (ia : Nat) (bs : List Byte) (h : Held) : List Byte :=
  match h with
  | .write wa _ w =>
    bs.mapIdx (fun k b => if wa ≤ ia + k && ia + k < wa + w.length then getAt w (ia + k - wa) 0 else b)
  | .red ra _ r =>
    if ia ≤ ra && ra + r.size ≤ ia + bs.length then
      let o := ra - ia
      let new := (amoOp r.fn r.size (fromBytes ((bs.drop o).take r.size)) r.b.toNat 0).1
      bs.take o ++ toBytes r.size new ++ bs.drop (o + r.size)
    else bs

/-- The log of a context's region. -/
def State.logOf (s : State) (uid : Nat) : List Held :=
  match s.region uid with
  | none => []
  | some r => r.log

/-- A granule as a region sees it: committed bytes, then the writes of the other live writers in edge order, then
its own. -/
def State.granuleView (s : State) (uid g loc : Nat) : List Byte :=
  let base := s.bytesAt loc 32
  let all := s.writersOf g uid ++ [uid]
  all.foldl (fun bs u => (s.logOf u).foldl (applyHeld (g * 32)) bs) base

/-- The bytes of an access within one granule as a region sees them. -/
def State.glazeView (s : State) (uid ia loc n : Nat) : List Byte :=
  ((s.granuleView uid (ia / 32) (loc - ia % 32)).drop (ia % 32)).take n

/-! The end of a region. -/

/-- The granules that the region of a context wrote. -/
def State.writtenBy (s : State) (uid : Nat) : List Nat :=
  ((s.touches.filter (fun t => t.uid = uid && t.write)).map (fun t => t.granule)).eraseDups

/-- The touches of a granule that a later write by a region takes edges from: the last writer and the readers since
it (R327). The list is the touches before, latest first. -/
def touchesBefore : List Touch → List Nat
  | [] => []
  | t :: rest => if t.write then [t.uid] else t.uid :: touchesBefore rest

/-- An edge added, or marked CONSUMED where it stands. -/
def addEdge (es : List Edge) (pred : Nat) (consumed : Bool) : List Edge :=
  if es.any (fun e => e.pred = pred) then
    es.map (fun e => if e.pred = pred then ⟨pred, e.consumed || consumed⟩ else e)
  else es ++ [⟨pred, consumed⟩]

/-- A predecessor that an abort gives a region: an edge while one of its eight registers is free (R327), else owed. -/
def Region.follow (r : Region) (pred : Nat) : Region :=
  if r.edges.any (fun e => e.pred = pred) || r.edges.length < 8 then { r with edges := addEdge r.edges pred false }
  else if r.owed.contains pred then r
  else { r with owed := r.owed ++ [pred] }

/-- A region without a predecessor that has gone: what it is owed takes the registers that are free. -/
def Region.without (r : Region) (uid : Nat) : Region :=
  let es := r.edges.filter (fun e => e.pred != uid)
  let ow := r.owed.filter (· != uid)
  { r with
    edges := es ++ (ow.take (8 - es.length)).map (fun p => ⟨p, false⟩)
    owed := ow.drop (8 - es.length)
    pending := r.pending.filter (· != uid) }

/-- The edges that the writers of a granule take once a region between them has gone, so that their commit order
stays that of their writes (log 31). latest holds the touches already passed, latest first. -/
def State.reedge (s : State) (latest : List Touch) : List Touch → State
  | [] => s
  | t :: rest =>
    let s1 := if !t.write then s
      else (touchesBefore latest).foldl (fun s p =>
        if p = t.uid then s else s.mapRegion t.uid (fun r => r.follow p)) s
    s1.reedge (t :: latest) rest

/-- A region's entry freed, and reserved for the oldest waiter on the die (R333). -/
def State.freeEntry (s : State) (die entry : Nat) : State :=
  let d := s.die die
  match d.entryQueue with
  | [] => s
  | u :: rest => s.setDie die { d with entryQueue := rest, reserved := d.reserved ++ [(u, entry)] }

/-- A context leaves the queue for a region entry, and an entry reserved for it goes to the next (R333). -/
def State.leaveEntryQueue (s : State) (uid : Nat) : State :=
  s.dies.foldl (fun s d =>
    let v := s.die d.1
    let s1 := s.setDie d.1 { v with
      entryQueue := v.entryQueue.filter (· != uid), reserved := v.reserved.filter (fun r => r.1 != uid) }
    match v.reserved.find? (fun r => r.1 = uid) with
    | none => s1
    | some r => s1.freeEntry d.1 r.2) s

/-- Whether a command that has completed has something left to write or to tell (R307). -/
def FerryCmd.lingers (f : FerryCmd) : Bool := !f.tail.isEmpty || f.note.isSome

/-- What a live region has held up is tried again (R310). -/
def State.retryAll (s : State) : State :=
  let of (c : Context) : List Duty :=
    (if c.io.posted.isEmpty then [] else [.postedAck c.id.uid]) ++ (if c.io.reds.isEmpty then [] else [.redPerform c.id.uid]) ++
    (if c.io.drains.isEmpty then [] else [.tileDrain c.id.uid])
  { s with agenda := s.agenda ++ (s.contexts.filter Context.live).flatMap of ++
      (s.ferry.filter (fun f => f.accepted && !f.completed && f.page.isNone)).map (fun f =>
        if f.performed then .ferryComplete f.chain else .ferry f.chain f.seq) ++
      (s.ferry.filter FerryCmd.lingers).map (fun f => .ferry f.chain f.seq) ++
      ((s.ferry.map (fun f => f.chain)).eraseDups).map Duty.chainIdle ++
      (s.cores.filter (fun k => !k.2.spawns.isEmpty && k.2.spawnWait.isNone)).map (fun k => .spawnMessage k.1) ++
      (s.nodes.filter (fun n => 2 ^ 32 ≤ n.node)).flatMap (fun n =>
        (s.launches.filter (fun l => l.num = n.launch)).map (fun l => .treeForward l.lobjIa n.node)) ++
      s.unmarked.map Duty.cancelMark }

/-- A region gone: no edges to it, no touches, its entry free (R330, R332). -/
def State.dropRegion (s : State) (uid : Nat) : State :=
  match s.region uid with
  | none => s
  | some r =>
    let s1 := s.mapAll (fun c => { c with sync := { c.sync with
      region := if c.id.uid = uid && c.live then none
        else c.sync.region.map (fun q => q.without uid) } })
    let s2 : State := { s1 with touches := (s1.touches.filter (fun t => t.uid != uid)).map (fun t =>
      if t.source = some uid then { t with source := none } else t) }
    (s2.freeEntry r.die r.entry).retryAll

/-- GZSTAT after an abort (R330, R336). -/
def gzstatAbort (g : Word) (rid code : Nat) : Word :=
  let cycn := bitsOf g 19 18
  let cyc := if code = 1 then min (cycn + 1) 3 else if code = 2 then cycn else 0
  BitVec.ofNat 64 (bitsOf g 63 56 * 2 ^ 56 + rid * 2 ^ 41 + cyc * 2 ^ 18 + (if code = 4 then 2 ^ 17 else 0) +
    code * 2 ^ 12)

/-- A context at the abort path of its region: the checkpoint restored, the status in x[D], GZSTAT, and the region's tile
stores that have not drained gone (R330). -/
def Context.abortPath (c : Context) (r : Region) (code : Nat) : Context :=
  let k := r.ckpt
  let c1 : Context := { c with
    reg := { c.reg with
      x := k.x, v := k.v, m := k.m, t := k.t, q := k.q, fps := k.fps, shape := k.shape
      pc := r.gzpc + 4, gzstat := gzstatAbort c.reg.gzstat r.rid code }
    io := { c.io with drains := c.io.drains.filter (fun d => !d.region) }
    sync := { c.sync with region := none, monitors := k.monitors, wait := .none, grant := none } }
  c1.setX r.gzd (BitVec.ofNat 64 code)

/-- GZSTAT as SRD reads it (R336). -/
def State.gzstat (s : State) (c : Context) : Word :=
  match c.sync.region with
  | none => c.reg.gzstat
  | some r =>
    let g := c.reg.gzstat
    BitVec.ofNat 64 (bitsOf g 63 56 * 2 ^ 56 + r.rid * 2 ^ 41 + r.edges.length % 16 * 2 ^ 37 +
      s.depthOf c.id.uid % 8 * 2 ^ 34 + r.senior.toNat * 2 ^ 33 + 2 ^ 32 + r.granules.length % 2 ^ 12 * 2 ^ 20 +
      bitsOf g 19 18 * 2 ^ 18 + bitsOf g 17 17 * 2 ^ 17 + bitsOf g 14 12 * 2 ^ 12)

/-- A context's frame written, with GZSTAT as it then reads (R336, R356). -/
def State.saveFrame (s : State) (c : Context) (safe : Bool) (live : LiveMap) : Option Nat × State :=
  s.writeFrame { c with reg := { c.reg with gzstat := s.gzstat c } } safe live

/-- The frame of a saved context written again from its record. -/
def State.reframe (s : State) (uid : Nat) : State :=
  match s.ctx uid with
  | none => s
  | some c =>
    match c.sched.place with
    | .frame _ =>
      (s.saveFrame c false LiveMap.all).2
    | _ => s

/-- GlazeAbort of the region of a context, with its cascade (R330). Fuel: the cascade visits each region once. -/
def State.glazeAbortFuel : Nat → State → Nat → Nat → State
  | 0, s, _, _ => s
  | fuel + 1, s, uid, code =>
    match s.ctx uid, s.region uid with
    | some c, some r =>
      let consumers := s.regions.filter (fun z => z != uid &&
        ((match s.region z with
          | none => false
          | some q => q.edges.any (fun e => e.pred = uid && e.consumed)) ||
         s.touches.any (fun t => t.uid = z && t.source = some uid)))
      let written := s.writtenBy uid
      let s1 := (s.squashOf uid).dropRegion uid
      let s2 := written.foldl (fun s g => s.reedge [] (s.touches.filter (fun t => t.granule = g))) s1
      let s3 := (s2.mapCtx uid (fun c => c.abortPath r code)).event (clusterOf c.id.core) (17 + code)
      consumers.foldl (fun s z => s.glazeAbortFuel fuel z 2) (s3.reframe uid)
    | _, _ => s

/-- GlazeAbort. -/
def State.glazeAbort (s : State) (uid code : Nat) : State := s.glazeAbortFuel (s.regions.length + 1) uid code

/-! A member's access to one granule (R327 to R329). -/

/-- How a member's access goes on: it enters, it waits, or its own region is gone. -/
inductive Entry where
  | enter | wait | gone
deriving DecidableEq, Repr

/-- The sources of the bytes of a read that the region has not written: for each byte the last other writer of it. -/
def State.sources (s : State) (uid ia n : Nat) (writers : List Nat) : List Nat :=
  let own := s.logOf uid
  ((List.range n).filterMap (fun k =>
    if logCovers own (ia + k) then none
    else writers.reverse.find? (fun w => logCovers (s.logOf w) (ia + k)))).eraseDups

/-- A touch recorded: a read once since the last write of the granule, a write as the latest one. -/
def recordTouch (ts : List Touch) (t : Touch) : List Touch :=
  if t.write then ts.filter (fun u => !(u.granule = t.granule && u.uid = t.uid && u.write)) ++ [t]
  else if ((ts.filter (fun u => u.granule = t.granule)).reverse.takeWhile (fun u => !u.write)).contains t then ts
  else ts ++ [t]

/-- The outcome of looking at an access: it may enter with these edges, it waits for a region, or regions that
consumed from this one must go first. -/
inductive Look where
  | edges (es : List (Nat × Bool)) (sources : List Nat)
  | waitFor (pred : Nat)
  | stale (zs : List Nat)
deriving DecidableEq, Repr

/-- The table of R327 and the waits of R328 for an access of n bytes within one granule. -/
def State.look (s : State) (uid : Nat) (r : Region) (ia n : Nat) (rd wr : Bool) : Look :=
  let g := ia / 32
  let writers := s.writersOf g uid
  let covered : Bool := (List.range n).all (fun k => logCovers r.log (ia + k))
  let consumes : Option Nat := if rd && !covered then writers.getLast? else none
  let readWait : Bool := match consumes with
    | none => false
    | some w => r.senior || logReduces (s.logOf w) g || 3 < s.depthOf w
  if readWait then .waitFor (consumes.getD 0)
  else
    let stale := if wr then (s.regions.filter (fun z => z != uid &&
      s.touches.any (fun t => t.uid = z && t.granule = g && t.source = some uid))) else []
    if !stale.isEmpty then .stale stale
    else
      let before := if wr then
          ((touchesBefore (s.touches.filter (fun t => t.granule = g)).reverse).filter (· != uid)).eraseDups
        else []
      let es := (consumes.toList.map (fun w => (w, true))) ++
        (before.filter (fun p => some p != consumes)).map (fun p => (p, false))
      let fresh := es.filter (fun e => !(r.edges.any (fun q => q.pred = e.1)))
      match fresh with
      | [] => .edges es (if consumes.isSome then (consumes.toList ++ s.sources uid ia n writers).eraseDups else [])
      | e :: _ =>
        if r.edges.length + fresh.length > 8 then .waitFor e.1
        else .edges es (if consumes.isSome then (consumes.toList ++ s.sources uid ia n writers).eraseDups else [])

/-- An access of n bytes within one granule enters the graph. Fuel: each further round follows an abort. -/
def State.glazeEnterFuel : Nat → State → Nat → Nat → Nat → Bool → Bool → Entry × State
  | 0, s, _, _, _, _, _ => (.wait, s)
  | fuel + 1, s, uid, ia, n, rd, wr =>
    match s.region uid with
    | none => (.gone, s)
    | some r =>
      let g := ia / 32
      let again (s : State) : Entry × State := s.glazeEnterFuel fuel uid ia n rd wr
      let cycle (p : Nat) : Option Nat := (s.path (s.regions.length + 1) uid p).bind s.victim
      if !(r.granules.contains g) && Config.granuleCapacity ≤ r.granules.length then (.gone, s.glazeAbort uid 3)
      else
        match s.look uid r ia n rd wr with
        | .stale zs => again (zs.foldl (fun s z => s.glazeAbort z 2) s)
        | .waitFor p =>
          match cycle p with
          | some v => again (s.glazeAbort v 1)
          | none => (.wait, s.mapRegion uid (fun r => { r with
              pending := if r.pending.contains p then r.pending else r.pending ++ [p] }))
        | .edges es srcs =>
          match es.findSome? (fun e => cycle e.1) with
          | some v => again (s.glazeAbort v 1)
          | none =>
            let s1 := s.mapRegion uid (fun r => { r with
              edges := es.foldl (fun l e => addEdge l e.1 e.2) r.edges
              granules := if r.granules.contains g then r.granules else r.granules ++ [g]
              pending := [] })
            let reads : List Touch := if !rd then []
              else if srcs.isEmpty then [⟨g, uid, false, none⟩]
              else srcs.map (fun w => ⟨g, uid, false, some w⟩)
            let writes : List Touch := if wr then [⟨g, uid, true, none⟩] else []
            (.enter, { s1 with touches := (reads ++ writes).foldl recordTouch s1.touches })

/-- An access of n bytes within one granule enters the graph. -/
def State.glazeEnter (s : State) (uid ia n : Nat) (rd wr : Bool) : Entry × State :=
  s.glazeEnterFuel (s.regions.length + 2) uid ia n rd wr

/-- A write or a reduction held. -/
def State.hold (s : State) (uid : Nat) (h : Held) : State :=
  s.mapRegion uid (fun r => { r with log := r.log ++ [h] })

/-! GZSTAT and commit. -/

/-- One entry of a log performed at commit: a write with the clobbers it makes and the object that it publishes (R56), a
reduction at its atomic unit, whose flags are deferred (R216, R309, R332). -/
def State.commitHeld (uid : Nat) (s : State) (h : Held) : State :=
  match h with
  | .write ia loc bs => s.storeAt ia loc bs (s.writerOf uid)
  | .red ia loc r =>
    if s.poisonAt loc r.size then s.lateFail uid .reduction ia r.bits
    else
      let (new, fl) := amoOp r.fn r.size (s.numAt loc r.size) r.b.toNat 0
      (s.storeAt ia loc (toBytes r.size new) (s.writerOf uid)).mapCtx uid (fun c =>
        { c with io := { c.io with deferred := c.io.deferred ||| fl } })

/-- The commit of a region (R332, R334): its block performed, its edges and its entry gone, GZSTAT written, the flags
of its reductions in FPS by the full fence that follows. x[D] and the program counter are the caller's. -/
def State.glazeCommitRegion (s : State) (uid : Nat) : State :=
  match s.ctx uid, s.region uid with
  | some c, some r =>
    let s1 := r.log.foldl (State.commitHeld uid) s
    let s2 := s1.dropRegion uid
    let g := c.reg.gzstat
    (s2.mapCtx uid (fun c =>
      let c1 := c.orFlags c.io.deferred
      { c1 with
        io := { c1.io with deferred := 0 }
        reg := { c1.reg with gzstat := BitVec.ofNat 64 (bitsOf g 63 56 * 2 ^ 56 + r.rid * 2 ^ 41 +
          r.granules.length % 2 ^ 12 * 2 ^ 20 + bitsOf g 17 17 * 2 ^ 17) } })).event (clusterOf c.id.core) 17
  | _, _ => s

end Sys2Proof.Machine
end

