-- ==== Sys2Proof/Machine/Operands.lean ====
section
/-! DEFINITION. Operands.lean: the operand forms: immediates and branch targets (R77, R78), effective addresses (R80),
vector elements, masks and tags (R29 to R31, R110, R146, R147). -/

namespace Sys2Proof.Machine

/-! Immediates (R77). -/

/-- A sign-extended immediate. -/
def sext {n : Nat} (v : BitVec n) : Word := v.signExtend 64

/-- The target of a branch at pc: offset in parcels (R78). -/
def branchTarget {n : Nat} (pc : Word) (off : BitVec n) : Word := pc + sext off <<< 2

/-! Effective addresses (R80). -/

/-- EffectiveAddress: a virtual address, or a cause and the address it reports. The supervisor always runs in resource
mode (R347). A segment address beyond VA[59:0] matches no range. -/
def Context.effective (c : Context) (base : Word) (off : Int) (size : Nat) : Except (Nat × Nat) Nat :=
  if c.reg.segMode && !c.id.sup then
    let g := c.reg.sg[bitsOf base 63 60 % 16]'(Nat.mod_lt _ (by decide))
    let o : Int := (bitsOf base 59 0 : Nat) + off
    if o < 0 || o + size > (g.limit.toNat : Int) then
      .error (0x08, ((g.base.toNat : Int) + o).emod (2 ^ 64) |>.toNat)
    else
      let va := g.base.toNat + o.toNat
      if va < 2 ^ 60 then .ok va else .error (0x05, va % 2 ^ 64)
  else
    let va := ((base.toNat : Int) + off).emod (2 ^ 64) |>.toNat
    if va < 2 ^ 60 then .ok va else .error (0x05, va)

/-- RangeMap through the range registers of a context (R176). -/
def Context.mapVa (c : Context) (k : Access) (va : Nat) : Except Nat Nat := rangeMap k va c.reg.amap.toList

/-- CheckIA (R177, R206, R282): the cause that an access of a kind to an IA raises. wide is an 8-byte ld.d or st.d. -/
def State.checkIa (s : State) (c : Context) (ia : Nat) (k : Access) (wide : Bool) : Option Nat :=
  match s.whereIs ia with
  | .reserved => some 0x05
  | .pageable => none
  | .lagoon _ => none
  | .palette _ => none
  | .tcm core => if core = c.id.core then none else some 0x07
  | .inbox _ _ => if c.id.sup && (k = .read || k = .write) then none else some 0x07
  | .control _ _ => if c.id.sup && wide && (k = .read || k = .write) then none else some 0x07

/-- Whether an IA lies in pageable memory. -/
def State.pageable (s : State) (ia : Nat) : Bool := s.whereIs ia = .pageable

/-! Vector elements (R110, R146, R147). -/

/-- Element i of width w of a register. -/
def VReg.elem (v : VReg) (w i : Nat) : Nat := (v.bits.extractLsb' (w * i) w).toNat

/-- Elements of width w packed from bit 0 up. -/
def packElems (w : Nat) (l : List Nat) : Nat := l.foldr (fun e acc => acc * 2 ^ w + e % 2 ^ w) 0

/-- The number of elements of the context's grid. -/
def Context.grid (c : Context) : Nat := c.rows * c.cols

/-- SHAPE_ERROR of R146 for an element width. -/
def Context.shapeBad (c : Context) (w : Nat) : Bool :=
  decide (c.grid * w > 4096) || (w = 4 && c.grid % 2 = 1)

/-- The prefix that governs an instruction; an absent one has every field zero (R81). -/
def vpxOf (p : Option Vpx) : Vpx := p.getD ⟨0, false, 0, 0, 0⟩

/-- Active (R147): w is the width of the format that FMT names. -/
def Context.active (c : Context) (k : MNum) (w i : Nat) : Bool :=
  if k = 0 then true
  else (c.reg.m[k]).getLsbD (if w = 4 then i / 2 else i)

/-- A vector destination (R147): active elements from res, inactive ones zero or kept, the tail zero. -/
def Context.vecResult (c : Context) (v : Vpx) (d : VNum) (w : Nat) (tag : FmtCode) (comp : Bool)
    (res : Nat → Nat) : VReg :=
  let old := c.reg.v[d]
  let el (i : Nat) : Nat := if c.active v.mask w i then res i else if v.mz then 0 else old.elem w i
  ⟨BitVec.ofNat 4096 (packElems w ((List.range c.grid).map el)), tag, comp && tag = 14⟩

/-- CheckTag of R31: want none stands for ANY. -/
def tagOk (v : VReg) (want : Option FmtCode) : Bool :=
  match want with
  | none => v.tag != 15
  | some f => v.tag != 15 && v.tag != 0 && v.tag = f

/-- A v register written. -/
def Context.setV (c : Context) (d : VNum) (v : VReg) : Context := { c with reg := { c.reg with v := c.reg.v.set d v } }

/-- An m register written. -/
def Context.setM (c : Context) (d : MNum) (v : BitVec 512) : Context :=
  { c with reg := { c.reg with m := c.reg.m.set d v } }

/-- An m register as an operand: m0 as any other register (R164). -/
def Context.getM (c : Context) (d : MNum) : BitVec 512 := c.reg.m[d]

/-- An accumulator written. -/
def Context.setQ (c : Context) (d : QNum) (v : QAcc) : Context := { c with reg := { c.reg with q := c.reg.q.set d v } }

/-- A tile name bound. -/
def Context.setT (c : Context) (d : TNum) (v : Option Tile) : Context :=
  { c with reg := { c.reg with t := c.reg.t.set d v } }

/-- A ring handle bound. -/
def Context.setP (c : Context) (d : PNum) (v : Option RingHandle) : Context :=
  { c with reg := { c.reg with p := c.reg.p.set d v } }

end Sys2Proof.Machine
end

