-- ==== Sys2Proof/Machine/Rings.lean ====
section
/-! DEFINITION. Rings.lean: palette rings: claims, posts, deliveries, pops and closing (R229 to R232, R259 to R265). -/

namespace Sys2Proof.Machine

/-- A live ring of a cluster. -/
def State.ring (s : State) (cl idx : Nat) : Option Ring :=
  ((s.cluster cl).rings.find? (fun r => r.1 = idx)).map (fun r => r.2)

/-- A ring replaced or defined. -/
def State.setRing (s : State) (cl idx : Nat) (r : Ring) : State :=
  s.setCluster cl { s.cluster cl with rings := tabPut (s.cluster cl).rings idx r }

/-- A ring discarded. -/
def State.dropRing (s : State) (cl idx : Nat) : State :=
  s.setCluster cl { s.cluster cl with rings := tabDel (s.cluster cl).rings idx }

/-- The slot of a sequence number (R229). -/
def Ring.place (r : Ring) (q : BitVec 32) : Nat := q.toNat % r.nslot

/-- The byte offset of a sequence number's slot in the palette. -/
def Ring.offset (r : Ring) (q : BitVec 32) : Nat := r.pbase + r.place q * r.slotBytes

/-- The claim word (R261). -/
def Ring.claimWord (r : Ring) (q : BitVec 32) : Word := q ++ BitVec.ofNat 32 (r.offset q)

/-- A ring is full when CLAIM − HEAD = NSLOT (R229). -/
def Ring.full (r : Ring) : Bool := (r.claim - r.head).toNat ≥ r.nslot

/-- The count of EMPTY slots as PWFREE gives it (R261). -/
def Ring.free (r : Ring) : Nat := r.nslot - (r.claim - r.head).toNat

/-- Whether a sequence number has been claimed and has not left the ring. -/
def Ring.inside (r : Ring) (q : BitVec 32) : Bool := (q - r.head).toNat < (r.claim - r.head).toNat

/-- The slot of a sequence number. -/
def Ring.slot (r : Ring) (q : BitVec 32) : RingSlot := getAt r.slots (r.place q) ⟨.empty, none⟩

/-- A slot replaced. -/
def Ring.setSlot (r : Ring) (q : BitVec 32) (v : RingSlot) : Ring := { r with slots := putAt r.slots (r.place q) v }

/-- Whether every subscriber has received a slot: a closed subscription counts as having popped it (R141). -/
def Ring.deliveredAll (r : Ring) (q : BitVec 32) : Bool :=
  r.subs.length = r.nsub && r.subs.all (fun u => u.closed || decide ((q - r.head).toNat < (u.delivered - r.head).toNat))

/-- Whether every subscriber has popped a slot. -/
def Ring.poppedAll (r : Ring) (q : BitVec 32) : Bool :=
  r.subs.length = r.nsub && r.subs.all (fun u => u.closed || decide ((q - r.head).toNat < (u.popped - r.head).toNat))

/-- The states of R230 brought up to date for one slot. -/
def Ring.settleSlot (r : Ring) (q : BitVec 32) : Ring :=
  let v := r.slot q
  match v.st with
  | .ready => if r.poppedAll q then r.setSlot q ⟨.empty, none⟩
      else if r.deliveredAll q then r.setSlot q { v with st := .draining } else r
  | .draining => if r.poppedAll q then r.setSlot q ⟨.empty, none⟩ else r
  | _ => r

/-- HEAD past every leading EMPTY slot (R230). -/
def Ring.advance : Nat → Ring → Ring
  | 0, r => r
  | n + 1, r =>
    if r.head = r.claim then r
    else if (r.slot r.head).st = .empty then Ring.advance n { r with head := r.head + 1 }
    else r

/-- The states of R230 brought up to date. -/
def Ring.settle (r : Ring) : Ring :=
  let r1 := (List.range (r.claim - r.head).toNat).foldl (fun r' k => r'.settleSlot (r.head + BitVec.ofNat 32 k)) r
  Ring.advance r.nslot r1

/-- A claim (R230): the next slot becomes FILLING. -/
def Ring.take (r : Ring) (who : Claimer) : Ring :=
  { r.setSlot r.claim ⟨.filling, some who⟩ with claim := r.claim + 1, waiting := r.waiting.filter (· != who) }

/-- Whether a claimer is next in line and the ring has room (R263). -/
def Ring.mayClaim (r : Ring) (who : Claimer) : Bool :=
  !r.full && (r.waiting.head? = some who || r.waiting.isEmpty)

/-- A claimer put in line. -/
def Ring.queue (r : Ring) (who : Claimer) : Ring :=
  if r.waiting.contains who then r else { r with waiting := r.waiting ++ [who] }

/-- A slot posted (R230). -/
def Ring.post (r : Ring) (q : BitVec 32) : Ring := (r.setSlot q ⟨.ready, (r.slot q).filler⟩).settle

/-- Whether the distributor may deliver the next slot to a subscriber (R231, R262). -/
def Ring.deliverable (r : Ring) (u : RingSub) : Bool :=
  r.subs.length = r.nsub && !u.closed && r.inside u.delivered &&
  ((r.slot u.delivered).st = .ready || (r.slot u.delivered).st = .draining) &&
  (u.delivered - u.popped).toNat < u.window

/-- A delivery to subscriber k, copied into an easel's operand staging, with its event and its trace record (R231, R240, R390).
Where subscribers have been delivered different numbers of slots, TAIL follows the least of the open ones: the manual does not
say which. DESIGN CHOICE (log 122). Unsafe. -/
def State.deliver (s : State) (cl idx k : Nat) : State :=
  match s.ring cl idx with
  | none => s
  | some r =>
    match r.subs[k]? with
    | none => s
    | some u =>
      if !r.deliverable u then s
      else
        let q := u.delivered
        let loc := paletteIa cl + r.offset q
        let copy : Staged := ⟨q, s.now, s.bytesAt loc r.slotBytes,
          s.poison.filter (fun b => loc ≤ b && b < loc + r.slotBytes)⟩
        let subs := r.subs.set k { u with
          delivered := q + 1, staged := if u.easel.isSome then u.staged ++ [copy] else u.staged }
        let low := subs.foldl (fun (m : Nat) v => if v.closed then m else min m (v.delivered - r.head).toNat)
          (r.claim - r.head).toNat
        let r1 := ({ r with subs := subs, tail := r.head + BitVec.ofNat 32 low } : Ring).settle
        ((s.setRing cl idx r1).event cl 28).trace cl 0 0 8 0 (idx % 64 + r.place q % 64 * 2 ^ 6 + k % 4 * 2 ^ 12)

/-- Every delivery that is possible on a ring, in ascending subscriber order, made before the slots are waited on. -/
def State.deliverAll (s : State) (cl idx : Nat) : State :=
  (List.range (4 * 64)).foldl (fun s k => s.deliver cl idx (k % 4)) s

/-- A subscription pops its oldest slot. -/
def Ring.pop (r : Ring) (k : Nat) : Ring :=
  match r.subs[k]? with
  | none => r
  | some u => ({ r with subs := r.subs.set k { u with popped := u.popped + 1, staged := u.staged.drop 1 } } : Ring).settle

/-- Whether a subscription's oldest unpopped slot has been delivered. -/
def Ring.hasSlot (r : Ring) (k : Nat) : Bool :=
  match r.subs[k]? with
  | none => false
  | some u => u.delivered != u.popped

/-- The sequence number of a subscription's oldest unpopped slot. -/
def Ring.oldest (r : Ring) (k : Nat) : BitVec 32 :=
  match r.subs[k]? with
  | none => 0
  | some u => u.popped

/-- A ferry whose claim is the next in a ring's line tries again (R263). -/
def State.wakeRing (s : State) (cl idx : Nat) : State :=
  match (s.ring cl idx).bind (fun r => r.waiting.head?) with
  | some (.ferry chain seq) => { s with agenda := s.agenda ++ [.ferry chain seq] }
  | _ => s

/-- A pop of a ring of a cluster, with its trace record. -/
def State.popRing (s : State) (cl idx k easel tag lop : Nat) : State :=
  match s.ring cl idx with
  | none => s
  | some r =>
    let q := r.oldest k
    ((s.setRing cl idx (r.pop k)).wakeRing cl idx).trace cl easel tag 9 lop
      (idx % 64 + r.place q % 64 * 2 ^ 6 + k % 4 * 2 ^ 12)

/-- The subscriber records that a handle holds. -/
def RingHandle.records (h : RingHandle) : List Nat :=
  match h.role with
  | .producer => []
  | .easelAll => [h.record, h.record + 1, h.record + 2, h.record + 3]
  | _ => [h.record]

/-- Whether a handle of a live context still names a ring of a cluster, but for handle n of context uid. -/
def State.ringHeld (s : State) (cl idx uid : Nat) (n : PNum) : Bool :=
  s.contexts.any (fun c => c.live && clusterOf c.id.core = cl &&
    (List.finRange 16).any (fun k => !(c.id.uid = uid && k = n) &&
      (match c.reg.p[k] with
        | none => false
        | some h => h.ring = idx)))

/-- A ring handle closed (R260): its subscriptions count as having popped every slot; the last handle frees the
ring; a claim that it waits for leaves the line. -/
def State.closeHandle (s : State) (uid : Nat) (n : PNum) : State :=
  match s.ctx uid with
  | none => s
  | some c =>
    match c.reg.p[n] with
    | none => s
    | some h =>
      let cl := clusterOf c.id.core
      let s0 := s.mapCtx uid (fun c => c.setP n none)
      match s0.ring cl h.ring with
      | none => s0
      | some r =>
        if !(s.ringHeld cl h.ring uid n) then s0.dropRing cl h.ring
        else
          let r1 := h.records.foldl (fun (r : Ring) k => match r.subs[k]? with
            | none => r
            | some u => { r with subs := r.subs.set k { u with closed := true, staged := [] } }) r
          (s0.setRing cl h.ring ({ r1 with waiting := r1.waiting.filter (· != .handle uid n) } : Ring).settle).wakeRing
            cl h.ring

/-- Every ring handle of a context closed. -/
def State.closeHandles (s : State) (uid : Nat) : State :=
  (List.finRange 16).foldl (fun s n => s.closeHandle uid n) s

/-- A slot's bytes in the palette of a cluster. -/
def State.slotLoc (cl : Nat) (r : Ring) (q : BitVec 32) : Nat := paletteIa cl + r.offset q

end Sys2Proof.Machine
end

