-- ==== Sys2Proof/Machine/Mail.lean ====
section
/-! DEFINITION. Mail.lean: mailboxes, the network, hardware message rings and global windows (R274 to R284, R296). -/

namespace Sys2Proof.Machine

/-! Headers and destination words (R274, R275). -/

/-- TYPE of a header. -/
def msgType (h : Word) : Nat := bitsOf h 63 56

/-- LEN of a header. -/
def msgLen (h : Word) : Nat := bitsOf h 55 48

/-- TAG of a header. -/
def msgTag (h : Word) : Nat := bitsOf h 47 32

/-- A header. -/
def mkHeader (type len tag src : Nat) : Word :=
  BitVec.ofNat 64 (type % 2 ^ 8 * 2 ^ 56 + len % 2 ^ 8 * 2 ^ 48 + tag % 2 ^ 16 * 2 ^ 32 + src % 2 ^ 32)

/-- The core that a destination word or a global address names, numbered through the socket group. -/
def destCore (w : Word) : Nat := bitsOf w 63 47 * 512 + bitsOf w 46 38

/-- CheckDest (R278): the cause. The packages of the system are those of the socket group (log 22). -/
def State.checkDest (s : State) (w : Word) : Option Nat :=
  if w.getLsbD 37 then
    (if bitsOf w 5 0 != 0 then some 0x02 else if s.packages ≤ bitsOf w 63 47 then some 0x05 else none)
  else if bitsOf w 36 6 != 0 then some 0x02
  else if s.packages ≤ bitsOf w 63 47 then some 0x05 else none

/-! Inboxes (R277). -/

/-- The sender of the posts of the host that keep a shared entry of a core (R282). -/
def hostSender (core : Nat) : Nat := 2 ^ 65 + core

/-- Shared entries in use in a core's inbox: by messages of contexts, by posts of the host that find their target's mailbox
full, and by SPAWN messages. -/
def State.sharedUsed (s : State) (core : Nat) : Nat :=
  s.contexts.foldl (fun n c => n + (c.mail.inbox.filter (fun e => e.core = some core)).length)
    ((s.core core).spawns.length + (s.net.filter (fun m => m.sender = hostSender core)).length)

/-- WSTAT.FREE. -/
def State.sharedFree (s : State) (core : Nat) : Nat := 11 - s.sharedUsed core

/-- Guaranteed entries that a context holds. -/
def Mail.guaranteed (m : Mail) : Nat := (m.inbox.filter (fun e => e.core.isNone)).length

/-- The mailbox in arrival order. -/
def Mail.all (m : Mail) : List Message := m.inbox.map (fun e => e.msg) ++ m.frame

/-- A message entered into a context's inbox: into a guaranteed entry while one is free, else into a shared one of a core. -/
def Context.pushInbox (c : Context) (m : Message) (core : Nat) : Context :=
  { c with mail := { c.mail with
    inbox := c.mail.inbox ++ [⟨m, if 3 ≤ c.mail.guaranteed then some core else none⟩] } }

/-- A message appended to the inbox area of a context's frame. -/
def Context.pushFrame (c : Context) (m : Message) : Context :=
  { c with mail := { c.mail with frame := c.mail.frame ++ [m] } }

/-- The inbox area of a frame in memory brought up to date: INBOXN and the 32 entries. -/
def State.writeInboxArea (s : State) (uid : Nat) : State :=
  match s.ctx uid with
  | none => s
  | some c =>
    let n := toBytes 1 c.mail.frame.length
    let area := (List.range 32).flatMap (fun k => messageBytes (getAt c.mail.frame k ⟨0, []⟩))
    (thenPut (s.putIa c.token 2 (c.frameIa + 0x25) n) (fun s => s.putIa c.token 4 (c.frameIa + 0x800) area)).2

/-- A message placed in the mailbox of a live context, or none where it finds no room. -/
def State.accept (s : State) (uid : Nat) (m : Message) : Option State :=
  match s.ctx uid with
  | none => none
  | some c =>
    if !c.resident || !c.mail.frame.isEmpty then
      (if c.mail.frame.length < 32 then some ((s.mapCtx uid (fun c => c.pushFrame m)).writeInboxArea uid) else none)
    else if c.mail.guaranteed < 3 || 0 < s.sharedFree c.id.core then
      some (s.mapCtx uid (fun c => c.pushInbox m c.id.core))
    else none

/-- Messages of the frame's inbox area moved into the inbox as far as room allows (R277). Fuel: the area's size. -/
def State.refillFuel : Nat → State → Nat → State
  | 0, s, _ => s
  | n + 1, s, uid =>
    match s.ctx uid with
    | none => s
    | some c =>
      match c.mail.frame with
      | [] => s
      | m :: rest =>
        if !c.resident then s
        else if c.mail.guaranteed < 3 || 0 < s.sharedFree c.id.core then
          (s.mapCtx uid (fun c => ({ c with mail := { c.mail with frame := rest } } : Context).pushInbox m c.id.core)
            ).refillFuel n uid
        else s

/-- INBOX_REFILL. -/
def State.refill (s : State) (uid : Nat) : State := s.refillFuel 64 uid

/-- A message taken out of a context's mailbox, by its place in arrival order. -/
def Context.dropMail (c : Context) (k : Nat) : Context :=
  let n := c.mail.inbox.length
  if k < n then { c with mail := { c.mail with inbox := c.mail.inbox.eraseIdx k } }
  else { c with mail := { c.mail with frame := c.mail.frame.eraseIdx (k - n) } }

/-- The live context of a mailbox address: the core and the identifier of its first dispatch (R274). -/
def State.mailbox (s : State) (core cid : Nat) : Option Context :=
  s.contexts.find? (fun c => c.live && !c.id.sup && c.id.home = core && c.id.cid = cid)

/-! Global windows (R284). -/

/-- GWIN and GWLEN of a core. -/
def State.gwin (s : State) (core : Nat) : Word × Word :=
  (s.ctlGet (dieOf core) (0x800 + 0x10 * (core % 128)), s.ctlGet (dieOf core) (0x808 + 0x10 * (core % 128)))

/-- The length of a core's window in bytes, 0 where it is not valid. -/
def State.gwLength (s : State) (core : Nat) : Nat :=
  let (w, l) := s.gwin core
  if w.getLsbD 0 then bitsOf l 38 25 * 2 ^ 25 else 0

/-- The IA at an offset of a core's window. -/
def State.gwIa (s : State) (core off : Nat) : Nat := bitsOf (s.gwin core).1 55 25 * 2 ^ 25 + off

/-- A global access mapped by the agent of the core it names: an IA or a cause. -/
def State.mapGlobal (s : State) (g : Nat) (k : Access) : Except Nat Nat :=
  let core := g / 2 ^ 47 * 512 + g / 2 ^ 38 % 512
  let off := g % 2 ^ 38
  if s.packages ≤ g / 2 ^ 47 || s.gwLength core ≤ off then .error 0x05
  else
    let w := (s.gwin core).1
    let ok : Bool := match k with
      | .read => w.getLsbD 1
      | .write => w.getLsbD 2
      | .fetch => false
      | .atomic => w.getLsbD 1 && w.getLsbD 2 && w.getLsbD 4
    let ia := s.gwIa core off
    if !ok then .error 0x07
    else match s.whereIs ia with
      | .reserved => .error 0x05
      | .inbox _ _ => .error 0x07
      | .control _ _ => .error 0x07
      | .tcm j => if j = core then .ok ia else .error 0x07
      | _ => .ok ia

/-! Hardware message rings (R281). -/

/-- Whether two IAs lie in the TCM, in palettes or in lagoons of one package alike. -/
def State.sameSram (s : State) (a b : Nat) : Bool :=
  match s.whereIs a, s.whereIs b with
  | .tcm j, .tcm k => pkgOf j = pkgOf k
  | .palette j, .palette k => j / 128 = k / 128
  | .lagoon j, .lagoon k => j / 4 = k / 4
  | _, _ => false

/-- Whether a ring header at an IA has the layout of R281. -/
def State.msgRingOk (s : State) (ia : Nat) : Bool :=
  let size := s.numAt ia 4
  let data := s.numAt (ia + 8) 8
  64 ≤ size && size ≤ 16777216 && size = 2 ^ Nat.log2 size && s.numAt (ia + 4) 4 = 0 && data % 64 = 0 &&
    s.sameSram ia data && s.sameSram ia (data + size - 1) && s.numAt (ia + 0x18) 40 = 0

/-- What an agent answers (R278, R281): it accepts, it lets the message wait, or it rejects it; malformed says that the
ring's header breaks its layout, which is logged. -/
inductive Answer where
  | accepted (s : State)
  | waits
  | rejected (cause : Nat) (malformed : Option Nat) (s : State)
deriving DecidableEq, Repr

/-- Bytes written into a ring's data area from a place on, in two parts where they pass its end. -/
def State.writeWrapped (s : State) (data size at_ : Nat) (bs : List Byte) : State :=
  let o := at_ % size
  let n := size - o
  let s1 := s.storeAt (data + o) (data + o) (bs.take n) (Writer.agent 0)
  if bs.length ≤ n then s1 else s1.storeAt data data (bs.drop n) (Writer.agent 0)

/-- The bytes of a message, header first. -/
def messageOctets (m : Message) : List Byte :=
  toBytes 8 m.header.toNat ++ m.payload.flatMap (fun w => toBytes 8 w.toNat)

/-- Whether n bytes written into a ring's data area from a place on reach into a capability list (R25). -/
def State.wrapsReadOnly (s : State) (data size at_ n : Nat) : Bool :=
  let o := at_ % size
  s.readOnly (data + o) (min n (size - o)) || (decide (size - o < n) && s.readOnly data (n - (size - o)))

/-- A message written to a hardware message ring (R281), which no capability list may lie in (R25, log 82). -/
def State.ringMessage (s : State) (dest : Word) (m : Message) : Answer :=
  let core := destCore dest
  let off := bitsOf dest 36 0
  if s.gwLength core ≤ off then .rejected 0x05 none s
  else
    let ia := s.gwIa core off
    if s.withheld ia 64 none then .waits
    else if !(s.msgRingOk ia) then .rejected 0x05 (some ia) s
    else
      let s := s.published ia 64 none
      let size := s.numAt ia 4
      let wr := s.numAt (ia + 0x10) 4
      let rd := s.numAt (ia + 0x14) 4
      let used := (wr + 2 ^ 32 - rd) % 2 ^ 32
      let bs := messageOctets m
      if size < bs.length then .rejected 0x0D none s
      else if s.readOnly (ia + 0x10) 4 || s.wrapsReadOnly (s.numAt (ia + 8) 8) size wr bs.length then .rejected 0x07 none s
      else if size < used + bs.length then .waits
      else
        let s1 := s.writeWrapped (s.numAt (ia + 8) 8) size wr bs
        .accepted (s1.storeAt (ia + 0x10) (ia + 0x10) (toBytes 4 ((wr + bs.length) % 2 ^ 32))
          (Writer.agent 0))

/-- A message at the agent of its destination core. -/
def State.arrive (s : State) (dest : Word) (m : Message) : Answer :=
  if dest.getLsbD 37 then s.ringMessage dest m
  else
    match s.mailbox (destCore dest) (bitsOf dest 5 0) with
    | none => .accepted (s.event (clusterOf (destCore dest)) 16)
    | some c =>
      match s.accept c.id.uid m with
      | some s1 => .accepted s1
      | none => .waits

/-! The network (R277 to R279). -/

/-- Whether a message stands behind another of its sender to its destination. -/
def behind (earlier : List NetMsg) (m : NetMsg) : Bool :=
  earlier.any (fun e => e.sender = m.sender && e.dest = m.dest)

/-- The answer told to the sender: an MSEND that waits is given its status, a rejection of another message is taken late.
One record is logged of a message that is dropped, or that meets a malformed ring (R278, R281, R296, R361). -/
def State.answered (s : State) (m : NetMsg) (cause : Nat) (malformed : Option Nat) : State :=
  let core := destCore m.dest
  let s1 := if malformed.isSome || (!m.awaited && cause != 0) then
      s.machineCheck (dieOf core) (malformed.getD 0) (unitCore core) 5 cause 0 m.dest
    else s
  if m.awaited then
    s1.mapCtx m.sender (fun c => if c.sync.wait = .reply then
      { c with sync := { c.sync with grant := some (BitVec.ofNat 64 cause) } } else c)
  else if cause = 0 then s1
  else
    s1.mapCtx m.sender (fun c => { c with io := { c.io with late := c.io.late ++ [⟨.message, cause, m.dest⟩] } })

/-- The first message of the network that satisfies a test and stands behind no other one is brought to its agent.
The second part says whether one arrived. -/
def State.deliverNet (s : State) (f : NetMsg → Bool) : List NetMsg → List NetMsg → State × Bool
  | _, [] => (s, false)
  | earlier, m :: rest =>
    if !(f m) || behind earlier m then s.deliverNet f (earlier ++ [m]) rest
    else
      match s.arrive m.dest m.msg with
      | .waits => s.deliverNet f (earlier ++ [m]) rest
      | .accepted s1 => (({ s1 with net := earlier ++ rest } : State).answered m 0 none, true)
      | .rejected cause bad s1 => (({ s1 with net := earlier ++ rest } : State).answered m cause bad, true)

/-- A message put into the network and brought to its agent if it may be. -/
def State.inject (s : State) (m : NetMsg) : State :=
  let s1 : State := { s with net := s.net ++ [m] }
  (s1.deliverNet (fun x => x = m) [] s1.net).1

/-- A USER message of the host that holds a shared entry of a core's inbox, placed (R277, R282): in a guaranteed entry of its
target, in the entry that it holds, in the frame of a target that is saved, or, while that is full, still in its entry. -/
def State.placePost (s : State) (core : Nat) (m : Message) (c : Context) : State :=
  let dest : Word := BitVec.ofNat 64 (pkgOf core * 2 ^ 47 + core % 512 * 2 ^ 38 + c.id.cid)
  if s.net.any (fun x => x.sender = hostSender core && x.dest = dest) ||
      ((!c.resident || !c.mail.frame.isEmpty) && 32 ≤ c.mail.frame.length) then
    { s with net := s.net ++ [⟨hostSender core, dest, m, false⟩] }
  else if !c.resident || !c.mail.frame.isEmpty then
    (s.mapCtx c.id.uid (fun c => c.pushFrame m)).writeInboxArea c.id.uid
  else s.mapCtx c.id.uid (fun c => c.pushInbox m core)

/-- A message of the host taken into a shared entry of a core's inbox (R282), or dropped with OVF. -/
def State.hostPost (s : State) (core : Nat) (header : Word) : State :=
  let k := s.core core
  let len := msgLen header
  let drop : State :=
    let s1 := s.setCore core { k with ovf := true }
    if k.ovf then s1 else s1.signal (dieOf core) 5
  if s.sharedFree core = 0 || (msgType header != 1 && msgType header != 3) || 7 < len then drop
  else
    let payload := k.stage.take len
    if msgType header = 3 then
      s.setCore core { k with spawns := k.spawns ++ [⟨mkHeader 3 len (msgTag header) 0xFFFFFFFF, payload⟩] }
    else
      let m : Message := ⟨mkHeader 1 len (msgTag header) 0xFFFFFFFF, payload⟩
      match s.mailbox core (bitsOf header 5 0) with
      | none => s.event (clusterOf core) 16
      | some c => s.placePost core m c

end Sys2Proof.Machine
end

