-- ==== Sys2Proof/Machine/Pending.lean ====
section
/-! DEFINITION. Pending.lean: accesses that retire before they are performed: posted stores, reductions and tile store
drains (R188, R199 to R203, R212 to R215, R227, R249). -/

namespace Sys2Proof.Machine

/-- How far the parts of a store came: all performed, held up behind a glaze, waiting for a page, or failed at an
IA. -/
inductive Reached where
  | done
  | behind
  | page (ia kind level : Nat)
  | failed (ia : Nat)
deriving DecidableEq, Repr

/-- A context as a reader: its number and its core (R304). -/
def State.readerOf (s : State) (uid : Nat) : Option (Nat × Nat) :=
  (s.contexts.find? (fun c => c.id.uid = uid)).map (fun c => (uid, c.id.core))

/-- The line that orders an access of a context to an address (R174, R193, R214, R227): one of 128 bytes, and one for
the whole of its own TCM and its cluster's palette. -/
def lineOf (cl a : Nat) : Nat :=
  let o := a % 2 ^ 53
  if 0x12000000000000 ≤ o && o < 0x12000000000000 + 512 * 0x10000 || paletteIa cl ≤ a && a < paletteIa cl + 0x100000 then
    paletteIa cl / 128
  else a / 128

/-- The lines of a list of parts. -/
def linesOf (cl : Nat) (ps : List (Nat × List Byte)) : List Nat :=
  ps.flatMap (fun q => (List.range ((q.1 + max q.2.length 1 - 1) / 128 + 1 - q.1 / 128)).map (fun k =>
    lineOf cl (q.1 / 128 * 128 + 128 * k)))

/-- Whether two lists of lines meet. -/
def meets (a b : List Nat) : Bool := a.any (fun x => b.contains x)

/-- The cluster of a context, for its accesses in flight. -/
def State.clOf (s : State) (uid : Nat) : Nat :=
  match s.contexts.find? (fun c => c.id.uid = uid) with
  | none => 0
  | some c => clusterOf c.id.core

/-- Writes performed part by part, in order. Every part lies within one granule. -/
def State.performParts (s : State) (uid : Nat) : List (Nat × List Byte) → Reached × List (Nat × List Byte) × State
  | [] => (.done, [], s)
  | (ia, bs) :: rest =>
    if s.touchedBy none ia bs.length && s.pageable ia || s.withheld ia bs.length (s.readerOf uid) then
      (.behind, (ia, bs) :: rest, s)
    else
      match (s.published ia bs.length (s.readerOf uid)).meet ia .write (s.tokenOf uid) with
      | (.ok loc, s1) =>
        if s.readOnly loc bs.length && (s.readerOf uid).isSome then (.failed ia, [], s)
        else (s1.storeAt ia loc bs (s.writerOf uid)).performParts uid rest
      | (.fault kind level, s1) => (.page ia kind level, (ia, bs) :: rest, s1)
      | (.fail _, s1) => (.failed ia, [], s1)

/-- The fault record of a late access (R188): KIND 6, or that of the break that could not go on. -/
def State.lateFault (s : State) (uid ia kind level : Nat) : State :=
  s.postFault (homeDie ia) ⟨0, ia, s.tokenOf uid, if kind < 4 then 6 else kind, level, s.tstamp⟩

/-- A ferry accepts a context's oldest submission that it has not accepted (R199, R270). -/
def acceptFerry (uid : Nat) : List FerryCmd → List FerryCmd
  | [] => []
  | f :: rest => if f.uid = uid && !f.accepted then { f with accepted := true } :: rest else f :: acceptFerry uid rest

/-- The parts of a posted store by their IAs, or the address that is refused. A GST is mapped by the agent of the core
that it names (R284, R285). -/
def State.partsAt (s : State) (p : Posted) : Except Nat (List (Nat × List Byte)) :=
  if p.global then
    match p.parts with
    | [] => .ok []
    | (g, bs) :: _ =>
      match s.mapGlobal g .write with
      | .ok ia => .ok [(ia, bs)]
      | .error _ => .error g
  else .ok p.parts

/-- A posted store or submission tried: what is left of it. A store to a register window is performed by its own step. -/
def State.performPosted (s : State) (uid : Nat) (p : Posted) : Option Posted × State :=
  if p.kind = .f then (none, { s with ferry := acceptFerry uid s.ferry })
  else if p.kind = .w then (some p, s)
  else
  match s.partsAt p with
  | .error g => (none, s.lateFail uid (.posted p.kind) g p.bits)
  | .ok ps =>
    match s.performParts uid ps with
    | (.done, _, s1) => (none, s1)
    | (.behind, rest, s1) => (some { p with parts := if p.global then p.parts else rest }, s1)
    | (.page ia kind level, rest, s1) =>
      (some { p with parts := if p.global then p.parts else rest, held := true }, s1.lateFault uid ia kind level)
    | (.failed ia, _, s1) => (none, s1.lateFail uid (.posted p.kind) ia p.bits)

/-- The counter that a WAIT field names. -/
def waitKind (w : Nat) : PostKind := if w = 1 then .d else if w = 2 then .p else .f

/-- Whether a gate of an access issued at a step lets it through, of the accesses in flight only the older ones
counting (R203, R205). -/
def Gate.lets (g : Gate) (f : InFlight) (born : Nat) : Bool :=
  (g.wait = 0 || !(f.posted.any (fun p => p.kind = waitKind g.wait && decide (p.born < born)) ||
    f.drains.any (fun d => d.counted = some (waitKind g.wait) && decide (d.born < born)))) &&
  (!g.behind || !(f.posted.any (fun p => p.kind != .f && decide (p.born < born)) ||
    f.reds.any (fun r => decide (r.born < born)) || f.drains.any (fun d => decide (d.born < born))))

/-- What of a context is in flight. -/
def State.ioOf (s : State) (uid : Nat) : InFlight :=
  match s.ctx uid with
  | none => InFlight.none
  | some c => c.io

/-- A release that has been performed: its parts name its lines. -/
def State.gateDone (s : State) (uid : Nat) (g : Gate) (parts : List (Nat × List Byte)) (born : Nat) : State :=
  match g.scope with
  | none => s
  | some k =>
    match s.contexts.find? (fun c => c.id.uid = uid) with
    | none => s
    | some c => s.noteRelease uid c.id.core (parts.map (fun p => p.1 / 128)) k born

/-- Posted stores tried in order: those selected, not waiting for a page, let through by their gates, and behind none to
a line of theirs. -/
def State.runPosted (s : State) (uid : Nat) (f : Posted → Bool) : List Posted → List Posted → List Posted × State
  | kept, [] => (kept, s)
  | kept, p :: rest =>
    let cl := s.clOf uid
    if p.held || !(f p) || kept.any (fun q => meets (linesOf cl q.parts) (linesOf cl p.parts)) ||
        !(p.gate.lets { s.ioOf uid with posted := kept } p.born) then
      s.runPosted uid f (kept ++ [p]) rest
    else
      match s.performPosted uid p with
      | (none, s1) => (s1.gateDone uid p.gate ((s.partsAt p).toOption.getD []) p.born).runPosted uid f kept rest
      | (some q, s1) => s1.runPosted uid f (kept ++ [q]) rest

/-- The counts of a saved context brought up to date in its frame (R202, R215). -/
def State.refreshCounts (s : State) (uid : Nat) : State :=
  match s.ctx uid with
  | none => s
  | some c =>
    match c.sched.place with
    | .frame _ =>
      let w := (List.range 3).flatMap (fun k => toBytes 8 (sysOwned c (0x0B + k)))
      (thenPut (s.putIa c.token 2 (c.frameIa + 0x258) w)
        (fun s => s.putIa c.token 2 (c.frameIa + 0x24) (toBytes 1 c.io.reds.length))).2
    | _ => s

/-- What waits for older accesses of its context is due again once one of them is gone, and so is what a narrow release
keeps from its line (R304): before is what was in flight. -/
def State.regate (s : State) (uid : Nat) (before : InFlight) : State :=
  let f := s.ioOf uid
  if f.posted.length + f.reds.length + f.drains.length = before.posted.length + before.reds.length + before.drains.length
  then s
  else
    let gated (g : Gate) : Bool := g.wait != 0 || g.behind
    let s := if s.narrow.isEmpty then s else s.retryAll
    { s with agenda := s.agenda ++
        (if f.posted.any (fun p => gated p.gate && !p.held) then [.postedAck uid] else []) ++
        (if f.reds.any (fun r => gated r.gate && !r.performed && !r.held) then [.redPerform uid] else []) ++
        (if f.drains.any (fun d => gated d.gate && !d.held) then [.tileDrain uid] else []) }

/-- Posted stores of a context tried. -/
def State.drainPosted (s : State) (uid : Nat) (f : Posted → Bool) : State :=
  match s.ctx uid with
  | none => s
  | some c =>
    if c.io.posted.isEmpty then s
    else
    let (kept, s1) := s.runPosted uid f [] c.io.posted
    ((s1.mapCtx uid (fun c => { c with io := { c.io with posted := kept } })).refreshCounts uid).regate uid c.io

/-- A reduction tried at its atomic unit (R206, R212): whether it stays, and how. -/
def State.performRed (s : State) (uid : Nat) (r : Red) : Option Red × State :=
  if s.touchedBy none r.ia r.size && s.pageable r.ia || s.withheld r.ia r.size (s.readerOf uid) then (some r, s)
  else
    match (s.published r.ia r.size (s.readerOf uid)).meet r.ia .atomic (s.tokenOf uid) with
    | (.fault kind level, s1) => (some { r with held := true }, s1.lateFault uid r.ia kind level)
    | (.fail _, s1) => (none, s1.lateFail uid .reduction r.ia r.bits)
    | (.ok loc, s1) =>
      if s1.poisonAt loc r.size || s.readOnly loc r.size then (none, s1.lateFail uid .reduction r.ia r.bits)
      else
        let (new, fl) := amoOp r.fn r.size (s1.numAt loc r.size) r.b.toNat 0
        let s2 := (s1.storeAt r.ia loc (toBytes r.size new) (s.writerOf uid)).mapCtx uid (fun c =>
          { c with io := { c.io with deferred := c.io.deferred ||| fl } })
        (some { r with performed := true }, s2.gateDone uid r.gate [(r.ia, [])] r.born)

/-- Reductions tried in order: those selected, not waiting for a page, let through by their gates, and behind
none of the same line (R213). -/
def State.runReds (s : State) (uid : Nat) (f : Red → Bool) : List Red → List Red → List Red × State
  | kept, [] => (kept, s)
  | kept, r :: rest =>
    let cl := s.clOf uid
    if r.performed || r.held || !(f r) || kept.any (fun q => !q.performed && lineOf cl q.ia = lineOf cl r.ia) ||
        !(r.gate.lets { s.ioOf uid with reds := kept } r.born) then
      s.runReds uid f (kept ++ [r]) rest
    else
      match s.performRed uid r with
      | (none, s1) => s1.runReds uid f kept rest
      | (some q, s1) => s1.runReds uid f (kept ++ [q]) rest

/-- Reductions of a context tried; acks says whether those performed are acknowledged at once. -/
def State.drainReds (s : State) (uid : Nat) (f : Red → Bool) (acks : Bool) : State :=
  match s.ctx uid with
  | none => s
  | some c =>
    if c.io.reds.isEmpty then s
    else
    let (kept, s1) := s.runReds uid f [] c.io.reds
    ((s1.mapCtx uid (fun c => { c with io := { c.io with
      reds := if acks then kept.filter (fun r => !(r.performed && f r)) else kept } })).refreshCounts uid).regate uid c.io

/-- The kind of a failure of a drain: that of a posted store where a counter counts it (R198, R249). -/
def Drain.late (d : Drain) : LateKind :=
  match d.counted with
  | some k => .posted k
  | none => .drain

/-- A tile store has drained: its cells are free, and each easel that held some writes its record (R240, R294). -/
def State.drained (s : State) (d : Drain) : State :=
  d.cells.foldl (fun s q => s.trace (q.1 / 4) (q.1 % 4) d.tag 6 (if d.slot.isSome then 0x23 else 0x22) 0) s

/-- The parts of a tile store of a region's member enter their granules in order, each within one (R325, R327). -/
def State.enterParts (s : State) (uid : Nat) : List (Nat × List Byte) → Reached × List (Nat × List Byte) × State
  | [] => (.done, [], s)
  | (ia, bs) :: rest =>
    match s.meet ia .write (s.tokenOf uid) with
    | (.ok loc, s1) =>
      if s.readOnly loc bs.length then (.failed ia, [], s)
      else match s1.glazeEnter uid ia bs.length false true with
        | (.enter, s2) => (s2.hold uid (.write ia loc bs)).enterParts uid rest
        | (_, s2) => (.behind, (ia, bs) :: rest, s2)
    | (.fault kind level, s1) => (.page ia kind level, (ia, bs) :: rest, s1)
    | (.fail _, s1) => (.failed ia, [], s1)

/-- A retired tile store tried (R227, R249): it keeps its rows until the last of them is written, or has entered the open
region that it belongs to. -/
def State.performDrain (s : State) (uid : Nat) (d : Drain) : Option Drain × State :=
  match (if d.region then s.enterParts uid d.left else s.performParts uid d.left) with
  | (.done, _, s1) => (none, s1.drained d)
  | (.behind, rest, s1) => (some { d with left := rest }, s1)
  | (.page ia kind level, rest, s1) => (some { d with left := rest, held := true }, s1.lateFault uid ia kind level)
  | (.failed ia, _, s1) => (none, s1.lateFail uid d.late ia d.bits)

/-- Whether a tile store is still on its way: one of a region goes with its region (R330). -/
def State.drainStands (s : State) (uid : Nat) (d : Drain) : Bool := !d.region || (s.region uid).isSome

/-- Tile stores tried in order: those selected, not waiting for a page, let through by their gates, and behind none to a
line of theirs. -/
def State.runDrains (s : State) (uid : Nat) (f : Drain → Bool) : List Drain → List Drain → List Drain × State
  | kept, [] => (kept, s)
  | kept, d :: rest =>
    let cl := s.clOf uid
    if d.held || !(f d) || !(s.drainStands uid d) || kept.any (fun q => meets (linesOf cl q.rows) (linesOf cl d.rows)) ||
        !(d.gate.lets { s.ioOf uid with drains := kept } d.born) then
      s.runDrains uid f (kept ++ [d]) rest
    else
      match s.performDrain uid d with
      | (none, s1) => (s1.gateDone uid d.gate d.rows d.born).runDrains uid f kept rest
      | (some q, s1) => s1.runDrains uid f (kept ++ [q]) rest

/-- Tile stores of a context tried. -/
def State.drainTiles (s : State) (uid : Nat) (f : Drain → Bool) : State :=
  match s.ctx uid with
  | none => s
  | some c =>
    if c.io.drains.isEmpty then s
    else
    let (kept, s1) := s.runDrains uid f [] c.io.drains
    ((s1.mapCtx uid (fun c => { c with io := { c.io with drains := kept.filter (s1.drainStands uid) } })).refreshCounts
      uid).regate uid c.io

/-- Everything of a context that is in flight tried. -/
def State.drainAll (s : State) (uid : Nat) : State :=
  ((s.drainTiles uid (fun _ => true)).drainPosted uid (fun _ => true)).drainReds uid (fun _ => true) true

/-- A forced publish (R304): for a reader outside the scope of releases noted with the lines of n bytes, the accesses
before those are performed as far as they can be; where none is left, the lines forget the releases. -/
def State.forcePublish (s : State) (ia n : Nat) (reader : Option (Nat × Nat)) : State :=
  if s.narrow.isEmpty then s
  else
    let s1 := (s.narrowAt ia n reader).foldl (fun s r =>
      ((s.drainTiles r.uid (fun d => decide (d.born < r.born))).drainPosted r.uid (fun p => decide (p.born < r.born))).drainReds
        r.uid (fun q => decide (q.born < r.born)) false) s
    if s1.withheld ia n reader then s1 else s1.published ia n reader

/-- Nothing in flight. -/
def InFlight.quiet (f : InFlight) : Bool := f.posted.isEmpty && f.reds.isEmpty && f.drains.isEmpty

/-- A store cut into parts that lie within granules. -/
def partsOf (ia : Nat) : Nat → List Byte → List (Nat × List Byte)
  | 0, _ => []
  | fuel + 1, bs =>
    if bs.isEmpty then []
    else
      let n := 32 - ia % 32
      (ia, bs.take n) :: partsOf (ia + n) fuel (bs.drop n)

end Sys2Proof.Machine
end

