-- ==== Sys2Proof/Machine/Place.lean ====
section
/-! DEFINITION. Place.lean: what the scheduler counts and where it puts a task: eligible regions, slots, cells,
palette, TCM and lagoon, strings, core sets, frames (R59, R62, R69, R218, R220, R236, R274, R295, R355, R357). -/

namespace Sys2Proof.Machine

/-- NTASK. -/
def Launch.total (l : Launch) : Nat := l.dimx * l.dimy * l.dimz

/-- The dies of a launch's eligible region (R53). -/
def State.eligible (s : State) (pkgmask diemask : Nat) : List Nat :=
  (List.range (4 * s.packages)).filter (fun d =>
    (pkgmask = 0 || pkgmask.testBit (d / 4)) && (diemask % 16 = 0 || diemask.testBit (d % 4)))

/-- The strings of a region in the order of ties: string number in the package, then package (R69). -/
def State.regionStrings (s : State) (dies : List Nat) : List Nat :=
  (List.range 32).flatMap (fun j => (List.range s.packages).filterMap (fun p =>
    let str := p * 32 + j
    if dies.contains (str / 8) then some str else none))

/-! Cells of an easel (R219, R220, R225, R227, R236). -/

/-- The cells of an easel in a list of cells. -/
def Cells.on (cs : Cells) (e : Nat) : List Nat := (cs.filter (fun q => q.1 = e)).flatMap (fun q => q.2)

/-- Cells that a context's tile names hold, and those that its open region keeps (R220, R326). -/
def Context.bound (c : Context) : Cells :=
  c.reg.t.toList.flatMap (fun t => match t with
    | none => []
    | some t => t.cells) ++
  (match c.sync.region with
    | none => []
    | some r => r.freed)

/-- Cells that a context holds, bound or draining, whether or not they lie in its reservation. -/
def Context.holds (c : Context) : Cells := c.bound ++ c.io.drains.flatMap (fun d => d.cells)

/-- The cells of a cluster's commands, squashed ones included until their discard. -/
def commandCells (cl : Nat) (v : Cluster) : Cells := v.cmds.map (fun k => (cl * 4 + k.easel, k.cells))

/-- Cells that no new tile may take. -/
def State.heldCells (s : State) : Cells :=
  (s.contexts.filter Context.live).flatMap Context.holds ++ s.clusters.flatMap (fun c => commandCells c.1 c.2)

/-- Cells reserved for resident tasks. -/
def State.reservedCells (s : State) : Cells := (s.contexts.filter Context.resident).flatMap (fun c => c.job.cells)

/-- The cells of an easel that are neither reserved nor held. -/
def State.unreserved (s : State) (e : Nat) : List Nat :=
  let taken := s.reservedCells.on e ++ s.heldCells.on e
  (List.range Config.cellsPerEasel).filter (fun k => !(taken.contains k))

/-- n elements of a list, which ones open, and none where it has fewer. -/
def State.pick : Nat → List Nat → State → Option (List Nat) × State
  | 0, _, s => (some [], s)
  | n + 1, l, s =>
    match l[(s.draw).1 % max l.length 1]? with
    | none => (none, s)
    | some k =>
      match State.pick n (l.erase k) (s.draw).2 with
      | (none, s1) => (none, s1)
      | (some ks, s1) => (some (k :: ks), s1)

/-- n cells reserved on each of a list of easels. -/
def State.reserveOn (s : State) (n : Nat) : List Nat → Option Cells × State
  | [] => (some [], s)
  | e :: rest =>
    match State.pick n (s.unreserved e) s with
    | (none, _) => (none, s)
    | (some ks, s1) =>
      match s1.reserveOn n rest with
      | (none, _) => (none, s)
      | (some cs, s2) => (some ((e, ks) :: cs), s2)

/-- The easels of a string, in member order (R236). -/
def stringEasels (str : Nat) : List Nat := (List.range 16).map (fun k => str * 16 + k)

/-! What is taken. -/

/-- Something that takes resources: a slot of a core or none, cells of an easel of its cluster or, for a group, of every
easel of its string, palette, TCM and lagoon bytes. -/
structure Item where
  core : Nat
  slot : Bool
  cells : Nat
  easel : Nat
  pal : Nat
  tcm : Nat
  lag : Nat
  launch : Nat
  group : Bool
deriving DecidableEq, Repr

/-- A sum over a list. -/
def sumOf {α : Type} (l : List α) (f : α → Nat) : Nat := l.foldl (fun n x => n + f x) 0

/-- What the demands of a launch take for a resident task. -/
def State.taskItem (s : State) (c : Context) : Item :=
  let d := (s.launches.find? (fun l => l.num = c.job.launch)).map (fun l => l.demands)
  ⟨c.id.core, true, c.job.tcells, c.job.easel.getD 0, (d.map (·.pal)).getD 0, (d.map (·.tcm)).getD 0, (d.map (·.lag)).getD 0,
    c.job.launch, decide (c.job.group > 1)⟩

/-- Cells held outside every reservation, each as an item of its own: those of tasks that have left their easel. -/
def State.strays (s : State) : List Item :=
  let reserved := s.reservedCells
  ((s.heldCells.flatMap (fun q => q.2.map (fun k => (q.1, k)))).eraseDups.filter (fun q =>
    !((reserved.on q.1).contains q.2))).map (fun q => ⟨q.1, false, 1, q.1 % 4, 0, 0, 0, 0, false⟩)

/-- What resident tasks, and cells that are still held, take now. -/
def State.items (s : State) : List Item :=
  (s.contexts.filter (fun c => c.resident && !c.id.sup)).map s.taskItem ++ s.strays

/-- What unfinished launches keep until their COUNT reaches zero (R18, R141): lagoon bytes on the dies where their tasks have
been dispatched, and the TCM and palette bytes that their tasks have taken. -/
def State.keeps (s : State) : List Item :=
  (s.launches.filter (fun l => !l.finished)).flatMap (fun l =>
    l.used.map (fun core => ⟨core, false, 0, 0, 0, 0, l.demands.lag, l.num, false⟩) ++
    l.tcmKept.map (fun k => ⟨k.1, false, 0, 0, 0, k.2, 0, l.num, false⟩) ++
    l.palKept.map (fun k => ⟨k.1 * 4, false, 0, 0, k.2, 0, 0, l.num, false⟩))

/-- Free user slots of a core. -/
def coreFree (its : List Item) (core : Nat) : Nat := 7 - (its.filter (fun i => i.slot && i.core = core)).length

/-- Whether an item takes cells of an easel of a cluster. -/
def Item.onEasel (i : Item) (cl e : Nat) : Bool :=
  if i.group then stringOf i.core = cl / 4 else clusterOf i.core = cl && i.easel = e

/-- Unreserved cells of an easel of a cluster. -/
def easelFree (its : List Item) (cl e : Nat) : Nat :=
  Config.cellsPerEasel - sumOf (its.filter (fun i => i.onEasel cl e)) (fun i => i.cells)

/-- The easel with the most unreserved cells, the lowest index on a tie (R218). -/
def easelChoice (its : List Item) (cl : Nat) : Nat :=
  (List.range 4).foldl (fun b e => if easelFree its cl b < easelFree its cl e then e else b) 0

/-- Lagoon bytes in use on a die: those of each launch with a task there, once. -/
def lagUsed (its : List Item) (die launch : Nat) : Nat :=
  sumOf (((its.filter (fun i => dieOf i.core = die && i.launch != launch)).map (fun i => (i.launch, i.lag))).eraseDups)
    (fun p => p.2)

/-- Bytes of a space that items take together: a launch takes what its resident tasks need or what it keeps, whichever is
more (R141). -/
def spaceUsed (its : List Item) (f : Item → Nat) : Nat :=
  sumOf ((its.map (fun i => i.launch)).eraseDups) (fun l =>
    let mine := its.filter (fun i => i.launch = l)
    max (sumOf (mine.filter (fun i => i.slot)) f) (sumOf (mine.filter (fun i => !i.slot)) f))

/-- The item that a placed task is. -/
def placed (its : List Item) (d : Demands) (num core : Nat) : Item :=
  ⟨core, true, d.tcells, easelChoice its (clusterOf core), d.pal, d.tcm, d.lag, num, decide (d.group > 1)⟩

/-- What a task lacks on a core, each as the items that take it: a slot, TCM, palette, lagoon, a string without another
group task (R69), cells. -/
def lacks (its : List Item) (d : Demands) (num core : Nat) : List (Item → Bool) :=
  let cl := clusterOf core
  let all := placed its d num core :: its
  let best := easelChoice its cl
  (if coreFree its core = 0 then [fun i => i.slot && i.core = core] else []) ++
  (if 0 < d.tcm && 0x10000 < spaceUsed (all.filter (fun i => i.core = core)) (fun i => i.tcm) then
    [fun i => i.core = core && 0 < i.tcm] else []) ++
  (if 0 < d.pal && 0x100000 < spaceUsed (all.filter (fun i => clusterOf i.core = cl)) (fun i => i.pal) then
    [fun i => clusterOf i.core = cl && 0 < i.pal] else []) ++
  (if 1 < d.group && its.any (fun i => i.group && stringOf i.core = stringOf core) then
    [fun i => i.group && stringOf i.core = stringOf core] else []) ++
  (if 0x1000000 < lagUsed its (dieOf core) num + d.lag then
    [fun i => dieOf i.core = dieOf core && i.launch != num && 0 < i.lag] else []) ++
  (if d.tcells = 0 then []
   else if 1 < d.group then
    ((List.range 16).filter (fun k => easelFree its (cl / 4 * 4 + k / 4) (k % 4) < d.tcells)).map (fun k i =>
      i.onEasel (cl / 4 * 4 + k / 4) (k % 4) && 0 < i.cells)
   else if easelFree its cl best < d.tcells then [fun i => i.onEasel cl best && 0 < i.cells] else [])

/-- Whether a task with given demands fits on a core; ok tells whether the core may be used at all. -/
def fits (its : List Item) (d : Demands) (num : Nat) (ok : Nat → Bool) (core : Nat) : Bool :=
  ok core && (lacks its d num core).isEmpty

/-! Strings, clusters and cores (R69, R236, R295). -/

/-- Free user slots of a cluster. -/
def clusterFree (its : List Item) (cl : Nat) : Nat := sumOf (List.range 4) (fun k => coreFree its (cl * 4 + k))

/-- Balanced free capacity of a string: four times the free slots of its fullest cluster. -/
def balanced (its : List Item) (str : Nat) : Nat :=
  let free (k : Nat) : Nat := clusterFree its (str * 4 + k)
  4 * min (min (free 0) (free 1)) (min (free 2) (free 3))

/-- Free user slots of a string in total. -/
def stringFree (its : List Item) (str : Nat) : Nat := sumOf (List.range 4) (fun k => clusterFree its (str * 4 + k))

/-- The first element of a list with the greatest value. -/
def firstMax (l : List Nat) (f : Nat → Nat) : Option Nat :=
  l.foldl (fun b x => match b with
    | none => some x
    | some y => if f y < f x then some x else some y) none

/-- Of strings that can take something, the one that R69 chooses: by balanced free capacity, and where that is 0 for all of
them by free slots in total. -/
def chooseString (its : List Item) (able : List Nat) : Option Nat :=
  match firstMax (able.filter (fun x => 0 < balanced its x)) (balanced its) with
  | some str => some str
  | none => firstMax able (stringFree its)

/-- The core of a cluster with the most free user slots, the lowest on a tie (R69), of those on which the task fits. -/
def bestCore (its : List Item) (d : Demands) (num : Nat) (ok : Nat → Bool) (cl : Nat) : Option Nat :=
  firstMax (((List.range 4).map (fun k => cl * 4 + k)).filter (fits its d num ok)) (coreFree its)

/-- Whether tasks fit on each of some cores at once. -/
def fitAll (d : Demands) (num : Nat) (ok : Nat → Bool) : List Item → List Nat → Bool
  | _, [] => true
  | its, core :: rest => fits its d num ok core && fitAll d num ok (placed its d num core :: its) rest

/-- What tasks lack on some cores when they are placed there in turn. -/
def shorts (d : Demands) (num : Nat) : List Item → List Nat → List (Item → Bool)
  | _, [] => []
  | its, core :: rest => lacks its d num core ++ shorts d num (placed its d num core :: its) rest

/-- The cores of a core set of n tasks in a string (R295): the first n of its lowest cluster that can take them, or, beyond
four, those of two of its clusters. -/
def setCores (its : List Item) (d : Demands) (num : Nat) (ok : Nat → Bool) (n str : Nat) : Option (List Nat) :=
  let cores (k m : Nat) : List Nat := (List.range m).map (fun j => (str * 4 + k) * 4 + j)
  let plans := (List.range 4).flatMap (fun k => if n ≤ 4 then [cores k n]
    else ((List.range 4).filter (fun j => k < j)).map (fun j => cores k 4 ++ cores j (n - 4)))
  plans.find? (fitAll d num ok its)

/-- The core of a group task on a string: on cluster 0, where no other group task lives on the string (R69, R236). -/
def groupCore (its : List Item) (d : Demands) (num : Nat) (ok : Nat → Bool) (str : Nat) : Option Nat :=
  bestCore its d num ok (str * 4)

/-- A task placed on its own, as where no set of four fits (R69). -/
def singleCore (its : List Item) (strings : List Nat) (d : Demands) (num : Nat) (ok : Nat → Bool) : Option Nat :=
  let first (str : Nat) : Option Nat := (List.range 4).findSome? (fun k => bestCore its d num ok (str * 4 + k))
  (firstMax (strings.filter (fun x => (first x).isSome)) (stringFree its)).bind first

/-- The first task of a set of four, or of the remainder of a launch, on the string that R69 chooses: its core, and the set
that it begins. -/
def firstOfSet (its : List Item) (strings : List Nat) (d : Demands) (num left : Nat) (ok : Nat → Bool) :
    Option (List Nat × Option Spread) :=
  let whole : Bool := 4 ≤ left
  let on (str k : Nat) : Option Nat := bestCore its d num ok (str * 4 + k)
  let first (str : Nat) : Option Nat :=
    if 0 < balanced its str && (!whole || (List.range 4).all (fun k => (on str k).isSome)) then
      (List.range 4).findSome? (on str)
    else none
  (firstMax (strings.filter (fun x => (first x).isSome)) (balanced its)).bind (fun str =>
    (first str).map (fun core => ([core], if left = 1 then none else some ⟨str, min left 4 - 1, whole⟩)))

/-- The cores for the tasks of a launch from task t on that are placed together, and the set of four or the remainder that
goes on behind them (R69, R236, R295): one task, or a whole core set. set is the one that the task before has left, last the
core of that task. A task that no set takes is placed on its own, and the next one may begin a set again. -/
def choosePlaces (its : List Item) (strings : List Nat) (d : Demands) (num total t : Nat) (set : Option Spread)
    (last : Option Nat) (ok : Nat → Bool) : Option (List Nat × Option Spread) :=
  if 1 < d.group then
    let able := strings.filter (fun str => (groupCore its d num ok str).isSome)
    ((chooseString its able).bind (groupCore its d num ok)).map (fun core => ([core], none))
  else if 1 < d.coreset then
    let n := min d.coreset (total - t)
    let able := strings.filter (fun str => (setCores its d num ok n str).isSome)
    ((chooseString its able).bind (setCores its d num ok n)).map (fun cores => (cores, none))
  else
    let begun : Option (List Nat × Option Spread) :=
      match firstOfSet its strings d num (total - t) ok with
      | some r => some r
      | none => (singleCore its strings d num ok).map (fun core => ([core], none))
    match set, last with
    | some q, some last =>
      let next := (List.range 4).findSome? (fun k =>
        if (if q.whole then k + q.left = 4 else clusterOf last % 4 < k) then bestCore its d num ok (q.string * 4 + k)
        else none)
      match next with
      | some core => some ([core], if q.left = 1 then none else some { q with left := q.left - 1 })
      | none => begun
    | _, _ => begun

/-- Every task placed in turn (R62): the cores, or none where they do not fit at once. Fuel: the tasks. -/
def placeAll (strings : List Nat) (d : Demands) (num total : Nat) :
    Nat → List Item → List Nat → Option Spread → Option (List Nat)
  | 0, _, used, _ => some used
  | fuel + 1, its, used, set =>
    if total ≤ used.length then some used
    else
      match choosePlaces its strings d num total used.length set used.getLast? (fun _ => true) with
      | none => none
      | some (cores, set) => placeAll strings d num total fuel
          (cores.foldl (fun its core => placed its d num core :: its) its) (used ++ cores) set

/-! Frames (R355, R357). -/

/-- XSIZE. -/
def extensionBytes (tcells group : Nat) : Nat := 2 * tileRoom tcells group + 20480

/-- Taken 4 KiB units: first and count. -/
def State.framesTaken (s : State) : List (Nat × Nat) :=
  (s.contexts.filter (fun c => c.live && !c.id.sup)).flatMap (fun c =>
    [(c.frameIa / 4096, 6), (c.sched.xbase / 4096, ceilDiv c.sched.xsize 4096)])

/-- Places in a cluster's frame region where n free units begin: at its base or behind something taken. -/
def State.frameSpaces (s : State) (cl n : Nat) (taken : List (Nat × Nat)) : List Nat :=
  let off := 0x500 + 0x10 * (cl % 32)
  let base := s.ctlField (cl / 32) off 55 12
  let len := s.ctlField (cl / 32) (off + 8) 31 0
  (base :: taken.map (fun t => t.1 + t.2)).filter (fun u =>
    base ≤ u && u + n ≤ base + len && taken.all (fun t => u + n ≤ t.1 || t.1 + t.2 ≤ u))

/-- A frame and an extension taken from a cluster's region: their IAs. Which free units are taken is open. -/
def State.takeFrames (s : State) (cl xsize : Nat) : Option (Nat × Nat) × State :=
  let taken := s.framesTaken
  let a := s.frameSpaces cl 6 taken
  match a[(s.draw).1 % max a.length 1]? with
  | none => (none, s)
  | some f =>
    let s1 := (s.draw).2
    let n := ceilDiv xsize 4096
    let b := s1.frameSpaces cl n ((f, 6) :: taken)
    match b[(s1.draw).1 % max b.length 1]? with
    | none => (none, s)
    | some x => (some (f * 4096, x * 4096), (s1.draw).2)

/-- Free CIDs of a core (R274). -/
def State.freeCids (s : State) (core : Nat) : List Nat :=
  (List.range 64).filter (fun k =>
    !(s.contexts.any (fun c => c.live && !c.id.sup && c.id.home = core && c.id.cid = k)))

/-- One element of a list that is open. -/
def State.choose (s : State) (l : List Nat) : Option Nat × State := (l[(s.draw).1 % max l.length 1]?, (s.draw).2)

end Sys2Proof.Machine
end

