-- ==== Sys2Proof/Machine/Objects.lean ====
section
/-! DEFINITION. Objects.lean: what home slices do with completion objects and monitors (R55 to R58, R66, R67, R143,
R319 to R321), and the completion tree (R384, R385). -/

namespace Sys2Proof.Machine

/-- The place of an object in memory for an update by its home slice; none where its page is away. -/
def State.objLoc (s : State) (ia : Nat) : Option Nat × State :=
  match s.meet ia .atomic 0 with
  | (.ok loc, s1) => (some loc, s1)
  | (_, s1) => (none, s1)

/-! Status words (R384). -/

/-- A child word folded into a STATUS. -/
def foldStatus (st w : Nat) : Nat :=
  if w % 2 ^ 32 = 0 then st
  else min (st / 2 ^ 16 % 2 ^ 16 + 1) 0xFFFF * 2 ^ 16 + (st ||| w) % 2 ^ 16

/-- Two combined words joined: the launch's NBAD stays the number of its nonzero task words (log 11). -/
def joinStatus (a b : Nat) : Nat :=
  min (a / 2 ^ 16 % 2 ^ 16 + b / 2 ^ 16 % 2 ^ 16) 0xFFFF * 2 ^ 16 + (a ||| b) % 2 ^ 16

/-! Launches. -/

/-- A launch changed. -/
def State.mapLaunch (s : State) (num : Nat) (f : Launch → Launch) : State :=
  { s with launches := s.launches.map (fun l => if l.num = num then f l else l) }

/-- The launch of a number. -/
def State.launch (s : State) (num : Nat) : Option Launch := s.launches.find? (fun l => l.num = num)

/-- The unfinished launch of a completion object. -/
def State.launchOf (s : State) (lobj : Nat) : Option Launch :=
  s.launches.find? (fun l => l.lobjIa = lobj && !l.finished)

/-- The object at place k above a launch: its own, then graph, phase and job. -/
def Launch.object (l : Launch) (k : Nat) : Option Nat := (l.lobjIa :: l.chain)[k]?

/-- A node of a completion tree with no count. -/
def State.dropNode (s : State) (num node : Nat) : State :=
  { s with nodes := s.nodes.filter (fun n => !(n.launch = num && n.node = node)) }

/-- Ends added to a node (R385). -/
def State.addNode (s : State) (num node count word : Nat) : State :=
  match s.nodes.find? (fun n => n.launch = num && n.node = node) with
  | none => { s with nodes := s.nodes ++ [⟨num, node, count, BitVec.ofNat 32 word⟩] }
  | some _ =>
    { s with nodes := s.nodes.map (fun n => if n.launch = num && n.node = node then
        { n with ended := n.ended + count, word := BitVec.ofNat 32 (joinStatus n.word.toNat word) } else n) }

/-- The number under which ends are kept that wait for the page of the object at place k. -/
def atHome (k : Nat) : Nat := 2 ^ 32 + k

/-- STATE of an object, where its page is there. -/
def State.objState (s : State) (ia : Nat) : Nat :=
  match (s.meet ia .read 0).1 with
  | .ok loc => s.numAt (loc + 8) 1
  | _ => 0

/-- CANCAUSE of an object, where its page is there. -/
def State.objCause (s : State) (ia : Nat) : Nat :=
  match (s.meet ia .read 0).1 with
  | .ok loc => s.numAt (loc + 0x24) 4
  | _ => 0

/-- An object marked CANCELLING with a cause where it is OPEN. -/
def State.markCancelling (s : State) (loc cause : Nat) : State :=
  if s.numAt (loc + 8) 1 = 1 then (s.putNum (loc + 8) 1 3).putNum (loc + 0x24) 4 cause else s

/-- The mark of a cancelled object above reaches an object before its counter moves: the home slice of a descendant marks
it before its end could be taken for a completion (R67, R143). -/
def State.inherit (s : State) (loc : Nat) (above : List Nat) : State :=
  match above.find? (fun ia => s.objState ia = 3) with
  | none => s
  | some ia => s.markCancelling loc (s.objCause ia)

/-- Whether the page of an object is away. -/
def State.objAway (s : State) (ia : Nat) : Bool :=
  match (s.meet ia .read 0).1 with
  | .ok _ => false
  | _ => true

/-- Whether a cancel of an object has still to be carried to what lies beneath it (R67). -/
def State.cancelDue (s : State) (obj : Nat) : Bool := s.unmarked.contains obj || s.agenda.contains (.cancelMark obj)

/-- Whether a live region has touched an object, so that an update by its home slice waits (R310). -/
def State.objBusy (s : State) (ia : Nat) : Bool := s.pageable ia && s.touchedBy none ia 64

/-- An object reaches COMPLETE or CANCELLED (R58, R144): TDONE is written, its waiters take the outcome with the STATUS, and
it leaves the tree. -/
def State.finishObject (s : State) (ia loc : Nat) : State :=
  let done : Bool := s.numAt (loc + 8) 1 = 1
  let s1 := (s.putNum (loc + 8) 1 (if done then 2 else 4)).putNum (loc + 0x30) 8 s.tstamp
  let out := s1.numAt (loc + 0x0C) 4 * 2 ^ 32 + (if done then 0 else 1)
  { s1.releaseWaiters (.object ia) (BitVec.ofNat 64 out) with attached := s1.attached.filter (fun a => a.ia != ia) }

/-- The decrement of R58: count ends and their combined word at the object at place k of a launch, then one end of that
object at the one above, as far as objects complete. What meets an absent page, an object that a live region has touched, or
an object above it that is away with a cancel still to be carried down (R143), is kept until it can be performed. -/
def State.homeFold (s : State) (num : Nat) : Nat → Nat → Nat → Nat → State
  | 0, _, _, _ => s
  | fuel + 1, k, count, word =>
    match s.launch num with
    | none => s
    | some l =>
      match l.object k with
      | none => s
      | some ia =>
        let above := (l.lobjIa :: l.chain).drop (k + 1)
        if s.objBusy ia || above.any (fun a => s.cancelDue a && s.objAway a) then s.addNode num (atHome k) count word
        else
          match s.objLoc ia with
          | (none, s1) =>
            (s1.addNode num (atHome k) count word).postFault (homeDie ia) ⟨0, ia, 0, 6, 4, s.tstamp⟩
          | (some loc, s1) =>
            let s2 := s1.inherit loc above
            let left := (s2.numAt loc 4 + 2 ^ 32 - count % 2 ^ 32) % 2 ^ 32
            let st := joinStatus (s2.numAt (loc + 0x0C) 4) word
            let s3 := (s2.putNum loc 4 left).putNum (loc + 0x0C) 4 st
            let state := s3.numAt (loc + 8) 1
            if left = 0 && (state = 1 || state = 3) then
              let s4 := s3.finishObject ia loc
              let s5 := if k = 0 then s4.mapLaunch num (fun l => { l with finished := true }) else s4
              s5.homeFold num fuel (k + 1) 1 (foldStatus 0 st)
            else s3

/-- The cores of a launch's region in the order of its completion tree (R385). -/
def State.treeCores (s : State) (l : Launch) : List Nat :=
  (s.eligible l.pkgmask l.diemask).flatMap (fun d => (List.range 128).map (fun k => d * 128 + k))

/-- The node of a core. A task that was restored outside the region reports to the root. -/
def State.treeNode (s : State) (l : Launch) (core : Nat) : Nat :=
  let n := (s.treeCores l).idxOf core
  if n < (s.treeCores l).length then n else 0

/-- The end of a task taken into its core's node. -/
def State.reportEnd (s : State) (num core : Nat) (word : BitVec 32) : State :=
  match s.launch num with
  | none => s
  | some l =>
    let node := s.treeNode l core
    let s1 := s.addNode num node 1 (foldStatus 0 word.toNat)
    { s1 with agenda := s1.agenda ++ [.treeForward l.lobjIa node] }

/-- TREE_FORWARD (R385): a node's ends go to its parent, or from the root to the home slice. -/
def State.forward (s : State) (lobj node : Nat) : State :=
  match s.launches.find? (fun l => l.lobjIa = lobj && s.nodes.any (fun n => n.launch = l.num && n.node = node)) with
  | none => s
  | some l =>
    match s.nodes.find? (fun n => n.launch = l.num && n.node = node) with
    | none => s
    | some n =>
      let s1 := s.dropNode l.num node
      if atHome 0 ≤ node then
        let k := node - atHome 0
        match l.object k with
        | none => s
        | some ia =>
          if (s.objLoc ia).1.isSome && !(s.objBusy ia) then s1.homeFold l.num 5 k n.ended n.word.toNat else s
      else if node = 0 then s1.homeFold l.num 5 0 n.ended n.word.toNat
      else
        let up := (node - 1) / 4
        let s2 := s1.addNode l.num up n.ended n.word.toNat
        { s2 with agenda := s2.agenda ++ [.treeForward lobj up] }

/-! Cancel (R67, R143). -/

/-- HomeCancel: the result code. -/
def State.homeCancel (s : State) (loc cause : Nat) : Nat × State :=
  match s.numAt (loc + 8) 1 with
  | 1 => (0, s.markCancelling loc cause)
  | 2 => (1, s)
  | 4 => (1, s)
  | 3 => (2, s)
  | _ => (3, s)

/-- Whether a launch, or an object above it, is CANCELLING. -/
def State.cancelling (s : State) (num : Nat) : Bool :=
  match s.launch num with
  | none => false
  | some l => (l.lobjIa :: l.chain).any (fun ia => s.objState ia = 3)

/-- The objects above one that is attached, lowest first, and the phase before its phase (R57, R61). Fuel: the levels. -/
def State.treeAbove (s : State) : Nat → Nat → List Nat × Option Nat
  | 0, _ => ([], none)
  | n + 1, ia =>
    match s.attached.find? (fun a => a.ia = ia) with
    | none => ([], none)
    | some a =>
      let (up, prev) := s.treeAbove n a.up
      (a.up :: up, if a.prev.isSome then a.prev else prev)

/-- The objects beneath one, highest first: attached ones, then the objects of unfinished launches. -/
def State.treeBelow (s : State) (obj : Nat) : List Nat :=
  let under := (s.attached.filter (fun a => (s.treeAbove 3 a.ia).1.contains obj)).map (fun a => a.ia)
  let rank (k : Nat) : List Nat := under.filter (fun ia => (s.treeAbove 3 ia).1.idxOf obj = k)
  rank 0 ++ rank 1 ++ rank 2 ++
    (s.launches.filter (fun l => !l.finished && l.chain.contains obj)).map (fun l => l.lobjIa)

/-! Monitors (R319 to R321). -/

/-- Bytes of a saved context's frame brought up to date. -/
def State.frameField (s : State) (uid off : Nat) (bs : List Byte) : State :=
  match s.ctx uid with
  | none => s
  | some c =>
    match c.sched.place with
    | .frame _ => (s.putIa c.token 2 (c.frameIa + off) bs).2
    | _ => s

/-- Grant: the object names a context as its owner. -/
def State.grantObject (s : State) (loc owner : Nat) : State :=
  (((s.putNum loc 4 owner).putNum (loc + 4) 1 1).putNum (loc + 0x0C) 4 (s.numAt (loc + 0x0C) 4 + 1)).putNum
    (loc + 0x10) 8 s.tstamp

/-- The oldest refused entrant of a monitor. -/
def State.entrant (s : State) (ia : Nat) : Option Context :=
  (s.contexts.filter (fun c => c.live && c.sync.wait = .monitor ia && c.sync.grant.isNone)).foldl
    (fun b c => match b with
      | none => some c
      | some d => if c.sync.since < d.sync.since then some c else some d) none

/-- The monitor given to a waiting entrant: its status waits for it, and the object joins its list. -/
def State.grantWaiter (s : State) (ia loc status : Nat) (c : Context) : State :=
  let s1 := (s.grantObject loc c.src).mapCtx c.id.uid (fun c => { c with sync := { c.sync with
    grant := some (BitVec.ofNat 64 status), monitors := c.sync.monitors ++ [ia] } })
  s1.frameField c.id.uid 0x720 (monitorBytes (c.sync.monitors ++ [ia]))

/-- The home slice's step of MEXIT for an owner; the next entrant gets a status. -/
def State.monitorExit (s : State) (owner ia loc status : Nat) : State :=
  if s.numAt (loc + 5) 1 != 1 || s.numAt (loc + 4) 1 != 1 || s.numAt loc 4 != owner then s
  else
    let n := s.numAt (loc + 8) 4
    match s.entrant ia with
    | some c => if n = 0 then (s.putNum (loc + 4) 1 0).putNum loc 4 0
        else (s.putNum (loc + 8) 4 (n - 1)).grantWaiter ia loc status c
    | none =>
      let s1 := if n = 0 then s else s.putNum (loc + 8) 4 (n - 1)
      (s1.putNum (loc + 4) 1 0).putNum loc 4 0

end Sys2Proof.Machine
end

