-- ==== Sys2Proof/Machine/Tasks.lean ====
section
/-! DEFINITION. Tasks.lean: how a task ends (R141, R142), how a context is saved (R188, R228, R356), and how a trap is
delivered (R340 to R349, R353). -/

namespace Sys2Proof.Machine

/-! Power classes and leases that contexts meet (R371, R380, R382). -/

/-- Whether a class is shed in a package: bits [39:33] of PWR. -/
def State.classShed (s : State) (pkg k : Nat) : Bool := k != 0 && (s.ctlGet (pkg * 4) 0x758).getLsbD (32 + k % 8)

/-- The demand D of a class of a package as last measured, 8 being the system share (R372). -/
def State.demand (s : State) (pkg k : Nat) : Nat := getAt (s.pkg pkg).demands k 0

/-- The estimate E (R372). -/
def State.estimate (s : State) (pkg : Nat) : Nat :=
  (List.range 8).foldl (fun e k => if s.classShed pkg k then e else e + s.demand pkg k) (s.demand pkg 8)

/-- HWPWR cleared once the estimate is within the ceiling, no set point is lowered, and every task of a shed class is
off its core or under a hold (R373). It stays while the package is measured above the ceiling, since step 3 looks at it 50 µs
later (log 97). -/
def State.easeHalf (s : State) (pkg : Nat) : State :=
  let die := pkg * 4
  if s.ctlField die 0x758 30 30 = 1 && s.estimate pkg ≤ s.ctlField die 0x748 31 16 && (s.pkg pkg).lowered = 0 &&
      (s.pkg pkg).safeLowered = 0 && s.ctlField die 0x758 15 0 ≤ s.ctlField die 0x748 31 16 &&
      s.contexts.all (fun c => !c.live || c.id.sup || pkgOf c.id.core != pkg || !(s.classShed pkg c.reg.cls) ||
        !c.resident || c.power.hold) then s.ctlPutField die 0x758 30 30 0
  else s

/-- LBUD of a string: its die and offset. -/
def lbudAt (str : Nat) : Nat × Nat := (str / 8, 0x780 + 8 * (str % 8))

/-- LEVEL of a string brought up to date: the highest level among its live leases (R380). -/
def State.relevel (s : State) (str : Nat) : State :=
  let top := s.contexts.foldl (fun m c => match c.power.lease with
    | none => m
    | some l => if c.live && l.string = str then max m l.level else m) 0
  s.ctlPutField (lbudAt str).1 (lbudAt str).2 23 16 top

/-- A lease ended: its units return (R382). -/
def State.endLease (s : State) (uid : Nat) : State :=
  match (s.ctx uid).bind (fun c => c.power.lease) with
  | none => s
  | some l =>
    let at_ := lbudAt l.string
    let held := s.ctlField at_.1 at_.2 15 8
    let s1 := s.ctlPutField at_.1 at_.2 15 8 (held - l.level)
    let s2 := s1.mapCtx uid (fun c => { c with power := { c.power with lease := none } })
    ((s2.relevel l.string).frameField uid 0x52 [0, 0]).frameField uid 0x58 (toBytes 8 0)

/-! Messages that wait in the network. -/

/-- Every message that can be placed is placed, in order. -/
def State.flushFuel : Nat → State → State
  | 0, s => s
  | n + 1, s =>
    match s.deliverNet (fun _ => true) [] s.net with
    | (s1, true) => s1.flushFuel n
    | (s1, false) => s1

/-- Every message that can be placed is placed, in order. -/
def State.flushNet (s : State) : State := s.flushFuel s.net.length

/-! The end of a task (R67, R141, R142). -/

/-- A ready context is about to leave its slot, or to park in it, without a turn of its own: its core was ready until now
(R171). -/
def State.leavesReady (s : State) (c : Context) : State :=
  if c.resident && !c.sched.parked && !c.sched.stopped && (c.sync.wait = .none || c.sync.grant.isSome) then
    s.setCore c.id.core { s.core c.id.core with readyAt := s.now }
  else s


/-- The records of a context that no supervisor has taken leave the trap queue (R346). -/
def State.dropTraps (s : State) (uid core : Nat) : State :=
  let k := s.core core
  if k.traps.any (fun r => r.uid = uid && !r.info) then
    s.setCore core { k with traps := k.traps.filter (fun r => !(r.uid = uid && !r.info)) }
  else s

/-- Monitors of an ending task exited one by one (R321); one whose page is away keeps the task, and its fault is
recorded once. -/
def State.abandon : Nat → State → Nat → State
  | 0, s, _ => s
  | n + 1, s, uid =>
    match s.ctx uid with
    | none => s
    | some c =>
      match c.sync.monitors with
      | [] => s
      | ia :: rest =>
        if s.objBusy ia then s
        else
        match s.objLoc ia with
        | (some loc, s1) =>
          ((s1.mapCtx uid (fun c => { c with sync := { c.sync with monitors := rest } })).monitorExit c.src ia loc 6
            ).abandon n uid
        | (none, _) =>
          if c.sync.wait = .record then s
          else (s.postFault (homeDie ia) ⟨0, ia, c.token, 6, 4, s.tstamp⟩).mapCtx uid (fun c =>
            { c with sync := { c.sync with wait := .record } })

/-- Nothing of the context remains: its resources go back, and its end is reported. -/
def State.finalEnd (s : State) (uid : Nat) (w : BitVec 32) : State :=
  match s.ctx uid with
  | none => s
  | some c =>
    let s1 := (s.closeHandles uid).endLease uid
    let s2 := c.mail.all.foldl (fun s _ => s.event (clusterOf c.id.core) 16) s1
    let s3 := s2.mapCtx uid (fun c => { c with
      sched := { c.sched with place := .ended, ending := none }, mail := ⟨[], [], none⟩ })
    let s4 : State := { s3 with
      others := s3.others.filter (fun c => c.id.uid != uid)
      accounts := s3.accounts.map (fun a => if a.uid = uid then { a with ended := some s3.now } else a) }
    ((s4.reportEnd c.job.launch c.id.core w).flushNet).easeHalf (pkgOf c.id.core)

/-- A task that is ending ends once nothing of it is in flight and its monitors are exited. -/
def State.tryEnd (s : State) (uid : Nat) : State :=
  match s.ctx uid with
  | none => s
  | some c =>
    match c.sched.ending with
    | none => s
    | some w =>
      let s1 := s.drainAll uid
      match s1.ctx uid with
      | none => s1
      | some c1 =>
        if !c1.io.quiet then s1
        else
          let s2 := s1.abandon 9 uid
          match s2.ctx uid with
          | none => s2
          | some c2 => if c2.sync.monitors.isEmpty then s2.finalEnd uid w else s2

/-- The task ends with a status word: an open region aborts (R67), waits are given up, and what is in flight drains. -/
def State.endTask (s : State) (uid : Nat) (w : BitVec 32) : State :=
  match s.ctx uid with
  | none => s
  | some c =>
    if c.sched.ending.isSome then s
    else
      let s1 := if c.sync.region.isSome then s.glazeAbort uid 5 else s
      let s2 := ((s1.squashOf uid).leaveEntryQueue uid).dropTraps uid c.id.core
      (s2.mapCtx uid (fun c => { c with
        sched := { c.sched with ending := some w, parked := false, toSafe := none }
        sync := { c.sync with wait := .none, grant := none } })).tryEnd uid

/-! Saving (R188, R228, R356). -/

/-- Whether a wait counts as blocked on a barrier, a monitor or a ring for R63 (R145, R278, R285, R316, R319, R333). -/
def Wait.evictable (w : Wait) : Bool :=
  match w with
  | .barrier _ => true
  | .monitor _ => true
  | .entry _ => true
  | .object _ => true
  | .ring _ _ => true
  | .message => true
  | .reply => true
  | .target _ => true
  | _ => false


/-- Whether a wait is that of a CWAIT. -/
def Wait.ofObject (w : Wait) : Bool :=
  match w with
  | .object _ => true
  | _ => false

/-- A save or restore that meets a fault on its frame (R355): logged, and the context ends with MACHINE_CHECK. -/
def State.frameFault (s : State) (uid cause : Nat) : State :=
  match s.ctx uid with
  | none => s
  | some c =>
    (s.machineCheck (dieOf c.id.core) c.frameIa (unitCore c.id.core) 7 cause c.token (BitVec.ofNat 64 c.frameIa)).endTask
      uid 0

/-- A tile without cells. -/
def Tile.bare (t : Tile) : Tile := { t with cells := [] }

/-- Tile names without cells. -/
def bareTiles (ts : Vector (Option Tile) 8) : Vector (Option Tile) 8 := ts.map (fun t => t.map Tile.bare)

/-- A context that gives up its cells, but for those of its tile stores that have not drained (R228). -/
def Context.bare (c : Context) : Context :=
  { c with
    reg := { c.reg with t := bareTiles c.reg.t }
    job := { c.job with cells := [] }
    sync := { c.sync with region := c.sync.region.map (fun r => { r with
      freed := [], ckpt := { r.ckpt with t := bareTiles r.ckpt.t } }) } }

/-- A resident context saved to its frame; safe is the live map of a safe-point frame (R360). Its inbox goes into the
frame's inbox area, its slot and its reservation are free. -/
def State.saveContext (s : State) (uid : Nat) (why : Saved) (safe : Option LiveMap) : State :=
  match s.ctx uid with
  | none => s
  | some c =>
    if !c.resident then s
    else
      let live := safe.getD LiveMap.all
      let c1 : Context := { c with
        reg := c.reg.alive live
        sched := { c.sched with place := .frame why, savedAt := s.now, toSafe := none }
        mail := { c.mail with inbox := [], frame := c.mail.all } }
      let s0 := (if c.sync.wait.evictable then s
        else s.setCore c.id.core { s.core c.id.core with readyAt := s.now }).squashOf uid
      match s0.saveFrame c1 safe.isSome live with
      | (some cause, s1) => s1.frameFault uid cause
      | (none, s1) => ((s1.mapCtx uid (fun _ => c1.bare)).flushNet).easeHalf (pkgOf c.id.core)

/-! Traps (R340 to R349, R353). -/

/-- The fields of ECAUSE (R343). -/
def ecauseOf (cause slot : Nat) (long : Bool) (edepth : Nat) (gz late : Bool) : Word :=
  BitVec.ofNat 64 (cause % 2 ^ 8 + slot % 8 * 2 ^ 8 + long.toNat * 2 ^ 11 + edepth % 4 * 2 ^ 12 + gz.toNat * 2 ^ 14 +
    late.toNat * 2 ^ 15)

/-- A record appended to a core's trap queue. -/
def State.queueTrap (s : State) (core : Nat) (r : TrapRec) : State :=
  let k := s.core core
  s.setCore core { k with traps := k.traps ++ [r] }

/-- DOUBLE_FAULT (R349): the supervisor stops, and every context parked on the core ends. -/
def State.doubleFault (s : State) (c : Context) : State :=
  let core := c.id.core
  let s1 := s.mapCtx c.id.uid (fun c => { c with sched := { c.sched with stopped := true } })
  let s2 := s1.machineCheck (dieOf core) 0 (unitCore core) 4 0x0F c.token c.bits
  let s3 := s2.setCore core { s2.core core with dead := true }
  let parked := (s3.contexts.filter (fun c => c.live && c.sched.parked && c.id.core = core)).map (fun c => c.id.uid)
  parked.foldl (fun s u => s.endTask u 0) s3

/-- How a trap came about: raised by the device, by SVC or BKPT, by TRAP n, or by a late failure. -/
inductive Raised where
  | device | call | routine | late
deriving DecidableEq, Repr

/-- DeliverTrap (R342). info none keeps EADDR. A trap that TRAP n raises in an emulation routine keeps EPCX and LONG, which
name the emulated instruction (R353). -/
def State.deliverTrap (s : State) (uid cause : Nat) (info : Option Word) (how : Raised) : State :=
  match s.ctx uid with
  | none => s
  | some c =>
    if c.id.sup then s.doubleFault c
    else
      let gz := c.sync.region.isSome
      let s0 := s.squashOf uid
      let s1 := if gz then s0.glazeAbort uid 4 else s0
      match s1.ctx uid with
      | none => s1
      | some c1 =>
        let routine : Bool := how = .routine && c1.reg.edepth = 1
        let epcx := if routine && !gz then c1.reg.epcx else c1.reg.pc
        let eaddr := info.getD c1.reg.eaddr
        if (s1.core c.id.core).dead then s1.endTask uid 0
        else if (cause = 1 || cause = 2) && c1.reg.edepth = 1 && !gz && how != .routine then
          (s1.endTask uid 0).queueTrap c.id.core
            ⟨uid, true, ecauseOf 0x12 c.id.slot c.long 2 false false, epcx, eaddr⟩
        else
          let depth := if routine then 0 else c1.reg.edepth
          let ec := ecauseOf cause c.id.slot (if routine then c1.reg.ecause.getLsbD 11 else c.long) depth gz (how = .late)
          let pc := if how = .call then epcx + 4 else epcx
          let s2 := s1.mapCtx uid (fun c => { c with
            reg := { c.reg with ecause := ec, epcx := epcx, eaddr := eaddr, pc := pc, edepth := depth }
            sched := { c.sched with parked := true }
            sync := { c.sync with wait := .none, grant := none } })
          s2.queueTrap c.id.core ⟨uid, false, ec, epcx, eaddr⟩

/-- A precise page fault of a context (R188): a record, and the context saved; in the supervisor a double fault. A wait that
has been granted is kept, so that its instruction takes the grant when it is replayed (R312, R316, R319), and so is one for an
object, whose end is then granted while the context is away (R145). -/
def State.pageFault (s : State) (uid kind level ia : Nat) (va : Word) : State :=
  match s.ctx uid with
  | none => s
  | some c =>
    if c.id.sup then s.doubleFault c
    else
      let s1 := s.postFault (homeDie ia) ⟨va, ia, c.token, kind, level, s.tstamp⟩
      (s1.mapCtx uid (fun c => { c with sync := { c.sync with
        wait := if c.sync.grant.isSome || c.sync.wait.ofObject then c.sync.wait else .none } })).saveContext uid
        (.fault (ia / 2 ^ 15) ia va) none |>.event (clusterOf c.id.core) 25

end Sys2Proof.Machine
end

