-- ==== Sys2Proof/Machine/Schedule.lean ====
section
/-! DEFINITION. Schedule.lean: the hardware scheduler: which saved context is ready, restore, eviction, dispatch, cancel
of descendants, streaming graphs (R54, R59 to R69, R188, R260, R274, R295, R375). -/

namespace Sys2Proof.Machine

/-! What is taken and held. -/

/-- Whether a launch is CORESIDENT and unfinished. -/
def State.isCoresident (s : State) (num : Nat) : Bool :=
  s.launches.any (fun l => l.num = num && l.coresident && !l.finished)

/-- What admitted CORESIDENT launches hold, with the easels that their tasks would be given in turn. -/
def State.held (s : State) : List Item :=
  (s.launches.filter (fun l => !l.finished && l.coresident)).foldl
    (fun its l => l.places.foldl (fun its core => placed its l.demands l.num core :: its) its) []

/-- What counts against a task of a launch (R62): for a CORESIDENT one what is really taken, for another also what
CORESIDENT launches hold, and what other launches keep until they end (R141). -/
def State.load (s : State) (num : Nat) : List Item :=
  if s.isCoresident num then s.items
  else s.items.filter (fun i => !s.isCoresident i.launch) ++ s.held ++
    s.keeps.filter (fun i => !s.isCoresident i.launch)

/-! Waits. -/

/-- Whether a ring gives what an instruction wants of it. -/
def State.ringGives (s : State) (c : Context) (idx : Nat) (need : RingNeed) : Bool :=
  match s.ring (clusterOf c.id.core) idx with
  | none => true
  | some r =>
    match need with
    | .claim p => r.mayClaim (.handle c.id.uid p)
    | .slot k => r.hasSlot k || (match r.subs[k]? with
        | none => true
        | some u => r.deliverable u)
    | .room n => decide (n ≤ r.free)

/-- Whether what a context waits for has come: for a barrier, a monitor, an object or an answer, that a status has been given
(R144, R316, R319), for an object and a message also that the deadline has passed; for an edge that no predecessor is waited for (R328). -/
def State.waitOver (s : State) (c : Context) : Bool :=
  c.sync.grant.isSome ||
  (match c.sync.wait with
    | .barrier _ => false
    | .monitor _ => false
    | .reply => false
    | .target _ => false
    | .record => !(s.core c.id.core).traps.isEmpty
    | .entry _ => s.dies.any (fun d => d.2.reserved.any (fun r => r.1 = c.id.uid))
    | .object _ => s.overdue c
    | .ring idx need => s.ringGives c idx need
    | .message => !c.mail.all.isEmpty || s.overdue c
    | .edge => (match c.sync.region with
        | none => true
        | some r => r.pending.isEmpty && (!r.ending || r.edges.isEmpty))
    | _ => true)

/-- Whether a context has been off-core for more than n ns since its save; it is not while it is parked (R363). -/
def State.awayOver (s : State) (c : Context) (n : Nat) : Bool :=
  match c.sched.place with
  | .frame _ => decide (n < s.elapsed c.sched.savedAt)
  | _ => false

/-! Restore (R65, R69, R188, R260, R295). -/

/-- Whether a saved context would be restored if its class were not shed and a slot were free. -/
def State.wakes (s : State) (c : Context) : Bool :=
  c.live && !c.sched.parked && c.sched.ending.isNone &&
  (match c.sched.place with
    | .frame (.failed _) => true
    | .frame .preempted => true
    | .frame .evicted => s.waitOver c
    | _ => false)

/-- Tasks of a launch that are resident. -/
def State.residents (s : State) (num : Nat) : List Context :=
  s.contexts.filter (fun c => c.resident && !c.id.sup && c.job.launch = num)

/-- Whether n more tasks of a launch may be resident: a stage has at most SLOTMAX (R68). -/
def State.stageRoom (s : State) (l : Launch) (n : Nat) : Bool :=
  !l.stage || decide ((s.residents l.num).length + n ≤ l.slotmax)

/-- The core on which a saved context is restored: its own where a core set or a CORESIDENT launch binds it, in its own
cluster where a ring handle binds it or there is room, else where R69 places it: a task of a GROUP launch on a string
without another one. No core of a package in which its class is shed takes it (R375). -/
def State.restoreCore (s : State) (c : Context) : Option Nat :=
  match s.launch c.job.launch with
  | none => none
  | some l =>
    let its := s.load l.num
    let ok (core : Nat) : Bool := !(s.freeSlots core).isEmpty && !(s.classShed (pkgOf core) c.reg.cls)
    let own : Option Nat := if 1 < c.job.group then groupCore its l.demands l.num ok (stringOf c.id.core)
      else bestCore its l.demands l.num ok (clusterOf c.id.core)
    if !(s.stageRoom l 1) then none
    else if 1 < c.job.coreset then (if fits its l.demands l.num ok c.id.core then some c.id.core else none)
    else if c.reg.p.toList.any (fun h => h.isSome) || c.job.coresident then own
    else match own with
      | some core => some core
      | none => (choosePlaces its (s.regionStrings (s.eligible l.pkgmask l.diemask)) { l.demands with coreset := 0 } l.num 1 0
          none none ok).bind (fun r => r.1.head?)

/-- Free cells for a new tile of a context on an easel (R220): those of its reservation, and the unreserved ones. -/
def State.roomOn (s : State) (c : Context) (e : Nat) : List Nat × List Nat :=
  let held := s.heldCells.on e
  ((c.job.cells.on e).filter (fun k => !(held.contains k)), s.unreserved e)

/-- n cells taken for a context on an easel, those of its reservation first; none where there are too few. -/
def State.takeCells (s : State) (c : Context) (e n : Nat) : Option (List Nat) × State :=
  let (own, rest) := s.roomOn c e
  match State.pick (min n own.length) own s with
  | (none, _) => (none, s)
  | (some a, s1) =>
    match State.pick (n - min n own.length) rest s1 with
    | (none, _) => (none, s)
    | (some b, s2) => (some (a ++ b), s2)

/-- Cells that a tile takes on each easel that holds some of it (R219, R236). -/
def Tile.needs (t : Tile) (easel string : Nat) : List (Nat × Nat) :=
  if t.group then ((stringEasels string).zip (groupCells t.rows t.cols (fmtWidth t.tag))).filter (fun q => q.2 != 0)
  else [(easel, tileCells t.rows t.cols t.tag)]

/-- Cells taken on each of some easels for the context of a number, as it then stands. -/
def State.cellsFor (s : State) (uid : Nat) : List (Nat × Nat) → Cells × State
  | [] => ([], s)
  | (e, n) :: rest =>
    match s.ctx uid with
    | none => ([], s)
    | some c =>
      match s.takeCells c e n with
      | (none, s1) => s1.cellsFor uid rest
      | (some ks, s1) =>
        let (cs, s2) := s1.cellsFor uid rest
        ((e, ks) :: cs, s2)

/-- The global number of the bound easel of a context. -/
def Context.boundEasel (c : Context) : Nat := clusterOf c.id.core * 4 + c.job.easel.getD 0

/-- A restored tile name given cells; the checkpoint of an open region shares them where it holds the same tile, and else
takes cells of its own, which a commit frees (R228, R326). -/
def State.rehouse (s : State) (uid : Nat) (n : Fin 8) : State :=
  match s.ctx uid with
  | none => s
  | some c =>
    let place (t : Tile) (s : State) : Tile × State :=
      let (cs, s1) := s.cellsFor uid (t.needs c.boundEasel (stringOf c.id.core))
      ({ t with cells := cs }, s1)
    let old : Option Tile := c.sync.region.bind (fun r => r.ckpt.t[n])
    let s1 : State := match c.reg.t[n] with
      | none => s
      | some t =>
        let (t1, s1) := place t s
        s1.mapCtx uid (fun c => { c with
          reg := { c.reg with t := c.reg.t.set n (some t1) }
          sync := { c.sync with region := c.sync.region.map (fun r =>
            if old = some t then { r with ckpt := { r.ckpt with t := r.ckpt.t.set n (some t1) } } else r) } })
    match old with
    | none => s1
    | some t =>
      if c.reg.t[n] = some t then s1
      else
        let (t1, s2) := place t s1
        s2.mapRegion uid (fun r => { r with
          ckpt := { r.ckpt with t := r.ckpt.t.set n (some t1) }, freed := r.freed ++ t1.cells })

/-- The easels on which a task reserves its cells: its bound one, or every one of its string (R218, R236). -/
def reserveEasels (tcells group core easel : Nat) : List Nat :=
  if tcells = 0 then [] else if 1 < group then stringEasels (stringOf core) else [clusterOf core * 4 + easel]

/-- The subscriptions of a context for its bound easel follow it to another one of its cluster (R228, R260). -/
def State.rebind (s : State) (c : Context) (easel : Nat) : State :=
  let cl := clusterOf c.id.core
  let v := s.cluster cl
  s.setCluster cl { v with rings := v.rings.map (fun q => (q.1, { q.2 with subs := q.2.subs.map (fun u =>
    if u.owner = c.id.uid && u.easel = c.job.easel && c.job.group ≤ 1 && u.easel.isSome then { u with easel := some easel }
    else u) })) }

/-- A context whose class is shed enters SHED in place of being restored, and keeps a failure that it has still to take
(R375, R376). -/
def State.enterShed (s : State) (uid : Nat) : State :=
  let s1 := s.mapCtx uid (fun c => { c with sched := { c.sched with place := .frame (.shed (match c.sched.place with
    | .frame (.failed va) => some va
    | _ => none)) } })
  match s1.ctx uid with
  | none => s1
  | some c => s1.frameField uid 0x50 (powerBytes c)

/-- A launch's space after one of its tasks has come to a core (R141): it keeps the most TCM that its resident tasks have taken
on the core, and the most palette that they have taken in the cluster. -/
def State.keepSpace (s : State) (num core : Nat) : State :=
  let here := s.residents num
  let cl := clusterOf core
  s.mapLaunch num (fun l =>
    let tcm := (here.filter (fun c => c.id.core = core)).length * l.demands.tcm
    let pal := (here.filter (fun c => clusterOf c.id.core = cl)).length * l.demands.pal
    { l with
      tcmKept := if tcm ≤ tabGet 0 l.tcmKept core then l.tcmKept else tabPut l.tcmKept core tcm
      palKept := if pal ≤ tabGet 0 l.palKept cl then l.palKept else tabPut l.palKept cl pal })

/-- A context read back from its frame into a slot of a core. -/
def State.restoreTo (s : State) (c : Context) (core slot : Nat) : State :=
  let uid := c.id.uid
  match s.readFrame c with
  | (.error cause, s1) => s1.frameFault uid cause
  | (.ok c1, s1) =>
    let easel := if c.job.tcells = 0 then none else some (easelChoice (s1.load c.job.launch) (clusterOf core))
    let (cells, s2) := s1.reserveOn c.job.tcells (reserveEasels c.job.tcells c.job.group core (easel.getD 0))
    let c2 : Context := { c1 with
      id := { c1.id with core := core, slot := slot, gen := s2.nextGen, rob := 0 }
      job := { c1.job with easel := easel, cells := cells.getD [] }
      sched := { c1.sched with place := .slot }
      power := { c1.power with afterBarw := false } }
    let moved : Bool := match c2.power.lease with
      | none => false
      | some l => l.string != stringOf core
    let lobj := match s2.launch c2.job.launch with
      | none => 0
      | some l => l.lobj
    let s3 : State := { s2.mapCtx uid (fun _ => c2) with
      nextGen := s2.nextGen + 1, accounts := s2.accounts ++ [⟨uid, c2.token, lobj, s2.now, none, [], []⟩] }
    let s4 := (if c.job.easel = easel then s3 else s3.rebind c1 (easel.getD 0))
    let s5 := (List.finRange 8).foldl (fun s n => s.rehouse uid n) s4
    let s6 := ((if moved then s5.endLease uid else s5).refill uid).keepSpace c.job.launch core
    match c.sched.place with
    | .frame (.failed va) => s6.deliverTrap uid 0x06 (some va) .device
    | _ => s6

/-! Dispatch (R54, R61, R62, R64, R69). -/

/-- The unfinished launches that stand before a launch in its queue let it dispatch (R61): an earlier one that is DISPATCHED,
where OVERLAP is set. The manual names partitions and does not define them: the socket group is one here, with one set of
queues (log 96). -/
def State.queueOpen (s : State) (l : Launch) : Bool :=
  s.launches.all (fun k => k.finished || k.queue != l.queue || l.num ≤ k.num ||
    (l.overlap && decide (k.total ≤ k.next)))

/-- Whether R13, R61 and R67 permit the dispatch of a launch. -/
def State.permitted (s : State) (l : Launch) : Bool :=
  !l.finished && l.next < l.total && l.dropped = 0 && !(s.cancelling l.num) && s.queueOpen l &&
  (match l.prev with
    | none => true
    | some ia => s.objState ia = 2 || s.objState ia = 4)

/-- How many tasks of a launch are placed together: a core set only whole (R295). -/
def Launch.together (l : Launch) : Nat := if 1 < l.demands.coreset then min l.demands.coreset (l.total - l.next) else 1

/-- Whether a launch may dispatch now, wherever its next task fits. -/
def State.mayDispatch (s : State) (l : Launch) : Bool := s.permitted l && s.stageRoom l l.together

/-- Whether a core may take a task of a launch: in its region, its class not shed, a mailbox address free (R274). -/
def State.coreOpen (s : State) (l : Launch) (core : Nat) : Bool :=
  (s.eligible l.pkgmask l.diemask).contains (dieOf core) && !(s.classShed (pkgOf core) l.cls) &&
  !(s.freeCids core).isEmpty

/-- Whether tasks of a launch fit on cores now. -/
def State.fitsNow (s : State) (l : Launch) (cores : List Nat) : Bool :=
  fitAll l.demands l.num (fun core => s.coreOpen l core && !(s.freeSlots core).isEmpty) (s.load l.num) cores

/-- The cores for the next tasks of a launch that are placed together, and the string of their set. -/
def State.target (s : State) (l : Launch) : Option (List Nat × Option Spread) :=
  if l.coresident then
    if l.next < l.places.length then some ((l.places.drop l.next).take l.together, none) else none
  else
    choosePlaces (s.load l.num) (s.regionStrings (s.eligible l.pkgmask l.diemask)) l.demands l.num l.total l.next l.set
      l.used.getLast? (fun core => s.coreOpen l core && !(s.freeSlots core).isEmpty)

/-- Priority of a launch (R61). -/
def Launch.priority (l : Launch) : Nat := l.queue / 16

/-- The first object of a launch whose page is away. -/
def State.missing (s : State) (l : Launch) : Option Nat :=
  (l.lobjIa :: l.chain).find? (fun ia => (s.objLoc ia).1.isNone)

/-- Whether a cluster has room for the frames of a task of a launch. -/
def State.framesFor (s : State) (l : Launch) (core : Nat) : Bool :=
  ((s.takeFrames (clusterOf core) (extensionBytes l.demands.tcells l.demands.group)).1).isSome

/-- Whether a task of a launch could be dispatched into a free slot of a core now (R61). -/
def State.couldTake (s : State) (l : Launch) (core : Nat) : Bool :=
  let its := s.load l.num
  let ok (core : Nat) : Bool := s.coreOpen l core && !(s.freeSlots core).isEmpty
  s.mayDispatch l && (s.missing l).isNone && s.framesFor l core &&
  (if l.coresident then ((l.places.drop l.next).take l.together).contains core && fits its l.demands l.num ok core
   else if 1 < l.demands.group then core % 16 < 4 && (groupCore its l.demands l.num ok (stringOf core)).isSome &&
     fits its l.demands l.num ok core
   else if 1 < l.demands.coreset then ((setCores its l.demands l.num ok l.together (stringOf core)).getD []).contains core
   else fits its l.demands l.num ok core)

/-- Whether a saved context that wakes has to leave a core to other work (R61, R62): a launch of higher priority, or a
CORESIDENT one beside a task of another, that fits a free slot there, or a saved task of higher priority that would be
restored there. -/
def State.yields (s : State) (c : Context) (core : Nat) : Bool :=
  match s.launch c.job.launch with
  | none => false
  | some l =>
    s.launches.any (fun k => k.num != l.num && s.couldTake k core &&
      (if k.coresident = l.coresident then decide (l.priority < k.priority) else k.coresident)) ||
    s.contexts.any (fun d => d.id.uid != c.id.uid && s.wakes d && !(s.classShed (pkgOf d.id.core) d.reg.cls) &&
      (match s.launch d.job.launch with
        | none => false
        | some k => (if k.coresident = l.coresident then decide (l.priority < k.priority) else k.coresident) &&
            s.restoreCore d = some core))

/-- A saved context restored into a free slot of a core. A region that has been off-core for more than 100 µs aborts before
its context could go on (R330). -/
def State.restoreOn (s : State) (c : Context) (core : Nat) : State :=
  let s0 := if s.awayOver c 100000 then s.glazeAbort c.id.uid 6 else s
  match s0.ctx c.id.uid, s0.choose (s0.freeSlots core) with
  | some c0, (some slot, s1) => s1.restoreTo c0 core slot
  | _, _ => s0

/-- CONTEXT_RESTORE. -/
def State.restore (s : State) (uid : Nat) : State :=
  match s.ctx uid with
  | none => s
  | some c =>
    if !(s.wakes c) then s
    else if s.classShed (pkgOf c.id.core) c.reg.cls then s.enterShed uid
    else
      match s.restoreCore c with
      | none => s
      | some core => if s.yields c core then s else s.restoreOn c core

/-- Whether a stage has no more resident tasks than SLOTMIN, so that none of them is to leave (R68). -/
def State.atMinimum (s : State) (c : Context) : Bool :=
  match s.launch c.job.launch with
  | none => false
  | some l => l.stage && decide ((s.residents l.num).length ≤ l.slotmin)

/-- The tasks that leave first to make room on cores for tasks of a CORESIDENT launch that are placed together (R62, R295): of
the resident tasks of other launches that take what these lack there, those whose stage keeps SLOTMIN without them, then the
first in the model's order. Which leaves first the manual does not say (log 88). -/
def State.inTheWay (s : State) (l : Launch) (cores : List Nat) : Option Context :=
  let short := shorts l.demands l.num (s.load l.num) cores
  let able := s.contexts.filter (fun c => c.resident && !c.id.sup && !c.job.coresident && c.sched.ending.isNone &&
    !c.sched.parked && short.any (fun f => f (s.taskItem c)))
  match able.find? (fun c => !(s.atMinimum c)) with
  | some c => some c
  | none => able.head?

/-- Resident tasks of launches without CORESIDENT leave cores until the tasks of a CORESIDENT launch that are placed there
together fit (R62). Fuel: the contexts. -/
def State.makeRoom : Nat → State → Launch → List Nat → State
  | 0, s, _, _ => s
  | n + 1, s, l, cores =>
    if !(cores.all (s.coreOpen l)) then s
    else
      match s.inTheWay l cores with
      | none => s
      | some c =>
        ((s.saveContext c.id.uid (if c.sync.wait.evictable then .evicted else .preempted) none).event
          (clusterOf c.id.core) 26).makeRoom n l cores

/-- Room made for the next tasks of a launch where it is CORESIDENT. -/
def State.cleared (s : State) (l : Launch) (cores : List Nat) : State :=
  if l.coresident then s.makeRoom s.contexts.length l cores else s

/-- Whether a CORESIDENT launch has a task that can be dispatched now. -/
def State.residentFirst (s : State) (k : Launch) : Bool :=
  k.coresident && s.mayDispatch k && (s.missing k).isNone &&
  (match s.target k with
    | none => false
    | some (cores, _) =>
      let s1 := s.cleared k cores
      s1.fitsNow k cores && cores.all (s1.framesFor k))

/-- Whether other work comes before tasks of a launch on cores (R61 to R63): a CORESIDENT launch that can dispatch, a launch
of higher priority that fits one of the slots, or a saved task that is ready. but is left out. -/
def State.outranked (s : State) (l : Launch) (cores : List Nat) (but : Option Nat) : Bool :=
  (!l.coresident && s.launches.any (fun k => k.num != l.num && s.residentFirst k)) ||
  s.launches.any (fun k => k.num != l.num && k.coresident = l.coresident && l.priority < k.priority &&
    cores.any (s.couldTake k)) ||
  (!l.coresident && s.contexts.any (fun c => some c.id.uid != but && s.wakes c &&
    !(s.classShed (pkgOf c.id.core) c.reg.cls) &&
    (match s.launch c.job.launch with
      | none => false
      | some k => l.priority ≤ k.priority) && (s.restoreCore c).isSome))

/-- The context of a task at its first dispatch (R54, R218, R274, R355, R357). R217 leaves the first number of a slot to the
device: here it is 0 with generation bit 0, after a restore as after a dispatch. DESIGN CHOICE (log 119). Unsafe. -/
def State.newContext (s : State) (l : Launch) (core slot cid frame ext : Nat) (easel : Option Nat) (cells : Cells) :
    Context :=
  let t := l.next
  let x := t % l.dimx
  let y := t / l.dimx % l.dimy
  let z := t / (l.dimx * l.dimy)
  let c := Context.reset s.nextUid core slot false
  let r := c.reg
  { c with
    id := ⟨s.nextUid, core, slot, false, core, cid, s.nextGen, 0⟩
    reg := { r with
      pc := l.entry
      x := (r.x.set 10 l.arg).set 11 l.record
      sg := if l.segMode then l.segs else r.sg
      segMode := l.segMode
      amap := (s.core core).ranges
      tcoord := BitVec.ofNat 64 (z * 2 ^ 32 + y * 2 ^ 16 + x)
      tlaunch := l.lobj
      cls := l.cls
      spillbase := BitVec.ofNat 64 frame }
    job := ⟨l.num, t, l.cls, l.demands.tcells, easel, cells, l.demands.group, l.demands.coreset, l.coresident⟩
    order := ⟨none, 0, [], s.now⟩
    sched := { c.sched with xbase := ext, xsize := extensionBytes l.demands.tcells l.demands.group } }

/-- The first dispatch beneath an object: TSTART (R55). -/
def State.startObject (s : State) (ia : Nat) : State :=
  match s.objLoc ia with
  | (some loc, s1) => if s1.numAt (loc + 0x28) 8 = 0 then s1.putNum (loc + 0x28) 8 s1.tstamp else s1
  | (none, _) => s

/-- DISP of a launch's object. -/
def State.putDisp (s : State) (ia disp : Nat) : State :=
  match s.objLoc ia with
  | (some loc, s1) => s1.putNum (loc + 0x0A) 1 disp
  | (none, _) => s

/-- DISP of a launch's object as it stands. -/
def State.dispOf (s : State) (ia : Nat) : Nat :=
  match (s.meet ia .read 0).1 with
  | .ok loc => s.numAt (loc + 0x0A) 1
  | _ => 0

/-- The entry of a launch for the turns of its priority (R61). -/
def State.noteTurn (s : State) (l : Launch) : State := { s with lastLaunch := tabPut s.lastLaunch l.priority l.num }

/-- The next task of a launch placed on a core; none where something it needs is taken. -/
def State.placeTask (s : State) (num core : Nat) : Option State :=
  match s.launch num with
  | none => none
  | some l =>
    match s.takeFrames (clusterOf core) (extensionBytes l.demands.tcells l.demands.group) with
    | (none, _) => none
    | (some (frame, ext), s1) =>
      let easel := if l.demands.tcells = 0 then none else some (easelChoice (s1.load l.num) (clusterOf core))
      match s1.reserveOn l.demands.tcells (reserveEasels l.demands.tcells l.demands.group core (easel.getD 0)) with
      | (none, _) => none
      | (some cells, s2) =>
        match s2.choose (s2.freeSlots core) with
        | (none, _) => none
        | (some slot, s3) =>
          match s3.choose (s3.freeCids core) with
          | (none, _) => none
          | (some cid, s4) =>
            let c := s4.newContext l core slot cid frame ext easel cells
            let s5 : State := { s4 with
              others := s4.others ++ [c]
              nextUid := s4.nextUid + 1
              nextGen := s4.nextGen + 1
              accounts := s4.accounts ++ [⟨c.id.uid, c.token, l.lobj, s4.now, none, [], []⟩] }
            let s6 := (l.lobjIa :: l.chain).foldl State.startObject s5
            some (((s6.mapLaunch num (fun l => { l with next := l.next + 1, used := l.used ++ [core], stalled := false })).putDisp
              l.lobjIa (if l.next + 1 = l.total then 2 else 1)).keepSpace num core)

/-- The next tasks of a launch placed together, all of them or none. -/
def State.placeTasks (s : State) (l : Launch) (cores : List Nat) (set : Option Spread) : Option State :=
  (cores.foldlM (fun (s : State) core => s.placeTask l.num core) s).map (fun s1 =>
    (s1.noteTurn l).mapLaunch l.num (fun l => { l with set := set }))

/-- A launch that R61 permits to dispatch is DISPATCHING (R66). -/
def State.openLaunch (s : State) (l : Launch) : State :=
  if s.permitted l && (s.missing l).isNone && s.dispOf l.lobjIa = 0 then s.putDisp l.lobjIa 1 else s

/-- The next tasks of a launch placed where the rules let them be, or nothing changes. -/
def State.dispatchNext (s : State) (l : Launch) : State :=
  match s.target l with
  | none => s
  | some (cores, set) =>
    let s0 := s.cleared l cores
    if !(s0.fitsNow l cores) || s0.outranked l cores none then s0 else (s0.placeTasks l cores set).getD s0

/-- TASK_DISPATCH: one task of a launch, or one core set, is placed where the rules let it be, or nothing changes. -/
def State.dispatch (s : State) (lobj : Nat) : State :=
  match s.launchOf lobj with
  | none => s
  | some l =>
    if !(s.permitted l) then s
    else
      match s.missing l with
      | some ia =>
        if l.stalled then s
        else (s.postFault (homeDie ia) ⟨0, ia, 0, 6, 4, s.tstamp⟩).mapLaunch l.num (fun l => { l with stalled := true })
      | none =>
        if (l.lobjIa :: l.chain).any s.objBusy then s
        else
          let s1 := s.openLaunch l
          if s1.mayDispatch l then s1.dispatchNext l else s1

/-! Eviction (R63). -/

/-- Whether a task of a launch without CORESIDENT has been blocked for more than 20 µs and may leave. A stage keeps SLOTMIN
tasks (R68). -/
def State.blockedLong (s : State) (c : Context) : Bool :=
  c.resident && !c.id.sup && !c.job.coresident && c.sync.wait.evictable && !(s.waitOver c) && !c.sched.parked &&
  c.sched.ending.isNone && decide (20000 < s.elapsed c.sync.since) && !(s.atMinimum c)

/-- Whether tasks that find no place now find one once every task that is blocked for long has left, and a context takes
what they lack there (R64): those of a launch that are placed together, or a saved task that wakes. -/
def State.freesTogether (s : State) (c : Context) : Bool :=
  let s1 := s.mapAll (fun d => if s.blockedLong d then { d.bare with sched := { d.sched with place := .frame .evicted } } else d)
  let hits (l : Launch) (cores : List Nat) : Bool :=
    (shorts l.demands l.num (s.load l.num) cores).any (fun f => f (s.taskItem c))
  s.launches.any (fun l => (match s.target l with
      | none => true
      | some (cores, _) => !(s.fitsNow l cores)) &&
    (match s1.target l with
      | none => false
      | some (cores, _) => s1.mayDispatch l && (s1.missing l).isNone && s1.fitsNow l cores && cores.all (s1.framesFor l) &&
          hits l cores)) ||
  s.contexts.any (fun d => d.id.uid != c.id.uid && s.wakes d && !(s.classShed (pkgOf d.id.core) d.reg.cls) &&
    (s.restoreCore d).isNone &&
    (match s1.restoreCore d, s.launch d.job.launch with
      | some core, some l => hits l [core]
      | _, _ => false))

/-- Whether another task could use what a resident context takes: one not yet dispatched, or one that wakes, in its slot, or
tasks that need several blocked ones to leave. -/
def State.wanted (s : State) (c : Context) : Bool :=
  let s1 := s.mapCtx c.id.uid (fun c => { c.bare with sched := { c.sched with place := .frame .evicted } })
  let cl := clusterOf c.id.core
  s1.launches.any (fun l => (List.range 4).any (fun k => s1.couldTake l (cl * 4 + k) && !(s.couldTake l (cl * 4 + k)))) ||
  s1.contexts.any (fun d => d.id.uid != c.id.uid && s1.wakes d && !(s1.classShed (pkgOf d.id.core) d.reg.cls) &&
    (s.restoreCore d).isNone && ((s1.restoreCore d).map clusterOf = some cl)) ||
  s.freesTogether c

/-- Whether a blocked task of a launch without CORESIDENT is to leave after 20 µs (R63). -/
def State.mayEvict (s : State) (c : Context) : Bool := s.blockedLong c && s.wanted c

/-- TASK_EVICT. -/
def State.evict (s : State) (uid : Nat) : State :=
  match s.ctx uid with
  | none => s
  | some c => if s.mayEvict c then (s.saveContext uid .evicted none).event (clusterOf c.id.core) 26 else s

/-! Cancel of descendants (R67). -/

/-- The tasks of a CANCELLING launch: those not dispatched count as ended, those away from a slot end, and resident ones
end at their next boundary. -/
def State.cancelTasks (s : State) (l : Launch) : State :=
  let left := l.total - l.next - l.dropped
  let s1 := s.mapLaunch l.num (fun l => { l with dropped := l.dropped + left })
  let s2 := if left = 0 then s1 else s1.homeFold l.num 5 0 left 0
  let mine := s2.contexts.filter (fun c => c.live && !c.id.sup && c.job.launch = l.num && c.sched.ending.isNone)
  mine.foldl (fun s c =>
    if c.resident then
      let s3 := s.mapCtx c.id.uid (fun c => { c with sched := { c.sched with cancelled := true } })
      { s3 with agenda := s3.agenda ++ [.cancelEnd c.id.uid] }
    else s.endTask c.id.uid 0) s2

/-- The mark of a cancel put on an object by its home slice, or none where its page is away or a live region has touched
it. -/
def State.markAt (s : State) (cause ia : Nat) : Option State :=
  if s.objBusy ia then none
  else match s.objLoc ia with
    | (some loc, s1) => some (s1.markCancelling loc cause)
    | (none, _) => none

/-- An object that could not be marked or read: the cancelled one keeps the step due, and a page that is away is asked for
once. -/
def State.unmarkedYet (s : State) (obj ia : Nat) : State :=
  if s.unmarked.contains obj then s
  else
    let s1 : State := { s with unmarked := s.unmarked ++ [obj] }
    if s.objBusy ia then s1 else s1.postFault (homeDie ia) ⟨0, ia, 0, 6, 4, s.tstamp⟩

/-- CANCEL_MARK_DESCENDANTS: the OPEN objects beneath an object are marked with its cause, whether or not a launch beneath
them is still unfinished, and the tasks of their launches end. An object whose page is away, the cancelled one itself among
them, keeps the step due. -/
def State.markDescendants (s : State) (obj : Nat) : State :=
  if s.objAway obj then s.unmarkedYet obj obj
  else if s.objState obj != 3 then { s with unmarked := s.unmarked.filter (· != obj) }
  else
    let cause := s.objCause obj
    let below := s.treeBelow obj
    let s0 : State := { s with unmarked := s.unmarked.filter (· != obj) }
    let marked := below.foldl (fun s ia => (s.markAt cause ia).getD s) s0
    let late := match below.find? (fun ia => marked.objBusy ia || (marked.objLoc ia).1.isNone) with
      | none => marked
      | some ia => if s.unmarked.contains obj then { marked with unmarked := marked.unmarked ++ [obj] }
          else marked.unmarkedYet obj ia
    ((s.launches.filter (fun l => !l.finished && (l.lobjIa :: l.chain).contains obj)).map (fun l => l.num)).foldl
      (fun s n => match s.launch n with
        | none => s
        | some l => if s.cancelling n then s.cancelTasks l else s) late

/-- TASK_CANCEL_END: a resident task that a cancel has reached ends at an instruction boundary. -/
def State.cancelEnd (s : State) (uid : Nat) : State :=
  match s.ctx uid with
  | none => s
  | some c => if c.sched.cancelled || s.cancelling c.job.launch then (s.leavesReady c).endTask uid 0 else s

/-! Streaming graphs (R68). -/

/-- Fill and Capacity of a hardware message ring. -/
def State.ringFill (s : State) (ia : Nat) : Nat × Nat :=
  ((s.numAt (ia + 0x10) 4 + 2 ^ 32 - s.numAt (ia + 0x14) 4) % 2 ^ 32, s.numAt ia 4)

/-- EvictOne: a blocked task first, the one blocked longest, else the first resident one in the model's order, where the manual
names none (log 89). -/
def State.evictOne (s : State) (num : Nat) : Option Context :=
  let rs := (s.residents num).filter (fun c => !c.sched.parked && c.sched.ending.isNone)
  let blocked := rs.filter (fun c => c.sync.wait.evictable && !(s.waitOver c))
  match blocked.foldl (fun (b : Option Context) c => match b with
      | none => some c
      | some d => if c.sync.since < d.sync.since then some c else some d) none with
  | some c => some c
  | none => rs.head?

/-- Where a saved task of a stage goes once a task has left a core (R68): to that core if it fits there and nothing binds it
elsewhere, else where it is restored to. -/
def State.restoreInto (s : State) (c : Context) (core : Nat) : Option Nat :=
  match s.launch c.job.launch with
  | none => none
  | some l =>
    let ok (k : Nat) : Bool := !(s.freeSlots k).isEmpty && !(s.classShed (pkgOf k) c.reg.cls) &&
      (s.eligible l.pkgmask l.diemask).contains (dieOf k)
    let bound : Bool := if 1 < c.job.coreset then core != c.id.core
      else (c.reg.p.toList.any (fun h => h.isSome) || c.job.coresident || 1 < c.job.group) &&
        clusterOf core != clusterOf c.id.core
    if s.stageRoom l 1 && !bound && fits (s.load l.num) l.demands l.num ok core then some core else s.restoreCore c

/-- DispatchOne of a stage once a task of the cold stage has left a core: a saved task that is ready, else a new one, into
the freed slot if it fits there, else wherever it fits. -/
def State.dispatchOne (s : State) (h : Launch) (gone : Context) : State :=
  let at_ := gone.id.core
  match s.contexts.findSome? (fun d => if d.job.launch = h.num && s.wakes d && d.id.uid != gone.id.uid &&
      !(s.classShed (pkgOf d.id.core) d.reg.cls) then
        (s.restoreInto d at_).bind (fun core => if s.yields d core then none else some (d, core)) else none) with
  | some (d, core) => s.restoreOn d core
  | none =>
    let room (cores : List Nat) : Bool := s.fitsNow h cores && !(s.outranked h cores (some gone.id.uid))
    if !(s.mayDispatch h) || (s.missing h).isSome then s
    else if h.together = 1 && s.couldTake h at_ && room [at_] then (s.placeTasks h [at_] none).getD s
    else
      match s.target h with
      | none => s
      | some (cores, set) => if room cores then (s.placeTasks h cores set).getD s else s

/-- StreamRebalance: stages are the launches of the graph with STAGE set, in the order of their spawns. occ is compared
as a fraction; the first stage counts as full. A stage without QOUT, the last one, counts as having room on its output ring:
R68 gives a value only for the first stage. DESIGN CHOICE (log 118). Unsafe. A stage of a CORESIDENT launch is never cold
(R62). -/
def State.rebalance (s : State) (graph : Nat) : State :=
  let stages := s.launches.filter (fun l => !l.finished && l.stage && l.chain.head? = some graph)
  let occ (l : Launch) : Nat × Nat := if l.qin = 0 then (1, 1) else
    ((s.ringFill l.qin).1, max (s.ringFill l.qin).2 1)
  let more (a b : Nat × Nat) : Bool := b.1 * a.2 < a.1 * b.2
  let count (l : Launch) : Nat := (s.residents l.num).length
  let room (l : Launch) : Bool := l.qout = 0 ||
    decide (4 * (s.ringFill l.qout).1 < 3 * (s.ringFill l.qout).2)
  let hots := stages.filter (fun l => decide (3 * (occ l).2 ≤ 4 * (occ l).1) && decide (count l < l.slotmax) && room l)
  let colds := stages.filter (fun l => decide (4 * (occ l).1 ≤ (occ l).2) && decide (l.slotmin < count l) && !l.coresident)
  let hot := hots.foldl (fun (b : Option Launch) l => match b with
    | none => some l
    | some k => if more (occ l) (occ k) then some l else some k) none
  let cold := colds.foldl (fun (b : Option Launch) l => match b with
    | none => some l
    | some k => if more (occ k) (occ l) then some l else some k) none
  match hot, cold with
  | some h, some c =>
    match s.evictOne c.num with
    | none => s
    | some d => ((s.saveContext d.id.uid .evicted none).event (clusterOf d.id.core) 26).dispatchOne h d
  | _, _ => s

/-! What the scheduler has to do next when nothing else lays it down. -/

/-- Launches in turn (R61): by priority, the highest first, and in each from the one after the last that dispatched. -/
def State.inTurn (s : State) : List Launch :=
  [3, 2, 1, 0].flatMap (fun p =>
    let last := tabGet 0 s.lastLaunch p
    let mine := s.launches.filter (fun l => l.priority = p)
    mine.filter (fun l => last < l.num) ++ mine.filter (fun l => l.num ≤ last))

/-- Whether a dispatch of a launch would change something. -/
def State.ready (s : State) (l : Launch) : Bool :=
  s.permitted l &&
  (match s.missing l with
    | some _ => !l.stalled
    | none =>
      !((l.lobjIa :: l.chain).any s.objBusy) && s.mayDispatch l &&
      (match s.target l with
        | none => false
        | some (cores, set) =>
          let s0 := s.cleared l cores
          s0.fitsNow l cores && !(s0.outranked l cores none) && (s0.placeTasks l cores set).isSome))

/-- The next restore, dispatch or eviction that can go: a context that wakes and yields to no other work first (R61, R63), then
a launch that becomes DISPATCHING, then launches in turn, then a blocked task whose slot another one can use. -/
def State.schedule (s : State) : Option State :=
  match s.contexts.find? (fun c => s.wakes c &&
      (s.classShed (pkgOf c.id.core) c.reg.cls || (match s.restoreCore c with
        | none => false
        | some core => !(s.yields c core)))) with
  | some c => some (s.restore c.id.uid)
  | none =>
    match s.launches.find? (fun l => s.permitted l && (s.missing l).isNone && s.dispOf l.lobjIa = 0 &&
        !((l.lobjIa :: l.chain).any s.objBusy)) with
    | some l => some (s.openLaunch l)
    | none =>
      match s.inTurn.find? (fun l => s.ready l) with
      | some l => some (s.dispatch l.lobjIa)
      | none => (s.contexts.find? (fun c => s.mayEvict c)).map (fun c => s.evict c.id.uid)

end Sys2Proof.Machine
end

