-- ==== Sys2Proof/Machine/Control.lean ====
section
/-! DEFINITION. Control.lean: the registers of the control blocks and of the inbox windows as supervisors and the host
reach them (R7, R8, R184, R188, R239, R282, R284, R355, R362, R371, R380, R389). -/

namespace Sys2Proof.Machine

/-! PGREADY and PGFAIL (R184, R188). -/

/-- Whether the first part of a late store lies in a page. -/
def inPage (page : Nat) (ps : List (Nat × List Byte)) : Bool :=
  match ps with
  | [] => false
  | (ia, _) :: _ => ia / 2 ^ 15 = page

/-- The IA of the first part of a posted store, once its agent has mapped it (R285, R344). -/
def State.postedIa (s : State) (p : Posted) : Nat :=
  match p.parts with
  | [] => 0
  | (a, _) :: _ =>
    if p.global then (match s.mapGlobal a .write with
      | .ok ia => ia
      | .error _ => a)
    else a

/-- The page that a posted store waits for. -/
def State.postedPage (s : State) (p : Posted) : Option Nat :=
  if p.parts.isEmpty then none else some (s.postedIa p / 2 ^ 15)

/-- What of a context waits for a page goes on. -/
def State.wakeIo (s : State) (page : Nat) (c : Context) : State :=
  let posted := c.io.posted.map (fun p => if p.held && s.postedPage p = some page then { p with held := false } else p)
  let reds := c.io.reds.map (fun r => if r.held && r.ia / 2 ^ 15 = page then { r with held := false } else r)
  let drains := c.io.drains.map (fun d => if d.held && inPage page d.left then { d with held := false } else d)
  let s1 := s.mapCtx c.id.uid (fun c => { c with io := { c.io with posted := posted, reds := reds, drains := drains } })
  let due := (if posted != c.io.posted then [Duty.postedAck c.id.uid] else []) ++
    (if reds != c.io.reds then [Duty.redPerform c.id.uid] else []) ++
    (if drains != c.io.drains then [Duty.tileDrain c.id.uid] else [])
  { s1 with agenda := s1.agenda ++ due }

/-- PGREADY: every context saved on a fault in the page is ready, and what else waits for the page goes on. -/
def State.pageReady (s : State) (page : Nat) : State :=
  let s1 := s.contexts.foldl (fun s c => if c.live then s.wakeIo page c else s) s
  let s2 := s1.mapAll (fun c => match c.sched.place with
    | .frame (.fault p _ _) =>
      if p = page then { c with sched := { c.sched with place := .frame .preempted } } else c
    | _ => (match c.sync.wait with
      | .target ia => if ia / 2 ^ 15 = page && c.sync.grant.isNone then
          { c with sync := { c.sync with grant := some 0 } } else c
      | _ => c))
  let waiting := s2.ferry.filter (fun f => f.page = some (page, false))
  let kept := s2.nodes.filter (fun n => atHome 0 ≤ n.node)
  let agents := s2.cores.filter (fun k => k.2.spawnWait = some (page, false))
  let s3 : State := { s2 with
    ferry := s2.ferry.map (fun f => if f.page = some (page, false) then { f with page := none } else f)
    launches := s2.launches.map (fun l => { l with stalled := false })
    cores := s2.cores.map (fun k => if k.2.spawnWait = some (page, false) then
      (k.1, { k.2 with spawnWait := none }) else k) }
  { s3 with agenda := s3.agenda ++ waiting.map (fun f => Duty.ferry f.chain f.seq) ++
      ((s3.ferry.filter (fun f => f.chain / 2 ^ 15 = page)).map (fun f => f.chain)).eraseDups.map Duty.chainIdle ++
      agents.map (fun k => Duty.spawnMessage k.1) ++
      kept.filterMap (fun n => (s3.launch n.launch).map (fun l => Duty.treeForward l.lobjIa n.node)) ++
      s3.unmarked.map Duty.cancelMark }

/-- A context's late accesses to a failed page dropped and logged. -/
def State.failIo (s : State) (page : Nat) (c : Context) : State :=
  let uid := c.id.uid
  let s1 := (c.io.posted.filter (fun p => p.held && s.postedPage p = some page)).foldl (fun s p =>
    s.lateFail uid (.posted p.kind) (s.postedIa p) p.bits) s
  let s2 := (c.io.reds.filter (fun r => r.held && r.ia / 2 ^ 15 = page)).foldl (fun s r =>
    s.lateFail uid .reduction r.ia r.bits) s1
  let s3 := (c.io.drains.filter (fun d => d.held && inPage page d.left)).foldl (fun s d =>
    s.lateFail uid d.late ((d.left.head?.map (·.1)).getD 0) d.bits) s2
  ((s3.mapCtx uid (fun c => { c with io := { c.io with
    posted := c.io.posted.filter (fun p => !(p.held && s.postedPage p = some page))
    reds := c.io.reds.filter (fun r => !(r.held && r.ia / 2 ^ 15 = page))
    drains := c.io.drains.filter (fun d => !(d.held && inPage page d.left)) } })).refreshCounts uid).regate uid c.io

/-- PGFAIL: contexts saved on a fault in the page take PAGE_UNRECOVERABLE when they are restored, late accesses are
dropped, and agents and ferries that wait for the page give up. -/
def State.pageFail (s : State) (page : Nat) : State :=
  let s1 := s.contexts.foldl (fun s c => if c.live then s.failIo page c else s) s
  let s2 := s1.mapAll (fun c => match c.sched.place with
    | .frame (.fault p _ va) =>
      if p = page then { c with sched := { c.sched with place := .frame (.failed va) } } else c
    | _ => c)
  let s3 := s2.mapAll (fun c => match c.sync.wait with
    | .target ia => if ia / 2 ^ 15 = page then { c with sync := { c.sync with grant := some 6 } } else c
    | _ => c)
  let waiting := s3.ferry.filter (fun f => f.page = some (page, false))
  let agents := s3.cores.filter (fun k => k.2.spawnWait = some (page, false))
  let s4 : State := { s3 with
    ferry := s3.ferry.map (fun f => if f.page = some (page, false) then { f with page := some (page, true) } else f)
    cores := s3.cores.map (fun k => if k.2.spawnWait = some (page, false) then
      (k.1, { k.2 with spawnWait := some (page, true) }) else k) }
  { s4 with agenda := s4.agenda ++ waiting.map (fun f => Duty.ferry f.chain f.seq) ++
      agents.map (fun k => Duty.spawnMessage k.1) }

/-! Records that wait for room. -/

/-- FAULT_RECORD_POST: the oldest record that waits at a die goes into the fault ring when it has room (R188). -/
def State.postWaiting (s : State) (die : Nat) : State :=
  match (s.die die).faultWait with
  | [] => s
  | r :: rest =>
    match s.ringPost die 0x020 0x028 2 r.bytes with
    | none => s
    | some s1 =>
      let s2 := s1.setDie die { s1.die die with faultWait := rest }
      if rest.isEmpty then s2 else { s2 with agenda := s2.agenda ++ [.faultRecord die] }

/-- Energy records that wait at a die posted as far as the ring has room (R388). -/
def State.flushEnergy : Nat → State → Nat → State
  | 0, s, _ => s
  | n + 1, s, die =>
    match (s.die die).energyWait with
    | [] => s
    | r :: rest =>
      match s.ringPost die 0x098 0x0A0 1 r with
      | none => s
      | some s1 => (s1.setDie die { s1.die die with energyWait := rest }).flushEnergy n die

/-! Which bits of a control-block register a write stores, and which it clears. -/

/-- Bits hi down to lo, all ones. -/
def ones (hi lo : Nat) : Nat := 2 ^ (hi + 1) - 2 ^ lo

/-- The RW bits of a register. -/
def ctlRw (off : Nat) : Nat :=
  let ring := ones 63 48 + ones 31 16
  if off = 0x000 then ones 51 14 + 1
  else if off = 0x008 then ones 51 12
  else if off = 0x010 || off = 0x020 || off = 0x030 || off = 0x070 then ones 51 6
  else if off = 0x018 || off = 0x028 || off = 0x038 || off = 0x078 || off = 0x0A0 then ring
  else if off = 0x040 then ones 31 0
  else if off = 0x048 then ones 63 32 + ones 3 0
  else if off = 0x098 then ones 51 5
  else if 0x100 ≤ off && off < 0x500 then
    (if off % 0x20 = 0 then ones 55 4
     else if off % 0x20 = 0x08 then ring
     else if off % 0x20 = 0x18 then ones 63 48 + 2 ^ 15 + ones 7 2
     else 0)
  else if 0x500 ≤ off && off < 0x700 then (if off % 0x10 = 0 then ones 55 12 else ones 31 0)
  else if 0x700 ≤ off && off ≤ 0x740 then ones 31 0
  else if 0x780 ≤ off && off < 0x7C0 then ones 7 0
  else if 0x800 ≤ off then (if off % 0x10 = 0 then ones 55 25 + 2 ^ 4 + 7 else ones 38 25)
  else 0

/-- The W1C bits of a register: MCCTL.DROPPED. -/
def ctlW1c (off : Nat) : Nat := if off = 0x078 then ones 47 32 else 0

/-- EVCIDX of a die for a requesting core (R389). -/
def State.evcIdx (s : State) (die core : Nat) : Word := tabGet 0 s.evcidx (die * 0x1000 + core)

/-- The counter of a die that a core's EVCIDX names: its cluster and its number. -/
def State.counterAt (s : State) (die core : Nat) : Nat × Nat :=
  let i := s.evcIdx die core
  (die * 32 + bitsOf i 8 4, bitsOf i 3 0)

/-- What a die has charged to a token from one step to another (R387). -/
def charged (die token first last : Nat) : Nat := sumSteps (Config.energy die token) first (last - first)

/-- SYSACCT: the energy that a die has drawn since package reset, less all that it has charged to tokens (R387, R389). -/
def State.sysacct (s : State) (die : Nat) : Word :=
  BitVec.ofNat 64 (sumSteps (Config.drawn die) s.resetAt (s.now - s.resetAt)) -
    BitVec.ofNat 64 ((s.accounts.map (fun a => charged die a.token a.born s.now)).sum)

/-- WALKSTAT: its counts of walks are what the die's walkers have at the step, and 0 at reset (R184). -/
def State.walkstat (s : State) (die : Nat) : Word :=
  setBits (s.ctlGet die 0x060) 15 0 (if s.now = s.resetAt then 0 else Config.walks die s.now % 2 ^ 16)

/-- The four points of a curve: TFPT at 0x700, TVPT at 0x720 (R370, R371). -/
def State.points (s : State) (die base : Nat) : List (Nat × Nat) :=
  (List.range 4).map (fun k => (s.ctlField die (base + 8 * k) 31 16, s.ctlField die (base + 8 * k) 15 0))

/-- Whether points are out of order. -/
def disordered : List (Nat × Nat) → Bool
  | p :: q :: rest => decide (q.1 < p.1) || disordered (q :: rest)
  | _ => false

/-- CurveBad (R370). -/
def State.curveBad (s : State) (die : Nat) : Bool := disordered (s.points die 0x700) || disordered (s.points die 0x720)

/-- A control-block register read by a core. -/
def State.regRead (s : State) (die off core : Nat) : Word :=
  let (cl, k) := s.counterAt die core
  let ctr := getAt (s.cluster cl).counters k ⟨0, 0, 0⟩
  if off = 0x080 then s.evcIdx die core
  else if off = 0x060 then s.walkstat die
  else if off = 0x088 then BitVec.ofNat 64 ctr.src
  else if off = 0x090 then BitVec.ofNat 64 (s.counterValue cl ctr)
  else if off = 0x0A8 then s.sysacct die
  else if off = 0x748 then setBits (s.ctlGet die off) 6 6 (s.curveBad die).toNat
  else if 0x7C0 ≤ off && off < 0x800 then setBits (s.ctlGet die off) 15 0 (s.demand (die / 4) ((off - 0x7C0) / 8))
  else s.ctlGet die off

/-- A counter replaced. -/
def State.setCounter (s : State) (cl k : Nat) (c : Counter) : State :=
  s.setCluster cl { s.cluster cl with counters := putAt (s.cluster cl).counters k c }

/-- A control-block register written by a core. -/
def State.regWrite (s : State) (die off core : Nat) (w : Word) : State :=
  let (cl, k) := s.counterAt die core
  let ctr := getAt (s.cluster cl).counters k ⟨0, 0, 0⟩
  if off = 0x050 then s.pageReady (bitsOf w 55 15)
  else if off = 0x058 then s.pageFail (bitsOf w 55 15)
  else if off = 0x080 then { s with evcidx := tabPut s.evcidx (die * 0x1000 + core) (w &&& 0x1FF) }
  else if off = 0x088 then s.setCounter cl k ⟨bitsOf w 5 0, s.counterValue cl ctr, s.now⟩
  else if off = 0x090 then s.setCounter cl k ⟨ctr.src, w.toNat, s.now⟩
  else
    let old := s.ctlGet die off
    let rw := BitVec.ofNat 64 (ctlRw off)
    let new := ((old &&& ~~~rw) ||| (w &&& rw)) &&& ~~~(w &&& BitVec.ofNat 64 (ctlW1c off))
    let new := if off = 0x740 then setBits new 15 0 (min (bitsOf new 15 0) (s.ctlField die 0x760 15 0)) else new
    if ctlRw off = 0 then s
    else
      let s1 := s.ctlSet die off new
      if off = 0x028 then (if (s1.die die).faultWait.isEmpty then s1
        else { s1 with agenda := s1.agenda ++ [.faultRecord die] })
      else if off = 0x0A0 then s1.flushEnergy (s1.die die).energyWait.length die
      else s1

/-! Inbox windows (R282). -/

/-- WSTAT of a core. -/
def State.wstat (s : State) (core : Nat) : Word :=
  BitVec.ofNat 64 (s.sharedFree core + (s.core core).ovf.toNat * 2 ^ 8)

/-- A doubleword of an inbox window. -/
def State.inboxRead (s : State) (core off : Nat) : Word :=
  if 0x008 ≤ off && off < 0x040 then getAt (s.core core).stage (off / 8 - 1) 0
  else if off = 0x040 then s.wstat core
  else 0

/-- A doubleword of an inbox window written. A post that has been taken is worked on by the agent. -/
def State.inboxWrite (s : State) (core off : Nat) (w : Word) : State :=
  if off = 0 then
    let s1 := s.hostPost core w
    if (s1.core core).spawns.length = (s.core core).spawns.length then s1
    else { s1 with agenda := s1.agenda ++ [.spawnMessage core] }
  else if off < 0x040 then s.setCore core { s.core core with stage := putAt (s.core core).stage (off / 8 - 1) w }
  else if off = 0x040 then (if w.getLsbD 8 then s.setCore core { s.core core with ovf := false } else s)
  else s

/-- The n bytes at an offset of a register: the low bytes first. -/
def wordBytes (w : Word) (off n : Nat) : List Byte := ((toBytes 8 w.toNat).drop (off % 8)).take n

/-- The n bytes at an offset of an inbox window. -/
def State.inboxBytes (s : State) (core off n : Nat) : List Byte :=
  (((List.range ((off % 8 + n + 7) / 8)).flatMap (fun k =>
    toBytes 8 (s.inboxRead core (off / 8 * 8 + 8 * k)).toNat)).drop (off % 8)).take n

/-- A doubleword with bytes at an offset replaced. -/
def mergeBytes (w : Word) (off : Nat) (bs : List Byte) : Word :=
  let old := toBytes 8 w.toNat
  BitVec.ofNat 64 (fromBytes (old.take (off % 8) ++ bs ++ old.drop (off % 8 + bs.length)))

/-- What stands around the bytes written to a register of an inbox window: its contents, but for WSTAT zeros, so that only
a 1 that is written clears a bit (R7). -/
def State.inboxUnder (s : State) (core off : Nat) : Word := if off = 0x040 then 0 else s.inboxRead core off

/-- Bytes written at an offset of an inbox window, register by register. Fuel: the registers. -/
def State.inboxPut : Nat → State → Nat → Nat → List Byte → State
  | 0, s, _, _, _ => s
  | fuel + 1, s, core, off, bs =>
    if bs.isEmpty then s
    else
      let n := 8 - off % 8
      let at_ := off / 8 * 8
      (s.inboxWrite core at_ (mergeBytes (s.inboxUnder core at_) off (bs.take n))).inboxPut fuel core (off + n) (bs.drop n)

end Sys2Proof.Machine
end

