-- ==== Sys2Proof/Machine/Ops.lean ====
section
/-! DEFINITION. Ops.lean: what the instructions share: how one ends, the checks of an address, accesses to memory and to
registers, the waits of fences, releases and acquires, posted stores, atomics and reductions (R80, R176, R177, R188,
R192 to R216, R310, R325 to R329, R340 to R345, R361). -/

namespace Sys2Proof.Machine

/-! How an instruction ends before it retires. -/

/-- A trap with the value for EADDR, or none for the instruction's bits (R344); TRAP n (R352); SVC or BKPT with its n;
a late failure (R342); a precise page fault (R188); a wait (R121); or an abort that ended the instruction (R330). -/
inductive Stop where
  | trap (cause : Nat) (info : Option Word)
  | routine (n : Nat)
  | call (cause : Nat) (n : Word)
  | late (l : Late)
  | page (kind level ia : Nat) (va : Word)
  | wait (w : Wait)
  | gone
deriving DecidableEq, Repr

/-- What an instruction does: it changes the machine, and goes on or stops. -/
abbrev Op := EStateM Stop State

/-- The machine after an instruction of the context whose turn it is has stopped. -/
def State.stopped (s : State) (e : Stop) : State :=
  let uid := s.cur.id.uid
  match e with
  | .trap cause info => s.deliverTrap uid cause (some (info.getD s.cur.bits)) .device
  | .routine n => s.deliverTrap uid n none .routine
  | .call cause n => s.deliverTrap uid cause (some n) .call
  | .late l =>
    ({ s with cur := { s.cur with io := { s.cur.io with late := s.cur.io.late.erase l } } } : State).deliverTrap uid
      l.cause (some l.info) .late
  | .page kind level ia va => s.pageFault uid kind level ia va
  | .wait w =>
    let y := s.cur.sync
    { s with cur := { s.cur with sync := { y with wait := w, since := if y.wait = w then y.since else s.now } } }
  | .gone => s

/-- The machine after an instruction. -/
def State.run (s : State) (op : Op Unit) : State :=
  match op s with
  | .ok _ s1 => s1
  | .error e s1 => s1.stopped e

/-- The outcome of an instruction. -/
def State.does (s : State) (op : Op Unit) : Host.Outcome State Fault Refusal := .next (s.run op)

/-! Stops by name. -/

/-- A trap whose EADDR holds the instruction's bits. -/
def raise {α : Type} (cause : Nat) : Op α := throw (.trap cause none)

/-- A trap whose EADDR holds an address or another value. -/
def raiseAt {α : Type} (cause info : Nat) : Op α := throw (.trap cause (some (BitVec.ofNat 64 info)))

/-- PERMISSION with no address to report: what EADDR then holds is open (log 23). -/
def raiseOpen {α : Type} : Op α := do
  let s ← get
  set s.draw.2
  raiseAt 0x07 s.draw.1

/-- The instruction waits. -/
def waitFor {α : Type} (w : Wait) : Op α := throw (.wait w)

/-- A trap unless a condition holds. -/
def need (cond : Bool) (cause : Nat) : Op Unit := if cond then pure () else raise cause

/-- The context whose turn it is. -/
def self : Op Context := do return (← get).cur

/-- The context whose turn it is changed. -/
def modifySelf (f : Context → Context) : Op Unit := modify (fun s => { s with cur := f s.cur })

/-- x[a]. -/
def readX (a : XReg) : Op Word := do return (← get).x a

/-- x[d] := w. -/
def writeX (d : XReg) (w : Word) : Op Unit := modify (fun s => s.setX d w)

/-- The instruction of len bytes retires: a wait that it was in is over. -/
def retires (len : Nat) : Op Unit := modify (fun s =>
  ({ s with cur := { s.cur with sync := { s.cur.sync with wait := .none, grant := none } } } : State).retire len)

/-- GZ_ILLEGAL inside a glaze (R325). -/
def notInGlaze : Op Unit := do need (← self).sync.region.isNone 0x14

/-- PERMISSION in the supervisor context. -/
def userOnly : Op Unit := do if (← self).id.sup then raiseOpen

/-- PERMISSION in a user context (R108). -/
def privileged : Op Unit := do if !(← self).id.sup then raiseOpen

/-! Addresses. -/

/-- A place that an instruction may access: its virtual address, 0 for none, and its intermediate address. -/
structure Spot where
  va : Nat
  ia : Nat
deriving DecidableEq, Repr

/-- RangeMap and CheckIA of an address, and the bar of R325 on what is not pageable. wide is an 8-byte ld.d or st.d. -/
def mapSpot (va : Nat) (k : Access) (wide : Bool) : Op Spot := do
  if 2 ^ 60 ≤ va then raiseAt 0x05 va
  let s ← get
  match s.cur.mapVa k va with
  | .error cause => raiseAt cause va
  | .ok ia =>
    match s.checkIa s.cur ia k wide with
    | some cause => raiseAt cause va
    | none =>
      if s.cur.sync.region.isSome && !(s.pageable ia) then raise 0x14
      else return ⟨va, ia⟩

/-- EffectiveAddress, and MISALIGNED where the address is no multiple (R80, R192). -/
def effectiveVa (base : Word) (off : Int) (size align : Nat) : Op Nat := do
  match (← self).effective base off size with
  | .error (cause, info) => raiseAt cause info
  | .ok va => if va % align = 0 then return va else raiseAt 0x04 va

/-- The checks of an access of a size (R192). -/
def resolve (base : Word) (off : Int) (size : Nat) (k : Access) (wide : Bool) : Op Spot := do
  mapSpot (← effectiveVa base off size size) k wide

/-- The checks of a place of several bytes that must be a multiple of an alignment. -/
def resolveAt (base : Word) (size align : Nat) (k : Access) : Op Spot := do
  mapSpot (← effectiveVa base 0 size align) k false

/-- The memory side: the location of an IA, or the page fault or failure that an access takes precisely (R188). A write to
a capability list is refused, n being how many bytes it writes (R25, log 82). -/
def reach (p : Spot) (k : Access) (n : Nat := 1) : Op Nat := do
  let s ← get
  match s.meet p.ia k s.cur.token with
  | (.ok loc, s1) =>
    if (k = .write || k = .atomic) && s.readOnly loc n then raiseAt 0x07 p.va
    set s1
    return loc
  | (.fault kind level, s1) => set s1; throw (.page kind level p.ia (BitVec.ofNat 64 p.va))
  | (.fail cause, s1) => set s1; raiseAt cause p.va

/-! Order with the context's own accesses. -/

/-- Kinds of pending access: posted stores, reductions, tile store drains. -/
structure Kinds where
  posted : Bool
  reds : Bool
  drains : Bool

/-- Whether pending accesses of a context of some kinds reach lines. A global access is ordered with ordinary ones only as
with other bytes (R193). -/
def pendingOn (k : Kinds) (f : InFlight) (cl : Nat) (lines : List Nat) : Bool :=
  (k.posted && f.posted.any (fun p => !p.global && meets (linesOf cl p.parts) lines)) ||
  (k.reds && f.reds.any (fun r => !r.performed && lines.contains (lineOf cl r.ia))) ||
  (k.drains && f.drains.any (fun d => meets (linesOf cl d.rows) lines))

/-- The lines of n bytes at an IA. -/
def linesAt (cl ia n : Nat) : List Nat := linesOf cl [(ia, List.replicate n 0)]

/-- The context's earlier accesses of some kinds to the lines are performed first (R174, R193, R214, R226, R227); the
access waits where they cannot be. A tile store of an open region may end the region as it enters a granule, and the access
with it. -/
def settleWith (k : Kinds) (ia n : Nat) : Op Unit := do
  let s ← get
  if s.cur.io.quiet then return ()
  let lines := linesAt s.cl ia n
  if !(pendingOn k s.cur.io s.cl lines) then return ()
  let uid := s.cur.id.uid
  let s1 := ((s.drainTiles uid (fun d => meets (linesOf s.cl d.rows) lines)).drainPosted uid
    (fun p => meets (linesOf s.cl p.parts) lines)).drainReds uid (fun r => lines.contains (lineOf s.cl r.ia)) false
  set s1
  if s.cur.sync.region.isSome && s1.cur.sync.region.isNone then throw .gone
  if pendingOn k s1.cur.io s1.cl lines then waitFor .access

/-- Every earlier access to the lines is performed first. -/
def settle (ia n : Nat) : Op Unit := settleWith ⟨true, true, true⟩ ia n

/-- A forced publish (R304): releases noted with the lines of n bytes, towards which this context is outside their scope,
have the accesses before them performed first; the access waits where they cannot be. -/
def forcePublish (ia n : Nat) : Op Unit := do
  let s ← get
  if s.narrow.isEmpty then return ()
  let me := some (s.cur.id.uid, s.cur.id.core)
  let s1 := s.forcePublish ia n me
  set s1
  if s1.withheld ia n me then waitFor .access

/-! Regions. -/

/-- A member's access to a granule enters the graph (R327 to R329). -/
def enterGranule (ia n : Nat) (rd wr : Bool) : Op Unit := do
  let s ← get
  let (e, s1) := s.glazeEnter s.cur.id.uid ia n rd wr
  set s1
  match e with
  | .enter => return ()
  | .wait => waitFor .edge
  | .gone => throw .gone

/-- Whether the context is inside a glaze. -/
def inGlaze : Op Bool := do return (← self).sync.region.isSome

/-- MACHINE_CHECK where bytes that are read are poisoned (R361). -/
def needClean (p : Spot) (loc n : Nat) : Op Unit := do
  if (← get).poisoned loc n then
    modify (fun s => s.endLost (pkgOf s.cur.id.core) loc n)
    raiseAt 0x13 p.ia

/-- MACHINE_CHECK where poisoned bytes are read that no live region whose writes the reader sees has written (R327, R361). -/
def needSeen (p : Spot) (loc n : Nat) : Op Unit := do
  let s ← get
  let uid := s.cur.id.uid
  let pkg := pkgOf s.cur.id.core
  let logs := (s.writersOf (p.ia / 32) uid ++ [uid]).map s.logOf
  if s.lost.any (lostFor pkg loc n) ||
      s.poison.any (fun b => loc ≤ b && b < loc + n && !(logs.any (fun l => logCovers l (p.ia + b - loc)))) then
    set (s.endLost pkg loc n)
    raiseAt 0x13 p.ia

/-! Reads. -/

/-- A read of n bytes within one granule of memory. -/
def readMem (p : Spot) (n : Nat) : Op (List Byte) := do
  settle p.ia n
  forcePublish p.ia n
  let loc ← reach p .read
  if ← inGlaze then
    enterGranule p.ia n true false
    needSeen p loc n
    let s ← get
    return s.glazeView s.cur.id.uid p.ia loc n
  else
    needClean p loc n
    return (← get).bytesAt loc n

/-- The value that an invariant load returns of a byte (R197, R305): any that a location has held whose promise is broken,
else its own. -/
def readInvByte (loc : Nat) : Op Byte := do
  let s ← get
  if s.broken.contains loc then
    let (k, s1) := s.draw
    set s1
    let vs := s1.versions loc
    return (getAt vs (k % vs.length) ⟨0, Writer.agent 0, cellGet s1.mem loc⟩).byte
  else return cellGet s.mem loc

/-- An invariant read of n bytes within one granule: this task promises from now on that no agent writes them, and a write
since it started has broken the promise. Inside a glaze it is a plain read. -/
def readInv (p : Spot) (n : Nat) : Op (List Byte) := do
  if ← inGlaze then readMem p n
  else
    settle p.ia n
    forcePublish p.ia n
    let loc ← reach p .read
    needClean p loc n
    let s ← get
    let bytes := (List.range n).map (fun k => loc + k)
    let late := bytes.filter (fun a => (s.versions a).any (fun v => decide (s.cur.order.began < v.step)))
    set { s with
      broken := (s.broken ++ late).eraseDups
      promised := (s.promised ++ bytes.map (fun a => (a, s.cur.id.uid))).eraseDups }
    bytes.mapM readInvByte

/-- Whether the value of some byte that an acquire of a scope has read of n at a place was written last by an agent that the
scope leaves out. -/
def State.widens (s : State) (p : Spot) (n scope : Nat) : Bool :=
  match (s.meet p.ia .read s.cur.token).1 with
  | .ok loc => decide (scope < 6) && (List.range n).any (fun k => match s.lastWriter (loc + k) with
      | none => false
      | some w => w != s.cur.writer && outsideScope scope s.cur.id.core w.core)
  | _ => false

/-- An acquire is performed: a later fetch may rely on it (R100, R308). -/
def acquireNow : Op Unit := modify (fun s =>
  { s with cur := { s.cur with order := { s.cur.order with acquired := s.now } } })

/-- The context's earlier stores to register windows are performed first: accesses to them keep program order (R194). -/
def settleWindows : Op Unit := do
  if (← self).io.posted.any (fun p => p.kind = .w) then waitFor .access

/-- A read of n bytes within one granule, or within one register of a window. -/
def readSpot (p : Spot) (n : Nat) : Op (List Byte) := do
  let s ← get
  match s.whereIs p.ia with
  | .inbox core off =>
    settleWindows
    return s.inboxBytes core off n
  | .control die off =>
    settleWindows
    return wordBytes (s.regRead die off s.cur.id.core) 0 n
  | _ => readMem p n

/-- A read of n bytes that may span granules of one page. Fuel: the granules. -/
def readLong : Nat → Spot → Nat → Op (List Byte)
  | 0, _, _ => return []
  | fuel + 1, p, n => do
    if n = 0 then return []
    let k := min n (32 - p.ia % 32)
    let a ← readMem p k
    let b ← readLong fuel ⟨p.va + k, p.ia + k⟩ (n - k)
    return a ++ b

/-! Writes. -/

/-- The store of n bytes within one granule made ready: earlier accesses performed, its line owned, its granule entered.
Nothing is written. -/
def prepare (p : Spot) (n : Nat) : Op Nat := do
  settle p.ia n
  forcePublish p.ia n
  let loc ← reach p .write n
  if ← inGlaze then enterGranule p.ia n false true
  return loc

/-- Work of the device laid down. -/
def due (d : Duty) : Op Unit := modify (fun s => { s with agenda := s.agenda ++ [d] })

/-- A store that has retired and has still to be performed. -/
def post (p : Posted) : Op Unit := do
  modifySelf (fun c => { c with io := { c.io with posted := c.io.posted ++ [p] } })
  due (.postedAck (← self).id.uid)

/-- A prepared store of bytes within one granule: held by the region, queued behind its gate or other regions (R203, R205,
R310), or performed. -/
def write (p : Spot) (loc : Nat) (bs : List Byte) (g : Gate := {}) : Op Unit := do
  let s ← get
  if s.cur.sync.region.isSome then
    let s1 := s.hold s.cur.id.uid (.write p.ia loc bs)
    set (if g.wait = 3 then s1.mapRegion s.cur.id.uid (fun r => { r with postf := true }) else s1)
  else if (s.pageable p.ia && s.touchedBy none p.ia bs.length) || !(g.lets s.cur.io s.now) then
    post ⟨.c, [(p.ia, bs)], s.cur.bits, false, false, s.now, g⟩
  else set ((s.storeAt p.ia loc bs s.cur.writer).gateDone s.cur.id.uid g [(p.ia, bs)] s.now)

/-- Bytes stored by a core within one register of a window. -/
def State.windowPut (s : State) (ia core : Nat) (bs : List Byte) : State :=
  match s.whereIs ia with
  | .inbox k off => s.inboxPut (bs.length + 1) k off bs
  | .control die off => s.regWrite die off core (BitVec.ofNat 64 (fromBytes bs))
  | _ => s

/-- A store of bytes within one register of a window: it retires, and is performed once its gate lets it and every store to a
window before it has been performed (R192, R194, R203). -/
def writeWindow (p : Spot) (bs : List Byte) (g : Gate := {}) : Op Unit := do
  let s ← get
  if g.lets s.cur.io s.now && !(s.cur.io.posted.any (fun q => q.kind = .w)) then
    set ((s.windowPut p.ia s.cur.id.core bs).gateDone s.cur.id.uid g [(p.ia, bs)] s.now)
  else post ⟨.w, [(p.ia, bs)], s.cur.bits, false, false, s.now, g⟩

/-- Where a store of n bytes is prepared, none for a register of a window. -/
def prepareSpot (p : Spot) (n : Nat) : Op (Option Nat) := do
  match (← get).whereIs p.ia with
  | .inbox _ _ => return none
  | .control _ _ => return none
  | _ => return some (← prepare p n)

/-- Prepared stores of one instruction: what they write of a granule is written at once. -/
def writeMerged (ws : List (Spot × Nat × List Byte)) (g : Gate := {}) : Op Unit :=
  (mergedParts (ws.map (fun w => (w.1.ia, w.2.2)))).forM (fun q =>
    match ws.find? (fun w => w.1.ia / 32 = q.1 / 32) with
    | none => return ()
    | some w => write ⟨w.1.va / 32 * 32 + q.1 % 32, q.1⟩ (w.2.1 / 32 * 32 + q.1 % 32) q.2 g)

/-- Several stores of one instruction, all made ready before the first is performed. -/
def writeAll (ws : List (Spot × List Byte)) (g : Gate := {}) : Op Unit := do
  let ready ← ws.mapM (fun w => do return (w, ← prepareSpot w.1 w.2.length))
  writeMerged (ready.filterMap (fun r => r.2.map (fun loc => (r.1.1, loc, r.1.2)))) g
  ready.forM (fun r => match r.2 with
    | some _ => return ()
    | none => writeWindow r.1.1 r.1.2 g)

/-! Waits (R203, R205, R215). -/

/-- The first late failure of some kinds is taken here. -/
def takeLate (f : LateKind → Bool) : Op Unit := do
  match (← self).io.late.find? (fun l => f l.kind) with
  | none => return ()
  | some l => throw (.late l)

/-- Everything pending of the context is tried. -/
def drainSome (drains posted reds : Bool) : Op Unit := modify (fun s =>
  let uid := s.cur.id.uid
  let s1 := if drains then s.drainTiles uid (fun _ => true) else s
  let s2 := if posted then s1.drainPosted uid (fun p => p.kind != .f) else s1
  if reds then s2.drainReds uid (fun _ => true) true else s2)

/-- Whether stores through the caches, POSTD or POSTP stores are pending. -/
def InFlight.storing (f : InFlight) : Bool := f.posted.any (fun p => p.kind != .f)

/-- The wait of a release of a scope: every earlier access is performed before it at every scope, ctx included (R300,
row 4); one of scope ctx meets no late failure (R205). -/
def waitRelease (scope : Nat) : Op Unit := do
  if ← inGlaze then return ()
  drainSome true true true
  if scope != 0 then takeLate (fun k => k != .message)
  let f := (← self).io
  if !f.reds.isEmpty || !f.drains.isEmpty || f.storing then waitFor .access

/-- The wait of an acquire of a scope: the pending-reduction counter is zero. -/
def waitReds (scope : Nat) : Op Unit := do
  if scope = 0 || (← inGlaze) then return ()
  drainSome false false true
  takeLate (fun k => k = .reduction)
  if !(← self).io.reds.isEmpty then waitFor .access

/-- The deferred flags enter FPS at cluster scope or wider (R215). -/
def takeDeferred (scope : Nat) : Op Unit := do
  if scope < 2 || (← inGlaze) then return ()
  modifySelf (fun c => { c.orFlags c.io.deferred with io := { c.io with deferred := 0 } })

/-- What an acquire does once its reads are performed: one of a scope that leaves out the agent which wrote a value last is
widened, counted and performed as one of scope system (R215, R304). -/
def acquired (wide : Bool) (scope : Nat) : Op Unit := do
  if wide then modify (fun s => s.event s.cl 11)
  acquireNow
  takeDeferred (if wide then 6 else scope)

/-- An acquire of a scope that has read n bytes at each of some places. -/
def acquiresAll (ps : List Spot) (n scope : Nat) : Op Unit := do
  let s ← get
  let wide := ps.any (fun p => s.widens p n scope)
  if wide then waitReds 6
  acquired wide scope

/-- An acquire that reads n bytes. -/
def acquires (p : Spot) (n scope : Nat) : Op Unit := acquiresAll [p] n scope

/-- A release ends the reach of the fence before it (R304). -/
def endFence : Op Unit := do
  if (← self).order.fenced.isSome then
    modifySelf (fun c => { c with order := { c.order with fenced := none } })

/-- The release of a scope by an instruction that is one beside its other effects (R308): it waits as a release does, and
the context's flushes before it are released (R100). -/
def releaseEvent (scope : Nat) : Op Unit := do
  waitRelease scope
  endFence
  modify (fun s => if s.flushes.isEmpty then s else s.releaseFlushes s.cur.id.uid s.cur.id.core scope s.now)

/-- Release(system) of the instructions that name it (R139). -/
def releaseSystem : Op Unit := releaseEvent 6

/-- WaitCounter (R203). A streaming tile store that the counter counts is waited for, though R203 and R306 leave tile stores
out of WAIT: R198 and R249 count it. DESIGN CHOICE (log 121). Unsafe. -/
def waitCounter (w : Nat) : Op Unit := do
  if w = 0 then return ()
  let k := waitKind w
  modify (fun s => (s.drainPosted s.cur.id.uid (fun p => p.kind = k)).drainTiles s.cur.id.uid (fun d => d.counted = some k))
  if k != .f then takeLate (fun l => l = .posted k)
  if (← self).io.counted k != 0 then waitFor .access

/-- The late failures that a store with a WAIT field or of a release class waits for are met by it (R201, R212, R249). A
posted store that fails after such a store has retired can no longer be reported by it: the store is performed, and the
failure is met by the next instruction that waits for its kind. DESIGN CHOICE (log 120). Unsafe. -/
def takeAwaited (wait : Nat) (rel : Bool) (scope : Nat) : Op Unit := do
  if ← inGlaze then return ()
  if wait != 0 && waitKind wait != .f then takeLate (fun k => k = .posted (waitKind wait))
  if rel && scope != 0 then takeLate (fun k => k != .message)

/-- What a store that retires still waits for (R192, R203, R205): its WAIT field, and for a release of any scope, ctx
included, every earlier access (R300, row 4; R303, log 113). -/
def gateOf (wait : Nat) (rel sc : Bool) (scope : Nat) : Op Gate := do
  takeAwaited wait rel scope
  let c ← self
  if rel then endFence
  return ⟨wait, rel, if rel then some scope else c.order.fenced, sc⟩

/-- The gate of a store of memory attributes. -/
def storeGate (m : MemAttr) : Op Gate := gateOf m.wait.val (m.cls = 1 || m.cls = 3) (m.cls = 3) m.scope.val

/-! Posted stores (R198, R199, R201). -/

/-- The counter of a store to an IA, or none for a store through the caches. -/
def State.postKind (s : State) (c : Context) (ia : Nat) (streaming : Bool) : Option PostKind :=
  let mine : Bool := ia / 2 ^ 53 = pkgOf c.id.core
  let far : PostKind := if mine then .d else .p
  if c.sync.region.isSome then none
  else match s.whereIs ia with
    | .pageable => if streaming then some far else none
    | .palette cl => if cl = clusterOf c.id.core then none else some far
    | .lagoon _ => some far
    | _ => none

/-- Room in a counter, which the instruction waits for. -/
def postRoom (k : PostKind) : Op Unit := do
  if 256 ≤ (← self).io.counted k then
    modify (fun s => s.drainPosted s.cur.id.uid (fun p => p.kind = k))
  if 256 ≤ (← self).io.counted k then waitFor .access

/-- A store put into a counter, which waits while the counter is full. -/
def postStore (k : PostKind) (parts : List (Nat × List Byte)) (global : Bool) (g : Gate := {}) : Op Unit := do
  if !global then parts.forM (fun p => settleWith ⟨false, true, true⟩ p.1 p.2.length)
  postRoom k
  let s ← get
  post ⟨k, parts, s.cur.bits, global, false, s.now, g⟩

/-! Atomics (R206 to R210) and reductions (R211 to R216). -/

/-- The checks of an atomic or a reduction at x[a]. -/
def resolveAtomic (a : XReg) (n : Nat) : Op Spot := do
  let s ← get
  let va ← effectiveVa (s.x a) 0 n n
  match s.cur.mapVa .atomic va with
  | .error cause => raiseAt cause va
  | .ok ia =>
    if s.whereIs ia = .reserved then raiseAt 0x05 va
    else if !(s.atomicAt ia s.cur.id.core) then raiseAt 0x07 va
    else if s.cur.sync.region.isSome && !(s.pageable ia) then raise 0x14
    else return ⟨va, ia⟩

/-- One step at an atomic unit: the old value and the flags. -/
def atomicStep (fn : AmoFn) (n : Nat) (p : Spot) (b c : Word) : Op (Nat × Flags) := do
  settle p.ia n
  forcePublish p.ia n
  let loc ← reach p .atomic n
  if ← inGlaze then
    enterGranule p.ia n true true
    needSeen p loc n
    let s ← get
    let old := fromBytes (s.glazeView s.cur.id.uid p.ia loc n)
    let (new, fl) := amoOp fn n old (b.toNat % 2 ^ (8 * n)) c.toNat
    set (s.hold s.cur.id.uid (.write p.ia loc (toBytes n new)))
    return (old, fl)
  else
    needClean p loc n
    let s ← get
    if s.pageable p.ia && s.touchedBy none p.ia n then waitFor .access
    let old := s.numAt loc n
    let (new, fl) := amoOp fn n old (b.toNat % 2 ^ (8 * n)) c.toNat
    set (s.storeAt p.ia loc (toBytes n new) s.cur.writer)
    return (old, fl)

/-- A returning atomic. -/
def amo (fn : AmoFn) (n : Nat) (d a b : XReg) (scope : Fin 8) (acqrel : Bool) : Op Unit := do
  let p ← resolveAtomic a n
  if acqrel then waitRelease scope.val
  let wide := acqrel && (← get).widens p n scope.val
  if wide then waitReds 6
  let (old, fl) ← atomicStep fn n p (← readX b) (← readX d)
  writeX d (BitVec.ofNat 64 old)
  modifySelf (fun c => c.orFlags fl)
  if acqrel then
    endFence
    modify (fun s => s.noteRelease s.cur.id.uid s.cur.id.core [p.ia / 128] scope.val s.now)
    acquired wide scope.val
  retires 4

/-- A reduction: held by the region, or sent after its retirement. -/
def red (fn : AmoFn) (n : Nat) (a b : XReg) (scope : Fin 8) (rel : Bool) : Op Unit := do
  let p ← resolveAtomic a n
  let v ← readX b
  let s ← get
  let c := s.cur
  if c.sync.region.isSome then
    let loc ← reach p .atomic n
    enterGranule p.ia n false true
    modify (fun s => s.hold s.cur.id.uid (.red p.ia loc ⟨fn, n, p.ia, v, c.bits, false, false, s.now, {}⟩))
  else
    if 32 ≤ c.io.reds.length then drainSome false false true
    if 32 ≤ (← self).io.reds.length then waitFor .access
    settleWith ⟨true, false, true⟩ p.ia n
    let g ← gateOf 0 rel false scope.val
    modifySelf (fun c => { c with io := { c.io with
      reds := c.io.reds ++ [⟨fn, n, p.ia, v, c.bits, false, false, s.now, g⟩] } })
    due (.redPerform c.id.uid)
    due (.redAck c.id.uid)
  retires 4

end Sys2Proof.Machine
end

