-- ==== Sys2Proof/Machine/Integer.lean ====
section
/-! DEFINITION. Integer.lean: the integer instructions (R123 to R126), branches and jumps (R78, R127, R128) and the hint
space (R95). -/

namespace Sys2Proof.Machine

/-- A result in x[d], and the next instruction. -/
def State.gives (s : State) (d : XReg) (w : Word) (len : Nat) : Host.Outcome State Fault Refusal :=
  .next ((s.setX d w).retire len)

/-- A number of bits as a word. -/
def word (n : Nat) : Word := BitVec.ofNat 64 n

/-! Operations on words (R123). -/

/-- The high half of a product of integers. -/
def highHalf (p : Int) : Word := BitVec.ofInt 64 (p / 2 ^ 64)

/-- DIV. -/
def divWord (a b : Word) : Word :=
  if b = 0 then BitVec.allOnes 64 else BitVec.ofInt 64 (a.toInt.tdiv b.toInt)

/-- DIVU. -/
def divuWord (a b : Word) : Word := if b = 0 then BitVec.allOnes 64 else word (a.toNat / b.toNat)

/-- REM. -/
def remWord (a b : Word) : Word := if b = 0 then a else BitVec.ofInt 64 (a.toInt - b.toInt * a.toInt.tdiv b.toInt)

/-- REMU. -/
def remuWord (a b : Word) : Word := if b = 0 then a else word (a.toNat % b.toNat)

/-- Zero bits from the top, w bits looked at. -/
def leadingZeros (a : Word) : Nat → Nat
  | 0 => 0
  | n + 1 => if a.getLsbD n then 0 else 1 + leadingZeros a n

/-- Zero bits from the bottom: those from bit 64 − n up. -/
def trailingZeros (a : Word) : Nat → Nat
  | 0 => 0
  | n + 1 => if a.getLsbD (63 - n) then 0 else 1 + trailingZeros a n

/-- One bits among the lowest n. -/
def countOnes (a : Word) : Nat → Nat
  | 0 => 0
  | n + 1 => (a.getLsbD n).toNat + countOnes a n

/-! The register forms. -/

/-- ADD. -/
def execAdd (d a b : XReg) (s : State) : Host.Outcome State Fault Refusal := s.gives d (s.x a + s.x b) 4

/-- SUB. -/
def execSub (d a b : XReg) (s : State) : Host.Outcome State Fault Refusal := s.gives d (s.x a - s.x b) 4

/-- AND. -/
def execAnd (d a b : XReg) (s : State) : Host.Outcome State Fault Refusal := s.gives d (s.x a &&& s.x b) 4

/-- OR. -/
def execOr (d a b : XReg) (s : State) : Host.Outcome State Fault Refusal := s.gives d (s.x a ||| s.x b) 4

/-- XOR. -/
def execXor (d a b : XReg) (s : State) : Host.Outcome State Fault Refusal := s.gives d (s.x a ^^^ s.x b) 4

/-- The shift amount of x[b]: its low six bits. -/
def State.amount (s : State) (b : XReg) : Nat := (s.x b).toNat % 64

/-- SLL. -/
def execSll (d a b : XReg) (s : State) : Host.Outcome State Fault Refusal := s.gives d (s.x a <<< s.amount b) 4

/-- SRL. -/
def execSrl (d a b : XReg) (s : State) : Host.Outcome State Fault Refusal := s.gives d (s.x a >>> s.amount b) 4

/-- SRA. -/
def execSra (d a b : XReg) (s : State) : Host.Outcome State Fault Refusal :=
  s.gives d ((s.x a).sshiftRight (s.amount b)) 4

/-- SLL with an immediate. -/
def execSlli (d a : XReg) (n : Fin 64) (s : State) : Host.Outcome State Fault Refusal := s.gives d (s.x a <<< n.val) 4

/-- SRL with an immediate. -/
def execSrli (d a : XReg) (n : Fin 64) (s : State) : Host.Outcome State Fault Refusal := s.gives d (s.x a >>> n.val) 4

/-- SRA with an immediate. -/
def execSrai (d a : XReg) (n : Fin 64) (s : State) : Host.Outcome State Fault Refusal :=
  s.gives d ((s.x a).sshiftRight n.val) 4

/-- MUL. -/
def execMul (d a b : XReg) (s : State) : Host.Outcome State Fault Refusal := s.gives d (s.x a * s.x b) 4

/-- MULH. -/
def execMulh (d a b : XReg) (s : State) : Host.Outcome State Fault Refusal :=
  s.gives d (highHalf ((s.x a).toInt * (s.x b).toInt)) 4

/-- MULHU. -/
def execMulhu (d a b : XReg) (s : State) : Host.Outcome State Fault Refusal :=
  s.gives d (highHalf ((s.x a).toNat * (s.x b).toNat)) 4

/-- DIV. -/
def execDiv (d a b : XReg) (s : State) : Host.Outcome State Fault Refusal := s.gives d (divWord (s.x a) (s.x b)) 4

/-- DIVU. -/
def execDivu (d a b : XReg) (s : State) : Host.Outcome State Fault Refusal := s.gives d (divuWord (s.x a) (s.x b)) 4

/-- REM. -/
def execRem (d a b : XReg) (s : State) : Host.Outcome State Fault Refusal := s.gives d (remWord (s.x a) (s.x b)) 4

/-- REMU. -/
def execRemu (d a b : XReg) (s : State) : Host.Outcome State Fault Refusal := s.gives d (remuWord (s.x a) (s.x b)) 4

/-- MIN. -/
def execMin (d a b : XReg) (s : State) : Host.Outcome State Fault Refusal :=
  s.gives d (if (s.x b).slt (s.x a) then s.x b else s.x a) 4

/-- MAX. -/
def execMax (d a b : XReg) (s : State) : Host.Outcome State Fault Refusal :=
  s.gives d (if (s.x a).slt (s.x b) then s.x b else s.x a) 4

/-- MINU. -/
def execMinu (d a b : XReg) (s : State) : Host.Outcome State Fault Refusal :=
  s.gives d (if (s.x b).ult (s.x a) then s.x b else s.x a) 4

/-- MAXU. -/
def execMaxu (d a b : XReg) (s : State) : Host.Outcome State Fault Refusal :=
  s.gives d (if (s.x a).ult (s.x b) then s.x b else s.x a) 4

/-- CLZ. -/
def execClz (d a : XReg) (s : State) : Host.Outcome State Fault Refusal := s.gives d (word (leadingZeros (s.x a) 64)) 4

/-- CTZ. -/
def execCtz (d a : XReg) (s : State) : Host.Outcome State Fault Refusal := s.gives d (word (trailingZeros (s.x a) 64)) 4

/-- POPC. -/
def execPopc (d a : XReg) (s : State) : Host.Outcome State Fault Refusal := s.gives d (word (countOnes (s.x a) 64)) 4

/-- SLT. -/
def execSlt (d a b : XReg) (s : State) : Host.Outcome State Fault Refusal := s.gives d (wordOf ((s.x a).slt (s.x b))) 4

/-- SLTU. -/
def execSltu (d a b : XReg) (s : State) : Host.Outcome State Fault Refusal := s.gives d (wordOf ((s.x a).ult (s.x b))) 4

/-- SEQ. -/
def execSeq (d a b : XReg) (s : State) : Host.Outcome State Fault Refusal := s.gives d (wordOf (s.x a == s.x b)) 4

/-- LEA (R124). -/
def execLea (d a b : XReg) (n : Fin 4) (s : State) : Host.Outcome State Fault Refusal :=
  s.gives d (s.x a + (s.x b <<< n.val)) 4

/-- ADDI (R125). -/
def execAddi (d a : XReg) (imm : BitVec 16) (s : State) : Host.Outcome State Fault Refusal :=
  s.gives d (s.x a + sext imm) 4

/-- LIH (R126). -/
def execLih (d : XReg) (imm : BitVec 32) (s : State) : Host.Outcome State Fault Refusal := s.gives d (sext imm) 8

/-- LIH with hi (R126). -/
def execLihHi (d : XReg) (imm : BitVec 32) (s : State) : Host.Outcome State Fault Refusal :=
  s.gives d (imm ++ (s.x d).extractLsb' 0 32) 8

/-! Control transfer. -/

/-- Control to a target, or the trap of R78 at this instruction; the link is written only where control moves. -/
def State.jump (s : State) (target : Word) (d : XReg) (link : Word) : Host.Outcome State Fault Refusal :=
  if target.toNat % 4 != 0 then .next (s.stopped (.trap 0x04 (some target)))
  else if 2 ^ 60 ≤ target.toNat then .next (s.stopped (.trap 0x05 (some target)))
  else .next ((s.setX d link).goto target)

/-- A conditional branch. -/
def State.branch (s : State) (taken : Bool) (off : BitVec 16) : Host.Outcome State Fault Refusal :=
  if taken then s.jump (branchTarget s.pc off) 0 0 else .next (s.retire 4)

/-- BEQ. -/
def execBeq (a b : XReg) (off : BitVec 16) (s : State) : Host.Outcome State Fault Refusal :=
  s.branch (s.x a == s.x b) off

/-- BNE. -/
def execBne (a b : XReg) (off : BitVec 16) (s : State) : Host.Outcome State Fault Refusal :=
  s.branch (s.x a != s.x b) off

/-- BLT. -/
def execBlt (a b : XReg) (off : BitVec 16) (s : State) : Host.Outcome State Fault Refusal :=
  s.branch ((s.x a).slt (s.x b)) off

/-- BGE. -/
def execBge (a b : XReg) (off : BitVec 16) (s : State) : Host.Outcome State Fault Refusal :=
  s.branch (!(s.x a).slt (s.x b)) off

/-- BLTU. -/
def execBltu (a b : XReg) (off : BitVec 16) (s : State) : Host.Outcome State Fault Refusal :=
  s.branch ((s.x a).ult (s.x b)) off

/-- BGEU. -/
def execBgeu (a b : XReg) (off : BitVec 16) (s : State) : Host.Outcome State Fault Refusal :=
  s.branch (!(s.x a).ult (s.x b)) off

/-- JAL. -/
def execJal (d : XReg) (off : BitVec 21) (s : State) : Host.Outcome State Fault Refusal :=
  s.jump (branchTarget s.pc off) d (s.pc + 4)

/-- JAL, the long form. -/
def execJalLong (d : XReg) (off : BitVec 32) (s : State) : Host.Outcome State Fault Refusal :=
  s.jump (branchTarget s.pc off) d (s.pc + 8)

/-- JALR. -/
def execJalr (d a : XReg) (imm : BitVec 16) (s : State) : Host.Outcome State Fault Refusal :=
  s.jump (s.x a + sext imm) d (s.pc + 4)

/-- NOP and every other parcel of the hint space (R95). -/
def execNop (_hint : BitVec 26) (s : State) : Host.Outcome State Fault Refusal := .next (s.retire 4)

end Sys2Proof.Machine
end

