-- ==== Sys2Proof/Machine/Access.lean ====
section
/-! DEFINITION. Access.lean: scalar loads and stores (R191 to R203), returning atomics (R207 to R210), reductions (R211
to R216) and fences (R204, R205). -/

namespace Sys2Proof.Machine

/-- A class of a load that acquires. -/
def acquiring (m : MemAttr) : Bool := m.cls = 1 || m.cls = 3

/-- Whether a release-sc store of a context is still to be performed (R196). -/
def InFlight.scPending (f : InFlight) : Bool := f.posted.any (fun p => p.gate.sc) || f.drains.any (fun d => d.gate.sc)

/-- The waits of a load's class and WAIT field before it is performed: an acquire-sc load waits for the context's earlier
release-sc stores. -/
def loadWaits (m : MemAttr) : Op Unit := do
  waitCounter m.wait.val
  if acquiring m then waitReds m.scope.val
  if m.cls = 3 && (← self).io.scPending then
    drainSome true true true
    if (← self).io.scPending then waitFor .access

/-- LD of n bytes at x[a] plus an offset in bytes; the instruction is len bytes long. -/
def load (t a : XReg) (m : MemAttr) (off : Int) (n len : Nat) : Op Unit := do
  let p ← resolve (← readX a) off n .read (n = 8)
  loadWaits m
  let bs ← if m.cls = 2 && (← get).inMemory p.ia then readInv p n else readSpot p n
  if acquiring m then acquires p n m.scope.val
  writeX t (word (fromBytes bs))
  retires len

/-- ST of n bytes: owned before it retires, so that its faults are precise; it retires without waiting, and is performed
once its WAIT field and its class let it (R192, R203). -/
def store (t a : XReg) (m : MemAttr) (off : Int) (n len : Nat) : Op Unit := do
  let p ← resolve (← readX a) off n .write (n = 8)
  let bs := toBytes n ((← readX t).toNat % 2 ^ (8 * n))
  let s ← get
  match s.postKind s.cur p.ia (m.cls = 2) with
  | some k =>
    let g ← storeGate m
    postStore k [(p.ia, bs)] false g
  | none =>
    match ← prepareSpot p n with
    | some loc =>
      let g ← storeGate m
      write p loc bs g
    | none =>
      let g ← storeGate m
      writeWindow p bs g
  retires len

/-- The offset of an M-form access: OFF9 scaled by the size. -/
def offM (off : BitVec 9) (n : Nat) : Int := off.toInt * n

/-- LD.B. -/
def execLdB (t a : XReg) (m : MemAttr) (off : BitVec 9) (s : State) : Host.Outcome State Fault Refusal :=
  s.does (load t a m (offM off 1) 1 4)

/-- LD.H. -/
def execLdH (t a : XReg) (m : MemAttr) (off : BitVec 9) (s : State) : Host.Outcome State Fault Refusal :=
  s.does (load t a m (offM off 2) 2 4)

/-- LD.W. -/
def execLdW (t a : XReg) (m : MemAttr) (off : BitVec 9) (s : State) : Host.Outcome State Fault Refusal :=
  s.does (load t a m (offM off 4) 4 4)

/-- LD.D. -/
def execLdD (t a : XReg) (m : MemAttr) (off : BitVec 9) (s : State) : Host.Outcome State Fault Refusal :=
  s.does (load t a m (offM off 8) 8 4)

/-- ST.B. -/
def execStB (t a : XReg) (m : MemAttr) (off : BitVec 9) (s : State) : Host.Outcome State Fault Refusal :=
  s.does (store t a m (offM off 1) 1 4)

/-- ST.H. -/
def execStH (t a : XReg) (m : MemAttr) (off : BitVec 9) (s : State) : Host.Outcome State Fault Refusal :=
  s.does (store t a m (offM off 2) 2 4)

/-- ST.W. -/
def execStW (t a : XReg) (m : MemAttr) (off : BitVec 9) (s : State) : Host.Outcome State Fault Refusal :=
  s.does (store t a m (offM off 4) 4 4)

/-- ST.D. -/
def execStD (t a : XReg) (m : MemAttr) (off : BitVec 9) (s : State) : Host.Outcome State Fault Refusal :=
  s.does (store t a m (offM off 8) 8 4)

/-- LD.B, the long form. -/
def execLdBLong (t a : XReg) (m : MemAttr) (off : BitVec 19) (s : State) : Host.Outcome State Fault Refusal :=
  s.does (load t a m off.toInt 1 8)

/-- LD.H, the long form. -/
def execLdHLong (t a : XReg) (m : MemAttr) (off : BitVec 19) (s : State) : Host.Outcome State Fault Refusal :=
  s.does (load t a m off.toInt 2 8)

/-- LD.W, the long form. -/
def execLdWLong (t a : XReg) (m : MemAttr) (off : BitVec 19) (s : State) : Host.Outcome State Fault Refusal :=
  s.does (load t a m off.toInt 4 8)

/-- LD.D, the long form. -/
def execLdDLong (t a : XReg) (m : MemAttr) (off : BitVec 19) (s : State) : Host.Outcome State Fault Refusal :=
  s.does (load t a m off.toInt 8 8)

/-- ST.B, the long form. -/
def execStBLong (t a : XReg) (m : MemAttr) (off : BitVec 19) (s : State) : Host.Outcome State Fault Refusal :=
  s.does (store t a m off.toInt 1 8)

/-- ST.H, the long form. -/
def execStHLong (t a : XReg) (m : MemAttr) (off : BitVec 19) (s : State) : Host.Outcome State Fault Refusal :=
  s.does (store t a m off.toInt 2 8)

/-- ST.W, the long form. -/
def execStWLong (t a : XReg) (m : MemAttr) (off : BitVec 19) (s : State) : Host.Outcome State Fault Refusal :=
  s.does (store t a m off.toInt 4 8)

/-- ST.D, the long form. -/
def execStDLong (t a : XReg) (m : MemAttr) (off : BitVec 19) (s : State) : Host.Outcome State Fault Refusal :=
  s.does (store t a m off.toInt 8 8)

/-! Atomics. -/

/-- The size of an atomic: .w or .d. -/
def sizeD (dbl : Bool) : Nat := if dbl then 8 else 4

/-- The operation and the size of FADD: .f32 or .bf16. -/
def faddOf (bf16 : Bool) : AmoFn × Nat := if bf16 then (.fadd16, 2) else (.fadd32, 4)

/-- AMO.ADD. -/
def execAmoAdd (d a b : XReg) (dbl : Bool) (scope : Fin 8) (acqrel : Bool) (s : State) :
    Host.Outcome State Fault Refusal := s.does (amo .add (sizeD dbl) d a b scope acqrel)

/-- AMO.MIN. -/
def execAmoMin (d a b : XReg) (dbl : Bool) (scope : Fin 8) (acqrel : Bool) (s : State) :
    Host.Outcome State Fault Refusal := s.does (amo .min (sizeD dbl) d a b scope acqrel)

/-- AMO.MAX. -/
def execAmoMax (d a b : XReg) (dbl : Bool) (scope : Fin 8) (acqrel : Bool) (s : State) :
    Host.Outcome State Fault Refusal := s.does (amo .max (sizeD dbl) d a b scope acqrel)

/-- AMO.AND. -/
def execAmoAnd (d a b : XReg) (dbl : Bool) (scope : Fin 8) (acqrel : Bool) (s : State) :
    Host.Outcome State Fault Refusal := s.does (amo .and (sizeD dbl) d a b scope acqrel)

/-- AMO.OR. -/
def execAmoOr (d a b : XReg) (dbl : Bool) (scope : Fin 8) (acqrel : Bool) (s : State) :
    Host.Outcome State Fault Refusal := s.does (amo .or (sizeD dbl) d a b scope acqrel)

/-- AMO.XOR. -/
def execAmoXor (d a b : XReg) (dbl : Bool) (scope : Fin 8) (acqrel : Bool) (s : State) :
    Host.Outcome State Fault Refusal := s.does (amo .xor (sizeD dbl) d a b scope acqrel)

/-- AMO.SWAP. -/
def execAmoSwap (d a b : XReg) (dbl : Bool) (scope : Fin 8) (acqrel : Bool) (s : State) :
    Host.Outcome State Fault Refusal := s.does (amo .swap (sizeD dbl) d a b scope acqrel)

/-- AMO.CAS. -/
def execAmoCas (d a b : XReg) (dbl : Bool) (scope : Fin 8) (acqrel : Bool) (s : State) :
    Host.Outcome State Fault Refusal := s.does (amo .cas (sizeD dbl) d a b scope acqrel)

/-- AMO.FADD. -/
def execAmoFadd (d a b : XReg) (bf16 : Bool) (scope : Fin 8) (acqrel : Bool) (s : State) :
    Host.Outcome State Fault Refusal := s.does (amo (faddOf bf16).1 (faddOf bf16).2 d a b scope acqrel)

/-! Reductions. -/

/-- RED.ADD. -/
def execRedAdd (a b : XReg) (dbl : Bool) (scope : Fin 8) (rel : Bool) (s : State) :
    Host.Outcome State Fault Refusal := s.does (red .add (sizeD dbl) a b scope rel)

/-- RED.MIN. -/
def execRedMin (a b : XReg) (dbl : Bool) (scope : Fin 8) (rel : Bool) (s : State) :
    Host.Outcome State Fault Refusal := s.does (red .min (sizeD dbl) a b scope rel)

/-- RED.MAX. -/
def execRedMax (a b : XReg) (dbl : Bool) (scope : Fin 8) (rel : Bool) (s : State) :
    Host.Outcome State Fault Refusal := s.does (red .max (sizeD dbl) a b scope rel)

/-- RED.AND. -/
def execRedAnd (a b : XReg) (dbl : Bool) (scope : Fin 8) (rel : Bool) (s : State) :
    Host.Outcome State Fault Refusal := s.does (red .and (sizeD dbl) a b scope rel)

/-- RED.OR. -/
def execRedOr (a b : XReg) (dbl : Bool) (scope : Fin 8) (rel : Bool) (s : State) :
    Host.Outcome State Fault Refusal := s.does (red .or (sizeD dbl) a b scope rel)

/-- RED.XOR. -/
def execRedXor (a b : XReg) (dbl : Bool) (scope : Fin 8) (rel : Bool) (s : State) :
    Host.Outcome State Fault Refusal := s.does (red .xor (sizeD dbl) a b scope rel)

/-- RED.FADD. -/
def execRedFadd (a b : XReg) (bf16 : Bool) (scope : Fin 8) (rel : Bool) (s : State) :
    Host.Outcome State Fault Refusal := s.does (red (faddOf bf16).1 (faddOf bf16).2 a b scope rel)

/-! Fences. -/

/-- A fence of a KIND (R204, R205): stores and drains are waited for by a full fence and a release fence, reductions by
every fence of core scope or wider; the failure of a QSEND is met at system scope, inside a glaze too (R296). Stores
behind a fence of KIND 0 or 2 count as releases of its scope (R304), KIND 0 and 1 acquire (R100). Inside a glaze a
fence orders nothing beyond program order (R325). -/
def fenceOp (kind : Nat) (scope : Fin 8) (wait : Fin 4) : Op Unit := do
  if !(← inGlaze) then
    if scope != 0 then (if kind = 1 then waitReds scope.val else waitRelease scope.val)
    if scope = 6 then takeLate (fun k => k = .message)
    waitCounter wait.val
    takeDeferred scope.val
    let s ← get
    if kind != 1 && scope != 0 then set (s.releaseFlushes s.cur.id.uid s.cur.id.core scope.val s.now)
    modifySelf (fun c => { c with order := { c.order with
      fenced := if kind = 1 || scope = 0 || scope = 6 then none else some scope.val
      acquired := if kind = 2 || scope = 0 then c.order.acquired else s.now } })
  else if scope = 6 then takeLate (fun k => k = .message)
  retires 4

/-- FENCE, KIND 0. -/
def execFence (scope : Fin 8) (wait : Fin 4) (s : State) : Host.Outcome State Fault Refusal :=
  s.does (fenceOp 0 scope wait)

/-- FENCE ACQ, KIND 1. -/
def execFenceAcq (scope : Fin 8) (wait : Fin 4) (s : State) : Host.Outcome State Fault Refusal :=
  s.does (fenceOp 1 scope wait)

/-- FENCE REL, KIND 2. -/
def execFenceRel (scope : Fin 8) (wait : Fin 4) (s : State) : Host.Outcome State Fault Refusal :=
  s.does (fenceOp 2 scope wait)

end Sys2Proof.Machine
end

