-- ==== Sys2Proof/Machine/Vector.lean ====
section
/-! DEFINITION. Vector.lean: the vector instructions and the mask instructions (R146 to R164). -/

namespace Sys2Proof.Machine

/-- The length of an instruction that a VPX parcel may precede. -/
def lenV (p : Option Vpx) : Nat := if p.isSome then 8 else 4

/-- F of R150: a floating-point format that vector arithmetic takes. -/
def isF (f : FmtCode) : Bool := 1 ≤ f.val && f.val ≤ 4

/-- UINT8 alone among the integer formats is unsigned. -/
def unsignedFmt (f : FmtCode) : Bool := f = 11

/-! Checks (R146, R148). -/

/-- SHAPE_ERROR for an element width. -/
def needShape (w : Nat) : Op Unit := do need (!(← self).shapeBad w) 0x10

/-- CheckTag of a v register (R31). -/
def needTag (a : VNum) (want : Option FmtCode) : Op Unit := do need (tagOk (← self).reg.v[a] want) 0x03

/-- A v register of the context whose turn it is. -/
def readV (a : VNum) : Op VReg := do return (← self).reg.v[a]

/-- An optional third operand: v[C] where a VPX precedes, else v[D] (R81). -/
def thirdV (p : Option Vpx) (d : VNum) : VNum := (p.map (fun v => v.c)).getD d

/-- The mode of a vector instruction (R149). -/
def Context.modeV (c : Context) (v : Vpx) (narrowing : Bool) : Nat := resolveMode v.rnd.val c.rnd narrowing

/-! Results (R147, R149). -/

/-- The result and flags of each element below n; an inactive one gives no flag. -/
def Context.lanes (c : Context) (k : MNum) (w : Nat) (res : Nat → Nat × Flags) : List (Nat × Flags) :=
  (List.range c.grid).map (fun i => if c.active k w i then res i else (0, 0))

/-- The flags of a list of results. -/
def flagsOf (l : List (Nat × Flags)) : Flags := l.foldl (fun f r => f ||| r.2) 0

/-- A vector result of a format, its flags in FPS. -/
def vecWrite (v : Vpx) (d : VNum) (f : FmtCode) (comp : Bool) (res : List (Nat × Flags)) : Op Unit :=
  modifySelf (fun c => (c.setV d (c.vecResult v d (fmtWidth f) f comp (fun i => (getAt res i (0, 0)).1))).orFlags
    (flagsOf res))

/-- An instruction of one source, element by element. -/
def lane1 (p : Option Vpx) (f : FmtCode) (d a : VNum) (fn : Nat → Nat → Nat × Flags) : Op Unit := do
  let v := vpxOf p
  let w := fmtWidth f
  needShape w
  needTag a (some f)
  let c ← self
  let mode := c.modeV v false
  vecWrite v d f false (c.lanes v.mask w (fun i => fn mode ((c.reg.v[a]).elem w i)))
  retires (lenV p)

/-- An instruction of two sources, element by element. -/
def lane2 (p : Option Vpx) (f : FmtCode) (d a b : VNum) (fn : Nat → Nat → Nat → Nat × Flags) : Op Unit := do
  let v := vpxOf p
  let w := fmtWidth f
  needShape w
  needTag a (some f)
  needTag b (some f)
  let c ← self
  let mode := c.modeV v false
  vecWrite v d f false (c.lanes v.mask w (fun i => fn mode ((c.reg.v[a]).elem w i) ((c.reg.v[b]).elem w i)))
  retires (lenV p)

/-! Elements (R154, R155, R159). -/

/-- An exact integer saturated to a format. -/
def satTo (f : FmtCode) (i : Int) : Nat × Flags := cvtII f i

/-- a + b. -/
def laneAdd (f : FmtCode) (mode a b : Nat) : Nat × Flags :=
  if isF f then fpAdd (fpFmt f) mode a b else satTo f (intValue f a + intValue f b)

/-- a − b. -/
def laneSub (f : FmtCode) (mode a b : Nat) : Nat × Flags :=
  if isF f then fpSub (fpFmt f) mode a b else satTo f (intValue f a - intValue f b)

/-- a × b. -/
def laneMul (f : FmtCode) (mode a b : Nat) : Nat × Flags :=
  if isF f then fpMul (fpFmt f) mode a b else satTo f (intValue f a * intValue f b)

/-- a × b + c. -/
def laneFma (f : FmtCode) (mode a b c : Nat) : Nat × Flags :=
  if isF f then fpFma (fpFmt f) mode a b c else satTo f (intValue f a * intValue f b + intValue f c)

/-- The smaller. -/
def laneMin (f : FmtCode) (a b : Nat) : Nat × Flags :=
  if isF f then fpMin (fpFmt f) a b else (if intValue f b < intValue f a then b else a, 0)

/-- The larger. -/
def laneMax (f : FmtCode) (a b : Nat) : Nat × Flags :=
  if isF f then fpMax (fpFmt f) a b else (if intValue f a < intValue f b then b else a, 0)

/-- A NaN made canonical, or another value's sign bit set as told. -/
def signLane (f : FpFmt) (a : Nat) (neg : Bool) : Nat × Flags :=
  let v := f.value a
  if v.isNan then (f.nan, nvOf [v]) else (a % 2 ^ (f.eb + f.fb) + f.sign neg, 0)

/-- |a|. -/
def laneAbs (f : FmtCode) (a : Nat) : Nat × Flags :=
  if isF f then signLane (fpFmt f) a false else satTo f (intValue f a).natAbs

/-- −a. -/
def laneNeg (f : FmtCode) (a : Nat) : Nat × Flags :=
  if isF f then signLane (fpFmt f) a (a / 2 ^ ((fpFmt f).eb + (fpFmt f).fb) % 2 = 0) else satTo f (-(intValue f a))

/-- The conditions of VCMP: 0 eq, 1 ne, 2 lt, 3 le, 4 unord. -/
def laneCmp (f : FmtCode) (cond a b : Nat) : Bool × Flags :=
  if isF f then
    match cond with
    | 0 => fpCmp (fpFmt f) 1 a b
    | 1 => (!(fpCmp (fpFmt f) 1 a b).1, (fpCmp (fpFmt f) 1 a b).2)
    | 2 => fpCmp (fpFmt f) 2 a b
    | 3 => fpCmp (fpFmt f) 3 a b
    | _ => fpCmp (fpFmt f) 4 a b
  else
    (match cond with
    | 0 => intValue f a = intValue f b
    | 1 => intValue f a ≠ intValue f b
    | 2 => intValue f a < intValue f b
    | 3 => intValue f a ≤ intValue f b
    | _ => false, 0)

/-- a shifted left. -/
def laneShl (w a b : Nat) : Nat := a * 2 ^ (b % w) % 2 ^ w

/-- a shifted right: logically for UINT8, else arithmetically. -/
def laneShr (f : FmtCode) (a b : Nat) : Nat :=
  let w := fmtWidth f
  if unsignedFmt f then a / 2 ^ (b % w) else ofSigned w (toSigned w a / 2 ^ (b % w))

/-- VADD. -/
def execVadd (p : Option Vpx) (fmt : FmtCode) (d a b : VNum) (s : State) : Host.Outcome State Fault Refusal :=
  s.does (lane2 p fmt d a b (laneAdd fmt))

/-- VSUB. -/
def execVsub (p : Option Vpx) (fmt : FmtCode) (d a b : VNum) (s : State) : Host.Outcome State Fault Refusal :=
  s.does (lane2 p fmt d a b (laneSub fmt))

/-- VMUL. -/
def execVmul (p : Option Vpx) (fmt : FmtCode) (d a b : VNum) (s : State) : Host.Outcome State Fault Refusal :=
  s.does (lane2 p fmt d a b (laneMul fmt))

/-- VFMA. -/
def vfmaOp (p : Option Vpx) (f : FmtCode) (d a b : VNum) : Op Unit := do
  let v := vpxOf p
  let w := fmtWidth f
  let e := thirdV p d
  needShape w
  needTag a (some f)
  needTag b (some f)
  needTag e (some f)
  let c ← self
  let mode := c.modeV v false
  vecWrite v d f false (c.lanes v.mask w (fun i =>
    laneFma f mode ((c.reg.v[a]).elem w i) ((c.reg.v[b]).elem w i) ((c.reg.v[e]).elem w i)))
  retires (lenV p)

/-- VFMA. -/
def execVfma (p : Option Vpx) (fmt : FmtCode) (d a b : VNum) (s : State) : Host.Outcome State Fault Refusal :=
  s.does (vfmaOp p fmt d a b)

/-- VMIN. -/
def execVmin (p : Option Vpx) (fmt : FmtCode) (d a b : VNum) (s : State) : Host.Outcome State Fault Refusal :=
  s.does (lane2 p fmt d a b (fun _ => laneMin fmt))

/-- VMAX. -/
def execVmax (p : Option Vpx) (fmt : FmtCode) (d a b : VNum) (s : State) : Host.Outcome State Fault Refusal :=
  s.does (lane2 p fmt d a b (fun _ => laneMax fmt))

/-- VABS. -/
def execVabs (p : Option Vpx) (fmt : FmtCode) (d a : VNum) (s : State) : Host.Outcome State Fault Refusal :=
  s.does (lane1 p fmt d a (fun _ => laneAbs fmt))

/-- VNEG. -/
def execVneg (p : Option Vpx) (fmt : FmtCode) (d a : VNum) (s : State) : Host.Outcome State Fault Refusal :=
  s.does (lane1 p fmt d a (fun _ => laneNeg fmt))

/-! Comparisons (R156). -/

/-- VCMP: an active element's bit is the condition, an inactive one's is kept or cleared, bits n to 511 are cleared. -/
def vcmpOp (p : Option Vpx) (f : FmtCode) (cond : Nat) (d : MNum) (a b : VNum) : Op Unit := do
  let v := vpxOf p
  let w := fmtWidth f
  needShape w
  needTag a (some f)
  needTag b (some f)
  let c ← self
  let res := (List.range c.grid).map (fun i =>
    if c.active v.mask w i then
      let r := laneCmp f cond ((c.reg.v[a]).elem w i) ((c.reg.v[b]).elem w i)
      (r.1.toNat, r.2)
    else (if v.mz then 0 else ((c.getM d).getLsbD i).toNat, 0))
  modifySelf (fun c => (c.setM d (BitVec.ofNat 512 (packElems 1 (res.map (fun r => r.1))))).orFlags (flagsOf res))
  retires (lenV p)

/-- VCMP.EQ. -/
def execVcmpEq (p : Option Vpx) (fmt : FmtCode) (d : MNum) (a b : VNum) (s : State) :
    Host.Outcome State Fault Refusal := s.does (vcmpOp p fmt 0 d a b)

/-- VCMP.NE. -/
def execVcmpNe (p : Option Vpx) (fmt : FmtCode) (d : MNum) (a b : VNum) (s : State) :
    Host.Outcome State Fault Refusal := s.does (vcmpOp p fmt 1 d a b)

/-- VCMP.LT. -/
def execVcmpLt (p : Option Vpx) (fmt : FmtCode) (d : MNum) (a b : VNum) (s : State) :
    Host.Outcome State Fault Refusal := s.does (vcmpOp p fmt 2 d a b)

/-- VCMP.LE. -/
def execVcmpLe (p : Option Vpx) (fmt : FmtCode) (d : MNum) (a b : VNum) (s : State) :
    Host.Outcome State Fault Refusal := s.does (vcmpOp p fmt 3 d a b)

/-- VCMP.UNORD. -/
def execVcmpUnord (p : Option Vpx) (fmt : FmtCode) (d : MNum) (a b : VNum) (s : State) :
    Host.Outcome State Fault Refusal := s.does (vcmpOp p fmt 4 d a b)

/-! Selection, copies and bitwise logic (R157 to R159). -/

/-- VSEL: every element below n is written. -/
def vselOp (p : Option Vpx) (f : FmtCode) (d a b : VNum) : Op Unit := do
  let v := vpxOf p
  let w := fmtWidth f
  needShape w
  needTag a (some f)
  needTag b (some f)
  let c ← self
  vecWrite { v with mask := 0 } d f false ((List.range c.grid).map (fun i =>
    (if c.active v.mask w i then (c.reg.v[a]).elem w i else (c.reg.v[b]).elem w i, 0)))
  retires (lenV p)

/-- VSEL. -/
def execVsel (p : Option Vpx) (fmt : FmtCode) (d a b : VNum) (s : State) : Host.Outcome State Fault Refusal :=
  s.does (vselOp p fmt d a b)

/-- Bits combined: the whole register with .u, else element by element; the tag is the sources' common one (R30). -/
def vlogicOp (p : Option Vpx) (f : FmtCode) (d a b : VNum) (fn : BitVec 4096 → BitVec 4096 → BitVec 4096) :
    Op Unit := do
  let v := vpxOf p
  let w := fmtWidth f
  if f ≠ 0 then needShape w
  needTag a none
  needTag b none
  let c ← self
  let va := c.reg.v[a]
  let vb := c.reg.v[b]
  let bits := fn va.bits vb.bits
  let same : Bool := va.tag = vb.tag && va.comp = vb.comp
  let tag : FmtCode := if same then va.tag else 0
  let comp : Bool := same && va.comp
  if f = 0 then modifySelf (fun c => c.setV d ⟨bits, tag, comp⟩)
  else
    let r : VReg := ⟨bits, tag, comp⟩
    modifySelf (fun c => c.setV d (c.vecResult v d w tag comp (fun i => r.elem w i)))
  retires (lenV p)

/-- VAND. -/
def execVand (p : Option Vpx) (fmt : FmtCode) (d a b : VNum) (s : State) : Host.Outcome State Fault Refusal :=
  s.does (vlogicOp p fmt d a b (fun x y => x &&& y))

/-- VOR. -/
def execVor (p : Option Vpx) (fmt : FmtCode) (d a b : VNum) (s : State) : Host.Outcome State Fault Refusal :=
  s.does (vlogicOp p fmt d a b (fun x y => x ||| y))

/-- VXOR. -/
def execVxor (p : Option Vpx) (fmt : FmtCode) (d a b : VNum) (s : State) : Host.Outcome State Fault Refusal :=
  s.does (vlogicOp p fmt d a b (fun x y => x ^^^ y))

/-- VSHL. -/
def execVshl (p : Option Vpx) (fmt : FmtCode) (d a b : VNum) (s : State) : Host.Outcome State Fault Refusal :=
  s.does (lane2 p fmt d a b (fun _ x y => (laneShl (fmtWidth fmt) x y, 0)))

/-- VSHR. -/
def execVshr (p : Option Vpx) (fmt : FmtCode) (d a b : VNum) (s : State) : Host.Outcome State Fault Refusal :=
  s.does (lane2 p fmt d a b (fun _ x y => (laneShr fmt x y, 0)))

/-- VMOV: with .u the whole register, its tag and companion bit, whatever they are. -/
def vmovOp (p : Option Vpx) (f : FmtCode) (d a : VNum) : Op Unit := do
  if f = 0 then
    needTag a none
    let r ← readV a
    modifySelf (fun c => c.setV d r)
    retires (lenV p)
  else lane1 p f d a (fun _ x => (x, 0))

/-- VMOV. -/
def execVmov (p : Option Vpx) (fmt : FmtCode) (d a : VNum) (s : State) : Host.Outcome State Fault Refusal :=
  s.does (vmovOp p fmt d a)

/-- VBCAST. -/
def vbcastOp (p : Option Vpx) (f : FmtCode) (d : VNum) (a : XReg) : Op Unit := do
  let v := vpxOf p
  let w := fmtWidth f
  needShape w
  let x ← readX a
  let c ← self
  vecWrite v d f false (c.lanes v.mask w (fun _ => (x.toNat % 2 ^ w, 0)))
  retires (lenV p)

/-- VBCAST. -/
def execVbcast (p : Option Vpx) (fmt : FmtCode) (d : VNum) (a : XReg) (s : State) :
    Host.Outcome State Fault Refusal := s.does (vbcastOp p fmt d a)

/-! Rows and columns (R160). -/

/-- Exact sum of elements. -/
def sumLanes (f : FmtCode) (mode : Nat) (l : List Nat) : Nat × Flags :=
  if isF f then finishFp (fpFmt f) mode (exactSum (l.map (fpFmt f).value))
  else satTo f (l.foldl (fun n a => n + intValue f a) 0)

/-- The pattern of a format's minimum, or of −∞. -/
def leastOf (f : FmtCode) : Nat := if isF f then (fpFmt f).inf true else intBits f (intRange f).1

/-- The larger of elements: a NaN is ignored unless there is nothing else. -/
def maxLanes (f : FmtCode) (l : List Nat) : Nat × Flags :=
  match l with
  | [] => (leastOf f, 0)
  | a :: rest => rest.foldl (fun r b => ((laneMax f r.1 b).1, r.2 ||| (laneMax f r.1 b).2))
    (laneMax f a a)

/-- The active elements of a row, or of a column. -/
def Context.along (c : Context) (v : Vpx) (w : Nat) (r : VReg) (row : Bool) (k : Nat) : List Nat :=
  ((List.range c.grid).filter (fun i => (if row then i / c.cols else i % c.cols) = k && c.active v.mask w i)).map
    (fun i => r.elem w i)

/-- A reduction of rows or columns, written to every element of each. -/
def reduceOp (p : Option Vpx) (f : FmtCode) (d a : VNum) (row : Bool) (fn : Nat → List Nat → Nat × Flags) :
    Op Unit := do
  let v := vpxOf p
  let w := fmtWidth f
  needShape w
  needTag a (some f)
  let c ← self
  let mode := c.modeV v false
  let res := (List.range (if row then c.rows else c.cols)).map (fun k => fn mode (c.along v w c.reg.v[a] row k))
  vecWrite { v with mask := 0 } d f false ((List.range c.grid).map (fun i =>
    getAt res (if row then i / c.cols else i % c.cols) (0, 0)))
  retires (lenV p)

/-- VSUM.ROW. -/
def execVsumRow (p : Option Vpx) (fmt : FmtCode) (d a : VNum) (s : State) : Host.Outcome State Fault Refusal :=
  s.does (reduceOp p fmt d a true (sumLanes fmt))

/-- VSUM.COL. -/
def execVsumCol (p : Option Vpx) (fmt : FmtCode) (d a : VNum) (s : State) : Host.Outcome State Fault Refusal :=
  s.does (reduceOp p fmt d a false (sumLanes fmt))

/-- VMAXR.ROW. -/
def execVmaxrRow (p : Option Vpx) (fmt : FmtCode) (d a : VNum) (s : State) : Host.Outcome State Fault Refusal :=
  s.does (reduceOp p fmt d a true (fun _ => maxLanes fmt))

/-- VMAXR.COL. -/
def execVmaxrCol (p : Option Vpx) (fmt : FmtCode) (d a : VNum) (s : State) : Host.Outcome State Fault Refusal :=
  s.does (reduceOp p fmt d a false (fun _ => maxLanes fmt))

/-! Elements moved between positions (R161). -/

/-- A movement: the element that each destination element receives. -/
def moveOp (p : Option Vpx) (f : FmtCode) (d a : VNum) (check : Op Unit) (pick : Context → Nat → Nat) : Op Unit := do
  let v := vpxOf p
  let w := fmtWidth f
  needShape w
  needTag a (some f)
  check
  let c ← self
  vecWrite v d f false (c.lanes v.mask w (fun i => (pick c i, 0)))
  retires (lenV p)

/-- Whether a tag is an integer one of a width, as VPERM wants of its indices. -/
def indexTag (v : VReg) (w : Nat) : Bool := 7 ≤ v.tag.val && v.tag.val ≤ 11 && fmtWidth v.tag = w

/-- The element of v[A] that VPERM gives an index. -/
def permPick (w : Nat) (a b : VNum) (c : Context) (i : Nat) : Nat :=
  let j := (c.reg.v[b]).elem w i
  if j < c.grid then (c.reg.v[a]).elem w j else 0

/-- VPERM. -/
def execVperm (p : Option Vpx) (fmt : FmtCode) (d a b : VNum) (s : State) : Host.Outcome State Fault Refusal :=
  s.does (moveOp p fmt d a (do need (indexTag (← readV b) (fmtWidth fmt)) 0x03) (permPick (fmtWidth fmt) a b))

/-- The element of v[A] that VROT gives a place. -/
def rotPick (w k : Nat) (a : VNum) (c : Context) (i : Nat) : Nat :=
  (c.reg.v[a]).elem w (i / c.cols * c.cols + (i % c.cols + k) % c.cols)

/-- VROT. -/
def execVrot (p : Option Vpx) (fmt : FmtCode) (d a : VNum) (b : XReg) (s : State) :
    Host.Outcome State Fault Refusal :=
  s.does (moveOp p fmt d a (pure ()) (rotPick (fmtWidth fmt) (s.x b).toNat a))

/-- The element of v[A] that VTRN gives a place. -/
def trnPick (w : Nat) (a : VNum) (c : Context) (i : Nat) : Nat :=
  (c.reg.v[a]).elem w (i % c.rows * c.cols + i / c.rows)

/-- VTRN. -/
def execVtrn (p : Option Vpx) (fmt : FmtCode) (d a : VNum) (s : State) : Host.Outcome State Fault Refusal :=
  s.does (moveOp p fmt d a (pure ()) (trnPick (fmtWidth fmt) a))

/-! Conversions (R162). -/

/-- A floating-point format among the conversions. -/
def isFp (f : FmtCode) : Bool := 1 ≤ f.val && f.val ≤ 6

/-- The exact value of a quantile code with u = 1 and S = 1. -/
def codeFp (table : List Nat) (k : Nat) : FpVal :=
  let e := codeValue table k
  if e = 0 then .fin false 0 0 else .fin (e < 0) e.natAbs (-7)

/-- One element converted. dt and st are the code tables of the destination and of the source. -/
def convert (dst src : FmtCode) (mode : Nat) (lfsr : BitVec 32) (sat : Bool) (dt st : List Nat) (a : Nat) :
    Nat × Flags :=
  if isFp src then
    if isFp dst then cvtFF (fpFmt dst) (fpFmt src) mode lfsr sat a
    else if 13 ≤ dst.val then cvtToQ4 dt a
    else cvtFI dst (fpFmt src) mode a
  else if 13 ≤ src.val then roundVal (fpFmt dst) mode lfsr sat (codeFp st a)
  else if isFp dst then cvtIF (fpFmt dst) mode lfsr sat (intValue src a)
  else cvtII dst (intValue src a)

/-- The results of the active elements in ascending order, and the LFSR after them: in SR mode each steps it (R44). -/
def srLanes (sr : Bool) (fn : BitVec 32 → Nat → Nat × Flags) : List (Nat × Bool) → BitVec 32 →
    List (Nat × Flags) × BitVec 32
  | [], l => ([], l)
  | (i, on) :: rest, l =>
    let l1 := if on && sr then lfsrStep l else l
    let (rs, l2) := srLanes sr fn rest l1
    ((if on then fn l1 i else (0, 0)) :: rs, l2)

/-- The code table of a bank of the context's cluster, or that of Q4N. -/
def State.codeTable (s : State) (f : FmtCode) (bank : Bool) : List Nat :=
  if f = 14 then getAt (s.cluster s.cl).banks bank.toNat [] else q4n

/-- The bank that a CTWR or a CTSWAP at a cluster's table concerns: the inactive one for a CTWR, the active one for a CTSWAP
(R266, R267). -/
def Cluster.bankOf (v : Cluster) (o : TableOp) : Bool := if o.image.isSome then !v.bank else v.bank

/-- Whether the first CTWR or CTSWAP at a cluster's table stalls for the holders of a bank (R266). -/
def Cluster.stalls (v : Cluster) (b : Bool) : Bool :=
  match v.table.head? with
  | none => false
  | some o => v.bankOf o = b

/-- An operation that would capture banks of some clusters waits while a CTWR or a CTSWAP there stalls for one (R266). -/
def captureIn (cls : List Nat) (bs : List Bool) : Op Unit := do
  let s ← get
  match bs.find? (fun b => cls.any (fun cl => (s.cluster cl).stalls b)) with
  | none => return ()
  | some b => waitFor (.bank b)

/-- Banks of the context's cluster captured. -/
def capture (bs : List Bool) : Op Unit := do captureIn [(← get).cl] bs

/-- VCVT. C[0] names the bank of a Q4P destination; a Q4P source decodes with its own companion bit. -/
def vcvtOp (p : Option Vpx) (dst src : FmtCode) (sat : Bool) (d a : VNum) : Op Unit := do
  let v := vpxOf p
  let w := fmtWidth dst
  needShape w
  needShape (fmtWidth src)
  needTag a (some src)
  let s ← get
  let c := s.cur
  let va := c.reg.v[a]
  let mode := c.modeV v (narrowingFmt dst)
  let bank : Bool := v.c.val % 2 = 1
  capture ((if dst = 14 then [bank] else []) ++ (if src = 14 then [va.comp] else []))
  let dt := s.codeTable dst bank
  let st := s.codeTable src va.comp
  let (res, l) := srLanes (mode = 6) (fun l i => convert dst src mode l sat dt st (va.elem (fmtWidth src) i))
    ((List.range c.grid).map (fun i => (i, c.active v.mask w i))) c.lfsr
  vecWrite v d dst bank res
  modifySelf (fun c => c.setLfsr l)
  retires (lenV p)

/-- VCVT. -/
def execVcvt (p : Option Vpx) (dst src : FmtCode) (d a : VNum) (s : State) : Host.Outcome State Fault Refusal :=
  s.does (vcvtOp p dst src false d a)

/-- VCVT.SAT. -/
def execVcvtSat (p : Option Vpx) (dst src : FmtCode) (d a : VNum) (s : State) : Host.Outcome State Fault Refusal :=
  s.does (vcvtOp p dst src true d a)

/-! SHAPE (R112, R163). -/

/-- Whether rows and columns are a shape. -/
def shapeOk (rows cols : Nat) : Bool :=
  1 ≤ rows && rows ≤ 1024 && 1 ≤ cols && cols ≤ 1024 && rows * cols ≤ 1024

/-- VSHAPE. -/
def vshapeOp (p : Option Vpx) (d a b : XReg) : Op Unit := do
  let r := (← readX a).toNat
  let k := (← readX b).toNat
  need (shapeOk r k) 0x10
  let old := (← self).reg.shape
  writeX d old
  modifySelf (fun c => { c with reg := { c.reg with shape := setBits (setBits old 31 16 r) 15 0 k } })
  retires (lenV p)

/-- VSHAPE. -/
def execVshape (p : Option Vpx) (_fmt : FmtCode) (d a b : XReg) (s : State) : Host.Outcome State Fault Refusal :=
  s.does (vshapeOp p d a b)

/-! Masks (R164). -/

/-- A mask register written. -/
def givesM (p : Option Vpx) (d : MNum) (fn : Context → BitVec 512) : Op Unit := do
  modifySelf (fun c => c.setM d (fn c))
  retires (lenV p)

/-- MAND. -/
def execMand (p : Option Vpx) (_fmt : FmtCode) (d a b : MNum) (s : State) : Host.Outcome State Fault Refusal :=
  s.does (givesM p d (fun c => c.getM a &&& c.getM b))

/-- MOR. -/
def execMor (p : Option Vpx) (_fmt : FmtCode) (d a b : MNum) (s : State) : Host.Outcome State Fault Refusal :=
  s.does (givesM p d (fun c => c.getM a ||| c.getM b))

/-- MNOT. -/
def execMnot (p : Option Vpx) (_fmt : FmtCode) (d a : MNum) (s : State) : Host.Outcome State Fault Refusal :=
  s.does (givesM p d (fun c => ~~~(c.getM a)))

/-- One bits among the lowest n of a mask. -/
def maskOnes (m : BitVec 512) : Nat → Nat
  | 0 => 0
  | n + 1 => (m.getLsbD n).toNat + maskOnes m n

/-- MPOP. -/
def execMpop (p : Option Vpx) (_fmt : FmtCode) (d : XReg) (a : MNum) (s : State) :
    Host.Outcome State Fault Refusal := s.gives d (word (maskOnes (s.cur.getM a) 512)) (lenV p)

/-! Loads and stores (R151 to R153). -/

/-- Bytes of a piece of a vector access: an element of 8 bits or more, a byte of 4-bit elements, 32 bytes of a .u one. -/
def pieceBytes (w : Nat) : Nat := if w = 0 then 32 else max (w / 8) 1

/-- The bytes that a vector access covers. -/
def Context.vecBytes (c : Context) (w : Nat) : Nat := if w = 0 then 512 else c.grid * w / 8

/-- Whether a piece is active. -/
def Context.pieceOn (c : Context) (k : MNum) (w i : Nat) : Bool :=
  if w = 0 then true else c.active k w (if w = 4 then 2 * i else i)

/-- The active pieces of a vector access, ascending. -/
def Context.pieces (c : Context) (k : MNum) (w : Nat) : List Nat :=
  (List.range (c.vecBytes w / pieceBytes w)).filter (fun i => c.pieceOn k w i)

/-- The address of the whole of a VLD or VST. -/
def vecBase (a : XReg) (off : BitVec 5) (w : Nat) : Op Nat := do
  effectiveVa (← readX a) (off.toInt * 512) ((← self).vecBytes w) (if w = 0 then 64 else pieceBytes w)

/-- The memory side of a read, met without reading. -/
def touchRead (p : Spot) (n : Nat) : Op Unit := do
  match (← get).whereIs p.ia with
  | .inbox _ _ => return ()
  | _ =>
    settle p.ia n
    let loc ← reach p .read
    needClean p loc n

/-- The checks of the active pieces, the lowest first: it decides the trap. -/
def checkReads (n : Nat) (addr : Nat → Op Nat) : List Nat → Op (List (Nat × Spot))
  | [] => return []
  | i :: is => do
    let p ← mapSpot (← addr i) .read false
    touchRead p n
    let rest ← checkReads n addr is
    return (i, p) :: rest

/-- The pieces read; inv says by an invariant load. -/
def readPieces (n : Nat) (inv : Bool) (spots : List (Nat × Spot)) : Op (List (Nat × List Byte)) := do
  let s ← get
  spots.mapM (fun p => do
    let bs ← if inv && s.inMemory p.2.ia then readInv p.2 n else readSpot p.2 n
    return (p.1, bs))

/-- Whether the addresses of all active pieces pass the checks that come before a WAIT field (R148, R152). -/
def mapsAll (addr : Nat → Op Nat) (is : List Nat) : Op Bool := fun s =>
  match (is.forM (fun i => do
    let _ ← mapSpot (← addr i) .read false) : Op Unit) s with
  | .ok _ _ => .ok true s
  | .error _ _ => .ok false s

/-- The bytes of a piece among those read. -/
def pieceAt (ps : List (Nat × List Byte)) (i : Nat) : List Byte := tabGet [] ps i

/-- Element i from the pieces read. -/
def elemOf (w : Nat) (ps : List (Nat × List Byte)) (i : Nat) : Nat :=
  if w = 4 then fromBytes (pieceAt ps (i / 2)) / 16 ^ (i % 2) % 16 else fromBytes (pieceAt ps i)

/-- A loaded vector written. -/
def vecLoaded (v : Vpx) (f : FmtCode) (d : VNum) (comp : Bool) (ps : List (Nat × List Byte)) : Op Unit :=
  if f = 0 then
    modifySelf (fun c => c.setV d ⟨BitVec.ofNat 4096 (fromBytes (ps.flatMap (fun q => q.2))), 0, false⟩)
  else
    modifySelf (fun c => c.setV d (c.vecResult v d (fmtWidth f) f comp (fun i => elemOf (fmtWidth f) ps i)))

/-- VLD. -/
def vldOp (p : Option Vpx) (f : FmtCode) (t : VNum) (a : XReg) (m : MemAttr) (off : BitVec 5) : Op Unit := do
  let v := vpxOf p
  let w := fmtWidth f
  if f ≠ 0 then needShape w
  let base ← vecBase a off w
  let n := pieceBytes w
  let c ← self
  let addr (i : Nat) : Op Nat := pure (base + i * n)
  if ← mapsAll addr (c.pieces v.mask w) then loadWaits m
  let spots ← checkReads n addr (c.pieces v.mask w)
  let ps ← readPieces n (m.cls = 2) spots
  if acquiring m then acquiresAll (spots.map (·.2)) n m.scope.val
  let s ← get
  vecLoaded v f t (s.cluster s.cl).bank ps
  retires (lenV p)

/-- VLD. -/
def execVld (p : Option Vpx) (fmt : FmtCode) (t : VNum) (a : XReg) (m : MemAttr) (off : BitVec 5) (s : State) :
    Host.Outcome State Fault Refusal := s.does (vldOp p fmt t a m off)

/-- The bytes of a piece of a data register. -/
def VReg.piece (r : VReg) (w i : Nat) : List Byte :=
  let n := pieceBytes w
  toBytes n (r.bits.extractLsb' (8 * n * i) (8 * n)).toNat

/-- A store of one piece, checked: the counter that takes it, or where it is prepared. -/
structure Piece where
  spot : Spot
  bytes : List Byte
  kind : Option PostKind
  loc : Option Nat

/-- The checks of the active pieces of a store, the lowest first. -/
def checkWrites (stream : Bool) (addr : Nat → Op Nat) (bytes : Nat → List Byte) : List Nat → Op (List Piece)
  | [] => return []
  | i :: is => do
    let p ← mapSpot (← addr i) .write false
    let s ← get
    let kind := s.postKind s.cur p.ia stream
    let loc ← if kind.isNone then prepareSpot p (bytes i).length else pure none
    let rest ← checkWrites stream addr bytes is
    return ⟨p, bytes i, kind, loc⟩ :: rest

/-- The pieces of one counter, as parts of one posted store. -/
def partsFor (k : PostKind) (ps : List Piece) : List (Nat × List Byte) :=
  mergedParts ((ps.filter (fun p => p.kind = some k)).map (fun p => (p.spot.ia, p.bytes)))

/-- The pieces stored: one posted store for each counter that they enter, then those in memory, then those in
registers. -/
def storePieces (ps : List Piece) (g : Gate) : Op Unit := do
  let ds := partsFor .d ps
  let fs := partsFor .p ps
  if !ds.isEmpty then postRoom .d
  if !fs.isEmpty then postRoom .p
  if !ds.isEmpty then postStore .d ds false g
  if !fs.isEmpty then postStore .p fs false g
  let here := ps.filter (fun p => p.kind.isNone)
  writeMerged (here.filterMap (fun p => p.loc.map (fun loc => (p.spot, loc, p.bytes)))) g
  here.forM (fun p => match p.loc with
    | some _ => return ()
    | none => writeWindow p.spot p.bytes g)

/-- VST: it retires without waiting, as ST does (R192). -/
def vstOp (p : Option Vpx) (f : FmtCode) (t : VNum) (a : XReg) (m : MemAttr) (off : BitVec 5) : Op Unit := do
  let v := vpxOf p
  let w := fmtWidth f
  if f ≠ 0 then needShape w
  needTag t (if f = 0 then none else some f)
  let base ← vecBase a off w
  let c ← self
  let r := c.reg.v[t]
  let ps ← checkWrites (m.cls = 2) (fun i => pure (base + i * pieceBytes w)) (fun i => r.piece w i)
    (c.pieces v.mask w)
  storePieces ps (← storeGate m)
  retires (lenV p)

/-- VST. -/
def execVst (p : Option Vpx) (fmt : FmtCode) (t : VNum) (a : XReg) (m : MemAttr) (off : BitVec 5) (s : State) :
    Host.Outcome State Fault Refusal := s.does (vstOp p fmt t a m off)

/-- Whether a tag is one that an index vector may carry. -/
def isIndex (r : VReg) : Bool := r.tag = 7 || r.tag = 8

/-- The address of an element of a gather or scatter. -/
def indexedVa (a : XReg) (x : VReg) (n i : Nat) : Op Nat := do
  let w := fmtWidth x.tag
  effectiveVa (← readX a) (toSigned w (x.elem w i) * n) n n

/-- SHAPE_ERROR for the data, then for the indices. -/
def indexedShape (f : FmtCode) (b : VNum) : Op Unit := do
  needShape (fmtWidth f)
  let x ← readV b
  if isIndex x then needShape (fmtWidth x.tag)

/-- VLDG. -/
def vldgOp (p : Option Vpx) (f : FmtCode) (d : VNum) (a : XReg) (b : VNum) : Op Unit := do
  let v := vpxOf p
  let w := fmtWidth f
  indexedShape f b
  let x ← readV b
  need (isIndex x) 0x03
  let c ← self
  let n := pieceBytes w
  let spots ← checkReads n (indexedVa a x n) (c.pieces v.mask w)
  let ps ← readPieces n false spots
  vecLoaded v f d false ps
  retires (lenV p)

/-- VLDG. -/
def execVldg (p : Option Vpx) (fmt : FmtCode) (d : VNum) (a : XReg) (b : VNum) (s : State) :
    Host.Outcome State Fault Refusal := s.does (vldgOp p fmt d a b)

/-- VSTS. -/
def vstsOp (p : Option Vpx) (f : FmtCode) (d : VNum) (a : XReg) (b : VNum) : Op Unit := do
  let v := vpxOf p
  let w := fmtWidth f
  indexedShape f b
  needTag d (some f)
  let x ← readV b
  need (isIndex x) 0x03
  let c ← self
  let r := c.reg.v[d]
  let ps ← checkWrites false (indexedVa a x (pieceBytes w)) (fun i => r.piece w i) (c.pieces v.mask w)
  storePieces ps (← gateOf 0 false false 0)
  retires (lenV p)

/-- VSTS. -/
def execVsts (p : Option Vpx) (fmt : FmtCode) (d : VNum) (a : XReg) (b : VNum) (s : State) :
    Host.Outcome State Fault Refusal := s.does (vstsOp p fmt d a b)

end Sys2Proof.Machine
end

