-- ==== Sys2Proof/Machine/Special.lean ====
section
/-! DEFINITION. Special.lean: the special functions (R165 to R169). The three functions that truncate are computed in
fixed point with 400 bits below the point, far beyond the 23 bits that decide their results (log 24). -/

namespace Sys2Proof.Machine

/-! VRINT, VSCALEB, VRCP, VRSQRT (R165 to R167). -/

/-- VRINT of one element: a zero keeps its sign, nothing is inexact. -/
def laneRint (f : FpFmt) (mode a : Nat) : Nat × Flags :=
  let v := f.value a
  match v with
  | .nan _ => (f.nan, nvOf [v])
  | .inf _ => (a, 0)
  | .fin n m e =>
    if m = 0 then (a, 0)
    else
      let (r, _) := roundTo (if mode = 6 then 1 else mode) 0 n m e 0
      ((roundFin f 2 0 false n r 0).1, 0)

/-- The exponent that VSCALEB takes from an element: toward zero, clamped. -/
def scaleOf (v : FpVal) : Int :=
  match v with
  | .nan _ => 0
  | .inf n => if n then -65536 else 65536
  | .fin n m e =>
    let (r, _) := roundTo 2 0 n m e 0
    max (-65536) (min 65536 (signedSig n r))

/-- VSCALEB of one element. -/
def laneScale (f : FpFmt) (mode a b : Nat) : Nat × Flags :=
  let va := f.value a
  let vb := f.value b
  if va.isNan || vb.isNan then (f.nan, nvOf [va, vb])
  else match va with
    | .fin n m e => if m = 0 then (a, 0) else roundArith f mode (.fin n m (e + scaleOf vb))
    | _ => (a, 0)

/-- VRCP of one element. -/
def laneRcp (f : FpFmt) (mode a : Nat) : Nat × Flags :=
  finishFp f mode (divVal (.fin false 1 0) (f.value a))

/-- 1 ÷ √(m × 2^e), with a sticky last bit. -/
def rsqrtFin (m : Nat) (e : Int) : FpVal :=
  let odd : Nat := if e % 2 = 0 then 0 else 1
  let r := isqrt (2 ^ (300 + odd) / m)
  .fin false (r * 2 + (if r * r * m = 2 ^ (300 + odd) then 0 else 1)) ((-e - odd - 300) / 2 - 1)

/-- VRSQRT of one element. -/
def laneRsqrt (f : FpFmt) (mode a : Nat) : Nat × Flags :=
  let v := f.value a
  match v with
  | .nan _ => (f.nan, nvOf [v])
  | .inf n => if n then (f.nan, fNV) else (0, 0)
  | .fin n m e =>
    if m = 0 then (f.inf n, fDZ)
    else if n then (f.nan, fNV)
    else roundArith f mode (rsqrtFin m e)

/-! Approx (R168). -/

/-- A magnitude truncated to 23 significant bits, as significand and exponent. -/
def trunc23 (m : Nat) (e : Int) : Nat × Int :=
  let sh := bitLen m - 23
  (m / 2 ^ sh, e + sh)

/-- Approx of an exact value that FP32 may hold, or else (exact = false) of one that lies just above m × 2^e in
magnitude, so that its 23 bits are those of m. -/
def approx (exact : Bool) (neg : Bool) (m : Nat) (e : Int) : Nat × Flags :=
  let direct := roundFin FP32 2 0 false neg m e
  if exact && direct.2 = 0 then direct
  else
    let (z, ez) := trunc23 m e
    if ez + bitLen z > 128 then (FP32.inf neg, fOF ||| fNX)
    else
      let r := (roundFin FP32 2 0 false neg z ez).1
      (r, if r % 2 ^ 31 < 2 ^ 23 then fNX ||| fUF else fNX)

/-! Fixed point. -/

/-- Bits below the point. -/
def fixBits : Nat := 400

/-- One. -/
def fixOne : Nat := 2 ^ fixBits

/-- Terms of ln 2 = Σ 1 ÷ (k × 2^k). -/
def ln2Terms : Nat → Nat
  | 0 => 0
  | k + 1 => fixOne / ((k + 1) * 2 ^ (k + 1)) + ln2Terms k

/-- ln 2, from below. -/
def ln2 : Nat := ln2Terms fixBits

/-- Terms of a series in which each is the one before times x ÷ k: from term t, with n more to come. -/
def expTerms (x : Nat) : Nat → Nat → Nat → Nat
  | 0, _, _ => 0
  | n + 1, k, t => t + expTerms x n (k + 1) (t * x / fixOne / k)

/-- 2^f for a fraction f, from below. -/
def exp2Fix (f : Nat) : Nat := expTerms (f * ln2 / fixOne) 100 1 fixOne

/-- Terms of arctan(1 ÷ q) = Σ ± 1 ÷ ((2k + 1) q^(2k + 1)), p being one over the power. -/
def atanTerms (q : Nat) : Nat → Nat → Int → Nat → Int
  | 0, _, _, _ => 0
  | n + 1, k, s, p => s * ((p / (2 * k + 1) : Nat) : Int) + atanTerms q n (k + 1) (-s) (p / (q * q))

/-- π = 16 arctan(1 ÷ 5) − 4 arctan(1 ÷ 239). -/
def piFix : Nat := (16 * atanTerms 5 100 0 1 (fixOne / 5) - 4 * atanTerms 239 30 0 1 (fixOne / 239)).toNat

/-- Terms of sin t, t² being given. -/
def sinTerms (t2 : Nat) : Nat → Nat → Int → Nat → Int
  | 0, _, _, _ => 0
  | n + 1, k, s, p => s * (p : Int) + sinTerms t2 n (k + 2) (-s) (p * t2 / fixOne / ((k + 1) * (k + 2)))

/-- sin πr for r from 0 to a half. -/
def sinFix (r : Nat) : Nat :=
  let t := r * piFix / fixOne
  (sinTerms (t * t / fixOne) 60 1 1 t).toNat

/-- Bits of log2 of r, from 1 to below 2, most significant first, by repeated squaring. -/
def log2Bits : Nat → Nat → Nat
  | 0, _ => 0
  | n + 1, r =>
    let q := r * r / fixOne
    if q ≥ 2 * fixOne then 2 ^ n + log2Bits n (q / 2) else log2Bits n q

/-- Bits of log2 that are computed below the point. -/
def logBits : Nat := 150

/-! The functions (R168). -/

/-- 2^x. -/
def laneExp2 (a : Nat) : Nat × Flags :=
  let v := FP32.value a
  match v with
  | .nan _ => (FP32.nan, nvOf [v])
  | .inf n => (if n then 0 else FP32.inf false, 0)
  | .fin n m e =>
    if e + bitLen m > 10 then approx true false 1 (if n then -1024 else 1024)
    else
      let x : Int := signedSig n (scaleUp m (e + 200))
      let k : Int := x / 2 ^ 200
      let f : Nat := (x % 2 ^ 200).toNat
      if f = 0 then approx true false 1 k
      else approx false false (exp2Fix (f * 2 ^ (fixBits - 200))) (k - fixBits)

/-- log2 x. -/
def laneLog2 (a : Nat) : Nat × Flags :=
  let v := FP32.value a
  match v with
  | .nan _ => (FP32.nan, nvOf [v])
  | .inf n => if n then (FP32.nan, fNV) else (FP32.inf false, 0)
  | .fin n m e =>
    if m = 0 then (FP32.inf true, fDZ)
    else if n then (FP32.nan, fNV)
    else
      let top := bitLen m - 1
      let k : Int := e + top
      if m = 2 ^ top then approx true (k < 0) k.natAbs 0
      else
        let y : Int := k * 2 ^ logBits + log2Bits logBits (m * 2 ^ (fixBits - top))
        if y < 0 then approx false true (y.natAbs - 1) (-logBits) else approx false false y.toNat (-logBits)

/-- sin πx. -/
def laneSinpi (a : Nat) : Nat × Flags :=
  let v := FP32.value a
  match v with
  | .nan _ => (FP32.nan, nvOf [v])
  | .inf _ => (FP32.nan, fNV)
  | .fin n m e =>
    if m = 0 then (a, 0)
    else
      let x := scaleUp m (e + 200) % 2 ^ 201
      let neg : Bool := n != decide (x ≥ 2 ^ 200)
      let h := x % 2 ^ 200
      if h = 0 then (FP32.sign n, 0)
      else
        let r := if h > 2 ^ 199 then 2 ^ 200 - h else h
        if r = 2 ^ 199 then approx true neg 1 0
        else approx false neg (sinFix (r * 2 ^ (fixBits - 200))) (-fixBits)

/-! The instructions. -/

/-- VRINT. -/
def execVrint (p : Option Vpx) (fmt : FmtCode) (d a : VNum) (s : State) : Host.Outcome State Fault Refusal :=
  s.does (lane1 p fmt d a (laneRint (fpFmt fmt)))

/-- VEXP2F. -/
def execVexp2f (p : Option Vpx) (fmt : FmtCode) (d a : VNum) (s : State) : Host.Outcome State Fault Refusal :=
  s.does (lane1 p fmt d a (fun _ => laneExp2))

/-- VSCALEB. -/
def execVscaleb (p : Option Vpx) (fmt : FmtCode) (d a b : VNum) (s : State) : Host.Outcome State Fault Refusal :=
  s.does (lane2 p fmt d a b (laneScale (fpFmt fmt)))

/-- VRCP. -/
def execVrcp (p : Option Vpx) (fmt : FmtCode) (d a : VNum) (s : State) : Host.Outcome State Fault Refusal :=
  s.does (lane1 p fmt d a (laneRcp (fpFmt fmt)))

/-- VRSQRT. -/
def execVrsqrt (p : Option Vpx) (fmt : FmtCode) (d a : VNum) (s : State) : Host.Outcome State Fault Refusal :=
  s.does (lane1 p fmt d a (laneRsqrt (fpFmt fmt)))

/-- VLOG2. -/
def execVlog2 (p : Option Vpx) (fmt : FmtCode) (d a : VNum) (s : State) : Host.Outcome State Fault Refusal :=
  s.does (lane1 p fmt d a (fun _ => laneLog2))

/-- VSINPI. -/
def execVsinpi (p : Option Vpx) (fmt : FmtCode) (d a : VNum) (s : State) : Host.Outcome State Fault Refusal :=
  s.does (lane1 p fmt d a (fun _ => laneSinpi))

end Sys2Proof.Machine
end

