-- ==== Sys2Proof/Machine/System.lean ====
section
/-! DEFINITION. System.lean: system registers (R111 to R118, R343, R355), traps on purpose and returns (R348, R352 to
R354), parked contexts (R350, R351, R358 to R360), ranges, translation, caches and capabilities (R364 to R367). -/

namespace Sys2Proof.Machine

/-! System registers (R111). -/

/-- Stretched cycles of a cluster from a step on (R118). -/
def State.stretchedSince (s : State) (cl since : Nat) : Nat := sumSteps (Config.stretched cl) since (s.now - since)

/-- DRPSTAT (R118). -/
def State.drpstat (s : State) (cl : Nat) : Word :=
  let c := s.cluster cl
  let cycles := if c.stretching then s.stretchedSince cl c.stretchAt else c.stretch
  BitVec.ofNat 64 (c.droops.toNat * 2 ^ 32 + min cycles 255 * 2 ^ 24 + (s.halfWidth cl).toNat * 2 ^ 16 +
    s.holdLeft cl % 2 ^ 16)

/-- STRIMB, as its last refresh left it (R70). -/
def State.strimb (s : State) (str : Nat) : Word :=
  let t := s.string str
  BitVec.ofNat 64 (t.throtShown.toNat * 2 ^ 31 + t.gactShown.toNat * 2 ^ 30 + t.node3.toNat * 2 ^ 20 + t.node2.toNat * 2 ^ 10 +
    t.node1.toNat)

/-- CTVER (R114). -/
def State.ctver (s : State) (cl : Nat) : Word :=
  BitVec.ofNat 64 ((s.cluster cl).swaps.toNat * 2 ^ 16 + (s.cluster cl).bank.toNat)

/-- A system register of a context as a supervisor reads it. GESSO reads as it was last written, even before the refresh at
which the value takes effect (log 43). -/
def State.sysOf (s : State) (c : Context) (n : Nat) : Word :=
  let cl := clusterOf c.id.core
  match n with
  | 0x02 => BitVec.ofNat 64 s.tstamp
  | 0x03 => BitVec.ofNat 64 (s.cyc cl)
  | 0x07 => (s.cluster cl).drpth
  | 0x08 => s.drpstat cl
  | 0x09 => s.strimb (cl / 4)
  | 0x0A => (s.string (cl / 4)).gessoNext.getD (s.string (cl / 4)).gesso
  | 0x0E => s.gzstat c
  | 0x13 => tabGet 0 s.capbase (pkgOf c.id.core)
  | 0x14 => s.ctver cl
  | _ => BitVec.ofNat 64 (sysOwned c n)

/-- A system register as its own context reads it. -/
def State.sysRead (s : State) (n : Nat) : Word :=
  if n = 0x12 && !s.cur.id.sup then 0 else s.sysOf s.cur n

/-- Whether SWR by a user or a supervisor writes a register. -/
def sysWritable (sup : Bool) (n : Nat) : Bool :=
  n = 0x00 || n = 0x01 ||
  (sup && (n = 0x07 || n = 0x0A || (0x0F ≤ n && n ≤ 0x12) || 0x20 ≤ n))

/-- GESSO with thresholds that R71 refuses replaced. -/
def gessoFix (w : Word) : Word :=
  let thresh := bitsOf w 19 10
  let limit := bitsOf w 29 20
  if thresh = 0 || limit < thresh || 300 < limit then setBits (setBits w 29 20 280) 19 10 200 else w

/-- What a write stores in a register, or the cause that it raises (R112, R113, R118, R71, R343, R355). -/
def sysStored (n : Nat) (old w : Word) : Except Nat Word :=
  match n with
  | 0x00 => if bitsOf w 63 32 = 0 && shapeOk (bitsOf w 31 16) (bitsOf w 15 0) then .ok w else .error 0x10
  | 0x01 =>
    if bitsOf w 11 9 = 0 || bitsOf w 11 9 = 7 then .error 0x02
    else
      let v := w &&& BitVec.ofNat 64 (ones 63 32 + ones 11 9 + ones 5 0)
      .ok (if bitsOf v 63 32 = 0 then setBits v 63 32 1 else v)
  | 0x07 =>
    let v := w &&& BitVec.ofNat 64 (ones 31 16 + ones 7 0)
    .ok (if bitsOf v 7 0 = 0 then setBits v 7 0 1 else v)
  | 0x0A => .ok (gessoFix (w &&& BitVec.ofNat 64 (ones 29 10 + 1)))
  | 0x0F =>
    let v := setBits (w &&& BitVec.ofNat 64 (ones 17 0)) 23 20 (bitsOf old 23 20)
    .ok (if 2 ≤ bitsOf v 17 16 then setBits v 17 16 1 else v)
  | 0x12 => .ok (w &&& BitVec.ofNat 64 (ones 55 12))
  | _ => .ok w

/-- A segment register written. -/
def Context.setSeg (c : Context) (k : Nat) (f : Seg → Seg) : Context :=
  let i : Fin 16 := Fin.ofNat 16 k
  { c with reg := { c.reg with sg := c.reg.sg.set i (f c.reg.sg[i]) } }

/-- A context's own register written. -/
def Context.setSys (c : Context) (n : Nat) (w : Word) : Context :=
  let r := c.reg
  if 0x30 ≤ n then c.setSeg (n - 0x30) (fun g => { g with limit := w })
  else if 0x20 ≤ n then c.setSeg (n - 0x20) (fun g => { g with base := w })
  else match n with
    | 0x00 => { c with reg := { r with shape := w } }
    | 0x01 => { c with reg := { r with fps := w } }
    | 0x0F => { c with reg := { r with ecause := w } }
    | 0x10 => { c with reg := { r with epcx := w } }
    | 0x11 => { c with reg := { r with eaddr := w } }
    | 0x12 => { c with reg := { r with spillbase := w } }
    | _ => c

/-- A register that contexts share, written from a cluster. -/
def State.setShared (s : State) (cl n : Nat) (w : Word) : State :=
  if n = 0x07 then s.setCluster cl { s.cluster cl with drpth := w }
  else if n = 0x0A then s.setString (cl / 4) { s.string (cl / 4) with gessoNext := some w }
  else s

/-- Whether a writable register belongs to a cluster or a string. -/
def sysShared (n : Nat) : Bool := n = 0x07 || n = 0x0A

/-- SRD. -/
def execSrd (d : XReg) (sn : Fin 1024) (s : State) : Host.Outcome State Fault Refusal :=
  s.gives d (s.sysRead sn.val) 4

/-- SWR. -/
def swrOp (n : Nat) (a : XReg) : Op Unit := do
  let s ← get
  if sysWritable s.cur.id.sup n then
    match sysStored n (s.sysOf s.cur n) (s.x a) with
    | .error cause => raise cause
    | .ok w => if sysShared n then set (s.setShared s.cl n w) else modifySelf (fun c => c.setSys n w)
  retires 4

/-- SWR. -/
def execSwr (sn : Fin 1024) (a : XReg) (s : State) : Host.Outcome State Fault Refusal := s.does (swrOp sn.val a)

/-! Traps on purpose (R352). -/

/-- SVC. -/
def execSvc (n : Fin 1024) (s : State) : Host.Outcome State Fault Refusal :=
  s.does (throw (.call 0x0B (BitVec.ofNat 64 n.val)))

/-- BKPT. -/
def execBkpt (n : Fin 1024) (s : State) : Host.Outcome State Fault Refusal :=
  s.does (throw (.call 0x0A (BitVec.ofNat 64 n.val)))

/-- TRAP. -/
def execTrap (n : Fin 1024) (s : State) : Host.Outcome State Fault Refusal := s.does (throw (.routine n.val))

/-! ERET (R348, R354). -/

/-- ERET in a user context: the end of an emulation. Its target is checked as that of any instruction which writes the
program counter (R78). -/
def eretUser : Op Unit := do
  let c ← self
  if c.reg.edepth != 1 then raiseOpen
  let target := c.reg.epcx + (if c.reg.ecause.getLsbD 11 then 8 else 4)
  if target.toNat % 4 != 0 then raiseAt 0x04 target.toNat
  if 2 ^ 60 ≤ target.toNat then raiseAt 0x05 target.toNat
  modifySelf (fun c => { c with reg := { c.reg with edepth := 0, ecause := setBits c.reg.ecause 13 12 0 } })
  modify (fun s => s.goto target)

/-- The current record disposed of: its context ends, or runs on and acquires. -/
def State.dispose (s : State) : State :=
  let core := s.cur.id.core
  let ec := s.cur.reg.ecause
  let k := s.core core
  let s1 := s.setCore core { k with serving := none }
  match k.serving with
  | none => s1
  | some uid =>
    match s1.ctx uid with
    | none => s1
    | some c =>
      if bitsOf ec 7 0 = 0 || !c.sched.parked then s1
      else if bitsOf ec 17 16 != 0 then s1.endTask uid 0
      else s1.mapCtx uid (fun c => { c with
        sched := { c.sched with parked := false }, order := { c.order with acquired := s.now } })

/-- A field of a saved context's frame, 0 where the frame cannot be read. -/
def State.frameGet (s : State) (c : Context) (off n : Nat) : Nat :=
  match (s.getIa c.token 2 (c.frameIa + off) n).1 with
  | .ok bs => fromBytes bs
  | .error _ => 0

/-- What reading n bytes of a saved context's frame leaves: the record of a malformed entry on the way (R361). -/
def State.frameRead (s : State) (c : Context) (off n : Nat) : State :=
  if c.resident then s else (s.getIa c.token 2 (c.frameIa + off) n).2

/-- A system register of a parked context: in its frame where SPILL has saved it (R351). -/
def State.parkedSys (s : State) (c : Context) (n : Nat) : Word :=
  if c.resident || sysShared n || n = 0x02 || n = 0x03 || n = 0x08 || n = 0x09 || n = 0x13 || n = 0x14 then s.sysOf c n
  else BitVec.ofNat 64 (s.frameGet c (0x200 + 8 * n) 8) &&& sysBits n

/-- The oldest record of the core taken by its supervisor. -/
def State.takeRecord (s : State) (r : TrapRec) (rest : List TrapRec) : State :=
  let core := s.cur.id.core
  let s1 := s.setCore core { s.core core with traps := rest, serving := if r.info then none else some r.uid }
  let (ec, epcx, eaddr, s2) := match s1.ctx r.uid with
    | none => (r.ecause, r.epcx, r.eaddr, s1)
    | some c => if r.info then (r.ecause, r.epcx, r.eaddr, s1)
        else (s1.parkedSys c 0x0F, s1.parkedSys c 0x10, s1.parkedSys c 0x11, s1.frameRead c 0x278 24)
  s2.setReg (fun g => { g with ecause := setBits ec 23 20 rest.length, epcx := epcx, eaddr := eaddr })

/-- ERET in the supervisor: the current record is disposed of, and the next one taken once there is one. -/
def eretSupervisor : Op Unit := do
  releaseSystem
  modify (fun s => s.dispose.setReg (fun g => { g with ecause := 0 }))
  let s ← get
  match (s.core s.cur.id.core).traps with
  | [] => waitFor .record
  | r :: rest =>
    set (s.takeRecord r rest)
    retires 4

/-- ERET. -/
def eretOp : Op Unit := do if (← self).id.sup then eretSupervisor else eretUser

/-- ERET. -/
def execEret (s : State) : Host.Outcome State Fault Refusal := s.does eretOp

/-! Parked registers (R350, R351). -/

/-- ILLEGAL_FIELD for a slot selector that names no user slot. -/
def slotSelector (w : Word) : Op Nat := do
  need (w.toNat < 7) 0x02
  return w.toNat

/-- A register of a parked context. -/
def State.parkedReg (s : State) (c : Context) (n : Nat) : Word :=
  let inFrame (off k v : Nat) : Word := BitVec.ofNat 64 (if c.resident then v else s.frameGet c off k)
  if 0x100 ≤ n then s.parkedSys c (n - 0x100)
  else if n < 0x20 then inFrame (0x100 + 8 * n) 8 (c.getX (Fin.ofNat 32 n)).toNat
  else match n with
    | 0x20 => inFrame 0x08 8 c.reg.pc.toNat
    | 0x21 => BitVec.ofNat 64 (1 + (if c.resident then 0 else 2))
    | 0x22 => BitVec.ofNat 64 ((if c.resident then c.reg.edepth else s.frameGet c 0x06 1) % 4)
    | 0x23 => inFrame 0x40 8 c.sched.sptab.toNat
    | _ => BitVec.ofNat 64 ((if c.resident then c.sched.spcnt else s.frameGet c 0x48 4) % 2 ^ 16)

/-- Where the frame holds the register of a number of R350: its offset and its size. -/
def frameSpot (n : Nat) : Nat × Nat :=
  if 0x100 ≤ n then (0x200 + 8 * (n - 0x100), 8)
  else if n < 0x20 then (0x100 + 8 * n, 8)
  else match n with
    | 0x20 => (0x08, 8)
    | 0x22 => (0x06, 1)
    | 0x23 => (0x40, 8)
    | _ => (0x48, 4)

/-- PKRD. -/
def pkrdOp (d a : XReg) (n : Nat) : Op Unit := do
  privileged
  let slot ← slotSelector (← readX a)
  let s ← get
  match s.parkedIn s.cur.id.core slot with
  | none => writeX d 0
  | some c =>
    set (s.frameRead c (frameSpot n).1 (frameSpot n).2)
    writeX d (s.parkedReg c n)
  retires 4

/-- PKRD. -/
def execPkrd (d a : XReg) (sn : Fin 1024) (s : State) : Host.Outcome State Fault Refusal :=
  s.does (pkrdOp d a sn.val)

/-- A parked context's register in its slot written. -/
def Context.setParked (c : Context) (n : Nat) (w : Word) : Context :=
  if n < 0x20 then c.setX (Fin.ofNat 32 n) w
  else match n with
    | 0x20 => c.setPc w
    | 0x22 =>
      if c.reg.ecause.getLsbD 14 then c
      else { c with reg := { c.reg with edepth := bitsOf w 1 0, ecause := setBits c.reg.ecause 13 12 (bitsOf w 1 0) } }
    | 0x23 => { c with sched := { c.sched with sptab := w } }
    | 0x24 => { c with sched := { c.sched with spcnt := bitsOf w 15 0 } }
    | _ => c

/-- A parked context's register in its frame written. -/
def State.setFramed (s : State) (c : Context) (n : Nat) (w : Word) : State :=
  let uid := c.id.uid
  if n = 0 then s
  else if n < 0x20 then s.frameField uid (0x100 + 8 * n) (toBytes 8 w.toNat)
  else match n with
    | 0x20 => s.frameField uid 0x08 (toBytes 8 w.toNat)
    | 0x22 =>
      let ec := s.parkedSys c 0x0F
      if ec.getLsbD 14 then s
      else (s.frameField uid 0x06 (toBytes 1 (bitsOf w 1 0))).frameField uid 0x278
        (toBytes 8 (setBits ec 13 12 (bitsOf w 1 0)).toNat)
    | 0x23 => s.frameField uid 0x40 (toBytes 8 w.toNat)
    | 0x24 => s.frameField uid 0x48 (toBytes 4 (bitsOf w 15 0))
    | _ => s

/-- A system register of a parked context written, with the checks of SWR. -/
def parkedSwr (c : Context) (n : Nat) (w : Word) : Op Unit := do
  let s ← get
  if sysWritable true n then
    match sysStored n (s.parkedSys c n) w with
    | .error cause => raise cause
    | .ok v =>
      if sysShared n then set (s.setShared (clusterOf c.id.core) n v)
      else if c.resident then set (s.mapCtx c.id.uid (fun c => c.setSys n v))
      else set (s.frameField c.id.uid (0x200 + 8 * n) (toBytes 8 v.toNat))

/-- PKWR. -/
def pkwrOp (d a : XReg) (n : Nat) : Op Unit := do
  privileged
  let w ← readX a
  let slot ← slotSelector (← readX d)
  if n = 0x23 then need (bitsOf w 4 0 = 0) 0x02
  let s ← get
  match s.parkedIn s.cur.id.core slot with
  | none => retires 4
  | some c =>
    if 0x100 ≤ n then parkedSwr c (n - 0x100) w
    else if c.resident then set (s.mapCtx c.id.uid (fun c => c.setParked n w))
    else set (s.setFramed c n w)
    retires 4

/-- PKWR. -/
def execPkwr (d a : XReg) (sn : Fin 1024) (s : State) : Host.Outcome State Fault Refusal :=
  s.does (pkwrOp d a sn.val)

/-! SPILL (R358, R360). -/

/-- Whether the slot of a selector holds a parked context, or none and one that SPILL has saved from it. -/
def State.slotParked (s : State) (core slot : Nat) : Bool :=
  match s.inSlot core slot with
  | some c => c.sched.parked
  | none => (s.parkedIn core slot).isSome

/-- Whether a SAFE spill is running a context of a core on. -/
def State.toSafe (s : State) (core : Nat) : Bool :=
  s.contexts.any (fun c => c.resident && c.id.core = core && c.sched.toSafe.isSome)

/-- SPILL: with SAFE the supervisor waits until the context it runs on has been saved. -/
def spillOp (a : XReg) : Op Unit := do
  privileged
  let w ← readX a
  need (bitsOf w 63 4 = 0) 0x02
  let slot ← slotSelector (BitVec.ofNat 64 (bitsOf w 2 0))
  let safe := w.getLsbD 3
  let s ← get
  let core := s.cur.id.core
  if s.cur.sync.wait = .record then
    if s.toSafe core then waitFor .record
  else
    need (!(safe && s.slotParked core slot)) 0x02
    match s.inSlot core slot with
    | none => pure ()
    | some c =>
      if safe then
        set (s.mapCtx c.id.uid (fun c => { c with sched := { c.sched with toSafe := some s.now } }))
        waitFor .record
      else set (s.saveContext c.id.uid .preempted none)
  retires 4

/-- SPILL. -/
def execSpill (a : XReg) (s : State) : Host.Outcome State Fault Refusal := s.does (spillOp a)

/-! AMAPW (R364). -/

/-- A range register written. -/
def Context.setRange (c : Context) (n : Fin 8) (v : BitVec 128) : Context :=
  { c with reg := { c.reg with amap := c.reg.amap.set n v } }

/-- A range register of a target written. -/
def State.writeRange (s : State) (target : Nat) (n : Fin 8) (v : BitVec 128) : State :=
  let core := s.cur.id.core
  if target = 8 then s.setCore core { s.core core with ranges := (s.core core).ranges.set n v }
  else if target = 7 then { s with cur := s.cur.setRange n v }
  else match s.parkedIn core target with
    | none => s
    | some c =>
      if c.resident then s.mapCtx c.id.uid (fun c => c.setRange n v)
      else s.frameField c.id.uid (0x400 + 16 * n.val) (toBytes 16 v.toNat)

/-- AMAPW. -/
def amapwOp (n : Fin 8) (a : XReg) : Op Unit := do
  privileged
  let base ← readX a
  let at_ ← effectiveVa base 0 32 32
  let bs ← (List.range 4).flatMapM (fun k => do
    let p ← mapSpot (at_ + 8 * k) .read false
    readSpot p 8)
  let target := fromBytes ((bs.drop 16).take 1)
  need (target ≤ 8 && fromBytes (bs.drop 17) = 0) 0x02
  modify (fun s => s.writeRange target n (rangeImage (BitVec.ofNat 128 (fromBytes (bs.take 16)))))
  retires 4

/-- AMAPW. -/
def execAmapw (n : Fin 8) (a : XReg) (s : State) : Host.Outcome State Fault Refusal := s.does (amapwOp n a)

/-! TLBINV (R183, R365). -/

/-- The size of the page that KIND names, as a power of two. -/
def invLog (kind : Nat) : Nat := match kind with
  | 0 => 15
  | 1 => 20
  | 2 => 25
  | 3 => 30
  | _ => 52

/-- The writes that ferries have still to perform in a range of IAs, with places that they have found there, are performed
before those places are forgotten (R183, R307). -/
def State.flushTails (s : State) (lo hi : Nat) : State :=
  let inside (q : Nat × Nat × List Byte) : Bool := lo ≤ q.1 && q.1 < hi
  if s.ferry.all (fun f => f.tail.isEmpty) then s
  else
    let s1 := (s.ferry.flatMap (fun f => f.tail.filter inside)).foldl (fun s q =>
      s.storeAt q.1 q.2.1 q.2.2 (Writer.agent 0)) s
    { s1 with
      ferry := s1.ferry.map (fun f => { f with tail := f.tail.filter (fun q => !(inside q)) })
      agenda := s1.agenda ++ (s1.ferry.filter FerryCmd.lingers).map (fun f => .ferry f.chain f.seq) }

/-- The completion of a TLBINV: waiters on objects in the page are released with GONE, regions that touched it abort
with PREEMPT, ferries finish their writes there (R144, R183, R317, R363). -/
def State.tlbDone (s : State) (ia kind : Nat) : State :=
  let n := 2 ^ invLog kind
  let lo := if kind < 4 then ia / n * n else ia / 2 ^ 53 * 2 ^ 53
  let hit := s.regions.filter (fun u => match s.region u with
    | none => false
    | some r => r.granules.any (fun g => lo < g * 32 + 32 && g * 32 < lo + n))
  ((hit.foldl (fun s u => s.glazeAbort u 6) s).flushTails lo (lo + n)).goneIn lo (lo + n)

/-- TLBINV. -/
def tlbinvOp (a : XReg) : Op Unit := do
  privileged
  let w ← readX a
  let kind := bitsOf w 3 0
  need (kind ≤ 4 && bitsOf w 63 56 = 0 && bitsOf w 14 4 = 0) 0x02
  let ia := bitsOf w 55 15 * 2 ^ 15
  let s ← get
  if !(s.pageable ia) then raiseAt 0x05 ia
  releaseSystem
  modify (fun s => s.tlbDone ia kind)
  retires 4

/-- TLBINV. -/
def execTlbinv (a : XReg) (s : State) : Host.Outcome State Fault Refusal := s.does (tlbinvOp a)

/-! Caches (R366) and capabilities (R367). -/

/-- The checks of CFLUSH and CINV: the IA and the location of the line, none where its page is away. -/
def cacheLine (a : XReg) : Op (Option (Nat × Nat)) := do
  let va ← effectiveVa (← readX a) 0 1 1
  let s ← get
  match s.cur.mapVa .read va with
  | .error cause => raiseAt cause va
  | .ok ia =>
    match (s.meet (ia / 128 * 128) .read s.cur.token).1 with
    | .ok loc => return some (ia / 128 * 128, loc)
    | _ => return none

/-- CFLUSH: no value changes. It counts as a store to the line, after the context's earlier accesses to it, and the first
release behind it publishes it (R100). -/
def cflushOp (a : XReg) : Op Unit := do
  match ← cacheLine a with
  | none => retires 4
  | some (line, loc) =>
    settle line 128
    modify (fun s => { s with flushes := s.flushes ++ [⟨loc / 128, s.cur.id.uid, s.now, []⟩] })
    retires 4

/-- CFLUSH. -/
def execCflush (a : XReg) (s : State) : Host.Outcome State Fault Refusal := s.does (cflushOp a)

/-- The step up to which a context sees the bytes of a line after CINV with i = 1: that of the latest flush of the line
with a release behind it that includes its core, where it has acquired since (R100). -/
def State.flushedTo (s : State) (c : Context) (line : Nat) : Nat :=
  s.flushes.foldl (fun n f =>
    if f.line = line && f.released.any (fun r => decide (r.1 < c.order.acquired) &&
      (f.uid = c.id.uid || !(outsideScope r.2.2 r.2.1 (some c.id.core)))) then max n f.step else n) 0

/-- A context that reads a line anew from a step on. -/
def Context.reads (line step : Nat) (c : Context) : Context :=
  { c with order := { c.order with seen := tabPut c.order.seen line (max (tabGet 0 c.order.seen line) step) } }

/-- Every context that runs on a core reads a line anew: the core holds no parcel of it (R366). -/
def State.discard (s : State) (core line step : Nat) : State :=
  let f (c : Context) : Context := if c.id.core = core && c.resident then c.reads line step else c
  { s with cur := f s.cur, others := s.others.map f }

/-- CINV: no value changes; with i = 1 every later fetch by the core reads the line anew. -/
def cinvOp (a : XReg) (i : Bool) : Op Unit := do
  match ← cacheLine a with
  | none => retires 4
  | some (_, loc) =>
    let s ← get
    let line := loc / 128
    if i then set (s.discard s.cur.id.core line (s.flushedTo s.cur line))
    retires 4

/-- CINV. -/
def execCinv (a : XReg) (i : Bool) (s : State) : Host.Outcome State Fault Refusal := s.does (cinvOp a i)

/-- CAPQ: the list of the context's package. -/
def capqOp (d a : XReg) : Op Unit := do
  let w ← readX a
  need (bitsOf w 63 24 = 0) 0x02
  let s ← get
  writeX d (match (s.capsOf (pkgOf s.cur.id.core)).find? (fun k => k.capid = bitsOf w 15 0 && bitsOf w 23 16 ≤ k.ver) with
    | none => BitVec.allOnes 64
    | some k => k.value)
  retires 4

/-- CAPQ. -/
def execCapq (d a : XReg) (s : State) : Host.Outcome State Fault Refusal := s.does (capqOp d a)

end Sys2Proof.Machine
end

