-- ==== Sys2Proof/Machine/Work.lean ====
section
/-! DEFINITION. Work.lean: SPAWN with its checks (R27, R53 to R62, R139, R140), TEND (R141, R142), CANCEL (R143) and
CWAIT (R144, R145). -/

namespace Sys2Proof.Machine

/-! Loads of the SPAWN procedure. -/

/-- A read of n bytes at a virtual address that a record or an object holds: a plain load of each granule. -/
def peek : Nat → Nat → Nat → Op (List Byte)
  | 0, _, _ => return []
  | fuel + 1, va, n => do
    if n = 0 then return []
    if 2 ^ 60 ≤ va then raiseAt 0x05 (va % 2 ^ 64)
    let p ← mapSpot va .read false
    let k := min n (32 - va % 32)
    let s ← get
    let a ← (match s.whereIs p.ia with
      | .inbox _ _ => readSpot p k
      | _ => readMem p k)
    let b ← peek fuel (va + k) (n - k)
    return a ++ b

/-- A number in n of some bytes. -/
def numIn (bs : List Byte) (off n : Nat) : Nat := fromBytes ((bs.drop off).take n)

/-- The DEMANDS block at an offset (R18). -/
def demandsIn (bs : List Byte) (o : Nat) : Demands where
  vregs := numIn bs o 1
  mregs := numIn bs (o + 1) 1
  tregs := numIn bs (o + 2) 1
  rings := numIn bs (o + 3) 1
  qacc := numIn bs (o + 4) 1
  group := numIn bs (o + 5) 1
  coreset := numIn bs (o + 6) 1
  tcells := numIn bs (o + 8) 2
  pal := numIn bs (o + 0x0C) 4
  tcm := numIn bs (o + 0x10) 4
  lag := numIn bs (o + 0x14) 4

/-- The fields of a DEMANDS block in order. -/
def Demands.fields (d : Demands) : List Nat :=
  [d.vregs, d.mregs, d.tregs, d.rings, d.qacc, d.group, d.coreset, d.tcells, d.pal, d.tcm, d.lag]

/-- The capability of each field, and the sub-cause of its refusal (R20, R25). -/
def capabilities : List (Nat × Nat) :=
  [(32, 0x01), (8, 0x02), (8, 0x03), (16, 0x04), (2, 0x05), (16, 0x06), (8, 0x0D), (96, 0x07), (1048576, 0x08),
   (65536, 0x09), (16777216, 0x0A)]

/-- Whether a DEMANDS block keeps the ranges of R18, reserved bytes included. -/
def demandsOk (bs : List Byte) (o : Nat) : Bool :=
  let d := demandsIn bs o
  numIn bs (o + 7) 1 = 0 && numIn bs (o + 0x0A) 2 = 0 && numIn bs (o + 0x18) 8 = 0 &&
  (d.group = 0 || d.group = 2 ^ Nat.log2 d.group) && [0, 1, 2, 4, 8].contains d.coreset &&
  d.pal % 512 = 0 && d.tcm % 64 = 0 && d.lag % 4096 = 0

/-- Check 1 of R59. -/
def recordOk (bs : List Byte) : Bool :=
  let n (o k : Nat) := numIn bs o k
  let total := n 0x10 2 * n 0x12 2 * n 0x14 2
  let stage : Bool := n 0x0A 2 / 4 % 2 = 1
  n 0x0E 2 = 0 && n 0x16 2 = 0 && n 0x34 4 = 0 && n 0x62 6 = 0 && n 0x7A 6 = 0 && n 0x0A 2 < 8 && n 0x61 1 < 16 &&
  n 0x0C 1 ≤ 7 && n 0x0D 1 ≤ 63 && 1 ≤ total && total < 2 ^ 32 &&
  (if stage then 1 ≤ n 0x78 1 && n 0x78 1 ≤ n 0x79 1
    else n 0x68 8 = 0 && n 0x70 8 = 0 && n 0x78 1 = 0 && n 0x79 1 = 0) &&
  demandsOk bs 0x40 && !(1 < n 0x45 1 && 1 < n 0x46 1)

/-! The checks of R59: an action of the machine that may answer with a status word in place of a launch. -/

/-- An action that a check may refuse. -/
abbrev Check := ExceptT Nat Op

/-- A refusal with cause RESOURCE. -/
def refuse {α : Type} (sub : Nat) : Check α := throw (0x09 + sub * 2 ^ 8)

/-- A refusal unless a condition holds. -/
def allow (cond : Bool) (sub : Nat) : Check Unit := if cond then pure () else refuse sub

/-- A completion object read: where it is, and its bytes. -/
structure Obj where
  spot : Spot
  loc : Nat
  bytes : List Byte

/-- A completion object read. -/
def readObj (va : Nat) : Op Obj := do
  let bs ← peek 3 va 64
  let p ← mapSpot va .read false
  let loc ← reach p .read
  return ⟨p, loc, bs⟩

/-- STATE of an object. -/
def Obj.state (o : Obj) : Nat := numIn o.bytes 0x08 1

/-- PARENT of an object. -/
def Obj.parent (o : Obj) : Nat := numIn o.bytes 0x10 8

/-- NCHILD of an object. -/
def Obj.children (o : Obj) : Nat := numIn o.bytes 0x20 4

/-- STREAM of an object. -/
def Obj.stream (o : Obj) : Bool := numIn o.bytes 0x0B 1 % 2 = 1

/-- Whether a parent of a level accepts one more child (R57). -/
def Obj.accepts (o : Obj) (level : Nat) : Bool :=
  o.state = 1 && numIn o.bytes 0x09 1 = level && o.children + 1 ≤ numIn o.bytes 0x04 4 &&
  !(o.stream && level != 2)

/-- Whether an object address is one that an object can have (R57, check 5). -/
def objVa (va : Nat) : Bool := va != 0 && va % 64 = 0

/-- The objects above one that is already attached, and PREV of the phase: as the home slices keep them, else as far as
its PARENT fields can be followed. -/
def State.above (s : State) (ia parent level : Nat) : List Nat × Option Nat :=
  match s.treeAbove 3 ia with
  | (a :: up, prev) => (a :: up, prev)
  | ([], _) =>
    let look (va : Nat) : Option (Nat × Nat) :=
      if va = 0 || 2 ^ 60 ≤ va then none
      else match s.cur.mapVa .read va with
        | .error _ => none
        | .ok a => match (s.meet a .read 0).1 with
          | .ok loc => some (a, loc)
          | _ => none
    let prevOf (loc : Nat) : Option Nat :=
      if s.numAt (loc + 0x18) 8 = 0 then none else (look (s.numAt (loc + 0x18) 8)).map (fun r => r.1)
    if level = 2 then
      match look parent with
      | none => ([], none)
      | some (a, loc) => (a :: ((look (s.numAt (loc + 0x10) 8)).map (fun r => r.1)).toList, prevOf loc)
    else ((look parent).toList.map (fun r => r.1), none)

/-- The IA of PREV of a phase that is attached now: its VA is mapped through the ranges of the spawning context, and one
that they do not map traps that SPAWN (log 101). -/
def prevIa (o : Obj) : Op (Option Nat) := do
  let va := numIn o.bytes 0x18 8
  if va = 0 then return none
  if 2 ^ 60 ≤ va then raiseAt 0x05 (va % 2 ^ 64)
  return some (← mapSpot va .read false).ia

/-- The objects above a launch: those that gain a child, the attachments that begin with it, all of the objects in order,
and PREV of the phase. -/
structure Tree where
  attach : List Obj
  links : List Attach
  chain : List Nat
  prev : Option Nat

/-- The attachment of a launch (R57), check 5. -/
def attachment (parent : Nat) (stage : Bool) : Check Tree := do
  let g ← readObj parent
  allow (g.accepts 2 && g.stream = stage) 0x15
  let s ← get
  if g.children != 0 then
    let up := s.above g.spot.ia g.parent 2
    return ⟨[g], [], g.spot.ia :: up.1, up.2⟩
  allow (objVa g.parent) 0x15
  let p ← readObj g.parent
  allow (p.accepts 3) 0x15
  if p.children != 0 then
    let up := (← get).above p.spot.ia p.parent 3
    let prev ← (match up.2 with
      | some ia => pure (some ia)
      | none => prevIa p : Op (Option Nat))
    return ⟨[g, p], [⟨g.spot.ia, p.spot.ia, none⟩], g.spot.ia :: p.spot.ia :: up.1, prev⟩
  let prev ← prevIa p
  allow (objVa p.parent) 0x15
  let j ← readObj p.parent
  allow (j.accepts 4) 0x15
  return ⟨[g, p, j], [⟨g.spot.ia, p.spot.ia, none⟩, ⟨p.spot.ia, j.spot.ia, prev⟩], [g.spot.ia, p.spot.ia, j.spot.ia],
    prev⟩

/-- Check 10: the segment table meets the binding table. -/
def segmentsOk (segs binds : List Byte) (count : Nat) : Bool :=
  (List.range count).all (fun k =>
    let n := numIn binds (8 * k) 1 % 16
    let base := numIn segs (16 * n) 8
    let limit := numIn segs (16 * n + 8) 8
    base % 2 ^ numIn binds (8 * k + 2) 1 = 0 && numIn binds (8 * k + 4) 4 ≤ limit)

/-- A ring header's IA at SPAWN, 0 for none (R53, R68). -/
def ringHeader (va : Nat) : Op Nat := do
  if va = 0 then return 0
  if 2 ^ 60 ≤ va then raiseAt 0x05 (va % 2 ^ 64)
  return (← mapSpot va .read false).ia

/-- SpawnChecks on a record at an address: the launch, its object and its attachment. Of several DEMANDS fields above
their capabilities check 4 reports the first in the order of R18; the manual gives none (log 90). -/
def spawnChecks (va : Nat) (bs : List Byte) : Check (Launch × Obj × Tree) := do
  let n (o k : Nat) := numIn bs o k
  allow (recordOk bs) 0x10
  let d := demandsIn bs 0x40
  let total := n 0x10 2 * n 0x12 2 * n 0x14 2
  let flags := n 0x0A 2
  let code := n 0x00 8
  let head ← peek 5 code 128
  allow (numIn head 0x60 4 = 0x4744554A && n 0x08 2 < numIn head 0x22 2) 0x0C
  allow ((d.fields.zip (demandsIn head 0x30).fields).all (fun p => p.1 ≤ p.2)) 0x16
  match (d.fields.zip capabilities).find? (fun p => p.2.1 < p.1) with
  | some p => refuse p.2.2
  | none => pure ()
  let lva := n 0x20 8
  let stage : Bool := flags / 4 % 2 = 1
  allow (objVa lva && objVa (n 0x18 8)) 0x15
  let lobj ← readObj lva
  allow (!(1 ≤ lobj.state && lobj.state ≤ 3)) 0x15
  let tree ← attachment (n 0x18 8) stage
  let s ← get
  let strings := s.regionStrings (s.eligible (n 0x60 1) (n 0x61 1))
  let sets := if 1 < d.group then total else if 1 < d.coreset then ceilDiv total d.coreset else 0
  allow (decide (sets ≤ strings.length)) 0x13
  let num := s.launches.length + 1
  let coresident : Bool := flags % 2 = 1
  let places := if coresident then placeAll strings d num total total s.held [] none else some []
  allow places.isSome 0x11
  allow (!strings.isEmpty) 0x12
  let segMode : Bool := numIn head 0x0A 1 = 0
  if !segMode then allow (numIn head 0x64 2 ≤ n 0x30 4) 0x14
  let segs ← if segMode then peek 9 (n 0x28 8) 256 else pure []
  let count := numIn head 0x2C 2
  if segMode then
    let binds ← peek 65 ((code + numIn head 0x28 4) % 2 ^ 64) (8 * min count 16)
    allow (segmentsOk segs binds (min count 16)) 0x17
  let entry ← peek 2 ((code + numIn head 0x24 4 + 16 * n 0x08 2) % 2 ^ 64) 4
  let qin ← ringHeader (n 0x68 8)
  let qout ← ringHeader (n 0x70 8)
  return ({
    num := num, lobj := word lva, lobjIa := lobj.spot.ia, chain := tree.chain, prev := tree.prev
    queue := n 0x0D 1, overlap := flags / 2 % 2 = 1, coresident := coresident, stage := stage
    cls := n 0x0C 1, dimx := n 0x10 2, dimy := n 0x12 2, dimz := n 0x14 2
    arg := word (n 0x38 8), record := word va, entry := word (code + fromBytes entry)
    segMode := segMode
    segs := Vector.ofFn (fun i => ⟨word (numIn segs (16 * i.val) 8), word (numIn segs (16 * i.val + 8) 8)⟩)
    demands := d, pkgmask := n 0x60 1, diemask := n 0x61 1, qin := qin, qout := qout
    slotmin := n 0x78 1, slotmax := n 0x79 1
    next := 0, dropped := 0, places := places.getD [], used := [], tcmKept := [], palKept := [], set := none
    stalled := false, finished := false }, lobj, tree)

/-- The object of an update at its home slice made ready: it waits while a live region has touched the object (R310), and a
release noted with its lines is published first where the context lies outside its scope (R304). -/
def homeLoc (p : Spot) (k : Access) : Op Nat := do
  settle p.ia 64
  forcePublish p.ia 64
  let loc ← reach p k 64
  let s ← get
  if s.pageable p.ia && s.touchedBy none p.ia 64 then waitFor .access
  return loc

/-- CreateLaunch (R60): every object made ready for its update, then the launch's object written, its ancestors given a
child, the launch queued. -/
def createLaunch (r : Launch × Obj × Tree) (parent : Nat) : Op Unit := do
  let (l, lobj, tree) := r
  let home ← homeLoc lobj.spot .atomic
  let locs ← tree.attach.mapM (fun o => do return (o.spot.ia, ← homeLoc o.spot .atomic))
  modify (fun s =>
    let bytes := toBytes 4 l.total ++ toBytes 4 l.total ++ [1, 1, 0, 0] ++ toBytes 4 0 ++ toBytes 8 parent ++
      toBytes 40 0
    let s1 := (s.putBytes home bytes).watch l.lobjIa home .completion
    let s2 := locs.foldl (fun s o =>
      (s.putNum (o.2 + 0x20) 4 ((s.numAt (o.2 + 0x20) 4 + 1) % 2 ^ 32)).watch o.1 o.2 .completion) s1
    { s2 with
      launches := s2.launches ++ [l]
      attached := s2.attached.filter (fun a => !(tree.links.any (fun b => b.ia = a.ia))) ++ tree.links })

/-- The SPAWN procedure on a record whose 128 bytes can be read: the status word. -/
def spawnAt (va : Nat) : Op Nat := do
  let bs ← peek 5 va 128
  match ← (spawnChecks va bs).run with
  | .error st => return st
  | .ok r =>
    createLaunch r (numIn bs 0x18 8)
    return 0

/-- SPAWN. -/
def spawnOp (d a : XReg) : Op Unit := do
  notInGlaze
  let va ← effectiveVa (← readX a) 0 128 64
  let _ ← mapSpot va .read false
  releaseSystem
  let st ← spawnAt va
  writeX d (word st)
  retires 4

/-- SPAWN. -/
def execSpawn (d a : XReg) (s : State) : Host.Outcome State Fault Refusal := s.does (spawnOp d a)

/-! TEND (R138, R141). -/

/-- TEND: a late failure is a trap of it; then everything drains, and the task ends with its status word. -/
def tendOp (a : XReg) : Op Unit := do
  userOnly
  notInGlaze
  need (← self).sync.monitors.isEmpty 0x0E
  takeLate (fun _ => true)
  releaseSystem
  takeDeferred 6
  let w ← readX a
  modify (fun s => s.endTask s.cur.id.uid (w.extractLsb' 0 32))

/-- TEND. -/
def execTend (a : XReg) (s : State) : Host.Outcome State Fault Refusal := s.does (tendOp a)

/-! CANCEL (R143). -/

/-- CANCEL. -/
def cancelOp (d a b : XReg) : Op Unit := do
  notInGlaze
  let va ← effectiveVa (← readX a) 0 64 64
  let p ← mapSpot va .write false
  let w := (← readX b).toNat % 2 ^ 32
  let cause := if w = 0 then 0xFFFFFFFF else w
  releaseSystem
  let loc ← homeLoc p .write
  let s ← get
  let (code, s1) := (s.watch p.ia loc .completion).homeCancel loc cause
  set s1
  acquireNow
  if code = 0 then due (.cancelMark p.ia)
  writeX d (word code)
  retires 4
  modify (fun s => if s.cancelling s.cur.job.launch then s.endTask s.cur.id.uid 0 else s)

/-- CANCEL. -/
def execCancel (d a b : XReg) (s : State) : Host.Outcome State Fault Refusal := s.does (cancelOp d a b)

/-! CWAIT (R144). -/

/-- Whether an address is that of an object, or of one on its PARENT chain. -/
def onChain : Nat → Nat → Nat → Op Bool
  | 0, _, _ => return false
  | n + 1, va, obj => do
    if obj = 0 then return false
    if va = obj then return true
    if n = 0 then return false
    let up ← peek 2 (obj + 0x10) 8
    onChain n va (fromBytes up)

/-- The return of a CWAIT with its outcome: one that finds the object finished acquires with scope system (R144). -/
def cwaitReturn (d : XReg) (out : Word) : Op Unit := do
  if out.toNat % 256 ≤ 1 then acquireNow
  writeX d out
  retires 4

/-- A blocked CWAIT taken up again: it returns what the home slice has granted it, or TIMEOUT once its deadline has passed. -/
def cwaitResume (d b : XReg) (ia : Nat) (grant : Option Word) : Op Unit := do
  match grant with
  | some g => cwaitReturn d g
  | none =>
    if (← get).due (← readX b) then cwaitReturn d 2
    else waitFor (.object ia)

/-- CWAIT as it begins. -/
def cwaitBegin (d a b : XReg) : Op Unit := do
  let va ← effectiveVa (← readX a) 0 64 64
  let p ← mapSpot va .read false
  if ← onChain 4 va (← self).reg.tlaunch.toNat then cwaitReturn d 6
  else
    settle p.ia 64
    forcePublish p.ia 64
    let loc ← reach p .read
    let s ← get
    let st := s.numAt (loc + 8) 1
    let status := s.numAt (loc + 0x0C) 4
    if st = 2 || st = 4 then cwaitReturn d (word (status * 2 ^ 32 + (if st = 2 then 0 else 1)))
    else if st != 1 && st != 3 then cwaitReturn d 5
    else if s.due (← readX b) then cwaitReturn d 2
    else
      set (s.watch p.ia loc .completion)
      waitFor (.object p.ia)

/-- CWAIT. -/
def cwaitOp (d a b : XReg) : Op Unit := do
  userOnly
  notInGlaze
  let c ← self
  match c.sync.wait with
  | .object ia => cwaitResume d b ia c.sync.grant
  | _ => cwaitBegin d a b

/-- CWAIT. -/
def execCwait (d a b : XReg) (s : State) : Host.Outcome State Fault Refusal := s.does (cwaitOp d a b)

end Sys2Proof.Machine
end

