-- ==== Sys2Proof/Machine/Sync.lean ====
section
/-! DEFINITION. Sync.lean: barriers and monitors (R311 to R322), glazes (R323 to R336), and the power instructions
(R379 to R382). -/

namespace Sys2Proof.Machine

/-! The checks of R312. -/

/-- Checks 5 to 7: the object's address. -/
def objSpot (a : XReg) : Op Spot := do
  let s ← get
  let va ← effectiveVa (s.x a) 0 64 64
  match s.cur.mapVa .atomic va with
  | .error cause => raiseAt cause va
  | .ok ia => if s.pageable ia then return ⟨va, ia⟩ else raiseAt 0x07 va

/-- The IA that an address names whatever its range permits, for the list of monitors (R312, check 3). -/
def Context.namedIa (c : Context) (base : Word) : Option Nat :=
  match c.effective base 0 64 with
  | .error _ => none
  | .ok va => (c.reg.amap.toList.find? (fun a => rangeMatches a va)).map (fun a =>
      rangeField a 86 56 * 2 ^ 25 + va - rangeField a 55 21 * 2 ^ 25)

/-! Barriers (R313 to R317). -/

/-- Identity of a combining operation. -/
def barIdentity (op : Nat) : Nat := if op = 2 then 2 ^ 32 - 1 else 0

/-- Combine (R315). -/
def barCombine (op a v : Nat) : Nat :=
  match op with
  | 1 => a ||| v
  | 2 => a &&& v
  | 3 => (a + v) % 2 ^ 32
  | _ => a

/-- The home slice's step of BARINIT: the result code. -/
def State.barInit (s : State) (ia loc count op : Nat) : Nat × State :=
  let r := if s.objectLive loc .barrier && s.numAt (loc + 0x18) 4 != 0 then 1 else 0
  let gen := (s.numAt (loc + 0x20) 8 + 1) % 2 ^ 64
  let bs := toBytes 4 count ++ toBytes 8 0 ++ [1] ++ toBytes 1 op ++ toBytes 2 0 ++ toBytes 4 (barIdentity op) ++
    toBytes 12 0 ++ toBytes 8 gen ++ toBytes 24 0
  (r, ((s.releaseWaiters (.barrier ia) 1).putBytes loc bs).watch ia loc .barrier)

/-- BARINIT. -/
def barinitOp (d a b : XReg) : Op Unit := do
  notInGlaze
  let p ← objSpot a
  let w ← readX b
  releaseSystem
  if bitsOf w 31 0 = 0 || bitsOf w 63 34 != 0 then writeX d 4
  else
    let loc ← homeLoc p .atomic
    let s ← get
    let (r, s1) := s.barInit p.ia loc (bitsOf w 31 0) (bitsOf w 33 32)
    set s1
    acquireNow
    writeX d (word r)
  retires 4

/-- BARINIT. -/
def execBarinit (d a b : XReg) (s : State) : Host.Outcome State Fault Refusal := s.does (barinitOp d a b)

/-- The home slice's step of BARW: the word that the arrival gets at once, or none where it waits. -/
def State.barArrive (s : State) (ia loc v : Nat) : Option Word × State :=
  if !(s.objectLive loc .barrier) then (some 4, s)
  else
    let op := s.numAt (loc + 0x0D) 1 % 4
    let acc := barCombine op (s.numAt (loc + 0x10) 4) v
    let arrived := (s.numAt (loc + 4) 4 + 1) % 2 ^ 32
    if arrived = s.numAt loc 4 then
      let phase := (s.numAt (loc + 8) 4 + 1) % 2 ^ 32
      let st := word (acc * 2 ^ 32 + phase % 2 ^ 24 * 2 ^ 8)
      let s1 := (((s.putNum (loc + 4) 4 0).putNum (loc + 8) 4 phase).putNum (loc + 0x10) 4 (barIdentity op)).putNum
        (loc + 0x14) 4 acc
      (some st, ((s1.putNum (loc + 0x18) 4 0).putNum (loc + 0x28) 8 s.tstamp).releaseWaiters (.barrier ia) st)
    else
      let s1 := (s.putNum (loc + 4) 4 arrived).putNum (loc + 0x10) 4 acc
      (none, s1.putNum (loc + 0x18) 4 ((s1.numAt (loc + 0x18) 4 + 1) % 2 ^ 32))

/-- SHED_AT_BARRIER (R375): a task whose class is shed stops at the return of a BARW. -/
def shedAtBarrier : Op Unit := modify (fun s =>
  if s.classShed (pkgOf s.cur.id.core) s.cur.reg.cls then
    (({ s with cur := { s.cur with power := { s.cur.power with afterBarw := true, hold := false } } } : State).saveContext
      s.cur.id.uid (.shed none) none).easeHalf (pkgOf s.cur.id.core)
  else s)

/-- The return of BARW with a status word: the barrier boundary, which acquires where the phase has completed (R308, R315). -/
def barReturn (d : XReg) (w : Word) : Op Unit := do
  if w.toNat % 256 = 0 then acquireNow
  writeX d w
  retires 4
  shedAtBarrier

/-- BARW. An arrival is counted once: a context that waits for its grant does not arrive again. -/
def barwOp (d a b : XReg) : Op Unit := do
  let c ← self
  match c.sync.wait, c.sync.grant with
  | .barrier _, some g => barReturn d g
  | _, _ =>
    notInGlaze
    userOnly
    let p ← objSpot a
    let v := (← readX b).toNat % 2 ^ 32
    releaseSystem
    let loc ← homeLoc p .atomic
    let s ← get
    let (st, s1) := (s.watch p.ia loc .barrier).barArrive p.ia loc v
    set s1
    match st with
    | some w => barReturn d w
    | none => waitFor (.barrier p.ia)

/-- BARW. -/
def execBarw (d a b : XReg) (s : State) : Host.Outcome State Fault Refusal := s.does (barwOp d a b)

/-! Monitors (R318 to R321). -/

/-- The return of a MENTER with its status: one that has been granted the monitor acquires (R308, R319), one that R317 has
released, with CLOBBERED or GONE, does not. -/
def menterReturn (d : XReg) (w : Word) : Op Unit := do
  if w != 2 && w != 3 then acquireNow
  writeX d w
  retires 4

/-- MENTER. -/
def menterOp (d a : XReg) : Op Unit := do
  let c ← self
  match c.sync.wait, c.sync.grant with
  | .monitor _, some g => menterReturn d g
  | _, _ =>
    notInGlaze
    userOnly
    need (decide (c.sync.monitors.length < 8)) 0x0E
    let p ← objSpot a
    let loc ← homeLoc p .atomic
    let s ← get
    let held := s.numAt (loc + 4) 1
    if s.numAt (loc + 5) 1 != 1 || 1 < held then
      writeX d 4
      retires 4
    else if held = 1 && s.numAt loc 4 = c.src then
      writeX d 5
      retires 4
    else if held = 0 then
      set ((s.watch p.ia loc .monitor).grantObject loc c.src)
      modifySelf (fun c => { c with sync := { c.sync with monitors := c.sync.monitors ++ [p.ia] } })
      menterReturn d 0
    else
      set ((s.watch p.ia loc .monitor).putNum (loc + 8) 4 ((s.numAt (loc + 8) 4 + 1) % 2 ^ 32))
      waitFor (.monitor p.ia)

/-- MENTER. -/
def execMenter (d a : XReg) (s : State) : Host.Outcome State Fault Refusal := s.does (menterOp d a)

/-- MEXIT. -/
def mexitOp (a : XReg) : Op Unit := do
  notInGlaze
  let c ← self
  match c.namedIa (← readX a) with
  | none => raise 0x0E
  | some ia => need (c.sync.monitors.contains ia) 0x0E
  let p ← objSpot a
  releaseSystem
  let loc ← homeLoc p .atomic
  modifySelf (fun c => { c with sync := { c.sync with monitors := c.sync.monitors.erase p.ia } })
  modify (fun s => s.monitorExit c.src p.ia loc 0)
  retires 4

/-- MEXIT. -/
def execMexit (a : XReg) (s : State) : Host.Outcome State Fault Refusal := s.does (mexitOp a)

/-! Glazes (R323 to R336). -/

/-- A region entry for a context: the one reserved for it, else a free one of its die where none waits before it. -/
def State.regionEntry (s : State) (c : Context) : Option (Nat × Nat) × State :=
  match s.dies.findSome? (fun d => (d.2.reserved.find? (fun r => r.1 = c.id.uid)).map (fun r => (d.1, r.2))) with
  | some (die, entry) =>
    let d := s.die die
    (some (die, entry), s.setDie die { d with reserved := d.reserved.filter (fun r => r.1 != c.id.uid) })
  | none =>
    let die := dieOf c.id.core
    let d := s.die die
    if s.dies.any (fun d => d.2.entryQueue.contains c.id.uid) then (none, s)
    else
      let used := (s.contexts.filterMap (fun c => c.sync.region)).filter (fun r => r.die = die)
      let open_ := (List.range Config.regionsPerDie).filter (fun e =>
        !(used.any (fun r => r.entry = e)) && !(d.reserved.any (fun r => r.2 = e)))
      match d.entryQueue.isEmpty, s.choose open_ with
      | true, (some e, s1) => (some (die, e), s1)
      | _, _ => (none, s.setDie die { d with entryQueue := d.entryQueue ++ [c.id.uid] })

/-- The checkpoint of a context, x[D] zero (R326). -/
def Context.checkpoint (c : Context) (d : XReg) : Checkpoint :=
  let c1 := c.setX d 0
  ⟨c1.reg.x, c1.reg.v, c1.reg.m, c1.reg.t, c1.reg.q, c1.reg.fps, c1.reg.shape, c1.sync.monitors⟩

/-- GZBEGIN. -/
def gzbeginOp (d : XReg) : Op Unit := do
  userOnly
  if ← inGlaze then
    modify (fun s => s.glazeAbort s.cur.id.uid 7)
    throw .gone
  takeLate (fun k => k = .message)
  releaseSystem
  takeDeferred 6
  let s ← get
  let (e, s1) := s.regionEntry s.cur
  set s1
  match e with
  | none => waitFor (.entry (dieOf s.cur.id.core))
  | some (die, entry) =>
    acquireNow
    writeX d 0
    modifySelf (fun c => { c with sync := { c.sync with region := some {
      die := die, entry := entry, born := s.now, senior := bitsOf c.reg.gzstat 19 18 = 3, gzpc := c.reg.pc, gzd := d
      ckpt := c.checkpoint d, log := [], granules := [], edges := [], owed := [], pending := [], freed := [], ending := false
      postf := false } } })
    retires 4

/-- GZBEGIN. -/
def execGzbegin (d : XReg) (s : State) : Host.Outcome State Fault Refusal := s.does (gzbeginOp d)

/-- GZEND: the region waits for its tile stores to enter their granules, for its predecessors, and for POSTF where a held
store names it, then commits; the full fence of scope system that follows meets the failure of a reduction at the commit, and
the context's flushes are released (R308, R334). -/
def gzendOp (d : XReg) : Op Unit := do
  let s ← get
  match s.cur.sync.region with
  | none => raise 0x0E
  | some _ =>
    drainSome true false false
    takeLate (fun k => k = .drain)
    let s ← get
    if !s.cur.io.drains.isEmpty then waitFor .access
    let r ← (match s.cur.sync.region with
      | none => throw .gone
      | some r => pure r)
    if !r.edges.isEmpty then
      set (s.mapRegion s.cur.id.uid (fun r => { r with ending := true, pending := [] }))
      waitFor .edge
    if r.postf then waitCounter 3
    modify (fun s => s.glazeCommitRegion s.cur.id.uid)
    endFence
    modify (fun s => if s.flushes.isEmpty then s else s.releaseFlushes s.cur.id.uid s.cur.id.core 6 s.now)
    acquireNow
    takeLate (fun _ => true)
    writeX d 0
    retires 4

/-- GZEND. -/
def execGzend (d : XReg) (s : State) : Host.Outcome State Fault Refusal := s.does (gzendOp d)

/-- GZABORT. -/
def gzabortOp (a : XReg) : Op Unit := do
  need (← inGlaze) 0x0E
  let w ← readX a
  modifySelf (fun c => { c with reg := { c.reg with gzstat := setBits c.reg.gzstat 63 56 (bitsOf w 7 0) } })
  modify (fun s => s.glazeAbort s.cur.id.uid 5)
  throw .gone

/-- GZABORT. -/
def execGzabort (a : XReg) (s : State) : Host.Outcome State Fault Refusal := s.does (gzabortOp a)

/-! Power (R379 to R382). -/

/-- A refusal of PCLASS or BLEASE. -/
def refusal (code : Nat) : Word := word (2 ^ 63 + code)

/-- PCLASS. A hold ends with a change of class, and the 2 ms of R375 then run from this retirement where the new class is
shed; a class written again changes nothing. -/
def pclassOp (d a : XReg) : Op Unit := do
  notInGlaze
  userOnly
  let k := (← readX a).toNat
  let c ← self
  if 7 < k || k < c.job.lclass then writeX d (refusal c.reg.cls)
  else
    writeX d (word c.reg.cls)
    if k != c.reg.cls then modify (fun s =>
      let shed := s.classShed (pkgOf s.cur.id.core) k
      ({ s with cur := { s.cur with
        reg := { s.cur.reg with cls := k }
        power := { s.cur.power with shedAt := if shed then some s.tstamp else none, hold := false } } } : State).easeHalf
          (pkgOf s.cur.id.core))
  retires 4

/-- PCLASS. -/
def execPclass (d a : XReg) (s : State) : Host.Outcome State Fault Refusal := s.does (pclassOp d a)

/-- Whether boost is withheld in a package: HWPWR, SAFE or a shed class (R381). -/
def State.boostOff (s : State) (pkg : Nat) : Bool :=
  let w := s.ctlGet (pkg * 4) 0x758
  w.getLsbD 30 || w.getLsbD 31 || bitsOf w 39 33 != 0

/-- What BLEASE answers, and the machine after it. -/
def State.lease (s : State) (d l : Nat) : Word × State :=
  let c := s.cur
  let str := stringOf c.id.core
  let (die, off) := lbudAt str
  let held := s.ctlField die off 15 8
  match c.power.lease with
  | some k =>
    if d = 0 && l = 0 then (word k.expiry, s)
    else if d = 0 && l = 1 then (0, s.endLease c.id.uid)
    else if d = 0 || 2000 < d || l = 0 || 3 < l then (refusal 4, s)
    else (refusal 3, s)
  | none =>
    if d = 0 && l ≤ 1 then (0, s)
    else if d = 0 || 2000 < d || l = 0 || 3 < l then (refusal 4, s)
    else if s.boostOff (pkgOf c.id.core) then (refusal 2, s)
    else if s.ctlField die off 7 0 < held + l then (refusal 1, s)
    else
      let e := s.tstamp + 1000 * d
      let s1 := s.ctlPutField die off 15 8 (held + l)
      (word e, ({ s1 with cur := { s1.cur with power := { s1.cur.power with lease := some ⟨l, str, e⟩ } } } : State
        ).relevel str)

/-- BLEASE. A lease whose expiry has passed has ended. -/
def bleaseOp (d a b : XReg) : Op Unit := do
  notInGlaze
  userOnly
  let n := (← readX a).toNat
  let l := (← readX b).toNat
  modify (fun s => match s.cur.power.lease with
    | none => s
    | some k => if k.expiry ≤ s.tstamp then s.endLease s.cur.id.uid else s)
  let s ← get
  let (w, s1) := s.lease n l
  set s1
  writeX d w
  retires 4

/-- BLEASE. -/
def execBlease (d a b : XReg) (s : State) : Host.Outcome State Fault Refusal := s.does (bleaseOp d a b)

end Sys2Proof.Machine
end

