-- ==== Sys2Proof/Machine/Message.lean ====
section
/-! DEFINITION. Message.lean: MSEND, MRECV and MPEEK (R278 to R280), global accesses (R284, R285). -/

namespace Sys2Proof.Machine

/-! Messages (R274 to R280). -/

/-- SRC of the messages of a context. A supervisor has no mailbox address, so its CID is open (log 25). -/
def sourceOf : Op Nat := do
  let s ← get
  if s.cur.id.sup then
    set s.draw.2
    return s.cur.src / 64 * 64 + s.draw.1 % 64
  else return s.cur.src

/-- CheckDest (R278): ILLEGAL_FIELD, or RANGE_FAULT with the destination word in EADDR (R344). -/
def needDest (w : Word) : Op Unit := do
  match (← get).checkDest w with
  | none => return ()
  | some cause => if cause = 0x02 then raise cause else raiseAt cause w.toNat

/-- The n payload words at an address: plain loads, the faults precise. -/
def readPayload (base : Word) (n : Nat) : Op (List Word) := do
  if n = 0 then return []
  let va ← effectiveVa base 0 (8 * n) 8
  let spots ← checkReads 8 (fun i => pure (va + 8 * i)) (List.range n)
  return (← readPieces 8 false spots).map (fun q => word (fromBytes q.2))

/-- A message put into the network by the context whose turn it is. -/
def sendMessage (dest : Word) (m : Message) (awaited : Bool) : Op Unit :=
  modify (fun s => s.inject ⟨s.cur.id.uid, dest, m, awaited⟩)

/-- MSEND's end with the answer of the destination's agent. -/
def msendDone (a : XReg) (g : Word) : Op Unit := do
  if g != 0 then
    modifySelf (fun c => { c with sync := { c.sync with wait := .none, grant := none } })
    raiseAt g.toNat (← readX a).toNat
  retires 4

/-- MSEND. A message is injected once: a context that waits for the answer does not send again. -/
def msendOp (d a b : XReg) : Op Unit := do
  let c ← self
  match c.sync.wait, c.sync.grant with
  | .reply, some g => msendDone a g
  | _, _ =>
    notInGlaze
    let w ← readX a
    needDest w
    let n := msgLen (← readX d)
    if !w.getLsbD 37 && 7 < n then raiseAt 0x0D w.toNat
    let payload ← readPayload (← readX b) n
    takeLate (fun k => k = .message)
    releaseSystem
    let src ← sourceOf
    modifySelf (fun c => { c with sync := { c.sync with wait := .reply, grant := none } })
    modify (fun s => { s with cur := { s.cur with sync := { s.cur.sync with since := s.now } } })
    sendMessage w ⟨mkHeader 1 n (msgTag (← readX d)) src, payload⟩ true
    match (← self).sync.grant with
    | some g => msendDone a g
    | none => waitFor .reply

/-- MSEND. -/
def execMsend (d a b : XReg) (s : State) : Host.Outcome State Fault Refusal := s.does (msendOp d a b)

/-- A message of the mailbox removed: later ones move into the inbox and out of the network (R277). -/
def takeMail (k : Nat) : Op Unit := do
  modifySelf (fun c => c.dropMail k)
  modify (fun s => (s.refill s.cur.id.uid).flushNet)

/-- MRECV. -/
def mrecvOp (d a b : XReg) : Op Unit := do
  notInGlaze
  let c ← self
  match c.mail.all with
  | [] =>
    if (c.sync.wait = .message && c.sync.grant.isSome) || (← get).due (← readX b) then
      writeX d 0
      retires 4
    else waitFor .message
  | m :: _ =>
    waitReds 6
    let base ← readX a
    if base != 0 then
      let va ← effectiveVa base 0 (8 * m.payload.length) 8
      let ps ← checkWrites false (fun i => pure (va + 8 * i)) (fun i => toBytes 8 (getAt m.payload i 0).toNat)
        (List.range m.payload.length)
      storePieces ps (← gateOf 0 false false 0)
    takeMail 0
    acquireNow
    writeX d m.header
    retires 4

/-- MRECV. -/
def execMrecv (d a b : XReg) (s : State) : Host.Outcome State Fault Refusal := s.does (mrecvOp d a b)

/-- MPEEK. A supervisor has no mailbox address, so the word that it peeks is open (log 25). -/
def mpeekOp (d : XReg) (sel : Nat) : Op Unit := do
  let c ← self
  match sel with
  | 0 => writeX d ((c.mail.all.map (fun m => m.header)).headD 0)
  | 1 =>
    if c.id.sup then
      let s ← get
      set s.draw.2
      writeX d (word s.draw.1)
    else writeX d c.dest
  | _ => writeX d (word c.mail.all.length)
  retires 4

/-- MPEEK. -/
def execMpeek (d : XReg) (sel : Fin 32) (s : State) : Host.Outcome State Fault Refusal := s.does (mpeekOp d sel.val)

/-! Global accesses (R285). -/

/-- Bytes of a global access. -/
def gbytes (dbl : Bool) : Nat := if dbl then 8 else 4

/-- The global address of an access of n bytes. -/
def globalAddr (a : XReg) (off : BitVec 19) (n : Nat) : Op Nat := do
  let w ← readX a
  let sum : Int := (bitsOf w 37 0 : Nat) + off.toInt
  if sum < 0 || 2 ^ 38 ≤ sum then raiseAt 0x05 (w + sext off).toNat
  let g := bitsOf w 63 38 * 2 ^ 38 + sum.toNat
  if g % n = 0 then return g else raiseAt 0x04 g

/-- The context's own posted stores to the bytes of a global access are performed first. -/
def settleGlobal (g n : Nat) : Op Unit := do
  let same (p : Posted) : Bool := p.global && p.parts.any (fun q => q.1 < g + n && g < q.1 + q.2.length)
  modify (fun s => s.drainPosted s.cur.id.uid same)
  if (← self).io.posted.any same then waitFor .access

/-- The place in memory of n bytes of a global access, as the agent of the core it names finds it. A page that is away is
waited for at the target, its fault recorded once. -/
def globalReach (g n : Nat) (k : Access) : Op (Nat × Nat) := do
  let s ← get
  match s.mapGlobal g k with
  | .error cause => raiseAt cause g
  | .ok ia =>
    if s.cur.sync.wait = .target ia && s.cur.sync.grant = some 6 then
      modifySelf (fun c => { c with sync := { c.sync with wait := .none, grant := none } })
      raiseAt 0x06 g
    else
      forcePublish ia n
      let s ← get
      match s.meet ia k s.cur.token with
      | (.ok loc, s1) =>
        if k = .atomic && s.readOnly loc n then raiseAt 0x07 g
        set s1
        return (ia, loc)
      | (.fail cause, s1) =>
        set s1
        raiseAt cause g
      | (.fault kind level, s1) =>
        set (s1.lateFault s.cur.id.uid ia kind level)
        modifySelf (fun c => { c with sync := { c.sync with wait := .none, grant := none } })
        waitFor (.target ia)

/-- GLD. -/
def gldOp (n : Nat) (d a : XReg) (m : MemAttr) (off : BitVec 19) : Op Unit := do
  notInGlaze
  let g ← globalAddr a off n
  loadWaits m
  settleGlobal g n
  let (ia, loc) ← globalReach g n .read
  needClean ⟨g, ia⟩ loc n
  if m.cls = 1 then acquires ⟨g, ia⟩ n m.scope.val
  writeX d (word ((← get).numAt loc n))
  retires 8

/-- GLD. -/
def execGld (dbl : Bool) (d a : XReg) (m : MemAttr) (off : BitVec 19) (s : State) :
    Host.Outcome State Fault Refusal := s.does (gldOp (gbytes dbl) d a m off)

/-- GST. -/
def gstOp (n : Nat) (d a : XReg) (m : MemAttr) (off : BitVec 19) : Op Unit := do
  notInGlaze
  let g ← globalAddr a off n
  let bs := toBytes n ((← readX d).toNat % 2 ^ (8 * n))
  let gate ← storeGate m
  postStore .p [(g, bs)] true gate
  retires 8

/-- GST. -/
def execGst (dbl : Bool) (d a : XReg) (m : MemAttr) (off : BitVec 19) (s : State) :
    Host.Outcome State Fault Refusal := s.does (gstOp (gbytes dbl) d a m off)

/-- GAMO. -/
def gamoOp (fn : AmoFn) (n : Nat) (d a xs : XReg) (m : MemAttr) (off : BitVec 19) : Op Unit := do
  notInGlaze
  let g ← globalAddr a off n
  waitCounter m.wait.val
  if m.cls = 1 then waitRelease m.scope.val
  settleGlobal g n
  let (ia, loc) ← globalReach g n .atomic
  needClean ⟨g, ia⟩ loc n
  let s ← get
  if s.pageable ia && s.touchedBy none ia n then waitFor .access
  let wide := m.cls = 1 && s.widens ⟨g, ia⟩ n m.scope.val
  if wide then waitReds 6
  let s ← get
  let old := s.numAt loc n
  let (new, fl) := amoOp fn n old ((s.x xs).toNat % 2 ^ (8 * n)) (s.x d).toNat
  set (s.storeAt ia loc (toBytes n new) s.cur.writer)
  writeX d (word old)
  modifySelf (fun c => c.orFlags fl)
  if m.cls = 1 then
    endFence
    modify (fun s => s.noteRelease s.cur.id.uid s.cur.id.core [ia / 128] m.scope.val s.now)
    acquired wide m.scope.val
  retires 8

/-- GAMO add. -/
def execGamoAdd (dbl : Bool) (d a xs : XReg) (m : MemAttr) (off : BitVec 19) (s : State) :
    Host.Outcome State Fault Refusal := s.does (gamoOp .add (gbytes dbl) d a xs m off)

/-- GAMO min. -/
def execGamoMin (dbl : Bool) (d a xs : XReg) (m : MemAttr) (off : BitVec 19) (s : State) :
    Host.Outcome State Fault Refusal := s.does (gamoOp .min (gbytes dbl) d a xs m off)

/-- GAMO max. -/
def execGamoMax (dbl : Bool) (d a xs : XReg) (m : MemAttr) (off : BitVec 19) (s : State) :
    Host.Outcome State Fault Refusal := s.does (gamoOp .max (gbytes dbl) d a xs m off)

/-- GAMO and. -/
def execGamoAnd (dbl : Bool) (d a xs : XReg) (m : MemAttr) (off : BitVec 19) (s : State) :
    Host.Outcome State Fault Refusal := s.does (gamoOp .and (gbytes dbl) d a xs m off)

/-- GAMO or. -/
def execGamoOr (dbl : Bool) (d a xs : XReg) (m : MemAttr) (off : BitVec 19) (s : State) :
    Host.Outcome State Fault Refusal := s.does (gamoOp .or (gbytes dbl) d a xs m off)

/-- GAMO xor. -/
def execGamoXor (dbl : Bool) (d a xs : XReg) (m : MemAttr) (off : BitVec 19) (s : State) :
    Host.Outcome State Fault Refusal := s.does (gamoOp .xor (gbytes dbl) d a xs m off)

/-- GAMO swap. -/
def execGamoSwap (dbl : Bool) (d a xs : XReg) (m : MemAttr) (off : BitVec 19) (s : State) :
    Host.Outcome State Fault Refusal := s.does (gamoOp .swap (gbytes dbl) d a xs m off)

/-- GAMO cas. -/
def execGamoCas (dbl : Bool) (d a xs : XReg) (m : MemAttr) (off : BitVec 19) (s : State) :
    Host.Outcome State Fault Refusal := s.does (gamoOp .cas (gbytes dbl) d a xs m off)

/-- GAMO fadd.f32. -/
def execGamoFadd (d a xs : XReg) (m : MemAttr) (off : BitVec 19) (s : State) :
    Host.Outcome State Fault Refusal := s.does (gamoOp .fadd32 4 d a xs m off)

end Sys2Proof.Machine
end

