-- ==== Sys2Proof/Machine/Agents.lean ====
section
/-! DEFINITION. Agents.lean: messages that arrive, the agents of the cores, the host, peers beyond the group and the links
(R272, R277 to R285, R391 to R393). -/

namespace Sys2Proof.Machine

/-! Messages. -/

/-- A message of the network brought to its destination if it may be. -/
def State.bringMail (s : State) (f : NetMsg → Bool) : State := (s.deliverNet f [] s.net).1

/-- Whether a message of the network is one of a type to a mailbox. -/
def mailIs (type : Nat) (dest : Word) (msg : Message) (m : NetMsg) : Bool :=
  msgType msg.header = type && !dest.getLsbD 37 && m.dest = dest && m.msg = msg

/-- USER. -/
def execUser (dest : Word) (msg : Message) (s : State) : Host.Outcome State Fault Refusal :=
  .next (s.bringMail (mailIs 1 dest msg))

/-- FERRY_DONE. -/
def execFerryDone (dest : Word) (msg : Message) (s : State) : Host.Outcome State Fault Refusal :=
  .next (s.bringMail (mailIs 2 dest msg))

/-- BLOCKSUM. -/
def execBlocksum (dest : Word) (msg : Message) (s : State) : Host.Outcome State Fault Refusal :=
  .next (s.bringMail (mailIs 4 dest msg))

/-- MESSAGE_RING_WRITE. -/
def execMessageRingWrite (dest : Word) (msg : Message) (s : State) : Host.Outcome State Fault Refusal :=
  .next (s.bringMail (fun m => dest.getLsbD 37 && m.dest = dest && m.msg = msg))

/-- Whether Atelier has released the host port of a package: until its boot the host's accesses are held (R394). -/
def State.hostPort (s : State) (pkg : Nat) : Bool := (s.atel pkg).booted

/-- POST: the host writes a header to a core's inbox window. -/
def execPost (core : Nat) (header : Word) (s : State) : Host.Outcome State Fault Refusal :=
  .next (if s.hostPort (pkgOf core) then s.inboxWrite core 0 header else s)

/-! The agent of a core (R283). -/

/-- An agent acting on the supervisor's range registers, under a number of its own. -/
def State.agentOf (s : State) (core : Nat) : Context :=
  let c := match s.contexts.find? (fun c => c.id.sup && c.id.core = core) with
    | none => Context.reset 0 core 7 true
    | some c => c
  { c with
    id := { c.id with uid := 2 ^ 64 + core }
    io := InFlight.none
    sync := ⟨none, [], .none, 0, none⟩
    bits := 0 }

/-- Some work done by an agent, and the machine afterwards with the turn where it was. -/
def State.agentRun {α : Type} (s : State) (core : Nat) (op : Op α) : Except Stop α × State :=
  let agent := s.agentOf core
  let back (t : State) : State :=
    match t.others with
    | [] => t
    | c :: rest => { t with cur := c, others := rest }
  match op { s with cur := agent, others := s.cur :: s.others } with
  | .ok a t => (.ok a, back t)
  | .error e t => (.error e, back t)

/-- The oldest SPAWN message of a core is done with: its entry is free. -/
def State.spawnOver (s : State) (core : Nat) : State :=
  let k := s.core core
  let s1 := s.setCore core { k with spawns := k.spawns.drop 1, spawnWait := none, spawnDone := none }
  let s2 : State := if 1 < k.spawns.length then { s1 with agenda := s1.agenda ++ [.spawnMessage core] } else s1
  let here := (s2.contexts.filter (fun c => c.resident && c.id.core = core)).map (fun c => c.id.uid)
  (here.foldl State.refill s2).flushNet

/-- A reply that is given up: logged with its cause. -/
def State.noReply (s : State) (core cause : Nat) (va : Word) : State :=
  (s.machineCheck (dieOf core) 0 (unitCore core) 2 cause 0 va).spawnOver core

/-- The page that an agent's access waits for. -/
def State.agentPage (s : State) (core kind level ia : Nat) : State :=
  let token := (s.agentOf core).token
  let s1 := s.postFault (homeDie ia) ⟨0, ia, token, if kind < 4 then 6 else kind, level, s.tstamp⟩
  s1.setCore core { s1.core core with spawnWait := some (ia / 2 ^ 15, false) }

/-- The agent's store of a status word. -/
def replyOp (va st : Nat) : Op Unit := do
  let p ← mapSpot va .write false
  let s ← get
  match s.whereIs p.ia with
  | .inbox core off => set (s.inboxPut 9 core off (toBytes 8 st))
  | _ =>
    forcePublish p.ia 8
    let loc ← reach p .write
    let s ← get
    if s.pageable p.ia && s.touchedBy none p.ia 8 then waitFor .access
    set (s.storeAt p.ia loc (toBytes 8 st) (Writer.agent 0))

/-- The reply of the oldest SPAWN message written or given up. -/
def State.spawnReply (s : State) (core st : Nat) (va : Word) : State :=
  if va = 0 then s.spawnOver core
  else if va.toNat % 8 != 0 then s.noReply core 0x04 va
  else if (s.core core).spawnWait.any (fun w => w.2) then s.noReply core 0x06 va
  else
    match s.agentRun core (replyOp va.toNat st) with
    | (.ok _, s1) => s1.spawnOver core
    | (.error (.page kind level ia _), s1) => s1.agentPage core kind level ia
    | (.error (.trap cause _), s1) => s1.noReply core cause va
    | (.error _, s1) => s1

/-- The SPAWN of a message judged: its status word, none while it waits. -/
def State.spawnJudge (s : State) (core va : Nat) : Option Nat × State :=
  if (s.core core).spawnWait.any (fun w => w.2) then (some 0x06, s)
  else if va % 64 != 0 then (some 0x04, s)
  else
    match s.agentRun core (spawnAt va) with
    | (.ok st, s1) => (some st, s1)
    | (.error (.page kind level ia _), s1) => (none, s1.agentPage core kind level ia)
    | (.error (.trap cause _), s1) => (some cause, s1)
    | (.error _, s1) => (none, s1)

/-- Payload word k of a message; a word that the message lacks is open. -/
def State.payloadWord (s : State) (m : Message) (k : Nat) : Word := getAt m.payload k (BitVec.ofNat 64 s.draw.1)

/-- The agent of a core works on its oldest SPAWN message: the SPAWN procedure, then the reply. -/
def State.spawnAgent (s : State) (core : Nat) : State :=
  let k := s.core core
  match k.spawns with
  | [] => s
  | m :: _ =>
    if k.spawnWait.any (fun w => !w.2) then s
    else
      let s0 := if m.payload.length < 2 then s.draw.2 else s
      let reply := s.payloadWord m 1
      match k.spawnDone with
      | some st => s0.spawnReply core st reply
      | none =>
        match s0.spawnJudge core (s.payloadWord m 0).toNat with
        | (none, s1) => s1
        | (some st, s1) =>
          (s1.setCore core { s1.core core with spawnDone := some st, spawnWait := none }).spawnReply core st reply

/-- SPAWN_MESSAGE: the agent consumes the message once it is the oldest. -/
def execSpawnMessage (core : Nat) (msg : Message) (s : State) : Host.Outcome State Fault Refusal :=
  .next (if (s.core core).spawns.head? = some msg then s.spawnAgent core else s)

/-! BAR4 (R392). -/

/-- A doubleword of the MSI-X table written: unmasking an entry whose pending bit is set sends its message. -/
def State.msixWrite (s : State) (pkg off : Nat) (w : Word) : State :=
  let v := (off - 0x8000) / 16
  let s1 := s.bar4Put pkg off w
  if off % 16 = 8 && !(w.getLsbD 32) && (s.bar4Get pkg 0x9000).getLsbD v then
    { s1.bar4Put pkg 0x9000 (s.bar4Get pkg 0x9000 &&& ~~~(BitVec.ofNat 64 (2 ^ v))) with msix := s.msix ++ [pkg * 64 + v] }
  else s1

/-- A doubleword of BAR4 written. -/
def State.bar4Write (s : State) (pkg off : Nat) (w : Word) : State :=
  if off % 8 ≠ 0 then s
  else if off < 0x80 then
    let n := off / 16
    let old := s.bar4Get pkg (16 * n + 8) ++ s.bar4Get pkg (16 * n)
    let img := rangeImage (if off % 16 = 0 then old.extractLsb' 64 64 ++ w else w ++ old.extractLsb' 0 64)
    (s.bar4Put pkg (16 * n) (img.extractLsb' 0 64)).bar4Put pkg (16 * n + 8) (img.extractLsb' 64 64)
  else if 0x8000 ≤ off && off < 0x8400 then s.msixWrite pkg off w
  else if 0x1000 ≤ off && off < 0x2000 then s.inboxWrite (pkg * 512 + (off - 0x1000) / 8) 0x040 w
  else s

/-- A doubleword of BAR4 read: the host ranges, the mirrors of TSTAT, PWR and WSTAT, the MSI-X table and its pending bits. -/
def State.bar4Read (s : State) (pkg off : Nat) : Word :=
  if off = 0x100 then s.regRead (pkg * 4) 0x748 (pkg * 512)
  else if off = 0x108 then s.regRead (pkg * 4) 0x758 (pkg * 512)
  else if 0x1000 ≤ off && off < 0x2000 then s.inboxRead (pkg * 512 + (off - 0x1000) / 8) 0x040
  else if off < 0x80 || 0x8000 ≤ off && off < 0x8400 || off = 0x9000 then s.bar4Get pkg off
  else 0

/-- Whether an access to BAR4 has a shape that it takes: 8 bytes aligned, and in the MSI-X table and its pending bits
4 bytes too. -/
def bar4Shape (off size : Nat) : Bool :=
  size = 8 && off % 8 = 0 ||
  size = 4 && off % 4 = 0 && (0x8000 ≤ off && off < 0x8400 || off / 8 = 0x9000 / 8)

/-- An access of the host to BAR4, 64 KiB; one of another shape completes as an unsupported request (log 107). -/
def State.bar4At (s : State) (pkg : Nat) (acc : HostAccess) : HostReply × State :=
  let at_ := acc.addr / 8 * 8
  let old := s.bar4Read pkg at_
  if 0x10000 ≤ acc.addr || !(bar4Shape acc.addr acc.size) then (.unsupported, s)
  else
    match acc.store with
    | none => (.data (word (fromBytes (wordBytes old acc.addr acc.size))), s)
    | some w => (.done, s.bar4Write pkg at_ (mergeBytes old acc.addr ((toBytes 8 w.toNat).take acc.size)))

/-! The host (R391, R392). -/

/-- The host ranges of a package. -/
def State.hmap (s : State) (pkg : Nat) : List (BitVec 128) :=
  (List.range 8).map (fun n => s.bar4Get pkg (16 * n + 8) ++ s.bar4Get pkg (16 * n))

/-- The number of the host among the issuers of accesses: no context bears it. -/
def hostUid : Nat := 2 ^ 65

/-- A write of the host at an IA: done, held, or refused. -/
def State.hostWrite (s : State) (ia : Nat) (bs : List Byte) : HostReply × State :=
  match s.performParts hostUid (partsOf ia (bs.length + 1) bs) with
  | (.done, _, s1) => (.done, s1)
  | (.behind, _, s1) => (.held, s1)
  | (.page ia kind level, _, s1) => (.held, s1.lateFault hostUid ia kind level)
  | (.failed _, _, s1) => (.unsupported, s1)

/-- A read of the host of a package at an IA. Fuel: the parts. -/
def State.hostRead (pkg : Nat) : Nat → State → Nat → Nat → List Byte → HostReply × State
  | 0, s, _, _, acc => (.data (word (fromBytes acc)), s)
  | fuel + 1, s, ia, n, acc =>
    if n = 0 then (.data (word (fromBytes acc)), s)
    else
      let k := min n (32 - ia % 32)
      let s := s.forcePublish ia k none
      if s.withheld ia k none then (.held, s)
      else
      match s.meet ia .read 0 with
      | (.ok loc, s1) =>
        if s1.poisonedTo pkg loc k then (.poisoned, s1.endLost pkg loc k)
        else s1.hostRead pkg fuel (ia + k) (n - k) (acc ++ s1.bytesAt loc k)
      | (.fault kind level, s1) => (.held, s1.lateFault hostUid ia kind level)
      | (.fail _, s1) => (.unsupported, s1)

/-- An access of the host to a register window of a core's inbox. -/
def State.inboxAt (s : State) (core off : Nat) (acc : HostAccess) : HostReply × State :=
  match acc.store with
  | some w => (.done, s.inboxPut 9 core off ((toBytes 8 w.toNat).take acc.size))
  | none => (.data (word (fromBytes (s.inboxBytes core off acc.size))), s)

/-- An access of the host of a package to an IA. Control registers belong to supervisors, a TCM to its core. -/
def State.hostAt (s : State) (pkg ia : Nat) (acc : HostAccess) : HostReply × State :=
  match s.whereIs ia with
  | .reserved => (.unsupported, s)
  | .control _ _ => (.unsupported, s)
  | .tcm _ => (.unsupported, s)
  | .inbox core off => s.inboxAt core off acc
  | _ =>
    match acc.store with
    | some w => s.hostWrite ia ((toBytes 8 w.toNat).take acc.size)
    | none => s.hostRead pkg 9 ia acc.size []

/-- The IA of an offset of BAR0, a window of 64 GiB, through the host ranges; X and A are ignored. -/
def State.hostIa (s : State) (pkg off : Nat) (write : Bool) : Option Nat :=
  match rangeMap (if write then .write else .read) off (s.hmap pkg) with
  | .ok ia => if off < 2 ^ 36 then some ia else none
  | .error _ => none

/-- An access of the host: to package memory through its ranges, to an inbox window of BAR2, 2 MiB, or to BAR4. -/
def State.hostAccess (s : State) (pkg : Nat) (acc : HostAccess) : HostReply × State :=
  match acc.bar with
  | .bar0 =>
    match s.hostIa pkg acc.addr acc.store.isSome with
    | none => (.unsupported, s)
    | some ia => s.hostAt pkg ia acc
  | .bar2 =>
    if 0x200000 ≤ acc.addr then (.unsupported, s) else s.inboxAt (pkg * 512 + acc.addr / 0x1000) (acc.addr % 0x1000) acc
  | .bar4 => s.bar4At pkg acc

/-- HOST_BAR0_ACCESS, and the accesses of the host to BAR2 and BAR4. -/
def execHostBar0Access (pkg : Nat) (acc : HostAccess) (s : State) : Host.Outcome State Fault Refusal :=
  let (r, s1) := if s.packages ≤ pkg then (.unsupported, s)
    else if !(s.hostPort pkg) then (.held, s)
    else s.hostAccess pkg acc
  .next { s1 with host := r }

/-- Whether a live region has touched the granule of a location. -/
def State.touchedAt (s : State) (loc : Nat) : Bool :=
  s.touches.any (fun t => match (s.meet (t.granule * 32) .read 0).1 with
    | .ok l => l / 32 = loc / 32
    | _ => false)

/-- The watched objects that a store of n bytes at a location reaches are clobbered. -/
def State.clobberLoc (s : State) (loc n : Nat) : State :=
  s.objects.foldl (fun s o =>
    if o.2.1 < loc + n && loc < o.2.1 + 64 then s.clobberOne o.1 o.2.1 o.2.2 0 else s) s

/-- The releases of narrower scope noted with the line of a location (R304). -/
def State.narrowLoc (s : State) (loc : Nat) : List Narrow :=
  s.narrow.filter (fun r => outsideScope r.scope r.core none && (match (s.meet (r.line * 128) .read 0).1 with
    | .ok l => l / 128 = loc / 128
    | _ => false))

/-- A forced publish of the line of a location, for an agent outside the package's scopes. -/
def State.forceLoc (s : State) (loc : Nat) : State :=
  (s.narrowLoc loc).foldl (fun s r => s.forcePublish (r.line * 128) 128 none) s

/-- CXL_MEM_ACCESS at a physical address that the decoders of package addr / 2^53 give. -/
def execCxlMemAccess (acc : HostAccess) (s : State) : Host.Outcome State Fault Refusal :=
  let pa := acc.addr % 2 ^ 53
  if s.packages ≤ acc.addr / 2 ^ 53 || 0x9000000000 < pa + acc.size then .next { s with host := .unsupported }
  else if !(s.hostPort (acc.addr / 2 ^ 53)) then .next { s with host := .held }
  else
    let s := s.forceLoc acc.addr
    if !(s.narrowLoc acc.addr).isEmpty then .next { s with host := .held }
    else
    match acc.store with
    | none =>
      let r : HostReply := if s.poisonAt acc.addr acc.size then .poisoned else .data (word (s.numAt acc.addr acc.size))
      .next { s with host := r }
    | some w =>
      if s.touchedAt acc.addr then .next { s with host := .held }
      else
        .next { (s.clobberLoc acc.addr acc.size).putBytes acc.addr ((toBytes 8 w.toNat).take acc.size) with host := .done }

/-! Registers without a row of their own (R7, R392). -/

/-- REGISTER_WRITE. Which core of the die writes decides only which counter EVCIDX, EVCSEL and EVCVAL name. -/
def execRegisterWrite (place : RegPlace) (value : Word) (s : State) : Host.Outcome State Fault Refusal :=
  match place with
  | .control die off => .next (s.draw.2.regWrite die off (die * 128 + s.draw.1 % 128) value)
  | .bar4 pkg off => .next (if s.hostPort pkg then s.bar4Write pkg off value else s)
  | .inbox core off => .next (s.inboxWrite core off value)

/-! Global requests (R284, R285). -/

/-- GLOBAL_REQUEST: a GST of a context that is on its way, or a store from beyond the packages of the model. -/
def execGlobalRequest (req : GlobalReq) (s : State) : Host.Outcome State Fault Refusal :=
  let mine (p : Posted) : Bool := p.global && (p.parts.head?.map (fun q => q.1)) = some req.addr
  match s.ctx req.uid with
  | some c => .next (if c.io.posted.any mine then s.drainPosted req.uid mine else s)
  | none =>
    match s.mapGlobal req.addr .write with
    | .error _ => .next s
    | .ok ia => .next (s.hostWrite ia ((toBytes 8 req.value.toNat).take req.size)).2

/-! Voldin Link (R393). -/

/-- A port of the link. -/
def State.link (s : State) (port : Nat) : Link := tabGet ⟨false, [[], [], [], []]⟩ s.links port

/-- VOLDIN_FLIT: a flit of 64 bytes whose CRC is right is delivered on its channel, another one is asked for again. -/
def execVoldinFlit (port : Nat) (body : List Byte) (crc : BitVec 32) (s : State) : Host.Outcome State Fault Refusal :=
  let l := s.link port
  let good : Bool := body.length = 64 && crc = Config.flitCrc body
  let k := Config.flitChannel body % 4
  let l1 : Link := if good then ⟨false, putAt l.channels k (getAt l.channels k [] ++ [body])⟩ else { l with retry := true }
  .next { s with links := tabPut s.links port l1 }

/-- The packages whose route to the package of a granule of memory leads over a port. -/
def State.routed (s : State) (port key : Nat) : List Nat :=
  (s.routes.filter (fun r => r.2.1 = key * 32 / 2 ^ 53 && r.2.2 = port)).map (fun r => r.1)

/-- FAILED_ROUTE: the route by a port fails under the requests for a granule, which complete with poisoned data; a record
names the port. No other route is picked. Which die logs it, and the syndrome, are open (log 67). -/
def execFailedRoute (port key : Nat) (s : State) : Host.Outcome State Fault Refusal :=
  let s1 : State := { s with lost := (s.lost ++ (s.routed port key).map (fun p => (p, key))).eraseDups }
  .next ((s1.draw.2).machineCheck (s.draw.1 % (4 * max s.packages 1)) 0 (unitOf 5 port) 1 0x13 0
    (BitVec.ofNat 64 (s.draw.1 / 32)))

end Sys2Proof.Machine
end

