-- ==== Sys2Proof/Machine/Float.lean ====
section
/-! DEFINITION. Float.lean: the scalar floating-point instructions (R130 to R137). -/

namespace Sys2Proof.Machine

/-- The format that P selects. -/
def fpP (single : Bool) : FpFmt := if single then FP32 else FP64

/-- An operand of a format: the low bits of an x register. -/
def State.fx (s : State) (f : FpFmt) (a : XReg) : Nat := (s.x a).toNat % 2 ^ f.width

/-- A pattern in x[d], zero-extended, its flags in FPS, and the next instruction. -/
def State.givesF (s : State) (d : XReg) (r : Nat × Flags) : Host.Outcome State Fault Refusal :=
  .next (((s.setX d (word r.1)).orFlags r.2).retire 4)

/-- The mode of an instruction that does not narrow (R131). -/
def State.mode (s : State) (rnd : Fin 8) : Nat := resolveMode rnd.val s.cur.rnd false

/-- FADD. -/
def execFadd (d a b : XReg) (rnd : Fin 8) (single : Bool) (s : State) : Host.Outcome State Fault Refusal :=
  let f := fpP single
  s.givesF d (fpAdd f (s.mode rnd) (s.fx f a) (s.fx f b))

/-- FSUB. -/
def execFsub (d a b : XReg) (rnd : Fin 8) (single : Bool) (s : State) : Host.Outcome State Fault Refusal :=
  let f := fpP single
  s.givesF d (fpSub f (s.mode rnd) (s.fx f a) (s.fx f b))

/-- FMUL. -/
def execFmul (d a b : XReg) (rnd : Fin 8) (single : Bool) (s : State) : Host.Outcome State Fault Refusal :=
  let f := fpP single
  s.givesF d (fpMul f (s.mode rnd) (s.fx f a) (s.fx f b))

/-- FMA: x[a] × x[b] + the old x[d]. -/
def execFma (d a b : XReg) (rnd : Fin 8) (single : Bool) (s : State) : Host.Outcome State Fault Refusal :=
  let f := fpP single
  s.givesF d (fpFma f (s.mode rnd) (s.fx f a) (s.fx f b) (s.fx f d))

/-- FDIV. -/
def execFdiv (d a b : XReg) (rnd : Fin 8) (single : Bool) (s : State) : Host.Outcome State Fault Refusal :=
  let f := fpP single
  s.givesF d (fpDiv f (s.mode rnd) (s.fx f a) (s.fx f b))

/-- FSQRT. -/
def execFsqrt (d a : XReg) (rnd : Fin 8) (single : Bool) (s : State) : Host.Outcome State Fault Refusal :=
  let f := fpP single
  s.givesF d (fpSqrt f (s.mode rnd) (s.fx f a))

/-- FMIN. -/
def execFmin (d a b : XReg) (single : Bool) (s : State) : Host.Outcome State Fault Refusal :=
  let f := fpP single
  s.givesF d (fpMin f (s.fx f a) (s.fx f b))

/-- FMAX. -/
def execFmax (d a b : XReg) (single : Bool) (s : State) : Host.Outcome State Fault Refusal :=
  let f := fpP single
  s.givesF d (fpMax f (s.fx f a) (s.fx f b))

/-- FCMP. -/
def execFcmp (d a b : XReg) (cond : Fin 8) (single : Bool) (s : State) : Host.Outcome State Fault Refusal :=
  let f := fpP single
  let r := fpCmp f cond.val (s.fx f a) (s.fx f b)
  s.givesF d (r.1.toNat, r.2)

/-- FCLASS. -/
def execFclass (d a : XReg) (single : Bool) (s : State) : Host.Outcome State Fault Refusal :=
  let f := fpP single
  s.gives d (word (2 ^ fpClass f (s.fx f a))) 4

/-- The stepped LFSR kept in FPS where a conversion rounds stochastically (R44, R136). -/
def State.stepSr (s : State) (mode : Nat) : State :=
  if mode = 6 then { s with cur := s.cur.setLfsr (lfsrStep s.cur.lfsr) } else s

/-- The conversions that FCVT's selector names (R136). -/
def fcvtOp (sel : Nat) (mode : Nat) (lfsr : BitVec 32) (w : Word) : Nat × Flags :=
  let n := w.toNat
  match sel with
  | 0 => cvtFF FP32 FP64 mode lfsr false n
  | 1 => cvtFF FP64 FP32 mode lfsr false (n % 2 ^ 32)
  | 2 => cvtFI 7 FP64 mode n
  | 3 => cvtFI 7 FP32 mode (n % 2 ^ 32)
  | 4 => cvtIF FP64 mode lfsr false w.toInt
  | 5 => cvtIF FP32 mode lfsr false w.toInt
  | 6 => cvtFF BF16 FP32 mode lfsr false (n % 2 ^ 32)
  | 7 => cvtFF FP32 BF16 mode lfsr false (n % 2 ^ 16)
  | 8 => cvtFF FP16 FP32 mode lfsr false (n % 2 ^ 32)
  | _ => cvtFF FP32 FP16 mode lfsr false (n % 2 ^ 16)

/-- FCVT. -/
def execFcvt (d a : XReg) (sel : Fin 32) (rnd : Fin 8) (s : State) : Host.Outcome State Fault Refusal :=
  let mode := resolveMode rnd.val s.cur.rnd (sel.val = 6 || sel.val = 8)
  (s.stepSr mode).givesF d (fcvtOp sel.val mode (lfsrStep s.cur.lfsr) (s.x a))

end Sys2Proof.Machine
end

