-- ==== Sys2Proof/Machine/Easel.lean ====
section
/-! DEFINITION. Easel.lean: tile descriptors and images (R241, R242), the sums of an easel (R50 to R52, R235), engine
commands: reservation, forwarding, report, squash (R217 to R226, R237, R240). -/

namespace Sys2Proof.Machine

/-! Descriptors and row images (R241, R242). -/

/-- Bytes of a Q4 row image. -/
def q4RowBytes (c : Nat) : Nat := 16 * ceilDiv (c / 2 + 4 * ceilDiv c 256 + 4) 16

/-- Bytes of a row in memory. -/
def rowBytes (cols : Nat) (f : FmtCode) : Nat := if fmtQ4 f then q4RowBytes cols else cols * fmtWidth f / 8

/-- Whether a number of columns is one that R241 gives a format. -/
def colsOk (cols : Nat) (f : FmtCode) : Bool :=
  if fmtQ4 f then 64 ≤ cols && cols ≤ 1792 && cols % 64 = 0
  else 1 ≤ cols && cols * fmtWidth f ≤ 8192 && (fmtWidth f != 4 || cols % 2 = 0)

/-- A shape and a stride. -/
structure Desc where
  rows : Nat
  cols : Nat
  stride : Nat
deriving DecidableEq, Repr

/-- The fields of a descriptor word. -/
def descOf (w : Word) : Desc := ⟨bitsOf w 31 16, bitsOf w 15 0, bitsOf w 63 32⟩

/-- The distance between rows. -/
def Desc.step (d : Desc) (f : FmtCode) : Nat := if d.stride = 0 then rowBytes d.cols f else d.stride

/-- The bytes from the first row to the end of the last. -/
def Desc.span (d : Desc) (f : FmtCode) : Nat := (d.rows - 1) * d.step f + rowBytes d.cols f

/-- The limits of R241, or for a group tile those of R257. -/
def Desc.ok (d : Desc) (f : FmtCode) (group : Bool) : Bool :=
  1 ≤ d.rows && d.rows ≤ (if group then 512 else 128) &&
  (if group then 1 ≤ d.cols && d.cols ≤ 1024 else colsOk d.cols f) &&
  (d.stride = 0 || (rowBytes d.cols f ≤ d.stride && d.stride % 16 = 0))

/-- Pieces of n elements, as far as they go. Fuel: the elements. -/
def chunksOf {α : Type} (n : Nat) : Nat → List α → List (List α)
  | 0, _ => []
  | fuel + 1, l => if l.isEmpty then [] else l.take n :: chunksOf n fuel (l.drop n)

/-- The elements of a row from its bytes. -/
def rowElems (f : FmtCode) (cols : Nat) (bs : List Byte) : List Nat :=
  let w := fmtWidth f
  if w = 4 then (List.range cols).map (fun c => (getAt bs (c / 2) 0).toNat / 16 ^ (c % 2) % 16)
  else (List.range cols).map (fun c => fromBytes ((bs.drop (c * (w / 8))).take (w / 8)))

/-- The block scales of a Q4 row image. -/
def rowScales (cols : Nat) (bs : List Byte) : List Nat :=
  ((bs.drop (cols / 2)).take (cols / 64)).map (fun b => b.toNat)

/-- The group scale of a Q4 row image. -/
def rowGroup (cols : Nat) (bs : List Byte) : Nat := fromBytes ((bs.drop (cols / 2 + 4 * ceilDiv cols 256)).take 4)

/-- A tile from the bytes of its rows, with no cells yet. -/
def tileFrom (f : FmtCode) (comp : Bool) (cols : Nat) (rows : List (List Byte)) : Tile :=
  { cells := [], rows := rows.length, cols := cols,
    tag := f, comp := comp && f = 14, elems := rows.flatMap (rowElems f cols),
    us := if fmtQ4 f then rows.flatMap (rowScales cols) else [],
    ss := if fmtQ4 f then rows.map (rowGroup cols) else [], group := false }

/-- A tile of zeros, with no cells yet. -/
def zeroTile (f : FmtCode) (comp : Bool) (rows cols : Nat) (group : Bool) : Tile :=
  { cells := [], rows := rows, cols := cols, tag := f,
    comp := comp && f = 14, elems := List.replicate (rows * cols) 0,
    us := if fmtQ4 f then List.replicate (rows * (cols / 64)) 0 else [],
    ss := if fmtQ4 f then List.replicate rows 0 else [], group := group }

/-- A row of a tile. -/
def Tile.row (t : Tile) (r : Nat) : List Nat := (t.elems.drop (r * t.cols)).take t.cols

/-- A column of a tile. -/
def Tile.col (t : Tile) (c : Nat) : List Nat := (List.range t.rows).map (fun r => t.elem r c)

/-- The bytes of a row of a tile in memory (R242). -/
def Tile.rowImage (t : Tile) (r : Nat) : List Byte :=
  let w := fmtWidth t.tag
  let body := if w = 4 then
      (chunksOf 2 t.cols (t.row r)).map (fun p => BitVec.ofNat 8 (getAt p 0 0 % 16 + getAt p 1 0 % 16 * 16))
    else (t.row r).flatMap (fun e => toBytes (w / 8) e)
  if fmtQ4 t.tag then
    let us := (List.range (t.cols / 64)).map (fun b => BitVec.ofNat 8 (t.scaleU r b))
    let pad := List.replicate (4 * ceilDiv t.cols 256 - t.cols / 64) (0 : Byte)
    let img := body ++ us ++ pad ++ toBytes 4 (t.scaleS r)
    img ++ List.replicate (q4RowBytes t.cols - img.length) (0 : Byte)
  else body

/-! The sums of an easel. A group is the products of 32 dense positions, or of a block of 64 (R50 to R52). -/

/-- EaselAccumulateFP (R50). -/
def accFp (fa fb : FpFmt) (acc : Nat) (groups : List (List (Nat × Nat))) : Nat × Flags :=
  groups.foldl (fun (st : Nat × Flags) g =>
    let (sum, f1) := exactSum (g.map (fun p => termOf (fa.value p.1) (fb.value p.2)))
    let (r, f2) := roundArith FP32 RNE sum
    let (a, f3) := fpAdd FP32 RNE st.1 r
    (a, st.2 ||| f1 ||| f2 ||| f3)) (acc, 0)

/-- The INT32 sum of R52. -/
def accInt (f : FmtCode) (acc : Nat) (groups : List (List (Nat × Nat))) : Nat × Flags :=
  groups.foldl (fun (st : Nat × Flags) g =>
    let sum := g.foldl (fun (n : Int) p => n + intValue f p.1 * intValue f p.2) 0
    let (r, fl) := cvtII 8 (toSigned 32 st.1 + sum)
    (r, st.2 ||| fl)) (acc, 0)

/-- An E4M3 value times 512, which is an integer; a NaN counts as 0. -/
def act512 (a : Nat) : Int :=
  match E4M3.value a with
  | .fin n m e => signedSig n (scaleUp m (e + 9))
  | _ => 0

/-- The sum N of a block: codes and activations. -/
def blockSum (table : List Nat) (ps : List (Nat × Nat)) : Int :=
  ps.foldl (fun (n : Int) p => n + codeValue table p.1 * act512 p.2) 0

/-- Whether a block holds a NaN activation. -/
def blockNan (ps : List (Nat × Nat)) : Bool := ps.any (fun p => (E4M3.value p.2).isNan)

/-- P × 2^-16 × S with the special cases of R40. -/
def scaleBlock (p : Int) (s : Nat) : FpVal × Flags :=
  match FP32.value s with
  | .nan sig => (.nan false, if sig then fNV else 0)
  | .inf n => if p = 0 then (.nan false, fNV) else (.inf (n != decide (p < 0)), 0)
  | .fin n m e => if p = 0 then (.fin false 0 0, 0) else (.fin (n != decide (p < 0)) (p.natAbs * m) (e - 16), 0)

/-- EaselAccumulateQ4 (R51): blocks with their u. -/
def accQ4 (table : List Nat) (s : Nat) : List (Nat × List (Nat × Nat)) → Nat × Flags → Nat × Flags
  | [], st => st
  | (u, ps) :: rest, st =>
    if blockNan ps then (FP32.nan, st.2)
    else
      let (v, f1) := scaleBlock (blockSum table ps * u) s
      let (c, f2) := roundArith FP32 RNE v
      let (a, f3) := fpAdd FP32 RNE st.1 c
      accQ4 table s rest (a, st.2 ||| f1 ||| f2 ||| f3)

/-- The n indices of a row's metadata (R234). -/
def metaIndex (bs : List Byte) (k : Nat) : Nat := fromBytes bs / 8 ^ k % 8

/-- Stored values for each group of 8 (R233). -/
def storedPer (sp : Nat) : Nat := match sp with
  | 1 => 1
  | 2 => 2
  | 3 => 4
  | _ => 8

/-- The products of a sparse row, by groups of 32 dense positions (R235). -/
def sparseGroups (n : Nat) (row col : List Nat) (bs : List Byte) : List (List (Nat × Nat)) :=
  chunksOf (4 * n) row.length (row.mapIdx (fun k a => (a, getAt col (k / n * 8 + metaIndex bs k) 0)))

/-- The products of a dense row, by groups of a size. -/
def denseGroups (size : Nat) (row col : List Nat) : List (List (Nat × Nat)) := chunksOf size row.length (row.zip col)

/-! Tile operands and the checks of R246. -/

/-- The tile of a name tagged with a format (R243): an unbound name is a zero tile tagged UNTYPED. -/
def tileOperand (n : TNum) (f : FmtCode) : Op Tile := do
  match (← self).reg.t[n] with
  | none => raise 0x03
  | some t => if t.tag = f then return t else raise 0x03

/-- Whether a name is bound to a group tile. -/
def Context.groupName (c : Context) (n : TNum) : Bool :=
  match c.reg.t[n] with
  | none => false
  | some t => t.group

/-- TILE_RESOURCE in a task with TCELLS = 0 (R218). -/
def needCells : Op Unit := do need (decide (0 < (← self).job.tcells)) 0x11

/-- The members of a command: the bound easel, or the 16 easels of the string in member order (R237). Each is a cluster and
an easel. -/
def Context.members (c : Context) (group : Bool) : List (Nat × Nat) :=
  if group then (List.range 16).map (fun k => (stringOf c.id.core * 4 + k / 4, k % 4))
  else [(clusterOf c.id.core, c.job.easel.getD 0)]

/-- The cells that a new tile of a context takes on each easel that holds some of it. -/
def Context.needs (c : Context) (t : Tile) : List (Nat × Nat) := t.needs c.boundEasel (stringOf c.id.core)

/-- ReservationCheck of a new tile (R220): what is bound, the new cells included, keeps to TCELLS on every easel. -/
def Context.reserves (c : Context) (t : Tile) : Bool :=
  (c.needs t).all (fun q => decide ((c.bound.on q.1).length + q.2 ≤ c.job.tcells))

/-- Whether an easel that a new tile of the context whose turn it is needs has too few free cells. -/
def State.shortFor (s : State) (t : Tile) : Bool :=
  (s.cur.needs t).any (fun q => decide ((s.roomOn s.cur q.1).1.length + (s.roomOn s.cur q.1).2.length < q.2))

/-- ReservationCheck (R220) for a new tile, and the wait for free cells. -/
def reserve (t : Tile) : Op Unit := do
  need ((← self).reserves t) 0x11
  let s ← get
  if s.shortFor t then
    let s1 := s.drainTiles s.cur.id.uid (fun _ => true)
    set s1
    if s.cur.sync.region.isSome && s1.cur.sync.region.isNone then throw .gone
  if (← get).shortFor t then waitFor .cells

/-! Engine commands. -/

/-- The tag of the instruction in issue (R217). -/
def Context.tag (c : Context) : Nat :=
  c.id.core % 4 * 2 ^ 12 + c.id.slot % 8 * 2 ^ 9 + c.id.rob % 256 * 2 + c.id.rob / 256 % 2

/-- What a tile instruction forwards: its LOP, its destination's name, the tile that it writes, whether it goes to a whole
string, the cells of its sources, the ring slots that it names, the LFSR before and after its steps, the banks that it
captures, and the flags and the fault of each member. -/
structure Command where
  op : Nat
  name : Nat
  result : Option Tile := none
  group : Bool := false
  sources : Cells := []
  slots : List (Nat × BitVec 32) := []
  start : Option (BitVec 32) := none
  lfsr : Option (BitVec 32) := none
  banks : List Bool := []
  flags : List Flags := []
  faults : List (Option CmdFault) := []

/-- One member's command received: it starts at once where its easel is idle. -/
def State.receive (s : State) (cl : Nat) (k : EngineCmd) : State :=
  let v := s.cluster cl
  let idle : Bool := !(v.cmds.any (fun q => q.easel = k.easel && q.state = .executing))
  let s1 := s.setCluster cl { v with cmds := v.cmds ++ [{ k with state := if idle then .executing else .received }] }
  let s2 := s1.trace cl k.easel k.tag 1 k.op (cellField k.cells + k.name % 8 * 2 ^ 13)
  let s3 := if idle then s2.trace cl k.easel k.tag 2 k.op 0 else s2
  { s3 with agenda := s3.agenda ++ [.easelComplete (cl * 4 + k.easel) k.tag] }

/-- The command of member k. What an easel finds out, its sums, flags and faults, is laid down here and told when it
reports. -/
def Command.at (m : Command) (c : Context) (cells : Cells) (k : Nat) (at_ : Nat × Nat) : EngineCmd where
  easel := at_.2
  tag := c.tag
  op := m.op
  uid := c.id.uid
  bits := c.bits
  sources := m.sources.filter (fun q => q.1 = at_.1 * 4 + at_.2)
  cells := cells.on (at_.1 * 4 + at_.2)
  name := m.name
  slots := m.slots
  start := m.start
  state := .received
  squashed := false
  banks := m.banks
  result := m.result.map (fun t => { t with cells := cells })
  flags := getAt m.flags k 0
  lfsr := m.lfsr
  fault := getAt m.faults k none

/-- ENGINE_COMMAND_FORWARD (R217): the command goes to its easel, or to every member of the string, with its new cells,
and the instruction waits for the report. -/
def forward (m : Command) : Op Unit := do
  let s ← get
  let c := s.cur
  let (cells, s1) := match m.result with
    | none => ([], s)
    | some t => s.cellsFor c.id.uid (c.needs t)
  set ((c.members m.group).zipIdx.foldl (fun s q => s.receive q.1.1 (m.at c cells q.2 q.1)) s1)
  waitFor .easel

/-- The commands of a context gone, once it retires or takes their fault. -/
def State.dropCommands (s : State) (uid : Nat) : State :=
  { s with clusters := s.clusters.map (fun c => (c.1, { c.2 with
      cmds := c.2.cmds.filter (fun k => k.squashed || k.uid != uid) })) }

/-- Whether a squash of the context's slot is still on its way, be it of a context that has left the slot, or a squashed
command with the tag of the instruction in issue has not been discarded: a command renamed after the squash comes after
both (R293). -/
def State.squashAhead (s : State) : Bool :=
  s.clusters.any (fun c => c.2.squashes.any (fun q => q.core = s.cur.id.core && q.slot = s.cur.id.slot) ||
    c.2.cmds.any (fun k => k.squashed && k.tag = s.cur.tag))

/-- A tile instruction on its way: forwarded at its first turn, retired once every member has reported. The fault of the
lowest member is taken (R223, R226, R237). -/
def engine (issue : Op Command) (retire : List (Nat × EngineCmd) → Op Unit) : Op Unit := do
  let s ← get
  match s.commandsOf s.cur.id.uid with
  | [] =>
    let m ← issue
    if (← get).squashAhead then waitFor .easel
    forward m
  | k :: ks =>
    if !((k :: ks).all (fun q => q.2.state = .complete)) then waitFor .easel
    else
      let fault : Option CmdFault := (k :: ks).findSome? (fun q => q.2.fault)
      match fault with
      | some (.trap cause info) =>
        set (s.dropCommands s.cur.id.uid)
        throw (.trap cause (some info))
      | some (.page kind level ia va) =>
        set (s.dropCommands s.cur.id.uid)
        throw (.page kind level ia va)
      | none => retire (k :: ks)

/-- The new tile bound, and the old one of its name freed with a RETIRE record at each member of either (R223, R240, R294). An
open region keeps the old cells (R326): its records give none (log 103). -/
def bindTile (d : TNum) (ks : List (Nat × EngineCmd)) : Op Unit := do
  let s ← get
  let c := s.cur
  match ks.head? with
  | none => return ()
  | some (_, k) =>
    match k.result with
    | none => return ()
    | some t =>
      let old : Cells := (c.reg.t[d].map (fun t => t.cells)).getD []
      let freed : Cells := if c.sync.region.isSome then [] else old
      let wide : Bool := t.group || (c.sync.region.isNone && c.reg.t[d].any (fun t => t.group))
      let c1 := { c.setT d (some t) with sync := { c.sync with
        region := c.sync.region.map (fun r => { r with freed := r.freed ++ old }) } }
      set ((c.members wide).foldl (fun s m => s.trace m.1 m.2 c.tag 5 k.op (cellField (freed.on (m.1 * 4 + m.2))))
        ({ s with cur := c1 } : State))

/-- A tile instruction retires: flags, LFSR, and its commands gone. -/
def finish (ks : List (Nat × EngineCmd)) : Op Unit := do
  modify (fun s => ks.foldl (fun s k => s.event k.1 3) (s.dropCommands s.cur.id.uid))
  modifySelf (fun c =>
    let c1 := ks.foldl (fun c k => c.orFlags k.2.flags) c
    match ks.findSome? (fun k => k.2.lfsr) with
    | none => c1
    | some l => c1.setLfsr l)
  retires 8

/-- A plain destination written. -/
def bindFinish (d : TNum) (ks : List (Nat × EngineCmd)) : Op Unit := do
  bindTile d ks
  finish ks

/-- An easel's reads of memory: a fault that they meet is reported with the tag (R226). -/
def easelReads {α : Type} (x : Op α) : Op (Except CmdFault α) := do
  try
    return .ok (← x)
  catch e =>
    match e with
    | .trap cause info => return .error (.trap cause (info.getD (← self).bits))
    | .page kind level ia va => return .error (.page kind level ia va)
    | e => throw e

/-- An access to a row: what it raises names the row's address (R188, R344). -/
def atRow {α : Type} (va : Nat) (x : Op α) : Op α := do
  try x
  catch e =>
    match e with
    | .trap cause (some _) => raiseAt cause va
    | e => throw e

/-- The pieces of n bytes at an address that lie within granules. Fuel: the pieces. -/
def pieces : Nat → Nat → Nat → List (Nat × Nat)
  | 0, _, _ => []
  | fuel + 1, va, n => if n = 0 then [] else (va, min n (32 - va % 32)) :: pieces fuel (va + min n (32 - va % 32)) (n - min n (32 - va % 32))

/-- The address checks of the n bytes of a row: their places, each under the row's address. -/
def mapBytes (va n : Nat) (k : Access) : Op (List (Spot × Nat)) :=
  (pieces (n / 32 + 2) va n).mapM (fun q => do return (⟨va, (← atRow va (mapSpot q.1 k false)).ia⟩, q.2))

/-- Bytes read from checked places, inv by an invariant load (R197). -/
def readSpots (inv : Bool) (ps : List (Spot × Nat)) : Op (List Byte) := do
  return (← ps.mapM (fun q => do
    if inv && (← get).inMemory q.1.ia then readInv q.1 q.2 else readMem q.1 q.2)).flatten

/-! Rings as operands (R258). -/

/-- The ring of a handle with a role that the test accepts, or RING_ERROR. -/
def handleOf (p : PNum) (role : RingRole → Bool) : Op (RingHandle × Ring) := do
  let s ← get
  match s.cur.reg.p[p] with
  | none => raise 0x0C
  | some h =>
    match s.ring s.cl h.ring with
    | none => raise 0x0C
    | some r => if role h.role then return (h, r) else raise 0x0C

/-- A role of an easel subscription. -/
def RingRole.easel (r : RingRole) : Bool := r = .easelSub || r = .easelAll

/-- RingCheck (R258). -/
def ringCheck (p : PNum) : Op (RingHandle × Ring) := do
  let (h, r) ← handleOf p RingRole.easel
  need (r.fmt != 0) 0x0C
  return (h, r)

/-- The subscriber record of the bound easel. -/
def RingHandle.easelRecord (h : RingHandle) (c : Context) : Nat :=
  if h.role = .easelAll then h.record + c.job.easel.getD 0 else h.record

/-- The wait until a subscription has been delivered its slot of a sequence number (R232). -/
def waitSlot (idx k : Nat) (q : BitVec 32) : Op Unit := do
  modify (fun s => s.deliverAll s.cl idx)
  let s ← get
  let here : Bool := match s.ring s.cl idx with
    | none => false
    | some r => match r.subs[k]? with
      | none => false
      | some u => decide ((q - u.popped).toNat < (u.delivered - u.popped).toNat)
  if !here then waitFor (.ring idx (.slot k))

/-- The shape of a ring's slot image. -/
def Ring.desc (r : Ring) : Desc := ⟨r.rows, r.cols, r.stride⟩

/-- The slot of a sequence number as a subscription's operand staging holds it (R231); one that is not there any more is
read from the palette. -/
def State.staged (s : State) (cl : Nat) (r : Ring) (k : Nat) (q : BitVec 32) : Staged :=
  match (r.subs[k]?).bind (fun u => u.staged.find? (fun x => x.seq = q)) with
  | some x => x
  | none => ⟨q, s.now, s.bytesAt (State.slotLoc cl r q) r.slotBytes, s.poison⟩

/-- The bytes of rows in a staged slot of a cluster's ring, from an offset in it; of each row, the n bytes at lo are those
that are used, and MACHINE_CHECK where one of them is poisoned (R361). -/
def stagedRows (cl : Nat) (r : Ring) (x : Staged) (off : Nat) (d : Desc) (f : FmtCode) (lo n : Nat) :
    Op (List (List Byte)) :=
  (List.range d.rows).mapM (fun k => do
    let at_ := off + k * d.step f
    let loc := State.slotLoc cl r x.seq + at_ + lo
    if x.bad.any (fun b => loc ≤ b && b < loc + n) then raiseAt 0x13 loc
    return (x.bytes.drop at_).take (rowBytes d.cols f))

/-- Whether a write is one of a context, under its token of now or one of an earlier residency. -/
def State.wrote (s : State) (c : Context) (w : Writer) : Bool :=
  w = c.writer || w.core.isSome && s.accounts.any (fun a => a.uid = c.id.uid && a.token = w.token)

/-- A staged slot as a tile load of the context reads it: with the context's own stores to its bytes since its delivery, those
that drain in this very step among them (R226). -/
def ownView (cl : Nat) (r : Ring) (x : Staged) : Op Staged := do
  let base := State.slotLoc cl r x.seq
  settle base r.slotBytes
  let s ← get
  let own (k : Nat) : Bool := (s.versions (base + k)).any (fun v => decide (x.step ≤ v.step) && s.wrote s.cur v.writer)
  return { x with
    bytes := x.bytes.mapIdx (fun k b => if own k then cellGet s.mem (base + k) else b)
    bad := x.bad.filter (fun b => s.poison.contains b || !(own (b - base))) }

/-- The next slot of a handle's record popped. -/
def popEasel (p : PNum) (op : Nat) : Op Unit := do
  let s ← get
  let c := s.cur
  match c.reg.p[p] with
  | none => return ()
  | some h =>
    set ((s.popRing s.cl h.ring (h.easelRecord c) (c.job.easel.getD 0) c.tag op).mapCtx c.id.uid (fun c =>
      c.setP p (some { h with next := h.next + 1 })))

end Sys2Proof.Machine
end

