-- ==== Sys2Proof/Machine/Tile.lean ====
section
/-! DEFINITION. Tile.lean: the tile instructions (R233 to R238, R246 to R257), CTWR and CTSWAP (R266, R267). -/

namespace Sys2Proof.Machine

/-! Loads (R247, R248). -/

/-- The active bank of the context's cluster. -/
def State.activeBank (s : State) : Bool := (s.cluster s.cl).bank

/-- SHAPE_ERROR where a descriptor breaks the limits. -/
def needDesc (d : Desc) (f : FmtCode) (group : Bool) : Op Unit := need (d.ok f group) 0x10

/-- SHAPE_ERROR where a name is bound to a group tile (R257). -/
def notGroup (n : TNum) : Op Unit := do need (!((← self).groupName n)) 0x10

/-- The checks of the rows of a tile at an address (R247). -/
def mapRows (d : Desc) (f : FmtCode) (base : Nat) (k : Access) : Op (List (List (Spot × Nat))) :=
  (List.range d.rows).mapM (fun r => mapBytes (base + r * d.step f) (rowBytes d.cols f) k)

/-- A command that writes a tile, from source tiles. -/
def tileCommand (op : Nat) (td : TNum) (t : Tile) (fl : Flags) (sources : List Tile := []) : Command :=
  { op := op, name := td.val, result := some t, group := t.group, flags := [fl]
    sources := sources.flatMap (fun t => t.cells) }

/-- A command for a load: its rows, or the fault that they met. -/
def loadCommand (op : Nat) (td : TNum) (f : FmtCode) (d : Desc) (bank : Bool) (rows : Except CmdFault (List (List Byte))) :
    Command :=
  match rows with
  | .error x => { tileCommand op td (zeroTile f bank d.rows d.cols false) 0 with faults := [some x] }
  | .ok rs => tileCommand op td (tileFrom f bank d.cols rs) 0

/-- TLD issued. -/
def tldIssue (td : TNum) (a xs : XReg) (f : FmtCode) (m : MemAttr) (off : BitVec 19) : Op Command := do
  needCells
  let d := descOf (← readX xs)
  notGroup td
  needDesc d f false
  let base ← effectiveVa (← readX a) off.toInt (d.span f) 16
  let rows ← mapRows d f base .read
  let bank := (← get).activeBank
  reserve (zeroTile f bank d.rows d.cols false)
  loadWaits m
  return loadCommand 0x20 td f d bank (← easelReads (rows.mapM (readSpots (m.cls = 2))))

/-- The acquire of a tile load, before its tile is bound, as if it were performed at the retirement (R247, R306). -/
def tldAcquires (a xs : XReg) (f : FmtCode) (m : MemAttr) (off : BitVec 19) : Op Unit := do
  if acquiring m then
    let d := descOf (← readX xs)
    let base ← effectiveVa (← readX a) off.toInt (d.span f) 16
    let rows ← mapRows d f base .read
    acquiresAll (rows.flatten.map (fun q => q.1)) 32 m.scope.val

/-- TLD. -/
def tldOp (td : TNum) (a xs : XReg) (f : FmtCode) (m : MemAttr) (off : BitVec 19) : Op Unit :=
  engine (tldIssue td a xs f m off) (fun ks => do
    tldAcquires a xs f m off
    bindTile td ks
    finish ks)

/-- TLD. -/
def execTld (td : TNum) (a xs : XReg) (fmt : FmtCode) (m : MemAttr) (off : BitVec 19) (s : State) :
    Host.Outcome State Fault Refusal := s.does (tldOp td a xs fmt m off)

/-- TLDP issued. -/
def tldpIssue (td : TNum) (pr : PNum) (xs : XReg) (f : FmtCode) (off : Nat) : Op Command := do
  notInGlaze
  needCells
  let (h, r) ← handleOf pr RingRole.easel
  need (r.fmt = 0 || r.fmt = f) 0x03
  let d := descOf (← readX xs)
  notGroup td
  needDesc d f false
  need (off % 16 = 0 && off + d.span f ≤ r.slotBytes) 0x0C
  let bank := (← get).activeBank
  let c ← self
  reserve (zeroTile f bank d.rows d.cols false)
  let k := h.easelRecord c
  let q := r.oldest k
  waitSlot h.ring k q
  let s ← get
  let r := (s.ring s.cl h.ring).getD r
  let x ← ownView s.cl r (s.staged s.cl r k q)
  return { loadCommand 0x21 td f d bank (← easelReads (stagedRows s.cl r x off d f 0 (rowBytes d.cols f))) with
    slots := [(h.ring, q)] }

/-- TLDP. -/
def tldpOp (td : TNum) (pr : PNum) (xs : XReg) (f : FmtCode) (off : BitVec 19) : Op Unit :=
  engine (tldpIssue td pr xs f off.toNat) (fun ks => do
    bindTile td ks
    popEasel pr 0x21
    finish ks)

/-- TLDP. -/
def execTldp (td : TNum) (pr : PNum) (xs : XReg) (fmt : FmtCode) (off : BitVec 19) (s : State) :
    Host.Outcome State Fault Refusal := s.does (tldpOp td pr xs fmt off)

/-! Stores (R249, R250). -/

/-- The tile of a store and its descriptor (R249). -/
def storeTile (ts : TNum) (xs : XReg) (f : FmtCode) : Op (Tile × Desc) := do
  let t ← tileOperand ts f
  let d := descOf (← readX xs)
  needDesc d f t.group
  need (d.rows = t.rows && d.cols = t.cols) 0x10
  return (t, d)

/-- A command that stores a tile. -/
def storeCommand (op : Nat) (ts : TNum) (t : Tile) (slots : List (Nat × BitVec 32)) : Command :=
  { op := op, name := ts.val, group := t.group, sources := t.cells, slots := slots }

/-- Bytes cut along a list of lengths. -/
def cutAlong : List Nat → List Byte → List (List Byte)
  | [], _ => []
  | n :: rest, bs => bs.take n :: cutAlong rest (bs.drop n)

/-- The rows of a tile as pieces of memory, checked. -/
def tileWrites (t : Tile) (d : Desc) (f : FmtCode) (base : Nat) : Op (List (Spot × List Byte)) := do
  let rows ← mapRows d f base .write
  return ((rows.zipIdx).map (fun r =>
    (r.1.map (fun q => q.1)).zip (cutAlong (r.1.map (fun q => q.2)) (t.rowImage r.2)))).flatten

/-- A retired tile store on its way (R227): its rows in ascending order, the cells that it keeps on every easel. A group tile
has a record at each member, also at one whose block holds nothing (R236, R294). -/
def drainLater (t : Tile) (parts : List (Nat × List Byte)) (slot : Option (Nat × BitVec 32)) (counted : Option PostKind)
    (g : Gate) : Op Unit := do
  parts.forM (fun p => settleWith ⟨true, true, false⟩ p.1 p.2.length)
  match counted with
  | some k => postRoom k
  | none => return ()
  let s ← get
  let c := s.cur
  let rows := mergedParts parts
  let cells : Cells := (c.members t.group).map (fun m => (m.1 * 4 + m.2, t.cells.on (m.1 * 4 + m.2)))
  modifySelf (fun c => { c with io := { c.io with drains := c.io.drains ++ [⟨rows, rows, cells, slot, c.bits, c.tag, false,
    counted, s.now, g, c.sync.region.isSome⟩] } })
  due (.tileDrain c.id.uid)

/-- TST issued. -/
def tstIssue (ts : TNum) (a xs : XReg) (f : FmtCode) (off : BitVec 19) : Op Command := do
  needCells
  let (t, d) ← storeTile ts xs f
  let base ← effectiveVa (← readX a) off.toInt (d.span f) 16
  let _ ← mapRows d f base .write
  return storeCommand 0x22 ts t []

/-- The bytes of TST leave as a drain: into the open region, where classes order nothing and a streaming store is a plain one
(R325), or to memory, where a counter counts one that streams to pageable memory. One whose rows belong to two counters is
counted in that of the first (log 104). -/
def tstStores (t : Tile) (m : MemAttr) (ps : List (Spot × List Byte)) : Op Unit := do
  let s ← get
  if s.cur.sync.region.isSome then
    drainLater t (ps.map (fun p => (p.1.ia, p.2))) none none { wait := m.wait.val }
  else
    let counted := ps.findSome? (fun p => if m.cls = 2 && s.pageable p.1.ia then s.postKind s.cur p.1.ia true else none)
    drainLater t (ps.map (fun p => (p.1.ia, p.2))) none counted (← storeGate m)

/-- TST: it retires without waiting, and drains once its WAIT field and its class let it (R205, R249). -/
def tstOp (ts : TNum) (a xs : XReg) (f : FmtCode) (m : MemAttr) (off : BitVec 19) : Op Unit :=
  engine (tstIssue ts a xs f off) (fun ks => do
    let (t, d) ← storeTile ts xs f
    let base ← effectiveVa (← readX a) off.toInt (d.span f) 16
    tstStores t m (← tileWrites t d f base)
    finish ks)

/-- TST. -/
def execTst (ts : TNum) (a xs : XReg) (fmt : FmtCode) (m : MemAttr) (off : BitVec 19) (s : State) :
    Host.Outcome State Fault Refusal := s.does (tstOp ts a xs fmt m off)

/-- A slot that is FILLING and claimed by this context through a handle, or RING_ERROR (R250, R264). -/
def needClaimed (p : PNum) (r : Ring) (q : BitVec 32) : Op Unit := do
  let uid := (← self).id.uid
  need (r.inside q && (r.slot q).st = .filling && (r.slot q).filler = some (.handle uid p)) 0x0C

/-- TSTP's checks: ring, slot, tile and descriptor. -/
def tstpChecks (ts : TNum) (pr : PNum) (a xs : XReg) (f : FmtCode) (off : Nat) :
    Op (RingHandle × Ring × BitVec 32 × Tile × Desc) := do
  let (h, r) ← handleOf pr (fun _ => true)
  let (t, d) ← storeTile ts xs f
  let q := (← readX a).extractLsb' 32 32
  need (off % 16 = 0 && off + d.span f ≤ r.slotBytes) 0x0C
  needClaimed pr r q
  return (h, r, q, t, d)

/-- TSTP. The rows of a group tile all enter the slot claimed in the context's own cluster: which cluster's slot takes which
rows the manual does not say. DESIGN CHOICE (log 124). Unsafe. -/
def tstpOp (ts : TNum) (pr : PNum) (a xs : XReg) (f : FmtCode) (off : BitVec 19) : Op Unit :=
  engine (do
    notInGlaze
    needCells
    let (h, _, q, t, _) ← tstpChecks ts pr a xs f off.toNat
    return storeCommand 0x23 ts t [(h.ring, q)])
  (fun ks => do
    let (h, r, q, t, d) ← tstpChecks ts pr a xs f off.toNat
    let base := State.slotLoc (clusterOf (← self).id.core) r q + off.toNat
    let parts := (List.range d.rows).flatMap (fun k =>
      partsOf (base + k * d.step f) (rowBytes d.cols f + 1) (t.rowImage k))
    drainLater t parts (some (h.ring, q)) none (← gateOf 0 false false 0)
    finish ks)

/-- TSTP. -/
def execTstp (ts : TNum) (pr : PNum) (a xs : XReg) (fmt : FmtCode) (off : BitVec 19) (s : State) :
    Host.Outcome State Fault Refusal := s.does (tstpOp ts pr a xs fmt off)

/-! TZERO, TGRP (R251, R257). -/

/-- TZERO. -/
def tzeroOp (td : TNum) (f : FmtCode) (xs : XReg) : Op Unit :=
  engine (do
    needCells
    let d := { descOf (← readX xs) with stride := 0 }
    needDesc d f false
    let t := zeroTile f (← get).activeBank d.rows d.cols false
    reserve t
    return tileCommand 0x42 td t 0) (bindFinish td)

/-- TZERO. -/
def execTzero (td : TNum) (fd : FmtCode) (xs : XReg) (s : State) : Host.Outcome State Fault Refusal :=
  s.does (tzeroOp td fd xs)

/-- TGRP. -/
def tgrpOp (td : TNum) (f : FmtCode) (xs : XReg) : Op Unit :=
  engine (do
    needCells
    need (decide (1 < (← self).job.group)) 0x11
    let d := descOf (← readX xs)
    needDesc d f true
    let t := zeroTile f false d.rows d.cols true
    reserve t
    return tileCommand 0x45 td t 0) (bindFinish td)

/-- TGRP. -/
def execTgrp (td : TNum) (fd : FmtCode) (xs : XReg) (s : State) : Host.Outcome State Fault Refusal :=
  s.does (tgrpOp td fd xs)

/-! Products (R252 to R254). -/

/-- The operands of a product. -/
structure Product where
  td : TNum
  ta : TNum
  tb : TNum
  fa : FmtCode
  fb : FmtCode
  fd : FmtCode
  pa : PNum
  pb : PNum
  ra : Bool
  rb : Bool
  sp : Nat
  xs : XReg

/-- The LOP of a product. -/
def Product.op (p : Product) : Nat := if p.sp = 0 then 0x40 else 0x41

/-- One output element. table, u and s serve Q4 formats; bs is the row's metadata. -/
def Product.element (p : Product) (table us : List Nat) (s : Nat) (bs : List Byte) (acc : Nat) (row col : List Nat) :
    Nat × Flags :=
  if fmtQ4 p.fa then accQ4 table s (us.zip (denseGroups 64 row col)) (acc, 0)
  else
    let groups := if p.sp = 0 then denseGroups 32 row col else sparseGroups (storedPer p.sp) row col bs
    if p.fa = 10 || p.fa = 12 then accInt p.fa acc groups else accFp (fpFmt p.fa) (fpFmt p.fb) acc groups

/-- Every output element of a block in row-major order: the accumulator's element at (m, n), the operands, the
metadata of each row. -/
def Product.block (p : Product) (table : List Nat) (metas : List (List Byte)) (acc : Nat → Nat → Nat) (a b : Tile) :
    List (Nat × Flags) :=
  let cols := (List.range b.cols).map b.col
  (List.range a.rows).flatMap (fun m =>
    let us := (List.range (a.cols / 64)).map (a.scaleU m)
    let row := a.row m
    cols.mapIdx (fun n col => p.element table us (a.scaleS m) (getAt metas m []) (acc m n) row col))

/-- Bytes of a row's metadata (R234, R254). -/
def metaBytes (n k : Nat) : Nat := ceilDiv (3 * n * k) 512 * 8

/-- A table of a cluster. -/
def State.tableOf (s : State) (cl : Nat) (f : FmtCode) (bank : Bool) : List Nat :=
  if f = 14 then getAt (s.cluster cl).banks bank.toNat [] else q4n

/-- A ring operand's tile of a cluster, from the operand staging of subscription k; lo and n bound the bytes of each row that
the member uses. -/
def ringTile (cl : Nat) (r : Ring) (k : Nat) (q : BitVec 32) (f : FmtCode) (bank : Bool) (lo n : Nat) : Op Tile := do
  let d := r.desc
  let rows ← stagedRows cl r ((← get).staged cl r k q) 0 d f lo n
  return tileFrom f bank d.cols rows

/-- A source: the tile of a name, or the ring of a handle with the record and the sequence number that it takes. -/
inductive Source where
  | tile (t : Tile)
  | ring (h : RingHandle) (r : Ring) (k : Nat) (q : BitVec 32)

/-- Rows and columns of a source. -/
def Source.shape (s : Source) : Nat × Nat :=
  match s with
  | .tile t => (t.rows, t.cols)
  | .ring _ r _ _ => (r.rows, r.cols)

/-- The tile of a source. -/
def Source.read (s : Source) (cl : Nat) (f : FmtCode) (bank : Bool) : Op Tile :=
  match s with
  | .tile t => return t
  | .ring h r k q => do
    let r := ((← get).ring cl h.ring).getD r
    ringTile cl r k q f bank 0 (rowBytes r.cols f)

/-- The cells of a source that is a tile. -/
def Source.tiles (s : Source) : List Tile :=
  match s with
  | .tile t => [t]
  | .ring _ _ _ _ => []

/-- The slot of a source that is a ring operand. -/
def Source.slots (s : Source) : List (Nat × BitVec 32) :=
  match s with
  | .tile _ => []
  | .ring h _ _ q => [(h.ring, q)]

/-- The bank that a source decodes with: its companion bit, or the active bank, as it stood when a ring operand was
issued (R258, R267). -/
def Source.bank (s : Source) : Op Bool := do
  match s with
  | .tile t => return t.comp
  | .ring _ _ _ _ =>
    match (← self).sync.wait with
    | .bank b => return b
    | _ => return (← get).activeBank

/-- Check 3 for the ring operands of a product on one easel. -/
def Product.rings (p : Product) : Op (Option (RingHandle × Ring) × Option (RingHandle × Ring)) := do
  let a ← if p.ra then (do return some (← ringCheck p.pa)) else pure none
  let b ← if p.rb then (do return some (← ringCheck p.pb)) else pure none
  return (a, b)

/-- Check 4 for one source. later says that it takes the slot after the first source's. -/
def sourceOperand (ring : Option (RingHandle × Ring)) (n : TNum) (f : FmtCode) (later : Bool) : Op Source := do
  match ring with
  | some (h, r) =>
    need (r.fmt = f) 0x03
    let k := h.easelRecord (← self)
    return .ring h r k (r.oldest k + (if later then 1 else 0))
  | none => return .tile (← tileOperand n f)

/-- The slot of a ring operand awaited. -/
def Source.await (s : Source) : Op Unit :=
  match s with
  | .tile _ => return ()
  | .ring h _ k q => waitSlot h.ring k q

/-- The address checks of the metadata (R254): the places of each row's. -/
def Product.metaSpots (p : Product) (rows k : Nat) : Op (List (List (Spot × Nat))) := do
  if p.sp = 0 then return []
  let mb := metaBytes (storedPer p.sp) k
  let base ← effectiveVa (← readX p.xs) 0 (rows * mb) 8
  (List.range rows).mapM (fun m => mapBytes (base + m * mb) mb .read)

/-- Check 5 of a product (R253, R254). -/
def Product.shapeOk (p : Product) (a b : Nat × Nat) (rows cols : Nat) : Bool :=
  (if p.sp = 0 then a.2 = b.1 else b.1 % 8 = 0 && a.2 = b.1 * storedPer p.sp / 8) &&
  rows = a.1 && cols = b.2 && (!(fmtQ4 p.fa) || a.2 % 64 = 0)

/-- A product on the bound easel issued. -/
def Product.issue (p : Product) : Op Command := do
  if p.ra || p.rb then notInGlaze
  needCells
  let (ga, gb) ← p.rings
  let a ← sourceOperand ga p.ta p.fa false
  let b ← sourceOperand gb p.tb p.fb (p.ra && p.rb && p.pa = p.pb)
  let d ← tileOperand p.td p.fd
  need (p.shapeOk a.shape b.shape d.rows d.cols) 0x10
  let spots ← p.metaSpots d.rows b.shape.1
  reserve d
  let bank ← a.bank
  let banks := if p.fa = 14 then [bank] else []
  capture banks
  a.await
  b.await
  let cl := clusterOf (← self).id.core
  let reads ← easelReads (do
    return (← a.read cl p.fa bank, ← b.read cl p.fb false, ← spots.mapM (readSpots false)))
  let s ← get
  let command (t : Tile) (fl : Flags) : Command := { tileCommand p.op p.td t fl (a.tiles ++ b.tiles ++ [d]) with
    banks := banks, slots := a.slots ++ b.slots }
  match reads with
  | .error x => return { command d 0 with faults := [some x] }
  | .ok (ta, tb, metas) =>
    let out := p.block (s.tableOf cl p.fa bank) metas d.elem ta tb
    return command { d with elems := out.map (fun q => q.1) } (flagsOf out)

/-! Products on a group tile (R237, R238, R257). -/

/-- Whether a ring of a cluster is an instance of a string ring: STRING, and its four records made with KIND 3. -/
def Ring.stringOk (r : Ring) (like : Ring) : Bool :=
  r.stringRing && r.nslot = like.nslot && r.slotBytes = like.slotBytes && r.fmt != 0 && r.subs.length = 4 &&
  (r.subs.zipIdx).all (fun u => u.1.easel = some u.2 && (r.subs.head?.map (fun v => (v.owner, v.handle)) =
    some (u.1.owner, u.1.handle)))

/-- The instances of a string ring in the four clusters, or RING_ERROR. -/
def stringRings (p : PNum) : Op (RingHandle × List Ring) := do
  let (h, r) ← ringCheck p
  need (h.role = .easelAll) 0x0C
  let s ← get
  let rs := (List.range 4).map (fun i => s.ring (s.cl / 4 * 4 + i) h.ring)
  need (rs.all (fun q => match q with
    | none => false
    | some q => q.stringOk r)) 0x0C
  return (h, rs.filterMap (fun q => q))

/-- Slot q delivered to the four subscribers of a ring in the four clusters. -/
def waitString (idx : Nat) (q : BitVec 32) : Op Unit := do
  modify (fun s => (List.range 4).foldl (fun s i => s.deliverAll (s.cl / 4 * 4 + i) idx) s)
  let s ← get
  let here : Bool := (List.range 4).all (fun i => match s.ring (s.cl / 4 * 4 + i) idx with
    | none => false
    | some r => r.subs.all (fun u => decide ((q - u.popped).toNat < (u.delivered - u.popped).toNat)))
  if !here then waitFor (.ring idx (.slot 0))

/-- Columns of a tile from one on. -/
def Tile.colsFrom (t : Tile) (from_ n : Nat) : Tile :=
  { t with cols := n, elems := (List.range t.rows).flatMap (fun r => ((t.row r).drop from_).take n) }

/-- A product on a group tile issued. -/
def Product.issueGroup (p : Product) (d : Tile) : Op Command := do
  if p.ra || p.rb then notInGlaze
  needCells
  need (p.ra && p.rb) 0x0C
  let (ha, as) ← stringRings p.pa
  let (hb, bs) ← stringRings p.pb
  need (as.all (fun r => r.fmt = p.fa) && bs.all (fun r => r.fmt = p.fb) && d.tag = p.fd) 0x03
  let blocks := groupBlocks d.rows d.cols (fmtWidth d.tag)
  need (((List.range 4).all (fun i =>
    let n := (getAt blocks (4 * i) (0, 0, 0, 0)).2.1
    n = 0 || (match as[i]?, bs[i]? with
      | some a, some b => p.shapeOk (a.rows, a.cols) (b.rows, b.cols) n d.cols
      | _, _ => false)))) 0x10
  let spots ← (List.range 4).mapM (fun i =>
    let n := (getAt blocks (4 * i) (0, 0, 0, 0)).2.1
    if p.sp = 0 || n = 0 then pure [] else do
      let mb := metaBytes (storedPer p.sp) ((bs[i]?.map (fun b => b.rows)).getD 0)
      let base ← effectiveVa (← readX p.xs) 0 (d.rows * mb) 8
      (List.range n).mapM (fun m => mapBytes (base + (128 * i + m) * mb) mb .read))
  reserve d
  let bank ← (do match (← self).sync.wait with
    | .bank b => return b
    | _ => return (← get).activeBank)
  let banks := if p.fa = 14 then [bank] else []
  let cl0 := (← get).cl / 4 * 4
  captureIn ((List.range 4).map (fun i => cl0 + i)) banks
  let qa := (as.head?.map (fun r => r.oldest 0)).getD 0
  let qb := (bs.head?.map (fun r => r.oldest 0)).getD 0 + (if p.pa = p.pb then 1 else 0)
  waitString ha.ring qa
  waitString hb.ring qb
  let s ← get
  let reads ← blocks.zipIdx.mapM (fun b => do
    let i := b.2 / 4
    let cols := b.1.2.2.2
    match b.1.2.1 * cols, s.ring (cl0 + i) ha.ring, s.ring (cl0 + i) hb.ring with
    | 0, _, _ => return .ok none
    | _, some ra, some rb => easelReads (do
      let w := fmtWidth p.fb
      let ta ← ringTile (cl0 + i) ra (b.2 % 4) qa p.fa bank 0 (rowBytes ra.cols p.fa)
      let tb ← ringTile (cl0 + i) rb (b.2 % 4) qb p.fb false (b.1.2.2.1 * w / 8) (ceilDiv (cols * w) 8)
      return some (ta, tb, ← (getAt spots i []).mapM (readSpots false)))
    | _, _, _ => return .ok none)
  let s ← get
  let outs := (blocks.zip reads).mapIdx (fun k b => match b.2 with
    | .ok (some (ta, tb, metas)) =>
      p.block (s.tableOf (cl0 + k / 4) p.fa bank) metas (fun m n => d.elem (b.1.1 + m) (b.1.2.2.1 + n)) ta
        (tb.colsFrom b.1.2.2.1 b.1.2.2.2)
    | _ => [])
  let w := 8192 / fmtWidth d.tag
  let elems := (List.range (d.rows * d.cols)).map (fun e =>
    let r := e / d.cols
    let c := e % d.cols
    let k := r / 128 * 4 + c / w
    let b := getAt blocks k (0, 0, 0, 1)
    (getAt (getAt outs k []) (r % 128 * b.2.2.2 + c % w) (0, 0)).1)
  return { tileCommand p.op p.td { d with elems := elems } 0 [d] with
    banks := banks, slots := [(ha.ring, qa), (hb.ring, qb)], flags := outs.map flagsOf
    faults := reads.map (fun x => match x with
      | .error e => some e
      | .ok _ => none) }

/-- Slots of a string ring popped in all four clusters, for all four easels (R238). -/
def popString (p : PNum) (op : Nat) : Op Unit := do
  let s ← get
  let c := s.cur
  match c.reg.p[p] with
  | none => return ()
  | some h =>
    set (((List.range 16).foldl (fun s k => s.popRing (s.cl / 4 * 4 + k / 4) h.ring (k % 4) (k % 4) c.tag op) s).mapCtx
      c.id.uid (fun c => c.setP p (some { h with next := h.next + 1 })))

/-- A product. -/
def Product.run (p : Product) : Op Unit :=
  engine (do
    match (← self).reg.t[p.td] with
    | some t => if t.group then p.issueGroup t else p.issue
    | none => p.issue)
  (fun ks => do
    let group := (← self).groupName p.td
    bindTile p.td ks
    if p.ra then (if group then popString p.pa p.op else popEasel p.pa p.op)
    if p.rb then (if group then popString p.pb p.op else popEasel p.pb p.op)
    finish ks)

/-- TMMA. -/
def execTmma (td ta tb : TNum) (fa fb fd : FmtCode) (pa pb : PNum) (ra rb : Bool) (s : State) :
    Host.Outcome State Fault Refusal := s.does (Product.run ⟨td, ta, tb, fa, fb, fd, pa, pb, ra, rb, 0, 0⟩)

/-- TMMAS. -/
def execTmmas (td ta tb : TNum) (fa fb fd : FmtCode) (pa pb : PNum) (ra rb : Bool) (sp : Fin 8) (xs : XReg)
    (s : State) : Host.Outcome State Fault Refusal :=
  s.does (Product.run ⟨td, ta, tb, fa, fb, fd, pa, pb, ra, rb, sp.val, xs⟩)

/-! TCVT and TADD (R255, R256). -/

/-- One element of TCVT: a Q4 source takes its full FP32 value first. -/
def tcvtElem (fa fd : FmtCode) (mode : Nat) (lfsr : BitVec 32) (sat : Bool) (dt st : List Nat) (t : Tile) (r c : Nat) :
    Nat × Flags :=
  let e := t.elem r c
  if fmtQ4 fa then
    let (v, f1) := q4Value (codeValue st e) (t.scaleU r (c / 64)) (t.scaleS r)
    let (x, f2) := roundArith FP32 RNE v
    if fd = 2 then (x, f1 ||| f2)
    else
      let (y, f3) := cvtFF (fpFmt fd) FP32 mode lfsr sat x
      (y, f1 ||| f2 ||| f3)
  else convert fd fa mode lfsr sat dt st e

/-- TCVT. -/
def tcvtOp (td ta : TNum) (bank : Bool) (fa fd : FmtCode) (rnd : Fin 8) (sat : Bool) : Op Unit :=
  engine (do
    needCells
    let t ← tileOperand ta fa
    notGroup ta
    notGroup td
    let c ← self
    need (Desc.ok ⟨t.rows, t.cols, 0⟩ fd false) 0x10
    let z := zeroTile fd bank t.rows t.cols false
    reserve z
    let banks := (if fa = 14 then [t.comp] else []) ++ (if fd = 14 then [bank] else [])
    capture banks
    let s ← get
    let mode := resolveMode rnd.val c.rnd (narrowingFmt fd)
    let (out, l) := srLanes (mode = 6)
      (fun l i => tcvtElem fa fd mode l sat (s.codeTable fd bank) (s.codeTable fa t.comp) t (i / t.cols) (i % t.cols))
      ((List.range (t.rows * t.cols)).map (fun i => (i, true))) c.lfsr
    let new := { z with
      elems := out.map (fun q => q.1)
      us := z.us.map (fun _ => 1)
      ss := z.ss.map (fun _ => 0x3F800000) }
    return { tileCommand 0x43 td new (flagsOf out) [t] with
      banks := banks, start := if mode = 6 then some c.lfsr else none, lfsr := if mode = 6 then some l else none })
  (bindFinish td)

/-- TCVT. -/
def execTcvt (td ta : TNum) (bank : Bool) (fa fd : FmtCode) (rnd : Fin 8) (sat : Bool) (s : State) :
    Host.Outcome State Fault Refusal := s.does (tcvtOp td ta bank fa fd rnd sat)

/-- TADD. -/
def taddOp (td ta tb : TNum) (f : FmtCode) (rnd : Fin 8) : Op Unit :=
  engine (do
    needCells
    let a ← tileOperand ta f
    let b ← tileOperand tb f
    notGroup ta
    notGroup tb
    notGroup td
    need (a.rows = b.rows && a.cols = b.cols) 0x10
    let c ← self
    let z := zeroTile f false a.rows a.cols false
    reserve z
    let mode := resolveMode rnd.val c.rnd false
    let out := (a.elems.zip b.elems).map (fun p =>
      if f = 2 then fpAdd FP32 mode p.1 p.2 else cvtII 8 (toSigned 32 p.1 + toSigned 32 p.2))
    return tileCommand 0x44 td { z with elems := out.map (fun q => q.1) } (flagsOf out) [a, b]) (bindFinish td)

/-- TADD. -/
def execTadd (td ta tb : TNum) (fd : FmtCode) (rnd : Fin 8) (s : State) : Host.Outcome State Fault Refusal :=
  s.does (taddOp td ta tb fd rnd)

/-! The code table (R266, R267). -/

/-- Whether an operation in flight in the cluster has captured a bank. -/
def State.bankHeld (s : State) (cl : Nat) (b : Bool) : Bool := (s.cluster cl).cmds.any (fun k => k.banks.contains b)

/-- A CTWR or a CTSWAP takes its place at the cluster's table. -/
def joinTable (o : TableOp) : Op Unit := modify (fun s =>
  let v := s.cluster s.cl
  s.setCluster s.cl { v with table := v.table ++ [o] })

/-- The turn of the context's operation at the table: in order with the others, and once no operation in flight has captured
the bank that it concerns, it is performed (R266, R267). -/
def atTable : Op Unit := do
  let s ← get
  let v := s.cluster s.cl
  match v.table with
  | [] => return ()
  | o :: rest =>
    let b := v.bankOf o
    if o.uid != s.cur.id.uid || s.bankHeld s.cl b then waitFor .table
    set (s.setCluster s.cl (match o.image with
      | some es => { v with table := rest, banks := putAt v.banks b.toNat es }
      | none => { v with table := rest, bank := !v.bank, swaps := v.swaps + 1 }))

/-- Whether the context's operation already stands at the table. -/
def State.queuedAtTable (s : State) : Bool := (s.cluster s.cl).table.any (fun o => o.uid = s.cur.id.uid)

/-- CTWR. -/
def ctwrOp (a : XReg) (m : MemAttr) (off : BitVec 19) : Op Unit := do
  notInGlaze
  let va ← effectiveVa (← readX a) off.toInt 32 32
  let p ← mapSpot va .read false
  if !(← get).queuedAtTable then
    loadWaits m
    let img ← if m.cls = 2 && (← get).inMemory p.ia then readInv p 32 else readSpot p 32
    let entries := (List.range 16).map (fun k => fromBytes ((img.drop (2 * k)).take 2))
    need (entries.all (fun e => e < 512)) 0x03
    if acquiring m then acquires p 32 m.scope.val
    joinTable ⟨(← self).id.uid, some entries⟩
  atTable
  retires 8

/-- CTWR. -/
def execCtwr (a : XReg) (m : MemAttr) (off : BitVec 19) (s : State) : Host.Outcome State Fault Refusal :=
  s.does (ctwrOp a m off)

/-- CTSWAP. -/
def ctswapOp : Op Unit := do
  notInGlaze
  if !(← get).queuedAtTable then joinTable ⟨(← self).id.uid, none⟩
  atTable
  retires 8

/-- CTSWAP. -/
def execCtswap (s : State) : Host.Outcome State Fault Refusal := s.does ctswapOp

end Sys2Proof.Machine
end

