-- ==== Sys2Proof/Machine/Exact.lean ====
section
/-! DEFINITION. Exact.lean: exact accumulators and block sums (R286 to R292, R296). -/

namespace Sys2Proof.Machine

/-! Leaves (R286). -/

/-- A leaf added: its integer, its exponent, and the exponent that EM sees. Once SAT is set Q is ignored: what it then
holds is open, and junk stands for it. -/
def QAcc.leaf (q : QAcc) (p e em : Int) (junk : Nat) : QAcc :=
  let low := if q.empty then e else min q.eq e
  let high := if q.empty then em else max q.em em
  let sat : Bool := q.sat || decide (192 < high - low)
  let kept := if q.empty then 0 else q.q.toInt * 2 ^ (q.eq - low).toNat
  let sum := kept + p * 2 ^ (e - low).toNat
  { q with
    q := if sat then BitVec.ofNat 320 junk else BitVec.ofInt 320 sum
    eq := low, em := high, empty := false, sat := sat }

/-- A leaf added to an accumulator of the context whose turn it is. -/
def addLeaf (d : QNum) (p e em : Int) : Op Unit := do
  let s ← get
  let q := s.cur.reg.q[d].leaf p e em s.draw.1
  let s1 := if q.sat then s.draw.2 else s
  set ({ s1 with cur := s1.cur.setQ d q } : State)

/-- QCLR. -/
def execQclr (q : QNum) (s : State) : Host.Outcome State Fault Refusal :=
  .next (({ s with cur := s.cur.setQ q QAcc.clear } : State).retire 8)

/-- QADDF (R288). -/
def qaddfOp (d : QNum) (f : FmtCode) (xs : XReg) : Op Unit := do
  let w ← readX xs
  if f = 7 then
    if w != 0 then addLeaf d w.toInt 0 0
  else
    let q := (← self).reg.q[d]
    match (fpFmt f).value (w.toNat % 2 ^ (fpFmt f).width) with
    | .nan sig =>
      modifySelf (fun c => (c.setQ d { q with nanf := true }).orFlags (if sig then fNV else 0))
    | .inf neg => modifySelf (fun c => c.setQ d { q with pinf := q.pinf || !neg, ninf := q.ninf || neg })
    | .fin neg m e => if m != 0 then addLeaf d (signedSig neg m) e e
  retires 8

/-- QADDF. -/
def execQaddf (q : QNum) (fmt : FmtCode) (xs : XReg) (s : State) : Host.Outcome State Fault Refusal :=
  s.does (qaddfOp q fmt xs)

/-! Rounding (R291). -/

/-- The value of an accumulator's sum. -/
def QAcc.value (q : QAcc) : FpVal := .fin (decide (q.q.toInt < 0)) q.q.toInt.natAbs q.eq

/-- What QRND writes, with the scale's value. -/
def QAcc.round (q : QAcc) (f : FpFmt) (mode : Nat) (scale : FpVal) : Nat × Flags :=
  let zero : Bool := q.empty || q.q = 0
  if q.sat then (f.nan, fSAT ||| fNV)
  else if q.nanf || scale.isNan then (f.nan, if scale.isSig then fNV else 0)
  else if q.pinf && q.ninf then (f.nan, fNV)
  else if q.pinf || q.ninf then
    (if scale.isZero then (f.nan, fNV) else (f.inf (q.ninf != scale.neg), 0))
  else
    match scale with
    | .inf neg => if zero then (f.nan, fNV) else (f.inf (neg != decide (q.q.toInt < 0)), 0)
    | _ => if zero then (0, 0) else roundArith f mode (mulVal q.value scale).1

/-- QRND. -/
def execQrnd (q : QNum) (fmt : FmtCode) (rnd : Fin 8) (xs xt : XReg) (s : State) : Host.Outcome State Fault Refusal :=
  let f := fpFmt fmt
  let scale : FpVal := if xs = 0 then .fin false 1 0 else f.value (s.fx f xs)
  let r := s.cur.reg.q[q].round f (s.mode rnd) scale
  .next (((s.setX xt (word r.1)).orFlags r.2).retire 8)

/-! Block sums (R287, R289, R290, R296). -/

/-- Word 2 of a BLOCKSUM message. -/
def sumWord (more emptyf : Bool) (flags : Nat) (emax e : Int) : Word :=
  BitVec.ofNat 64 (more.toNat * 2 ^ 37 + emptyf.toNat * 2 ^ 36 + flags % 16 * 2 ^ 32 + ofSigned 16 emax * 2 ^ 16 +
    ofSigned 16 e)

/-- FLAGS of an accumulator. -/
def QAcc.flags (q : QAcc) : Nat :=
  q.sat.toNat + q.pinf.toNat * 2 + q.ninf.toNat * 4 + q.nanf.toNat * 8

/-- A message's FLAGS joined to an accumulator's. -/
def QAcc.orFlags (q : QAcc) (w : Word) : QAcc :=
  { q with sat := q.sat || w.getLsbD 32, pinf := q.pinf || w.getLsbD 33, ninf := q.ninf || w.getLsbD 34,
           nanf := q.nanf || w.getLsbD 35 }

/-- A BLOCKSUM message added. -/
def addMessage (d : QNum) (m : Message) : Op Unit := do
  let p := getAt m.payload 0 0
  let w := getAt m.payload 1 0
  if !w.getLsbD 36 then
    addLeaf d p.toInt (toSigned 16 (bitsOf w 15 0)) (toSigned 16 (bitsOf w 31 16))
  modifySelf (fun c => c.setQ d (c.reg.q[d].orFlags w))

/-- QADD's work on the messages that are there. Fuel: the mailbox and what moves into it. -/
def qaddLoop (d : QNum) (tag : Nat) : Nat → Nat → Op Unit
  | 0, _ => waitFor .message
  | fuel + 1, left => do
    if left = 0 then
      modifySelf (fun c => { c with mail := { c.mail with qleft := none } })
      retires 8
    else
      let all := (← self).mail.all
      match all.findIdx? (fun m => msgType m.header = 4 && msgTag m.header = tag) with
      | none => waitFor .message
      | some k =>
        let m := getAt all k ⟨0, []⟩
        takeMail k
        addMessage d m
        let left1 := if (getAt m.payload 1 0).getLsbD 37 then left else left - 1
        modifySelf (fun c => { c with mail := { c.mail with qleft := some left1 } })
        qaddLoop d tag fuel left1

/-- QADD. -/
def qaddOp (d : QNum) (xs xt : XReg) : Op Unit := do
  notInGlaze
  let n := (← readX xs).toNat
  need (n ≤ 65535) 0x02
  let tag := bitsOf (← readX xt) 15 0
  let c ← self
  qaddLoop d tag (c.mail.all.length + (← get).net.length + 1) (c.mail.qleft.getD n)

/-- QADD. -/
def execQadd (q : QNum) (xs xt : XReg) (s : State) : Host.Outcome State Fault Refusal := s.does (qaddOp q xs xt)

/-- The digits of a sum in base 2^62: the highest is signed, and no digit stands above it. Fuel: the digits. -/
def digits : Nat → Int → List Int
  | 0, n => [n]
  | fuel + 1, n => if -(2 ^ 62) ≤ n && n < 2 ^ 62 then [n] else n % 2 ^ 62 :: digits fuel (n / 2 ^ 62)

/-- The payloads of an accumulator's transfer. -/
def QAcc.transfer (q : QAcc) : List (List Word) :=
  if q.empty then [[0, sumWord false true q.flags q.em q.eq]]
  else
    let ds := digits 5 q.q.toInt
    ds.mapIdx (fun j d => [BitVec.ofInt 64 d,
      sumWord (j + 1 != ds.length) false q.flags q.em (q.eq + 62 * j)])

/-- BLOCKSUM messages of one QSEND handed to the network, in order; none is waited for. -/
def sendSums (dest : Word) (ms : List (Nat × List Word)) : Op Unit := do
  let src ← sourceOf
  ms.forM (fun m => sendMessage dest ⟨mkHeader 4 2 m.1 src, m.2⟩ false)

/-- QSEND, accumulator form. -/
def qsendOp (q : QNum) (xs xt : XReg) : Op Unit := do
  notInGlaze
  let w ← readX xs
  needDest w
  takeLate (fun k => k = .message)
  let tag := bitsOf (← readX xt) 15 0
  sendSums w (((← self).reg.q[q]).transfer.map (fun p => (tag, p)))
  retires 8

/-- QSEND, accumulator form. -/
def execQsendQ (q : QNum) (xs xt : XReg) (s : State) : Host.Outcome State Fault Refusal := s.does (qsendOp q xs xt)

/-- The payload of a row's block sum (R290): the blocks' u, the codes of the row, the activations. -/
def rowSum (table us codes acts : List Nat) : List Word :=
  let bs := us.zip (denseGroups 64 codes acts)
  if bs.any (fun b => blockNan b.2) then [0, sumWord false false 8 (-16) (-16)]
  else [BitVec.ofInt 64 (bs.foldl (fun (n : Int) b => n + blockSum table b.2 * b.1) 0), sumWord false false 0 (-16) (-16)]

/-- QSEND, tile form: the easel's work. -/
def qsendIssue (ta tb : TNum) (fa fb : FmtCode) (xs : XReg) : Op Command := do
  notInGlaze
  needCells
  let a ← tileOperand ta fa
  let b ← tileOperand tb fb
  need (a.cols = b.rows && b.cols = 1 && a.cols % 64 = 0) 0x10
  needDest (← readX xs)
  takeLate (fun k => k = .message)
  let banks := if fa = 14 then [a.comp] else []
  capture banks
  return { op := 0x64, name := 0, banks := banks, sources := a.cells ++ b.cells }

/-- QSEND, tile form: its retirement, and the messages after it. -/
def qsendRetire (ta tb : TNum) (fa fb : FmtCode) (xs xt : XReg) (ks : List (Nat × EngineCmd)) : Op Unit := do
  let a ← tileOperand ta fa
  let b ← tileOperand tb fb
  let w ← readX xs
  let tag := bitsOf (← readX xt) 15 0
  let s ← get
  let table := s.tableOf s.cl fa a.comp
  finish ks
  sendSums w ((List.range a.rows).map (fun m =>
    ((tag + m) % 2 ^ 16, rowSum table ((List.range (a.cols / 64)).map (a.scaleU m)) (a.row m) (b.col 0))))

/-- QSEND, tile form. -/
def execQsendQ4n (ta tb : TNum) (fa fb : FmtCode) (xs xt : XReg) (s : State) : Host.Outcome State Fault Refusal :=
  s.does (engine (qsendIssue ta tb fa fb xs) (qsendRetire ta tb fa fb xs xt))

end Sys2Proof.Machine
end

