-- ==== Sys2Proof/Machine/RingOps.lean ====
section
/-! DEFINITION. RingOps.lean: the ring instructions (R259 to R265). -/

namespace Sys2Proof.Machine

/-! Ring descriptors (R259). -/

/-- Whether a format is a tile format (R241). -/
def tileFmtCode (n : Nat) : Bool := [2, 3, 4, 5, 6, 8, 10, 12, 13, 14].contains n

/-- Whether a region of a palette meets no live ring. -/
def State.ringClear (s : State) (cl base size : Nat) : Bool :=
  (s.cluster cl).rings.all (fun r => base + size ≤ r.2.pbase || r.2.pbase + r.2.nslot * r.2.slotBytes ≤ base)

/-- Whether the bytes of a descriptor are valid in a cluster. -/
def State.ringDescOk (s : State) (cl : Nat) (bs : List Byte) : Bool :=
  let pbase := numIn bs 0 4
  let slot := numIn bs 4 4
  let nslot := numIn bs 8 1
  let nsub := numIn bs 9 1
  let fmt := numIn bs 0x0A 1
  let flags := numIn bs 0x0B 1
  let tdesc := numIn bs 0x0C 4
  let stride := numIn bs 0x10 4
  let d : Desc := ⟨tdesc / 2 ^ 16, tdesc % 2 ^ 16, stride⟩
  let f : FmtCode := Fin.ofNat 16 fmt
  pbase % 512 = 0 && 512 ≤ slot && slot ≤ 262144 && slot % 512 = 0 && 1 ≤ nslot && nslot ≤ 64 && 1 ≤ nsub &&
  nsub ≤ 4 && flags ≤ 1 && numIn bs 0x14 12 = 0 && pbase + nslot * slot ≤ 1048576 &&
  s.ringClear cl pbase (nslot * slot) &&
  (if fmt = 0 then tdesc = 0 else tileFmtCode fmt && d.ok f false && d.span f ≤ slot)

/-- The ring that a valid descriptor defines. -/
def ringFrom (bs : List Byte) : Ring where
  pbase := numIn bs 0 4
  slotBytes := numIn bs 4 4
  nslot := numIn bs 8 1
  nsub := numIn bs 9 1
  fmt := Fin.ofNat 16 (numIn bs 0x0A 1)
  stringRing := numIn bs 0x0B 1 = 1
  rows := numIn bs 0x0E 2
  cols := numIn bs 0x0C 2
  stride := numIn bs 0x10 4
  claim := 0
  head := 0
  tail := 0
  slots := List.replicate (numIn bs 8 1) ⟨.empty, none⟩
  subs := []
  waiting := []

/-! PDEF and PSUB (R260 to R262). -/

/-- PDEF. The overlap of the new ring is checked before the handle's old binding is closed, so that a ring which this close
frees counts as live: the manual gives no order. DESIGN CHOICE (log 125). Unsafe. -/
def pdefOp (pn : PNum) (xs xt : XReg) : Op Unit := do
  notInGlaze
  let base ← effectiveVa (← readX xs) 0 32 32
  let p ← mapSpot base .read false
  let bs ← readSpot p 32
  let s ← get
  let cl := s.cl
  let idx := (← readX xt).toNat
  need (s.ringDescOk cl bs) 0x0C
  need (decide (idx < 64) && (s.ring cl idx).isNone) 0x0C
  modify (fun s => ((s.closeHandle s.cur.id.uid pn).setRing cl idx (ringFrom bs)))
  modifySelf (fun c => c.setP pn (some ⟨idx, .producer, 0, 0⟩))
  retires 8

/-- PDEF. -/
def execPdef (pn : PNum) (xs xt : XReg) (s : State) : Host.Outcome State Fault Refusal := s.does (pdefOp pn xs xt)

/-- The records that a PSUB of a kind makes on a ring, or none where the ring does not allow it. -/
def Ring.newSubs (r : Ring) (c : Context) (pn : PNum) (kind wm1 : Nat) : Option (RingRole × List RingSub) :=
  let sub (easel : Option Nat) : RingSub := ⟨c.id.uid, pn, easel, wm1 + 1, 0, 0, false, []⟩
  let room (n : Nat) : Bool := r.subs.length + n ≤ r.nsub
  match kind with
  | 0 => if room 1 then some (.contextSub, [sub none]) else none
  | 1 => if room 1 && c.job.easel.isSome then some (.easelSub, [sub c.job.easel]) else none
  | 2 => if wm1 = 0 then some (.producer, []) else none
  | _ => if r.stringRing && r.nsub = 4 && room 4 then
      some (.easelAll, (List.range 4).map (fun e => sub (some e))) else none

/-- PSUB. The handle's old binding is closed before the ring is looked up again; a ring that this close frees is not
live. -/
def psubOp (pn : PNum) (xs xt : XReg) : Op Unit := do
  notInGlaze
  let w ← readX xt
  let idx := (← readX xs).toNat
  let s ← get
  let cl := s.cl
  let after := s.closeHandle s.cur.id.uid pn
  match if idx < 64 then after.ring cl idx else none with
  | none => raise 0x0C
  | some r =>
    need (bitsOf w 63 14 = 0 && bitsOf w 7 2 = 0) 0x0C
    match r.newSubs s.cur pn (bitsOf w 1 0) (bitsOf w 13 8) with
    | none => raise 0x0C
    | some (role, subs) =>
      set (after.setRing cl idx { r with subs := r.subs ++ subs })
      modifySelf (fun c => c.setP pn (some ⟨idx, role, r.subs.length, 0⟩))
      retires 8

/-- PSUB. -/
def execPsub (pn : PNum) (xs xt : XReg) (s : State) : Host.Outcome State Fault Refusal := s.does (psubOp pn xs xt)

/-! Claims and posts (R230, R263, R264). -/

/-- PCLAIM. -/
def pclaimOp (pn : PNum) (xt : XReg) : Op Unit := do
  notInGlaze
  let (h, r) ← handleOf pn (fun _ => true)
  let s ← get
  let who : Claimer := .handle s.cur.id.uid pn
  match s.cur.sync.wait, s.cur.sync.grant with
  | .ring _ (.claim _), some w =>
    writeX xt w
    retires 8
  | _, _ =>
  if r.mayClaim who then
    writeX xt (r.claimWord r.claim)
    modify (fun s => s.setRing s.cl h.ring (r.take who))
    retires 8
  else
    let s1 := if r.full && !r.waiting.contains who then s.event s.cl 29 else s
    set (s1.setRing s.cl h.ring (r.queue who))
    waitFor (.ring h.ring (.claim pn))

/-- PCLAIM. -/
def execPclaim (pn : PNum) (xt : XReg) (s : State) : Host.Outcome State Fault Refusal := s.does (pclaimOp pn xt)

/-- PPOST: a release of scope cluster, then the slot is READY. -/
def ppostOp (pn : PNum) (xs : XReg) : Op Unit := do
  notInGlaze
  let (h, r) ← handleOf pn (fun _ => true)
  let q := (← readX xs).extractLsb' 32 32
  needClaimed pn r q
  releaseEvent 2
  modify (fun s => (s.setRing s.cl h.ring (r.post q)).deliverAll s.cl h.ring)
  retires 8

/-- PPOST. -/
def execPpost (pn : PNum) (xs : XReg) (s : State) : Host.Outcome State Fault Refusal := s.does (ppostOp pn xs)

/-! Context subscriptions (R261, R265). -/

/-- A role of a context subscription. -/
def RingRole.context (r : RingRole) : Bool := r = .contextSub

/-- PWFILL. -/
def pwfillOp (pn : PNum) (xt : XReg) : Op Unit := do
  notInGlaze
  let (h, r) ← handleOf pn RingRole.context
  let q := r.oldest h.record
  waitSlot h.ring h.record q
  acquireNow
  writeX xt (r.claimWord q)
  retires 8

/-- PWFILL. -/
def execPwfill (pn : PNum) (xt : XReg) (s : State) : Host.Outcome State Fault Refusal := s.does (pwfillOp pn xt)

/-- PWFREE. -/
def pwfreeOp (pn : PNum) (xs xt : XReg) : Op Unit := do
  notInGlaze
  let (h, r) ← handleOf pn (fun _ => true)
  let n := min (← readX xs).toNat r.nslot
  if r.free < n then waitFor (.ring h.ring (.room n))
  writeX xt (word r.free)
  retires 8

/-- PWFREE. -/
def execPwfree (pn : PNum) (xs xt : XReg) (s : State) : Host.Outcome State Fault Refusal := s.does (pwfreeOp pn xs xt)

/-- PPOP. Its POP record gives easel 0: a context subscription has no easel, and the manual gives the field no value for it.
DESIGN CHOICE (log 123). Unsafe. -/
def ppopOp (pn : PNum) : Op Unit := do
  notInGlaze
  let (h, _) ← handleOf pn RingRole.context
  modify (fun s => s.deliverAll s.cl h.ring)
  let s ← get
  match s.ring s.cl h.ring with
  | none => raise 0x0C
  | some r =>
    need (r.hasSlot h.record) 0x0C
    set (s.popRing s.cl h.ring h.record 0 s.cur.tag 0x56)
    modifySelf (fun c => c.setP pn (some { h with next := h.next + 1 }))
    retires 8

/-- PPOP. -/
def execPpop (pn : PNum) (s : State) : Host.Outcome State Fault Refusal := s.does (ppopOp pn)

end Sys2Proof.Machine
end

