-- ==== Sys2Proof/Machine/Ferry.lean ====
section
/-! DEFINITION. Ferry.lean: ferry chains: FAPP and FSEQ (R268 to R270, R273), what ferries do (R269, R271) and how
commands complete (R271, R272). -/

namespace Sys2Proof.Machine

/-! FAPP (R270). -/

/-- Where the link of the chain's tail lies: the tail as a ferry knows it, else as the context's ranges map it. -/
def tailSpot (chain tail : Nat) : Op Spot := do
  let s ← get
  match s.ferry.find? (fun f => f.chain = chain && f.cmdVa.toNat = tail) with
  | some f => return ⟨tail, f.cmdIa⟩
  | none => mapSpot tail .write false

/-- The home slice's step of FAPP on an object that is not HALTED: the sequence number. -/
def State.appendCmd (s : State) (h c hLoc cLoc : Nat) (link : Option Nat) : Nat × State :=
  let n := s.numAt (hLoc + 0x10) 4 + 1
  let seq := if n = 2 ^ 32 then 1 else n
  let s1 := (s.putNum (cLoc + 0x30) 4 seq).putNum cLoc 8 0
  let s2 := match link with
    | none => (s1.putNum hLoc 8 c).putNum (hLoc + 0x1A) 1 1
    | some loc => s1.putNum loc 8 c
  (seq, (((s2.putNum (hLoc + 0x08) 8 c).putNum (hLoc + 0x10) 4 seq).watch h hLoc .chain))

/-- FAPP. -/
def fappOp (d a xs : XReg) (off : BitVec 19) : Op Unit := do
  notInGlaze
  let cVa ← effectiveVa (← readX a) off.toInt 64 1
  let hVa ← effectiveVa (← readX xs) 0 64 1
  if cVa % 64 != 0 then raiseAt 0x04 cVa
  if hVa % 64 != 0 then raiseAt 0x04 hVa
  let pc ← mapSpot cVa .write false
  let ph ← mapSpot hVa .atomic false
  releaseSystem
  postRoom .f
  let hLoc ← homeLoc ph .atomic
  let cLoc ← homeLoc pc .write
  let s ← get
  if s.numAt (hLoc + 0x1A) 1 = 2 then
    writeX d (1 <<< 63)
    retires 8
  else
    let link ← if s.numAt hLoc 8 = 0 then pure none
      else (do return some (← homeLoc (← tailSpot ph.ia (s.numAt (hLoc + 8) 8)) .write))
    let s ← get
    let (seq, s1) := s.appendCmd ph.ia cVa hLoc cLoc link
    let c := s1.cur
    let f : FerryCmd := {
      chain := ph.ia, chainVa := word hVa, seq := seq, cmdIa := pc.ia, cmdVa := word cVa, core := c.id.core
      uid := c.id.uid, token := c.token, mailbox := c.dest, amap := c.reg.amap, accepted := false, started := false
      pos := 0, pace := 0, places := none, plan := none, early := false, tail := [], note := none, tagv := 0
      performed := false, completed := false, wild := false, page := none, status := 0, errAddr := 0 }
    set ({ s1 with ferry := s1.ferry ++ [f] } : State)
    writeX d (word seq)
    post ⟨.f, [], c.bits, false, false, s1.now, {}⟩
    due (.ferry ph.ia seq)
    retires 8

/-- FAPP. -/
def execFapp (d a xs : XReg) (off : BitVec 19) (s : State) : Host.Outcome State Fault Refusal :=
  s.does (fappOp d a xs off)

/-- FSEQ (R273). -/
def fseqOp (d a : XReg) (off : BitVec 19) : Op Unit := do
  let va ← effectiveVa (← readX a) off.toInt 64 64
  let p ← mapSpot va .read false
  let bs ← readMem ⟨p.va + 0x10, p.ia + 0x10⟩ 8
  writeX d (word (numIn bs 0 4 * 2 ^ 32 + numIn bs 4 4))
  retires 8

/-- FSEQ. -/
def execFseq (d a : XReg) (off : BitVec 19) (s : State) : Host.Outcome State Fault Refusal := s.does (fseqOp d a off)

/-! A ferry's accesses (R270, R271). -/

/-- What a ferry meets: it waits at a page, for an access to an address, it waits behind a region, at a ring or for a
forced publish, or the command ends with a cause at an address. -/
inductive FerryStop where
  | page (kind level ia addr : Nat)
  | behind
  | fail (cause addr : Nat)

/-- An action of a ferry. -/
abbrev FerryOp := EStateM FerryStop State

/-- The IA of an access of a ferry through the ranges of the context that appended the command. A ferry reaches the
memories of R177 and not the windows; an atomic unit of a TCM serves its own core. -/
def FerryCmd.map (f : FerryCmd) (va : Nat) (k : Access) : FerryOp Nat := do
  if 2 ^ 60 ≤ va then throw (.fail 0x05 va)
  let s ← get
  match rangeMap k va f.amap.toList with
  | .error cause => throw (.fail cause va)
  | .ok ia =>
    match s.whereIs ia with
    | .reserved => throw (.fail 0x05 va)
    | .inbox _ _ => throw (.fail 0x07 va)
    | .control _ _ => throw (.fail 0x07 va)
    | .tcm core => if k = .atomic && core != f.core then throw (.fail 0x07 va) else return ia
    | _ => return ia

/-- The location of an IA for a ferry's access to n bytes. -/
def FerryCmd.reach (f : FerryCmd) (ia va : Nat) (k : Access) (n : Nat) : FerryOp Nat := do
  match (← get).meet ia k f.token with
  | (.ok loc, s1) =>
    if (k = .write || k = .atomic) && s1.readOnly loc n then throw (.fail 0x07 va)
    set s1
    return loc
  | (.fault kind level, s1) =>
    set s1
    throw (.page kind level ia va)
  | (.fail cause, s1) =>
    set s1
    throw (.fail cause va)

/-- A ferry's access to n bytes waits behind a live region (R310) and for a forced publish (R304). -/
def ferryClear (ia n : Nat) (touching : Bool) : FerryOp Unit := do
  modify (fun s => s.forcePublish ia n none)
  let s ← get
  if s.withheld ia n none || (touching && s.pageable ia && s.touchedBy none ia n) then throw .behind

/-- The failure of a command that reads poisoned bytes (R361). -/
def FerryCmd.clean (f : FerryCmd) (loc n va : Nat) : FerryOp Unit := do
  let s ← get
  let pkg := pkgOf f.core
  if s.poisonedTo pkg loc n then
    set (s.endLost pkg loc n)
    throw (.fail 0x13 va)

/-- Bytes read at an address. Fuel: the pieces. -/
def FerryCmd.read (f : FerryCmd) : Nat → Nat → Nat → FerryOp (List Byte)
  | 0, _, _ => return []
  | fuel + 1, va, n => do
    if n = 0 then return []
    let k := min n (32 - va % 32)
    let ia ← f.map va .read
    ferryClear ia k false
    let loc ← f.reach ia va .read k
    let s ← get
    f.clean loc k va
    let rest ← f.read fuel (va + k) (n - k)
    return s.bytesAt loc k ++ rest

/-- Bytes read at an address. -/
def FerryCmd.bytes (f : FerryCmd) (va n : Nat) : FerryOp (List Byte) := f.read (n / 32 + 2) va n

/-! Commands (R269). -/

/-- The fields of a command. -/
structure FerryFields where
  next : Nat
  op : Nat
  flags : Nat
  fmt : Nat
  ring : Nat
  elem : Nat
  src : Nat
  dst : Nat
  len : Nat
  auxw : Nat
  tagv : Nat

/-- The fields from the 64 bytes of a command. -/
def ferryFields (bs : List Byte) : FerryFields where
  next := numIn bs 0 8
  op := numIn bs 8 1
  flags := numIn bs 9 1
  fmt := numIn bs 0x0A 1
  ring := numIn bs 0x0B 1
  elem := numIn bs 0x0C 4
  src := numIn bs 0x10 8
  dst := numIn bs 0x18 8
  len := numIn bs 0x20 8
  auxw := numIn bs 0x28 8
  tagv := numIn bs 0x38 8

/-- The element size of REDUCE. -/
def FerryFields.size (c : FerryFields) : Nat := if c.fmt % 16 = 7 then 8 else 4

/-- The bytes of the packed side of a command: of its destination, or of the source of SCATTER. -/
def FerryFields.total (c : FerryFields) : Nat :=
  if c.op = 2 || c.op = 3 then c.len * c.elem else if c.op = 8 then c.len / c.size * c.size else c.len

/-- Where the units end that a step takes which begins at pos (R297): elements of up to 8 bytes for GATHER, SCATTER and REDUCE,
else units of 8 bytes, which are aligned at the destination of the others. -/
def FerryFields.until (c : FerryFields) (pos pace : Nat) : Nat :=
  let byElement : Bool := c.op = 2 || c.op = 3 || c.op = 8
  let u := if c.op = 8 then c.size else if byElement then min c.elem 8 else 8
  let skew := if byElement then 0 else c.dst % 8
  min c.total (((pos + skew) / u + pace + 1) * u - skew)

/-- The parts of elements that bytes pos up to e of the packed side make: the element, where in it, how many bytes. -/
def FerryFields.parts (c : FerryFields) (pos e : Nat) : List (Nat × Nat × Nat) :=
  (List.range ((e + c.elem - 1) / c.elem - pos / c.elem)).map (fun j =>
    let i := pos / c.elem + j
    let lo := max pos (i * c.elem)
    (i, lo - i * c.elem, min e ((i + 1) * c.elem) - lo))

/-- Whether every field lies in its range for the operation, and the ferry has the operation. -/
def FerryFields.ok (c : FerryFields) (ferry : Nat) : Bool :=
  let gather : Bool := c.op = 2 || c.op = 3
  let collective : Bool := c.op = 8 || c.op = 9
  c.flags < 4 && c.fmt < 64 && c.ring < 64 && 1 ≤ c.len && c.len ≤ 2 ^ 40 && ferry < 6 &&
  ((1 ≤ c.op && c.op ≤ 5) || (collective && 4 ≤ ferry)) &&
  (!gather || [1, 2, 4, 8].contains c.elem || (0 < c.elem && c.elem % 64 = 0 && c.elem ≤ 65536)) &&
  (c.op != 8 || ([2, 7, 8].contains (c.fmt % 16) && c.fmt / 16 != 3 && c.dst % c.size = 0))

/-- The bytes of memory, by IA, that a command reads as its source, as a test. -/
def FerryCmd.sources (f : FerryCmd) (spans : List (Nat × Nat)) (ia : Nat) : Bool :=
  f.amap.toList.any (fun r =>
    let lo := rangeField r 86 56 * 2 ^ 25
    let va := ia - lo + rangeField r 55 21 * 2 ^ 25
    lo ≤ ia && rangeMatches r va && spans.any (fun p => p.1 ≤ va && va < p.1 + p.2))

/-- Destination bytes that overlap the source become unpredictable (R269). at_ gives the IA of byte k. -/
def overlapFree (hit : Nat → Bool) : Nat → List Byte → State → List Byte × State
  | _, [], s => ([], s)
  | k, b :: rest, s =>
    let (b1, s1) := if hit k then (BitVec.ofNat 8 s.draw.1, s.draw.2) else (b, s)
    let (bs, s2) := overlapFree hit (k + 1) rest s1
    (b1 :: bs, s2)

/-- The bytes for an address, those that overlap the source unpredictable. -/
def FerryCmd.mask (f : FerryCmd) (spans : List (Nat × Nat)) (va : Nat) (bs : List Byte) : FerryOp (List Byte) := do
  let hit (k : Nat) : Bool := match rangeMap .write (va + k) f.amap.toList with
    | .ok ia => f.sources spans ia
    | .error _ => false
  let (out, s1) := overlapFree hit 0 bs (← get)
  set s1
  return out

/-- The elements' addresses of GATHER and SCATTER: base + index × ELEM, the indices signed. An address below 0 wraps to
one that no range matches. The index array is read once. -/
def FerryCmd.indexed (f : FerryCmd) (c : FerryFields) (base : Nat) : FerryOp (List Nat) :=
  match f.places with
  | some vas => return vas
  | none => (List.range c.len).mapM (fun i => do
    let k := toSigned 32 (fromBytes (← f.bytes (c.auxw + 4 * i) 4))
    return (((base : Int) + k * c.elem).emod (2 ^ 64)).toNat)

/-- The ring of RINGPUT: its cluster and its index, from DST. -/
def FerryCmd.ringOf (f : FerryCmd) (c : FerryFields) : FerryOp (Nat × Ring) := do
  let ia ← f.map c.dst .write
  let s ← get
  match s.whereIs ia with
  | .palette cl =>
    match s.ring cl (c.ring % 64) with
    | none => throw (.fail 0x02 0)
    | some r => if c.len ≤ r.slotBytes then return (cl, r) else throw (.fail 0x02 0)
  | _ => throw (.fail 0x02 0)

/-- The slot that a ferry command has claimed. -/
def Ring.claimedBy (r : Ring) (who : Claimer) : Option (BitVec 32) :=
  ((List.range (r.claim - r.head).toNat).map (fun k => r.head + BitVec.ofNat 32 k)).find? (fun q =>
    (r.slot q).st = .filling && (r.slot q).filler = some who)

/-- The slot of RINGPUT claimed, in the order of the ring's line (R263). -/
def FerryCmd.claimSlot (f : FerryCmd) (c : FerryFields) : FerryOp Nat := do
  let (cl, r) ← f.ringOf c
  let who : Claimer := .ferry f.chain f.seq
  match r.claimedBy who with
  | some q => return State.slotLoc cl r q
  | none =>
    if r.mayClaim who then
      modify (fun s => s.setRing cl (c.ring % 64) (r.take who))
      return State.slotLoc cl r r.claim
    else
      modify (fun s => (if r.full && !r.waiting.contains who then s.event cl 29 else s).setRing cl (c.ring % 64)
        (r.queue who))
      throw .behind

/-- What a command will write of the units of its next step, once their source has been read. -/
def FerryCmd.planned (f : FerryCmd) (c : FerryFields) : FerryOp (List (Nat × List Byte)) := do
  let e := c.until f.pos f.pace
  let n := e - f.pos
  match c.op with
  | 1 =>
    let bs ← f.bytes (c.src + f.pos) n
    return [(c.dst + f.pos, ← f.mask [(c.src, c.len)] (c.dst + f.pos) bs)]
  | 2 =>
    let vas ← f.indexed c c.src
    let bs := (← (c.parts f.pos e).mapM (fun q => f.bytes (getAt vas q.1 0 + q.2.1) q.2.2)).flatten
    return [(c.dst + f.pos, ← f.mask (vas.map (fun va => (va, c.elem))) (c.dst + f.pos) bs)]
  | 3 =>
    let vas ← f.indexed c c.dst
    (c.parts f.pos e).mapM (fun q => do
      let bs ← f.bytes (c.src + q.1 * c.elem + q.2.1) q.2.2
      let va := getAt vas q.1 0 + q.2.1
      return (va, ← f.mask [(c.src, c.len * c.elem)] va bs))
  | 4 => return [(c.dst + f.pos, (List.range n).map (fun k => BitVec.ofNat 8 (c.auxw / 2 ^ (8 * ((f.pos + k) % 8)))))]
  | 5 =>
    let ia := (← f.claimSlot c) + f.pos
    let bs ← f.bytes (c.src + f.pos) n
    let hit (k : Nat) : Bool := f.sources [(c.src, c.len)] (ia + k)
    let (out, s1) := overlapFree hit 0 bs (← get)
    set s1
    return [(ia, out)]
  | 8 =>
    (List.range (n / c.size)).mapM (fun i => do
      let at_ := f.pos + i * c.size
      return (c.dst + at_, ← f.bytes (c.src + at_) c.size))
  | _ =>
    let bs ← f.bytes (c.src + f.pos) n
    let dst := c.dst + f.pos
    let hit (k : Nat) (s : State) : Bool := match s.mapGlobal (dst + k) .write with
      | .ok ia => f.sources [(c.src, c.len)] ia
      | .error _ => false
    let s ← get
    let (out, s1) := overlapFree (fun k => hit k s) 0 bs s
    set s1
    return [(dst, out)]

/-! Performing what was planned. -/

/-- A write of a ferry within one granule: it waits behind a live region (R310). -/
def FerryCmd.put (f : FerryCmd) (ia va : Nat) (bs : List Byte) : FerryOp Unit := do
  ferryClear ia bs.length true
  let loc ← f.reach ia va .write bs.length
  modify (fun s => s.storeAt ia loc bs (Writer.agent 0))

/-- The operation of a REDUCE. -/
def FerryFields.redOp (c : FerryFields) : AmoFn :=
  match c.fmt / 16 with
  | 1 => .min
  | 2 => .max
  | _ => if c.fmt % 16 = 2 then .fadd32 else .add

/-- One element of REDUCE at its atomic unit. The manual gives the atomic units no minimum or maximum of FP32 values:
that result is open, and so is every byte of one that overlaps the source. -/
def FerryCmd.reduce (f : FerryCmd) (c : FerryFields) (va : Nat) (bs : List Byte) : FerryOp Unit := do
  let ia ← f.map va .atomic
  ferryClear ia bs.length true
  let loc ← f.reach ia va .atomic bs.length
  let s ← get
  let n := c.size
  f.clean loc n va
  let open_ : Bool := c.fmt % 16 = 2 && c.fmt / 16 != 0
  let new := toBytes n (amoOp c.redOp n (s.numAt loc n) (fromBytes bs) 0).1
  let (out, s1) := overlapFree (fun k => open_ || f.sources [(c.src, c.len)] (ia + k)) 0 new s
  set (s1.storeAt ia loc out (Writer.agent 0))

/-- The IA of a write of the plan, whose addresses are IAs for RINGPUT and global ones for GCOPY. -/
def FerryCmd.target (f : FerryCmd) (c : FerryFields) (va : Nat) : FerryOp Nat := do
  match c.op with
  | 5 => return va
  | 9 =>
    if c.dst / 2 ^ 38 != va / 2 ^ 38 then throw (.fail 0x05 va)
    match (← get).mapGlobal va .write with
    | .error cause => throw (.fail cause va)
    | .ok ia => return ia
  | _ => f.map va .write

/-- A piece of the plan performed: at most to the end of its granule. -/
def FerryCmd.piece (f : FerryCmd) (c : FerryFields) (va : Nat) (bs : List Byte) : FerryOp Unit := do
  if c.op = 8 then f.reduce c va bs else f.put (← f.target c va) va bs

/-- The places of the plan's writes, each within one granule: where every one of them is there, the command may complete before
they are performed. -/
def FerryCmd.located (f : FerryCmd) (c : FerryFields) (plan : List (Nat × List Byte)) :
    FerryOp (List (Nat × Nat × List Byte)) :=
  (plan.flatMap (fun p => partsOf p.1 (p.2.length + 1) p.2)).mapM (fun q => do
    let ia ← f.target c q.1
    ferryClear ia q.2.length true
    let loc ← f.reach ia q.1 .write q.2.length
    return (ia, loc, q.2))

/-- The plan performed as far as it goes: what is left, and what stopped it. Fuel: the pieces. -/
def FerryCmd.perform (f : FerryCmd) (c : FerryFields) :
    Nat → List (Nat × List Byte) → State → List (Nat × List Byte) × Option FerryStop × State
  | 0, plan, s => (plan, none, s)
  | _, [], s => ([], none, s)
  | fuel + 1, (va, bs) :: rest, s =>
    let n := 32 - va % 32
    match f.piece c va (bs.take n) s with
    | .error e s1 => ((va, bs) :: rest, some e, s1)
    | .ok _ s1 => f.perform c fuel (if bs.length ≤ n then rest else (va + n, bs.drop n) :: rest) s1

/-- Enough fuel for a plan. -/
def planFuel (plan : List (Nat × List Byte)) : Nat := sumOf plan (fun p => p.2.length / 32 + 3)

/-! Steps of a ferry (R271). -/

/-- A command of a chain. -/
def State.ferryCmd (s : State) (chain seq : Nat) : Option FerryCmd :=
  s.ferry.find? (fun f => f.chain = chain && f.seq = seq && !f.completed)

/-- A command changed. -/
def State.mapFerry (s : State) (chain seq : Nat) (g : FerryCmd → FerryCmd) : State :=
  { s with ferry := s.ferry.map (fun f => if f.chain = chain && f.seq = seq && !f.completed then g f else f) }

/-- The commands of a chain before one. The list is in the order of appending. -/
def State.ferryBefore (s : State) (chain seq : Nat) : List FerryCmd :=
  (s.ferry.filter (fun f => f.chain = chain && !f.completed)).takeWhile (fun f => f.seq != seq)

/-- FERRY of a chain object. -/
def State.chainFerry (s : State) (loc : Nat) : Nat := s.numAt (loc + 0x18) 1

/-- The unfinished command is over with a status. -/
def State.ferryOver (s : State) (chain seq status : Nat) (addr : Nat) : State :=
  let s1 := s.mapFerry chain seq (fun f => { f with
    performed := true, plan := some [], page := none, status := status, errAddr := BitVec.ofNat 64 addr })
  { s1 with agenda := s1.agenda ++ [.ferryComplete chain] }

/-- A command that waits at a page for an access to an address: its fault record (R188, R271). -/
def State.ferryPage (s : State) (f : FerryCmd) (kind level ia addr : Nat) : State :=
  (s.postFault (homeDie ia) ⟨0, ia, f.token, if kind < 4 then 6 else kind, level, s.tstamp⟩).mapFerry f.chain f.seq
    (fun f => { f with
      page := some (ia / 2 ^ 15, false)
      errAddr := if f.performed then f.errAddr else BitVec.ofNat 64 addr })

/-- How the home slice reaches an object for a command: a place, a page that is waited for with the record posted, or no more, with
the cause: a page that PGFAIL has failed, a leaf that refuses. -/
inductive FerryReached where
  | at (loc : Nat) (s : State)
  | waits (s : State)
  | gone (cause : Nat)

/-- The object at an IA, for a command. -/
def State.ferryReach (s : State) (f : FerryCmd) (ia addr : Nat) : FerryReached :=
  if s.objBusy ia then .waits s
  else if f.page = some (ia / 2 ^ 15, true) then .gone 0x06
  else
    match s.meet ia .atomic f.token with
    | (.ok loc, s1) => .at loc s1
    | (.fault kind level, s1) => .waits (s1.ferryPage f kind level ia addr)
    | (.fail cause, _) => .gone cause

/-- A stop met. -/
def State.ferryStopped (s : State) (f : FerryCmd) (e : FerryStop) : State :=
  match e with
  | .page kind level ia addr => s.ferryPage f kind level ia addr
  | .behind => s
  | .fail cause addr => s.ferryOver f.chain f.seq cause addr

/-- The slot that a RINGPUT has filled is posted (R230). -/
def State.ferryPost (s : State) (f : FerryCmd) (c : FerryFields) : State :=
  if c.op != 5 then s
  else match f.ringOf c s with
    | .ok (cl, r) s => (match r.claimedBy (.ferry f.chain f.seq) with
        | some q => (s.setRing cl (c.ring % 64) (r.post q)).deliverAll cl (c.ring % 64)
        | none => s)
    | .error _ s => s

/-- A step of a command is over at a position: the command's accesses are over, or its next step is due, of a number of units
that is free. -/
def State.ferryOn (s : State) (f : FerryCmd) (c : FerryFields) : State :=
  let e := c.until f.pos f.pace
  if c.total ≤ e then (s.ferryPost f c).ferryOver f.chain f.seq 0 0
  else
    let (n, s1) := s.draw
    let s2 := s1.mapFerry f.chain f.seq (fun f => { f with pos := e, plan := none, pace := n / 2, early := n % 2 = 1 })
    { s2 with agenda := s2.agenda ++ [.ferry f.chain f.seq] }

/-- A command that completes before its last writes: they are left to a later step (R307). -/
def State.ferryEarly (s : State) (f : FerryCmd) (c : FerryFields) (plan : List (Nat × List Byte)) : Option State :=
  if !f.early || c.op = 5 || c.op = 8 || c.until f.pos f.pace < c.total then none
  else match f.located c plan s with
    | .ok tail s1 => some ((s1.mapFerry f.chain f.seq (fun f => { f with tail := tail })).ferryOver f.chain f.seq 0 0)
    | .error _ _ => none

/-- The accesses of a started command tried, as many units as its step takes: their source, then what it writes. -/
def State.ferryWork (s : State) (f : FerryCmd) (c : FerryFields) : State :=
  let planned : Except FerryStop (List (Nat × List Byte)) × State := match f.plan with
    | some p => (.ok p, s)
    | none => match f.planned c s with
      | .ok p s1 => (.ok p, s1)
      | .error e s1 => (.error e, s1)
  match planned with
  | (.error e, s1) => s1.ferryStopped f e
  | (.ok p, s1) =>
    match s1.ferryEarly f c p with
    | some s2 => s2
    | none =>
      let (rest, stop, s2) := f.perform c (planFuel p) p s1
      let s3 := s2.mapFerry f.chain f.seq (fun f => { f with plan := some rest })
      match stop with
      | some e => s3.ferryStopped f e
      | none => s3.ferryOn f c

/-- The index array of a GATHER or a SCATTER read, before its first element. -/
def State.ferryIndex (s : State) (f : FerryCmd) (c : FerryFields) : Except State (FerryCmd × State) :=
  if !(c.op = 2 || c.op = 3) || f.places.isSome then .ok (f, s)
  else match f.indexed c (if c.op = 2 then c.src else c.dst) s with
    | .ok vas s1 => .ok ({ f with places := some vas }, s1.mapFerry f.chain f.seq (fun f => { f with places := some vas }))
    | .error e s1 => .error (s1.ferryStopped f e)

/-- A step of a started command. -/
def State.ferryGo (s : State) (f : FerryCmd) (c : FerryFields) : State :=
  match s.ferryIndex f c with
  | .error s1 => s1
  | .ok (g, s1) => s1.ferryWork g c

/-- The writes that a completed command has left, performed as far as they go. -/
def State.tailWrites (s : State) : List (Nat × Nat × List Byte) → List (Nat × Nat × List Byte) × State
  | [] => ([], s)
  | (ia, loc, bs) :: rest =>
    match ferryClear ia bs.length true s with
    | .ok _ s1 => (s1.storeAt ia loc bs (Writer.agent 0)).tailWrites rest
    | .error _ s1 => ((ia, loc, bs) :: rest, s1)

/-- HEADPTR moves on as a command is fetched; a command whose NEXT is 0 makes the ferry ask for the chain to idle
(R270). -/
def State.ferryFetch (s : State) (f : FerryCmd) (loc : Nat) (c : FerryFields) : State :=
  let (n, s0) := s.draw
  let s1 := s0.mapFerry f.chain f.seq (fun f => { f with
    started := true, pace := n / 2, early := n % 2 = 1, tagv := c.tagv })
  let s2 := if s1.numAt loc 8 = 0 then s1
    else s1.putNum loc 8 (if c.next = 0 then f.cmdVa.toNat else c.next)
  let s3 : State := if c.next = 0 then { s2 with agenda := s2.agenda ++ [.chainIdle f.chain] } else s2
  let after := (s3.ferry.filter (fun g => g.chain = f.chain && !g.started && !g.completed)).head?
  match after with
  | some g => { s3 with agenda := s3.agenda ++ [.ferry g.chain g.seq] }
  | none => s3

/-- FERRY_DONE to the mailbox of the context that appended a command, if it still lives. A supervisor has no mailbox
(log 25). -/
def State.ferryDone (s : State) (f : FerryCmd) (tagv : Nat) : State :=
  match s.ctx f.uid with
  | none => s.event (clusterOf f.core) 16
  | some c =>
    if c.id.sup then s
    else s.inject ⟨2 ^ 64 + f.chain, f.mailbox, ⟨mkHeader 2 3 0 0,
      [f.chainVa, BitVec.ofNat 64 (f.status * 2 ^ 32 + f.seq), BitVec.ofNat 64 tagv]⟩, false⟩

/-- The messages that wait for the last writes of their commands and of the earlier ones of the chain are posted, and the
commands that have nothing left go, but for the one whose link the next FAPP writes. -/
def State.ferryNotes (s : State) (chain : Nat) : State :=
  let free := (s.ferry.filter (fun f => f.chain = chain)).takeWhile (fun f => f.tail.isEmpty)
  let s1 := free.foldl (fun s f => match f.note with
    | some tagv => s.ferryDone f tagv
    | none => s) s
  let last := ((s1.ferry.filter (fun f => f.chain = chain)).getLast?).map (fun f => f.seq)
  { s1 with
    ferry := (s1.ferry.map (fun f => if free.contains f then { f with note := none } else f)).filter (fun f =>
      f.chain != chain || !f.completed || f.lingers || some f.seq = last)
    agenda := s1.agenda ++ ((s1.ferry.filter (fun f => f.chain = chain && !f.completed && !f.started)).take 1).map (fun f =>
      .ferry chain f.seq) }

/-- A step on a command that has completed before its last writes (R307). -/
def State.ferryTail (s : State) (chain seq : Nat) : State :=
  match s.ferry.find? (fun f => f.chain = chain && f.seq = seq && f.completed && f.lingers) with
  | none => s
  | some f =>
    let (left, s1) := s.tailWrites f.tail
    let mine (g : FerryCmd) : Bool := g.chain = chain && g.seq = seq && g.completed
    ({ s1 with ferry := s1.ferry.map (fun g => if mine g then { g with tail := left } else g) } : State).ferryNotes chain

/-- A step of a ferry on a command, of the operation op, or of whichever it names. A command starts in the order of
its chain once it is accepted, with ORDER once the earlier ones have completed, and not on a HALTED chain. On a chain
whose object a plain store has hit, whether a command starts is open (R268). -/
def State.ferryStep (s : State) (op : Option Nat) (chain seq : Nat) : State :=
  match s.ferryCmd chain seq with
  | none => s.ferryTail chain seq
  | some f =>
    if f.performed then { s with agenda := s.agenda ++ [.ferryComplete chain] }
    else if f.page.isSome then
      (if f.page.any (fun p => p.2) then s.ferryOver chain seq 0x06 f.errAddr.toNat else s)
    else if !f.accepted || (s.ferryBefore chain seq).any (fun g => !g.started) then s
    else
      match s.ferryReach f chain f.chainVa.toNat with
      | .waits s1 => s1
      | .gone cause => s.ferryOver chain seq cause f.chainVa.toNat
      | .at loc s =>
      if s.numAt (loc + 0x1A) 1 = 2 then s
      else
      match f.bytes f.cmdVa.toNat 64 s with
      | .error e s1 => s1.ferryStopped f e
      | .ok bs s1 =>
        let c := ferryFields bs
        if (match op with
            | none => false
            | some n => c.op != n) then s
        else if f.started then s1.ferryGo f c
        else if c.flags / 2 % 2 = 1 && (!(s.ferryBefore chain seq).isEmpty ||
            s.ferry.any (fun g => g.chain = chain && !g.tail.isEmpty)) then s
        else if f.wild && s1.draw.1 % 2 = 0 then
          s1.draw.2.mapFerry chain seq (fun f => { f with accepted := true })
        else
          let s2 := s1.ferryFetch f loc c
          if c.ok (s2.chainFerry loc) then s2.ferryGo ((s2.ferryCmd chain seq).getD f) c
          else s2.ferryOver chain seq 0x02 0

/-! Completion (R271, R272). -/

/-- Whether a status halts the chain: a failed access, or poisoned bytes (R271, R361). -/
def halts (status : Nat) : Bool := status != 0 && status != 0x02

/-- The completion of a command, its object and its chain object found: what they are told, and FERRY_DONE, which follows the
last writes of the command and of the earlier ones (R307). -/
def State.ferryTell (s : State) (f : FerryCmd) (loc : Nat) (tagv flags : Nat) : State :=
  let chain := f.chain
  let s3 := s.putNum (loc + 0x14) 4 f.seq
  let halt := halts f.status
  let s4 := if halt then
      ((s3.putNum (loc + 0x1A) 1 2).putNum (loc + 0x1B) 1 f.status).putNum (loc + 0x20) 8 f.errAddr.toNat
    else s3
  let idle : Bool := s4.numAt loc 8 = 0
  let ferry := (s4.mapFerry chain f.seq (fun f => { f with completed := true })).ferry
  let left := ferry.filter (fun g => g.chain != chain || g.lingers ||
    (!halt && (!g.completed || (!idle && g.seq = s4.numAt (loc + 0x10) 4))))
  let more := left.filter (fun g => g.chain = chain && !g.completed)
  let s5 : State := { s4 with ferry := left, agenda := s4.agenda ++ (match more.head? with
    | none => []
    | some g => if g.performed then [.ferryComplete chain] else [.ferry chain g.seq]) }
  let late : Bool := left.any (fun g => g.chain = chain && !g.tail.isEmpty)
  if !(halt || flags % 2 = 1) then
    (if late then { s5 with agenda := s5.agenda ++ [.ferry chain f.seq] } else s5)
  else if late then { s5 with
    ferry := if left.any (fun g => g.chain = chain && g.seq = f.seq && g.completed) then
        left.map (fun g => if g.chain = chain && g.seq = f.seq then { g with note := some tagv } else g)
      else left ++ [{ f with completed := true, note := some tagv }]
    agenda := s5.agenda ++ [.ferry chain f.seq] }
  else s5.ferryDone f tagv

/-- FERRY_COMMAND_COMPLETE: the oldest unfinished command of a chain, once its accesses are over. One whose own page can no longer
be written, so that it has no place for its STATUS, ends with that cause and halts its chain. Where the chain object itself
cannot be reached, nothing can be told there: the commands of the chain are given up, with the message of the one that
ends (log 106). -/
def State.ferryComplete (s : State) (chain : Nat) : State :=
  match s.ferry.find? (fun f => f.chain = chain && !f.completed) with
  | none => s
  | some f =>
    if !f.performed || f.page.any (fun p => !p.2) then s
    else
      match s.ferryReach f chain f.chainVa.toNat with
      | .waits s1 => s1
      | .gone cause => ({ s with ferry := s.ferry.filter (fun g => g.chain != chain || g.lingers) } : State).ferryDone
          { f with status := if f.status = 0 then cause else f.status } f.tagv
      | .at loc s1 =>
        match s1.ferryReach f f.cmdIa f.cmdVa.toNat with
        | .waits s2 => s2
        | .gone cause => s1.ferryTell (if halts f.status then f else { f with status := cause, errAddr := f.cmdVa }) loc
            f.tagv 1
        | .at at_ s2 => (s2.putNum (at_ + 0x34) 4 f.status).ferryTell f loc (s2.numAt (at_ + 0x38) 8) (s2.numAt (at_ + 9) 1)

/-- CHAIN_IDLE: the home slice idles a chain whose last command the ferry has fetched, where TAILPTR still names it. Where the
chain's page is away, its fault is recorded, and the ferry asks again once the page is there. -/
def State.chainIdle (s : State) (chain : Nat) : State :=
  match (s.ferry.filter (fun f => f.chain = chain)).getLast? with
  | none => s
  | some f =>
    if s.objBusy chain || !f.started then s
    else match s.meet chain .atomic f.token with
      | (.ok loc, s1) =>
        if s1.numAt (loc + 0x1A) 1 = 1 && s1.numAt (loc + 8) 8 = f.cmdVa.toNat then
          let s2 := (s1.putNum loc 8 0).putNum (loc + 0x1A) 1 0
          { s2 with ferry := s2.ferry.filter (fun g => g.chain != chain || !g.completed || g.lingers) }
        else s
      | (.fault kind level, s1) =>
        s1.postFault (homeDie chain) ⟨0, chain, f.token, if kind < 4 then 6 else kind, level, s.tstamp⟩
      | (.fail _, s1) => s1

/-- FERRY_COPY. -/
def execFerryCopy (chain seq : Nat) (s : State) : Host.Outcome State Fault Refusal :=
  .next (s.ferryStep (some 1) chain seq)

/-- FERRY_GATHER. -/
def execFerryGather (chain seq : Nat) (s : State) : Host.Outcome State Fault Refusal :=
  .next (s.ferryStep (some 2) chain seq)

/-- FERRY_SCATTER. -/
def execFerryScatter (chain seq : Nat) (s : State) : Host.Outcome State Fault Refusal :=
  .next (s.ferryStep (some 3) chain seq)

/-- FERRY_FILL. -/
def execFerryFill (chain seq : Nat) (s : State) : Host.Outcome State Fault Refusal :=
  .next (s.ferryStep (some 4) chain seq)

/-- FERRY_RINGPUT. -/
def execFerryRingput (chain seq : Nat) (s : State) : Host.Outcome State Fault Refusal :=
  .next (s.ferryStep (some 5) chain seq)

/-- FERRY_REDUCE. -/
def execFerryReduce (chain seq : Nat) (s : State) : Host.Outcome State Fault Refusal :=
  .next (s.ferryStep (some 8) chain seq)

/-- FERRY_GCOPY. -/
def execFerryGcopy (chain seq : Nat) (s : State) : Host.Outcome State Fault Refusal :=
  .next (s.ferryStep (some 9) chain seq)

/-- FERRY_COMMAND_COMPLETE. -/
def execFerryCommandComplete (chain : Nat) (s : State) : Host.Outcome State Fault Refusal :=
  .next (s.ferryComplete chain)

/-- CHAIN_IDLE. -/
def execChainIdle (chain : Nat) (s : State) : Host.Outcome State Fault Refusal := .next (s.chainIdle chain)

end Sys2Proof.Machine
end

