-- ==== Sys2Proof/Machine/Flight.lean ====
section
/-! DEFINITION. Flight.lean: steps of accesses in flight, of the easels and of the tile tables (R199, R212, R221 to R227,
R231, R240, R263, R304). -/

namespace Sys2Proof.Machine

/-! Accesses in flight. -/

/-- The first of some accesses that can be performed is performed: try brings one of them to its target. -/
def State.firstOf {α : Type} (s : State) (try_ : State → α → State) (size : State → Nat) : List α → State
  | [] => s
  | a :: rest =>
    let s1 := try_ s a
    if size s1 = size s then s1.firstOf try_ size rest else s1

/-- A number of a context, 0 where it has ended. -/
def State.countOf (s : State) (uid : Nat) (f : Context → Nat) : Nat :=
  match s.ctx uid with
  | none => 0
  | some c => f c

/-- Those of a list that wait for nothing, and the step due again where one of them is left and one has gone. -/
def State.again (s : State) (before after : Nat) (more : Bool) (d : Duty) : State :=
  if more && before != after then { s with agenda := s.agenda ++ [d] } else s

/-- A context's oldest store to a register window performed, if its gate lets it (R194, R203). -/
def State.performWindow (s : State) (uid : Nat) : State :=
  match s.ctx uid with
  | none => s
  | some c =>
    match c.io.posted.find? (fun p => p.kind = .w) with
    | none => s
    | some p =>
      match p.parts with
      | [] => s
      | (ia, bs) :: _ =>
        if !(p.gate.lets c.io p.born) then s
        else
          let s1 := s.mapCtx uid (fun c => { c with io := { c.io with posted := c.io.posted.erase p } })
          ((s1.windowPut ia c.id.core bs).gateDone uid p.gate p.parts p.born).regate uid c.io

/-- POSTED_STORE_ACK: the oldest posted store that its target can perform is performed and acknowledged. -/
def execPostedStoreAck (uid : Nat) (s : State) : Host.Outcome State Fault Refusal :=
  match s.ctx uid with
  | none => .next s
  | some c =>
    let size (s : State) : Nat := s.countOf uid (fun c => c.io.posted.length)
    let s1 := s.firstOf (fun s p => if p.kind = .w then s.performWindow uid else s.drainPosted uid (fun q => q = p)) size
      c.io.posted
    .next (s1.again (size s) (size s1) (s1.countOf uid (fun c => (c.io.posted.filter (fun p => !p.held)).length) != 0)
      (.postedAck uid))

/-- REDUCTION_PERFORM: the oldest reduction that its atomic unit can perform. Its acknowledgement follows. -/
def execReductionPerform (uid : Nat) (s : State) : Host.Outcome State Fault Refusal :=
  match s.ctx uid with
  | none => .next s
  | some c =>
    let left (s : State) : Nat := s.countOf uid (fun c => (c.io.reds.filter (fun r => !r.performed)).length)
    let s1 := s.firstOf (fun s r => s.drainReds uid (fun q => q = r) false) left (c.io.reds.filter (fun r => !r.performed))
    let s2 : State := if left s1 = left s then s1 else { s1 with agenda := s1.agenda ++ [.redAck uid] }
    .next (s2.again (left s) (left s2)
      (s2.countOf uid (fun c => (c.io.reds.filter (fun r => !r.performed && !r.held)).length) != 0) (.redPerform uid))

/-- The first reduction that has been performed leaves a list. -/
def acknowledge : List Red → List Red
  | [] => []
  | r :: rest => if r.performed then rest else r :: acknowledge rest

/-- REDUCTION_ACK. -/
def execReductionAck (uid : Nat) (s : State) : Host.Outcome State Fault Refusal :=
  .next ((s.mapCtx uid (fun c => { c with io := { c.io with reds := acknowledge c.io.reds } })).refreshCounts uid)

/-- TILE_STORE_DRAIN: the oldest retired tile store that can drain. -/
def execTileStoreDrain (uid : Nat) (s : State) : Host.Outcome State Fault Refusal :=
  match s.ctx uid with
  | none => .next s
  | some c =>
    let size (s : State) : Nat := s.countOf uid (fun c => c.io.drains.length)
    let s1 := s.firstOf (fun s d => s.drainTiles uid (fun e => e = d)) size c.io.drains
    .next (s1.again (size s) (size s1) (s1.countOf uid (fun c => (c.io.drains.filter (fun d => !d.held)).length) != 0)
      (.tileDrain uid))

/-- FORCED_PUBLISH: what stands before a context's narrow releases is performed at system scope, and where nothing of it is
left, they are published to everyone (R304). -/
def execForcedPublish (uid : Nat) (s : State) : Host.Outcome State Fault Refusal :=
  let mine (s : State) : List Narrow := s.narrow.filter (fun r => r.uid = uid)
  if (mine s).isEmpty then .next s
  else
    let s1 := s.drainAll uid
    .next ((mine s1).foldl (fun s r => if s.withheld (r.line * 128) 128 none then s
      else s.published (r.line * 128) 128 none) s1)

/-! Easels. An easel is numbered 4 times its cluster plus its place there. -/

/-- A command of an easel with a tag, in a state. -/
def State.findCmd (s : State) (easel tag : Nat) (st : CmdState) (squashed : Bool) : Option EngineCmd :=
  (s.cluster (easel / 4)).cmds.find? (fun k =>
    k.easel = easel % 4 && k.tag = tag && k.state = st && k.squashed = squashed)

/-- An idle easel starts the command that has waited longest. -/
def State.startNext (s : State) (easel : Nat) : State :=
  let cl := easel / 4
  let v := s.cluster cl
  if v.cmds.any (fun k => k.easel = easel % 4 && k.state = .executing) then s
  else
    match v.cmds.find? (fun k => k.easel = easel % 4 && k.state = .received) with
    | none => s
    | some k =>
      let s1 := s.setCluster cl { v with cmds := v.cmds.map (fun q => if q = k then { q with state := .executing } else q) }
      let s2 := s1.trace cl k.easel k.tag 2 k.op 0
      { s2 with agenda := s2.agenda ++ [.easelComplete easel k.tag] }

/-- The record of a report: DONE with its flags, or FAULT with its cause code. A page fault has no cause code (R341),
so its record's is open. -/
def State.report (s : State) (cl : Nat) (k : EngineCmd) : State :=
  match k.fault with
  | none => s.trace cl k.easel k.tag 3 k.op k.flags.toNat
  | some (.trap cause _) => s.trace cl k.easel k.tag 7 k.op cause
  | some (.page _ _ _ _) => (s.draw.2).trace cl k.easel k.tag 7 k.op (s.draw.1 % 256)

/-- EASEL_COMMAND_COMPLETE: the easel reports the command that it executes. -/
def execEaselCommandComplete (easel tag : Nat) (s : State) : Host.Outcome State Fault Refusal :=
  match s.findCmd easel tag .executing false with
  | none => .next s
  | some k =>
    let cl := easel / 4
    let v := s.cluster cl
    let s1 := s.setCluster cl { v with cmds := v.cmds.map (fun q => if q = k then { q with state := .complete } else q) }
    .next ((s1.report cl k).startNext easel)

/-- EASEL_DISCARD: a squashed command stops at a cell-write boundary, and its new cells are free. -/
def execEaselDiscard (easel tag : Nat) (s : State) : Host.Outcome State Fault Refusal :=
  match s.findCmd easel tag .executing true with
  | none => .next s
  | some k =>
    let cl := easel / 4
    let v := s.cluster cl
    .next (((s.setCluster cl { v with cmds := v.cmds.erase k }).discardTrace cl k).startNext easel)

/-- EASEL_SQUASH: a squash that a core has sent, of a slot from an entry on, reaches its easel (R225, R293). -/
def execEaselSquash (easel core slot rob gen : Nat) (s : State) : Host.Outcome State Fault Refusal :=
  .next (match (s.cluster (easel / 4)).squashes.find? (fun q => q.easel = easel % 4 && q.core = core && q.slot = slot &&
      q.age = gen % 2 * 256 + rob % 256) with
    | none => s
    | some q => (s.squashAt (easel / 4) q).startNext easel)

/-- RESERVATION_SQUASH: where the oldest instruction of a context waits for cells that younger ones hold, those from the
oldest such holder on, the entry given, are squashed and issue again (R221). -/
def execReservationSquash (uid rob : Nat) (s : State) : Host.Outcome State Fault Refusal :=
  match s.ctx uid with
  | none => .next s
  | some c =>
    match (s.commandsOf uid).find? (fun k => !k.2.cells.isEmpty) with
    | none => .next s
    | some (cl, k) =>
      if c.sync.wait != .cells || tagAge k.tag != rob % 512 then .next s
      else
        .next (((s.event cl 5).trace cl k.easel k.tag 10 k.op (rob % 256)).squashFrom uid (fun q => youngerThan q.tag rob))

/-! Tile tables. -/

/-- RING_DELIVERY. -/
def execRingDelivery (cluster ring sub : Nat) (s : State) : Host.Outcome State Fault Refusal :=
  .next (s.deliver cluster ring sub)

/-- RING_CLAIM_GRANT: the first claim in a ring's line is served when the ring is not full. A context is told its claim
word; a ferry claims at its own step. A claim that nobody waits for any more leaves the line. -/
def execRingClaimGrant (cluster ring : Nat) (s : State) : Host.Outcome State Fault Refusal :=
  match s.ring cluster ring with
  | none => .next s
  | some r =>
    if r.full then .next s
    else
      match r.waiting.head? with
      | none => .next s
      | some (.ferry chain seq) => .next { s with agenda := s.agenda ++ [.ferry chain seq] }
      | some (.handle uid p) =>
        let waits : Bool := match s.ctx uid with
          | none => false
          | some c => c.sync.wait = .ring ring (.claim p) && c.sync.grant.isNone
        if waits then
          .next ((s.setRing cluster ring (r.take (.handle uid p))).mapCtx uid (fun c =>
            { c with sync := { c.sync with grant := some (r.claimWord r.claim) } }))
        else .next (s.setRing cluster ring { r with waiting := r.waiting.drop 1 })

end Sys2Proof.Machine
end

