-- ==== Sys2Proof/Machine/Fetch.lean ====
section
/-! DEFINITION. Fetch.lean: the next instruction of the context whose turn it is (R73, R74, R78, R97, R98), safe points
on its way (R359, R360), and whose turn it is (R65, R121). -/

namespace Sys2Proof.Machine

/-- The cause of a decode trap. -/
def rejectCause (r : Reject) : Nat :=
  match r with
  | .illegalInstruction => 0x01
  | .illegalField => 0x02
  | .formatMismatch => 0x03

/-- The parcel at a location as of a step. -/
def State.parcelAt (s : State) (loc step : Nat) : Nat :=
  fromBytes ((List.range 4).map (fun k => versionAt (s.versions (loc + k)) step (cellGet s.mem (loc + k))))

/-- The parcels that a fetch at a location may return beside the bytes in memory, where stores have changed them since a
step (R100): the old one, and each that a store has made. -/
def State.staleParcels (s : State) (loc since : Nat) : List Nat :=
  let steps := ((List.range 4).flatMap (fun k => ((s.versions (loc + k)).filter (fun v => since < v.step)).map (·.step))).eraseDups
  if steps.isEmpty then [] else (since :: steps).map (s.parcelAt loc)

/-- The step up to which a context's fetches from a location are sure to see its bytes. -/
def Context.sees (c : Context) (loc : Nat) : Nat := max c.order.began (tabGet 0 c.order.seen (loc / 128))

/-- One parcel. -/
def fetchParcel (va : Nat) : Op Nat := do
  let s ← get
  match s.cur.mapVa .fetch va with
  | .error cause => raiseAt cause va
  | .ok ia =>
    match s.checkIa s.cur ia .fetch false with
    | some cause => raiseAt cause va
    | none =>
      let p : Spot := ⟨va, ia⟩
      forcePublish ia 4
      let loc ← reach p .fetch
      needClean p loc 4
      let s ← get
      let old := s.staleParcels loc (s.cur.sees loc)
      if old.isEmpty then return s.numAt loc 4
      set s.draw.2
      return getAt old (s.draw.1 % old.length) 0

/-- The bits of the instruction in issue noted. -/
def noteBits (bits : Nat) (long : Bool) : Op Unit :=
  modifySelf (fun c => { c with bits := BitVec.ofNat 64 bits, long := long })

/-- The instruction at the program counter: its parcels, then the decode checks (R97). -/
def fetch : Op Instr := do
  noteBits 0 false
  let pc := (← self).reg.pc.toNat
  if pc % 4 != 0 then raiseAt 0x04 pc
  if 2 ^ 60 ≤ pc then raiseAt 0x05 pc
  let w ← fetchParcel pc
  noteBits w (isLong w)
  let v ← if isLong w then
      (if 2 ^ 60 ≤ pc + 4 then raiseAt 0x05 (pc + 4) else fetchParcel (pc + 4))
    else pure 0
  noteBits (v * 2 ^ 32 + w) (isLong w)
  match decodeParcels w v with
  | .error r => raise (rejectCause r)
  | .ok i =>
    match checkFields i with
    | some r => raise (rejectCause r)
    | none => return i

/-! Safe points (R359, R360). -/

/-- The live map of the entry of the safe-point table at a program counter, if there is one; .error, with the records
that the failed access has left, where the table cannot be read. -/
def State.safeEntry (s : State) (c : Context) : Nat → Nat → Except State (Option LiveMap)
  | 0, _ => .ok none
  | n + 1, va =>
    let word (k size : Nat) : Except State Nat :=
      match c.mapVa .read (va + k) with
      | .error _ => .error s
      | .ok ia =>
        if (s.checkIa c ia .read false).isSome then .error s
        else match s.meet ia .read c.token with
          | (.ok loc, _) => if s.poisonedTo (pkgOf c.id.core) loc size then .error s else .ok (s.numAt loc size)
          | (_, s1) => .error s1
    match word 0 8 with
    | .error e => .error e
    | .ok pc =>
      if pc = c.reg.pc.toNat then do
        let x ← word 8 4
        let v ← word 12 4
        let m ← word 16 1
        let t ← word 17 1
        let q ← word 18 1
        return some ⟨x, v, m, t, q % 4⟩
      else s.safeEntry c n (va + 32)

/-- Whether nothing of a context is open or in flight, so that it may stop at a safe point. -/
def Context.settled (c : Context) : Bool :=
  c.sync.region.isNone && c.io.quiet && c.io.deferred = 0

/-- What happens at an instruction boundary in place of the next instruction: a task that is ending goes on ending, a
cancelled one ends (R67, R346), one that a SAFE spill runs on stops at a safe point (R360). -/
def State.boundary (s : State) : Option State :=
  let c := s.cur
  if c.sched.ending.isSome then some (s.tryEnd c.id.uid)
  else if c.sched.cancelled then some (s.endTask c.id.uid 0)
  else if c.sched.toSafe.isNone then none
  else if c.sched.sptab.toNat % 32 != 0 || 2 ^ 60 ≤ c.sched.sptab.toNat + 32 * c.sched.spcnt then
    some (s.saveContext c.id.uid .preempted none)
  else
    match s.safeEntry c c.sched.spcnt c.sched.sptab.toNat with
    | .error s1 => some (s1.saveContext c.id.uid .preempted none)
    | .ok none => none
    | .ok (some live) => if c.settled then some (s.saveContext c.id.uid .preempted (some live)) else none

/-! Whose turn it is. -/

/-- Whether a context can take a turn: resident, not parked, not stopped, and not waiting for a grant that has not
come. Other waits are tried again at its turn. -/
def Context.runnable (c : Context) : Bool :=
  c.live && !c.sched.stopped &&
  (c.sched.ending.isSome ||
    (c.resident && !c.sched.parked &&
      (match c.sync.wait with
        | .barrier _ => c.sync.grant.isSome
        | .monitor _ => c.sync.grant.isSome
        | .reply => c.sync.grant.isSome
        | .target _ => c.sync.grant.isSome
        | _ => true)))

/-- Whether a context waits in CWAIT for the end of its object, or in ERET for a record, and it has not come: its instruction
is not tried again (R144, R348). -/
def State.stalled (s : State) (c : Context) : Bool :=
  c.sched.ending.isNone && !(s.waitOver c) &&
  (match c.sync.wait with
    | .object _ => true
    | .record => true
    | _ => false)

/-- A context brought to its turn; the one before it goes to the end of the line. -/
def State.bring (s : State) (uid : Nat) : State :=
  if s.cur.id.uid = uid then s
  else
    match s.others.find? (fun c => c.id.uid = uid) with
    | none => s
    | some c =>
      { s with cur := c
               others := s.others.filter (fun d => d.id.uid != uid) ++ (if s.cur.live then [s.cur] else []) }

/-- The context whose turn comes next when nothing else lays it down: round robin. -/
def State.nextUp (s : State) : Option Nat :=
  ((s.others ++ [s.cur]).find? (fun c => c.runnable && !(s.stalled c))).map (fun c => c.id.uid)

/-! Idle cores (R171). -/

/-- Whether a slot of a core is ready: its context could execute an instruction. -/
def State.coreReady (s : State) (core : Nat) : Bool :=
  s.contexts.any (fun c => c.resident && c.id.core = core && c.runnable && s.waitOver c)

/-- A core leaves idle as soon as one of its slots is ready. -/
def State.wakeCores (s : State) : State :=
  (s.cores.filter (fun k => k.2.idle && s.coreReady k.1)).foldl (fun s k =>
    s.setCore k.1 { s.core k.1 with idle := false, readyAt := s.now }) s

/-- A context of a core takes a turn, so one of its slots is ready. -/
def State.served (s : State) (core : Nat) : State :=
  s.setCore core { s.core core with idle := false, readyAt := s.now }

/-- Time passes, its cycles are counted, and an idle core with a slot that has become ready leaves idle. -/
def State.tick (s : State) : State := ({ s.countCycles with now := s.now + 1 } : State).wakeCores

end Sys2Proof.Machine
end

