-- ==== Sys2Proof/Machine/Interrupt.lean ====
section
/-! DEFINITION. Interrupt.lean: what meets a context from outside its instructions: its glaze when it waits or stays away
(R328, R330, R332), a trap (R342), deadlines (R144, R278, R360), the end of a TLBINV (R183), errors in its data (R361), and
the restart of a supervisor (R349, R396). -/

namespace Sys2Proof.Machine

/-! Glazes. -/

/-- GLAZE_PREEMPT_EXPIRY: 100 µs off-core. -/
def execGlazePreemptExpiry (uid : Nat) (s : State) : Host.Outcome State Fault Refusal :=
  match s.ctx uid, s.region uid with
  | some c, some _ => .next (if s.awayOver c 100000 then s.glazeAbort uid 6 else s)
  | _, _ => .next s

/-- PENDING_EDGE_RELEASE: a waiting access of a region goes back into issue selection and looks at the graph anew. A
region at its GZEND waits on. -/
def execPendingEdgeRelease (uid : Nat) (s : State) : Host.Outcome State Fault Refusal :=
  match s.region uid with
  | none => .next s
  | some r => .next (if r.ending then s
      else s.mapCtx uid (fun c => if c.sync.wait = .edge then { c with sync := { c.sync with wait := .none } } else c))

/-- A context past its GZEND, with status 0 in x[D]. -/
def Context.pastGzend (c : Context) (d : XReg) : Context :=
  let c1 := (((c.setX d 0).setPc (c.reg.pc + 4)).count)
  { c1 with sync := { c1.sync with wait := .none, grant := none } }

/-- What an off-turn commit leaves of a context at its GZEND: past it, after the full fence. Where a reduction has failed at
the commit, the fence would meet it: the GZEND is then left to the context's own turn. -/
def State.gzendDone (s : State) (c : Context) (d : XReg) : State :=
  let uid := c.id.uid
  let s1 := s.glazeCommitRegion uid
  if (s1.ctx uid).any (fun c => !c.io.late.isEmpty) then s
  else
    ((s1.mapCtx uid (fun c => { c.pastGzend d with order := { c.order with acquired := s.now, fenced := none } })).releaseFlushes
      uid c.id.core 6 s.now).reframe uid |>.event (clusterOf c.id.core) 2

/-- GLAZE_COMMIT: a region at its GZEND that no predecessor holds commits, wherever its context is; one whose context has been
off-core for more than 100 µs aborts (R330). -/
def execGlazeCommit (uid : Nat) (s : State) : Host.Outcome State Fault Refusal :=
  match s.ctx uid, s.region uid with
  | some c, some r =>
    match c.inIssue with
    | some (.gzend d) => .next (
        if s.awayOver c 100000 then s.glazeAbort uid 6
        else if r.ending && r.edges.isEmpty && c.sched.ending.isNone && !c.sched.parked &&
          (!r.postf || c.io.counted .f = 0) then s.gzendDone c d
        else s)
    | _ => .next s
  | _, _ => .next s

/-! Translation. -/

/-- TLBINV_COMPLETE: the waiters on the page are released and the regions that touched it abort. -/
def execTlbinvComplete (ia kind : Nat) (s : State) : Host.Outcome State Fault Refusal :=
  .next (if s.pageable ia && decide (kind ≤ 4) then s.tlbDone ia kind else s)

/-! Traps and errors. -/

/-- The causes that an instruction can raise (R341). -/
def raisable (cause : Nat) : Bool := decide (1 ≤ cause) && decide (cause ≤ 0x14) && cause != 0x0F && cause != 0x12

/-- DELIVER_TRAP: an instruction of a context that issues raises a cause. -/
def execDeliverTrap (uid cause : Nat) (info : Word) (s : State) : Host.Outcome State Fault Refusal :=
  match s.ctx uid with
  | none => .next s
  | some c => .next (if c.live && c.resident && !c.sched.parked && !c.sched.stopped && c.sched.ending.isNone && raisable cause
      then (s.leavesReady c).deliverTrap uid cause (some info) .device else s)

/-- The IA that a machine-check record gives for a granule of memory: the granule's own where memory is not paged, and
free where it is, because a page has no one IA (log 5). -/
def State.granuleIa (s : State) (key : Nat) : Nat × State :=
  if s.pageable (key * 32) then
    let (n, s1) := s.draw
    (n % 2 ^ 56, s1)
  else (key * 32, s)

/-- Whether a unit of a die may be the one that holds a granule of memory (R398): the core of a TCM, the lagoon, and for
paged memory an L2 slice, an HBM4E stack, or the fabric on the way. R398 names no unit for a palette: any of its die may
report it (log 102). -/
def State.holdsGranule (s : State) (key die unit : Nat) : Bool :=
  let cls := unit / 2 ^ 11
  let idx := unit % 2 ^ 11
  match s.whereIs (key * 32) with
  | .tcm j => die = dieOf j && unit = unitCore j
  | .lagoon d => die = d && unit = unitOf 3 0
  | .palette cl => die = cl / 32
  | .pageable => cls = 2 && decide (idx < 32) || cls = 4 && decide (idx < 12) ||
      cls = 5 && (decide (idx < 24) || idx = 0x7FF)
  | _ => false

/-- An uncorrectable error in a granule of memory poisons some of its bytes: which ones it has affected is free (R361, log 5). -/
def State.poisonSome (s : State) (key : Nat) : State :=
  let (n, s1) := s.draw
  let mask := n % (2 ^ 32 - 1) + 1
  let bs := ((List.range 32).filter (fun k => mask.testBit k)).map (fun k => key * 32 + k)
  { s1 with poison := (s1.poison ++ bs).eraseDups }

/-- MACHINE_CHECK_ERROR: an error in a granule of memory is corrected, or poisons the bytes it affects; one in the registers of a core or in
the cells of an easel, which the unit then names, is logged with no address, and no rule gives it a further effect
(log 102). An error of a unit that does not hold the granule is none. -/
def execMachineCheckError (key : Nat) (corrected : Bool) (unit : BitVec 16) (syndrome : Word) (s : State) :
    Host.Outcome State Fault Refusal :=
  let die := key * 32 / 2 ^ 53 % 8 * 4 + unit.toNat / 2 ^ 14
  let u := unit.toNat % 2 ^ 14
  let log (s : State) (ia : Nat) : State :=
    s.machineCheck die ia u (if corrected then 0 else 1) (if corrected then 0 else 0x13) 0 syndrome
  if s.packages ≤ die / 4 then .next s
  else if s.holdsGranule key die u then
    let (ia, s1) := s.granuleIa key
    .next (log (if corrected then s1 else s1.poisonSome key) ia)
  else if u / 2 ^ 11 < 2 && u % 2 ^ 11 < 128 then .next (log s 0)
  else .next s

/-- SUPERVISOR_RESTART: after a double fault, at the entry point, with no record current. What its other registers hold
no rule changes. -/
def execSupervisorRestart (core : Nat) (s : State) : Host.Outcome State Fault Refusal :=
  let k := s.core core
  if !k.dead then .next s
  else
    let entry := (s.atel (pkgOf core)).entry
    .next ((s.setCore core { k with dead := false, serving := none }).mapAll (fun c =>
      if c.id.sup && c.id.core = core then { c with
        reg := { c.reg with pc := entry, ecause := 0 }
        sched := { c.sched with stopped := false }
        sync := { c.sync with wait := .none, grant := none } }
      else c))

/-! Deadlines. -/

/-- SAFE_SPILL_TIMEOUT: no safe point within 1 ms. -/
def execSafeSpillTimeout (uid : Nat) (s : State) : Host.Outcome State Fault Refusal :=
  match s.ctx uid with
  | none => .next s
  | some c =>
    match c.sched.toSafe with
    | none => .next s
    | some since => .next (if 1000000 ≤ s.elapsed since then s.saveContext uid .preempted none else s)

/-- Whether a completion object that a CWAIT waits for is unfinished, as far as its page is there to tell. -/
def State.unfinished (s : State) (ia : Nat) : Bool :=
  match (s.objLoc ia).1 with
  | some loc => s.numAt (loc + 8) 1 = 1 || s.numAt (loc + 8) 1 = 3
  | none => true

/-- CWAIT_TIMEOUT: the deadline of a CWAIT that waits passes with its object unfinished. -/
def execCwaitTimeout (uid : Nat) (s : State) : Host.Outcome State Fault Refusal :=
  match s.ctx uid with
  | none => .next s
  | some c =>
    match c.sync.wait, c.inIssue with
    | .object ia, some (.cwait _ _ b) => .next (if c.resident && c.sync.grant.isNone && s.due (c.getX b) &&
        s.unfinished ia then s.mapCtx uid (fun c => { c with sync := { c.sync with grant := some 2 } }) else s)
    | _, _ => .next s

/-- MRECV_TIMEOUT: the deadline of an MRECV that waits passes with no message. -/
def execMrecvTimeout (uid : Nat) (s : State) : Host.Outcome State Fault Refusal :=
  match s.ctx uid with
  | none => .next s
  | some c =>
    match c.sync.wait, c.inIssue with
    | .message, some (.mrecv _ _ b) => .next (if c.resident && c.mail.all.isEmpty && s.due (c.getX b)
        then s.mapCtx uid (fun c => { c with sync := { c.sync with grant := some 0 } }) else s)
    | _, _ => .next s

end Sys2Proof.Machine
end

