-- ==== Sys2Proof/Machine/Launch.lean ====
section
/-! DEFINITION. Launch.lean: the loader (R15 to R26, R397), and the steps of the scheduler and of the completion trees
(R54, R63 to R68, R385). -/

namespace Sys2Proof.Machine

/-! The loader. -/

/-- A requirement entry (R17). -/
structure Req where
  capid : Nat
  minver : Nat
  hint : Bool
  reserved : Nat
  qty : Nat

/-- A requirement entry from its bytes. -/
def reqOf (bs : List Byte) : Req where
  capid := numIn bs 0 2
  minver := numIn bs 2 1
  hint := numIn bs 3 1 % 2 = 1
  reserved := numIn bs 3 1 / 2
  qty := numIn bs 4 4

/-- Satisfied (R26). The list's bitmaps are those of R25. -/
def Req.satisfied (r : Req) (caps : List Capability) : Bool :=
  match caps.find? (fun k => k.capid = r.capid) with
  | none => false
  | some k =>
    decide (r.minver ≤ k.ver) &&
    (if r.capid = 0x20 || r.capid = 0x21 then decide (k.value.toNat &&& r.qty = r.qty) else decide (r.qty ≤ k.value.toNat))

/-- A code object as the loader reads it: the package of its memory, whose capability list judges it, its header, and the
entries of its tables. -/
structure CodeObj where
  pkg : Nat
  head : List Byte
  notes : List (List Byte)
  creqs : List (List Byte)
  secs : List (List Byte)
  tasks : List (List Byte)
  binds : List (List Byte)
  sites : List (List Byte)

/-- Where the tables lie and how large they are: offset, entries, bytes of an entry. The manual gives a binding table no
entry size where BIND is reserved: it is 8 bytes here, and the table then has no bound of its own (log 93). -/
def tablesOf (head : List Byte) : List (Nat × Nat × Nat) :=
  let n (o k : Nat) := numIn head o k
  [(n 0x10 4, n 0x14 2, 8), (n 0x18 4, n 0x16 2, 8), (n 0x1C 4, n 0x20 2, 16), (n 0x24 4, n 0x22 2, 16),
   (n 0x28 4, n 0x2C 2, if n 0x0A 1 = 1 then 4 else 8), (n 0x5C 4, n 0x5A 2, 4)]

/-- The header's part of check 1. -/
def headOk (head : List Byte) : Bool :=
  let n (o k : Nat) := numIn head o k
  n 0x00 4 = 0x4B4F4C46 && n 0x04 2 = 1 && n 0x06 2 = 128 && n 0x0B 1 = 0 && n 0x2E 2 = 0 && n 0x66 26 = 0 &&
  decide (128 ≤ n 0x0C 4) && decide (1 ≤ n 0x14 2) && decide (n 0x14 2 ≤ 256) && decide (n 0x16 2 ≤ 256) &&
  decide (1 ≤ n 0x20 2) && decide (n 0x20 2 ≤ 64) && decide (1 ≤ n 0x22 2) && decide (n 0x22 2 ≤ 1024) &&
  (n 0x0A 1 != 0 || decide (n 0x2C 2 ≤ 16)) && demandsOk head 0x30 &&
  decide (1 ≤ n 0x50 4) && decide (1 ≤ n 0x58 2) && decide (n 0x58 2 ≤ 4096) && decide (n 0x5A 2 ≤ 1024) &&
  (tablesOf head).all (fun t => t.2.1 = 0 || (t.1 % 8 = 0 && decide (t.1 + t.2.1 * t.2.2 ≤ n 0x0C 4)))

/-- Whether two ranges of bytes meet. -/
def overlap (a n b m : Nat) : Bool := n != 0 && m != 0 && decide (a < b + m) && decide (b < a + n)

/-- No element of a list meets a later one. -/
def apart {α : Type} (f : α → α → Bool) : List α → Bool
  | [] => true
  | a :: l => l.all (fun b => !(f a b)) && apart f l

/-- Whether n bytes lie in a section of a kind. -/
def CodeObj.inSection (o : CodeObj) (kind at_ n : Nat) : Bool :=
  o.secs.any (fun s => numIn s 0 4 = kind && decide (numIn s 4 4 ≤ at_) && decide (at_ + n ≤ numIn s 4 4 + numIn s 8 4))

/-- The tables' part of check 1. The manual does not say how many bytes of an entry point must lie in the code section: the
4 of the offset's parcel do here (log 92). -/
def CodeObj.tablesOk (o : CodeObj) : Bool :=
  let size := numIn o.head 0x0C 4
  let spans := (tablesOf o.head).map (fun t => (t.1, t.2.1 * t.2.2))
  o.secs.all (fun s => decide (1 ≤ numIn s 0 4) && decide (numIn s 0 4 ≤ 3) && numIn s 12 4 = 0 && numIn s 4 4 % 8 = 0 &&
    decide (numIn s 4 4 + numIn s 8 4 ≤ size) && spans.all (fun t => !(overlap (numIn s 4 4) (numIn s 8 4) t.1 t.2))) &&
  apart (fun s t => overlap (numIn s 4 4) (numIn s 8 4) (numIn t 4 4) (numIn t 8 4)) o.secs &&
  o.tasks.all (fun t => numIn t 8 8 = 0 && numIn t 0 4 % 4 = 0 && o.inSection 1 (numIn t 0 4) 4) &&
  o.sites.all (fun p => numIn p 0 4 % 4 = 0 && o.inSection 2 (numIn p 0 4) 4) &&
  (o.notes ++ o.creqs).all (fun r => (reqOf r).reserved = 0) &&
  o.notes.all (fun r => decide (0x100 ≤ (reqOf r).capid) && decide ((reqOf r).capid ≤ 0x1FF)) &&
  o.notes.any (fun r => (reqOf r).capid = 0x100) && o.creqs.all (fun r => decide ((reqOf r).capid < 0x100))

/-- ResolveCoreCount (R22). -/
def resolveCores (head : List Byte) (ncore : Nat) : Option Nat :=
  let lo := numIn head 0x50 4
  let hi := numIn head 0x54 4
  let step := numIn head 0x58 2
  let n := if hi != 0 then min ncore hi else ncore
  let n := n - n % step
  if n < lo || n = 0 then none else some n

/-- Check 7: the binding table (R23, R24). -/
def CodeObj.bindsOk (o : CodeObj) : Bool :=
  if numIn o.head 0x0A 1 = 0 then
    o.binds.all (fun b => decide (numIn b 0 1 ≤ 15) && decide (numIn b 1 1 ≤ 7) && decide (5 ≤ numIn b 2 1) &&
      decide (numIn b 2 1 ≤ 30) && numIn b 3 1 = 0) && apart (fun a b => numIn a 0 1 = numIn b 0 1) o.binds
  else o.binds.all (fun b => numIn b 2 2 != 0) && apart (fun a b => numIn a 0 2 = numIn b 0 2) o.binds

/-- 1 + the largest resource index, or 0. -/
def CodeObj.maxIndex (o : CodeObj) : Nat :=
  if numIn o.head 0x0A 1 = 0 then 0 else o.binds.foldl (fun n b => max n (numIn b 0 2 + 1)) 0

/-- A RESOURCE refusal of the loader. -/
def noResource (sub : Nat) : Nat := 0x09 + sub * 2 ^ 8

/-- The checks of R26 in order: the resolved core count, or the loader status word of the refusal. The manual gives no order
among the unmet notes of check 3 and among the DEMANDS fields of check 5: the first of each table is reported (logs 90, 91). -/
def State.judge (s : State) (o : CodeObj) (ncore : Nat) : Except Nat Nat :=
  let unmet (rs : List (List Byte)) : Option Req := (rs.map reqOf).find? (fun r => !r.hint && !(r.satisfied (s.capsOf o.pkg)))
  if !(headOk o.head) || !o.tablesOk then .error 0x20
  else if numIn o.head 0x08 2 != 0x0100 || 1 < numIn o.head 0x0A 1 then .error 0x21
  else match unmet o.notes with
    | some r => .error (0x22 + r.capid * 2 ^ 16)
    | none =>
      if (unmet o.creqs).isSome then .error (noResource 0x0C)
      else match ((demandsIn o.head 0x30).fields.zip capabilities).find? (fun p => decide (p.2.1 < p.1)) with
        | some p => .error (noResource p.2.2)
        | none => match resolveCores o.head ncore with
          | none => .error (noResource 0x0B)
          | some n => if o.bindsOk then .ok n else .error 0x20

/-- An action of the loader, which stops where it cannot read or write. -/
abbrev LoadOp := EStateM Nat State

/-- Bytes read by the loader. -/
def loads (ia n : Nat) : LoadOp (List Byte) := fun s =>
  match s.getIa 0 (n / 4096 + 2) ia n with
  | (.ok bs, s1) => .ok bs s1
  | (.error c, s1) => .error c s1

/-- Bytes written by the loader. -/
def patches (ia : Nat) (bs : List Byte) : LoadOp Unit := fun s =>
  match s.putIa 0 2 ia bs with
  | (none, s1) => .ok () s1
  | (some c, s1) => .error c s1

/-- The entries of a table. -/
def loadTable (ia : Nat) (t : Nat × Nat × Nat) : LoadOp (List (List Byte)) := do
  let bs ← loads (ia + t.1) (t.2.1 * t.2.2)
  return (List.range t.2.1).map (fun k => (bs.drop (k * t.2.2)).take t.2.2)

/-- A code object read. The tables of one whose header is refused are not read. -/
def loadObj (ia : Nat) : LoadOp CodeObj := do
  let head ← loads ia 128
  let pkg := ia / 2 ^ 53
  if !(headOk head) then return ⟨pkg, head, [], [], [], [], [], []⟩
  match ← (tablesOf head).mapM (loadTable ia) with
  | [a, b, c, d, e, f] => return ⟨pkg, head, a, b, c, d, e, f⟩
  | _ => return ⟨pkg, head, [], [], [], [], [], []⟩

/-- What the loader writes once every check has passed: the patch sites, JMAXIDX, and JMARK last. -/
def markJudged (ia n : Nat) (o : CodeObj) : LoadOp Unit := do
  let s ← get
  let j := if o.maxIndex < 2 ^ 16 then o.maxIndex else s.draw.1 % 2 ^ 16
  if 2 ^ 16 ≤ o.maxIndex then set s.draw.2
  o.sites.forM (fun p => patches (ia + numIn p 0 4) (toBytes 4 n))
  patches (ia + 0x64) (toBytes 2 j)
  patches (ia + 0x60) (toBytes 4 0x4744554A)

/-- The loader status word noted. -/
def noteJudged (w : Nat) : LoadOp Unit := modify (fun s => { s with judged := BitVec.ofNat 32 w })

/-- LOADER_JUDGE on the code object at an IA: JMARK is cleared first, and the status word is that of the first check that
fails. -/
def judgeObj (obj ncore : Nat) : LoadOp Unit := do
  patches (obj + 0x60) (toBytes 4 0)
  let o ← loadObj obj
  match (← get).judge o ncore with
  | .error w => noteJudged w
  | .ok n =>
    markJudged obj n o
    noteJudged 0

/-- LOADER_JUDGE. Where a byte that the loader needs is away, there is no judgement yet. -/
def execLoaderJudge (obj ncore : Nat) (s : State) : Host.Outcome State Fault Refusal :=
  match judgeObj obj ncore s with
  | .ok _ s1 => .next s1
  | .error _ s1 => .next s1

/-! The scheduler and the completion trees. -/

/-- TASK_DISPATCH. -/
def execTaskDispatch (lobj : Nat) (s : State) : Host.Outcome State Fault Refusal := .next (s.dispatch lobj)

/-- TREE_FORWARD. -/
def execTreeForward (lobj node : Nat) (s : State) : Host.Outcome State Fault Refusal := .next (s.forward lobj node)

/-- CANCEL_MARK_DESCENDANTS. -/
def execCancelMarkDescendants (obj : Nat) (s : State) : Host.Outcome State Fault Refusal :=
  .next (s.markDescendants obj)

/-- TASK_CANCEL_END. -/
def execTaskCancelEnd (uid : Nat) (s : State) : Host.Outcome State Fault Refusal := .next (s.cancelEnd uid)

/-- TASK_EVICT. -/
def execTaskEvict (uid : Nat) (s : State) : Host.Outcome State Fault Refusal := .next (s.evict uid)

/-- CONTEXT_RESTORE. -/
def execContextRestore (uid : Nat) (s : State) : Host.Outcome State Fault Refusal := .next (s.restore uid)

/-- STREAM_REBALANCE. -/
def execStreamRebalance (graph : Nat) (s : State) : Host.Outcome State Fault Refusal := .next (s.rebalance graph)

/-- SCHEDULER_PRE_EMPTION of a resident task (R65). Tasks of CORESIDENT launches stay (R64), and so do those of a stage at its
SLOTMIN (R68). -/
def execSchedulerPreEmption (uid : Nat) (s : State) : Host.Outcome State Fault Refusal :=
  match s.ctx uid with
  | none => .next s
  | some c =>
    if !c.resident || c.id.sup || c.job.coresident || c.sched.parked || c.sched.ending.isSome || s.atMinimum c then .next s
    else .next (s.saveContext uid .preempted none)

end Sys2Proof.Machine
end

