-- ==== Sys2Proof/Machine/Package.lean ====
section
/-! DEFINITION. Package.lean: the reset of the package (R9), boot from the signed configuration image (R25, R347, R394),
and attestation (R395). -/

namespace Sys2Proof.Machine

/-- PACKAGE_RESET: every register takes its reset value, and TSTAMP and CYC count from here. Memory keeps its bytes; the
model's own numbers run on (log 28). -/
def execPackageReset (s : State) : Host.Outcome State Fault Refusal :=
  .next { State.reset with
    mem := s.mem, poison := s.poison, now := s.now, resetAt := s.now, freeAt := s.freeAt, turns := s.turns
    nextUid := s.nextUid, nextGen := s.nextGen, history := s.history }

/-! Boot (R394). -/

/-- The bits of a control-block register that the image may set. -/
def bootBits (off : Nat) : Nat :=
  if off = 0x760 then ones 15 0
  else if 0x700 ≤ off && off ≤ 0x740 && off % 8 = 0 then ones 31 0
  else if 0x780 ≤ off && off < 0x7C0 && off % 8 = 0 then ones 7 0
  else 0

/-- A control-block register set from the image; CEILMAX is held to SAFELIM. -/
def State.bootRegister (s : State) (die off : Nat) (w : Word) : State :=
  let m := BitVec.ofNat 64 (bootBits off)
  if bootBits off = 0 then s
  else
    let v := (s.ctlGet die off &&& ~~~m) ||| (w &&& m)
    s.ctlSet die off (if off = 0x740 then setBits v 15 0 (min (bitsOf v 15 0) (s.ctlField die 0x760 15 0)) else v)

/-- A register of a cluster or a string as a write would store it (R71, R118). -/
def bootSys (n : Nat) (w : Word) : Word :=
  match sysStored n 0 w with
  | .ok v => v
  | .error _ => w

/-- The registers of the image, SAFELIM first. -/
def State.bootRegisters (s : State) (pkg : Nat) (image : BootImage) : State :=
  let mine := image.control.filter (fun r => r.1 / 4 = pkg)
  let regs := mine.filter (fun r => r.2.1 = 0x760) ++ mine.filter (fun r => r.2.1 != 0x760)
  let s1 := regs.foldl (fun s r => s.bootRegister r.1 r.2.1 r.2.2) s
  let s2 := (image.gesso.filter (fun g => g.1 / 32 = pkg)).foldl (fun s g =>
    s.setString g.1 { s.string g.1 with gesso := bootSys 0x0A g.2 }) s1
  (image.drpth.filter (fun g => g.1 / 128 = pkg)).foldl (fun s g =>
    s.setCluster g.1 { s.cluster g.1 with drpth := bootSys 0x07 g.2 }) s2

/-- The capability list of R25. -/
def capabilityList (packages : Nat) : List Capability :=
  let cap (id v : Nat) : Capability := ⟨id, 0, BitVec.ofNat 64 v⟩
  [cap 0x10 512, cap 0x11 128, cap 0x12 32, cap 0x13 7, cap 0x14 32, cap 0x15 8, cap 0x16 8, cap 0x17 16, cap 0x18 2,
   cap 0x19 96, cap 0x1A 1048576, cap 0x1B 65536, cap 0x1C 16777216, cap 0x1D 16, cap 0x1E 618475290624,
   cap 0x1F packages, cap 0x20 0x7FFF, cap 0x21 7, cap 0x22 8, cap 0x100 0x100]

/-- Whether a capability's VALUE is a bitmap. -/
def Capability.bitmap (k : Capability) : Bool := k.capid = 0x20 || k.capid = 0x21

/-- The list as it lies in memory: 16 bytes an entry, the last with NEXT 0. -/
def capabilityBytes : Nat → List Capability → List Byte
  | _, [] => []
  | n, k :: rest =>
    let next := if rest.isEmpty then 0 else 16 * (n + 1)
    toBytes 8 (next * 2 ^ 32 + k.bitmap.toNat * 2 ^ 24 + k.ver * 2 ^ 16 + k.capid) ++ toBytes 8 k.value.toNat ++
      capabilityBytes (n + 1) rest

/-- Whether every signature verifies that a boot needs. -/
def signedImage (i : BootImage) : Bool :=
  [i.atelier, i.config, i.identity].all (fun v => v.rsa && v.slh)

/-- The capability list of a package built at its address. While translation is still off, an address in pageable memory
stands for the physical address with the same number (log 100). -/
def State.bootCapabilities (s : State) (pkg : Nat) (image : BootImage) : State :=
  let caps := capabilityList s.packages
  let loc := if s.pageable image.capIa then pkgBase pkg + image.capIa % 2 ^ 52 else image.capIa
  ({ s with
    caps := tabPut s.caps pkg caps, capbase := tabPut s.capbase pkg image.capbase, capAt := tabPut s.capAt pkg loc } : State).putBytes loc
    (capabilityBytes 0 caps)

/-- Eight range registers from the image, those it leaves out invalid. -/
def bootRanges (rs : List (BitVec 128)) : Vector (BitVec 128) 8 := Vector.ofFn (fun i => rangeImage (getAt rs i.val 0))

/-- A supervisor as Atelier starts it at a step: at its entry point, with CAUSE 0 and its ranges written (R347). -/
def startSupervisor (image : BootImage) (now core : Nat) : Context :=
  let c := Context.reset core core 7 true
  { c with
    reg := { c.reg with pc := image.entry, amap := bootRanges (tabGet [] image.supervisorRanges core) }
    order := { c.order with acquired := now, began := now } }

/-- Every supervisor of a package started, and the dispatch ranges of every core written (R347, R364). -/
def State.bootSupervisors (s : State) (pkg : Nat) (image : BootImage) : State :=
  let cores := (List.range 512).map (fun k => pkg * 512 + k)
  let mine (c : Context) : Bool := c.id.sup && decide (pkgOf c.id.core = pkg)
  let s1 : State := { s with
    cur := if mine s.cur then startSupervisor image s.now s.cur.id.core else s.cur
    others := s.others.filter (fun c => !(mine c)) ++
      (cores.filter (fun k => !(mine s.cur && s.cur.id.core = k))).map (startSupervisor image s.now) }
  cores.foldl (fun s k => s.setCore k { s.core k with ranges := bootRanges (tabGet [] image.dispatchRanges k) }) s1

/-- The routes of the image from a package (R393). -/
def State.bootRoutes (s : State) (pkg : Nat) (image : BootImage) : State :=
  { s with routes := s.routes.filter (fun r => r.1 != pkg) ++ image.routes.map (fun r => (pkg, r.1, r.2)) }

/-- What Atelier measures: the mask ROM, itself, the image and the energy-rate table (R395). -/
def measured (image : BootImage) : List (List Byte) :=
  [Config.maskRom, image.firmware, image.bytes, Config.energyTable image.bytes].map Config.sha384

/-- ATELIER_BOOT: signatures that do not verify leave the package in reset. A package boots once. -/
def execAtelierBoot (pkg : Nat) (image : BootImage) (s : State) : Host.Outcome State Fault Refusal :=
  let a := s.atel pkg
  if 8 ≤ pkg || a.booted then .next s
  else if !(signedImage image) then .next (s.setAtel pkg { a with failed := true })
  else
    let s1 : State := { s with packages := max s.packages (min 8 image.packages) }
    let s2 := (((s1.bootRegisters pkg image).bootRoutes pkg image).bootCapabilities pkg image).bootSupervisors pkg image
    .next (s2.setAtel pkg { a with booted := true, failed := false, entry := image.entry, measurements := measured image })

/-! Attestation (R395). -/

/-- An answer of Atelier joins the transcript. -/
def Atelier.answer (a : Atelier) (bs : List Byte) : Atelier :=
  { a with transcript := a.transcript ++ bs, responses := a.responses ++ [bs] }

/-- An answer with the RSASSA-3072 signature over the transcript, then the vendor-defined one with the SLH-DSA signature
over the same transcript. -/
def Atelier.answerSigned (a : Atelier) (bs : List Byte) : Atelier :=
  let t := a.transcript ++ bs
  { a with
    transcript := t
    responses := a.responses ++ [bs ++ Config.spdmSign false t, Config.spdmSign true t] }

/-- A request served by a package that has booted: it joins the transcript and is answered. -/
def State.attest (s : State) (r : SpdmRequest) (f : Atelier → Atelier) : State :=
  let a := s.atel r.pkg
  if a.booted then s.setAtel r.pkg (f { a with transcript := a.transcript ++ r.bytes }) else s

/-- The body of the answer to a request, by the order of R395's list. -/
def Atelier.body (a : Atelier) (which : Nat) : List Byte := Config.spdmBody which a.transcript a.measurements

/-- GET_VERSION begins a new exchange. -/
def execGetVersion (r : SpdmRequest) (s : State) : Host.Outcome State Fault Refusal :=
  .next (s.attest r (fun a =>
    let b : Atelier := { a with transcript := r.bytes, version := true, capabilities := false, algorithms := false }
    b.answer (b.body 0)))

/-- GET_CAPABILITIES. -/
def execGetCapabilities (r : SpdmRequest) (s : State) : Host.Outcome State Fault Refusal :=
  .next (s.attest r (fun a => ({ a with capabilities := a.version } : Atelier).answer (a.body 1)))

/-- NEGOTIATE_ALGORITHMS: RSASSA-3072 and SHA-384. -/
def execNegotiateAlgorithms (r : SpdmRequest) (s : State) : Host.Outcome State Fault Refusal :=
  .next (s.attest r (fun a => ({ a with algorithms := a.capabilities } : Atelier).answer (a.body 2)))

/-- GET_DIGESTS. -/
def execGetDigests (r : SpdmRequest) (s : State) : Host.Outcome State Fault Refusal :=
  .next (s.attest r (fun a => a.answer (a.body 3)))

/-- GET_CERTIFICATE. -/
def execGetCertificate (r : SpdmRequest) (s : State) : Host.Outcome State Fault Refusal :=
  .next (s.attest r (fun a => a.answer (a.body 4)))

/-- CHALLENGE: the answer is signed, once algorithms have been agreed. -/
def execChallenge (r : SpdmRequest) (s : State) : Host.Outcome State Fault Refusal :=
  .next (s.attest r (fun a => if a.algorithms then a.answerSigned (a.body 5) else a.answer (a.body 5)))

/-- GET_MEASUREMENTS: signed where bit 0 of the request's first parameter asks for it (log 27). -/
def execGetMeasurements (r : SpdmRequest) (s : State) : Host.Outcome State Fault Refusal :=
  .next (s.attest r (fun a =>
    if a.algorithms && (getAt r.bytes 2 0).getLsbD 0 then a.answerSigned (a.body 6) else a.answer (a.body 6)))

end Sys2Proof.Machine
end

