-- ==== Sys2Proof/Machine/Pages.lean ====
section
/-! DEFINITION. Pages.lean: steps of the memory side: walks, fault records, PGREADY and PGFAIL, copy-on-write breaks,
epochs of the access counters (R179, R183 to R190). -/

namespace Sys2Proof.Machine

/-- PAGE_WALK for an access of a kind: what the walk changes. What the access makes of the answer is the access's own
step. -/
def execPageWalk (ia : Nat) (kind : Access) (s : State) : Host.Outcome State Fault Refusal := .next (s.meet ia kind 0).2

/-- FAULT_RECORD_POST. -/
def execFaultRecordPost (die : Nat) (s : State) : Host.Outcome State Fault Refusal := .next (s.postWaiting die)

/-- PGREADY. -/
def execPgready (page : Nat) (s : State) : Host.Outcome State Fault Refusal := .next (s.pageReady page)

/-- PGFAIL. -/
def execPgfail (page : Nat) (s : State) : Host.Outcome State Fault Refusal := .next (s.pageFail page)

/-- A break whose CAS fails, because software has rewritten the entry meanwhile: a frame that it had taken holds the copy and
stays as the die's reserve, and no count moves. The held accesses walk again. -/
def State.cowLost (s : State) (ia e log : Nat) : State :=
  let die := homeDie ia
  let pkg := ia / 2 ^ 53
  if log > 15 || s.numAt (s.descLoc pkg (entryAddr e)) 4 ≤ 1 then s
  else
    match s.takeFrame die with
    | (none, s1) => s1
    | (some f, s1) =>
      let s2 := s1.putBytes (pkgBase pkg + f) (s1.bytesAt (pkgBase pkg + entryAddr e) (2 ^ 15))
      s2.setDie die { s2.die die with reserve := some f }

/-- COW_BREAK: the break of a writable copy-on-write page for the writes that its home slice holds; lost says that its CAS
meets an entry that software has rewritten. -/
def execCowBreak (at_ : CowTry) (s : State) : Host.Outcome State Fault Refusal :=
  let ia := at_.ia
  if s.whereIs ia != .pageable then .next s
  else
    match s.walk ia with
    | .leaf loc e log => .next (if !(entryBit e 4 && entryBit e 6) then s
        else if at_.lost then s.cowLost ia e log else (s.cowBreak ia loc e log 0).2)
    | _ => .next s

/-! Epochs (R187). -/

/-- Frames of the physical map (R182). -/
def allFrames : Nat := 0x1200000 + 2 ^ 30

/-- The PA of a frame by its number in the descriptor table. -/
def framePa (f : Nat) : Nat :=
  if f < 0x1200000 then f * 2 ^ 15
  else if f < 0x1200000 + 2 ^ 29 then 0x100000000000 + (f - 0x1200000) * 2 ^ 15
  else 0x200000000000 + (f - 0x1200000 - 2 ^ 29) * 2 ^ 15

/-- Whether an IA's page lies in a frame, so that a request for the frame may name it. -/
def State.pageIn (s : State) (ia pa : Nat) : Bool :=
  match s.walk ia with
  | .leaf _ e _ => entryAddr e = pa
  | _ => false

/-- An IA whose page lies in a frame, by a search of the tables from one of them on: ia is where that table's reach
begins. -/
def leafOf (mem : List Host.Cell) (base pa : Nat) : List (Nat × Nat × Nat × Nat) → Nat → Nat → Option Nat
  | [], _, _ => none
  | (level, low, bits, nextLog) :: rest, table, ia =>
    (List.range (2 ^ bits)).findSome? (fun k =>
      let e := fromBytes (cellsGet mem (base + table + k * 8) 8)
      if !entryBit e 0 || malformed e level (if entryBit e 2 then low else nextLog) then none
      else if entryBit e 2 then
        (if entryAddr e = pa then some (ia + k * 2 ^ low) else none)
      else leafOf mem base pa rest (entryAddr e) (ia + k * 2 ^ low))

/-- A page of a package that lies in a frame, by its IA. -/
def State.pageOf (s : State) (pkg pa : Nat) : Option Nat :=
  (leafOf s.mem (pkgBase pkg) pa levels (bitsOf (s.ctlGet (pkg * 4) 0x000) 51 14 * 2 ^ 14) 0).map (fun ia => pkg * 2 ^ 53 + ia)

/-- A migration request, or a drop (R187). The nibble that asked for it is cleared in both cases: the manual says so of a request
that is posted. DESIGN CHOICE (log 127). Unsafe. -/
def State.migrate (s : State) (ia : Nat) (promote : Bool) : State :=
  let die := homeDie ia
  match s.ringPost die 0x030 0x038 3 (toBytes 8 (ia / 2 ^ 15 % 2 ^ 41 * 2 ^ 15 + promote.toNat) ++ toBytes 8 s.tstamp) with
  | some s1 => s1
  | none =>
    let n := s.ctlField die 0x060 31 16
    s.ctlPutField die 0x060 31 16 (if n = 0xFFFF then n else n + 1)

/-- A nibble after an epoch. Beyond 15 its value is open. -/
def nibbleStep (old : Nat) (on : Bool) (junk : Nat) : Nat := if !on then 0 else if old = 15 then junk % 16 else old + 1

/-- Whether the epoch of a die is over: EPOCH.US microseconds since the end of the last one. -/
def State.epochOver (s : State) (die : Nat) : Bool :=
  decide (s.ctlField die 0x040 31 0 * 1000 ≤ s.elapsed (max (s.die die).epochAt s.resetAt))

/-- The end of an epoch for one frame: its nibbles, its request, its counter. pages are those that the memory side names;
of a frame that no leaf gives a page the page of its request is open, and with it the die whose thresholds hold. -/
def State.epochFrame (pkg : Nat) (dies pages : List Nat) (s : State) (f : Nat) : State :=
  let pa := framePa f
  let loc := s.descLoc pkg pa
  let (junk, s1) := s.draw
  let ia := match pages.find? (fun ia => s1.pageIn ia pa) with
    | some ia => ia
    | none => (s1.pageOf pkg pa).getD (pkg * 2 ^ 53 + junk / 16 % 2 ^ 52)
  let die := homeDie ia
  if !(dies.contains die) then s
  else
    let count := min 65535 (s1.numAt (loc + 4) 2 + Config.fills die f s1.now)
    let hup := s1.numAt (loc + 6) 1
    let lo := nibbleStep (hup % 16) (decide (s1.ctlField die 0x048 63 48 ≤ count)) junk
    let hi := nibbleStep (hup / 16) (decide (count ≤ s1.ctlField die 0x048 47 32)) junk
    let n := s1.ctlField die 0x048 3 0
    let cxl : Bool := decide (0x1200000 ≤ f)
    let up : Bool := cxl && decide (n ≤ lo)
    let down : Bool := !cxl && decide (n ≤ hi)
    let s2 := (s1.putNum (loc + 4) 2 0).putNum (loc + 6) 1 ((if down then 0 else hi) * 16 + (if up then 0 else lo))
    if up || down then s2.migrate ia up else s2

/-- EPOCH_END for the frame descriptors of a package, of each die whose epoch is over. While PTROOT.EN is 0 no page lies in any
frame and no descriptor table is in use, so that no descriptor is written (log 65). -/
def execEpochEnd (pkg : Nat) (promote demote : List Nat) (s : State) : Host.Outcome State Fault Refusal :=
  let dies := ((List.range 4).map (fun k => pkg * 4 + k)).filter s.epochOver
  let s1 := dies.foldl (fun s d => s.setDie d { s.die d with epochAt := s.now }) s
  .next (if (s.ctlGet (pkg * 4) 0x000).getLsbD 0 then
    (List.range allFrames).foldl (State.epochFrame pkg dies (promote ++ demote)) s1
  else s1)

/-- REGION_MERGE: the directory's pieces are timing only; the merge is counted. -/
def execRegionMerge (ia log : Nat) (s : State) : Host.Outcome State Fault Refusal :=
  .next (s.dieEvent (homeDie (ia / 2 ^ log * 2 ^ log)) 31)

end Sys2Proof.Machine
end

