-- ==== Sys2Proof/Machine/Power.lean ====
section
/-! DEFINITION. Power.lean: the tide, the ceiling and what meets it (R368 to R377), leases that expire (R382), and energy
records (R387, R388). The circuits' measurements come with the steps. -/

namespace Sys2Proof.Machine

/-! The frame (R368, R369). -/

/-- k more bits of the CRC-32 of IEEE 802.3, reflected. -/
def crcBits : Nat → BitVec 32 → BitVec 32
  | 0, c => c
  | k + 1, c => crcBits k (if c.getLsbD 0 then (c >>> 1) ^^^ 0xEDB88320 else c >>> 1)

/-- The CRC-32 of IEEE 802.3. -/
def crc32 (bs : List Byte) : BitVec 32 := ~~~(bs.foldl (fun c b => crcBits 8 (c ^^^ b.setWidth 32)) 0xFFFFFFFF)

/-- Whether a frame is valid. -/
def frameValid (bs : List Byte) : Bool :=
  bs.length = 16 && fromBytes (bs.take 2) = 0x7E1D && (getAt bs 3 0).toNat < 8 && fromBytes ((bs.drop 10).take 2) = 0 &&
  fromBytes (bs.drop 12) = (crc32 (bs.take 12)).toNat

/-! The ceiling (R370). -/

/-- A line through two points at x. -/
def line (a b : Nat × Nat) (x : Nat) : Nat :=
  ((a.2 : Int) + Int.fdiv (((x : Int) - a.1) * ((b.2 : Int) - a.2)) ((b.1 : Int) - a.1)).toNat

/-- The last pair of neighbours that begins at or before x and is not upright. -/
def segmentAt (x : Nat) : List (Nat × Nat) → Option ((Nat × Nat) × (Nat × Nat))
  | p :: q :: rest =>
    match segmentAt x (q :: rest) with
    | some r => some r
    | none => if p.1 ≤ x && p.1 < q.1 then some (p, q) else none
  | _ => none

/-- Curve. -/
def curve (ps : List (Nat × Nat)) (x : Nat) : Nat :=
  let p0 := getAt ps 0 (0, 0)
  let p3 := getAt ps 3 (0, 0)
  if x ≤ p0.1 then p0.2
  else if p3.1 ≤ x then p3.2
  else match segmentAt x ps with
    | none => p3.2
    | some (a, b) => line a b x

/-- A ceiling held to CEILMAX and SAFELIM. -/
def State.capped (s : State) (pkg c : Nat) : Nat :=
  min c (min (s.ctlField (pkg * 4) 0x740 15 0) (s.ctlField (pkg * 4) 0x760 15 0))

/-- The ceiling without a valid frame: FALLBACK. -/
def State.fallback (s : State) (pkg : Nat) : Nat := s.capped pkg (s.ctlField (pkg * 4) 0x740 31 16)

/-- Ceiling, from the values of a frame that is not STALE. -/
def State.ceiling (s : State) (pkg freq vbus grant : Nat) : Nat :=
  let die := pkg * 4
  if s.curveBad die then s.fallback pkg
  else
    let c := min (curve (s.points die 0x700) freq) (curve (s.points die 0x720) vbus)
    s.capped pkg (if grant = 0 then c else min c grant)

/-! Demands (R372). -/

/-- HWPWR or SAFE. -/
def State.halfPkg (s : State) (pkg : Nat) : Bool := s.ctlField (pkg * 4) 0x758 31 30 != 0

/-- CYC of a cluster at an earlier step. -/
def State.cycAt (s : State) (cl step : Nat) : Nat := sumSteps (Config.cycles cl) s.resetAt (step - s.resetAt)

/-- Whether a cluster has issued at half width at some step of the period since the last sampling of its package: now, or by
HWPWR or SAFE at the sampling or since, by a droop hold that ended after it, or by a throttling that did. -/
def State.halfSince (s : State) (cl : Nat) : Bool :=
  let p := s.pkg (cl / 128)
  let c := s.cluster cl
  s.halfWidth cl || p.wasHalf || decide (p.sampledAt < p.halfAt) || decide (p.sampledAt < p.safeAt) ||
  decide (s.cycAt cl p.sampledAt < max (c.holdEnd.getD 0) c.holdOff) ||
  (s.string (cl / 4)).throtOff.any (fun t => decide (p.sampledAt < t))

/-- Whether a task of a class was on a cluster within the period: resident, saved since its beginning, or ended since, by the
accounts of the package, where the class is that of the launch. -/
def State.ranOn (s : State) (pkg k cl : Nat) : Bool :=
  let from_ := (s.pkg pkg).sampledAt
  s.contexts.any (fun c => !c.id.sup && clusterOf c.id.core = cl && c.reg.cls = k &&
    (match c.sched.place with
      | .slot => true
      | .frame _ => decide (from_ < c.sched.savedAt)
      | _ => false)) ||
  s.accounts.any (fun a => a.token / 2 ^ 23 / 4 = cl % 128 && a.ended.any (fun t => decide (from_ < t)) &&
    s.launches.any (fun l => l.lobj = a.lobj && l.cls = k))

/-- Whether a task of a class of a package has run at half width within the period; 8 stands for the system share. -/
def State.slowed (s : State) (pkg k : Nat) : Bool :=
  ((List.range 128).map (fun j => pkg * 128 + j)).any (fun cl => s.halfSince cl && (k = 8 || s.ranOn pkg k cl))

/-- The demands measured over the period that a ceiling computation closes: a class of which a task has run at half width in
it keeps the demand of its last period without. -/
def State.sampleDemands (s : State) (pkg : Nat) : State :=
  let p := s.pkg pkg
  s.setPkg pkg { p with
    demands := (List.range 9).map (fun k => if s.slowed pkg k then getAt p.demands k 0 else Config.demand pkg k s.now)
    sampledAt := s.now, wasHalf := s.halfPkg pkg }

/-! Meeting the ceiling (R373 to R376). -/

/-- LEASE_REVOKE: every lease of a package ended. -/
def State.revoke (s : State) (pkg : Nat) : State :=
  let held := s.contexts.filter (fun c => c.live && (match c.power.lease with
    | none => false
    | some l => decide (l.string / 32 = pkg)))
  held.foldl (fun s c => s.endLease c.id.uid) s

/-- The live tasks of a class of a package. -/
def State.classTasks (s : State) (pkg k : Nat) : List Nat :=
  (s.contexts.filter (fun c => c.live && !c.id.sup && decide (pkgOf c.id.core = pkg) && decide (c.reg.cls = k))).map
    (fun c => c.id.uid)

/-- The power state of a task changed, and its frame with it where it is saved. -/
def State.setPower (s : State) (uid : Nat) (f : Power → Power) : State :=
  let s1 := s.mapCtx uid (fun c => { c with power := f c.power })
  match s1.ctx uid with
  | none => s1
  | some c => s1.frameField uid 0x50 (powerBytes c)

/-- Shed(k): the demand of the class noted, and the 2 ms of its tasks begun. -/
def State.shedClass (s : State) (pkg k : Nat) : State :=
  let s1 := (s.ctlPutField (pkg * 4) 0x758 (32 + k) (32 + k) 1).ctlPutField (pkg * 4) (0x7C0 + 8 * k) 31 16 (s.demand pkg k)
  (s1.classTasks pkg k).foldl (fun s u => s.setPower u (fun p => { p with shedAt := some s.tstamp })) s1

/-- Where a SHED task is once its class is restored: ready as an evicted one, or with the failure that it has still to
take. -/
def Place.unshed (p : Place) : Place :=
  match p with
  | .frame (.shed none) => .frame .evicted
  | .frame (.shed (some va)) => .frame (.failed va)
  | p => p

/-- Restore(k): the class is no longer shed, so its tasks are ready again and no string is held for it. -/
def State.restoreClass (s : State) (pkg k : Nat) : State :=
  let s1 := s.ctlPutField (pkg * 4) 0x758 (32 + k) (32 + k) 0
  (s1.classTasks pkg k).foldl (fun s u =>
    (s.mapCtx u (fun c => { c with sched := { c.sched with place := c.sched.place.unshed } })).setPower u
      (fun p => { p with shedAt := none, hold := false })) s1

/-- The classes that FLOOR sheds. -/
def State.shedFloor (s : State) (pkg floor : Nat) : State :=
  [7, 6, 5, 4, 3, 2, 1].foldl (fun s k => if floor != 0 && floor ≤ k && !(s.classShed pkg k) then s.shedClass pkg k else s) s

/-- The classes that the estimate sheds, the highest first. -/
def State.shedOver (s : State) (pkg ceil : Nat) : State :=
  [7, 6, 5, 4, 3, 2, 1].foldl (fun s k =>
    if decide (ceil < s.estimate pkg) && !(s.classShed pkg k) && !(s.classTasks pkg k).isEmpty then s.shedClass pkg k else s) s

/-- The lowest shed class that may come back. -/
def State.comesBack (s : State) (pkg floor ceil : Nat) : Option Nat :=
  match [1, 2, 3, 4, 5, 6, 7].find? (fun k => s.classShed pkg k && (floor = 0 || decide (k < floor))) with
  | none => none
  | some k =>
    if (s.estimate pkg + s.ctlField (pkg * 4) (0x7C0 + 8 * k) 31 16) * 100 ≤ 95 * ceil then some k else none

/-- ShedStep. A computation that sheds restores nothing. -/
def State.shedStep (s : State) (pkg ceil : Nat) : State :=
  let floor := s.ctlField (pkg * 4) 0x748 5 3
  let s1 := (s.shedFloor pkg floor).shedOver pkg ceil
  if s1.ctlField (pkg * 4) 0x758 39 33 != s.ctlField (pkg * 4) 0x758 39 33 then s1
  else match s1.comesBack pkg floor ceil with
    | none => s1
    | some k => s1.restoreClass pkg k

/-- Whether the package is above a ceiling, as measured or as estimated. -/
def State.aboveCeiling (s : State) (pkg ceil : Nat) : Bool :=
  decide (ceil < s.ctlField (pkg * 4) 0x758 15 0) || decide (ceil < s.estimate pkg)

/-- HWPWR set. -/
def State.halve (s : State) (pkg : Nat) : State :=
  if s.ctlField (pkg * 4) 0x758 30 30 = 1 then s
  else (s.ctlPutField (pkg * 4) 0x758 30 30 1).setPkg pkg { s.pkg pkg with halfAt := s.now }

/-- A ceiling in force, and the steps that it asks for. -/
def State.meetCeiling (s : State) (pkg ceil : Nat) : State :=
  let s1 := (s.sampleDemands pkg).ctlPutField (pkg * 4) 0x748 31 16 ceil
  let s2 := if s1.aboveCeiling pkg ceil then (s1.revoke pkg).halve pkg else s1
  let s3 := (s2.shedStep pkg ceil).easeHalf pkg
  s3.setPkg pkg { s3.pkg pkg with wasHalf := s3.halfPkg pkg }

/-- What a valid frame says noted: TSTAT and GOOD. -/
def State.noteFrame (s : State) (pkg : Nat) (bs : List Byte) : State :=
  let die := pkg * 4
  let t := s.ctlGet die 0x748
  let t1 := setBits (setBits t 63 48 (fromBytes ((bs.drop 4).take 2))) 47 32 (fromBytes ((bs.drop 6).take 2))
  let t2 := setBits (setBits (setBits t1 15 8 (getAt bs 2 0).toNat) 7 7 0) 5 3 (getAt bs 3 0).toNat
  let n := s.ctlField die 0x750 63 32
  (((s.ctlSet die 0x748 t2).ctlPutField die 0x750 63 32 ((n + 1) % 2 ^ 32)).setPkg pkg { s.pkg pkg with lastFrame := s.now })

/-- TIDE_FRAME: one that is not valid is counted and discarded. -/
def execTideFrame (pkg : Nat) (bytes : List Byte) (s : State) : Host.Outcome State Fault Refusal :=
  if s.packages ≤ pkg then .next s
  else if frameValid bytes then
    let s1 := s.noteFrame pkg bytes
    .next (s1.meetCeiling pkg (s1.ceiling pkg (fromBytes ((bytes.drop 4).take 2)) (fromBytes ((bytes.drop 6).take 2))
      (fromBytes ((bytes.drop 8).take 2))))
  else
    let n := s.ctlField (pkg * 4) 0x750 31 0
    .next (s.ctlPutField (pkg * 4) 0x750 31 0 ((n + 1) % 2 ^ 32))

/-- TIDE_STALE: no valid frame for 1 ms. -/
def execTideStale (pkg : Nat) (s : State) : Host.Outcome State Fault Refusal :=
  if s.packages ≤ pkg || s.elapsed (s.pkg pkg).lastFrame < 1000000 then .next s
  else .next ((s.ctlPutField (pkg * 4) 0x748 7 7 1).ctlPutField (pkg * 4) 0x748 31 16 (s.fallback pkg))

/-- STALE_CEILING_TICK. -/
def execStaleCeilingTick (pkg : Nat) (s : State) : Host.Outcome State Fault Refusal :=
  if s.packages ≤ pkg || s.ctlField (pkg * 4) 0x748 7 7 = 0 then .next s
  else .next (s.meetCeiling pkg (s.fallback pkg))

/-- SET_POINT_STEP (R373): 50 µs after HWPWR with the package still above the ceiling, the set points fall, and any lease
is revoked; below 95 % of it they return. What SAFE lowered returns once SAFE has cleared (R377). -/
def execSetPointStep (pkg : Nat) (s : State) : Host.Outcome State Fault Refusal :=
  let p := s.pkg pkg
  let watts := s.ctlField (pkg * 4) 0x758 15 0
  let ceil := s.ctlField (pkg * 4) 0x748 31 16
  if s.packages ≤ pkg then .next s
  else
    let back : Nat := if s.ctlField (pkg * 4) 0x758 31 31 = 1 then p.safeLowered else p.safeLowered - 1
    if s.ctlField (pkg * 4) 0x758 30 30 = 1 && decide (ceil < watts) && decide (50000 ≤ s.elapsed p.halfAt) then
      .next ((s.revoke pkg).setPkg pkg { p with lowered := p.lowered + 1, safeLowered := back })
    else if watts * 100 < 95 * ceil then
      .next ((s.setPkg pkg { p with lowered := p.lowered - 1, safeLowered := back }).easeHalf pkg)
    else .next (s.setPkg pkg { p with safeLowered := back })

/-- SHED_HOLD (R375): 2 ms after the shed a resident task has met no barrier boundary. -/
def execShedHold (uid : Nat) (s : State) : Host.Outcome State Fault Refusal :=
  match s.ctx uid with
  | none => .next s
  | some c =>
    match c.power.shedAt with
    | none => .next s
    | some t => .next (if c.live && c.resident && s.classShed (pkgOf c.id.core) c.reg.cls && decide (2000000 ≤ s.tstamp - t)
        then (s.setPower uid (fun p => { p with hold := true })).easeHalf (pkgOf c.id.core) else s)

/-! The safety throttle (R377). -/

/-- An input of a package as a comparator finds it: since when it has been below 95 % of SAFELIM. -/
def State.noteInput (s : State) (pkg watts : Nat) : State :=
  let p := s.pkg pkg
  s.setPkg pkg { p with safeBelow := if watts * 100 < 95 * s.ctlField (pkg * 4) 0x760 15 0 then some (p.safeBelow.getD s.now)
    else none }

/-- Whether an input exceeds SAFELIM. -/
def State.unsafeInput (s : State) (pkg watts : Nat) : Bool := decide (s.ctlField (pkg * 4) 0x760 15 0 < watts)

/-- SAFETY_LIMIT: the 5 µs average exceeds SAFELIM. -/
def execSafetyLimit (at_ : Input) (s : State) : Host.Outcome State Fault Refusal :=
  let pkg := at_.pkg
  let watts := at_.watts
  if s.packages ≤ pkg then .next s
  else if !(s.unsafeInput pkg watts.toNat) then .next (s.noteInput pkg watts.toNat)
  else
    let die := pkg * 4
    let n := s.ctlField die 0x758 55 40
    let s1 := s.noteInput pkg watts.toNat
    .next (((s1.ctlPutField die 0x758 31 31 1).ctlPutField die 0x758 55 40 (if n = 0xFFFF then n else n + 1)).setPkg pkg
      { s1.pkg pkg with safeAt := s.now })

/-- SAFETY_SET_POINT_STEP: the input is still above SAFELIM 10 µs after SAFE. -/
def execSafetySetPointStep (at_ : Input) (s : State) : Host.Outcome State Fault Refusal :=
  let pkg := at_.pkg
  let watts := at_.watts
  if s.packages ≤ pkg then .next s
  else
    let s1 := s.noteInput pkg watts.toNat
    let p := s1.pkg pkg
    .next (if s.ctlField (pkg * 4) 0x758 31 31 = 0 || s.elapsed p.safeAt < 10000 || !(s.unsafeInput pkg watts.toNat) then s1
      else s1.setPkg pkg { p with safeLowered := p.safeLowered + 1 })

/-- SAFETY_CLEAR: the input has stayed below 95 % of SAFELIM for 1 ms. -/
def execSafetyClear (pkg : Nat) (s : State) : Host.Outcome State Fault Refusal :=
  .next (if s.packages ≤ pkg then s
    else match (s.pkg pkg).safeBelow with
      | none => s
      | some t => if s.elapsed t < 1000000 then s else s.ctlPutField (pkg * 4) 0x758 31 31 0)

/-- PKGW_REFRESH. -/
def execPkgwRefresh (pkg : Nat) (watts : BitVec 16) (s : State) : Host.Outcome State Fault Refusal :=
  .next (if s.packages ≤ pkg then s else ((s.ctlPutField (pkg * 4) 0x758 15 0 watts.toNat).noteInput pkg watts.toNat).easeHalf
    pkg)

/-- LEASE_EXPIRY (R382). -/
def execLeaseExpiry (uid : Nat) (s : State) : Host.Outcome State Fault Refusal :=
  match (s.ctx uid).bind (fun c => c.power.lease) with
  | none => .next s
  | some l => .next (if l.expiry ≤ s.tstamp then s.endLease uid else s)

/-! Energy records (R388). -/

/-- The step of the last record of a die for a token, or that of its dispatch or restore. -/
def Account.since (a : Account) (die : Nat) : Nat := tabGet a.born a.records die

/-- Whether a die has charged nothing to a token for 1 ms since its task ended. -/
def State.chargeless (s : State) (die : Nat) (a : Account) (ended : Nat) : Bool :=
  decide (1000000 ≤ s.elapsed ended) && (List.range (s.now - ended)).all (fun k =>
    decide (1000000 < s.elapsed (ended + k)) || Config.energy die a.token (ended + k) = 0)

/-- Whether a die may post a record of a kind for a token: its end once its task has ended and 1 ms has brought no charge,
an interim one every 100 ms while the task lives, a late charge once the die has posted its end. -/
def State.owes (s : State) (die kind : Nat) (a : Account) : Bool :=
  match kind, a.ended with
  | 0, some t => s.chargeless die a t && !(a.posted.contains die)
  | 1, none => decide (100000000 ≤ s.elapsed (a.since die))
  | 2, _ => a.posted.contains die && decide (0 < charged die a.token (a.since die) s.now)
  | _, _ => false

/-- ENERGY_RECORD_POST: the charges of a die to a token since its previous record. A record that finds the ring full
waits, behind those that wait already. -/
def State.postEnergy (s : State) (die token kind : Nat) : State :=
  match s.accounts.find? (fun a => a.token = token && s.owes die kind a) with
  | none => s
  | some a =>
    let bs := toBytes 8 a.lobj.toNat ++ toBytes 4 token ++ toBytes 1 kind ++ toBytes 3 0 ++
      toBytes 8 (charged die token (a.since die) s.now) ++ toBytes 8 s.tstamp
    let s1 : State := { s with accounts := s.accounts.map (fun b => if b = a then { b with
      posted := if kind = 0 then die :: b.posted else b.posted, records := tabPut b.records die s.now } else b) }
    let d := s1.die die
    (s1.setDie die { d with energyWait := d.energyWait ++ [bs] }).flushEnergy (d.energyWait.length + 1) die

/-- ENERGY_RECORD_POST. -/
def execEnergyRecordPost (die token kind : Nat) (s : State) : Host.Outcome State Fault Refusal :=
  .next (s.postEnergy die token kind)

end Sys2Proof.Machine
end

