-- ==== Sys2Proof/Machine/Strings.lean ====
section
/-! DEFINITION. Strings.lean: what the strings, the droop detectors and the idle cores do of themselves (R70 to R72, R118,
R171, R172). What the circuits measure comes with the step. -/

namespace Sys2Proof.Machine

/-! Strings (R70 to R72). -/

/-- THRESH of a string. -/
def StringSt.thresh (t : StringSt) : Nat := bitsOf t.gesso 19 10

/-- LIMIT of a string. -/
def StringSt.limit (t : StringSt) : Nat := bitsOf t.gesso 29 20

/-- The magnitudes of the imbalances of a string's nodes. -/
def StringSt.sizes (t : StringSt) : List Nat := [t.node1, t.node2, t.node3].map (fun n => n.toInt.natAbs)

/-- Since when something has held that holds now or not. -/
def sinceWhen (holds : Bool) (old : Option Nat) (now : Nat) : Option Nat := if holds then some (old.getD now) else none

/-- Cycles of a cluster's clock from a step on. -/
def State.cyclesSince (s : State) (cl since : Nat) : Nat := sumSteps (Config.cycles cl) since (s.now - since)

/-- Whether something has held for n cycles of the clock of a string's cluster 0. Cycles are counted from the refresh that
showed it first (log 98). -/
def State.heldFor (s : State) (str n : Nat) (since : Option Nat) : Bool :=
  match since with
  | none => false
  | some t => decide (n ≤ s.cyclesSince (str * 4) t)

/-- STRIMB_REFRESH: new imbalances, THROT and GACT shown as they are, and the GESSO write that waits takes effect; from now
on the imbalances are compared with its thresholds. -/
def execStrimbRefresh (str : Nat) (node1 node2 node3 : BitVec 10) (s : State) : Host.Outcome State Fault Refusal :=
  let old := s.string str
  let t : StringSt := { old with
    node1 := node1, node2 := node2, node3 := node3, gesso := old.gessoNext.getD old.gesso, gessoNext := none
    gactShown := old.gact, throtShown := old.throt }
  .next (s.setString str { t with
    above := t.sizes.mapIdx (fun k n => sinceWhen (decide (t.thresh < n)) (getAt old.above k none) s.now)
    calm := sinceWhen (t.sizes.all (fun n => decide (4 * n < 3 * t.thresh))) old.calm s.now
    below := sinceWhen (t.sizes.all (fun n => decide (n < t.thresh))) old.below s.now })

/-- GESSO_START: with EN = 1, once a node has been above THRESH for 64 cycles. -/
def execGessoStart (str : Nat) (s : State) : Host.Outcome State Fault Refusal :=
  let t := s.string str
  .next (if t.gesso.getLsbD 0 && t.above.any (s.heldFor str 64) then s.setString str { t with gact := true } else s)

/-- GESSO_STOP: once every node has been below three quarters of THRESH for 256 cycles. EN = 0 does not itself end gesso issue
that is active: the manual does not say whether it does. DESIGN CHOICE (log 126). Unsafe. -/
def execGessoStop (str : Nat) (s : State) : Host.Outcome State Fault Refusal :=
  let t := s.string str
  .next (if s.heldFor str 256 t.calm then s.setString str { t with gact := false } else s)

/-- STRING_THROTTLE: a node exceeds LIMIT. -/
def execStringThrottle (str : Nat) (s : State) : Host.Outcome State Fault Refusal :=
  let t := s.string str
  .next (if t.sizes.any (fun n => decide (t.limit < n)) then s.setString str { t with throt := true } else s)

/-- STRING_THROTTLE_END: once every node has been below THRESH for 256 cycles. -/
def execStringThrottleEnd (str : Nat) (s : State) : Host.Outcome State Fault Refusal :=
  let t := s.string str
  .next (if s.heldFor str 256 t.below then s.setString str { t with
      throt := false, throtOff := if t.throt then some s.now else t.throtOff }
    else s)

/-! Droops (R118, R172). -/

/-- Whether a supply that lies sag mV beneath the set point is below the level of a droop detector. -/
def Cluster.sags (c : Cluster) (sag : Nat) : Bool := decide (5 * bitsOf c.drpth 7 0 < sag)

/-- DROOP_EVENT: the supply falls below the level; a fall while a stretch is in progress belongs to the same event. -/
def execDroopEvent (at_ : Sag) (s : State) : Host.Outcome State Fault Refusal :=
  let c := s.cluster at_.cluster
  .next (if c.stretching || !(c.sags at_.sag) then s
    else (s.setCluster at_.cluster { c with droops := c.droops + 1, stretching := true, stretchAt := s.now }).event at_.cluster 8)

/-- STRETCH_END: the supply is back above the level (R172), not merely at it, and a hold of HOLD cycles replaces one that still runs. What HOLD 0
does to an older hold is open: it runs on (log 99). -/
def execStretchEnd (cluster sag : Nat) (s : State) : Host.Outcome State Fault Refusal :=
  let c := s.cluster cluster
  let hold := bitsOf c.drpth 31 16
  .next (if c.stretching && sag < 5 * bitsOf c.drpth 7 0 then s.setCluster cluster { c with
      stretching := false, stretch := s.stretchedSince cluster c.stretchAt
      holdEnd := if hold = 0 then c.holdEnd else some (s.cyc cluster + hold) }
    else s)

/-- HALF_WIDTH_HOLD_END: once CYC has reached the end of the hold. -/
def execHalfWidthHoldEnd (cluster : Nat) (s : State) : Host.Outcome State Fault Refusal :=
  let c := s.cluster cluster
  match c.holdEnd with
  | none => .next s
  | some e => .next (if e ≤ s.cyc cluster then s.setCluster cluster { c with holdEnd := none, holdOff := e } else s)

/-! Idle cores (R171). -/

/-- CORE_IDLE: a core none of whose slots has been ready for 256 cycles. -/
def execCoreIdle (core : Nat) (s : State) : Host.Outcome State Fault Refusal :=
  let k := s.core core
  .next (if s.coreReady core || s.cyclesSince (clusterOf core) (max k.readyAt s.resetAt) < 256 then s
    else s.setCore core { k with idle := true })

end Sys2Proof.Machine
end

