-- ==== Sys2Proof/Machine/Dispatch.lean ====
section
/-! DEFINITION. Dispatch.lean: one arm for each row of the opcode table, a direct call of its meaning. -/

namespace Sys2Proof.Machine

/-- What an instruction, or a step of the device, does. -/
def exec (i : Instr) (s : State) : Host.Outcome State Fault Refusal :=
  match i with
  | .add d a b => Sys2Proof.Machine.execAdd d a b s
  | .sub d a b => Sys2Proof.Machine.execSub d a b s
  | .and d a b => Sys2Proof.Machine.execAnd d a b s
  | .or d a b => Sys2Proof.Machine.execOr d a b s
  | .xor d a b => Sys2Proof.Machine.execXor d a b s
  | .sll d a b => Sys2Proof.Machine.execSll d a b s
  | .srl d a b => Sys2Proof.Machine.execSrl d a b s
  | .sra d a b => Sys2Proof.Machine.execSra d a b s
  | .slli d a n => Sys2Proof.Machine.execSlli d a n s
  | .srli d a n => Sys2Proof.Machine.execSrli d a n s
  | .srai d a n => Sys2Proof.Machine.execSrai d a n s
  | .mul d a b => Sys2Proof.Machine.execMul d a b s
  | .mulh d a b => Sys2Proof.Machine.execMulh d a b s
  | .mulhu d a b => Sys2Proof.Machine.execMulhu d a b s
  | .div d a b => Sys2Proof.Machine.execDiv d a b s
  | .divu d a b => Sys2Proof.Machine.execDivu d a b s
  | .rem d a b => Sys2Proof.Machine.execRem d a b s
  | .remu d a b => Sys2Proof.Machine.execRemu d a b s
  | .min d a b => Sys2Proof.Machine.execMin d a b s
  | .max d a b => Sys2Proof.Machine.execMax d a b s
  | .minu d a b => Sys2Proof.Machine.execMinu d a b s
  | .maxu d a b => Sys2Proof.Machine.execMaxu d a b s
  | .clz d a => Sys2Proof.Machine.execClz d a s
  | .ctz d a => Sys2Proof.Machine.execCtz d a s
  | .popc d a => Sys2Proof.Machine.execPopc d a s
  | .slt d a b => Sys2Proof.Machine.execSlt d a b s
  | .sltu d a b => Sys2Proof.Machine.execSltu d a b s
  | .seq d a b => Sys2Proof.Machine.execSeq d a b s
  | .lea d a b v_s => Sys2Proof.Machine.execLea d a b v_s s
  | .addi d a imm => Sys2Proof.Machine.execAddi d a imm s
  | .lih d imm => Sys2Proof.Machine.execLih d imm s
  | .lihHi d imm => Sys2Proof.Machine.execLihHi d imm s
  | .beq a b off => Sys2Proof.Machine.execBeq a b off s
  | .bne a b off => Sys2Proof.Machine.execBne a b off s
  | .blt a b off => Sys2Proof.Machine.execBlt a b off s
  | .bge a b off => Sys2Proof.Machine.execBge a b off s
  | .bltu a b off => Sys2Proof.Machine.execBltu a b off s
  | .bgeu a b off => Sys2Proof.Machine.execBgeu a b off s
  | .jal d off => Sys2Proof.Machine.execJal d off s
  | .jalLong d off => Sys2Proof.Machine.execJalLong d off s
  | .jalr d a imm => Sys2Proof.Machine.execJalr d a imm s
  | .nop hint => Sys2Proof.Machine.execNop hint s
  | .fadd d a b rnd single => Sys2Proof.Machine.execFadd d a b rnd single s
  | .fsub d a b rnd single => Sys2Proof.Machine.execFsub d a b rnd single s
  | .fmul d a b rnd single => Sys2Proof.Machine.execFmul d a b rnd single s
  | .fma d a b rnd single => Sys2Proof.Machine.execFma d a b rnd single s
  | .fdiv d a b rnd single => Sys2Proof.Machine.execFdiv d a b rnd single s
  | .fsqrt d a rnd single => Sys2Proof.Machine.execFsqrt d a rnd single s
  | .fmin d a b single => Sys2Proof.Machine.execFmin d a b single s
  | .fmax d a b single => Sys2Proof.Machine.execFmax d a b single s
  | .fcmp d a b cond single => Sys2Proof.Machine.execFcmp d a b cond single s
  | .fcvt d a sel rnd => Sys2Proof.Machine.execFcvt d a sel rnd s
  | .fclass d a single => Sys2Proof.Machine.execFclass d a single s
  | .ldB t a m off => Sys2Proof.Machine.execLdB t a m off s
  | .ldH t a m off => Sys2Proof.Machine.execLdH t a m off s
  | .ldW t a m off => Sys2Proof.Machine.execLdW t a m off s
  | .ldD t a m off => Sys2Proof.Machine.execLdD t a m off s
  | .stB t a m off => Sys2Proof.Machine.execStB t a m off s
  | .stH t a m off => Sys2Proof.Machine.execStH t a m off s
  | .stW t a m off => Sys2Proof.Machine.execStW t a m off s
  | .stD t a m off => Sys2Proof.Machine.execStD t a m off s
  | .ldBLong t a m off => Sys2Proof.Machine.execLdBLong t a m off s
  | .ldHLong t a m off => Sys2Proof.Machine.execLdHLong t a m off s
  | .ldWLong t a m off => Sys2Proof.Machine.execLdWLong t a m off s
  | .ldDLong t a m off => Sys2Proof.Machine.execLdDLong t a m off s
  | .stBLong t a m off => Sys2Proof.Machine.execStBLong t a m off s
  | .stHLong t a m off => Sys2Proof.Machine.execStHLong t a m off s
  | .stWLong t a m off => Sys2Proof.Machine.execStWLong t a m off s
  | .stDLong t a m off => Sys2Proof.Machine.execStDLong t a m off s
  | .amoAdd d a b dbl scope acqrel => Sys2Proof.Machine.execAmoAdd d a b dbl scope acqrel s
  | .amoMin d a b dbl scope acqrel => Sys2Proof.Machine.execAmoMin d a b dbl scope acqrel s
  | .amoMax d a b dbl scope acqrel => Sys2Proof.Machine.execAmoMax d a b dbl scope acqrel s
  | .amoAnd d a b dbl scope acqrel => Sys2Proof.Machine.execAmoAnd d a b dbl scope acqrel s
  | .amoOr d a b dbl scope acqrel => Sys2Proof.Machine.execAmoOr d a b dbl scope acqrel s
  | .amoXor d a b dbl scope acqrel => Sys2Proof.Machine.execAmoXor d a b dbl scope acqrel s
  | .amoSwap d a b dbl scope acqrel => Sys2Proof.Machine.execAmoSwap d a b dbl scope acqrel s
  | .amoCas d a b dbl scope acqrel => Sys2Proof.Machine.execAmoCas d a b dbl scope acqrel s
  | .amoFadd d a b bf16 scope acqrel => Sys2Proof.Machine.execAmoFadd d a b bf16 scope acqrel s
  | .redAdd a b dbl scope rel => Sys2Proof.Machine.execRedAdd a b dbl scope rel s
  | .redMin a b dbl scope rel => Sys2Proof.Machine.execRedMin a b dbl scope rel s
  | .redMax a b dbl scope rel => Sys2Proof.Machine.execRedMax a b dbl scope rel s
  | .redAnd a b dbl scope rel => Sys2Proof.Machine.execRedAnd a b dbl scope rel s
  | .redOr a b dbl scope rel => Sys2Proof.Machine.execRedOr a b dbl scope rel s
  | .redXor a b dbl scope rel => Sys2Proof.Machine.execRedXor a b dbl scope rel s
  | .redFadd a b bf16 scope rel => Sys2Proof.Machine.execRedFadd a b bf16 scope rel s
  | .fence scope wait => Sys2Proof.Machine.execFence scope wait s
  | .fenceAcq scope wait => Sys2Proof.Machine.execFenceAcq scope wait s
  | .fenceRel scope wait => Sys2Proof.Machine.execFenceRel scope wait s
  | .vld p fmt t a m off => Sys2Proof.Machine.execVld p fmt t a m off s
  | .vst p fmt t a m off => Sys2Proof.Machine.execVst p fmt t a m off s
  | .vadd p fmt d a b => Sys2Proof.Machine.execVadd p fmt d a b s
  | .vsub p fmt d a b => Sys2Proof.Machine.execVsub p fmt d a b s
  | .vmul p fmt d a b => Sys2Proof.Machine.execVmul p fmt d a b s
  | .vfma p fmt d a b => Sys2Proof.Machine.execVfma p fmt d a b s
  | .vmin p fmt d a b => Sys2Proof.Machine.execVmin p fmt d a b s
  | .vmax p fmt d a b => Sys2Proof.Machine.execVmax p fmt d a b s
  | .vabs p fmt d a => Sys2Proof.Machine.execVabs p fmt d a s
  | .vneg p fmt d a => Sys2Proof.Machine.execVneg p fmt d a s
  | .vcmpEq p fmt d a b => Sys2Proof.Machine.execVcmpEq p fmt d a b s
  | .vcmpNe p fmt d a b => Sys2Proof.Machine.execVcmpNe p fmt d a b s
  | .vcmpLt p fmt d a b => Sys2Proof.Machine.execVcmpLt p fmt d a b s
  | .vcmpLe p fmt d a b => Sys2Proof.Machine.execVcmpLe p fmt d a b s
  | .vcmpUnord p fmt d a b => Sys2Proof.Machine.execVcmpUnord p fmt d a b s
  | .vsel p fmt d a b => Sys2Proof.Machine.execVsel p fmt d a b s
  | .vand p fmt d a b => Sys2Proof.Machine.execVand p fmt d a b s
  | .vor p fmt d a b => Sys2Proof.Machine.execVor p fmt d a b s
  | .vxor p fmt d a b => Sys2Proof.Machine.execVxor p fmt d a b s
  | .vshl p fmt d a b => Sys2Proof.Machine.execVshl p fmt d a b s
  | .vshr p fmt d a b => Sys2Proof.Machine.execVshr p fmt d a b s
  | .vldg p fmt d a b => Sys2Proof.Machine.execVldg p fmt d a b s
  | .vsts p fmt d a b => Sys2Proof.Machine.execVsts p fmt d a b s
  | .vsumRow p fmt d a => Sys2Proof.Machine.execVsumRow p fmt d a s
  | .vsumCol p fmt d a => Sys2Proof.Machine.execVsumCol p fmt d a s
  | .vmaxrRow p fmt d a => Sys2Proof.Machine.execVmaxrRow p fmt d a s
  | .vmaxrCol p fmt d a => Sys2Proof.Machine.execVmaxrCol p fmt d a s
  | .vperm p fmt d a b => Sys2Proof.Machine.execVperm p fmt d a b s
  | .vrot p fmt d a b => Sys2Proof.Machine.execVrot p fmt d a b s
  | .vtrn p fmt d a => Sys2Proof.Machine.execVtrn p fmt d a s
  | .vbcast p fmt d a => Sys2Proof.Machine.execVbcast p fmt d a s
  | .vmov p fmt d a => Sys2Proof.Machine.execVmov p fmt d a s
  | .vcvt p dst src d a => Sys2Proof.Machine.execVcvt p dst src d a s
  | .vcvtSat p dst src d a => Sys2Proof.Machine.execVcvtSat p dst src d a s
  | .vshape p fmt d a b => Sys2Proof.Machine.execVshape p fmt d a b s
  | .vrint p fmt d a => Sys2Proof.Machine.execVrint p fmt d a s
  | .vexp2f p fmt d a => Sys2Proof.Machine.execVexp2f p fmt d a s
  | .vscaleb p fmt d a b => Sys2Proof.Machine.execVscaleb p fmt d a b s
  | .vrcp p fmt d a => Sys2Proof.Machine.execVrcp p fmt d a s
  | .vrsqrt p fmt d a => Sys2Proof.Machine.execVrsqrt p fmt d a s
  | .vlog2 p fmt d a => Sys2Proof.Machine.execVlog2 p fmt d a s
  | .vsinpi p fmt d a => Sys2Proof.Machine.execVsinpi p fmt d a s
  | .mand p fmt d a b => Sys2Proof.Machine.execMand p fmt d a b s
  | .mor p fmt d a b => Sys2Proof.Machine.execMor p fmt d a b s
  | .mnot p fmt d a => Sys2Proof.Machine.execMnot p fmt d a s
  | .mpop p fmt d a => Sys2Proof.Machine.execMpop p fmt d a s
  | .srd d sn => Sys2Proof.Machine.execSrd d sn s
  | .swr sn a => Sys2Proof.Machine.execSwr sn a s
  | .svc n => Sys2Proof.Machine.execSvc n s
  | .eret => Sys2Proof.Machine.execEret s
  | .trap n => Sys2Proof.Machine.execTrap n s
  | .bkpt n => Sys2Proof.Machine.execBkpt n s
  | .pkrd d a sn => Sys2Proof.Machine.execPkrd d a sn s
  | .pkwr d a sn => Sys2Proof.Machine.execPkwr d a sn s
  | .spill a => Sys2Proof.Machine.execSpill a s
  | .amapw n a => Sys2Proof.Machine.execAmapw n a s
  | .tlbinv a => Sys2Proof.Machine.execTlbinv a s
  | .cflush a => Sys2Proof.Machine.execCflush a s
  | .cinv a v_i => Sys2Proof.Machine.execCinv a v_i s
  | .capq d a => Sys2Proof.Machine.execCapq d a s
  | .spawn d a => Sys2Proof.Machine.execSpawn d a s
  | .tend a => Sys2Proof.Machine.execTend a s
  | .cancel d a b => Sys2Proof.Machine.execCancel d a b s
  | .cwait d a b => Sys2Proof.Machine.execCwait d a b s
  | .barinit d a b => Sys2Proof.Machine.execBarinit d a b s
  | .barw d a b => Sys2Proof.Machine.execBarw d a b s
  | .menter d a => Sys2Proof.Machine.execMenter d a s
  | .mexit a => Sys2Proof.Machine.execMexit a s
  | .gzbegin d => Sys2Proof.Machine.execGzbegin d s
  | .gzend d => Sys2Proof.Machine.execGzend d s
  | .gzabort a => Sys2Proof.Machine.execGzabort a s
  | .pclass d a => Sys2Proof.Machine.execPclass d a s
  | .blease d a b => Sys2Proof.Machine.execBlease d a b s
  | .msend d a b => Sys2Proof.Machine.execMsend d a b s
  | .mrecv d a b => Sys2Proof.Machine.execMrecv d a b s
  | .mpeek d sel => Sys2Proof.Machine.execMpeek d sel s
  | .gld dbl d a m off => Sys2Proof.Machine.execGld dbl d a m off s
  | .gst dbl d a m off => Sys2Proof.Machine.execGst dbl d a m off s
  | .gamoAdd dbl d a xs m off => Sys2Proof.Machine.execGamoAdd dbl d a xs m off s
  | .gamoMin dbl d a xs m off => Sys2Proof.Machine.execGamoMin dbl d a xs m off s
  | .gamoMax dbl d a xs m off => Sys2Proof.Machine.execGamoMax dbl d a xs m off s
  | .gamoAnd dbl d a xs m off => Sys2Proof.Machine.execGamoAnd dbl d a xs m off s
  | .gamoOr dbl d a xs m off => Sys2Proof.Machine.execGamoOr dbl d a xs m off s
  | .gamoXor dbl d a xs m off => Sys2Proof.Machine.execGamoXor dbl d a xs m off s
  | .gamoSwap dbl d a xs m off => Sys2Proof.Machine.execGamoSwap dbl d a xs m off s
  | .gamoCas dbl d a xs m off => Sys2Proof.Machine.execGamoCas dbl d a xs m off s
  | .gamoFadd d a xs m off => Sys2Proof.Machine.execGamoFadd d a xs m off s
  | .tld td a xs fmt m off => Sys2Proof.Machine.execTld td a xs fmt m off s
  | .tldp td pr xs fmt off => Sys2Proof.Machine.execTldp td pr xs fmt off s
  | .tst ts a xs fmt m off => Sys2Proof.Machine.execTst ts a xs fmt m off s
  | .tstp ts pr a xs fmt off => Sys2Proof.Machine.execTstp ts pr a xs fmt off s
  | .ctwr a m off => Sys2Proof.Machine.execCtwr a m off s
  | .ctswap => Sys2Proof.Machine.execCtswap s
  | .tmma td ta tb fa fb fd pa pb ra rb => Sys2Proof.Machine.execTmma td ta tb fa fb fd pa pb ra rb s
  | .tmmas td ta tb fa fb fd pa pb ra rb sp xs => Sys2Proof.Machine.execTmmas td ta tb fa fb fd pa pb ra rb sp xs s
  | .tzero td fd xs => Sys2Proof.Machine.execTzero td fd xs s
  | .tcvt td ta bank fa fd rnd sat => Sys2Proof.Machine.execTcvt td ta bank fa fd rnd sat s
  | .tadd td ta tb fd rnd => Sys2Proof.Machine.execTadd td ta tb fd rnd s
  | .tgrp td fd xs => Sys2Proof.Machine.execTgrp td fd xs s
  | .pdef pn xs xt => Sys2Proof.Machine.execPdef pn xs xt s
  | .psub pn xs xt => Sys2Proof.Machine.execPsub pn xs xt s
  | .pclaim pn xt => Sys2Proof.Machine.execPclaim pn xt s
  | .ppost pn xs => Sys2Proof.Machine.execPpost pn xs s
  | .pwfill pn xt => Sys2Proof.Machine.execPwfill pn xt s
  | .pwfree pn xs xt => Sys2Proof.Machine.execPwfree pn xs xt s
  | .ppop pn => Sys2Proof.Machine.execPpop pn s
  | .fapp d a xs off => Sys2Proof.Machine.execFapp d a xs off s
  | .fseq d a off => Sys2Proof.Machine.execFseq d a off s
  | .qclr q => Sys2Proof.Machine.execQclr q s
  | .qadd q xs xt => Sys2Proof.Machine.execQadd q xs xt s
  | .qaddf q fmt xs => Sys2Proof.Machine.execQaddf q fmt xs s
  | .qrnd q fmt rnd xs xt => Sys2Proof.Machine.execQrnd q fmt rnd xs xt s
  | .qsendQ q xs xt => Sys2Proof.Machine.execQsendQ q xs xt s
  | .qsendQ4n ta tb fa fb xs xt => Sys2Proof.Machine.execQsendQ4n ta tb fa fb xs xt s
  | .loaderJudge obj ncore => Sys2Proof.Machine.execLoaderJudge obj ncore s
  | .taskDispatch lobj => Sys2Proof.Machine.execTaskDispatch lobj s
  | .treeForward lobj node => Sys2Proof.Machine.execTreeForward lobj node s
  | .cancelMarkDescendants obj => Sys2Proof.Machine.execCancelMarkDescendants obj s
  | .taskCancelEnd uid => Sys2Proof.Machine.execTaskCancelEnd uid s
  | .taskEvict uid => Sys2Proof.Machine.execTaskEvict uid s
  | .contextRestore uid => Sys2Proof.Machine.execContextRestore uid s
  | .streamRebalance graph => Sys2Proof.Machine.execStreamRebalance graph s
  | .strimbRefresh str node1 node2 node3 => Sys2Proof.Machine.execStrimbRefresh str node1 node2 node3 s
  | .gessoStart str => Sys2Proof.Machine.execGessoStart str s
  | .gessoStop str => Sys2Proof.Machine.execGessoStop str s
  | .stringThrottle str => Sys2Proof.Machine.execStringThrottle str s
  | .stringThrottleEnd str => Sys2Proof.Machine.execStringThrottleEnd str s
  | .droopEvent at_ => Sys2Proof.Machine.execDroopEvent at_ s
  | .stretchEnd cluster sag => Sys2Proof.Machine.execStretchEnd cluster sag s
  | .halfWidthHoldEnd cluster => Sys2Proof.Machine.execHalfWidthHoldEnd cluster s
  | .coreIdle core => Sys2Proof.Machine.execCoreIdle core s
  | .pageWalk ia kind => Sys2Proof.Machine.execPageWalk ia kind s
  | .faultRecordPost die => Sys2Proof.Machine.execFaultRecordPost die s
  | .pgready page => Sys2Proof.Machine.execPgready page s
  | .pgfail page => Sys2Proof.Machine.execPgfail page s
  | .cowBreak at_ => Sys2Proof.Machine.execCowBreak at_ s
  | .epochEnd pkg promote demote => Sys2Proof.Machine.execEpochEnd pkg promote demote s
  | .regionMerge ia log => Sys2Proof.Machine.execRegionMerge ia log s
  | .postedStoreAck uid => Sys2Proof.Machine.execPostedStoreAck uid s
  | .reductionPerform uid => Sys2Proof.Machine.execReductionPerform uid s
  | .reductionAck uid => Sys2Proof.Machine.execReductionAck uid s
  | .forcedPublish uid => Sys2Proof.Machine.execForcedPublish uid s
  | .easelCommandComplete easel tag => Sys2Proof.Machine.execEaselCommandComplete easel tag s
  | .reservationSquash uid rob => Sys2Proof.Machine.execReservationSquash uid rob s
  | .easelSquash easel core slot rob gen => Sys2Proof.Machine.execEaselSquash easel core slot rob gen s
  | .easelDiscard easel tag => Sys2Proof.Machine.execEaselDiscard easel tag s
  | .tileStoreDrain uid => Sys2Proof.Machine.execTileStoreDrain uid s
  | .ringDelivery cluster ring sub => Sys2Proof.Machine.execRingDelivery cluster ring sub s
  | .ringClaimGrant cluster ring => Sys2Proof.Machine.execRingClaimGrant cluster ring s
  | .ferryCopy chain seq => Sys2Proof.Machine.execFerryCopy chain seq s
  | .ferryGather chain seq => Sys2Proof.Machine.execFerryGather chain seq s
  | .ferryScatter chain seq => Sys2Proof.Machine.execFerryScatter chain seq s
  | .ferryFill chain seq => Sys2Proof.Machine.execFerryFill chain seq s
  | .ferryRingput chain seq => Sys2Proof.Machine.execFerryRingput chain seq s
  | .ferryReduce chain seq => Sys2Proof.Machine.execFerryReduce chain seq s
  | .ferryGcopy chain seq => Sys2Proof.Machine.execFerryGcopy chain seq s
  | .ferryCommandComplete chain => Sys2Proof.Machine.execFerryCommandComplete chain s
  | .chainIdle chain => Sys2Proof.Machine.execChainIdle chain s
  | .user dest msg => Sys2Proof.Machine.execUser dest msg s
  | .ferryDone dest msg => Sys2Proof.Machine.execFerryDone dest msg s
  | .spawnMessage core msg => Sys2Proof.Machine.execSpawnMessage core msg s
  | .blocksum dest msg => Sys2Proof.Machine.execBlocksum dest msg s
  | .messageRingWrite dest msg => Sys2Proof.Machine.execMessageRingWrite dest msg s
  | .post core header => Sys2Proof.Machine.execPost core header s
  | .hostBar0Access pkg acc => Sys2Proof.Machine.execHostBar0Access pkg acc s
  | .globalRequest req => Sys2Proof.Machine.execGlobalRequest req s
  | .glazePreemptExpiry uid => Sys2Proof.Machine.execGlazePreemptExpiry uid s
  | .pendingEdgeRelease uid => Sys2Proof.Machine.execPendingEdgeRelease uid s
  | .glazeCommit uid => Sys2Proof.Machine.execGlazeCommit uid s
  | .tlbinvComplete ia kind => Sys2Proof.Machine.execTlbinvComplete ia kind s
  | .deliverTrap uid cause info => Sys2Proof.Machine.execDeliverTrap uid cause info s
  | .safeSpillTimeout uid => Sys2Proof.Machine.execSafeSpillTimeout uid s
  | .machineCheckError key corrected unit syndrome => Sys2Proof.Machine.execMachineCheckError key corrected unit syndrome s
  | .tideFrame pkg bytes => Sys2Proof.Machine.execTideFrame pkg bytes s
  | .tideStale pkg => Sys2Proof.Machine.execTideStale pkg s
  | .staleCeilingTick pkg => Sys2Proof.Machine.execStaleCeilingTick pkg s
  | .setPointStep pkg => Sys2Proof.Machine.execSetPointStep pkg s
  | .shedHold uid => Sys2Proof.Machine.execShedHold uid s
  | .safetyLimit at_ => Sys2Proof.Machine.execSafetyLimit at_ s
  | .safetySetPointStep at_ => Sys2Proof.Machine.execSafetySetPointStep at_ s
  | .safetyClear pkg => Sys2Proof.Machine.execSafetyClear pkg s
  | .pkgwRefresh pkg watts => Sys2Proof.Machine.execPkgwRefresh pkg watts s
  | .leaseExpiry uid => Sys2Proof.Machine.execLeaseExpiry uid s
  | .energyRecordPost die token kind => Sys2Proof.Machine.execEnergyRecordPost die token kind s
  | .cwaitTimeout uid => Sys2Proof.Machine.execCwaitTimeout uid s
  | .mrecvTimeout uid => Sys2Proof.Machine.execMrecvTimeout uid s
  | .voldinFlit port body crc => Sys2Proof.Machine.execVoldinFlit port body crc s
  | .packageReset => Sys2Proof.Machine.execPackageReset s
  | .atelierBoot pkg image => Sys2Proof.Machine.execAtelierBoot pkg image s
  | .supervisorRestart core => Sys2Proof.Machine.execSupervisorRestart core s
  | .getVersion r => Sys2Proof.Machine.execGetVersion r s
  | .getCapabilities r => Sys2Proof.Machine.execGetCapabilities r s
  | .negotiateAlgorithms r => Sys2Proof.Machine.execNegotiateAlgorithms r s
  | .getDigests r => Sys2Proof.Machine.execGetDigests r s
  | .getCertificate r => Sys2Proof.Machine.execGetCertificate r s
  | .challenge r => Sys2Proof.Machine.execChallenge r s
  | .getMeasurements r => Sys2Proof.Machine.execGetMeasurements r s
  | .registerWrite place value => Sys2Proof.Machine.execRegisterWrite place value s
  | .schedulerPreEmption uid => Sys2Proof.Machine.execSchedulerPreEmption uid s
  | .failedRoute port key => Sys2Proof.Machine.execFailedRoute port key s
  | .cxlMemAccess acc => Sys2Proof.Machine.execCxlMemAccess acc s

end Sys2Proof.Machine
end

