-- ==== Sys2Proof/Machine/Turns.lean ====
section
/-! DEFINITION. Turns.lean: what one step of the machine does: an instruction of a context, or a step of the device. -/

namespace Sys2Proof.Machine

/-- Work that is due, done by the meaning of its row. -/
def Duty.perform (d : Duty) (s : State) : Host.Outcome State Fault Refusal :=
  match d with
  | .treeForward lobj node => execTreeForward lobj node s
  | .cancelMark obj => execCancelMarkDescendants obj s
  | .cancelEnd uid => execTaskCancelEnd uid s
  | .faultRecord die => execFaultRecordPost die s
  | .postedAck uid => execPostedStoreAck uid s
  | .redPerform uid => execReductionPerform uid s
  | .redAck uid => execReductionAck uid s
  | .tileDrain uid => execTileStoreDrain uid s
  | .ferry chain seq => .next (s.ferryStep none chain seq)
  | .ferryComplete chain => execFerryCommandComplete chain s
  | .chainIdle chain => execChainIdle chain s
  | .spawnMessage core => .next (s.spawnAgent core)
  | .easelComplete easel tag => execEaselCommandComplete easel tag s
  | .easelDiscard easel tag => execEaselDiscard easel tag s
  | .easelSquash easel core slot rob gen => execEaselSquash easel core slot rob gen s

/-- The instruction at the program counter of the context whose turn it is: fetched, decoded and executed. -/
def State.instruction (s : State) : Host.Outcome State Fault Refusal :=
  match fetch s with
  | .error e s1 => .next (s1.stopped e)
  | .ok i s1 => exec i s1

/-- A turn of a context: what is due at its boundary, or its next instruction. One that cannot run loses its turn. -/
def State.turnOf (s : State) (uid : Nat) : Host.Outcome State Fault Refusal :=
  let s1 := s.bring uid
  if s1.cur.id.uid = uid && s1.cur.runnable && !(s1.stalled s1.cur) then
    let s2 := if s1.waitOver s1.cur then s1.served s1.cur.id.core else s1
    match s2.boundary with
    | some s3 => .next s3
    | none => s2.instruction
  else .next s

/-- Messages that wait in the network placed, where some now can be. -/
def State.carry (s : State) : Option State :=
  match s.net with
  | [] => none
  | _ :: _ =>
    let s1 := s.flushNet
    if s1.net.length < s.net.length then some s1 else none

/-- A step where the outside lays nothing down: work that is due, messages that can be placed, a restore or a dispatch,
then the next context in the line, and otherwise nothing. -/
def State.natural (s : State) : Host.Outcome State Fault Refusal :=
  match s.agenda with
  | d :: rest => d.perform { s with agenda := rest }
  | [] =>
    match s.carry with
    | some s1 => .next s1
    | none =>
      match s.schedule with
      | some s1 => .next s1
      | none =>
        match s.nextUp with
        | some uid => s.turnOf uid
        | none => .next s

/-- A step: what the outside lays down (log 8), or what comes of itself. -/
def State.oneStep (s : State) : Host.Outcome State Fault Refusal :=
  match s.turns with
  | .event i :: rest => exec i { s with turns := rest }
  | .run uid :: rest => ({ s with turns := rest } : State).turnOf uid
  | [] => s.natural

/-! The first instruction after reset. -/

/-- A range register that maps addresses from 0 to the lagoon of die 0, with every permission (R175, R177). -/
def lagoonRange : BitVec 128 := BitVec.ofNat 128 (0x1F + 2 ^ 87 + 0x10000000000000 / 2 ^ 25 * 2 ^ 56)

/-- A user context in slot 0 of core 0 whose program counter is at address 0 of that range. -/
def starter : Context :=
  let c := Context.reset 0 0 0 false
  { c with reg := { c.reg with amap := c.reg.amap.set 0 lagoonRange } }

/-- A machine whose next turn is the starter's, with an instruction at its program counter. -/
def State.placed (s : State) (w : Nat) : State :=
  { s with
    cur := starter
    others := []
    agenda := []
    turns := []
    launches := []
    mem := cellsSet s.mem 0x10000000000000 (toBytes 8 w) }

end Sys2Proof.Machine
end

