-- ==== Sys2Proof/Machine/Step.lean ====
section
/-! DEFINITION. Step.lean: the step, and how the host lays down one instruction. -/

namespace Sys2Proof.Machine

/-- One step of the machine. -/
def step (s : State) : Host.Outcome State Fault Refusal := s.tick.oneStep

/-- s with an instruction of nbits bits stored where step fetches next (log 1). -/
def State.withFetchWord (s : State) (nbits w : Nat) : State := s.placed (w % 2 ^ (min nbits 64))

end Sys2Proof.Machine
end

