-- ==== Sys2Proof/WellFormed.lean ====
section
/-! DEFINITION. WellFormed.lean: the instructions that pass the decode checks 3 and 4 of R97, and the rows that are
instructions with an encoding (the others are steps of the device). -/

namespace Sys2Proof

/-- No reserved value in a defined field, and every format accepted (R94, R97). -/
def wellFormed (i : Instr) : Bool := checkFields i = none

/-- The row is an instruction with parcels of its own, and not a step of the device. -/
def encodable (i : Instr) : Bool := !(encode i).isEmpty

end Sys2Proof
end

