-- ==== Sys2Proof/Certificates/Slice0/Terms.lean ====
section
/-! DEFINITION. Terms.lean: the words in which the obligations speak of an instruction: what stands beside the context
whose turn it is, what an instruction leaves when it has retired or trapped, and when nothing holds it up. -/

namespace Sys2Proof.Machine

/-! Frames. -/

/-- Every cluster holds what it held, but for its event counters. -/
def Counting (s t : State) : Prop := ∀ k, { t.cluster k with counters := [] } = { s.cluster k with counters := [] }

/-- Nothing has changed but the context whose turn it is and event counters. -/
def Beside (s t : State) : Prop := { t with cur := s.cur, clusters := s.clusters } = s ∧ Counting s t

/-- A machine with the notes of another that memory keeps beside its bytes: the values that bytes have held, promises of
invariant loads, releases and flushes of lines, and watched objects (R56, R100, R197, R298, R304). -/
def State.withNotes (t s : State) : State :=
  { t with
    history := s.history, promised := s.promised, broken := s.broken, narrow := s.narrow, flushes := s.flushes
    objects := s.objects }

/-- Nothing has changed but the context whose turn it is, event counters, bytes of memory with the notes that memory keeps
beside them, and the poison that a store covers. -/
def BesideMemory (s t : State) : Prop :=
  { t.withNotes s with cur := s.cur, clusters := s.clusters, mem := s.mem, poison := s.poison } = s ∧ Counting s t

/-- The context whose turn it is has retired an instruction and holds registers r: the number of its next instruction
is one more, and it waits for nothing new; of what else it holds nothing has changed but what the model notes of its
acquires and of the reach of its fences. -/
def Retired (s t : State) (r : Regs) : Prop :=
  t.cur = { s.cur with
    reg := r, id := { s.cur.id with rob := s.cur.id.rob + 1 }, order := t.cur.order, sync := t.cur.sync } ∧
  (t.cur.sync = s.cur.sync ∨ t.cur.sync = { s.cur.sync with wait := .none, grant := none })

/-- An instruction that writes registers alone has retired. -/
def Finishes (s t : State) (r : Regs) : Prop := Retired s t r ∧ Beside s t

/-- Bytes stand at a location, and every other byte of memory is as before. -/
def Stored (s t : State) (loc : Nat) (bs : List Byte) : Prop :=
  t.bytesAt loc bs.length = bs ∧ ∀ a, a < loc ∨ loc + bs.length ≤ a → cellGet t.mem a = cellGet s.mem a

/-- An instruction that writes registers and the bytes at a location has retired. -/
def FinishesStore (s t : State) (r : Regs) (loc : Nat) (bs : List Byte) : Prop :=
  Retired s t r ∧ BesideMemory s t ∧ Stored s t loc bs

/-! Registers. -/

/-- An x register as an operand: x0 reads zero (R76). -/
def State.arg (s : State) (a : XReg) : Word := if a = 0 then 0 else s.cur.reg.x[a]

/-- Registers with one x register written: a write to x0 is discarded (R76). -/
def Regs.put (r : Regs) (d : XReg) (w : Word) : Regs := if d = 0 then r else { r with x := r.x.set d w }

/-- Registers with the program counter moved on by n bytes. -/
def Regs.step (r : Regs) (n : Nat) : Regs := { r with pc := r.pc + BitVec.ofNat 64 n }

/-- The registers of the context whose turn it is with x[d] written and the program counter n bytes on. -/
def State.gpr (s : State) (d : XReg) (w : Word) (n : Nat) : Regs := (s.cur.reg.put d w).step n

/-- Registers with flags OR'ed into FPS. -/
def Regs.flag (r : Regs) (f : Flags) : Regs := { r with fps := r.fps ||| f.zeroExtend 64 }

/-! When nothing holds an instruction up. -/

/-- No other context bears the number of the one whose turn it is. -/
def Alone (s : State) : Prop := ∀ c ∈ s.others, c.id.uid ≠ s.cur.id.uid

/-- The context whose turn it is stands in a slot outside any glaze, none of its accesses is in flight or has failed, and
no line has a release noted that is narrower than system but its own (R304). -/
def Still (s : State) : Prop :=
  s.cur.sched.place = .slot ∧ s.cur.sync.region = none ∧ s.cur.io.posted = [] ∧ s.cur.io.reds = [] ∧
    s.cur.io.drains = [] ∧ s.cur.io.late = [] ∧ ∀ r ∈ s.narrow, r.uid = s.cur.id.uid

/-- And no flags of its reductions are deferred. -/
def Calm (s : State) : Prop := Still s ∧ s.cur.io.deferred = 0

/-- No capability list lies within an object's 64 bytes at a location, where contexts may not write (R25). -/
abbrev Writable (s : State) (loc : Nat) : Prop := s.readOnly loc 64 = false

/-- A virtual address reaches a location of memory for an access of a kind: a range permits it, its IA is one of
pageable memory, a lagoon, a palette or the core's own TCM, the memory side answers at once, and what is to be written
there is no capability list. -/
def Reaches (s : State) (k : Access) (va ia loc : Nat) : Prop :=
  va < 2 ^ 60 ∧ s.cur.mapVa k va = .ok ia ∧ s.atomicAt ia s.cur.id.core = true ∧
    s.meet ia k s.cur.token = (.ok loc, s) ∧ (k = .write ∨ k = .atomic → Writable s loc)

/-- The invariant loads of a task may rely on n bytes at a location: nothing has written them since it started, and no
promise about them has been broken (R197, R305). -/
def Promised (s : State) (loc n : Nat) : Prop :=
  ∀ a, loc ≤ a → a < loc + n → a ∉ s.broken ∧ ∀ v ∈ s.versions a, v.step ≤ s.cur.order.began

/-- A machine without what a load of memory attributes has promised, if it is an invariant one. -/
def State.unpromised (t s : State) (m : MemAttr) : State :=
  if m.cls = 2 then { t with promised := s.promised, broken := s.broken } else t

/-- The machine once the context whose turn it is has released at a scope: the reach of its last fence ends (R304), and its
flushes of lines are released (R100). -/
def State.released (s : State) (scope : Nat) : State :=
  ({ s with cur := { s.cur with order := { s.cur.order with fenced := none } } } : State).releaseFlushes s.cur.id.uid
    s.cur.id.core scope s.now

/-- No watched object lies within n bytes at an IA, and no live region has touched them. -/
def Plain (s : State) (ia n : Nat) : Prop :=
  (∀ o ∈ s.objects, ¬(o.1 < ia + n ∧ ia < o.1 + 64)) ∧ s.touchedBy none ia n = false

/-! Traps (R340 to R345). -/

/-- A trap of the context whose turn it is goes to the supervisor of its core: it is a user context in a slot outside
any glaze, no engine command of it is in flight, it has no place at a code table, and the supervisor has not met
a double fault. -/
def TrapReady (s : State) : Prop :=
  s.cur.id.sup = false ∧ s.cur.sched.place = .slot ∧ s.cur.sync.region = none ∧ Alone s ∧
    s.commandsOf s.cur.id.uid = [] ∧ (s.core s.cur.id.core).dead = false ∧
    ∀ p ∈ s.clusters, ∀ o ∈ p.2.table, o.uid ≠ s.cur.id.uid

/-- ECAUSE of a trap outside a glaze that is not late (R343). -/
def trapWord (cause slot depth : Nat) (long : Bool) : Word :=
  BitVec.ofNat 64 (cause % 2 ^ 8 + slot % 8 * 2 ^ 8 + long.toNat * 2 ^ 11 + depth % 4 * 2 ^ 12)

/-- Nothing has changed but the context whose turn it is and the trap queue of its core. -/
def BesideQueue (s t : State) : Prop :=
  { t with cur := s.cur, cores := s.cores } = s ∧
  { t.core s.cur.id.core with traps := (s.core s.cur.id.core).traps } = s.core s.cur.id.core ∧
  ∀ k, k ≠ s.cur.id.core → t.core k = s.core k

/-- The context whose turn it is has trapped at an instruction, long or not: it is parked with ECAUSE, EPCX and EADDR
written and the program counter at its resume address, and its record stands last in the trap queue of its core. -/
def TrapsAt (s t : State) (long : Bool) (cause depth : Nat) (epcx eaddr pc : Word) : Prop :=
  let ec := trapWord cause s.cur.id.slot depth long
  t.cur = { s.cur with
    reg := { s.cur.reg with ecause := ec, epcx := epcx, eaddr := eaddr, pc := pc, edepth := depth }
    sched := { s.cur.sched with parked := true }
    sync := { s.cur.sync with wait := .none, grant := none } } ∧
  (t.core s.cur.id.core).traps = (s.core s.cur.id.core).traps ++ [⟨s.cur.id.uid, false, ec, epcx, eaddr⟩] ∧
  BesideQueue s t

/-- It has trapped at the instruction in issue. -/
def Traps (s t : State) (cause depth : Nat) (epcx eaddr pc : Word) : Prop :=
  TrapsAt s t s.cur.long cause depth epcx eaddr pc

/-! System registers (R70, R71, R111 to R118, R336, R343, R355). -/

/-- What a system register of a context holds, and none for a number that R111 does not list. -/
def State.systemRow (s : State) (c : Context) (n : Nat) : Option Word :=
  let r := c.reg
  let k := c.id.core / 4
  let v := s.cluster k
  let str := s.string (k / 4)
  let count (k : PostKind) : Word := BitVec.ofNat 64
    ((c.io.posted.filter (fun p => p.kind = k)).length + (c.io.drains.filter (fun d => d.counted = some k)).length)
  match n with
  | 0x00 => some r.shape
  | 0x01 => some r.fps
  | 0x02 => some (BitVec.ofNat 64 s.tstamp)
  | 0x03 => some (BitVec.ofNat 64 (s.cyc k))
  | 0x04 => some r.tcoord
  | 0x05 => some r.tlaunch
  | 0x06 => some (BitVec.ofNat 64 r.cls)
  | 0x07 => some v.drpth
  | 0x08 =>
    let cycles := if v.stretching then s.stretchedSince k v.stretchAt else v.stretch
    some (v.droops ++ BitVec.ofNat 8 (min cycles 255) ++ (0 : BitVec 7) ++ BitVec.ofBool (s.halfWidth k) ++
      BitVec.ofNat 16 (s.holdLeft k))
  | 0x09 => some ((0 : BitVec 32) ++ BitVec.ofBool str.throtShown ++ BitVec.ofBool str.gactShown ++ str.node3 ++ str.node2 ++
      str.node1)
  | 0x0A => some (str.gessoNext.getD str.gesso)
  | 0x0B => some (count .d)
  | 0x0C => some (count .p)
  | 0x0D => some (count .f)
  | 0x0E => some (if c.sync.region.isSome then s.gzstat c else r.gzstat)
  | 0x0F => some r.ecause
  | 0x10 => some r.epcx
  | 0x11 => some r.eaddr
  | 0x12 => some r.spillbase
  | 0x13 => some (tabGet 0 s.capbase (c.id.core / 512))
  | 0x14 => some ((0 : BitVec 32) ++ v.swaps ++ (0 : BitVec 15) ++ BitVec.ofBool v.bank)
  | _ =>
    if 0x20 ≤ n ∧ n < 0x30 then some (r.sg[Fin.ofNat 16 n]).base
    else if 0x30 ≤ n ∧ n < 0x40 then some (r.sg[Fin.ofNat 16 n]).limit
    else none

/-- ROWS and COLS that SHAPE may hold (R112). -/
def ShapeOk (w : Word) : Prop :=
  let rows := (w.extractLsb' 16 16).toNat
  let cols := (w.extractLsb' 0 16).toNat
  w.extractLsb' 32 32 = 0 ∧ 1 ≤ rows ∧ 1 ≤ cols ∧ rows * cols ≤ 1024

/-- GESSO as a write of w leaves it (R71). -/
def gessoOf (w : Word) : Word :=
  let limit := w.extractLsb' 20 10
  let thresh := w.extractLsb' 10 10
  if thresh = 0 ∨ limit.toNat < thresh.toNat ∨ 300 < limit.toNat then
    (0 : BitVec 34) ++ (280 : BitVec 10) ++ (200 : BitVec 10) ++ (0 : BitVec 9) ++ w.extractLsb' 0 1
  else (0 : BitVec 34) ++ limit ++ thresh ++ (0 : BitVec 9) ++ w.extractLsb' 0 1

/-- What a supervisor's SWR of w leaves in a register of its own that R111 lets it write beside SHAPE and FPS: the
registers afterwards (R343, R355). -/
def Regs.sysPut (r : Regs) (n : Nat) (w : Word) : Option Regs :=
  match n with
  | 0x0F => some { r with ecause := (0 : BitVec 40) ++ r.ecause.extractLsb' 20 4 ++ (0 : BitVec 2) ++
      (if 2 ≤ (w.extractLsb' 16 2).toNat then (1 : BitVec 2) else w.extractLsb' 16 2) ++ w.extractLsb' 0 16 }
  | 0x10 => some { r with epcx := w }
  | 0x11 => some { r with eaddr := w }
  | 0x12 => some { r with spillbase := (0 : BitVec 8) ++ w.extractLsb' 12 44 ++ (0 : BitVec 12) }
  | _ =>
    let k : Fin 16 := Fin.ofNat 16 n
    if 0x20 ≤ n ∧ n < 0x30 then some { r with sg := r.sg.set k { r.sg[k] with base := w } }
    else if 0x30 ≤ n ∧ n < 0x40 then some { r with sg := r.sg.set k { r.sg[k] with limit := w } }
    else none

/-! Results of the integer instructions (R123 to R126). -/

/-- The register that an integer instruction writes, its value and the instruction's bytes. -/
def State.integerRow (s : State) (i : Instr) : Option (XReg × Word × Nat) :=
  let u (a : XReg) : Nat := (s.arg a).toNat
  let n (a : XReg) : Int := (s.arg a).toInt
  let nat (k : Nat) : Word := BitVec.ofNat 64 k
  let int (k : Int) : Word := BitVec.ofInt 64 k
  match i with
  | .add d a b => some (d, nat (u a + u b), 4)
  | .sub d a b => some (d, int (n a - n b), 4)
  | .and d a b => some (d, s.arg a &&& s.arg b, 4)
  | .or d a b => some (d, s.arg a ||| s.arg b, 4)
  | .xor d a b => some (d, s.arg a ^^^ s.arg b, 4)
  | .sll d a b => some (d, nat (u a * 2 ^ (u b % 64)), 4)
  | .srl d a b => some (d, nat (u a / 2 ^ (u b % 64)), 4)
  | .sra d a b => some (d, int (n a / 2 ^ (u b % 64)), 4)
  | .slli d a k => some (d, nat (u a * 2 ^ k.val), 4)
  | .srli d a k => some (d, nat (u a / 2 ^ k.val), 4)
  | .srai d a k => some (d, int (n a / 2 ^ k.val), 4)
  | .mul d a b => some (d, nat (u a * u b), 4)
  | .mulh d a b => some (d, int (n a * n b / 2 ^ 64), 4)
  | .mulhu d a b => some (d, nat (u a * u b / 2 ^ 64), 4)
  | .div d a b => some (d, if u b = 0 then nat (2 ^ 64 - 1) else int ((n a).tdiv (n b)), 4)
  | .divu d a b => some (d, if u b = 0 then nat (2 ^ 64 - 1) else nat (u a / u b), 4)
  | .rem d a b => some (d, if u b = 0 then s.arg a else int (n a - n b * (n a).tdiv (n b)), 4)
  | .remu d a b => some (d, if u b = 0 then s.arg a else nat (u a % u b), 4)
  | .min d a b => some (d, int (Min.min (n a) (n b)), 4)
  | .max d a b => some (d, int (Max.max (n a) (n b)), 4)
  | .minu d a b => some (d, nat (Min.min (u a) (u b)), 4)
  | .maxu d a b => some (d, nat (Max.max (u a) (u b)), 4)
  | .slt d a b => some (d, if n a < n b then 1 else 0, 4)
  | .sltu d a b => some (d, if u a < u b then 1 else 0, 4)
  | .seq d a b => some (d, if u a = u b then 1 else 0, 4)
  | .lea d a b k => some (d, nat (u a + u b * 2 ^ k.val), 4)
  | .addi d a imm => some (d, int (n a + imm.toInt), 4)
  | .lih d imm => some (d, int imm.toInt, 8)
  | .lihHi d imm => some (d, nat (imm.toNat * 2 ^ 32 + u d % 2 ^ 32), 8)
  | _ => none

/-! Branches and jumps (R127, R128). -/

/-- A conditional branch: whether it is taken, and its offset in parcels. -/
def State.branchRow (s : State) (i : Instr) : Option (Bool × Int) :=
  let u (a : XReg) : Nat := (s.arg a).toNat
  let n (a : XReg) : Int := (s.arg a).toInt
  match i with
  | .beq a b off => some (decide (u a = u b), off.toInt)
  | .bne a b off => some (decide (u a ≠ u b), off.toInt)
  | .blt a b off => some (decide (n a < n b), off.toInt)
  | .bge a b off => some (decide (n b ≤ n a), off.toInt)
  | .bltu a b off => some (decide (u a < u b), off.toInt)
  | .bgeu a b off => some (decide (u b ≤ u a), off.toInt)
  | _ => none

/-- A jump: its target, its link register and the instruction's bytes. -/
def State.jumpRow (s : State) (i : Instr) : Option (Word × XReg × Nat) :=
  match i with
  | .jal d off => some (BitVec.ofInt 64 (s.cur.reg.pc.toNat + off.toInt * 4), d, 4)
  | .jalLong d off => some (BitVec.ofInt 64 (s.cur.reg.pc.toNat + off.toInt * 4), d, 8)
  | .jalr d a imm => some (BitVec.ofInt 64 ((s.arg a).toNat + imm.toInt), d, 4)
  | _ => none

/-! Scalar floating point (R130 to R137). -/

/-- ResolveMode (R131): RND, or FPS.RND where RND is 0; SR is RNE where the result is not narrowed. -/
def State.roundMode (s : State) (rnd : Fin 8) (narrowing : Bool) : Nat :=
  let m := if rnd = 0 then (s.cur.reg.fps.extractLsb' 9 3).toNat else rnd.val
  if m = 6 ∧ narrowing = false then 1 else m

/-- Registers with FPS.LFSR stepped once (R44). -/
def Regs.stepLfsr (r : Regs) : Regs :=
  { r with fps := lfsrStep (r.fps.extractLsb' 32 32) ++ r.fps.extractLsb' 0 32 }

/-- A scalar floating-point instruction: the registers it starts from, the register it writes, the pattern and the
flags. -/
def State.floatRow (s : State) (i : Instr) : Option (Regs × XReg × Nat × Flags) :=
  let f (p : Bool) : FpFmt := if p then FP32 else FP64
  let v (p : Bool) (a : XReg) : Nat := (s.arg a).toNat % (if p then 2 ^ 32 else 2 ^ 64)
  let r := s.cur.reg
  match i with
  | .fadd d a b rnd p => some (r, d, fpAdd (f p) (s.roundMode rnd false) (v p a) (v p b))
  | .fsub d a b rnd p => some (r, d, fpSub (f p) (s.roundMode rnd false) (v p a) (v p b))
  | .fmul d a b rnd p => some (r, d, fpMul (f p) (s.roundMode rnd false) (v p a) (v p b))
  | .fma d a b rnd p => some (r, d, fpFma (f p) (s.roundMode rnd false) (v p a) (v p b) (v p d))
  | .fdiv d a b rnd p => some (r, d, fpDiv (f p) (s.roundMode rnd false) (v p a) (v p b))
  | .fsqrt d a rnd p => some (r, d, fpSqrt (f p) (s.roundMode rnd false) (v p a))
  | .fmin d a b p => some (r, d, fpMin (f p) (v p a) (v p b))
  | .fmax d a b p => some (r, d, fpMax (f p) (v p a) (v p b))
  | .fcmp d a b cond p =>
    let c := fpCmp (f p) cond.val (v p a) (v p b)
    some (r, d, c.1.toNat, c.2)
  | .fclass d a p => some (r, d, 2 ^ fpClass (f p) (v p a), 0)
  | .fcvt d a sel rnd =>
    let mode := s.roundMode rnd (sel.val = 6 || sel.val = 8)
    some (if mode = 6 then r.stepLfsr else r, d, fcvtOp sel.val mode (lfsrStep (r.fps.extractLsb' 32 32)) (s.arg a))
  | _ => none

/-! Loads, stores, atomics and reductions (R191 to R216). -/

/-- A virtual address maps to a place with an atomic unit: ordinary memory. -/
def Maps (s : State) (k : Access) (va ia : Nat) : Prop :=
  va < 2 ^ 60 ∧ s.cur.mapVa k va = .ok ia ∧ s.atomicAt ia s.cur.id.core = true

/-- A scalar load or store: register, base, attributes, offset in bytes, bytes accessed, the instruction's bytes. -/
structure AccessForm where
  t : XReg
  a : XReg
  m : MemAttr
  off : Int
  n : Nat
  len : Nat

/-- The scalar loads: OFF9 is scaled by the size, OFF19 counts bytes (R75, R191). -/
def loadRow (i : Instr) : Option AccessForm :=
  match i with
  | .ldB t a m off => some ⟨t, a, m, off.toInt, 1, 4⟩
  | .ldH t a m off => some ⟨t, a, m, off.toInt * 2, 2, 4⟩
  | .ldW t a m off => some ⟨t, a, m, off.toInt * 4, 4, 4⟩
  | .ldD t a m off => some ⟨t, a, m, off.toInt * 8, 8, 4⟩
  | .ldBLong t a m off => some ⟨t, a, m, off.toInt, 1, 8⟩
  | .ldHLong t a m off => some ⟨t, a, m, off.toInt, 2, 8⟩
  | .ldWLong t a m off => some ⟨t, a, m, off.toInt, 4, 8⟩
  | .ldDLong t a m off => some ⟨t, a, m, off.toInt, 8, 8⟩
  | _ => none

/-- The scalar stores. -/
def storeRow (i : Instr) : Option AccessForm :=
  match i with
  | .stB t a m off => some ⟨t, a, m, off.toInt, 1, 4⟩
  | .stH t a m off => some ⟨t, a, m, off.toInt * 2, 2, 4⟩
  | .stW t a m off => some ⟨t, a, m, off.toInt * 4, 4, 4⟩
  | .stD t a m off => some ⟨t, a, m, off.toInt * 8, 8, 4⟩
  | .stBLong t a m off => some ⟨t, a, m, off.toInt, 1, 8⟩
  | .stHLong t a m off => some ⟨t, a, m, off.toInt, 2, 8⟩
  | .stWLong t a m off => some ⟨t, a, m, off.toInt, 4, 8⟩
  | .stDLong t a m off => some ⟨t, a, m, off.toInt, 8, 8⟩
  | _ => none

/-- An instruction that leaves an access in flight has retired: the context has the registers r and the accesses io,
work of the device has been laid down, and nothing else has changed but event counters and the notes of fences. -/
def Leaves (s t : State) (r : Regs) (io : InFlight) (work : List Duty) : Prop :=
  t.cur = { s.cur with
    reg := r, io := io, id := { s.cur.id with rob := s.cur.id.rob + 1 }, order := t.cur.order
    sync := { s.cur.sync with wait := .none, grant := none } } ∧
  { t with cur := s.cur, clusters := s.clusters, agenda := s.agenda, flushes := s.flushes } = s ∧ Counting s t ∧
  t.agenda = s.agenda ++ work

/-- What an access that has retired waits for before it is performed, by its WAIT field, whether it is a release and of
which scope, and whether it is a release-sc; behind a fence every store counts as a release of its scope (R192, R196,
R203 to R205, R304). -/
def State.gate (s : State) (wait : Nat) (rel sc : Bool) (scope : Nat) : Gate :=
  ⟨wait, rel, if rel then some scope else s.cur.order.fenced, sc⟩

/-- What a store of memory attributes waits for. -/
def State.storeGateOf (s : State) (m : MemAttr) : Gate :=
  s.gate m.wait.val (m.cls = 1 || m.cls = 3) (m.cls = 3) m.scope.val

/-- A number read as signed in n bytes. -/
def signedIn (n v : Nat) : Int := (BitVec.ofNat (8 * n) v).toInt

/-- The returning atomics (R207 to R210): destination, base, operand, the size in bytes, and what becomes of the old
value m under the operand b and the compare value c, with the flags raised. -/
def amoRow (i : Instr) : Option (XReg × XReg × XReg × Nat × (Nat → Word → Word → Nat × Flags)) :=
  let n (dbl : Bool) : Nat := if dbl then 8 else 4
  match i with
  | .amoAdd d a b z _ _ => some (d, a, b, n z, fun m b _ => ((m + b.toNat) % 2 ^ (8 * n z), 0))
  | .amoMin d a b z _ _ => some (d, a, b, n z, fun m b _ =>
      (if signedIn (n z) b.toNat < signedIn (n z) m then b.toNat % 2 ^ (8 * n z) else m, 0))
  | .amoMax d a b z _ _ => some (d, a, b, n z, fun m b _ =>
      (if signedIn (n z) m < signedIn (n z) b.toNat then b.toNat % 2 ^ (8 * n z) else m, 0))
  | .amoAnd d a b z _ _ => some (d, a, b, n z, fun m b _ => (m &&& b.toNat % 2 ^ (8 * n z), 0))
  | .amoOr d a b z _ _ => some (d, a, b, n z, fun m b _ => (m ||| b.toNat % 2 ^ (8 * n z), 0))
  | .amoXor d a b z _ _ => some (d, a, b, n z, fun m b _ => (m ^^^ b.toNat % 2 ^ (8 * n z), 0))
  | .amoSwap d a b z _ _ => some (d, a, b, n z, fun _ b _ => (b.toNat % 2 ^ (8 * n z), 0))
  | .amoCas d a b z _ _ => some (d, a, b, n z, fun m b c =>
      (if m = c.toNat % 2 ^ (8 * n z) then b.toNat % 2 ^ (8 * n z) else m, 0))
  | .amoFadd d a b z _ _ =>
    if z then some (d, a, b, 2, fun m b _ => atomicFAdd BF16 m (b.toNat % 2 ^ 16))
    else some (d, a, b, 4, fun m b _ => atomicFAdd FP32 m (b.toNat % 2 ^ 32))
  | _ => none

/-- The reductions (R211): base, operand, operation, size, scope, and whether it is a release. -/
def redRow (i : Instr) : Option (XReg × XReg × AmoFn × Nat × Fin 8 × Bool) :=
  let n (dbl : Bool) : Nat := if dbl then 8 else 4
  match i with
  | .redAdd a b z k rel => some (a, b, .add, n z, k, rel)
  | .redMin a b z k rel => some (a, b, .min, n z, k, rel)
  | .redMax a b z k rel => some (a, b, .max, n z, k, rel)
  | .redAnd a b z k rel => some (a, b, .and, n z, k, rel)
  | .redOr a b z k rel => some (a, b, .or, n z, k, rel)
  | .redXor a b z k rel => some (a, b, .xor, n z, k, rel)
  | .redFadd a b z k rel => some (a, b, if z then .fadd16 else .fadd32, if z then 2 else 4, k, rel)
  | _ => none

/-- The fences (R204): the scope. -/
def fenceRow (i : Instr) : Option (Fin 8) :=
  match i with
  | .fence c _ => some c
  | .fenceAcq c _ => some c
  | .fenceRel c _ => some c
  | _ => none

/-! Vectors (R109, R110, R146 to R164). -/

/-- Element i of width w of a vector register's bits. -/
def laneOf (w : Nat) (b : BitVec 4096) (i : Nat) : Nat := b.toNat / 2 ^ (w * i) % 2 ^ w

/-- n of R146: ROWS × COLS of SHAPE. -/
def State.elements (s : State) : Nat :=
  (s.cur.reg.shape.extractLsb' 16 16).toNat * (s.cur.reg.shape.extractLsb' 0 16).toNat

/-- COLS of SHAPE. -/
def State.columns (s : State) : Nat := (s.cur.reg.shape.extractLsb' 0 16).toNat

/-- Active (R147): every element without a mask; one bit for each element, or for each byte of 4-bit elements. -/
def State.isOn (s : State) (p : Option Vpx) (w i : Nat) : Bool :=
  match p with
  | none => true
  | some v => v.mask = 0 || (s.cur.reg.m[v.mask]).getLsbD (if w = 4 then i / 2 else i)

/-- MZ of a prefix. -/
def zeroing (p : Option Vpx) : Bool := (p.map (fun v => v.mz)).getD false

/-- The rounding mode of a vector instruction (R149): the prefix's RND, 0 without one. -/
def State.vecMode (s : State) (p : Option Vpx) (narrowing : Bool) : Nat :=
  s.roundMode ((p.map (fun v => v.rnd)).getD 0) narrowing

/-- The bytes of an instruction with or without a prefix. -/
def lenOf (p : Option Vpx) : Nat := if p.isSome then 8 else 4

/-- SHAPE suits elements of width w (R146). -/
def State.fits (s : State) (w : Nat) : Prop := s.elements * w ≤ 4096 ∧ (w = 4 → s.elements % 2 = 0)

/-- A v register carries a format, which is a real one (R31). -/
def State.carries (s : State) (a : VNum) (f : FmtCode) : Prop := s.cur.reg.v[a].tag = f ∧ f ≠ 0 ∧ f ≠ 15

/-- The flags that elements raise together. -/
def flagsUpTo (n : Nat) (on : Nat → Bool) (flags : Nat → Flags) : Flags :=
  (List.range n).foldl (fun f i => if on i then f ||| flags i else f) 0

/-- A vector register has been written (R147): every element below n where it is on its result, elsewhere zero with MZ
and its old bits without; zero above them; the tag and the companion bit. The other registers are r's. -/
def Writes (s t : State) (p : Option Vpx) (d : VNum) (w : Nat) (f : FmtCode) (comp : Bool) (on : Nat → Bool)
    (res : Nat → Nat) (r : Regs) : Prop :=
  ∃ x : VReg, Finishes s t (({ r with v := r.v.set d x } : Regs).step (lenOf p)) ∧ x.tag = f ∧ x.comp = comp ∧
    (∀ i, i < s.elements → laneOf w x.bits i =
      if on i then res i % 2 ^ w else if zeroing p then 0 else laneOf w s.cur.reg.v[d].bits i) ∧
    x.bits.toNat < 2 ^ (s.elements * w)

/-- An instruction that works element by element: its prefix, format, destination and sources, and the result and the
flags of each element. -/
structure LaneForm where
  p : Option Vpx
  f : FmtCode
  d : VNum
  sources : List VNum
  res : Nat → Nat × Flags

/-- A w-bit pattern read as two's complement. -/
def signedBits (w n : Nat) : Int := if 2 * n < 2 ^ w then n else (n : Int) - 2 ^ w

/-- The instructions that work element by element, and those that move elements (R154, R155, R157 to R161, R163). -/
def State.laneRow (s : State) (i : Instr) : Option LaneForm :=
  let e (f : FmtCode) (a : VNum) (k : Nat) : Nat := laneOf (fmtWidth f) s.cur.reg.v[a].bits k
  let m (p : Option Vpx) : Nat := s.vecMode p false
  match i with
  | .vadd p f d a b => some ⟨p, f, d, [a, b], fun k => laneAdd f (m p) (e f a k) (e f b k)⟩
  | .vsub p f d a b => some ⟨p, f, d, [a, b], fun k => laneSub f (m p) (e f a k) (e f b k)⟩
  | .vmul p f d a b => some ⟨p, f, d, [a, b], fun k => laneMul f (m p) (e f a k) (e f b k)⟩
  | .vfma p f d a b =>
    let c : VNum := (p.map (fun v => v.c)).getD d
    some ⟨p, f, d, [a, b, c], fun k => laneFma f (m p) (e f a k) (e f b k) (e f c k)⟩
  | .vmin p f d a b => some ⟨p, f, d, [a, b], fun k => laneMin f (e f a k) (e f b k)⟩
  | .vmax p f d a b => some ⟨p, f, d, [a, b], fun k => laneMax f (e f a k) (e f b k)⟩
  | .vabs p f d a => some ⟨p, f, d, [a], fun k => laneAbs f (e f a k)⟩
  | .vneg p f d a => some ⟨p, f, d, [a], fun k => laneNeg f (e f a k)⟩
  | .vshl p f d a b => some ⟨p, f, d, [a, b], fun k =>
      (e f a k * 2 ^ (e f b k % fmtWidth f), 0)⟩
  | .vshr p f d a b => some ⟨p, f, d, [a, b], fun k =>
      (if f = 11 then e f a k / 2 ^ (e f b k % fmtWidth f)
       else ((signedBits (fmtWidth f) (e f a k) / 2 ^ (e f b k % fmtWidth f)) % 2 ^ fmtWidth f).toNat, 0)⟩
  | .vrint p f d a => some ⟨p, f, d, [a], fun k => laneRint (fpFmt f) (m p) (e f a k)⟩
  | .vexp2f p f d a => some ⟨p, f, d, [a], fun k => laneExp2 (e f a k)⟩
  | .vscaleb p f d a b => some ⟨p, f, d, [a, b], fun k => laneScale (fpFmt f) (m p) (e f a k) (e f b k)⟩
  | .vrcp p f d a => some ⟨p, f, d, [a], fun k => laneRcp (fpFmt f) (m p) (e f a k)⟩
  | .vrsqrt p f d a => some ⟨p, f, d, [a], fun k => laneRsqrt (fpFmt f) (m p) (e f a k)⟩
  | .vlog2 p f d a => some ⟨p, f, d, [a], fun k => laneLog2 (e f a k)⟩
  | .vsinpi p f d a => some ⟨p, f, d, [a], fun k => laneSinpi (e f a k)⟩
  | .vbcast p f d a => some ⟨p, f, d, [], fun _ => ((s.arg a).toNat, 0)⟩
  | .vmov p f d a => if f = 0 then none else some ⟨p, f, d, [a], fun k => (e f a k, 0)⟩
  | .vrot p f d a b => some ⟨p, f, d, [a], fun k =>
      (e f a (k / s.columns * s.columns + (k % s.columns + (s.arg b).toNat) % s.columns), 0)⟩
  | .vtrn p f d a => some ⟨p, f, d, [a], fun k =>
      let rows := (s.cur.reg.shape.extractLsb' 16 16).toNat
      (e f a (k % rows * s.columns + k / rows), 0)⟩
  | _ => none

/-- A comparison's prefix, format, destination, sources and condition (R156). -/
def compareRow (i : Instr) : Option (Option Vpx × FmtCode × MNum × VNum × VNum × Nat) :=
  match i with
  | .vcmpEq p f d a b => some (p, f, d, a, b, 0)
  | .vcmpNe p f d a b => some (p, f, d, a, b, 1)
  | .vcmpLt p f d a b => some (p, f, d, a, b, 2)
  | .vcmpLe p f d a b => some (p, f, d, a, b, 3)
  | .vcmpUnord p f d a b => some (p, f, d, a, b, 4)
  | _ => none

/-- Bitwise logic on vector registers (R159). -/
def logicRow (i : Instr) :
    Option (Option Vpx × FmtCode × VNum × VNum × VNum × (BitVec 4096 → BitVec 4096 → BitVec 4096)) :=
  match i with
  | .vand p f d a b => some (p, f, d, a, b, fun x y => x &&& y)
  | .vor p f d a b => some (p, f, d, a, b, fun x y => x ||| y)
  | .vxor p f d a b => some (p, f, d, a, b, fun x y => x ^^^ y)
  | _ => none

/-- Reductions (R160): prefix, format, destination, source, whether by rows, and the result of a list of elements. -/
def State.reduceRow (s : State) (i : Instr) :
    Option (Option Vpx × FmtCode × VNum × VNum × Bool × (List Nat → Nat × Flags)) :=
  match i with
  | .vsumRow p f d a => some (p, f, d, a, true, sumLanes f (s.vecMode p false))
  | .vsumCol p f d a => some (p, f, d, a, false, sumLanes f (s.vecMode p false))
  | .vmaxrRow p f d a => some (p, f, d, a, true, maxLanes f)
  | .vmaxrCol p f d a => some (p, f, d, a, false, maxLanes f)
  | _ => none

/-- Conversions (R162): prefix, destination format, source format, saturation, destination, source. -/
def convertRow (i : Instr) : Option (Option Vpx × FmtCode × FmtCode × Bool × VNum × VNum) :=
  match i with
  | .vcvt p dst src d a => some (p, dst, src, false, d, a)
  | .vcvtSat p dst src d a => some (p, dst, src, true, d, a)
  | _ => none

/-- FPS.LFSR as the conversion of element k finds it (R44): in SR mode stepped once for each active element up to k. -/
def State.lfsrAt (s : State) (p : Option Vpx) (w mode k : Nat) : BitVec 32 :=
  lfsrStep^[if mode = 6 then ((List.range k).filter (s.isOn p w)).length else 0] (s.cur.reg.fps.extractLsb' 32 32)

/-- The code table that a format decodes with: a bank of the cluster's Q4P table, or Q4N's. -/
def State.codes (s : State) (f : FmtCode) (bank : Bool) : List Nat :=
  if f = 14 then (s.cluster (s.cur.id.core / 4)).banks.getD bank.toNat [] else q4n

/-- Bytes of a piece of a vector access (R151): an element, a byte of 4-bit elements, 32 bytes of an untyped one. -/
def pieceSize (w : Nat) : Nat := if w = 0 then 32 else if w = 4 then 1 else w / 8

/-- The pieces of a vector access that the mask selects, ascending. -/
def State.selected (s : State) (p : Option Vpx) (w : Nat) : List Nat :=
  if w = 0 then List.range 16
  else (List.range (s.elements * w / 8 / pieceSize w)).filter (fun i => s.isOn p w (if w = 4 then 2 * i else i))

/-- Piece i of a data register. -/
def pieceOf (w : Nat) (b : BitVec 4096) (i : Nat) : List Byte :=
  toBytes (pieceSize w) (b.toNat / 2 ^ (8 * pieceSize w * i) % 2 ^ (8 * pieceSize w))

/-- What element i of a loaded vector receives, from where its pieces lie. -/
def State.loadedLane (s : State) (w : Nat) (loc : Nat → Nat) (i : Nat) : Nat :=
  if w = 4 then fromBytes (s.bytesAt (loc (i / 2)) 1) / 16 ^ (i % 2) % 16
  else fromBytes (s.bytesAt (loc i) (pieceSize w))

/-- Memory with pieces of a register written in ascending order. -/
def State.scattered (s : State) (w : Nat) (b : BitVec 4096) (loc : Nat → Nat) (is : List Nat) : List Host.Cell :=
  is.foldl (fun m i => cellsSet m (loc i) (pieceOf w b i)) s.mem

/-! Contexts beside the one whose turn it is. -/

/-- The context whose turn it is has retired an instruction of 4 bytes that changed no register of its own, and the
context of a number has changed as f says; nothing else has but event counters. -/
def Alters (s t : State) (uid : Nat) (f : Context → Context) : Prop :=
  Retired s t (s.cur.reg.step 4) ∧ { t with cur := s.cur, others := s.others, clusters := s.clusters } = s ∧
  Counting s t ∧ t.others = s.others.map (fun c => if c.id.uid = uid then f c else c)

/-! Objects at home slices (R55, R312, R313, R318). -/

/-- An x register names an object of pageable memory that the memory side reaches at once, and that no live region has
touched. -/
def ObjectAt (s : State) (a : XReg) (k : Access) (ia loc : Nat) : Prop :=
  ∃ va, s.cur.effective (s.arg a) 0 64 = .ok va ∧ va % 64 = 0 ∧ va < 2 ^ 60 ∧ s.cur.mapVa k va = .ok ia ∧
    s.whereIs ia = .pageable ∧ s.meet ia k s.cur.token = (.ok loc, s) ∧ Writable s loc ∧ s.touchedBy none ia 64 = false

/-- A context that is neither in a glaze nor woken from a wait, with nothing in flight. -/
def Ready (s : State) : Prop := Still s ∧ s.cur.sync.grant = none ∧ s.cur.id.sup = false

/-- The 64 bytes of a completion object that CreateLaunch writes (R55, R60). -/
def objectBytes (total parent : Nat) : List Byte :=
  toBytes 4 total ++ toBytes 4 total ++ [1, 1, 0, 0] ++ toBytes 4 0 ++ toBytes 8 parent ++ toBytes 40 0

/-! Messages and global accesses (R274 to R285). -/

/-- A destination word names the mailbox of another context, which stands in a slot and holds fewer than three inbox
entries, and nothing is in the network. -/
def MailboxFree (s : State) (w : Word) (c : Context) : Prop :=
  w.getLsbD 37 = false ∧ s.checkDest w = none ∧ s.mailbox (destCore w) (w.toNat % 2 ^ 6) = some c ∧
    s.ctx c.id.uid = some c ∧ c.id.uid ≠ s.cur.id.uid ∧ c.sched.place = .slot ∧ c.mail.frame = [] ∧
    c.mail.inbox.length < 3 ∧ (∀ o ∈ s.others, o.sched.place ≠ .ended) ∧ s.net = []

/-- The others with a message entered into the inbox of one. -/
def State.mailed (s : State) (c : Context) (m : Message) : List Context :=
  s.others.map (fun o => if o.id.uid = c.id.uid then
    { o with mail := { o.mail with inbox := o.mail.inbox ++ [⟨m, none⟩] } } else o)

/-- The global address that x[a] plus an offset names: its core part kept, its offset part added (R285). -/
def State.globalAt (s : State) (a : XReg) (off : BitVec 19) (g : Nat) : Prop :=
  let w := (s.arg a).toNat
  0 ≤ (w % 2 ^ 38 : Nat) + off.toInt ∧ (w % 2 ^ 38 : Nat) + off.toInt < 2 ^ 38 ∧
    (g : Int) = (w / 2 ^ 38 * 2 ^ 38 + w % 2 ^ 38 : Nat) + off.toInt

/-- The agent of the core that a global address names finds it at an IA, the memory side answers at once, and what is to
be written there is no capability list. -/
def GlobalReaches (s : State) (k : Access) (g ia loc : Nat) : Prop :=
  s.mapGlobal g k = .ok ia ∧ s.meet ia k s.cur.token = (.ok loc, s) ∧ s.cur.sync.grant = none ∧
    (k = .write ∨ k = .atomic → Writable s loc)

/-- The global atomics (R285): destination, base, operand, attributes, offset, size, and what becomes of the old value
m under the operand b and the compare value c. -/
def gamoRow (i : Instr) :
    Option (XReg × XReg × XReg × MemAttr × BitVec 19 × Nat × (Nat → Word → Word → Nat × Flags)) :=
  let n (dbl : Bool) : Nat := if dbl then 8 else 4
  match i with
  | .gamoAdd z d a x m off => some (d, a, x, m, off, n z, fun v b _ => ((v + b.toNat) % 2 ^ (8 * n z), 0))
  | .gamoMin z d a x m off => some (d, a, x, m, off, n z, fun v b _ =>
      (if signedIn (n z) b.toNat < signedIn (n z) v then b.toNat % 2 ^ (8 * n z) else v, 0))
  | .gamoMax z d a x m off => some (d, a, x, m, off, n z, fun v b _ =>
      (if signedIn (n z) v < signedIn (n z) b.toNat then b.toNat % 2 ^ (8 * n z) else v, 0))
  | .gamoAnd z d a x m off => some (d, a, x, m, off, n z, fun v b _ => (v &&& b.toNat % 2 ^ (8 * n z), 0))
  | .gamoOr z d a x m off => some (d, a, x, m, off, n z, fun v b _ => (v ||| b.toNat % 2 ^ (8 * n z), 0))
  | .gamoXor z d a x m off => some (d, a, x, m, off, n z, fun v b _ => (v ^^^ b.toNat % 2 ^ (8 * n z), 0))
  | .gamoSwap z d a x m off => some (d, a, x, m, off, n z, fun _ b _ => (b.toNat % 2 ^ (8 * n z), 0))
  | .gamoCas z d a x m off => some (d, a, x, m, off, n z, fun v b c =>
      (if v = c.toNat % 2 ^ (8 * n z) then b.toNat % 2 ^ (8 * n z) else v, 0))
  | .gamoFadd d a x m off => some (d, a, x, m, off, 4, fun v b _ => atomicFAdd FP32 v (b.toNat % 2 ^ 32))
  | _ => none

/-! Exact accumulators (R286 to R291). -/

/-- Registers with an accumulator written. -/
def Regs.putQ (r : Regs) (q : QNum) (a : QAcc) : Regs := { r with q := r.q.set q a }

/-- An accumulator that a leaf of value p × 2^e enters exactly, seen by EM at em: its exponent falls to the leaf's, its
integer is scaled to it, and its span stays within 192. -/
def TakesLeaf (a b : QAcc) (p e em : Int) : Prop :=
  a.sat = false ∧ b.empty = false ∧ b.sat = false ∧ b.pinf = a.pinf ∧ b.ninf = a.ninf ∧ b.nanf = a.nanf ∧
  (if a.empty then b.q = BitVec.ofInt 320 p ∧ b.eq = e ∧ b.em = em
   else b.eq = min a.eq e ∧ b.em = max a.em em ∧
    b.q = BitVec.ofInt 320 (a.q.toInt * 2 ^ (a.eq - b.eq).toNat + p * 2 ^ (e - b.eq).toNat))

/-- The span that an accumulator has once a leaf has entered. -/
def spanWith (a : QAcc) (e em : Int) : Int := if a.empty then em - e else max a.em em - min a.eq e

/-- The digits of an integer in base 2^62 (R290), lowest first: every one but the highest lies in 0 to 2^62 - 1, and no
fewer hold it. That the highest lies in -2^62 to 2^62 - 1 is the model's reading (log 61). -/
def Digits (n : Int) (ds : List Int) : Prop :=
  ds ≠ [] ∧ ds.foldr (fun d v => d + 2 ^ 62 * v) 0 = n ∧
  (∀ j, ∀ h : j < ds.length, ds[j] < 2 ^ 62 ∧ (if j + 1 < ds.length then 0 else -(2 ^ 62)) ≤ ds[j]) ∧
  ∀ m, 1 ≤ m → m < ds.length → n < -(2 ^ (62 * m)) ∨ 2 ^ (62 * m) ≤ n

/-- The second word of message j of an accumulator's transfer of n messages (R287, R290). -/
def transferWord (a : QAcc) (n j : Nat) : Word :=
  BitVec.ofNat 64 ((if j + 1 < n then 2 ^ 37 else 0) +
    (a.sat.toNat + a.pinf.toNat * 2 + a.ninf.toNat * 4 + a.nanf.toNat * 8) * 2 ^ 32 +
    (a.em % 2 ^ 16).toNat * 2 ^ 16 + ((a.eq + 62 * j) % 2 ^ 16).toNat)

/-- A BLOCKSUM message of a tag (R287, R289). -/
def blockSumOf (tag : Nat) (e : InEntry) : Bool :=
  decide (e.msg.header.toNat / 2 ^ 56 = 4) && decide (e.msg.header.toNat / 2 ^ 32 % 2 ^ 16 = tag)

/-- What the messages of a list add to an accumulator in turn: each a leaf with P, E and EMAX that enters exactly, without
flags (R287, R289). -/
def SumsUp (f : Nat → QAcc) (l : List InEntry) : Prop :=
  ∀ i, ∀ h : i < l.length,
    let p := l[i].msg.payload.getD 0 0
    let w := l[i].msg.payload.getD 1 0
    let e := (w.extractLsb' 0 16).toInt
    let em := (w.extractLsb' 16 16).toInt
    w.extractLsb' 32 5 = 0 ∧ spanWith (f i) e em ≤ 192 ∧ TakesLeaf (f i) (f (i + 1)) p.toInt e em

/-! Fetching (R73, R97, R100). -/

/-- The parcel at a virtual address of the context whose turn it is, mapped for fetching and answered at once. The context
is sure to see every store to its bytes. -/
def Fetches (s : State) (va w : Nat) : Prop :=
  ∃ ia loc, s.cur.mapVa .fetch va = .ok ia ∧ s.checkIa s.cur ia .fetch false = none ∧
    s.meet ia .fetch s.cur.token = (.ok loc, s) ∧ s.poisoned loc 4 = false ∧ s.numAt loc 4 = w ∧
    (∀ r ∈ s.narrow, r.uid = s.cur.id.uid ∨ r.line < ia / 128 ∨ (ia + 3) / 128 < r.line) ∧
    ∀ k, k < 4 → ∀ v ∈ s.versions (loc + k), v.step ≤ s.cur.sees loc

/-! Tiles (R217 to R226, R246 to R257). -/

/-- The tile instructions that bind a tile name. -/
def tileTarget (i : Instr) : Option TNum :=
  match i with
  | .tld td _ _ _ _ _ => some td
  | .tldp td _ _ _ _ => some td
  | .tmma td _ _ _ _ _ _ _ _ _ => some td
  | .tmmas td _ _ _ _ _ _ _ _ _ _ _ => some td
  | .tzero td _ _ => some td
  | .tcvt td _ _ _ _ _ _ => some td
  | .tadd td _ _ _ _ => some td
  | .tgrp td _ _ => some td
  | _ => none

/-- Every command of the context whose turn it is has been reported, without a fault. -/
def Reported (s : State) (q : Nat × EngineCmd) (rest : List (Nat × EngineCmd)) : Prop :=
  s.commandsOf s.cur.id.uid = q :: rest ∧ ∀ p ∈ q :: rest, p.2.state = .complete ∧ p.2.fault = none

/-- FPS once the flags of commands have been OR'ed into it, and the LFSR that one reports. -/
def fpsAfter (fps : Word) (ks : List (Nat × EngineCmd)) : Word :=
  let f : Word := fps ||| (ks.foldl (fun (f : Flags) k => f ||| k.2.flags) 0).zeroExtend 64
  match ks.findSome? (fun k => k.2.lfsr) with
  | none => f
  | some l => l ++ f.extractLsb' 0 32

/-- An instruction of an engine has retired: its registers beside t and FPS are as before, FPS has the flags, the
program counter is 8 bytes on, and none of its commands is left. -/
def EngineDone (s t : State) (ks : List (Nat × EngineCmd)) : Prop :=
  t.cur.reg.x = s.cur.reg.x ∧ t.cur.reg.v = s.cur.reg.v ∧ t.cur.reg.m = s.cur.reg.m ∧ t.cur.reg.q = s.cur.reg.q ∧
  t.cur.reg.fps = fpsAfter s.cur.reg.fps ks ∧ t.cur.reg.pc = s.cur.reg.pc + 8 ∧
  t.cur.id.rob = s.cur.id.rob + 1 ∧ t.commandsOf s.cur.id.uid = []

/-- The command of the context whose turn it is has been forwarded to its bound easel, and the instruction waits for
the report. No register has changed. -/
def Forwarded (s t : State) (k : EngineCmd) : Prop :=
  t.cur.reg = s.cur.reg ∧ t.cur.sync.wait = .easel ∧ t.commandsOf s.cur.id.uid = [(s.cur.id.core / 4, k)] ∧
  k.easel = s.cur.job.easel.getD 0 ∧ k.fault = none

/-- A tile instruction is at its first turn: nothing of its context is in flight, it has cells, no squash is on its way and
no CTWR or CTSWAP stands at the code table. -/
def EngineFree (s : State) : Prop :=
  Still s ∧ 0 < s.cur.job.tcells ∧ s.commandsOf s.cur.id.uid = [] ∧
  (∀ c ∈ s.clusters, c.2.squashes = [] ∧ ∀ k ∈ c.2.cmds, k.squashed = false) ∧
  (s.cluster (s.cur.id.core / 4)).table = [] ∧ ∀ b, s.cur.sync.wait ≠ .bank b

/-- The context has n more cells on an easel: what it holds there keeps to TCELLS, and that many are free for it (R220). -/
def CellsOn (s : State) (easel n : Nat) : Prop :=
  (s.cur.bound.on easel).length + n ≤ s.cur.job.tcells ∧
    n ≤ (s.roomOn s.cur easel).1.length + (s.roomOn s.cur easel).2.length

/-- The context has cells for a new tile of n cells on its bound easel. -/
def CellsFor (s : State) (n : Nat) : Prop := CellsOn s s.cur.boundEasel n

/-- The commands of the context whose turn it is have been forwarded to the 16 easels of its string, each as P says (R237),
and the instruction waits for their reports. No register has changed. -/
def ForwardedAll (s t : State) (P : EngineCmd → Prop) : Prop :=
  let ks := t.commandsOf s.cur.id.uid
  t.cur.reg = s.cur.reg ∧ t.cur.sync.wait = .easel ∧ ks.length = 16 ∧ (∀ q ∈ ks, q.2.fault = none ∧ P q.2) ∧
  ∀ j e, j < 4 → e < 4 → ∃ k, (s.cur.id.core / 16 * 4 + j, k) ∈ ks ∧ k.easel = e

/-- The rows of a tile that a descriptor gives at an address are mapped, each byte va to ia va. -/
def RowsMapped (s : State) (a xs : XReg) (f : FmtCode) (k : Access) (off : BitVec 19) (base : Nat) (ia : Nat → Nat) :
    Prop :=
  s.cur.effective (s.arg a) off.toInt ((descOf (s.arg xs)).span f) = .ok base ∧ base % 16 = 0 ∧
  ∀ va, base ≤ va → va < base + (descOf (s.arg xs)).span f → va < 2 ^ 60 ∧ s.cur.mapVa k va = .ok (ia va) ∧
    s.atomicAt (ia va) s.cur.id.core = true

/-- n bytes at an address are mapped for reading, byte va to ia va, and the memory side reads it at once at loc va. -/
def Readable (s : State) (base n : Nat) (ia loc : Nat → Nat) : Prop :=
  ∀ va, base ≤ va → va < base + n → va < 2 ^ 60 ∧ s.cur.mapVa .read va = .ok (ia va) ∧
    s.atomicAt (ia va) s.cur.id.core = true ∧ s.meet (ia va) .read s.cur.token = (.ok (loc va), s) ∧
    s.poisoned (loc va) 1 = false ∧
    (va % 32 ≠ 31 → va + 1 < base + n → ia (va + 1) = ia va + 1 ∧ loc (va + 1) = loc va + 1)

/-- A tile has been read from a row image, of which byte r j is byte j of row r (R241, R242): its elements, and the block and
group scales of a Q4 format. bank is the code table that a Q4P tile keeps. -/
def FromRows (t : Tile) (f : FmtCode) (rows cols : Nat) (bank : Bool) (byte : Nat → Nat → Byte) : Prop :=
  let w := fmtWidth f
  let row (r : Nat) : Nat := fromBytes ((List.range (rowBytes cols f)).map (byte r))
  t.tag = f ∧ t.rows = rows ∧ t.cols = cols ∧ t.group = false ∧ t.comp = (bank && f = 14) ∧
  t.elems = (List.range rows).flatMap (fun r => (List.range cols).map (fun c => row r / 2 ^ (w * c) % 2 ^ w)) ∧
  (f = 13 ∨ f = 14 →
    t.us = (List.range rows).flatMap (fun r => (List.range (cols / 64)).map (fun b => (byte r (cols / 2 + b)).toNat)) ∧
    t.ss = (List.range rows).map (fun r =>
      fromBytes ((List.range 4).map (fun j => byte r (cols / 2 + 4 * ((cols + 255) / 256) + j)))))

/-- The distance between rows that a stride gives (R241). -/
def strideOf (stride cols : Nat) (f : FmtCode) : Nat := if stride = 0 then rowBytes cols f else stride

/-- A slot stands in the operand staging of the bound easel: that of sequence number n after the oldest of the subscription of
a handle. Nothing more can be delivered on the ring, and no byte of the slot was poisoned (R231, R232, R361). -/
def StagedSlot (s : State) (h : RingHandle) (r : Ring) (n : Nat) (u : RingSub) (x : Staged) : Prop :=
  (h.role = .easelSub ∨ h.role = .easelAll) ∧
  r.subs[h.record + (if h.role = .easelAll then s.cur.job.easel.getD 0 else 0)]? = some u ∧
  (∀ v ∈ r.subs, r.deliverable v = false) ∧ n < (u.delivered - u.popped).toNat ∧
  u.staged.find? (fun y => y.seq = u.popped + BitVec.ofNat 32 n) = some x ∧ x.bad = []

/-- A tile name is bound to a plain tile of a format. -/
def TileIn (s : State) (n : TNum) (f : FmtCode) (t : Tile) : Prop :=
  s.cur.reg.t[n] = some t ∧ t.tag = f ∧ t.group = false

/-- The elements of a tile. -/
def tileShape (k : EngineCmd) (f : FmtCode) (rows cols : Nat) (elems : List Nat) : Prop :=
  ∃ t, k.result = some t ∧ t.tag = f ∧ t.rows = rows ∧ t.cols = cols ∧ t.elems = elems

/-- An operand of a product: the tile of a name, or the slot of a handle's ring that comes n after its oldest (R258). -/
def Operand (s : State) (name : TNum) (p : PNum) (ring : Bool) (f : FmtCode) (n : Nat) (t : Tile) : Prop :=
  if ring = true then ∃ (h : RingHandle) (r : Ring) (u : RingSub) (x : Staged),
    s.cur.reg.p[p] = some h ∧ s.ring (s.cur.id.core / 4) h.ring = some r ∧ StagedSlot s h r n u x ∧ r.fmt = f ∧ f ≠ 0 ∧
    (r.rows - 1) * strideOf r.stride r.cols f + rowBytes r.cols f ≤ x.bytes.length ∧
    FromRows t f r.rows r.cols (s.cluster (s.cur.id.core / 4)).bank
      (fun k j => (x.bytes[k * strideOf r.stride r.cols f + j]?).getD 0)
  else TileIn s name f t

/-- Element (m, n) of a product that accumulates onto acc (R50 to R52, R235, R252): sums of 32 dense products, or of the
listed products of 32 dense positions, or of blocks of 64 that are scaled. info m is the metadata of row m. -/
def State.productOf (s : State) (fa fb : FmtCode) (sp : Nat) (a b : Tile) (info : Nat → List Byte) (acc m n : Nat) :
    Nat × Flags :=
  if fa = 13 ∨ fa = 14 then
    accQ4 (s.codes fa a.comp) (a.scaleS m)
      (((List.range (a.cols / 64)).map (a.scaleU m)).zip (denseGroups 64 (a.row m) (b.col n))) (acc, 0)
  else
    let groups := if sp = 0 then denseGroups 32 (a.row m) (b.col n)
      else sparseGroups (2 ^ (sp - 1)) (a.row m) (b.col n) (info m)
    if fa = 10 ∨ fa = 12 then accInt fa acc groups else accFp (fpFmt fa) (fpFmt fb) acc groups

/-! Rings (R229 to R232, R258 to R265). -/

/-- A handle of the context whose turn it is names a live ring of its cluster. -/
def Handles (s : State) (p : PNum) (h : RingHandle) (r : Ring) : Prop :=
  s.cur.reg.p[p] = some h ∧ s.ring (s.cur.id.core / 4) h.ring = some r

/-- The claim word of a sequence number (R261): the number above, the byte offset of its slot below. -/
def slotWord (r : Ring) (q : BitVec 32) : Word :=
  q ++ BitVec.ofNat 32 (r.pbase + q.toNat % r.nslot * r.slotBytes)

/-- Registers with a ring handle written. -/
def Regs.handle (r : Regs) (p : PNum) (h : Option RingHandle) : Regs := { r with p := r.p.set p h }

/-! Steps of the device and of the world around it: one unit changes, and nothing else. -/

/-- A string holds v, and nothing else has changed. -/
def OnlyString (s t : State) (k : Nat) (v : StringSt) : Prop :=
  { t with strings := s.strings } = s ∧ t.string k = v ∧ ∀ j, j ≠ k → t.string j = s.string j

/-- A cluster holds v, and nothing else has changed. -/
def OnlyCluster (s t : State) (k : Nat) (v : Cluster) : Prop :=
  { t with clusters := s.clusters } = s ∧ t.cluster k = v ∧ ∀ j, j ≠ k → t.cluster j = s.cluster j

/-- A core holds v beside its contexts, and nothing else has changed. -/
def OnlyCore (s t : State) (k : Nat) (v : CoreSt) : Prop :=
  { t with cores := s.cores } = s ∧ t.core k = v ∧ ∀ j, j ≠ k → t.core j = s.core j

/-- A package holds v, and nothing else has changed. -/
def OnlyPkg (s t : State) (k : Nat) (v : Pkg) : Prop :=
  { t with pkgs := s.pkgs } = s ∧ t.pkg k = v ∧ ∀ j, j ≠ k → t.pkg j = s.pkg j

/-- Atelier of a package holds v, and nothing else has changed. -/
def OnlyAtelier (s t : State) (k : Nat) (v : Atelier) : Prop :=
  { t with atelier := s.atelier } = s ∧ t.atel k = v ∧ ∀ j, j ≠ k → t.atel j = s.atel j

/-- The control-block registers other than the ones listed hold what they held. -/
def CtlKept (s t : State) (keys : List Nat) : Prop := ∀ d o, ctlKey d o ∉ keys → t.ctlGet d o = s.ctlGet d o

/-- A control-block register holds w, and nothing else has changed. -/
def OnlyCtl (s t : State) (die off : Nat) (w : Word) : Prop :=
  { t with ctl := s.ctl } = s ∧ t.ctlGet die off = w ∧ CtlKept s t [ctlKey die off]

/-- The context of a number has changed as f says, and nothing else. -/
def OnlyContext (s t : State) (uid : Nat) (f : Context → Context) : Prop :=
  { t with cur := s.cur, others := s.others } = s ∧
  t.contexts = s.contexts.map (fun c => if c.id.uid = uid ∧ c.live = true then f c else c)

/-- Nothing holds a lease of the power of a package. -/
def Unleased (s : State) (pkg : Nat) : Prop :=
  ∀ c ∈ s.contexts, c.live = true → ∀ l, c.power.lease = some l → l.string / 32 ≠ pkg

/-- The bits of a control-block register that software writes: translation and its rings, energy and machine-check rings,
trace rings, frame regions, the curves of the tide and its target, lease budgets, global windows (R184, R239, R284, R355,
R362, R370, R380, R388). -/
def softwareBits (reg : Nat) : List (Nat × Nat) :=
  if reg = 0x000 then [(51, 14), (0, 0)]
  else if reg = 0x008 then [(51, 12)]
  else if reg = 0x010 ∨ reg = 0x020 ∨ reg = 0x030 ∨ reg = 0x070 then [(51, 6)]
  else if reg = 0x018 ∨ reg = 0x028 ∨ reg = 0x038 ∨ reg = 0x078 ∨ reg = 0x0A0 then [(63, 48), (31, 16)]
  else if reg = 0x040 then [(31, 0)]
  else if reg = 0x048 then [(63, 32), (3, 0)]
  else if reg = 0x098 then [(51, 5)]
  else if 0x100 ≤ reg ∧ reg < 0x500 ∧ reg % 0x20 = 0 then [(55, 4)]
  else if 0x100 ≤ reg ∧ reg < 0x500 ∧ reg % 0x20 = 0x08 then [(63, 48), (31, 16)]
  else if 0x100 ≤ reg ∧ reg < 0x500 ∧ reg % 0x20 = 0x18 then [(63, 48), (15, 15), (7, 2)]
  else if 0x500 ≤ reg ∧ reg < 0x700 then (if reg % 0x10 = 0 then [(55, 12)] else [(31, 0)])
  else if 0x700 ≤ reg ∧ reg < 0x740 then [(31, 0)]
  else if 0x780 ≤ reg ∧ reg < 0x7C0 then [(7, 0)]
  else if 0x800 ≤ reg then (if reg % 0x10 = 0 then [(55, 25), (4, 4), (2, 0)] else [(38, 25)])
  else []

/-- A control-block register that holds what it was given: not one that the device computes as it is read, or that acts as
it is written. -/
def PlainRegister (reg : Nat) : Prop :=
  reg ∉ [0x050, 0x058, 0x060, 0x080, 0x088, 0x090, 0x0A8, 0x740, 0x748] ∧ (reg < 0x7C0 ∨ 0x800 ≤ reg)

/-- No two contexts bear the same number. -/
def Distinct (s : State) : Prop := (s.contexts.map (fun c => c.id.uid)).Nodup

/-- PWR once HWPWR has cleared, if it may (R373): the estimate is within CEIL, no set point is lowered for the ceiling or
for safety, every resident task of a shed class is under a hold, and the package is not measured above CEIL (log 97). -/
def Eased (s t : State) (pkg : Nat) : Prop :=
  let w := s.ctlGet (pkg * 4) 0x758
  let ceil := s.ctlField (pkg * 4) 0x748 31 16
  let may : Prop := w.getLsbD 30 = true ∧ s.estimate pkg ≤ ceil ∧ (s.pkg pkg).lowered = 0 ∧ (s.pkg pkg).safeLowered = 0 ∧
    (w.extractLsb' 0 16).toNat ≤ ceil ∧
    ∀ c ∈ s.contexts, c.live = true → c.id.sup = false → pkgOf c.id.core = pkg → s.classShed pkg c.reg.cls = true →
      c.sched.place = .slot → c.power.hold = true
  (may → OnlyCtl s t (pkg * 4) 0x758 (setBits w 30 30 0)) ∧ (¬may → t = s)

/-- A record ring of a die has room (R184). -/
def RingRoom (s : State) (die ctlOff : Nat) : Prop :=
  let size := s.ctlField die ctlOff 63 48
  size ≠ 0 ∧ (s.ctlField die ctlOff 15 0 + 1) % size ≠ s.ctlField die ctlOff 31 16

/-- A 32-byte granule all of whose poisoned bytes lie in n bytes at a location is no longer poisoned, and every other one is
poisoned as it was (R361). -/
def Cleared (s t : State) (loc n : Nat) : Prop :=
  ∀ b, b ∈ t.poison ↔ b ∈ s.poison ∧ ∃ q ∈ s.poison, q / 32 = b / 32 ∧ (q < loc ∨ loc + n ≤ q)

/-- Vector 8d + e has been signalled, and nothing else of BAR4 has changed (R392). An entry that is masked has its
pending bit set in place of a message (PCI Express, log 12). -/
def Signals (s t : State) (die e : Nat) : Prop :=
  let pkg := die / 4
  let v := die % 4 * 8 + e
  let masked := (s.bar4Get pkg (0x8008 + 16 * v)).getLsbD 32
  (masked = false → t.msix = s.msix ++ [pkg * 64 + v] ∧ t.bar4 = s.bar4) ∧
  (masked = true → t.msix = s.msix ∧ t.bar4Get pkg 0x9000 = (s.bar4Get pkg 0x9000 ||| BitVec.ofNat 64 (2 ^ v)) ∧
    ∀ p o, p * 0x10000 + o ≠ pkg * 0x10000 + 0x9000 → t.bar4Get p o = s.bar4Get p o)

/-- A record stands at the HEAD of a ring of a die, HEAD has moved on, and a ring that was empty has signalled its
vector; nothing else has changed (R184, R392). -/
def Posts (s t : State) (die baseOff ctlOff e : Nat) (bs : List Byte) : Prop :=
  let head := s.ctlField die ctlOff 15 0
  { t.withNotes s with mem := s.mem, poison := s.poison, ctl := s.ctl, bar4 := s.bar4, msix := s.msix } = s ∧
  let loc := die / 4 * 2 ^ 53 + (s.ctlGet die baseOff).toNat % 2 ^ 52 + head * bs.length
  Stored s t loc bs ∧ Cleared s t loc bs.length ∧
  t.ctlGet die ctlOff = setBits (s.ctlGet die ctlOff) 15 0 ((head + 1) % s.ctlField die ctlOff 63 48) ∧
  CtlKept s t [ctlKey die ctlOff] ∧
  (head = s.ctlField die ctlOff 31 16 → Signals s t die e) ∧
  (head ≠ s.ctlField die ctlOff 31 16 → t.bar4 = s.bar4 ∧ t.msix = s.msix)

/-- Bytes stand at a location, and nothing else has changed but the poison of granules that they cover and the notes that
memory keeps beside its bytes. -/
def Wrote (s t : State) (loc : Nat) (bs : List Byte) : Prop :=
  { t.withNotes s with mem := s.mem, poison := s.poison } = s ∧ Stored s t loc bs ∧ Cleared s t loc bs.length

/-- A cluster with one more event of a source in the counters that select it (R390). -/
def Cluster.counted (c : Cluster) (src : Nat) : Cluster :=
  { c with counters := c.counters.map (fun e => if e.src = src then { e with value := (e.value + 1) % 2 ^ 64 } else e) }

/-- A cluster's trace is off (R239). -/
def Untraced (s : State) (cl : Nat) : Prop :=
  (s.ctlGet (cl / 32) (0x100 + 0x20 * (cl % 32) + 0x18)).getLsbD 15 = false

/-- The IA of the first byte of a store in flight. -/
def firstIa (ps : List (Nat × List Byte)) : Nat := ((ps.head?).map (fun p => p.1)).getD 0

/-- Where a posted store of one part goes: to its IA, or to the IA at which the agent finds its global address. -/
def PostedAt (s : State) (p : Posted) (ia : Nat) (bs : List Byte) : Prop :=
  p.kind ≠ .f ∧ p.kind ≠ .w ∧ ((p.global = false ∧ p.parts = [(ia, bs)]) ∨
    (p.global = true ∧ ∃ g, p.parts = [(g, bs)] ∧ s.mapGlobal g .write = .ok ia))

/-- Work has been laid down behind what was due. -/
def Due (s t : State) (more : List Duty) : Prop := t.agenda = s.agenda ++ more

/-- No access in flight of a context is older than a step. -/
def Context.oldest (c : Context) (step : Nat) : Prop :=
  (∀ p ∈ c.io.posted, step ≤ p.born) ∧ (∀ r ∈ c.io.reds, step ≤ r.born) ∧ ∀ d ∈ c.io.drains, step ≤ d.born

/-- A late write of a context of n bytes at an IA is performed at once at a location: the memory side answers, no live region
and no watched object is met, no release of another context is noted there (R304), and no capability list lies there. -/
def Performs (s : State) (c : Context) (k : Access) (ia loc n : Nat) : Prop :=
  Plain s ia n ∧ s.meet ia k c.token = (.ok loc, s) ∧ s.readOnly loc n = false ∧ ∀ r ∈ s.narrow, r.uid = c.id.uid

/-- A completion object is OPEN or CANCELLING, as far as its page is there to tell. -/
def Unfinished (s : State) (ia : Nat) : Prop :=
  ∀ loc, (s.objLoc ia).1 = some loc → s.numAt (loc + 8) 1 = 1 ∨ s.numAt (loc + 8) 1 = 3

/-- Whether a unit of a die can be the one that holds a granule of memory: the core of a TCM, the lagoon of a die, any unit
of the die of a palette, for which R398 names none (log 102), and for pageable memory an L2 slice, an HBM4E stack or the
fabric. -/
def HeldBy (s : State) (key die u : Nat) : Prop :=
  match s.whereIs (key * 32) with
  | .tcm j => die = j / 128 ∧ u = j % 128
  | .lagoon d => die = d ∧ u = 3 * 2 ^ 11
  | .palette cl => die = cl / 32
  | .pageable => u / 2 ^ 11 = 2 ∧ u % 2 ^ 11 < 32 ∨ u / 2 ^ 11 = 4 ∧ u % 2 ^ 11 < 12 ∨
      u / 2 ^ 11 = 5 ∧ (u % 2 ^ 11 < 24 ∨ u % 2 ^ 11 = 0x7FF)
  | _ => False

/-- Two stretches of memory do not meet. -/
def Apart (a n b m : Nat) : Prop := a + n ≤ b ∨ b + m ≤ a

/-! Contexts that the device moves. -/

/-- A context in its frame for a reason: its messages are in the frame's inbox area (R188, R356). -/
def Context.saved (c : Context) (why : Saved) (now : Nat) : Context :=
  { c with
    sched := { c.sched with place := .frame why, savedAt := now, toSafe := none }
    mail := { c.mail with inbox := [], frame := c.mail.inbox.map (fun e => e.msg) ++ c.mail.frame } }

/-- No engine command of a context is in flight, and no CTWR or CTSWAP of it stands at a code table. -/
def Unengaged (s : State) (uid : Nat) : Prop :=
  s.commandsOf uid = [] ∧ ∀ p ∈ s.clusters, ∀ o ∈ p.2.table, o.uid ≠ uid

/-- A context of a number stands in a slot, no engine command of it is in flight, no message is in the network, and its
frame and extension can be written, which gives s1. A context that leaves its core without waiting for a barrier, a
monitor or a ring may be ready again from then on (R375). -/
def Savable (s : State) (uid : Nat) (c : Context) (why : Saved) (s1 : State) : Prop :=
  s.ctx uid = some c ∧ c.sched.place = .slot ∧ Unengaged s uid ∧ s.net = [] ∧
    (if c.sync.wait.evictable then s
      else s.setCore c.id.core { s.core c.id.core with readyAt := s.now }).saveFrame (c.saved why s.now) false LiveMap.all =
      (none, s1)

/-- A context has gone to its frame for a reason, without its cells, after which HWPWR clears if it may. -/
def Departs (s1 t : State) (uid : Nat) (c : Context) : Prop :=
  ∃ t1, OnlyContext s1 t1 uid (fun _ => c.bare) ∧ Eased t1 t (pkgOf c.id.core)

/-- A user task with nothing in flight, no region, no monitor, no ring handle, no lease, no message and no trap record:
its end takes it away at once. It is one of a launch. -/
def EndsAtOnce (s : State) (uid : Nat) (c : Context) (l : Launch) : Prop :=
  Distinct s ∧ s.ctx uid = some c ∧ c.id.sup = false ∧ c.io.posted = [] ∧ c.io.reds = [] ∧ c.io.drains = [] ∧
    c.sync.region = none ∧ c.sync.monitors = [] ∧ (∀ p ∈ c.reg.p, p = none) ∧ c.power.lease = none ∧
    c.mail.inbox = [] ∧ c.mail.frame = [] ∧ c.sched.ending = none ∧ s.commandsOf uid = [] ∧ s.net = [] ∧
    (∀ r ∈ (s.core c.id.core).traps, r.uid ≠ uid) ∧ (∀ d ∈ s.dies, ∀ r ∈ d.2.reserved, r.1 ≠ uid) ∧
    s.launch c.job.launch = some l

/-- A task has gone: no live context has its number, the others stand as they were, and its node of the completion tree
has one more end, with its status word folded in, which is to be forwarded (R141, R384, R385). -/
def Gone (s t : State) (uid : Nat) (c : Context) (l : Launch) (w : BitVec 32) : Prop :=
  t.ctx uid = none ∧ (∀ o ∈ s.contexts, o.id.uid ≠ uid → o ∈ t.contexts) ∧ t.mem = s.mem ∧
    t.agenda = s.agenda ++ [.treeForward l.lobjIa (s.treeNode l c.id.core)] ∧
    t.accounts = s.accounts.map (fun a => if a.uid = uid then { a with ended := some s.now } else a) ∧
    ((∀ n ∈ s.nodes, ¬(n.launch = l.num ∧ n.node = s.treeNode l c.id.core)) →
      t.nodes = s.nodes ++ [⟨l.num, s.treeNode l c.id.core, 1,
        if w = 0 then 0 else (1 : BitVec 16) ++ w.extractLsb' 0 16⟩])

/-- A task of a launch without engine cells finds what it needs on a core: room for its frame and extension, a free slot
and a free mailbox address. s1 is the machine with the open choices among them made. -/
def Vacant (s : State) (l : Launch) (core slot cid frame ext : Nat) (s1 : State) : Prop :=
  ∃ s2 s3, l.demands.tcells = 0 ∧
    s.takeFrames (core / 4) (extensionBytes l.demands.tcells l.demands.group) = (some (frame, ext), s2) ∧
    s2.choose (s2.freeSlots core) = (some slot, s3) ∧ s3.choose (s3.freeCids core) = (some cid, s1)

/-- The registers of a task at its first dispatch (R54). -/
def Launch.startRegs (l : Launch) (ranges : Vector (BitVec 128) 8) (frame : Nat) : Regs :=
  { Regs.reset with
    pc := l.entry
    x := ((Vector.replicate 32 0).set 10 l.arg).set 11 l.record
    sg := if l.segMode then l.segs else .replicate 16 ⟨0, 0⟩
    segMode := l.segMode
    amap := ranges
    tcoord := BitVec.ofNat 64 (l.next / (l.dimx * l.dimy) * 2 ^ 32 + l.next / l.dimx % l.dimy * 2 ^ 16 + l.next % l.dimx)
    tlaunch := l.lobj
    cls := l.cls
    spillbase := BitVec.ofNat 64 frame }

/-- What a launch keeps in a place, once n resident tasks there take m bytes each: no less than before (R141). -/
def atLeast (kept : List (Nat × Nat)) (place n m : Nat) : List (Nat × Nat) :=
  if n * m ≤ tabGet 0 kept place then kept else tabPut kept place (n * m)

/-- The next task of a launch has been dispatched: its context c stands in a slot of a core, the launch has one task
more dispatched and keeps the space that it takes, and its priority's turn has passed to it (R54, R61, R141, R274, R355). -/
def Dispatched (s t : State) (l : Launch) (core slot cid frame ext : Nat) (set : Option Spread) (c : Context) : Prop :=
  t.cur = s.cur ∧ t.others = s.others ++ [c] ∧ t.nextUid = s.nextUid + 1 ∧ t.nextGen = s.nextGen + 1 ∧
  t.lastLaunch = tabPut s.lastLaunch (l.queue / 16) l.num ∧
  t.launches = s.launches.map (fun k => if k.num = l.num then
    { k with
      next := k.next + 1, used := k.used ++ [core], stalled := false, set := set
      tcmKept := atLeast k.tcmKept core (((s.residents l.num).filter (fun d => d.id.core = core)).length + 1) k.demands.tcm
      palKept := atLeast k.palKept (core / 4)
        (((s.residents l.num).filter (fun d => d.id.core / 4 = core / 4)).length + 1) k.demands.pal }
    else k) ∧
  c.id = ⟨s.nextUid, core, slot, false, core, cid, s.nextGen, 0⟩ ∧ c.sched.place = .slot ∧ c.sched.parked = false ∧
  c.sched.xbase = ext ∧ c.job.task = l.next ∧ c.job.launch = l.num ∧ c.reg = l.startRegs (s.core core).ranges frame

/-- The page of an IA stays present, writable and dirty whatever the bytes of some stretches of memory become. -/
def Seated (s : State) (ia loc : Nat) (spans : List (Nat × Nat)) : Prop :=
  ∀ t : State, t.packages = s.packages → t.ctl = s.ctl →
    (∀ a, (∀ p ∈ spans, a < p.1 ∨ p.1 + p.2 ≤ a) → cellGet t.mem a = cellGet s.mem a) →
    ∀ k token, k ≠ .fetch → t.meet ia k token = (.ok loc, t)

/-- The registers of a context behind the GZBEGIN of a region that has ended with a code (R330, R336). -/
def Region.aborted (r : Region) (old : Regs) (code : Nat) : Regs :=
  let k := r.ckpt
  let w := old.gzstat
  let cyc := if code = 1 then min (bitsOf w 19 18 + 1) 3 else if code = 2 then bitsOf w 19 18 else 0
  { old with
    x := (({ old with x := k.x } : Regs).put r.gzd (BitVec.ofNat 64 code)).x
    v := k.v, m := k.m, t := k.t, q := k.q, fps := k.fps, shape := k.shape, pc := r.gzpc + 4
    gzstat := BitVec.ofNat 64 (bitsOf w 63 56 * 2 ^ 56 + (r.die / 4 * 2 ^ 12 + r.die % 4 * 2 ^ 10 + r.entry) * 2 ^ 41 +
      cyc * 2 ^ 18 + (if code = 4 then 2 ^ 17 else 0) + code * 2 ^ 12) }

/-- The mailbox address of a destination word is that of a context in a slot whose inbox has room (R277): it holds fewer
than three entries of its own, or a shared one is free. -/
def Accepts (s : State) (dest : Word) (c : Context) : Prop :=
  dest.getLsbD 37 = false ∧ s.mailbox (destCore dest) (dest.toNat % 2 ^ 6) = some c ∧ s.ctx c.id.uid = some c ∧
    c.sched.place = .slot ∧ c.mail.frame = [] ∧
    ((c.mail.inbox.filter (fun e => e.core.isNone)).length < 3 ∨ 0 < s.sharedFree c.id.core)

/-- A message entered into an inbox: into a guaranteed entry where the context has one free, else into a shared one of a
core. -/
def Context.take (core : Nat) (m : Message) (c : Context) : Context :=
  { c with mail := { c.mail with
    inbox := c.mail.inbox ++ [⟨m, if 3 ≤ (c.mail.inbox.filter (fun e => e.core.isNone)).length then some core else none⟩] } }

/-- Where the host or an agent of it reaches memory: not a window, a TCM or a reserved place. -/
def HostPlace (s : State) (ia : Nat) : Prop :=
  s.whereIs ia = .pageable ∨ (∃ d, s.whereIs ia = .lagoon d) ∨ ∃ c, s.whereIs ia = .palette c

/-- A machine-check record (R362). -/
def checkRecord (s : State) (ia unit kind cause token : Nat) (detail : Word) : List Byte :=
  toBytes 8 s.tstamp ++ toBytes 8 ia ++ toBytes 2 unit ++ toBytes 1 kind ++ toBytes 1 cause ++ toBytes 4 token ++
    toBytes 8 detail.toNat

/-- No release narrower than system is noted with a line of n bytes at an IA (R304). -/
def Unnoted (s : State) (ia n : Nat) : Prop := ∀ r ∈ s.narrow, r.line < ia / 128 ∨ (ia + n - 1) / 128 < r.line

/-- A ferry may work on a command: the earlier ones of its chain have been fetched, it has been accepted and fetched too,
its chain object can be reached and is not HALTED, and its 64 bytes can be read. -/
def Fetched (s : State) (f : FerryCmd) (loc : Nat) (bs : List Byte) : Prop :=
  s.ferryCmd f.chain f.seq = some f ∧ s.objBusy f.chain = false ∧ s.meet f.chain .atomic f.token = (.ok loc, s) ∧
    f.accepted = true ∧ f.started = true ∧ f.performed = false ∧ f.page = none ∧
    (∀ g ∈ s.ferryBefore f.chain f.seq, g.started = true) ∧ s.numAt (loc + 0x1A) 1 ≠ 2 ∧
    f.bytes f.cmdVa.toNat 64 s = .ok bs s

/-- The opcode of a ferry's step on a command (R269). -/
def ferryCode (i : Instr) : Option (Nat × Nat × Nat) :=
  match i with
  | .ferryCopy chain seq => some (1, chain, seq)
  | .ferryGather chain seq => some (2, chain, seq)
  | .ferryScatter chain seq => some (3, chain, seq)
  | .ferryFill chain seq => some (4, chain, seq)
  | .ferryRingput chain seq => some (5, chain, seq)
  | .ferryReduce chain seq => some (8, chain, seq)
  | .ferryGcopy chain seq => some (9, chain, seq)
  | _ => none

/-- A step of a ferry reaches the end of a command's units, and leaves none of its writes for after its completion (R297, R307). -/
def Ends (f : FerryCmd) (c : FerryFields) : Prop := f.early = false ∧ c.total ≤ c.until f.pos f.pace

/-- What an element of a REDUCE becomes, by FMT (R209, R210, R269): the sum, or the signed minimum or maximum. The sum of FP32
values is that of the atomic units. -/
def reduced (fmt old src : Nat) : Nat :=
  let n := if fmt % 16 = 7 then 8 else 4
  if fmt / 16 = 1 then (if signedIn n src < signedIn n old then src else old)
  else if fmt / 16 = 2 then (if signedIn n old < signedIn n src then src else old)
  else if fmt % 16 = 2 then (atomicFAdd FP32 old src).1
  else (old + src) % 2 ^ (8 * n)

/-- Some bytes of a granule, at least one, have become poisoned: which ones is free (R361, log 5). -/
def Spoils (s t : State) (key : Nat) : Prop :=
  { t with poison := s.poison, freeAt := s.freeAt } = s ∧ t.freeAt = s.freeAt + 1 ∧
    ∃ hit : Nat → Bool, (∃ k, k < 32 ∧ hit k = true) ∧
      ∀ b, b ∈ t.poison ↔ b ∈ s.poison ∨ (b / 32 = key ∧ hit (b % 32) = true)

/-- A machine-check record stands in the ring of a die, and Atelier has reported it (R362, R396; log 128). -/
def Reports (s t : State) (die : Nat) (record : List Byte) : Prop :=
  ∃ u, Posts s u die 0x070 0x078 0 record ∧ t = u.setAtel (die / 4)
    { u.atel (die / 4) with reports := (u.atel (die / 4)).reports ++ [record] }

/-- A command's accesses are over with a status, and its completion is due. -/
def Performed (s t : State) (f : FerryCmd) (status : Nat) : Prop :=
  t.ferry = s.ferry.map (fun g => if g.chain = f.chain ∧ g.seq = f.seq ∧ g.completed = false
    then { g with performed := true, plan := some [], page := none, status := status, errAddr := 0 } else g) ∧
  t.agenda = s.agenda ++ [.ferryComplete f.chain]

end Sys2Proof.Machine
end

