-- ==== Sys2Proof/Certificates/Slice0/Obligations.lean ====
section
/-! DEFINITION. Obligations.lean: the statements for the provers. A statement of several parts is the conjunction of the
parts, Claim.<Name>, that stand before it. -/

open Sys2Proof Sys2Proof.Machine

/-! Encodings. -/

/-- R125: ADDI has major 0x03 and the RI format, and its effect is x[D] := (x[A] + SignExtend64(IMM16)) mod 2^64. With
D = 0 it executes, and its result is discarded. -/
def Obligations.AddiWhole : Prop :=
  ∀ (s : State) (d a : XReg) (imm : BitVec 16),
    decodeParcels (0x03 * 2 ^ 26 + d.val * 2 ^ 21 + a.val * 2 ^ 16 + imm.toNat) 0 = .ok (.addi d a imm) ∧
    ∃ t, exec (.addi d a imm) s = .next t ∧
      Finishes s t (s.gpr d (BitVec.ofInt 64 ((s.arg a).toNat + imm.toInt)) 4)

/-- R95: every parcel with major 0x01 is a no-operation, whatever its other 26 bits hold: it moves the program counter
on by 4, and nothing else of registers and memory changes. NOP assembles to 0x0400_0000. -/
def Obligations.HintSpace : Prop :=
  encode (.nop 0) = [0x04000000] ∧
  ∀ (s : State) (hint : BitVec 26) (v : Nat),
    decodeParcels (0x01 * 2 ^ 26 + hint.toNat) v = .ok (.nop hint) ∧ checkFields (.nop hint) = none ∧
    ∃ t, exec (.nop hint) s = .next t ∧ Finishes s t (s.cur.reg.step 4)

/-- R126: the two forms of LIH, the fields of W0 that must be zero, the hint bit W0[0], and the effects. The examples
of the rule are its last clause. -/
def Obligations.LihWhole : Prop :=
  (∀ (d : XReg) (imm : BitVec 32) (k : Nat), k < 2 ^ 13 →
    decodeParcels (0x3F * 2 ^ 26 + 0x08 * 2 ^ 18 + d.val * 2 ^ 13 + k) imm.toNat =
      (if k / 2 = 0 then .ok (.lih d imm) else .error .illegalField) ∧
    decodeParcels (0x3F * 2 ^ 26 + 0x09 * 2 ^ 18 + d.val * 2 ^ 13 + k) imm.toNat =
      (if k / 2 = 0 then .ok (.lihHi d imm) else .error .illegalField)) ∧
  (∀ (s : State) (d : XReg) (imm : BitVec 32),
    (∃ t, exec (.lih d imm) s = .next t ∧ Finishes s t (s.gpr d (imm.signExtend 64) 8)) ∧
    (∃ t, exec (.lihHi d imm) s = .next t ∧
      Finishes s t (s.gpr d (imm ++ (s.arg d).extractLsb' 0 32) 8))) ∧
  encode (.lih 5 0x12345678) = [0xFC20A000, 0x12345678] ∧ encode (.lihHi 5 0x42) = [0xFC24A000, 0x42]

/-! Integer instructions, branches and jumps. -/

/-- R123 to R126: every integer instruction but CLZ, CTZ and POPC writes its result in x[D], a write to x0 being
discarded, and leaves every other register, every flag and every byte of memory. -/
def Claim.IntegerResults : Prop :=
  ∀ (s : State) (i : Instr) (d : XReg) (w : Word) (n : Nat), s.integerRow i = some (d, w, n) →
    ∃ t, exec i s = .next t ∧ Finishes s t (s.gpr d w n)

/-- R123: CLZ and CTZ count the zero bits above and below the highest and the lowest one bit, 64 where there is none, and
POPC counts the one bits. -/
def Claim.BitCounts : Prop :=
  ∀ (s : State) (d a : XReg),
    (∃ t n, exec (.clz d a) s = .next t ∧ Finishes s t (s.gpr d (BitVec.ofNat 64 n) 4) ∧ n ≤ 64 ∧
      (∀ k, k < n → (s.arg a).getLsbD (63 - k) = false) ∧ (n < 64 → (s.arg a).getLsbD (63 - n) = true)) ∧
    (∃ t n, exec (.ctz d a) s = .next t ∧ Finishes s t (s.gpr d (BitVec.ofNat 64 n) 4) ∧ n ≤ 64 ∧
      (∀ k, k < n → (s.arg a).getLsbD k = false) ∧ (n < 64 → (s.arg a).getLsbD n = true)) ∧
    (∃ t, exec (.popc d a) s = .next t ∧
      Finishes s t (s.gpr d (BitVec.ofNat 64 ((List.range 64).filter (fun k => (s.arg a).getLsbD k)).length) 4))

/-- R123 to R126: the integer instructions: those with a row of results, and the counts of bits. -/
def Obligations.IntegerInstructions : Prop := Claim.IntegerResults ∧ Claim.BitCounts

/-- R78, R127, R128: a branch that is not taken goes on at PC + 4; one that is taken, or a jump, goes to its target and
writes its link where the target is a multiple of 4 below 2^60. -/
def Obligations.ControlTransfers : Prop :=
  ∀ (s : State) (i : Instr),
    (∀ off, s.branchRow i = some (false, off) → ∃ t, exec i s = .next t ∧ Finishes s t (s.cur.reg.step 4)) ∧
    (∀ off, s.branchRow i = some (true, off) →
      let target : Word := BitVec.ofInt 64 (s.cur.reg.pc.toNat + off * 4)
      target.toNat % 4 = 0 → target.toNat < 2 ^ 60 →
      ∃ t, exec i s = .next t ∧ Finishes s t { s.cur.reg with pc := target }) ∧
    (∀ target d n, s.jumpRow i = some (target, d, n) → target.toNat % 4 = 0 → target.toNat < 2 ^ 60 →
      ∃ t, exec i s = .next t ∧
        Finishes s t { s.cur.reg.put d (s.cur.reg.pc + BitVec.ofNat 64 n) with pc := target })

/-- R78: a taken branch or a jump to a target that is no multiple of 4 raises MISALIGNED at that instruction, and one to
a target of 2^60 or more RANGE_FAULT, with the target in EADDR; neither the link register nor the program counter
changes. -/
def Obligations.TransferTraps : Prop :=
  ∀ (s : State) (i : Instr) (target : Word), TrapReady s →
    ((∃ off, s.branchRow i = some (true, off) ∧ target = BitVec.ofInt 64 (s.cur.reg.pc.toNat + off * 4)) ∨
      ∃ d n, s.jumpRow i = some (target, d, n)) →
    (target.toNat % 4 ≠ 0 → ∃ t, exec i s = .next t ∧
      Traps s t 0x04 s.cur.reg.edepth s.cur.reg.pc target s.cur.reg.pc) ∧
    (target.toNat % 4 = 0 → 2 ^ 60 ≤ target.toNat → ∃ t, exec i s = .next t ∧
      Traps s t 0x05 s.cur.reg.edepth s.cur.reg.pc target s.cur.reg.pc)

/-! Scalar floating point, loads and stores. -/

/-- R130 to R136: a scalar floating-point instruction writes its pattern, zero-extended, and ORs its flags into FPS; a
conversion that rounds stochastically steps FPS.LFSR once. -/
def Obligations.FloatResults : Prop :=
  ∀ (s : State) (i : Instr) (r : Regs) (d : XReg) (v : Nat) (f : Flags), s.floatRow i = some (r, d, v, f) →
    ∃ t, exec i s = .next t ∧ Finishes s t (((r.put d (BitVec.ofNat 64 v)).flag f).step 4)

/-- R80: the effective address. In ADDRESS mode and in the supervisor it is base plus offset mod 2^64, RANGE_FAULT with
that value at 2^60 or more; in SEGMENT mode the offset part is checked against the limit of the segment that the top
four bits name, and SEG_LIMIT reports its base plus the offset. R80 gives no check behind the limit in SEGMENT mode: that
base plus offset of 2^60 or more raises RANGE_FAULT there, and that the values reported are taken mod 2^64, is the model's
reading (log 18). -/
def Obligations.EffectiveAddress : Prop :=
  ∀ (c : Context) (base : Word) (off : Int) (n : Nat),
    let va : Nat := ((base.toNat + off) % 2 ^ 64).toNat
    ((c.reg.segMode = false ∨ c.id.sup = true) →
      c.effective base off n = if va < 2 ^ 60 then .ok va else .error (0x05, va)) ∧
    (c.reg.segMode = true → c.id.sup = false →
      ∀ g : Fin 16, g.val = base.toNat / 2 ^ 60 →
        let o : Int := base.toNat % 2 ^ 60 + off
        let lin : Int := (c.reg.sg[g]).base.toNat + o
        c.effective base off n =
          if o < 0 ∨ o + n > (c.reg.sg[g]).limit.toNat then .error (0x08, (lin % 2 ^ 64).toNat)
          else if lin < 2 ^ 60 then .ok lin.toNat else .error (0x05, (lin % 2 ^ 64).toNat))

/-- R191 to R194: a load whose address is mapped, aligned and in ordinary memory writes the bytes that memory holds,
zero-extended, and changes nothing else. An invariant one does so where its promise has been kept (R197), and what it
promises is noted. -/
def Obligations.LoadsComplete : Prop :=
  ∀ (s : State) (i : Instr) (f : AccessForm) (va ia loc : Nat), loadRow i = some f → Calm s →
    s.cur.effective (s.arg f.a) f.off f.n = .ok va → va % f.n = 0 → Reaches s .read va ia loc →
    s.poisoned loc f.n = false → (f.m.cls = 2 → Promised s loc f.n) →
    ∃ t, exec i s = .next t ∧
      Finishes s (t.unpromised s f.m) (s.gpr f.t (BitVec.ofNat 64 (fromBytes (s.bytesAt loc f.n))) f.len)

/-- R191 to R194: a store that no counter counts writes the low bytes of its register at its location and no other byte
of memory. -/
def Claim.Stores : Prop :=
  ∀ (s : State) (i : Instr) (f : AccessForm) (va ia loc : Nat), storeRow i = some f → Still s →
    s.cur.effective (s.arg f.a) f.off f.n = .ok va → va % f.n = 0 → Reaches s .write va ia loc →
    s.postKind s.cur ia (f.m.cls = 2) = none → Plain s ia f.n →
    ∃ t, exec i s = .next t ∧
      FinishesStore s t (s.cur.reg.step f.len) loc (toBytes f.n ((s.arg f.t).toNat % 2 ^ (8 * f.n)))

/-- R198, R199: a streaming store and a store to a lagoon or to another cluster's palette retires before it is
performed: it stands among the context's posted stores, and no byte of memory has changed. -/
def Claim.PostedStores : Prop :=
  ∀ (s : State) (i : Instr) (f : AccessForm) (va ia : Nat) (k : PostKind), storeRow i = some f → Still s →
    s.cur.effective (s.arg f.a) f.off f.n = .ok va → va % f.n = 0 → Maps s .write va ia →
    s.postKind s.cur ia (f.m.cls = 2) = some k →
    ∃ t, exec i s = .next t ∧
      Leaves s t (s.cur.reg.step f.len)
        { s.cur.io with
          posted := [⟨k, [(ia, toBytes f.n ((s.arg f.t).toNat % 2 ^ (8 * f.n)))], s.cur.bits, false, false, s.now,
            s.storeGateOf f.m⟩] }
        [.postedAck s.cur.id.uid]

/-- R191 to R194, R198, R199: a store writes its bytes and no other; one that a counter counts retires before it is
performed. -/
def Obligations.StoresComplete : Prop := Claim.Stores ∧ Claim.PostedStores

/-- R80, R176, R177, R192: a scalar load or store whose effective address fails, is no multiple of its size, is mapped by
no range that permits the access, or is mapped to a reserved IA, to a window or to another core's TCM traps with the
address in EADDR, and has no other effect. So does one that a leaf refuses at the memory side (R183, R186), and a store to
a capability list (R25, log 82). -/
def Obligations.AccessTraps : Prop :=
  ∀ (s : State) (i : Instr) (f : AccessForm) (k : Access), TrapReady s →
    ((loadRow i = some f ∧ k = .read) ∨ (storeRow i = some f ∧ k = .write)) →
    let ends (cause eaddr : Nat) : Prop := ∃ t, exec i s = .next t ∧
      Traps s t cause s.cur.reg.edepth s.cur.reg.pc (BitVec.ofNat 64 eaddr) s.cur.reg.pc
    (∀ cause info, s.cur.effective (s.arg f.a) f.off f.n = .error (cause, info) → ends cause info) ∧
    (∀ va, s.cur.effective (s.arg f.a) f.off f.n = .ok va →
      (va % f.n ≠ 0 → ends 0x04 va) ∧
      (∀ cause, va % f.n = 0 → va < 2 ^ 60 → s.cur.mapVa k va = .error cause → ends cause va) ∧
      (∀ ia, va % f.n = 0 → va < 2 ^ 60 → s.cur.mapVa k va = .ok ia →
        (s.whereIs ia = .reserved → ends 0x05 va) ∧
        ((∃ c o, s.whereIs ia = .inbox c o) ∨ (∃ d o, s.whereIs ia = .control d o) ∨
          (∃ c, s.whereIs ia = .tcm c ∧ c ≠ s.cur.id.core) → ends 0x07 va) ∧
        (s.atomicAt ia s.cur.id.core = true → Still s →
          (k = .write → s.postKind s.cur ia (f.m.cls = 2) = none) →
          (∀ cause, s.meet ia k s.cur.token = (.fail cause, s) → ends cause va) ∧
          (∀ loc, k = .write → s.meet ia k s.cur.token = (.ok loc, s) → s.readOnly loc f.n = true → ends 0x07 va))))

/-- R206 to R210: a returning atomic gives x[D] the old value, zero-extended, stores the new one in one step, and ORs the
flags of a floating-point addition into FPS. -/
def Obligations.AtomicsComplete : Prop :=
  ∀ (s : State) (i : Instr) (d a b : XReg) (n : Nat) (f : Nat → Word → Word → Nat × Flags) (va ia loc : Nat),
    amoRow i = some (d, a, b, n, f) → Calm s →
    s.cur.effective (s.arg a) 0 n = .ok va → va % n = 0 → Reaches s .atomic va ia loc →
    s.poisoned loc n = false → Plain s ia n →
    let old := fromBytes (s.bytesAt loc n)
    let r := f old (s.arg b) (s.arg d)
    ∃ t, exec i s = .next t ∧
      FinishesStore s t (((s.cur.reg.put d (BitVec.ofNat 64 old)).flag r.2).step 4) loc (toBytes n r.1)

/-- R211, R212: a reduction retires before it is performed: it stands among the context's pending reductions, its two
steps at the atomic unit are laid down, and no byte of memory has changed. -/
def Claim.ReductionsQueue : Prop :=
  ∀ (s : State) (i : Instr) (a b : XReg) (fn : AmoFn) (n va ia : Nat) (scope : Fin 8) (rel : Bool),
    redRow i = some (a, b, fn, n, scope, rel) → Still s →
    s.cur.effective (s.arg a) 0 n = .ok va → va % n = 0 → Maps s .atomic va ia →
    ∃ t, exec i s = .next t ∧
      Leaves s t (s.cur.reg.step 4) { s.cur.io with
          reds := [⟨fn, n, ia, s.arg b, s.cur.bits, false, false, s.now, s.gate 0 rel false scope.val⟩] }
        [.redPerform s.cur.id.uid, .redAck s.cur.id.uid]

/-- R204, R205, R215: a fence of a context with nothing in flight retires at once; one of cluster scope or wider ORs the
deferred flags of the reductions into FPS. -/
def Claim.FencesComplete : Prop :=
  ∀ (s : State) (i : Instr) (scope : Fin 8), fenceRow i = some scope → Still s →
    ∃ t, exec i s = .next t ∧
      if 2 ≤ scope.val then
        Leaves s t ((s.cur.reg.flag s.cur.io.deferred).step 4) { s.cur.io with deferred := 0 } []
      else Leaves s t (s.cur.reg.step 4) s.cur.io []

/-- R204, R205, R211 to R215: reductions retire before they are performed; a fence waits for what is in flight and
collects the deferred flags. -/
def Obligations.ReductionsAndFences : Prop := Claim.ReductionsQueue ∧ Claim.FencesComplete

/-- R177, R184: LD.D and ST.D of a supervisor at a register of a control block read and write that register, a store that
releases ending the reach of a fence and being noted as a release (R100, R304). A register that holds what it was given
reads it back, and takes the bits that software writes of it; MCCTL.DROPPED is cleared by ones (R362). EVCIDX is each
core's own (R389). -/
def Obligations.ControlRegisters : Prop :=
  ∀ (s : State) (x a : XReg) (m : MemAttr) (off : BitVec 9) (va ia die reg : Nat), Calm s → s.cur.id.sup = true →
    s.cur.effective (s.arg a) (off.toInt * 8) 8 = .ok va → va % 8 = 0 → s.whereIs ia = .control die reg →
    let core := s.cur.id.core
    let w := s.arg x
    let idx (s : State) : Word := tabGet 0 s.evcidx (die * 0x1000 + core)
    (s.cur.mapVa .read va = .ok ia → ∃ t v, exec (.ldD x a m off) s = .next t ∧ Finishes s t (s.gpr x v 4) ∧
      v = s.regRead die reg core ∧ (PlainRegister reg → v = s.ctlGet die reg) ∧ (reg = 0x080 → v = idx s)) ∧
    (s.cur.mapVa .write va = .ok ia → ∃ t, exec (.stD x a m off) s = .next t ∧
      let s0 : State := if m.cls = 1 ∨ m.cls = 3 then
        { s with cur := { s.cur with order := { s.cur.order with fenced := none } } } else s
      let s1 := s0.regWrite die reg core w
      Finishes s1 { t with narrow := s1.narrow, flushes := s1.flushes } (s1.cur.reg.step 4) ∧
      (PlainRegister reg → (reg = 0x0A0 → (s.die die).energyWait = []) → ∀ k, k < 64 →
        (t.ctlGet die reg).getLsbD k =
          if ∃ p ∈ softwareBits reg, p.2 ≤ k ∧ k ≤ p.1 then w.getLsbD k
          else if reg = 0x078 ∧ 32 ≤ k ∧ k < 48 ∧ w.getLsbD k = true then false
          else (s.ctlGet die reg).getLsbD k) ∧
      (reg = 0x080 → idx t = w &&& 0x1FF))

/-! Vectors. -/

/-- R146 to R149, R154 to R161: an instruction that works element by element writes its results where the mask selects
them, with the flags of the selected elements alone. -/
def Obligations.VectorLanes : Prop :=
  ∀ (s : State) (i : Instr) (f : LaneForm), s.laneRow i = some f → s.fits (fmtWidth f.f) →
    (∀ a ∈ f.sources, s.carries a f.f) →
    ∃ t, exec i s = .next t ∧
      Writes s t f.p f.d (fmtWidth f.f) f.f false (s.isOn f.p (fmtWidth f.f)) (fun k => (f.res k).1)
        (s.cur.reg.flag (flagsUpTo s.elements (s.isOn f.p (fmtWidth f.f)) (fun k => (f.res k).2)))

/-- R157, R158, R161: VSEL takes each element below n from v[A] where the mask selects it and from v[B] elsewhere. VPERM
takes element j of v[A] where element i of v[B] is j, and zero where j is not below n. VMOV with .u copies a register
whole. -/
def Claim.VectorMoves : Prop :=
  ∀ (s : State) (p : Option Vpx) (f : FmtCode) (d a b : VNum),
    let w := fmtWidth f
    (s.fits w → s.carries a f → s.carries b f → ∃ t, exec (.vsel p f d a b) s = .next t ∧
      Writes s t p d w f false (fun _ => true)
        (fun k => laneOf w (if s.isOn p w k then s.cur.reg.v[a].bits else s.cur.reg.v[b].bits) k) s.cur.reg) ∧
    (s.fits w → s.carries a f → 7 ≤ s.cur.reg.v[b].tag.val → s.cur.reg.v[b].tag.val ≤ 11 →
      fmtWidth s.cur.reg.v[b].tag = w → ∃ t, exec (.vperm p f d a b) s = .next t ∧
      Writes s t p d w f false (s.isOn p w)
        (fun k => let j := laneOf w s.cur.reg.v[b].bits k
          if j < s.elements then laneOf w s.cur.reg.v[a].bits j else 0) s.cur.reg) ∧
    (∃ t, exec (.vmov p 0 d a) s = .next t ∧
      Finishes s t (({ s.cur.reg with v := s.cur.reg.v.set d s.cur.reg.v[a] } : Regs).step (lenOf p)))

/-- R156: a comparison writes to each selected bit below n of m[D] whether its condition holds, clears the others with MZ
and keeps them without, and clears the bits from n up. -/
def Claim.VectorCompares : Prop :=
  ∀ (s : State) (i : Instr) (p : Option Vpx) (f : FmtCode) (d : MNum) (a b : VNum) (cond : Nat),
    compareRow i = some (p, f, d, a, b, cond) → s.fits (fmtWidth f) → s.elements ≤ 512 → s.carries a f →
    s.carries b f →
    let w := fmtWidth f
    let res (k : Nat) : Bool × Flags := laneCmp f cond (laneOf w s.cur.reg.v[a].bits k) (laneOf w s.cur.reg.v[b].bits k)
    ∃ t y, exec i s = .next t ∧
      Finishes s t ((({ s.cur.reg with m := s.cur.reg.m.set d y } : Regs).flag
        (flagsUpTo s.elements (s.isOn p w) (fun k => (res k).2))).step (lenOf p)) ∧
      ∀ k, k < 512 → y.getLsbD k =
        if s.elements ≤ k then false
        else if s.isOn p w k then (res k).1
        else if zeroing p then false else (s.cur.reg.m[d]).getLsbD k

/-- R30, R159: VAND, VOR and VXOR combine the bits of two registers of any format: with .u the whole registers, else the
selected elements; the result's tag and companion bit are those that the sources have in common, else UNTYPED. -/
def Claim.VectorLogic : Prop :=
  ∀ (s : State) (i : Instr) (p : Option Vpx) (f : FmtCode) (d a b : VNum)
    (fn : BitVec 4096 → BitVec 4096 → BitVec 4096), logicRow i = some (p, f, d, a, b, fn) →
    s.cur.reg.v[a].tag ≠ 15 → s.cur.reg.v[b].tag ≠ 15 →
    let va := s.cur.reg.v[a]
    let vb := s.cur.reg.v[b]
    let same : Bool := va.tag = vb.tag && va.comp = vb.comp
    let tag : FmtCode := if same then va.tag else 0
    (f = 0 → ∃ t, exec i s = .next t ∧ Finishes s t (({ s.cur.reg with
      v := s.cur.reg.v.set d ⟨fn va.bits vb.bits, tag, same && va.comp⟩ } : Regs).step (lenOf p))) ∧
    (f ≠ 0 → s.fits (fmtWidth f) → ∃ t, exec i s = .next t ∧
      Writes s t p d (fmtWidth f) tag (same && va.comp && tag = 14) (s.isOn p (fmtWidth f))
        (laneOf (fmtWidth f) (fn va.bits vb.bits)) s.cur.reg)

/-- R30, R157 to R161: instructions that select, permute and copy elements, and the bitwise ones. -/
def Obligations.VectorSelections : Prop := Claim.VectorMoves ∧ Claim.VectorLogic

/-- R160: a reduction gives every element of a row or of a column the sum or the largest of its selected elements. -/
def Claim.VectorReductions : Prop :=
  ∀ (s : State) (i : Instr) (p : Option Vpx) (f : FmtCode) (d a : VNum) (rows : Bool) (fn : List Nat → Nat × Flags),
    s.reduceRow i = some (p, f, d, a, rows, fn) → s.fits (fmtWidth f) → s.carries a f →
    let w := fmtWidth f
    let line (k : Nat) : Nat := if rows then k / s.columns else k % s.columns
    let res (k : Nat) : Nat × Flags := fn (((List.range s.elements).filter
      (fun j => line j = line k && s.isOn p w j)).map (laneOf w s.cur.reg.v[a].bits))
    ∃ t, exec i s = .next t ∧
      Writes s t p d w f false (fun _ => true) (fun k => (res k).1)
        (s.cur.reg.flag (flagsUpTo s.elements (fun _ => true) (fun k => (res k).2)))

/-- R156, R160: comparisons write a mask register; reductions give each row or column one result. -/
def Obligations.VectorReduces : Prop := Claim.VectorCompares ∧ Claim.VectorReductions

/-- R44, R149, R162: a conversion writes each selected element converted; in SR mode each steps FPS.LFSR, in ascending
order. No table write of the cluster waits. -/
def Obligations.VectorConversions : Prop :=
  ∀ (s : State) (i : Instr) (p : Option Vpx) (dst src : FmtCode) (sat : Bool) (d a : VNum),
    convertRow i = some (p, dst, src, sat, d, a) → s.fits (fmtWidth dst) → s.fits (fmtWidth src) → s.carries a src →
    (s.cluster (s.cur.id.core / 4)).table = [] →
    let w := fmtWidth dst
    let bank : Bool := (p.map (fun v => decide (v.c.val % 2 = 1))).getD false
    let mode := s.vecMode p (3 ≤ dst.val && dst.val ≤ 6)
    let res (k : Nat) : Nat × Flags := convert dst src mode (s.lfsrAt p w mode (k + 1)) sat (s.codes dst bank)
      (s.codes src s.cur.reg.v[a].comp) (laneOf (fmtWidth src) s.cur.reg.v[a].bits k)
    let r := s.cur.reg.flag (flagsUpTo s.elements (s.isOn p w) (fun k => (res k).2))
    ∃ t, exec i s = .next t ∧
      Writes s t p d w dst (bank && dst = 14) (s.isOn p w) (fun k => (res k).1)
        { r with fps := s.lfsrAt p w mode s.elements ++ r.fps.extractLsb' 0 32 }

/-- R112, R163, R164: VSHAPE writes the old SHAPE to x[D] and ROWS and COLS from its operands; the mask instructions
combine whole m registers, and MPOP counts the one bits of one. -/
def Obligations.MasksAndShape : Prop :=
  ∀ (s : State) (p : Option Vpx) (f : FmtCode) (m a b : MNum) (d x y : XReg),
    let r := s.cur.reg
    let maskTo (w : BitVec 512) : Regs := ({ r with m := r.m.set m w } : Regs).step (lenOf p)
    (∃ t, exec (.mand p f m a b) s = .next t ∧ Finishes s t (maskTo (r.m[a] &&& r.m[b]))) ∧
    (∃ t, exec (.mor p f m a b) s = .next t ∧ Finishes s t (maskTo (r.m[a] ||| r.m[b]))) ∧
    (∃ t, exec (.mnot p f m a) s = .next t ∧ Finishes s t (maskTo (~~~r.m[a]))) ∧
    (∃ t, exec (.mpop p f d a) s = .next t ∧ Finishes s t (s.gpr d
      (BitVec.ofNat 64 ((List.range 512).filter (fun k => r.m[a].getLsbD k)).length) (lenOf p))) ∧
    (1 ≤ (s.arg x).toNat → (s.arg x).toNat ≤ 1024 → 1 ≤ (s.arg y).toNat → (s.arg y).toNat ≤ 1024 →
      (s.arg x).toNat * (s.arg y).toNat ≤ 1024 → ∃ t, exec (.vshape p f d x y) s = .next t ∧
      Finishes s t (({ (r.put d r.shape) with
        shape := r.shape.extractLsb' 32 32 ++ (s.arg x).extractLsb' 0 16 ++ (s.arg y).extractLsb' 0 16 } : Regs).step
          (lenOf p)))

/-- R151, R152: VLD and VLDG read each selected piece where it lies: VLD at its base plus the piece's offset, VLDG at the
element's index times the element's size. -/
def Claim.VectorLoads : Prop :=
  ∀ (s : State) (p : Option Vpx) (f : FmtCode) (d : VNum) (a : XReg) (ia loc : Nat → Nat), Calm s →
    let w := fmtWidth f
    let n := pieceSize w
    let there (va : Nat → Nat) : Prop := ∀ i ∈ s.selected p w,
      Reaches s .read (va i) (ia i) (loc i) ∧ s.poisoned (loc i) n = false
    (∀ (m : MemAttr) (off : BitVec 5) (base : Nat), f ≠ 15 →
      s.cur.effective (s.arg a) (off.toInt * 512) (if w = 0 then 512 else s.elements * w / 8) = .ok base →
      base % (if w = 0 then 64 else n) = 0 → there (fun i => base + i * n) → (f ≠ 0 → s.fits w) →
      (m.cls = 2 → ∀ i ∈ s.selected p w, Promised s (loc i) n) →
      (f = 0 → ∃ t, exec (.vld p f d a m off) s = .next t ∧ Finishes s (t.unpromised s m) (({ s.cur.reg with
        v := s.cur.reg.v.set d ⟨BitVec.ofNat 4096 (fromBytes ((List.range 16).flatMap (fun i => s.bytesAt (loc i) 32))),
          0, false⟩ } : Regs).step (lenOf p))) ∧
      (f ≠ 0 → ∃ t, exec (.vld p f d a m off) s = .next t ∧
        Writes s (t.unpromised s m) p d w f ((s.cluster (s.cur.id.core / 4)).bank && f = 14) (s.isOn p w)
          (s.loadedLane w loc) s.cur.reg)) ∧
    (∀ (b : VNum) (va : Nat → Nat), 8 ≤ w → s.fits w →
      (s.cur.reg.v[b].tag = 7 ∨ s.cur.reg.v[b].tag = 8) → s.fits (fmtWidth s.cur.reg.v[b].tag) →
      let wi := fmtWidth s.cur.reg.v[b].tag
      (∀ i ∈ s.selected p w, s.cur.effective (s.arg a) (signedBits wi (laneOf wi s.cur.reg.v[b].bits i) * n) n =
        .ok (va i) ∧ va i % n = 0) → there va →
      ∃ t, exec (.vldg p f d a b) s = .next t ∧
        Writes s t p d w f false (s.isOn p w) (s.loadedLane w loc) s.cur.reg)

/-- R151, R153: VST and VSTS write each selected piece of v[T] where it lies, in ascending order, and no other byte of
memory: memory afterwards is memory before with those pieces written. No two pieces reach one granule of memory under two
intermediate addresses. -/
def Claim.VectorStores : Prop :=
  ∀ (s : State) (p : Option Vpx) (f : FmtCode) (d : VNum) (a : XReg) (ia loc : Nat → Nat), Still s →
    let w := fmtWidth f
    let n := pieceSize w
    let there (va : Nat → Nat) (streaming : Bool) : Prop := ∀ i ∈ s.selected p w,
      Reaches s .write (va i) (ia i) (loc i) ∧ s.postKind s.cur (ia i) streaming = none ∧ Plain s (ia i) n ∧
        ∀ j ∈ s.selected p w, loc i / 32 = loc j / 32 → ia i / 32 = ia j / 32
    let stored (t : State) : Prop := Retired s t (s.cur.reg.step (lenOf p)) ∧ BesideMemory s t ∧
      t.mem = s.scattered w s.cur.reg.v[d].bits loc (s.selected p w)
    (∀ (m : MemAttr) (off : BitVec 5) (base : Nat), f ≠ 15 →
      s.cur.effective (s.arg a) (off.toInt * 512) (if w = 0 then 512 else s.elements * w / 8) = .ok base →
      base % (if w = 0 then 64 else n) = 0 → there (fun i => base + i * n) (m.cls = 2) →
      ((f = 0 ∧ s.cur.reg.v[d].tag ≠ 15) ∨ (s.fits w ∧ s.carries d f)) →
      ∃ t, exec (.vst p f d a m off) s = .next t ∧ stored t) ∧
    (∀ (b : VNum) (va : Nat → Nat), 8 ≤ w → s.fits w → s.carries d f →
      (s.cur.reg.v[b].tag = 7 ∨ s.cur.reg.v[b].tag = 8) → s.fits (fmtWidth s.cur.reg.v[b].tag) →
      let wi := fmtWidth s.cur.reg.v[b].tag
      (∀ i ∈ s.selected p w, s.cur.effective (s.arg a) (signedBits wi (laneOf wi s.cur.reg.v[b].bits i) * n) n =
        .ok (va i) ∧ va i % n = 0) → there va false →
      ∃ t, exec (.vsts p f d a b) s = .next t ∧ stored t)

/-- R151 to R153: vector loads and stores, contiguous and indexed. -/
def Obligations.VectorAccesses : Prop := Claim.VectorLoads ∧ Claim.VectorStores

/-! System instructions. -/

/-- R70, R71, R111 to R118, R336, R343, R355: SRD of every register that R111 lists reads what it holds, but for SPILLBASE
in a user context, which reads 0; a number that is not listed raises ILLEGAL_FIELD, for SRD and for SWR. That SRD of GESSO
reads the value last written before the next refresh has taken it is the model's choice (log 43): R71 says only when the
write takes effect. -/
def Claim.SystemReads : Prop :=
  ∀ (s : State) (d : XReg) (sn : Fin 1024),
    (∀ w, s.systemRow s.cur sn.val = some w → checkFields (.srd d sn) = none ∧ checkFields (.swr sn d) = none ∧
      ∃ t, exec (.srd d sn) s = .next t ∧
        Finishes s t (s.gpr d (if sn.val = 0x12 ∧ s.cur.id.sup = false then 0 else w) 4)) ∧
    (s.systemRow s.cur sn.val = none →
      checkFields (.srd d sn) = some .illegalField ∧ checkFields (.swr sn d) = some .illegalField)

/-- R111 to R113: SWR of SHAPE and FPS in any context: FPS.LFSR is never written as zero, and a value that a register does
not take traps and leaves it. -/
def Claim.OpenWrites : Prop :=
  ∀ (s : State) (a : XReg),
    let w := s.arg a
    let r := s.cur.reg
    let rnd := w.extractLsb' 9 3
    let lfsr := if w.extractLsb' 32 32 = 0 then (1 : BitVec 32) else w.extractLsb' 32 32
    (ShapeOk w → ∃ t, exec (.swr 0x00 a) s = .next t ∧ Finishes s t (({ r with shape := w } : Regs).step 4)) ∧
    (rnd ≠ 0 → rnd ≠ 7 → ∃ t, exec (.swr 0x01 a) s = .next t ∧
      Finishes s t (({ r with fps := lfsr ++ (w.extractLsb' 0 32 &&& 0xE3F) } : Regs).step 4)) ∧
    (TrapReady s → ¬ShapeOk w → ∃ t, exec (.swr 0x00 a) s = .next t ∧ Traps s t 0x10 r.edepth r.pc s.cur.bits r.pc) ∧
    (TrapReady s → r.edepth ≠ 1 → rnd = 0 ∨ rnd = 7 → ∃ t, exec (.swr 0x01 a) s = .next t ∧
      Traps s t 0x02 r.edepth r.pc s.cur.bits r.pc)

/-- R71, R111, R118, R343, R355: SWR in the supervisor of each register that it may write: DRPTH for its cluster, GESSO for
its string from the next refresh on, and its own ECAUSE, EPCX, EADDR, SPILLBASE and segment registers. SWR of any other
register than SHAPE and FPS is ignored, and in a user context that of each of these too. -/
def Claim.SupervisorWrites : Prop :=
  ∀ (s : State) (sn : Fin 1024) (a : XReg) (v : Word), s.systemRow s.cur sn.val = some v → 2 ≤ sn.val →
    let w := s.arg a
    let r := s.cur.reg
    let k := s.cur.id.core / 4
    let finish (s1 : State) (r : Regs) : Prop := ∃ t, exec (.swr sn a) s = .next t ∧ Finishes s1 t (r.step 4)
    (s.cur.id.sup = false → finish s r) ∧
    (s.cur.id.sup = true → sn = 0x07 →
      let thresh := if w.extractLsb' 0 8 = 0 then (1 : BitVec 8) else w.extractLsb' 0 8
      finish (s.setCluster k { s.cluster k with
        drpth := (0 : BitVec 32) ++ w.extractLsb' 16 16 ++ (0 : BitVec 8) ++ thresh }) r) ∧
    (s.cur.id.sup = true → sn = 0x0A →
      finish (s.setString (k / 4) { s.string (k / 4) with gessoNext := some (gessoOf w) }) r) ∧
    (s.cur.id.sup = true → ∀ r', r.sysPut sn.val w = some r' → finish s r') ∧
    (s.cur.id.sup = true → sn ≠ 0x07 → sn ≠ 0x0A → r.sysPut sn.val w = none → finish s r)

/-- R70, R71, R111 to R118, R336, R343, R355: what SRD reads and what SWR writes. -/
def Obligations.SystemRegisters : Prop := Claim.SystemReads ∧ Claim.OpenWrites ∧ Claim.SupervisorWrites

/-- R366, R367: CAPQ reads the capability of an identifier whose version is high enough in the list of its package, or all
ones; CFLUSH and CINV of an address that a readable range maps change nothing of registers and memory: they are noted for
later fetches (R100), a CINV with i = 1 for every context of its core. -/
def Claim.CapabilitiesAndCaches : Prop :=
  ∀ (s : State) (d a : XReg),
    ((s.arg a).toNat < 2 ^ 24 → ∃ t w, exec (.capq d a) s = .next t ∧ Finishes s t (s.gpr d w 4) ∧
      let list := tabGet [] s.caps (s.cur.id.core / 512)
      (∀ c, list.find? (fun c => c.capid = (s.arg a).toNat % 2 ^ 16 && (s.arg a).toNat / 2 ^ 16 ≤ c.ver) = some c →
        w = c.value) ∧
      ((∀ c ∈ list, ¬(c.capid = (s.arg a).toNat % 2 ^ 16 ∧ (s.arg a).toNat / 2 ^ 16 ≤ c.ver)) →
        w = BitVec.allOnes 64)) ∧
    (∀ va ia, Still s → s.cur.effective (s.arg a) 0 1 = .ok va → s.cur.mapVa .read va = .ok ia →
      (∃ t, exec (.cflush a) s = .next t ∧ Finishes s { t with flushes := s.flushes } (s.cur.reg.step 4)) ∧
      (∀ b, ∃ t, exec (.cinv a b) s = .next t ∧ Finishes s { t with others := s.others } (s.cur.reg.step 4) ∧
        (b = false → t.others = s.others) ∧
        let unread (c : Context) : Context := { c with order := { c.order with seen := [] } }
        t.others.map unread = s.others.map unread))

/-- R342, R345, R352, R353: SVC and BKPT trap with their number in EADDR and go on behind themselves; TRAP n traps with
cause n and leaves EADDR; in an emulation routine it leaves EPCX and LONG too, as if the emulated instruction had raised
n, and the context's depth returns to 0. -/
def Claim.SoftwareTraps : Prop :=
  ∀ (s : State) (n : Fin 1024), TrapReady s →
    let r := s.cur.reg
    (∃ t, exec (.svc n) s = .next t ∧ Traps s t 0x0B r.edepth r.pc (BitVec.ofNat 64 n.val) (r.pc + 4)) ∧
    (∃ t, exec (.bkpt n) s = .next t ∧ Traps s t 0x0A r.edepth r.pc (BitVec.ofNat 64 n.val) (r.pc + 4)) ∧
    (∃ t, exec (.trap n) s = .next t ∧
      if r.edepth = 1 then TrapsAt s t (r.ecause.getLsbD 11) n.val 0 r.epcx r.eaddr r.epcx
      else Traps s t n.val r.edepth r.pc r.eaddr r.pc)

/-- R108: PKRD, PKWR, SPILL, AMAPW and TLBINV raise PERMISSION in a user context. What EADDR then holds is a free value
(log 23), the model's choice. -/
def Claim.PrivilegedTrap : Prop :=
  ∀ (s : State) (i : Instr), TrapReady s →
    ((∃ d a n, i = .pkrd d a n) ∨ (∃ d a n, i = .pkwr d a n) ∨ (∃ a, i = .spill a) ∨ (∃ n a, i = .amapw n a) ∨
      (∃ a, i = .tlbinv a)) →
    ∃ t w, exec i s = .next t ∧
      Traps { s with freeAt := s.freeAt + 1 } t 0x07 s.cur.reg.edepth s.cur.reg.pc w s.cur.reg.pc

/-- R349: a trap of the supervisor is a double fault: the supervisor stops where it is, and its core is dead. -/
def Claim.DoubleFault : Prop :=
  ∀ (s : State) (n : Fin 1024), s.cur.id.sup = true → s.cur.sched.place = .slot → Alone s →
    (∀ c ∈ s.contexts, c.sched.parked = false) →
    ∃ t, exec (.trap n) s = .next t ∧ t.cur = { s.cur with sched := { s.cur.sched with stopped := true } } ∧
      (t.core s.cur.id.core).dead = true

/-- R108, R340 to R353: the traps that instructions take by their own meaning, the trap of a privileged instruction in a
user context, and the double fault of a supervisor. What EADDR holds after PERMISSION is the model's choice of a free
value (log 23). -/
def Obligations.TrapsTaken : Prop := Claim.SoftwareTraps ∧ Claim.PrivilegedTrap ∧ Claim.DoubleFault

/-- R78, R354: ERET in an emulation routine ends it: the context goes on behind the instruction that EPCX names, 8 bytes
where ECAUSE says it was long, at depth 0, and a target that is no multiple of 4 or not below 2^60 traps at the ERET.
Elsewhere in a user context it raises PERMISSION. -/
def Claim.EmulationReturn : Prop :=
  ∀ (s : State), s.cur.id.sup = false →
    let r := s.cur.reg
    let target := r.epcx + (if r.ecause.getLsbD 11 then 8 else 4)
    (r.edepth = 1 → target.toNat % 4 = 0 → target.toNat < 2 ^ 60 → ∃ t, exec .eret s = .next t ∧ Finishes s t { r with
      pc := target, edepth := 0
      ecause := r.ecause.extractLsb' 14 50 ++ (0 : BitVec 2) ++ r.ecause.extractLsb' 0 12 }) ∧
    (r.edepth = 1 → TrapReady s → target.toNat % 4 ≠ 0 → ∃ t, exec .eret s = .next t ∧
      Traps s t 0x04 1 r.pc target r.pc) ∧
    (r.edepth = 1 → TrapReady s → target.toNat % 4 = 0 → 2 ^ 60 ≤ target.toNat → ∃ t, exec .eret s = .next t ∧
      Traps s t 0x05 1 r.pc target r.pc) ∧
    (r.edepth ≠ 1 → TrapReady s → ∃ t w, exec .eret s = .next t ∧
      Traps { s with freeAt := s.freeAt + 1 } t 0x07 r.edepth r.pc w r.pc)

/-- R346, R348: ERET in the supervisor disposes of the record that it serves, letting the context run on, and acquire, where
DISP is RESUME, and takes the oldest record of its core: the registers of the parked context, or those of a record for information
only, with the number of records behind it in ECAUSE. -/
def Claim.SupervisorReturn : Prop :=
  ∀ (s : State) (rec : TrapRec) (rest : List TrapRec) (ec epcx eaddr : Word), s.cur.id.sup = true → Still s → Alone s →
    (s.core s.cur.id.core).traps = rec :: rest →
    ((rec.info = true ∧ ec = rec.ecause ∧ epcx = rec.epcx ∧ eaddr = rec.eaddr) ∨
      (rec.info = false ∧ rec.uid ≠ s.cur.id.uid ∧ ∃ c, s.ctx rec.uid = some c ∧ c.sched.place = .slot ∧
        ec = c.reg.ecause ∧ epcx = c.reg.epcx ∧ eaddr = c.reg.eaddr)) →
    let count (w : Word) : Word := setBits w 23 20 rest.length
    let finish (s1 : State) : Prop := ∃ t, exec .eret s = .next t ∧
      t.cur.reg = ({ s.cur.reg with ecause := count ec, epcx := epcx, eaddr := eaddr } : Regs).step 4 ∧
      (t.core s.cur.id.core).traps = rest ∧
      (t.core s.cur.id.core).serving = (if rec.info then none else some rec.uid) ∧ t.mem = s.mem ∧ t.others = s1.others
    ((s.core s.cur.id.core).serving = none → finish s) ∧
    (∀ c, (s.core s.cur.id.core).serving = some c.id.uid → s.ctx c.id.uid = some c → c.id.uid ≠ s.cur.id.uid →
      c.sched.parked = true → s.cur.reg.ecause.extractLsb' 0 8 ≠ 0 → s.cur.reg.ecause.extractLsb' 16 2 = 0 →
      finish (s.mapCtx c.id.uid (fun c => { c with
        sched := { c.sched with parked := false }, order := { c.order with acquired := s.now } })))

/-- R346, R348, R354: ERET in an emulation routine, in another user context and in the supervisor. -/
def Obligations.TrapReturns : Prop := Claim.EmulationReturn ∧ Claim.SupervisorReturn

/-- R350, R351: PKRD and PKWR reach the registers of the context that is parked in a slot of the core; a slot without one
reads zero and ignores writes. -/
def Claim.ParkedRegisters : Prop :=
  ∀ (s : State) (d a : XReg) (sn : Fin 1024), s.cur.id.sup = true → Alone s →
    let core := s.cur.id.core
    ((s.arg a).toNat < 7 → s.parkedIn core (s.arg a).toNat = none →
      ∃ t, exec (.pkrd d a sn) s = .next t ∧ Finishes s t (s.gpr d 0 4)) ∧
    (∀ c, (s.arg a).toNat < 7 → s.parkedIn core (s.arg a).toNat = some c → c.sched.place = .slot →
      ∃ t w, exec (.pkrd d a sn) s = .next t ∧ Finishes s t (s.gpr d w 4) ∧
        (∀ k : XReg, sn.val = k.val → w = if k = 0 then 0 else c.reg.x[k]) ∧ (sn = 0x20 → w = c.reg.pc) ∧
        (sn = 0x21 → w = 1) ∧ (sn = 0x22 → w = BitVec.ofNat 64 (c.reg.edepth % 4)) ∧ (sn = 0x23 → w = c.sched.sptab) ∧
        (sn = 0x24 → w = BitVec.ofNat 64 (c.sched.spcnt % 2 ^ 16)) ∧
        (∀ k v, sn.val = 0x100 + k → s.systemRow c k = some v → w = v)) ∧
    ((s.arg d).toNat < 7 → s.parkedIn core (s.arg d).toNat = none → sn ≠ 0x23 →
      ∃ t, exec (.pkwr d a sn) s = .next t ∧ Finishes s t (s.cur.reg.step 4)) ∧
    (∀ c, (s.arg d).toNat < 7 → s.parkedIn core (s.arg d).toNat = some c → c.sched.place = .slot →
      c.id.uid ≠ s.cur.id.uid → (∀ o ∈ s.others, o.sched.place ≠ .ended) →
      (∀ k : XReg, k ≠ 0 → sn.val = k.val → ∃ t, exec (.pkwr d a sn) s = .next t ∧
        Alters s t c.id.uid (fun o => { o with reg := { o.reg with x := o.reg.x.set k (s.arg a) } })) ∧
      (sn = 0x20 → ∃ t, exec (.pkwr d a sn) s = .next t ∧
        Alters s t c.id.uid (fun o => { o with reg := { o.reg with pc := s.arg a } })) ∧
      (sn = 0x23 → (s.arg a).toNat % 32 = 0 → ∃ t, exec (.pkwr d a sn) s = .next t ∧
        Alters s t c.id.uid (fun o => { o with sched := { o.sched with sptab := s.arg a } })) ∧
      (sn = 0x24 → ∃ t, exec (.pkwr d a sn) s = .next t ∧
        Alters s t c.id.uid (fun o => { o with sched := { o.sched with spcnt := (s.arg a).toNat % 2 ^ 16 } })))

/-- R358: SPILL without SAFE saves the context in its slot, parked or not, and does nothing for an empty slot. -/
def Claim.Spills : Prop :=
  ∀ (s : State) (a : XReg), s.cur.id.sup = true → (s.arg a).toNat < 7 → s.cur.sync.wait ≠ .record →
    (s.inSlot s.cur.id.core (s.arg a).toNat = none →
      ∃ t, exec (.spill a) s = .next t ∧ Finishes s t (s.cur.reg.step 4)) ∧
    (∀ c, s.inSlot s.cur.id.core (s.arg a).toNat = some c →
      ∃ t, exec (.spill a) s = .next t ∧
        let s1 := s.saveContext c.id.uid .preempted none
        Finishes s1 t (s1.cur.reg.step 4))

/-- R350, R351, R358: what the supervisor does to the contexts in the slots of its core. -/
def Obligations.ParkedContexts : Prop := Claim.ParkedRegisters ∧ Claim.Spills

/-- R175, R364: AMAPW reads a 32-byte block and writes the range register of its target, with the reserved bits zero: the
core's record, the supervisor's own, or that of the context parked in a slot; an empty slot ignores it. -/
def Claim.RangeWrites : Prop :=
  ∀ (s : State) (n : Fin 8) (a : XReg) (va : Nat) (ia loc : Nat → Nat), s.cur.id.sup = true → Calm s →
    s.cur.effective (s.arg a) 0 32 = .ok va → va % 32 = 0 →
    (∀ k, k < 4 → Reaches s .read (va + 8 * k) (ia k) (loc k) ∧ s.poisoned (loc k) 8 = false) →
    let word (k : Nat) : Nat := fromBytes (s.bytesAt (loc k) 8)
    let core := s.cur.id.core
    let image := BitVec.ofNat 128 (word 0 + word 1 * 2 ^ 64) &&& BitVec.ofNat 128 (2 ^ 122 - 2 ^ 21 + 0x1F)
    word 2 ≤ 8 → word 3 = 0 →
    (word 2 = 7 → ∃ t, exec (.amapw n a) s = .next t ∧ Finishes s t
      (({ s.cur.reg with amap := s.cur.reg.amap.set n image } : Regs).step 4)) ∧
    (word 2 ≠ 7 → ∃ t, exec (.amapw n a) s = .next t ∧
      let s1 := s.writeRange (word 2) n image
      Finishes s1 t (s1.cur.reg.step 4)) ∧
    (word 2 = 8 → ∃ t, exec (.amapw n a) s = .next t ∧
      Finishes (s.setCore core { s.core core with ranges := (s.core core).ranges.set n image }) t (s.cur.reg.step 4)) ∧
    (word 2 < 7 → s.parkedIn core (word 2) = none → ∃ t, exec (.amapw n a) s = .next t ∧
      Finishes s t (s.cur.reg.step 4)) ∧
    (∀ c, word 2 < 7 → s.parkedIn core (word 2) = some c → c.sched.place = .slot → c.id.uid ≠ s.cur.id.uid → Alone s →
      (∀ o ∈ s.others, o.sched.place ≠ .ended) → ∃ t, exec (.amapw n a) s = .next t ∧
        Alters s t c.id.uid (fun o => { o with reg := { o.reg with amap := o.reg.amap.set n image } }))

/-- R365: TLBINV of a pageable address releases what waits in the page and aborts the regions that touched it, and
retires; with no region, no watched object and no write of a ferry still to come it changes nothing else. -/
def Claim.TranslationInvalidates : Prop :=
  ∀ (s : State) (a : XReg), s.cur.id.sup = true → Still s →
    let w := (s.arg a).toNat
    w % 16 ≤ 4 → w / 16 % 2 ^ 11 = 0 → w < 2 ^ 56 → s.whereIs (w / 2 ^ 15 * 2 ^ 15) = .pageable →
    (∃ t, exec (.tlbinv a) s = .next t ∧
      let s1 := (s.released 6).tlbDone (w / 2 ^ 15 * 2 ^ 15) (w % 16)
      Finishes s1 t (s1.cur.reg.step 4)) ∧
    ((∀ c ∈ s.contexts, c.sync.region = none) → s.objects = [] → (∀ f ∈ s.ferry, f.tail = []) →
      ∃ t, exec (.tlbinv a) s = .next t ∧ Finishes (s.released 6) t (s.cur.reg.step 4))

/-- R175, R364 to R367: range registers, invalidations of translations and caches, and capabilities. -/
def Obligations.AddressSystem : Prop := Claim.CapabilitiesAndCaches ∧ Claim.RangeWrites ∧ Claim.TranslationInvalidates

/-! Tasks, barriers, monitors, glazes and power. -/

/-- R53 to R60, R140: SPAWN of a record that can be read, after its release. Where the checks refuse it, x[D] is the status
word and nothing else changes. Where they accept it, and its object and those above it can be reached at their home slices,
which no live region has touched (R310), x[D] is 0, the launch is created, its object is written, each object
above it that gains a child has its count of children one higher, and the attachments that begin are kept. -/
def Obligations.Spawns : Prop :=
  ∀ (s : State) (d a : XReg) (va ia : Nat) (bs : List Byte), Still s →
    let s0 := s.released 6
    s.cur.effective (s.arg a) 0 128 = .ok va → va % 64 = 0 → Maps s .read va ia → peek 5 va 128 s0 = .ok bs s0 →
    (∀ st, (spawnChecks va bs).run s0 = .ok (.error st) s0 →
      ∃ t, exec (.spawn d a) s = .next t ∧ Finishes s0 t (s.gpr d (BitVec.ofNat 64 st) 4)) ∧
    (∀ (l : Launch) (obj : Obj) (tree : Tree) (home : Nat) (loc : Obj → Nat),
      (spawnChecks va bs).run s0 = .ok (.ok (l, obj, tree)) s0 → homeLoc obj.spot .atomic s0 = .ok home s0 →
      (∀ o ∈ tree.attach, homeLoc o.spot .atomic s0 = .ok (loc o) s0) →
      ∃ t, exec (.spawn d a) s = .next t ∧ Retired s t (s.gpr d 0 4) ∧ t.launches = s.launches ++ [l] ∧
        t.attached = s.attached.filter (fun p => !(tree.links.any (fun q => q.ia = p.ia))) ++ tree.links ∧
        t.mem = tree.attach.foldl
          (fun m o => cellsSet m (loc o + 0x20) (toBytes 4 ((fromBytes (cellsGet m (loc o + 0x20) 4) + 1) % 2 ^ 32)))
          (cellsSet s.mem home (objectBytes l.total (fromBytes ((bs.drop 0x18).take 8)))))

/-- R138, R141, R215: TEND of a task that holds no monitor releases, puts the deferred flags of its reductions into FPS and
ends it with the low word of x[A]; one that holds a monitor raises SYNC_OBJECT. -/
def Claim.TaskEnds : Prop :=
  ∀ (s : State) (a : XReg), s.cur.id.sup = false → Still s →
    (s.cur.sync.monitors = [] →
      let s1 := ({ s with cur := { s.cur with
        reg := s.cur.reg.flag s.cur.io.deferred, io := { s.cur.io with deferred := 0 } } } : State).released 6
      exec (.tend a) s = .next (s1.endTask s.cur.id.uid ((s.arg a).extractLsb' 0 32))) ∧
    (s.cur.sync.monitors ≠ [] → TrapReady s → ∃ t, exec (.tend a) s = .next t ∧
      Traps s t 0x0E s.cur.reg.edepth s.cur.reg.pc s.cur.bits s.cur.reg.pc)

/-- R67, R143: CANCEL, after its release, of an OPEN object marks it CANCELLING with its cause, all ones for 0, and answers
0; of a finished one it answers 1, of one already CANCELLING 2, of none 3, and writes nothing. -/
def Claim.Cancels : Prop :=
  ∀ (s : State) (d a b : XReg) (ia loc : Nat), Still s → ObjectAt s a .write ia loc →
    let state := fromBytes (s.bytesAt (loc + 8) 1)
    let w := (s.arg b).toNat % 2 ^ 32
    let ans : Word := if state = 1 then 0 else if state = 2 ∨ state = 4 then 1 else if state = 3 then 2 else 3
    let s0 := (s.released 6).watch ia loc .completion
    let s1 := if state = 1 then
      { (s0.putBytes (loc + 8) [3]).putBytes (loc + 0x24) (toBytes 4 (if w = 0 then 0xFFFFFFFF else w)) with
        agenda := s.agenda ++ [.cancelMark ia] } else s0
    s1.cancelling s.cur.job.launch = false →
    ∃ t, exec (.cancel d a b) s = .next t ∧ Finishes s1 t (s1.gpr d ans 4)

/-- R67, R138, R141, R143: TEND and CANCEL. -/
def Obligations.TaskEndings : Prop := Claim.TaskEnds ∧ Claim.Cancels

/-- R144, R145: CWAIT, as it begins. An object on the task's own chain gives 6; one that is COMPLETE or CANCELLED gives its status with
0 or 1; none gives 5; one that is not finished gives 2 once the time limit has passed, else the context waits. A
wait ends with the status that it has been given, or with 2 once its time limit has passed. -/
def Obligations.CompletionWaits : Prop :=
  ∀ (s : State) (d a b : XReg) (va ia loc : Nat), Ready s → s.cur.effective (s.arg a) 0 64 = .ok va → va % 64 = 0 →
    Reaches s .read va ia loc →
    let state := fromBytes (s.bytesAt (loc + 8) 1)
    let gives (w : Word) : Prop := ∃ t, exec (.cwait d a b) s = .next t ∧ Finishes s t (s.gpr d w 4)
    let begins : Prop := ∀ k, s.cur.sync.wait ≠ .object k
    (begins → onChain 4 va s.cur.reg.tlaunch.toNat s = .ok true s → gives 6) ∧
    (begins → onChain 4 va s.cur.reg.tlaunch.toNat s = .ok false s →
      (state = 2 → gives (BitVec.ofNat 64 (fromBytes (s.bytesAt (loc + 0x0C) 4) * 2 ^ 32))) ∧
      (state = 4 → gives (BitVec.ofNat 64 (fromBytes (s.bytesAt (loc + 0x0C) 4) * 2 ^ 32 + 1))) ∧
      (state = 0 ∨ 4 < state → gives 5) ∧
      (state = 1 ∨ state = 3 → s.arg b ≠ 0 → (s.arg b).toNat ≤ s.tstamp → gives 2) ∧
      (state = 1 ∨ state = 3 → (s.arg b = 0 ∨ s.tstamp < (s.arg b).toNat) →
        ∃ t, exec (.cwait d a b) s = .next t ∧ t.cur.sync.wait = .object ia ∧ t.cur.reg = s.cur.reg)) ∧
    (s.cur.sync.wait = .object ia → s.arg b ≠ 0 → (s.arg b).toNat ≤ s.tstamp → gives 2) ∧
    (∀ g, ∃ t, exec (.cwait d a b)
        { s with cur := { s.cur with sync := { s.cur.sync with wait := .object ia, grant := some g } } } = .next t ∧
      t.cur.reg = s.gpr d g 4)

/-- R314: BARINIT with a count of 0 or an argument out of range answers 4. Otherwise it makes the object a live barrier
with its count, its operation and the operation's identity, nothing arrived, and a generation one higher. -/
def Claim.BarrierInits : Prop :=
  ∀ (s : State) (d a b : XReg) (ia loc : Nat), Still s → ObjectAt s a .atomic ia loc →
    let w := (s.arg b).toNat
    let count := w % 2 ^ 32
    let op := w / 2 ^ 32 % 4
    let s0 := s.released 6
    (count = 0 ∨ 2 ^ 34 ≤ w → ∃ t, exec (.barinit d a b) s = .next t ∧ Finishes s0 t (s.gpr d 4 4)) ∧
    (count ≠ 0 → w < 2 ^ 34 → ∃ t, exec (.barinit d a b) s = .next t ∧
      let s1 := (s0.barInit ia loc count op).2
      Finishes s1 t (s1.gpr d (BitVec.ofNat 64 (s0.barInit ia loc count op).1) 4) ∧
      t.bytesAt loc 64 = toBytes 4 count ++ toBytes 8 0 ++ [1, BitVec.ofNat 8 op, 0, 0] ++
        toBytes 4 (if op = 2 then 0xFFFFFFFF else 0) ++ toBytes 12 0 ++
        toBytes 8 ((fromBytes (s.bytesAt (loc + 0x20) 8) + 1) % 2 ^ 64) ++ toBytes 24 0 ∧
      ∀ k, k < loc ∨ loc + 64 ≤ k → cellGet t.mem k = cellGet s.mem k)

/-- R315: BARW. An object that is no live barrier gives 4. The last arrival of a phase completes it: status 0, the phase
and the combined result in x[D], and the object's counts cleared. An earlier arrival is counted and waits, and the
word of the completion ends its wait. No class of the package is shed. -/
def Claim.BarrierArrivals : Prop :=
  ∀ (s : State) (d a b : XReg) (ia loc : Nat), Ready s → ObjectAt s a .atomic ia loc →
    s.classShed (s.cur.id.core / 512) s.cur.reg.cls = false →
    let n (o k : Nat) : Nat := fromBytes (s.bytesAt (loc + o) k)
    let v := (s.arg b).toNat % 2 ^ 32
    let acc := n 0x10 4
    let sum := match n 0x0D 1 % 4 with
      | 1 => acc ||| v
      | 2 => acc &&& v
      | 3 => (acc + v) % 2 ^ 32
      | _ => acc
    let phase := (n 8 4 + 1) % 2 ^ 32
    let live : Prop := n 0x0C 1 = 1 ∧ n 0 4 ≠ 0
    (¬live → ∃ t, exec (.barw d a b) s = .next t ∧ t.cur.reg = s.gpr d 4 4 ∧ t.mem = s.mem) ∧
    (live → (n 4 4 + 1) % 2 ^ 32 = n 0 4 → ∃ t, exec (.barw d a b) s = .next t ∧
      t.cur.reg = s.gpr d (BitVec.ofNat 64 (sum * 2 ^ 32 + phase % 2 ^ 24 * 2 ^ 8)) 4 ∧
      t.numAt (loc + 4) 4 = 0 ∧ t.numAt (loc + 8) 4 = phase ∧ t.numAt (loc + 0x14) 4 = sum ∧
      t.numAt (loc + 0x18) 4 = 0 ∧ ∀ k, k < loc ∨ loc + 64 ≤ k → cellGet t.mem k = cellGet s.mem k) ∧
    (live → (n 4 4 + 1) % 2 ^ 32 ≠ n 0 4 → ∃ t, exec (.barw d a b) s = .next t ∧ t.cur.reg = s.cur.reg ∧
      t.cur.sync.wait = .barrier ia ∧ t.numAt (loc + 4) 4 = (n 4 4 + 1) % 2 ^ 32 ∧ t.numAt (loc + 0x10) 4 = sum) ∧
    (∀ g, ∃ t, exec (.barw d a b)
        { s with cur := { s.cur with sync := { s.cur.sync with wait := .barrier ia, grant := some g } } } = .next t ∧
      t.cur.reg = s.gpr d g 4)

/-- R314, R315: barriers are made and arrived at. -/
def Obligations.Barriers : Prop := Claim.BarrierInits ∧ Claim.BarrierArrivals

/-- R318 to R320: MENTER of a free monitor takes it and gives 0; of one the context holds it gives 5; of none it gives
4; of one that another context holds it waits. MEXIT of a monitor that nobody waits for frees it. -/
def Obligations.Monitors : Prop :=
  ∀ (s : State) (d a : XReg) (ia loc : Nat), Ready s → ObjectAt s a .atomic ia loc →
    let n (o k : Nat) : Nat := fromBytes (s.bytesAt (loc + o) k)
    let live : Prop := n 5 1 = 1 ∧ n 4 1 ≤ 1
    (s.cur.sync.monitors.length < 8 →
      (¬live → ∃ t, exec (.menter d a) s = .next t ∧ Finishes s t (s.gpr d 4 4)) ∧
      (live → n 4 1 = 1 → n 0 4 = s.cur.src → ∃ t, exec (.menter d a) s = .next t ∧ Finishes s t (s.gpr d 5 4)) ∧
      (live → n 4 1 = 0 → ∃ t, exec (.menter d a) s = .next t ∧ t.cur.reg = s.gpr d 0 4 ∧
        t.cur.sync.monitors = s.cur.sync.monitors ++ [ia] ∧ t.numAt loc 4 = s.cur.src % 2 ^ 32 ∧
        t.numAt (loc + 4) 1 = 1 ∧ ∀ k, k < loc ∨ loc + 64 ≤ k → cellGet t.mem k = cellGet s.mem k) ∧
      (live → n 4 1 = 1 → n 0 4 ≠ s.cur.src → ∃ t, exec (.menter d a) s = .next t ∧ t.cur.reg = s.cur.reg ∧
        t.cur.sync.wait = .monitor ia ∧ t.numAt (loc + 8) 4 = (n 8 4 + 1) % 2 ^ 32)) ∧
    (∀ g, ∃ t, exec (.menter d a)
        { s with cur := { s.cur with sync := { s.cur.sync with wait := .monitor ia, grant := some g } } } = .next t ∧
      t.cur.reg = s.gpr d g 4) ∧
    (s.cur.namedIa (s.arg a) = some ia → ia ∈ s.cur.sync.monitors → n 5 1 = 1 → n 4 1 = 1 → n 0 4 = s.cur.src →
      n 8 4 = 0 → (∀ c ∈ s.contexts, c.sync.wait ≠ .monitor ia) → ∃ t, exec (.mexit a) s = .next t ∧
        t.cur.reg = s.cur.reg.step 4 ∧ t.cur.sync.monitors = s.cur.sync.monitors.erase ia ∧ t.numAt loc 4 = 0 ∧
        t.numAt (loc + 4) 1 = 0 ∧ ∀ k, k < loc ∨ loc + 64 ≤ k → cellGet t.mem k = cellGet s.mem k)

/-- R323, R326, R333: GZBEGIN, after its release, takes a region entry and a checkpoint, gives 0, and opens the region with
nothing held and no edges. -/
def Claim.GlazeBegins : Prop :=
  ∀ (s : State) (d : XReg) (die entry : Nat) (s1 : State), Calm s → s.cur.id.sup = false →
    (s.released 6).regionEntry s.cur = (some (die, entry), s1) →
    ∃ t, exec (.gzbegin d) s = .next t ∧ t.mem = s.mem ∧
      t.cur = { s.cur with
        reg := s.gpr d 0 4, id := { s.cur.id with rob := s.cur.id.rob + 1 }, order := t.cur.order
        sync := { s.cur.sync with
          wait := .none, grant := none
          region := some {
            die := die, entry := entry, born := s.now, senior := bitsOf s.cur.reg.gzstat 19 18 = 3
            gzpc := s.cur.reg.pc, gzd := d
            ckpt := ⟨(s.cur.reg.put d 0).x, s.cur.reg.v, s.cur.reg.m, s.cur.reg.t, s.cur.reg.q, s.cur.reg.fps,
              s.cur.reg.shape, s.cur.sync.monitors⟩
            log := [], granules := [], edges := [], owed := [], pending := [], freed := [], ending := false
            postf := false } } }

/-- R332, R334: GZEND of a region without predecessor edges, of which no tile store is still to enter and no store names
POSTF, commits it, releases and gives 0, where no access has failed; one with predecessors waits for them; outside a glaze it
raises SYNC_OBJECT. -/
def Claim.GlazeEnds : Prop :=
  ∀ (s : State) (d : XReg), s.cur.sched.place = .slot →
    (∀ r, s.cur.sync.region = some r → s.cur.io.drains = [] → s.cur.io.late = [] →
      (r.edges = [] → r.postf = false → (s.glazeCommitRegion s.cur.id.uid).cur.io.late = [] →
        ∃ t, exec (.gzend d) s = .next t ∧
          let s1 := (s.glazeCommitRegion s.cur.id.uid).released 6
          Finishes s1 t (s1.gpr d 0 4) ∧ t.cur.sync.region = none) ∧
      (r.edges ≠ [] → ∃ t, exec (.gzend d) s = .next t ∧ t.cur.sync.wait = .edge ∧ t.cur.reg = s.cur.reg ∧
        t.mem = s.mem)) ∧
    (TrapReady s → ∃ t, exec (.gzend d) s = .next t ∧
      Traps s t 0x0E s.cur.reg.edepth s.cur.reg.pc s.cur.bits s.cur.reg.pc)

/-- R330, R335, R336: GZABORT of a region that no other is involved with discards what it holds, restores the
checkpoint, goes on behind the GZBEGIN with status 5, and keeps its byte of x[A] in GZSTAT; outside a glaze it raises
SYNC_OBJECT. -/
def Claim.GlazeAborts : Prop :=
  ∀ (s : State) (a : XReg),
    (∀ r, s.cur.sync.region = some r → s.cur.sched.place = .slot → Alone s → s.commandsOf s.cur.id.uid = [] →
      (∀ c ∈ s.others, c.sync.region = none) → s.touches = [] →
      ∃ t, exec (.gzabort a) s = .next t ∧ t.mem = s.mem ∧ t.cur.sync.region = none ∧
        t.cur.sync.monitors = r.ckpt.monitors ∧
        t.cur.reg = { s.cur.reg with
          x := (({ s.cur.reg with x := r.ckpt.x } : Regs).put r.gzd 5).x
          v := r.ckpt.v, m := r.ckpt.m, t := r.ckpt.t, q := r.ckpt.q, fps := r.ckpt.fps, shape := r.ckpt.shape
          pc := r.gzpc + 4
          gzstat := BitVec.ofNat 64 ((s.arg a).toNat % 2 ^ 8 * 2 ^ 56 +
            (r.die / 4 * 2 ^ 12 + r.die % 4 * 2 ^ 10 + r.entry) * 2 ^ 41 + 5 * 2 ^ 12) }) ∧
    (TrapReady s → ∃ t, exec (.gzabort a) s = .next t ∧
      Traps s t 0x0E s.cur.reg.edepth s.cur.reg.pc s.cur.bits s.cur.reg.pc)

/-- R323 to R336: a region is entered, committed and aborted. -/
def Obligations.Glazes : Prop := Claim.GlazeBegins ∧ Claim.GlazeEnds ∧ Claim.GlazeAborts

/-- R375, R379: PCLASS changes the class of a task to one not below its launch's and gives the old one; a hold then ends,
the 2 ms of a shed class begin, and half width may clear. The class that it has already changes nothing, and another request
is refused with bit 63 and the class. -/
def Claim.PowerClasses : Prop :=
  ∀ (s : State) (d a : XReg), s.cur.sync.region = none → s.cur.id.sup = false →
    let k := (s.arg a).toNat
    let old := s.cur.reg.cls
    (s.cur.job.lclass ≤ k → k ≤ 7 → k = old → ∃ t, exec (.pclass d a) s = .next t ∧
      Finishes s t (s.gpr d (BitVec.ofNat 64 old) 4)) ∧
    (s.cur.job.lclass ≤ k → k ≤ 7 → k ≠ old → ∃ t u, exec (.pclass d a) s = .next t ∧
      let s1 : State := { s with cur := { s.cur with
        reg := { s.cur.reg.put d (BitVec.ofNat 64 old) with cls := k }
        power := { s.cur.power with
          shedAt := if s.classShed (s.cur.id.core / 512) k then some s.tstamp else none, hold := false } } }
      Eased s1 u (s.cur.id.core / 512) ∧ Finishes u t (s1.cur.reg.step 4)) ∧
    (k < s.cur.job.lclass ∨ 7 < k → ∃ t, exec (.pclass d a) s = .next t ∧
      Finishes s t (s.gpr d (BitVec.ofNat 64 (2 ^ 63 + old)) 4))

/-- R380 to R382: BLEASE without a live lease: a query gives 0; a length or a level out of range is refused with 4, a
request while boost is withheld with 2, and one beyond the string's budget with 1. A lease that is granted is held
from then on, and x[D] is its expiry. -/
def Claim.BoostLeases : Prop :=
  ∀ (s : State) (d a b : XReg), s.cur.sync.region = none → s.cur.id.sup = false → s.cur.power.lease = none →
    let n := (s.arg a).toNat
    let l := (s.arg b).toNat
    let str := s.cur.id.core / 16
    let budget (hi lo : Nat) : Nat := s.ctlField (str / 8) (0x780 + 8 * (str % 8)) hi lo
    let fits : Prop := 1 ≤ n ∧ n ≤ 2000 ∧ 1 ≤ l ∧ l ≤ 3
    let refused (code : Nat) : Prop := ∃ t, exec (.blease d a b) s = .next t ∧
      Finishes s t (s.gpr d (BitVec.ofNat 64 (2 ^ 63 + code)) 4)
    (n = 0 → l ≤ 1 → ∃ t, exec (.blease d a b) s = .next t ∧ Finishes s t (s.gpr d 0 4)) ∧
    (¬(n = 0 ∧ l ≤ 1) → ¬fits → refused 4) ∧
    (fits → s.boostOff (s.cur.id.core / 512) = true → refused 2) ∧
    (fits → s.boostOff (s.cur.id.core / 512) = false → budget 7 0 < budget 15 8 + l → refused 1) ∧
    (fits → s.boostOff (s.cur.id.core / 512) = false → budget 15 8 + l ≤ budget 7 0 →
      ∃ t, exec (.blease d a b) s = .next t ∧ t.cur.reg = s.gpr d (BitVec.ofNat 64 (s.tstamp + 1000 * n)) 4 ∧
        t.cur.power.lease = some ⟨l, str, s.tstamp + 1000 * n⟩ ∧ t.mem = s.mem)

/-- R379 to R382: a task's class and its boost leases. -/
def Obligations.PowerRequests : Prop := Claim.PowerClasses ∧ Claim.BoostLeases

/-! Messages, global accesses and exact accumulators. -/

/-- R275, R278: MSEND puts a message of type 1 with its length, its tag and its sender's identity into the mailbox that
x[A] names, and retires once it is there; a message for no live context is discarded. A destination that CheckDest
refuses traps, RANGE_FAULT with the word in EADDR, ILLEGAL_FIELD with the instruction's bits (R344). -/
def Claim.MessageSends : Prop :=
  ∀ (s : State) (d a b : XReg),
    let w := s.arg a
    let len := (s.arg d).toNat / 2 ^ 48 % 2 ^ 8
    let tag := (s.arg d).toNat / 2 ^ 32 % 2 ^ 16
    (∀ payload, Ready s → Alone s → len ≤ 7 → readPayload (s.arg b) len s = .ok payload s →
      let m : Message := ⟨BitVec.ofNat 64 (2 ^ 56 + len * 2 ^ 48 + tag * 2 ^ 32 + s.cur.src % 2 ^ 32), payload⟩
      (∀ c, MailboxFree s w c → ∃ t, exec (.msend d a b) s = .next t ∧ t.cur.reg = s.cur.reg.step 4 ∧
        t.others = s.mailed c m ∧ t.mem = s.mem ∧ t.net = []) ∧
      (w.getLsbD 37 = false → s.checkDest w = none → s.mailbox (destCore w) (w.toNat % 2 ^ 6) = none → s.net = [] →
        ∃ t, exec (.msend d a b) s = .next t ∧ t.cur.reg = s.cur.reg.step 4 ∧ t.others = s.others ∧
          t.mem = s.mem ∧ t.net = [])) ∧
    (∀ cause, TrapReady s → s.cur.sync.grant = none → s.checkDest w = some cause → cause ≠ 2 ∨ s.cur.reg.edepth ≠ 1 →
      ∃ t, exec (.msend d a b) s = .next t ∧
      Traps s t cause s.cur.reg.edepth s.cur.reg.pc (if cause = 2 then s.cur.bits else w) s.cur.reg.pc)

/-- R279, R280: MRECV of the oldest message gives its header, stores its payload at x[A] where that is not 0, and takes
it out of the mailbox; with nothing there it gives 0 once its time limit has passed, else it waits. MPEEK gives the
header of the oldest message or 0, the context's own destination word, or the number of messages. -/
def Claim.MessageReceives : Prop :=
  ∀ (s : State) (d a b : XReg), Calm s → s.cur.id.sup = false → s.cur.mail.frame = [] → s.net = [] →
    (∀ e rest, s.cur.mail.inbox = e :: rest →
      let left : Context → Context := fun c => { c with
        reg := s.gpr d e.msg.header 4, mail := { c.mail with inbox := rest }
        id := { c.id with rob := c.id.rob + 1 }, sync := { c.sync with wait := .none, grant := none } }
      (s.arg a = 0 → ∃ t, exec (.mrecv d a b) s = .next t ∧ t.cur = { left s.cur with order := t.cur.order } ∧
        t.mem = s.mem ∧ t.others = s.others) ∧
      (∀ (va : Nat) (ia loc : Nat → Nat), s.arg a ≠ 0 →
        s.cur.effective (s.arg a) 0 (8 * e.msg.payload.length) = .ok va → va % 8 = 0 →
        (∀ i, i < e.msg.payload.length → Reaches s .write (va + 8 * i) (ia i) (loc i) ∧
          s.postKind s.cur (ia i) false = none ∧ Plain s (ia i) 8 ∧ ∀ j, j < e.msg.payload.length →
            loc i / 32 = loc j / 32 → ia i / 32 = ia j / 32) →
        ∃ t, exec (.mrecv d a b) s = .next t ∧ t.cur = { left s.cur with order := t.cur.order } ∧ t.others = s.others ∧
          t.mem = (List.range e.msg.payload.length).foldl
            (fun m i => cellsSet m (loc i) (toBytes 8 (e.msg.payload.getD i 0).toNat)) s.mem)) ∧
    (s.cur.mail.inbox = [] → s.cur.sync.grant = none →
      (s.arg b ≠ 0 → (s.arg b).toNat ≤ s.tstamp → ∃ t, exec (.mrecv d a b) s = .next t ∧ Finishes s t (s.gpr d 0 4)) ∧
      ((s.arg b = 0 ∨ s.tstamp < (s.arg b).toNat) → ∃ t, exec (.mrecv d a b) s = .next t ∧
        t.cur.sync.wait = .message ∧ t.cur.reg = s.cur.reg)) ∧
    (∃ t, exec (.mpeek d 0) s = .next t ∧
      Finishes s t (s.gpr d ((s.cur.mail.inbox.map (fun e => e.msg.header)).headD 0) 4)) ∧
    (∃ t, exec (.mpeek d 1) s = .next t ∧ Finishes s t (s.gpr d (BitVec.ofNat 64
      (s.cur.id.home / 512 * 2 ^ 47 + s.cur.id.home % 512 * 2 ^ 38 + s.cur.id.cid)) 4)) ∧
    (∃ t, exec (.mpeek d 2) s = .next t ∧ Finishes s t (s.gpr d (BitVec.ofNat 64 s.cur.mail.inbox.length) 4))

/-- R275 to R280: messages are sent, received and looked at. -/
def Obligations.Messages : Prop := Claim.MessageSends ∧ Claim.MessageReceives

/-- R284, R285: GLD reads, zero-extended, what the agent of the core that its address names finds there. GST retires
before it is performed and stands among the context's POSTP stores. -/
def Claim.GlobalAccesses : Prop :=
  ∀ (s : State) (dbl : Bool) (d a : XReg) (m : MemAttr) (off : BitVec 19) (g : Nat), s.globalAt a off g →
    let n : Nat := if dbl then 8 else 4
    g % n = 0 →
    (∀ ia loc, Calm s → GlobalReaches s .read g ia loc → s.poisoned loc n = false →
      ∃ t, exec (.gld dbl d a m off) s = .next t ∧
        Finishes s t (s.gpr d (BitVec.ofNat 64 (fromBytes (s.bytesAt loc n))) 8)) ∧
    (Still s → ∃ t, exec (.gst dbl d a m off) s = .next t ∧
      Leaves s t (s.cur.reg.step 8)
        { s.cur.io with posted := [⟨.p, [(g, toBytes n ((s.arg d).toNat % 2 ^ (8 * n)))], s.cur.bits, true, false, s.now,
            s.storeGateOf m⟩] }
        [.postedAck s.cur.id.uid])

/-- R285: a global atomic gives x[D] the old value at the place that its address names, and stores the new one. -/
def Claim.GlobalAtomics : Prop :=
  ∀ (s : State) (i : Instr) (d a x : XReg) (m : MemAttr) (off : BitVec 19) (n g ia loc : Nat)
    (f : Nat → Word → Word → Nat × Flags), gamoRow i = some (d, a, x, m, off, n, f) → Calm s →
    s.globalAt a off g → g % n = 0 → GlobalReaches s .atomic g ia loc → s.poisoned loc n = false → Plain s ia n →
    let old := fromBytes (s.bytesAt loc n)
    let r := f old (s.arg x) (s.arg d)
    ∃ t, exec i s = .next t ∧
      FinishesStore s t (((s.cur.reg.put d (BitVec.ofNat 64 old)).flag r.2).step 8) loc (toBytes n r.1)

/-- R284, R285: loads, stores and atomics at global addresses. -/
def Obligations.GlobalMemory : Prop := Claim.GlobalAccesses ∧ Claim.GlobalAtomics

/-- R286, R288, R291: QCLR empties an accumulator. QADDF adds a number exactly while the span stays within 192, and
remembers infinities and NaNs; a zero changes nothing. QRND writes the rounded sum times its scale. -/
def Claim.ExactSums : Prop :=
  ∀ (s : State) (q : QNum) (x y : XReg),
    let a := s.cur.reg.q[q]
    (∃ t, exec (.qclr q) s = .next t ∧
      Finishes s t ((s.cur.reg.putQ q ⟨0, 0, 0, true, false, false, false, false⟩).step 8)) ∧
    (s.arg x = 0 → ∃ t, exec (.qaddf q 7 x) s = .next t ∧ Finishes s t (s.cur.reg.step 8)) ∧
    (s.arg x ≠ 0 → a.sat = false → spanWith a 0 0 ≤ 192 → ∃ t b, exec (.qaddf q 7 x) s = .next t ∧
      Finishes s t ((s.cur.reg.putQ q b).step 8) ∧ TakesLeaf a b (s.arg x).toInt 0 0) ∧
    (∀ f : FmtCode, 1 ≤ f.val → f.val ≤ 4 →
      (∀ neg m e, (fpFmt f).value ((s.arg x).toNat % 2 ^ (fpFmt f).width) = .fin neg m e → m ≠ 0 → a.sat = false →
        spanWith a e e ≤ 192 → ∃ t b, exec (.qaddf q f x) s = .next t ∧ Finishes s t ((s.cur.reg.putQ q b).step 8) ∧
          TakesLeaf a b (if neg then -(m : Int) else m) e e) ∧
      (∀ neg, (fpFmt f).value ((s.arg x).toNat % 2 ^ (fpFmt f).width) = .inf neg → ∃ t, exec (.qaddf q f x) s = .next t ∧
        Finishes s t ((s.cur.reg.putQ q { a with pinf := a.pinf || !neg, ninf := a.ninf || neg }).step 8)) ∧
      (∀ sig, (fpFmt f).value ((s.arg x).toNat % 2 ^ (fpFmt f).width) = .nan sig → ∃ t, exec (.qaddf q f x) s = .next t ∧
        Finishes s t (((s.cur.reg.putQ q { a with nanf := true }).flag (if sig then fNV else 0)).step 8))) ∧
    (∀ (f : FmtCode) (rnd : Fin 8),
      let scale : FpVal := if x = 0 then .fin false 1 0
        else (fpFmt f).value ((s.arg x).toNat % 2 ^ (fpFmt f).width)
      let r := a.round (fpFmt f) (s.roundMode rnd false) scale
      ∃ t, exec (.qrnd q f rnd x y) s = .next t ∧
        Finishes s t (((s.cur.reg.put y (BitVec.ofNat 64 r.1)).flag r.2).step 8))

/-- R289, R290: QADD of no message retires at once; of one message that has arrived it adds the digit that the message
carries at its exponent, and takes it out of the mailbox. QADD of several takes the messages of its tag, oldest first, until
it has those that end a transfer, and leaves the others. QSEND of an empty accumulator sends one message that says so, and
of another one its digits in base 2^62, lowest first, with MORE on all but the last; what is sent to no live context is
discarded. The range of the highest digit is the model's reading (log 61). -/
def Claim.BlockSums : Prop :=
  ∀ (s : State) (q : QNum) (x y : XReg), Ready s → s.net = [] →
    let a := s.cur.reg.q[q]
    (s.arg x = 0 → s.cur.mail.qleft = none → ∃ t, exec (.qadd q x y) s = .next t ∧ Finishes s t (s.cur.reg.step 8)) ∧
    (∀ e p w, s.arg x = 1 → s.cur.mail = ⟨[e], [], none⟩ → e.msg.payload = [p, w] →
      e.msg.header.toNat / 2 ^ 56 = 4 → e.msg.header.toNat / 2 ^ 32 % 2 ^ 16 = (s.arg y).toNat % 2 ^ 16 →
      w.getLsbD 37 = false → w.getLsbD 36 = false → w.extractLsb' 32 4 = 0 → a.sat = false →
      let ex := (w.extractLsb' 0 16).toInt
      let em := (w.extractLsb' 16 16).toInt
      spanWith a ex em ≤ 192 → ∃ t b, exec (.qadd q x y) s = .next t ∧
        t.cur.reg = (s.cur.reg.putQ q b).step 8 ∧ TakesLeaf a b p.toInt ex em ∧ t.cur.mail = ⟨[], [], none⟩ ∧
        t.mem = s.mem) ∧
    (∀ (l : List InEntry) (f : Nat → QAcc),
      let mine := l.filter (blockSumOf ((s.arg y).toNat % 2 ^ 16))
      let last (e : InEntry) : Bool := !(e.msg.payload.getD 1 0).getLsbD 37
      s.cur.mail = ⟨l, [], none⟩ → (s.arg x).toNat = (mine.filter last).length → (s.arg x).toNat ≤ 65535 →
      (∀ e, mine.getLast? = some e → last e = true) → f 0 = a → SumsUp f mine →
      ∃ t, exec (.qadd q x y) s = .next t ∧ t.cur.reg = (s.cur.reg.putQ q (f mine.length)).step 8 ∧
        t.cur.mail = ⟨l.filter (fun e => !(blockSumOf ((s.arg y).toNat % 2 ^ 16) e)), [], none⟩ ∧ t.mem = s.mem) ∧
    (∀ c ds, a.empty = false → Digits a.q.toInt ds → MailboxFree s (s.arg x) c → c.mail.inbox.length + ds.length ≤ 3 →
      ∃ t, exec (.qsendQ q x y) s = .next t ∧ t.cur.reg = s.cur.reg.step 8 ∧ t.mem = s.mem ∧ t.net = [] ∧
        t.others = s.others.map (fun o => if o.id.uid = c.id.uid then
          { o with mail := { o.mail with inbox := o.mail.inbox ++ ds.mapIdx (fun j d =>
            ⟨⟨BitVec.ofNat 64 (4 * 2 ^ 56 + 2 * 2 ^ 48 + (s.arg y).toNat % 2 ^ 16 * 2 ^ 32 + s.cur.src % 2 ^ 32),
              [BitVec.ofInt 64 d, transferWord a ds.length j]⟩, none⟩) } } else o)) ∧
    (∀ c, a = ⟨0, 0, 0, true, false, false, false, false⟩ → MailboxFree s (s.arg x) c →
      ∃ t, exec (.qsendQ q x y) s = .next t ∧ t.cur.reg = s.cur.reg.step 8 ∧ t.mem = s.mem ∧
        t.others = s.mailed c ⟨BitVec.ofNat 64 (4 * 2 ^ 56 + 2 * 2 ^ 48 + (s.arg y).toNat % 2 ^ 16 * 2 ^ 32 +
          s.cur.src % 2 ^ 32), [0, BitVec.ofNat 64 (2 ^ 36)]⟩) ∧
    ((s.arg x).getLsbD 37 = false → s.checkDest (s.arg x) = none →
      s.mailbox (destCore (s.arg x)) ((s.arg x).toNat % 2 ^ 6) = none →
      ∃ t, exec (.qsendQ q x y) s = .next t ∧ Finishes s t (s.cur.reg.step 8))

/-- R286 to R291: accumulators are cleared, added to, rounded, sent and received. -/
def Obligations.ExactAccumulators : Prop := Claim.ExactSums ∧ Claim.BlockSums

/-- R86 to R93, R123, R135, R150, R244, R261, R285, R288: words that the manual writes out in its examples decode to the
instructions that it names beside them, and the encoder writes those words; words that it rejects are rejected with the
check that it names. -/
def Obligations.ReferenceWords : Prop :=
  (∀ p ∈ ([
      (0x08642800, 0, .add 3 4 5), (0x094B60C0, 0, .mulh 10 11 12), (0x082240A1, 0, .srai 1 2 40),
      (0x08E849C3, 0, .lea 7 8 9 3), (0x0AF6C081, 0, .slli 23 22 56), (0x0CC60040, 0, .addi 6 6 0x40),
      (0x20A6FFFE, 0, .blt 5 6 0xFFFE), (0x30200040, 0, .jal 1 0x40), (0x34010000, 0, .jalr 0 1 0),
      (0x38642805, 0, .fadd 3 4 5 2 true), (0x38C74084, 0, .fcmp 6 7 8 2 false), (0x392A309C, 0, .fcvt 9 10 6 6),
      (0x44A64804, 0, .ldW 5 6 ⟨2, 1, 0⟩ 4), (0x58A769FF, 0, .stD 5 7 ⟨3, 1, 0⟩ 0x1FF),
      (0xFC18A6C0, 0x1004, .stWLong 5 6 ⟨6, 0, 0⟩ 0x1004), (0x5CA63817, 0, .amoAdd 5 6 7 true 3 true),
      (0x60063905, 0, .redFadd 6 7 false 2 true), (0x64000032, 0, .fenceRel 2 1),
      (0xF950C000, 0x70611103, .vfma (some ⟨2, true, 2, 3, 0⟩) 2 3 1 2), (0x70811100, 0, .vadd none 2 4 1 2),
      (0x7022190A, 0, .vcmpLt none 2 1 2 3), (0xF8300000, 0x74C3118B, .vcvt (some ⟨0, false, 6, 0, 0⟩) 3 2 6 3),
      (0x6826C041, 0, .vld none 2 1 6 ⟨6, 0, 0⟩ 1), (0xF9000000, 0x75010102, .vsumRow (some ⟨2, false, 0, 0, 0⟩) 2 8 1),
      (0x78A00003, 0, .srd 5 3), (0x78070401, 0, .swr 1 7), (0x78000805, 0, .svc 5), (0x78062403, 0, .amapw 3 6),
      (0x7CE84820, 0, .cancel 7 8 9), (0x80A63810, 0, .barw 5 6 7), (0x84A63810, 0, .blease 5 6 7),
      (0x88A63800, 0, .msend 5 6 7), (0xFC44A6C8, 8, .gld true 5 6 ⟨6, 1, 0⟩ 8),
      (0xFC54A6C0, 0x03800000, .gamoAdd true 5 6 7 ⟨6, 0, 0⟩ 0), (0xFC882848, 0x24800100, .tst 1 8 9 2 ⟨2, 1, 0⟩ 0x100),
      (0xFD0086AA, 0x22080000, .tmma 1 0 3 5 5 2 2 0 true false), (0xFD180000, 0, .ctswap),
      (0xFD04A6AA, 0x20010240, .tmmas 1 2 3 5 5 2 0 0 false false 2 9), (0xFD400000, 0x0300018E, .pdef 3 6 7),
      (0xFD880040, 0x140, .qaddf 0 2 5), (0xFD9027AA, 0x212, .qsendQ4n 2 3 13 5 8 9)] : List (Nat × Nat × Instr)),
    decodeParcels p.1 p.2.1 = .ok p.2.2 ∧ checkFields p.2.2 = none ∧
    encode p.2.2 = if isLong p.1 then [p.1, p.2.1] else [p.1]) ∧
  decodeParcels 0xF950C040 0x70611103 = .error .illegalField ∧ decodeParcels 0x7061117F 0 = .error .illegalInstruction ∧
  decodeParcels 0xF950C000 0x44A64804 = .error .illegalInstruction ∧
  decodeParcels 0x8C000000 0 = .error .illegalInstruction ∧ decodeParcels 0 0 = .error .illegalInstruction ∧
  decodeParcels 0x60A63905 0 = .error .illegalField ∧ decodeParcels 0x600638C5 0 = .error .illegalInstruction

/-- Every well-formed instruction, with every operand at every value that its encoding admits, decodes from the parcels
that encode writes, and from their bytes in memory order (R73, R84 to R97). -/
def Obligations.EncodingsAgree : Prop :=
  ∀ i : Instr, encodable i = true → wellFormed i = true →
    (∀ w ∈ encode i, w < 2 ^ 32) ∧ decodeList (encode i) = some (.ok i) ∧
    decodeBytes ((encode i).flatMap (toBytes 4)) = some (.ok i)

/-! The machine. -/

/-- R41, R71, R107, R109, R111, R184: what package reset leaves: the supervisor of every core in slot 7, not yet started.
Memory lists nothing, so it has its canonical form; that an unlisted byte reads zero is the model's choice (log 2). -/
def Obligations.ResetState : Prop :=
  let s := State.reset
  let r := s.cur.reg
  s.mem = [] ∧ Memory.wf s.mem = true ∧ s.launches = [] ∧ s.agenda = [] ∧ s.turns = [] ∧
  (∀ c ∈ s.contexts, c.id.sup = true ∧ c.id.slot = 7 ∧ c.sched.stopped = true) ∧
  (∀ k, k < 512 → ∃ c ∈ s.contexts, c.id.core = k) ∧ r.shape = 0x0000000000010080 ∧
  r.fps = 0x13579BDF00000200 ∧ (∀ a : XReg, s.arg a = 0) ∧
  (∀ c, (s.cluster c).banks = [q4n, q4n] ∧ (s.cluster c).drpth = 0x0000000000400008 ∧ (s.cluster c).rings = []) ∧
  (∀ k, (s.string k).gesso = 0x0000000011832001) ∧ (∀ k, (s.core k).traps = [] ∧ (s.core k).dead = false) ∧
  s.ctlGet 0 0x740 = 0x0000000007D00CE4 ∧ s.ctlGet 0 0x000 = 0

/-- R73, R97, R98: a step in which a context's turn comes, and whose parcels at the program counter decode to a
well-formed instruction, is that instruction's effect: at the state one step later, with the core awake where the context
is ready (R171), and the instruction's bits noted. The turn comes because the outside lays it down, or by itself where nothing else is due
(log 8). -/
def Obligations.StepRunsDecoded : Prop :=
  ∀ (s : State) (i : Instr) (w v : Nat) (rest : List Turn),
    let s1 : State := { s.tick with turns := rest }
    let s0 := if s1.waitOver s1.cur then s1.served s.cur.id.core else s1
    let long := isLong w
    let v0 := if long then v else 0
    (s.turns = .run s.cur.id.uid :: rest ∨
      (s.turns = [] ∧ rest = [] ∧ s.agenda = [] ∧ s.net = [] ∧ s.others = [] ∧
        s.tick.schedule = none)) →
    s.cur.runnable = true → s1.stalled s.cur = false → s.cur.sched.ending = none → s.cur.sched.cancelled = false → s.cur.sched.toSafe = none →
    s.cur.reg.pc.toNat % 4 = 0 → s.cur.reg.pc.toNat + 8 ≤ 2 ^ 60 → Fetches s0 s.cur.reg.pc.toNat w →
    (long = true → Fetches s0 (s.cur.reg.pc.toNat + 4) v) → decodeParcels w v0 = .ok i → checkFields i = none →
    step s = exec i { s0 with cur := { s0.cur with bits := BitVec.ofNat 64 (v0 * 2 ^ 32 + w), long := long } }

/-- Every step of the machine keeps memory in its canonical form: locations strictly rising, and no byte listed that an
unlisted location reads as. -/
def Obligations.MemoryStaysCanonical : Prop :=
  ∀ s t : State, Memory.wf s.mem = true → step s = .next t → Memory.wf t.mem = true

/-- Every instruction and every step of the device has an outcome: no state and no operands end a run (R1 gives each
step its effect, R340 to R342 the traps). -/
def Obligations.NothingStops : Prop :=
  (∀ (i : Instr) (s : State), ∃ t, exec i s = .next t) ∧ ∀ s : State, ∃ t, step s = .next t

/-! Tiles, code tables, rings and ferry doorbells. -/

/-- R223, R237, R246 to R257: a tile instruction all of whose commands have been reported without a fault retires: its
name is bound to the tile that the report carries, no other name changes, FPS takes the flags of every member, and its
commands are gone. A load that acquires finds its rows mapped still. TLDP pops the slot that it has read. -/
def Claim.TileBindings : Prop :=
  ∀ (s : State) (i : Instr) (td : TNum) (q : Nat × EngineCmd) (rest : List (Nat × EngineCmd)) (tile : Tile),
    tileTarget i = some td → Calm s → Reported s q rest → q.2.result = some tile →
    (∀ a xs f m off, i = .tld td a xs f m off → m.cls = 1 ∨ m.cls = 3 → ∃ base ia, RowsMapped s a xs f .read off base ia) →
    ∃ t, exec i s = .next t ∧ EngineDone s t (q :: rest) ∧ t.cur.reg.t[td] = some tile ∧
      (∀ n : TNum, n ≠ td → t.cur.reg.t[n] = s.cur.reg.t[n]) ∧
      ∀ p xs f off h r u, i = .tldp td p xs f off → Handles s p h r →
        r.subs[h.record + (if h.role = .easelAll then s.cur.job.easel.getD 0 else 0)]? = some u →
        t.cur.reg.p[p] = some { h with next := h.next + 1 } ∧ ∃ r1 u1, t.ring (s.cur.id.core / 4) h.ring = some r1 ∧
          r1.subs[h.record + (if h.role = .easelAll then s.cur.job.easel.getD 0 else 0)]? = some u1 ∧
          u1.popped = u.popped + 1

/-- R231, R232, R247, R248: what TLD and TLDP forward: the tile that they will bind, of the rows that they read, TLD in memory,
TLDP in its slot as it was delivered but for the context's own stores to it since (R226). That the tile is found when the
command is forwarded is the model's reading (log 109). -/
def Claim.TileLoads : Prop :=
  ∀ (s : State) (td : TNum) (xs : XReg) (f : FmtCode) (off : BitVec 19),
    let d := descOf (s.arg xs)
    let st := strideOf d.stride d.cols f
    let bank := (s.cluster (s.cur.id.core / 4)).bank
    let binds (k : EngineCmd) (byte : Nat → Nat → Byte) : Prop :=
      ∃ tile, k.result = some tile ∧ FromRows tile f d.rows d.cols bank byte
    EngineFree s → s.cur.groupName td = false → d.ok f false = true → CellsFor s (tileCells d.rows d.cols f) →
    (∀ (a : XReg) (m : MemAttr) (base : Nat) (ia loc : Nat → Nat),
      s.cur.effective (s.arg a) off.toInt (d.span f) = .ok base → base % 16 = 0 → Readable s base (d.span f) ia loc →
      (m.cls = 2 → ∀ va, base ≤ va → va < base + d.span f → Promised s (loc va) 1) →
      ∃ t k, exec (.tld td a xs f m off) s = .next t ∧ Forwarded s t k ∧ k.flags = 0 ∧
        binds k (fun r j => cellGet s.mem (loc (base + r * st + j)))) ∧
    (∀ (p : PNum) (h : RingHandle) (r : Ring) (u : RingSub) (x : Staged) (byte : Nat → Byte), Handles s p h r →
      (r.fmt = 0 ∨ r.fmt = f) → StagedSlot s h r 0 u x → off.toNat % 16 = 0 → off.toNat + d.span f ≤ r.slotBytes →
      x.bytes.length = r.slotBytes →
      (∀ k, k < r.slotBytes →
        let loc := State.slotLoc (s.cur.id.core / 4) r u.popped + k
        let own : Prop := ∃ v ∈ s.versions loc, x.step ≤ v.step ∧ s.wrote s.cur v.writer = true
        (own → byte k = cellGet s.mem loc) ∧ (¬own → x.bytes[k]? = some (byte k))) →
      ∃ t k, exec (.tldp td p xs f off) s = .next t ∧ Forwarded s t k ∧ k.flags = 0 ∧ k.slots = [(h.ring, u.popped)] ∧
        binds k (fun r j => byte (off.toNat + r * st + j)))

/-- R217, R251, R255 to R257: what TZERO, TADD, TCVT without stochastic rounding and TGRP forward: the tile that they will
bind. That it is found when the command is forwarded is the model's reading (log 109). -/
def Claim.TileResults : Prop :=
  ∀ (s : State), EngineFree s →
    (∀ (td : TNum) (f : FmtCode) (xs : XReg),
      let d := descOf (s.arg xs)
      1 < s.cur.job.group → d.ok f true = true →
      (∀ q ∈ s.cur.needs (zeroTile f false d.rows d.cols true), CellsOn s q.1 q.2) →
      ∃ t, exec (.tgrp td f xs) s = .next t ∧ ForwardedAll s t (fun k => k.flags = 0 ∧
        ∃ tile, k.result = some tile ∧ tile.group = true ∧ tile.tag = f ∧ tile.rows = d.rows ∧ tile.cols = d.cols ∧
          tile.elems = List.replicate (d.rows * d.cols) 0)) ∧
    (∀ (td : TNum) (f : FmtCode) (xs : XReg),
      let d : Desc := { descOf (s.arg xs) with stride := 0 }
      (d.ok f false = true → CellsFor s (tileCells d.rows d.cols f) →
        ∃ t k, exec (.tzero td f xs) s = .next t ∧ Forwarded s t k ∧ k.flags = 0 ∧
          tileShape k f d.rows d.cols (List.replicate (d.rows * d.cols) 0))) ∧
    (∀ (td ta tb : TNum) (f : FmtCode) (rnd : Fin 8) (a b : Tile), TileIn s ta f a → TileIn s tb f b →
      s.cur.groupName td = false → a.rows = b.rows → a.cols = b.cols → CellsFor s (tileCells a.rows a.cols f) →
      let out := (a.elems.zip b.elems).map (fun p =>
        if f = 2 then fpAdd FP32 (s.roundMode rnd false) p.1 p.2 else cvtII 8 (toSigned 32 p.1 + toSigned 32 p.2))
      ∃ t k, exec (.tadd td ta tb f rnd) s = .next t ∧ Forwarded s t k ∧
        k.flags = out.foldl (fun fl q => fl ||| q.2) 0 ∧ tileShape k f a.rows a.cols (out.map (fun q => q.1))) ∧
    (∀ (td ta : TNum) (bank : Bool) (fa fd : FmtCode) (rnd : Fin 8) (sat : Bool) (a : Tile), TileIn s ta fa a →
      s.cur.groupName td = false → (⟨a.rows, a.cols, 0⟩ : Desc).ok fd false = true →
      CellsFor s (tileCells a.rows a.cols fd) → s.roundMode rnd (3 ≤ fd.val && fd.val ≤ 6) ≠ 6 →
      let out := (List.range (a.rows * a.cols)).map (fun e =>
        tcvtElem fa fd (s.roundMode rnd (3 ≤ fd.val && fd.val ≤ 6)) s.cur.lfsr sat (s.codes fd bank)
          (s.codes fa a.comp) a (e / a.cols) (e % a.cols))
      ∃ t k, exec (.tcvt td ta bank fa fd rnd sat) s = .next t ∧ Forwarded s t k ∧ k.lfsr = none ∧
        k.flags = out.foldl (fun fl q => fl ||| q.2) 0 ∧ tileShape k fd a.rows a.cols (out.map (fun q => q.1)))

/-- R50 to R52, R233 to R235, R252 to R254, R258: what TMMA and TMMAS forward, each operand A and B a tile or a slot of a ring,
in every format of R252: the accumulator with every element's products added. The two operands of one handle are two slots
that follow each other. That the sums are found when the command is forwarded is the model's reading (log 109). -/
def Claim.TileProducts : Prop :=
  ∀ (s : State) (td ta tb : TNum) (fa fb fd : FmtCode) (pa pb : PNum) (ra rb : Bool) (a b d : Tile), EngineFree s →
    Operand s ta pa ra fa 0 a → Operand s tb pb rb fb (if ra && rb && pa = pb then 1 else 0) b → TileIn s td fd d →
    d.rows = a.rows → d.cols = b.cols → CellsFor s (tileCells d.rows d.cols fd) →
    (fa = 13 ∨ fa = 14 → a.cols % 64 = 0) →
    let result (i : Instr) (sp : Nat) (info : Nat → List Byte) : Prop :=
      let out := (List.range a.rows).flatMap (fun m => (List.range b.cols).map (fun n =>
        s.productOf fa fb sp a b info (d.elem m n) m n))
      ∃ t k, exec i s = .next t ∧ Forwarded s t k ∧ k.flags = out.foldl (fun fl q => fl ||| q.2) 0 ∧
        tileShape k fd d.rows d.cols (out.map (fun q => q.1))
    (a.cols = b.rows → result (.tmma td ta tb fa fb fd pa pb ra rb) 0 (fun _ => [])) ∧
    (∀ (sp : Fin 8) (xs : XReg) (base : Nat) (ia loc : Nat → Nat), sp = 1 ∨ sp = 2 ∨ sp = 3 → b.rows % 8 = 0 →
      a.cols = b.rows * 2 ^ (sp.val - 1) / 8 →
      let n := (3 * 2 ^ (sp.val - 1) * b.rows + 511) / 512 * 8
      s.cur.effective (s.arg xs) 0 (d.rows * n) = .ok base → base % 8 = 0 → Readable s base (d.rows * n) ia loc →
      result (.tmmas td ta tb fa fb fd pa pb ra rb sp xs) sp.val
        (fun m => (List.range n).map (fun j => cellGet s.mem (loc (base + m * n + j)))))

/-- R227, R249, R250: TST and TSTP retire once their commands have been reported: the tile's rows stand among the
context's undrained stores, in ascending order, all of them still to write, each where the descriptor's stride puts it from
the address, for TSTP from the offset in the claimed slot, and no byte of memory has changed. A streaming store to pageable
memory is one that a counter counts. -/
def Claim.TileStores : Prop :=
  ∀ (s : State) (ts : TNum) (xs a : XReg) (f : FmtCode) (off : BitVec 19) (q : Nat × EngineCmd)
    (rest : List (Nat × EngineCmd)) (tile : Tile),
    let d := descOf (s.arg xs)
    let st := strideOf d.stride d.cols f
    let lies (k : Drain) (at_ : Nat → Nat) : Prop := k.left = k.rows ∧
      k.rows.flatMap (fun p => p.2.mapIdx (fun j v => (p.1 + j, v))) =
        (List.range d.rows).flatMap (fun r => (tile.rowImage r).mapIdx (fun j v => (at_ (r * st + j), v)))
    Calm s → Reported s q rest → s.cur.reg.t[ts] = some tile → tile.tag = f → d.ok f tile.group = true →
    d.rows = tile.rows → d.cols = tile.cols → (fmtWidth f = 4 → d.cols % 2 = 0) →
    (∀ (m : MemAttr) (base : Nat) (ia : Nat → Nat) (counted : Option PostKind), RowsMapped s a xs f .write off base ia →
      (∀ va, base ≤ va → ia va = ia base + (va - base)) →
      (∀ va, base ≤ va → va < base + d.span f →
        (if m.cls = 2 ∧ s.pageable (ia va) = true then s.postKind s.cur (ia va) true else none) = counted) →
      ∃ t k, exec (.tst ts a xs f m off) s = .next t ∧ EngineDone s t (q :: rest) ∧ t.mem = s.mem ∧
        t.cur.io.drains = [k] ∧ k.slot = none ∧ k.counted = counted ∧ k.gate = s.storeGateOf m ∧
        lies k (fun o => ia (base + o))) ∧
    (∀ (p : PNum) (h : RingHandle) (r : Ring), Handles s p h r →
      let n := (s.arg a).extractLsb' 32 32
      off.toNat % 16 = 0 → off.toNat + d.span f ≤ r.slotBytes → r.inside n = true →
      r.slot n = ⟨.filling, some (.handle s.cur.id.uid p)⟩ →
      ∃ t k, exec (.tstp ts p a xs f off) s = .next t ∧ EngineDone s t (q :: rest) ∧ t.mem = s.mem ∧
        t.cur.io.drains = [k] ∧ k.slot = some (h.ring, n) ∧ k.counted = none ∧
        lies k (fun o => State.slotLoc (s.cur.id.core / 4) r n + off.toNat + o))

/-- R290: QSEND of tiles retires once its command has been reported; its messages follow, and what is sent to no live
context is discarded. With one row the message carries the row's sum. -/
def Claim.TileSums : Prop :=
  ∀ (s : State) (ta tb : TNum) (fa fb : FmtCode) (xs xt : XReg) (q : Nat × EngineCmd) (rest : List (Nat × EngineCmd))
    (a b : Tile), Ready s → s.net = [] → Reported s q rest → s.cur.reg.t[ta] = some a → a.tag = fa →
    s.cur.reg.t[tb] = some b → b.tag = fb →
    let w := s.arg xs
    (w.getLsbD 37 = false → s.checkDest w = none → s.mailbox (destCore w) (w.toNat % 2 ^ 6) = none →
      ∃ t, exec (.qsendQ4n ta tb fa fb xs xt) s = .next t ∧ EngineDone s t (q :: rest) ∧ t.mem = s.mem) ∧
    (∀ c, MailboxFree s w c → a.rows = 1 →
      ∃ t, exec (.qsendQ4n ta tb fa fb xs xt) s = .next t ∧ EngineDone s t (q :: rest) ∧ t.mem = s.mem ∧
        t.others = s.mailed c ⟨BitVec.ofNat 64 (4 * 2 ^ 56 + 2 * 2 ^ 48 + (s.arg xt).toNat % 2 ^ 16 * 2 ^ 32 + s.cur.src % 2 ^ 32),
          rowSum (s.tableOf (s.cur.id.core / 4) fa a.comp) ((List.range (a.cols / 64)).map (a.scaleU 0)) (a.row 0)
            (b.col 0)⟩)

/-- R217 to R257, R290: the tile instructions. -/
def Obligations.TileInstructions : Prop :=
  Claim.TileBindings ∧ Claim.TileLoads ∧ Claim.TileResults ∧ Claim.TileProducts ∧ Claim.TileStores ∧ Claim.TileSums

/-- R266, R267: CTWR writes the 16 entries that it reads into the bank that is not active; CTSWAP makes the other bank
active and counts. Neither waits where no operation in flight holds the bank and no other stands at the table. -/
def Obligations.CodeTables : Prop :=
  ∀ (s : State), s.cur.sync.region = none → (s.cluster (s.cur.id.core / 4)).table = [] →
    let cl := s.cur.id.core / 4
    let c := s.cluster cl
    (∀ (a : XReg) (m : MemAttr) (off : BitVec 19) (va ia loc : Nat), Calm s → s.bankHeld cl (!c.bank) = false →
      s.cur.effective (s.arg a) off.toInt 32 = .ok va → va % 32 = 0 → Reaches s .read va ia loc →
      s.poisoned loc 32 = false → (m.cls = 2 → Promised s loc 32) →
      let entries := (List.range 16).map (fun k => fromBytes (s.bytesAt (loc + 2 * k) 2))
      (∀ e ∈ entries, e < 512) → ∃ t, exec (.ctwr a m off) s = .next t ∧
        let s1 := s.setCluster cl { c with banks := c.banks.set (!c.bank).toNat entries }
        Finishes s1 (t.unpromised s m) (s1.cur.reg.step 8)) ∧
    (s.bankHeld cl c.bank = false → ∃ t, exec .ctswap s = .next t ∧
      let s1 := s.setCluster cl { c with bank := !c.bank, swaps := c.swaps + 1 }
      Finishes s1 t (s1.cur.reg.step 8))

/-- R229, R259 to R262: PDEF of an unbound handle makes the ring that a valid descriptor describes, empty, and binds the
handle as its producer; PSUB of an unbound handle adds a context subscription and binds the handle to its record. -/
def Claim.RingHandles : Prop :=
  ∀ (s : State) (p : PNum) (x y : XReg), s.cur.sched.place = .slot → s.cur.sync.region = none → s.cur.reg.p[p] = none →
    let cl := s.cur.id.core / 4
    (∀ (va ia loc : Nat), Calm s → s.cur.effective (s.arg x) 0 32 = .ok va → va % 32 = 0 → Reaches s .read va ia loc →
      s.poisoned loc 32 = false → s.ringDescOk cl (s.bytesAt loc 32) = true → (s.arg y).toNat < 64 →
      s.ring cl (s.arg y).toNat = none →
      let n (o k : Nat) : Nat := fromBytes (s.bytesAt (loc + o) k)
      ∃ t, exec (.pdef p x y) s = .next t ∧
        t.cur.reg = (s.cur.reg.handle p (some ⟨(s.arg y).toNat, .producer, 0, 0⟩)).step 8 ∧ t.mem = s.mem ∧
        t.ring cl (s.arg y).toNat = some {
          pbase := n 0 4, slotBytes := n 4 4, nslot := n 8 1, nsub := n 9 1, fmt := Fin.ofNat 16 (n 0x0A 1)
          stringRing := n 0x0B 1 = 1, rows := n 0x0E 2, cols := n 0x0C 2, stride := n 0x10 4
          claim := 0, head := 0, tail := 0, slots := List.replicate (n 8 1) ⟨.empty, none⟩, subs := [], waiting := [] }) ∧
    (∀ (r : Ring) (wm1 : Nat), (s.arg x).toNat < 64 → s.ring cl (s.arg x).toNat = some r →
      (s.arg y).toNat = wm1 * 2 ^ 8 → wm1 < 64 → r.subs.length + 1 ≤ r.nsub →
      ∃ t, exec (.psub p x y) s = .next t ∧
        let s1 := s.setRing cl (s.arg x).toNat
          { r with subs := r.subs ++ [⟨s.cur.id.uid, p, none, wm1 + 1, 0, 0, false, []⟩] }
        Finishes s1 t ((s.cur.reg.handle p (some ⟨(s.arg x).toNat, .contextSub, r.subs.length, 0⟩)).step 8))

/-- R230, R261, R263 to R265: PCLAIM of the next free slot gives its claim word and makes it FILLING. PPOST of a slot that
the context claimed makes it READY; no subscriber is there yet. PWFILL gives the claim word of the oldest slot that has
been delivered, PPOP takes it, and PWFREE counts the EMPTY slots. -/
def Claim.RingSlots : Prop :=
  ∀ (s : State) (p : PNum) (x y : XReg) (h : RingHandle) (r : Ring), Calm s → Handles s p h r →
    let cl := s.cur.id.core / 4
    let who : Claimer := .handle s.cur.id.uid p
    (s.cur.sync.grant = none → (r.claim - r.head).toNat < r.nslot → r.waiting = [] → r.slots.length = r.nslot →
      ∃ t, exec (.pclaim p x) s = .next t ∧
        let s1 := s.setRing cl h.ring { r with
          claim := r.claim + 1, slots := r.slots.set (r.claim.toNat % r.nslot) ⟨.filling, some who⟩ }
        Finishes s1 t (s.gpr x (slotWord r r.claim) 8)) ∧
    (∀ n : BitVec 32, n = (s.arg x).extractLsb' 32 32 →
      r.inside n = true → r.slot n = ⟨.filling, some who⟩ → r.slots.length = r.nslot → r.subs = [] → 0 < r.nsub →
      ∃ t r1, exec (.ppost p x) s = .next t ∧ t.cur.reg = s.cur.reg.step 8 ∧ t.mem = s.mem ∧
        t.ring cl h.ring = some r1 ∧ r1.slots = r.slots.set (n.toNat % r.nslot) ⟨.ready, some who⟩ ∧
        r1.claim = r.claim) ∧
    (∀ u, h.role = .contextSub → r.subs[h.record]? = some u → u.delivered ≠ u.popped → u.window ≤ 64 →
      (∃ t, exec (.pwfill p x) s = .next t ∧ t.cur.reg = s.gpr x (slotWord r u.popped) 8) ∧
      (∃ t r1 u1, exec (.ppop p) s = .next t ∧
        t.cur.reg = (s.cur.reg.handle p (some { h with next := h.next + 1 })).step 8 ∧ t.ring cl h.ring = some r1 ∧
        r1.subs[h.record]? = some u1 ∧ u1.popped = u.popped + 1)) ∧
    (min (s.arg x).toNat r.nslot ≤ r.nslot - (r.claim - r.head).toNat →
      ∃ t, exec (.pwfree p x y) s = .next t ∧
        Finishes s t (s.gpr y (BitVec.ofNat 64 (r.nslot - (r.claim - r.head).toNat)) 8))

/-- R258, R264: a ring instruction through a handle that is not bound raises RING_ERROR. -/
def Claim.UnboundRings : Prop :=
  ∀ (s : State) (i : Instr) (p : PNum) (x y : XReg), TrapReady s → s.cur.reg.p[p] = none →
    (i = .pclaim p x ∨ i = .ppost p x ∨ i = .pwfill p x ∨ i = .pwfree p x y ∨ i = .ppop p) →
    ∃ t, exec i s = .next t ∧ Traps s t 0x0C s.cur.reg.edepth s.cur.reg.pc s.cur.bits s.cur.reg.pc

/-- R229 to R232, R258 to R265: the ring instructions. -/
def Obligations.RingInstructions : Prop := Claim.RingHandles ∧ Claim.RingSlots ∧ Claim.UnboundRings

/-- R268, R270, R273: FAPP appends a command to an idle chain: its sequence number is one more than LASTSEQ, skipping 0,
and goes to x[D] and into the command; the object names the command as its head and its tail, and is RUNNING. On a
HALTED chain, after the release, x[D] is 2^63 and nothing changes. FSEQ gives LASTSEQ and DONESEQ. -/
def Obligations.FerryDoorbells : Prop :=
  ∀ (s : State) (d a x : XReg) (off : BitVec 19),
    (∀ (cva hva cia hia cloc hloc : Nat), Still s → s.cur.effective (s.arg a) off.toInt 64 = .ok cva → cva % 64 = 0 →
      s.cur.mapVa .write cva = .ok cia → s.cur.effective (s.arg x) 0 64 = .ok hva → hva % 64 = 0 →
      ObjectAt s x .atomic hia hloc → Reaches s .write cva cia cloc → s.touchedBy none cia 64 = false →
      (cloc + 64 ≤ hloc ∨ hloc + 64 ≤ cloc) →
      let n (o k : Nat) : Nat := fromBytes (s.bytesAt (hloc + o) k)
      let seq := if n 0x10 4 + 1 = 2 ^ 32 then 1 else n 0x10 4 + 1
      (n 0x1A 1 = 2 → ∃ t, exec (.fapp d a x off) s = .next t ∧
        Finishes (s.released 6) t (s.gpr d (2 ^ 63) 8)) ∧
      (n 0x1A 1 ≠ 2 → n 0 8 = 0 → ∃ t, exec (.fapp d a x off) s = .next t ∧
        t.cur.reg = s.gpr d (BitVec.ofNat 64 seq) 8 ∧ t.numAt hloc 8 = cva ∧ t.numAt (hloc + 8) 8 = cva ∧
        t.numAt (hloc + 0x10) 4 = seq ∧ t.numAt (hloc + 0x1A) 1 = 1 ∧ t.numAt cloc 8 = 0 ∧
        t.numAt (cloc + 0x30) 4 = seq ∧ t.agenda = s.agenda ++ [.postedAck s.cur.id.uid, .ferry hia seq] ∧
        ∀ k, (k < hloc ∨ hloc + 64 ≤ k) → (k < cloc ∨ cloc + 64 ≤ k) → cellGet t.mem k = cellGet s.mem k)) ∧
    (∀ (va ia loc : Nat), Calm s → s.cur.effective (s.arg a) off.toInt 64 = .ok va → va % 64 = 0 →
      Reaches s .read va ia loc → s.meet (ia + 0x10) .read s.cur.token = (.ok (loc + 0x10), s) →
      s.poisoned (loc + 0x10) 8 = false → ∃ t, exec (.fseq d a off) s = .next t ∧
        Finishes s t (s.gpr d (BitVec.ofNat 64
          (fromBytes (s.bytesAt (loc + 0x10) 4) * 2 ^ 32 + fromBytes (s.bytesAt (loc + 0x14) 4))) 8))

/-- R70 to R72: a refresh shows the imbalances measured, THROT and GACT, lets a write of GESSO that waits take effect, and
compares the imbalances with THRESH. GESSO starts with EN 1 once a node has been above THRESH for 64 cycles, and stops once
every node has been below 3/4 of it for 256; the string throttles above LIMIT, until every node has been below THRESH for
256 cycles. That the cycles are those of the string's first cluster, from the first refresh that showed the imbalance, is the
model's reading (log 98). -/
def Claim.Imbalances : Prop :=
  ∀ (s : State) (k : Nat),
    let v := s.string k
    let large (n : BitVec 10) : Nat := n.toInt.natAbs
    let since (p : Bool) (old : Option Nat) : Option Nat := if p then some (old.getD s.now) else none
    (∀ a b c : BitVec 10,
      let gesso := v.gessoNext.getD v.gesso
      let thresh := (gesso.extractLsb' 10 10).toNat
      let old (j : Nat) : Option Nat := (v.above[j]?).getD none
      ∃ t, exec (.strimbRefresh k a b c) s = .next t ∧ OnlyString s t k { v with
        node1 := a, node2 := b, node3 := c, gesso := gesso, gessoNext := none, gactShown := v.gact, throtShown := v.throt
        above := [since (thresh < large a) (old 0), since (thresh < large b) (old 1), since (thresh < large c) (old 2)]
        calm := since (4 * large a < 3 * thresh ∧ 4 * large b < 3 * thresh ∧ 4 * large c < 3 * thresh) v.calm
        below := since (large a < thresh ∧ large b < thresh ∧ large c < thresh) v.below }) ∧
    (let up : Prop := v.gesso.getLsbD 0 = true ∧ ∃ t0, some t0 ∈ v.above ∧ 64 ≤ s.cyclesSince (k * 4) t0
     (up → ∃ t, exec (.gessoStart k) s = .next t ∧ OnlyString s t k { v with gact := true }) ∧
     (¬up → exec (.gessoStart k) s = .next s)) ∧
    (let down : Prop := ∃ t0, v.calm = some t0 ∧ 256 ≤ s.cyclesSince (k * 4) t0
     (down → ∃ t, exec (.gessoStop k) s = .next t ∧ OnlyString s t k { v with gact := false }) ∧
     (¬down → exec (.gessoStop k) s = .next s)) ∧
    (let over_ : Prop := ∃ n ∈ [v.node1, v.node2, v.node3], (v.gesso.extractLsb' 20 10).toNat < large n
     (over_ → ∃ t, exec (.stringThrottle k) s = .next t ∧ OnlyString s t k { v with throt := true }) ∧
     (¬over_ → exec (.stringThrottle k) s = .next s)) ∧
    (let low : Prop := ∃ t0, v.below = some t0 ∧ 256 ≤ s.cyclesSince (k * 4) t0
     (low → ∃ t, exec (.stringThrottleEnd k) s = .next t ∧ OnlyString s t k { v with
        throt := false, throtOff := if v.throt then some s.now else v.throtOff }) ∧
     (¬low → exec (.stringThrottleEnd k) s = .next s))

/-- R118, R172: a supply that sags by more than THRESH times 5 mV begins a stretch and counts, unless one is in progress; a
supply back above that level ends the stretch, which gives its stretched cycles and begins a hold of DRPTH.HOLD cycles, and
the hold ends once CYC has passed it. That HOLD 0 leaves an older hold running is the model's choice (log 99). -/
def Claim.Droops : Prop :=
  ∀ (s : State) (k sag : Nat),
    let c := s.cluster k
    let hold := (c.drpth.extractLsb' 16 16).toNat
    let level := 5 * (c.drpth.extractLsb' 0 8).toNat
    (c.stretching = true ∨ sag ≤ level → exec (.droopEvent ⟨k, sag⟩) s = .next s) ∧
    (c.stretching = false → level < sag → ∃ t, exec (.droopEvent ⟨k, sag⟩) s = .next t ∧ OnlyCluster s t k
      { c.counted 8 with droops := c.droops + 1, stretching := true, stretchAt := s.now }) ∧
    (c.stretching = true → sag < level → ∃ t, exec (.stretchEnd k sag) s = .next t ∧ OnlyCluster s t k { c with
      stretching := false, stretch := s.stretchedSince k c.stretchAt
      holdEnd := if hold = 0 then c.holdEnd else some (s.cyc k + hold) }) ∧
    (c.stretching = false ∨ level ≤ sag → exec (.stretchEnd k sag) s = .next s) ∧
    (∀ e, c.holdEnd = some e → e ≤ s.cyc k →
      ∃ t, exec (.halfWidthHoldEnd k) s = .next t ∧ OnlyCluster s t k { c with holdEnd := none, holdOff := e }) ∧
    (∀ e, c.holdEnd = some e → s.cyc k < e → exec (.halfWidthHoldEnd k) s = .next s)

/-- R171: CORE_IDLE marks a core none of whose contexts could execute, and none could for 256 cycles, and no other. That the
cycles of a core with no such context yet count from the reset is the model's reading (log 6). -/
def Claim.IdleCores : Prop :=
  ∀ (s : State) (k : Nat),
    let cycles := s.cyclesSince (k / 4) (max (s.core k).readyAt s.resetAt)
    ((∀ c ∈ s.contexts, c.sched.place = .slot → c.id.core = k → c.runnable = true → s.waitOver c = false) → 256 ≤ cycles →
      ∃ t, exec (.coreIdle k) s = .next t ∧ OnlyCore s t k { s.core k with idle := true }) ∧
    (∀ c ∈ s.contexts, c.sched.place = .slot → c.id.core = k → c.runnable = true → s.waitOver c = true →
      exec (.coreIdle k) s = .next s) ∧
    (cycles < 256 → exec (.coreIdle k) s = .next s)

/-- R70 to R72, R118, R171: the steps of strings, clusters and cores that their circuits take. -/
def Obligations.StringSteps : Prop := Claim.Imbalances ∧ Claim.Droops ∧ Claim.IdleCores

/-- R369: a frame is valid where it has 16 bytes, its magic, a FLOOR of 3 bits, a reserved field of 0 and its CRC. One
that is not is counted in BAD and changes nothing else. -/
def Claim.BadFrames : Prop :=
  ∀ (s : State) (pkg : Nat) (bs : List Byte), pkg < s.packages →
    (bs.length ≠ 16 ∨ fromBytes (bs.take 2) ≠ 0x7E1D ∨ 8 ≤ ((bs[3]?).getD 0).toNat ∨ fromBytes ((bs.drop 10).take 2) ≠ 0 ∨
      fromBytes (bs.drop 12) ≠ (crc32 (bs.take 12)).toNat) →
    let w := s.ctlGet (pkg * 4) 0x750
    ∃ t, exec (.tideFrame pkg bs) s = .next t ∧
      OnlyCtl s t (pkg * 4) 0x750 (w.extractLsb' 32 32 ++ (w.extractLsb' 0 32 + 1))

/-- R368 to R370, R373: a valid frame is noted in TSTAT and counted in GOOD, and CEIL is the ceiling that its values
give. Above it, by the demands measured with it (R372), every lease of the package ends; within it, with nothing shed,
halved or floored, only those demands change. -/
def Claim.GoodFrames : Prop :=
  ∀ (s : State) (pkg : Nat) (bs : List Byte), Distinct s → pkg < s.packages → frameValid bs = true →
    let die := pkg * 4
    let n (o : Nat) : Nat := fromBytes ((bs.drop o).take 2)
    let ceil := s.ceiling pkg (n 4) (n 6) (n 8)
    let e := (s.sampleDemands pkg).estimate pkg
    ∃ t, exec (.tideFrame pkg bs) s = .next t ∧
      t.ctlGet die 0x748 = setBits (setBits (setBits (setBits (setBits (setBits (s.ctlGet die 0x748) 63 48 (n 4)) 47 32 (n 6))
        15 8 ((bs[2]?).getD 0).toNat) 7 7 0) 5 3 ((bs[3]?).getD 0).toNat) 31 16 ceil ∧
      t.ctlGet die 0x750 = ((s.ctlGet die 0x750).extractLsb' 32 32 + 1) ++ (s.ctlGet die 0x750).extractLsb' 0 32 ∧
      (t.pkg pkg).lastFrame = s.now ∧
      (ceil < s.ctlField die 0x758 15 0 ∨ ceil < e → Unleased t pkg) ∧
      (s.ctlField die 0x758 15 0 ≤ ceil → e ≤ ceil → ((bs[3]?).getD 0).toNat = 0 →
        s.ctlField die 0x758 39 33 = 0 → s.ctlField die 0x758 30 30 = 0 →
        { t with ctl := s.ctl, pkgs := s.pkgs } = s ∧ CtlKept s t [ctlKey die 0x748, ctlKey die 0x750] ∧
        ∀ j, j ≠ pkg → t.pkg j = s.pkg j)

/-- R369, R370: 1 ms without a valid frame sets STALE, and CEIL is FALLBACK, held to CEILMAX and SAFELIM; while STALE is set
the ceiling is met anew with it, as for a frame. That TIDE_STALE changes STALE and CEIL alone, the steps that CEIL asks for
coming with the next computation, is the model's reading (log 80). -/
def Claim.StaleFrames : Prop :=
  ∀ (s : State) (pkg : Nat), Distinct s → pkg < s.packages →
    let die := pkg * 4
    let ceil := min (s.ctlField die 0x740 31 16) (min (s.ctlField die 0x740 15 0) (s.ctlField die 0x760 15 0))
    let w := s.ctlGet die 0x748
    let e := (s.sampleDemands pkg).estimate pkg
    (1000000 ≤ s.elapsed (s.pkg pkg).lastFrame → ∃ t, exec (.tideStale pkg) s = .next t ∧
      OnlyCtl s t die 0x748 (setBits (setBits w 7 7 1) 31 16 ceil)) ∧
    (s.elapsed (s.pkg pkg).lastFrame < 1000000 → exec (.tideStale pkg) s = .next s) ∧
    (w.getLsbD 7 = true → ∃ t, exec (.staleCeilingTick pkg) s = .next t ∧ t.ctlGet die 0x748 = setBits w 31 16 ceil ∧
      (ceil < s.ctlField die 0x758 15 0 ∨ ceil < e → Unleased t pkg) ∧
      (s.ctlField die 0x758 15 0 ≤ ceil → e ≤ ceil → s.ctlField die 0x748 5 3 = 0 →
        s.ctlField die 0x758 39 33 = 0 → s.ctlField die 0x758 30 30 = 0 →
        OnlyCtl s { t with pkgs := s.pkgs } die 0x748 (setBits w 31 16 ceil) ∧ t.pkgs = (s.sampleDemands pkg).pkgs))

/-- R369, R370, R373: a ceiling computation above which the package stands, as measured or as estimated, sets HWPWR; no
task being of a class that may be shed, nothing is shed, and HWPWR stays. -/
def Claim.HalfWidth : Prop :=
  ∀ (s : State) (pkg : Nat), Distinct s → pkg < s.packages → (s.ctlGet (pkg * 4) 0x748).getLsbD 7 = true →
    s.ctlField (pkg * 4) 0x748 5 3 = 0 → s.ctlField (pkg * 4) 0x758 39 33 = 0 →
    (∀ c ∈ s.contexts, c.reg.cls = 0 ∧ c.power.lease = none) →
    min (s.ctlField (pkg * 4) 0x740 31 16) (min (s.ctlField (pkg * 4) 0x740 15 0) (s.ctlField (pkg * 4) 0x760 15 0)) <
      (s.sampleDemands pkg).estimate pkg →
    ∃ t, exec (.staleCeilingTick pkg) s = .next t ∧
      t.ctlGet (pkg * 4) 0x758 = setBits (s.ctlGet (pkg * 4) 0x758) 30 30 1 ∧ t.contexts = s.contexts ∧ t.mem = s.mem

/-- R373, R377: 50 µs after HWPWR above CEIL, the set points fall once more and every lease of the package ends; below 95 %
of CEIL they rise, and what SAFE lowered rises once SAFE is clear. That the step ends every lease, and that what SAFE
lowered rises one step at a time, is the model's reading (log 80). -/
def Claim.SetPoints : Prop :=
  ∀ (s : State) (pkg : Nat), Distinct s → pkg < s.packages →
    let die := pkg * 4
    let p := s.pkg pkg
    let pwr := s.ctlGet die 0x758
    let watts := (pwr.extractLsb' 0 16).toNat
    let ceil := s.ctlField die 0x748 31 16
    let back := if pwr.getLsbD 31 then p.safeLowered else p.safeLowered - 1
    (pwr.getLsbD 30 = true → ceil < watts → 50000 ≤ s.elapsed p.halfAt →
      ∃ t, exec (.setPointStep pkg) s = .next t ∧ t.pkg pkg = { p with lowered := p.lowered + 1, safeLowered := back } ∧
        Unleased t pkg) ∧
    (watts * 100 < 95 * ceil → ∃ t t1, exec (.setPointStep pkg) s = .next t ∧
      OnlyPkg s t1 pkg { p with lowered := p.lowered - 1, safeLowered := back } ∧ Eased t1 t pkg) ∧
    (95 * ceil ≤ watts * 100 → watts ≤ ceil → ∃ t, exec (.setPointStep pkg) s = .next t ∧
      OnlyPkg s t pkg { p with safeLowered := back })

/-- R377: an input above SAFELIM sets SAFE and counts; still above it 10 µs later, the set points fall; 1 ms below 95 % of
the limit clears SAFE. PKGW takes what is measured. -/
def Claim.SafetyThrottle : Prop :=
  ∀ (s : State) (pkg : Nat) (watts : BitVec 16), pkg < s.packages →
    let p := s.pkg pkg
    let w := s.ctlGet (pkg * 4) 0x758
    let limit := s.ctlField (pkg * 4) 0x760 15 0
    let below : Option Nat := if watts.toNat * 100 < 95 * limit then some (p.safeBelow.getD s.now) else none
    (limit < watts.toNat → ∃ t t1, exec (.safetyLimit ⟨pkg, watts⟩) s = .next t ∧ OnlyCtl s t1 (pkg * 4) 0x758
        (setBits (setBits w 31 31 1) 55 40 (min ((w.extractLsb' 40 16).toNat + 1) 0xFFFF)) ∧
      OnlyPkg t1 t pkg { p with safeAt := s.now, safeBelow := none }) ∧
    (watts.toNat ≤ limit → ∃ t, exec (.safetyLimit ⟨pkg, watts⟩) s = .next t ∧ OnlyPkg s t pkg { p with safeBelow := below }) ∧
    (w.getLsbD 31 = true → 10000 ≤ s.elapsed p.safeAt → limit < watts.toNat →
      ∃ t, exec (.safetySetPointStep ⟨pkg, watts⟩) s = .next t ∧
        OnlyPkg s t pkg { p with safeLowered := p.safeLowered + 1, safeBelow := none }) ∧
    (w.getLsbD 31 = false ∨ s.elapsed p.safeAt < 10000 ∨ watts.toNat ≤ limit →
      ∃ t, exec (.safetySetPointStep ⟨pkg, watts⟩) s = .next t ∧ OnlyPkg s t pkg { p with safeBelow := below }) ∧
    (∀ t0, p.safeBelow = some t0 → 1000000 ≤ s.elapsed t0 → ∃ t, exec (.safetyClear pkg) s = .next t ∧
      OnlyCtl s t (pkg * 4) 0x758 (setBits w 31 31 0)) ∧
    ((∀ t0, p.safeBelow = some t0 → s.elapsed t0 < 1000000) → exec (.safetyClear pkg) s = .next s) ∧
    (∃ t t1 t2, exec (.pkgwRefresh pkg watts) s = .next t ∧ OnlyCtl s t1 (pkg * 4) 0x758 (w.extractLsb' 16 48 ++ watts) ∧
      OnlyPkg t1 t2 pkg { p with safeBelow := below } ∧ Eased t2 t pkg)

/-- R375: a resident task of a shed class comes under the hold 2 ms after the shed, and not before. -/
def Claim.Holds : Prop :=
  ∀ (s : State) (uid b : Nat) (c : Context), s.ctx uid = some c → c.power.shedAt = some b → c.sched.place = .slot →
    s.classShed (pkgOf c.id.core) c.reg.cls = true →
    (b + 2000000 ≤ s.tstamp → ∃ t t1, exec (.shedHold uid) s = .next t ∧
      OnlyContext s t1 uid (fun c => { c with power := { c.power with hold := true } }) ∧
      Eased t1 t (pkgOf c.id.core)) ∧
    (s.tstamp < b + 2000000 → exec (.shedHold uid) s = .next s)

/-- R380, R382: a lease that has expired ends: its units leave the string's budget, whose LEVEL is then the highest of the
leases that remain. -/
def Claim.LeaseEnds : Prop :=
  ∀ (s : State) (uid : Nat) (c : Context) (l : Lease), s.ctx uid = some c → c.power.lease = some l →
    c.sched.place = .slot →
    let die := l.string / 8
    let off := 0x780 + 8 * (l.string % 8)
    (s.tstamp < l.expiry → exec (.leaseExpiry uid) s = .next s) ∧
    (l.expiry ≤ s.tstamp → ∃ t t1 top, exec (.leaseExpiry uid) s = .next t ∧
      OnlyContext s t1 uid (fun c => { c with power := { c.power with lease := none } }) ∧
      OnlyCtl t1 t die off (setBits (setBits (s.ctlGet die off) 15 8 (s.ctlField die off 15 8 - l.level)) 23 16 top) ∧
      (∀ d ∈ t.contexts, ∀ k, d.live = true → d.power.lease = some k → k.string = l.string → k.level ≤ top) ∧
      (top = 0 ∨ ∃ d ∈ t.contexts, ∃ k, d.live = true ∧ d.power.lease = some k ∧ k.string = l.string ∧ k.level = top))

/-- R387, R388: an interim energy record of a task, 100 ms after the die's last one, for which the ring of the die has room
and none waits: the launch's object, the token, the kind, what has been charged since that record, and the time. -/
def Claim.EnergyRecords : Prop :=
  ∀ (s : State) (die token : Nat) (a : Account),
    s.accounts.find? (fun b => b.token = token ∧ b.ended = none ∧ 100000000 ≤ s.elapsed (b.since die)) = some a →
    (s.die die).energyWait = [] → RingRoom s die 0x0A0 →
    ∃ t, exec (.energyRecordPost die token 1) s = .next t ∧ (∀ d, t.die d = s.die d) ∧
      t.accounts = s.accounts.map (fun b => if b = a then { b with records := tabPut b.records die s.now } else b) ∧
      Posts s { t with dies := s.dies, accounts := s.accounts } die 0x098 0x0A0 1 (toBytes 8 a.lobj.toNat ++
        toBytes 4 token ++ [1, 0, 0, 0] ++ toBytes 8 (charged die token (a.since die) s.now) ++ toBytes 8 s.tstamp)

/-- R368 to R388: the tide, the ceiling, the safety throttle, leases that expire, and energy records. -/
def Obligations.PowerSteps : Prop :=
  Claim.BadFrames ∧ Claim.GoodFrames ∧ Claim.StaleFrames ∧ Claim.HalfWidth ∧ Claim.SetPoints ∧ Claim.SafetyThrottle ∧
    Claim.Holds ∧ Claim.LeaseEnds ∧ Claim.EnergyRecords

/-- R9: package reset puts every register to its reset value, and TSTAMP and CYC count from it. Memory and its poison are
the model's choice (log 28). -/
def Claim.Resets : Prop :=
  ∀ (s : State), ∃ t, exec .packageReset s = .next t ∧ t.mem = s.mem ∧ t.poison = s.poison ∧ t.tstamp = 0 ∧
    (∀ cl, t.cyc cl = 0) ∧
    { t with
      mem := [], poison := [], history := [], now := 0, resetAt := 0, freeAt := 0, turns := [], nextUid := 4096
      nextGen := 0 } = State.reset

/-- R25, R347, R364, R394, R395: an image whose signatures do not verify leaves the package as it is, and Atelier has
failed. One that is signed starts every supervisor of the package at its entry point with its ranges and cause 0, gives
every core its dispatch ranges, sets the routes from the package (R393), lays the capability list into memory, and is
measured. -/
def Claim.Boots : Prop :=
  ∀ (s : State) (pkg : Nat) (image : BootImage), pkg < 8 → (s.atel pkg).booted = false →
    let a := s.atel pkg
    let signed : Prop := ∀ v ∈ [image.atelier, image.config, image.identity], v.rsa = true ∧ v.slh = true
    (¬signed → ∃ t, exec (.atelierBoot pkg image) s = .next t ∧
      OnlyAtelier s t pkg { a with failed := true }) ∧
    (signed → ∃ t, exec (.atelierBoot pkg image) s = .next t ∧
      t.atel pkg = { a with booted := true, failed := false, entry := image.entry, measurements :=
        [Config.sha384 Config.maskRom, Config.sha384 image.firmware, Config.sha384 image.bytes,
          Config.sha384 (Config.energyTable image.bytes)] } ∧
      tabGet 0 t.capbase pkg = image.capbase ∧ t.capsOf pkg = capabilityList t.packages ∧
      t.bytesAt (tabGet 0 t.capAt pkg) 320 = capabilityBytes 0 (t.capsOf pkg) ∧
      (∀ r, r ∈ t.routes ↔ (r ∈ s.routes ∧ r.1 ≠ pkg) ∨ ∃ q ∈ image.routes, r = (pkg, q.1, q.2)) ∧
      ∀ k, pkgOf k = pkg →
        (∀ i : Fin 8, (t.core k).ranges[i] = rangeImage (((tabGet [] image.dispatchRanges k)[i.val]?).getD 0)) ∧
        ∃ c ∈ t.contexts, c.id.core = k ∧ c.id.slot = 7 ∧ c.id.sup = true ∧ c.reg.pc = image.entry ∧ c.reg.ecause = 0 ∧
          c.sched.stopped = false ∧ ∀ i : Fin 8, c.reg.amap[i] = rangeImage (((tabGet [] image.supervisorRanges k)[i.val]?).getD 0))

/-- R9, R25, R347, R394: reset and boot of a package. -/
def Obligations.PackageSteps : Prop := Claim.Resets ∧ Claim.Boots

/-- R395: a package that has booted answers each request of SPDM: the request and the answer join the transcript, which
GET_VERSION begins anew, and a challenge, once algorithms are agreed, is answered with both signatures over it. What the
answers hold beside is a free value (log 27). -/
def Obligations.Attestation : Prop :=
  ∀ (s : State) (r : SpdmRequest), (s.atel r.pkg).booted = true →
    let a := s.atel r.pkg
    let tr := a.transcript ++ r.bytes
    let b (k : Nat) : List Byte := Config.spdmBody k tr a.measurements
    let plain (k : Nat) : Atelier := { a with transcript := tr ++ b k, responses := a.responses ++ [b k] }
    let signed (k : Nat) : Atelier := { a with
      transcript := tr ++ b k
      responses := a.responses ++ [b k ++ Config.spdmSign false (tr ++ b k), Config.spdmSign true (tr ++ b k)] }
    let first := Config.spdmBody 0 r.bytes a.measurements
    (∃ t, exec (.getVersion r) s = .next t ∧ OnlyAtelier s t r.pkg { a with
      transcript := r.bytes ++ first, responses := a.responses ++ [first]
      version := true, capabilities := false, algorithms := false }) ∧
    (∃ t, exec (.getCapabilities r) s = .next t ∧ OnlyAtelier s t r.pkg { plain 1 with capabilities := a.version }) ∧
    (∃ t, exec (.negotiateAlgorithms r) s = .next t ∧
      OnlyAtelier s t r.pkg { plain 2 with algorithms := a.capabilities }) ∧
    (∃ t, exec (.getDigests r) s = .next t ∧ OnlyAtelier s t r.pkg (plain 3)) ∧
    (∃ t, exec (.getCertificate r) s = .next t ∧ OnlyAtelier s t r.pkg (plain 4)) ∧
    (∃ t, exec (.challenge r) s = .next t ∧
      OnlyAtelier s t r.pkg (if a.algorithms then signed 5 else plain 5)) ∧
    (∃ t, exec (.getMeasurements r) s = .next t ∧ OnlyAtelier s t r.pkg
      (if a.algorithms ∧ ((r.bytes[2]?).getD 0).getLsbD 0 then signed 6 else plain 6))

/-- R180 to R182, R190: a walk for a write to a writable leaf whose D is clear sets D; one for a read, or to an absent
entry, changes nothing. -/
def Claim.Walks : Prop :=
  ∀ (s : State) (ia loc e log : Nat), s.whereIs ia = .pageable →
    (s.walk ia = .leaf loc e log → entryBit e 4 = true → entryBit e 6 = false → entryBit e 7 = false →
      ∃ t, exec (.pageWalk ia .write) s = .next t ∧ Wrote s t loc (toBytes 8 (e + 2 ^ 7))) ∧
    (s.walk ia = .leaf loc e log → exec (.pageWalk ia .read) s = .next s) ∧
    (∀ k lv, s.walk ia = .absent lv → exec (.pageWalk ia k) s = .next s)

/-- R188: the oldest fault record that waits at a die goes into the fault ring once it has room. -/
def Claim.FaultRecords : Prop :=
  ∀ (s : State) (die : Nat) (r : FaultRec) (rest : List FaultRec), (s.die die).faultWait = r :: rest →
    (¬RingRoom s die 0x028 → exec (.faultRecordPost die) s = .next s) ∧
    (RingRoom s die 0x028 → ∃ t, exec (.faultRecordPost die) s = .next t ∧
      Posts s { t with dies := s.dies, agenda := s.agenda } die 0x020 0x028 2
        (toBytes 8 r.va.toNat ++ toBytes 8 r.ia ++ toBytes 4 r.token ++ toBytes 1 r.kind ++ toBytes 1 r.level ++
          [0, 0] ++ toBytes 8 r.time) ∧
      t.die die = { s.die die with faultWait := rest } ∧ (∀ d, d ≠ die → t.die d = s.die d) ∧
      t.agenda = s.agenda ++ (if rest = [] then [] else [.faultRecord die]))

/-- R184, R188: PGREADY makes the contexts saved on a fault in the page ready, and lets what else waits for it go on;
PGFAIL lets them meet PAGE_UNRECOVERABLE, and drops late accesses to the page, each a late failure of its context. -/
def Claim.PagesReady : Prop :=
  ∀ (s : State) (page : Nat), Distinct s →
    (∃ t, exec (.pgready page) s = .next t ∧ t.mem = s.mem ∧
      (∀ c ∈ s.contexts, c.live = true → ∃ d ∈ t.contexts, d.id = c.id ∧ d.reg = c.reg ∧
        (∀ ia va, c.sched.place = .frame (.fault page ia va) → d.sched = { c.sched with place := .frame .preempted }) ∧
        ((∀ ia va, c.sched.place ≠ .frame (.fault page ia va)) → d.sched = c.sched) ∧
        d.io = { c.io with
          posted := c.io.posted.map (fun p => if p.held ∧ s.postedPage p = some page then { p with held := false } else p)
          reds := c.io.reds.map (fun r => if r.held ∧ r.ia / 2 ^ 15 = page then { r with held := false } else r)
          drains := c.io.drains.map (fun k => if k.held ∧ firstIa k.left / 2 ^ 15 = page ∧ k.left ≠ []
            then { k with held := false } else k) }) ∧
      t.ferry = s.ferry.map (fun f => if f.page = some (page, false) then { f with page := none } else f)) ∧
    (∃ t, exec (.pgfail page) s = .next t ∧
      ∀ c ∈ s.contexts, c.live = true → ∃ d ∈ t.contexts, d.id = c.id ∧ d.reg = c.reg ∧
        (∀ ia va, c.sched.place = .frame (.fault page ia va) → d.sched = { c.sched with place := .frame (.failed va) }) ∧
        ((∀ ia va, c.sched.place ≠ .frame (.fault page ia va)) → d.sched = c.sched) ∧
        let posted := c.io.posted.filter (fun p => p.held ∧ s.postedPage p = some page)
        let reds := c.io.reds.filter (fun r => r.held ∧ r.ia / 2 ^ 15 = page)
        let drains := c.io.drains.filter (fun k => k.held ∧ firstIa k.left / 2 ^ 15 = page ∧ k.left ≠ [])
        let late (k : LateKind) (ia : Nat) : Late := ⟨k, 0x06, BitVec.ofNat 64 ia⟩
        d.io.posted = c.io.posted.filter (fun p => p ∉ posted) ∧ d.io.reds = c.io.reds.filter (fun r => r ∉ reds) ∧
        d.io.drains = c.io.drains.filter (fun k => k ∉ drains) ∧
        d.io.late = c.io.late ++ posted.map (fun p => late (.posted p.kind) (s.postedIa p)) ++
          reds.map (fun r => late .reduction r.ia) ++ drains.map (fun k => late k.late (firstIa k.left)))

/-- R186: the break of a copy-on-write page that nothing else shares clears C and sets D in place. One that is shared is
copied to the die's reserve frame, to which the entry then points; the count of the old frame falls by one, that of the
new one is 1. Either is counted. Where the CAS on the entry fails, the copy stays in the reserve frame, and neither the
entry nor a count changes. -/
def Claim.Breaks : Prop :=
  ∀ (s : State) (ia loc e : Nat), s.whereIs ia = .pageable → s.walk ia = .leaf loc e 15 → entryBit e 4 = true →
    entryBit e 6 = true →
    let pkg := ia / 2 ^ 53
    let die := homeDie ia
    let page := pkg * 2 ^ 53 + entryAddr e
    let desc := s.descLoc pkg (entryAddr e)
    let flags := e - 2 ^ 6 + (if entryBit e 7 then 0 else 2 ^ 7)
    (s.numAt desc 4 ≤ 1 → exec (.cowBreak ⟨ia, true⟩) s = .next s) ∧
    (∀ f, 2 ≤ s.numAt desc 4 → (s.die die).reserve = some f → ∃ t, exec (.cowBreak ⟨ia, true⟩) s = .next t ∧
      { t.withNotes s with mem := s.mem, poison := s.poison, dies := s.dies } = s ∧ (∀ d, t.die d = s.die d) ∧
      Stored s t (pkg * 2 ^ 53 + f) (s.bytesAt page (2 ^ 15))) ∧
    (s.numAt desc 4 = 1 → ∃ t t1 t2, exec (.cowBreak ⟨ia, false⟩) s = .next t ∧ Wrote s t1 loc (toBytes 8 flags) ∧
      OnlyCtl t1 t2 die 0x060 (((s.ctlGet die 0x060).extractLsb' 32 32 + 1) ++ (s.ctlGet die 0x060).extractLsb' 0 32) ∧
      { t with clusters := t2.clusters } = t2 ∧
      ∀ k, t.cluster k = if k / 32 = die then (s.cluster k).counted 27 else s.cluster k) ∧
    (∀ f, 2 ≤ s.numAt desc 4 → (s.die die).reserve = some f → f % 2 ^ 15 = 0 → f < 2 ^ 52 →
      let fd := s.descLoc pkg f
      let new := pkg * 2 ^ 53 + f
      Apart new (2 ^ 15) loc 8 → Apart new (2 ^ 15) desc 16 → Apart new (2 ^ 15) fd 16 → Apart desc 16 fd 16 →
      Apart desc 16 loc 8 → Apart fd 16 loc 8 → Apart new (2 ^ 15) page (2 ^ 15) →
      ∃ t, exec (.cowBreak ⟨ia, false⟩) s = .next t ∧ t.bytesAt new (2 ^ 15) = s.bytesAt page (2 ^ 15) ∧
        t.numAt loc 8 = e % 2 ^ 8 - 2 ^ 6 + (if entryBit e 7 then 0 else 2 ^ 7) + f + e / 2 ^ 52 * 2 ^ 52 ∧
        t.numAt desc 4 = s.numAt desc 4 - 1 ∧ t.numAt fd 4 = 1 ∧ (t.die die).reserve = none ∧
        ∀ a, (a < new ∨ new + 2 ^ 15 ≤ a) → (a < loc ∨ loc + 8 ≤ a) → (a < desc ∨ desc + 4 ≤ a) →
          (a < fd ∨ fd + 6 ≤ a) → cellGet t.mem a = cellGet s.mem a)

/-- R187: no epoch ends before EPOCH.US microseconds have passed on a die. One that ends in a package without translation
changes nothing but its time; with translation, when it ends on the four dies, every frame's COUNT is 0 after it, and with
no migration ring set up only frame descriptors change in memory. -/
def Claim.Epochs : Prop :=
  ∀ (s : State) (pkg : Nat) (up down : List Nat),
    let root := s.ctlGet (pkg * 4) 0x000
    let ended (d : Nat) : Prop := s.ctlField d 0x040 31 0 * 1000 ≤ s.elapsed (max (s.die d).epochAt s.resetAt)
    ((∀ d, d / 4 = pkg → ¬ended d) → exec (.epochEnd pkg up down) s = .next s) ∧
    (root.getLsbD 0 = false → ∃ t, exec (.epochEnd pkg up down) s = .next t ∧ { t with dies := s.dies } = s ∧
      ∀ d, (d / 4 = pkg ∧ ended d → t.die d = { s.die d with epochAt := s.now }) ∧
        (¬(d / 4 = pkg ∧ ended d) → t.die d = s.die d)) ∧
    (root.getLsbD 0 = true → (∀ d, d / 4 = pkg → ended d) → (∀ ia ∈ up ++ down, ia / 2 ^ 53 = pkg) →
      (∀ d, s.ctlField d 0x038 63 48 = 0) → ∃ t, exec (.epochEnd pkg up down) s = .next t ∧
      (∀ f, f < 0x1200000 + 2 ^ 30 → t.numAt (s.descLoc pkg 0 + 16 * f + 4) 2 = 0) ∧
      (∀ a, (∀ f, f < 0x1200000 + 2 ^ 30 → a < s.descLoc pkg 0 + 16 * f + 4 ∨ s.descLoc pkg 0 + 16 * f + 7 ≤ a) →
        cellGet t.mem a = cellGet s.mem a) ∧
      t.contexts = s.contexts)

/-- R179, R390: a merge of directory regions is counted in the clusters of the home die. -/
def Claim.Merges : Prop :=
  ∀ (s : State) (ia log : Nat),
    ∃ t, exec (.regionMerge ia log) s = .next t ∧ { t with clusters := s.clusters } = s ∧
      ∀ k, t.cluster k = if k / 32 = homeDie (ia / 2 ^ log * 2 ^ log) then (s.cluster k).counted 31 else s.cluster k

/-- R179 to R190: the steps of the memory side. -/
def Obligations.PageSteps : Prop :=
  Claim.Walks ∧ Claim.FaultRecords ∧ Claim.PagesReady ∧ Claim.Breaks ∧ Claim.Epochs ∧ Claim.Merges

/-- R199, R201: the acknowledgement of a context's oldest posted store performs it: its bytes stand at its location, and
the store is no longer pending. A submission is accepted by the ferry. A store to a register of a control block that waited
for what stands before it writes the bits that software writes (R184, R192, R194). What is left is due again. -/
def Claim.PostedAcks : Prop :=
  ∀ (s : State) (uid : Nat) (c : Context) (p : Posted) (rest : List Posted), Distinct s → s.ctx uid = some c →
    c.sched.place = .slot → c.io.posted = p :: rest → p.held = false → p ∉ rest → c.oldest p.born →
    let gone (c : Context) : Context := { c with io := { c.io with posted := rest } }
    let left (more : List Duty) : Prop := (∃ q ∈ rest, q.held = false) → .postedAck uid ∈ more
    (∀ ia loc bs, PostedAt s p ia bs → Performs s c .write ia loc bs.length →
      ∃ t t1 more, exec (.postedStoreAck uid) s = .next t ∧ Wrote s t1 loc bs ∧
        OnlyContext t1 { t with agenda := s.agenda } uid gone ∧ Due s t more ∧ left more) ∧
    (∀ l1 f l2, p.kind = .f → p.parts = [] → s.ferry = l1 ++ f :: l2 → (∀ g ∈ l1, g.uid = uid → g.accepted = true) →
      f.uid = uid → f.accepted = false → ∃ t more, exec (.postedStoreAck uid) s = .next t ∧
        OnlyContext s { t with agenda := s.agenda, ferry := s.ferry } uid gone ∧ Due s t more ∧ left more ∧
        t.ferry = l1 ++ { f with accepted := true } :: l2) ∧
    (∀ ia bs die reg, p.kind = .w → p.parts = [(ia, bs)] → bs.length = 8 → c.oldest p.born →
      s.whereIs ia = .control die reg → PlainRegister reg → reg ≠ 0x078 → (reg = 0x0A0 → (s.die die).energyWait = []) →
      ∃ t, exec (.postedStoreAck uid) s = .next t ∧ t.ctx uid = some (gone c) ∧ ∀ k, k < 64 →
        (t.ctlGet die reg).getLsbD k = if ∃ q ∈ softwareBits reg, q.2 ≤ k ∧ k ≤ q.1
          then (BitVec.ofNat 64 (fromBytes bs)).getLsbD k else (s.ctlGet die reg).getLsbD k)

/-- R206, R212, R215: a reduction is performed at its atomic unit: the location holds its result, its flags are deferred,
and its acknowledgement follows, which takes it out of the pending ones. -/
def Claim.Reductions : Prop :=
  ∀ (s : State) (uid : Nat) (c : Context), Distinct s → s.ctx uid = some c → c.sched.place = .slot →
    (∀ (r : Red) (rest : List Red) (loc : Nat), c.io.reds = r :: rest → r.performed = false → r.held = false → r ∉ rest →
      c.oldest r.born → Performs s c .atomic r.ia loc r.size → s.poisonAt loc r.size = false →
      let v := amoOp r.fn r.size (fromBytes (s.bytesAt loc r.size)) r.b.toNat 0
      ∃ t t1, exec (.reductionPerform uid) s = .next t ∧ Wrote s t1 loc (toBytes r.size v.1) ∧
        OnlyContext t1 { t with agenda := s.agenda } uid (fun c => { c with io := { c.io with
          reds := { r with performed := true } :: rest, deferred := c.io.deferred ||| v.2 } }) ∧
        t.agenda = s.agenda ++ [.redAck uid] ++
          (if rest.any (fun q => !q.performed && !q.held) then [.redPerform uid] else [])) ∧
    (∀ (l1 l2 : List Red) (r : Red), c.io.reds = l1 ++ r :: l2 → (∀ q ∈ l1, q.performed = false) → r.performed = true →
      ∃ t, exec (.reductionAck uid) s = .next t ∧
        OnlyContext s t uid (fun c => { c with io := { c.io with reds := l1 ++ l2 } }))

/-- R227, R304: a retired tile store that has one row left to write drains it and frees its cells. A forced publish of a
context whose release a line notes performs what the context has in flight, is counted, and the line forgets it. -/
def Claim.Drains : Prop :=
  ∀ (s : State) (uid : Nat) (c : Context), Distinct s → s.ctx uid = some c → c.sched.place = .slot →
    (∀ (d : Drain) (rest : List Drain) (ia loc : Nat) (bs : List Byte), c.io.drains = d :: rest → d.held = false →
      d ∉ rest → d.region = false → d.left = [(ia, bs)] → (∀ q ∈ d.cells, Untraced s (q.1 / 4)) → c.oldest d.born →
      Performs s c .write ia loc bs.length → ∃ t t1 more, exec (.tileStoreDrain uid) s = .next t ∧ Wrote s t1 loc bs ∧
        OnlyContext t1 { t with agenda := s.agenda } uid (fun c => { c with io := { c.io with drains := rest } }) ∧
        Due s t more ∧ ((∃ q ∈ rest, q.held = false) → .tileDrain uid ∈ more)) ∧
    (∀ (p : Posted) (ia loc : Nat) (bs : List Byte) (r : Narrow), c.io.posted = [p] → c.io.reds = [] → c.io.drains = [] →
      p.held = false → p.gate.scope = none → PostedAt s p ia bs → Performs s c .write ia loc bs.length →
      s.narrow = [r] → r.uid = uid → r.scope ≤ 3 →
      ∃ t t1 t2, exec (.forcedPublish uid) s = .next t ∧ Wrote s t1 loc bs ∧
        OnlyContext t1 t2 uid (fun c => { c with io := { c.io with posted := [] } }) ∧
        OnlyCluster t2 { t with agenda := s.agenda, narrow := s.narrow } (r.core / 4)
          ((s.cluster (r.core / 4)).counted 10) ∧ t.narrow = [])

/-- R199 to R227: accesses in flight of a context in a slot are performed and acknowledged. -/
def Obligations.FlightSteps : Prop := Claim.PostedAcks ∧ Claim.Reductions ∧ Claim.Drains

/-- R223, R225: the report of the command that an easel executes; the oldest that waits there starts. A squashed command
stops, and its cells are free. -/
def Claim.EaselReports : Prop :=
  ∀ (s : State) (cl : Nat) (k : EngineCmd) (l1 l2 : List EngineCmd), Untraced s cl → k.easel < 4 →
    (s.cluster cl).cmds = l1 ++ k :: l2 → k.state = .executing → (∀ q ∈ l1, q.easel ≠ k.easel) →
    let done (f : EngineCmd) : EngineCmd := { f with state := .complete }
    let easel := cl * 4 + k.easel
    (k.squashed = false → k.fault = none → (∀ q ∈ l2, q.easel ≠ k.easel) →
      ∃ t, exec (.easelCommandComplete easel k.tag) s = .next t ∧
        OnlyCluster s t cl { s.cluster cl with cmds := l1 ++ done k :: l2 }) ∧
    (∀ m1 q m2, k.squashed = false → k.fault = none → l2 = m1 ++ q :: m2 → (∀ x ∈ m1, x.easel ≠ k.easel) →
      q.easel = k.easel → q.state = .received → (∀ x ∈ m2, x.easel = k.easel → x.state = .received ∧ x ≠ q) →
      ∃ t, exec (.easelCommandComplete easel k.tag) s = .next t ∧
        OnlyCluster s { t with agenda := s.agenda } cl { s.cluster cl with
          cmds := l1 ++ done k :: m1 ++ { q with state := .executing } :: m2 } ∧
        t.agenda = s.agenda ++ [.easelComplete easel q.tag]) ∧
    (k.squashed = true → (∀ q ∈ l2, q.easel ≠ k.easel) → ∃ t, exec (.easelDiscard easel k.tag) s = .next t ∧
      OnlyCluster s t cl { (s.cluster cl).counted 4 with cmds := l1 ++ l2 })

/-- R221, R225, R293: a squash that reaches its easel takes the commands of its slot at or younger than its entry: one that
waits is gone at once, one that executes is marked, and its easel discards it. A reservation squash of a context that waits
for cells is sent to the easel whose command holds some. -/
def Claim.Squashes : Prop :=
  ∀ (s : State) (cl : Nat) (k : EngineCmd) (l1 l2 : List EngineCmd), Untraced s cl →
    (s.cluster cl).cmds = l1 ++ k :: l2 → k.squashed = false → k.easel < 4 →
    let c0 := s.cluster cl
    let mark : EngineCmd := { k with squashed := true }
    (∀ q : Squash, c0.squashes = [q] → q.hits k = true → (∀ x ∈ l1 ++ l2, q.hits x = false ∧ x.easel ≠ k.easel) → q.age < 512 →
      (k.state ≠ .executing → ∃ t, exec (.easelSquash (cl * 4 + k.easel) q.core q.slot (q.age % 256) (q.age / 256)) s =
        .next t ∧ OnlyCluster s t cl { c0.counted 4 with cmds := l1 ++ l2, squashes := [] }) ∧
      (k.state = .executing → ∃ t, exec (.easelSquash (cl * 4 + k.easel) q.core q.slot (q.age % 256) (q.age / 256)) s =
        .next t ∧ OnlyCluster s { t with agenda := s.agenda } cl { c0 with cmds := l1 ++ mark :: l2, squashes := [] } ∧
        t.agenda = s.agenda ++ [.easelDiscard (cl * 4 + k.easel) k.tag])) ∧
    (∀ c rob, tabSorted s.clusters = true → s.ctx k.uid = some c → s.commandsOf k.uid = [(cl, k)] → k.cells ≠ [] →
      c.sync.wait = .cells → c0.squashes = [] → rob < 512 → tagAge k.tag = rob →
      ∃ t, exec (.reservationSquash k.uid rob) s = .next t ∧
        OnlyCluster s { t with agenda := s.agenda } cl { c0.counted 5 with
          squashes := [⟨k.uid, k.easel, k.tag / 2 ^ 12, k.tag / 2 ^ 9 % 8, rob⟩] } ∧
        t.agenda = s.agenda ++
          [.easelSquash (cl * 4 + k.easel) (k.tag / 2 ^ 12) (k.tag / 2 ^ 9 % 8) (rob % 256) (rob / 256)])

/-- R231, R262, R263: a delivery gives a subscriber the next slot that it has not received, when that slot is READY or
DRAINING and its window has room, with a copy of its bytes for an easel; otherwise nothing changes. The first claim in a ring's line is served when the ring is
not full. -/
def Claim.RingTables : Prop :=
  ∀ (s : State) (cl idx : Nat) (r : Ring), s.ring cl idx = some r →
    (∀ k u, r.subs[k]? = some u → r.subs.length = r.nsub → u.closed = false →
      (u.delivered - r.head).toNat < (r.claim - r.head).toNat →
      ((r.slots[u.delivered.toNat % r.nslot]?).map (fun v => v.st) = some .ready ∨
        (r.slots[u.delivered.toNat % r.nslot]?).map (fun v => v.st) = some .draining) →
      let loc := State.slotLoc cl r u.delivered
      ((u.delivered - u.popped).toNat < u.window → Untraced s cl →
        ∃ t r1, exec (.ringDelivery cl idx k) s = .next t ∧ t.ring cl idx = some r1 ∧ r1.claim = r.claim ∧
          r1.subs = r.subs.set k { u with
            delivered := u.delivered + 1
            staged := if u.easel.isSome then u.staged ++ [⟨u.delivered, s.now, s.bytesAt loc r.slotBytes, s.poison.filter
              (fun b => loc ≤ b ∧ b < loc + r.slotBytes)⟩] else u.staged } ∧
          { t with clusters := s.clusters } = s) ∧
      (u.window ≤ (u.delivered - u.popped).toNat → exec (.ringDelivery cl idx k) s = .next s)) ∧
    (r.nslot ≤ (r.claim - r.head).toNat → exec (.ringClaimGrant cl idx) s = .next s) ∧
    (∀ uid p rest c, (r.claim - r.head).toNat < r.nslot → r.waiting = .handle uid p :: rest →
      .handle uid p ∉ rest → s.ctx uid = some c → c.sync.wait = .ring idx (.claim p) → c.sync.grant = none →
      ∃ t t1, exec (.ringClaimGrant cl idx) s = .next t ∧
        OnlyContext t1 t uid (fun c => { c with sync := { c.sync with grant := some (slotWord r r.claim) } }) ∧
        { t1 with clusters := s.clusters } = s ∧ (∀ j, j ≠ cl → t1.cluster j = s.cluster j) ∧
        t.ring cl idx = some { r with
          claim := r.claim + 1, waiting := rest
          slots := r.slots.set (r.claim.toNat % r.nslot) ⟨.filling, some (.handle uid p)⟩ })

/-- R217 to R231, R263: the steps of the easels and of the tile tables. -/
def Obligations.EaselSteps : Prop := Claim.EaselReports ∧ Claim.Squashes ∧ Claim.RingTables

/-- R330, R363: a region whose context has been off-core for more than 100 µs aborts with code 6, and not before. -/
def Claim.Preempts : Prop :=
  ∀ (s : State) (uid : Nat) (c : Context) (r : Region) (why : Saved), Distinct s → s.ctx uid = some c →
    c.sync.region = some r → c.sched.place = .frame why →
    (100000 < s.elapsed c.sched.savedAt → ∃ t d, exec (.glazePreemptExpiry uid) s = .next t ∧ t.ctx uid = some d ∧
      d.sync.region = none ∧ d.sync.monitors = r.ckpt.monitors ∧ d.reg = r.aborted c.reg 6) ∧
    (s.elapsed c.sched.savedAt ≤ 100000 → exec (.glazePreemptExpiry uid) s = .next s)

/-- R328: an access of a region that waited for an edge goes on. -/
def Claim.Releases : Prop :=
  ∀ (s : State) (uid : Nat) (c : Context) (r : Region), Distinct s → s.ctx uid = some c → c.sync.region = some r →
    r.ending = false → c.sync.wait = .edge →
    ∃ t, exec (.pendingEdgeRelease uid) s = .next t ∧
      OnlyContext s t uid (fun c => { c with sync := { c.sync with wait := .none } })

/-- R332, R334, R336: a region at its GZEND that no predecessor holds commits: the write that it holds is performed, the
region is gone, x[D] is 0, and the context goes on behind the GZEND. Where a held store waits for POSTF, that counter is
zero. That GZSTAT.GRAN keeps the region's count after the commit is the model's reading (log 37). -/
def Claim.Commits : Prop :=
  ∀ (s : State) (uid : Nat) (c : Context) (r : Region) (d : XReg) (ia loc : Nat) (bs : List Byte), Distinct s →
    s.ctx uid = some c → c.sync.region = some r → c.sched.place = .slot → c.sched.parked = false → c.sched.ending = none →
    decodeParcels (c.bits.toNat % 2 ^ 32) (c.bits.toNat / 2 ^ 32) = .ok (.gzend d) →
    r.ending = true → r.edges = [] → r.log = [.write ia loc bs] → c.io.late = [] →
    (r.postf = true → c.io.counted .f = 0) → (∀ o ∈ s.objects, ¬(o.1 < ia + bs.length ∧ ia < o.1 + 64)) →
    ∃ t e, exec (.glazeCommit uid) s = .next t ∧ t.ctx uid = some e ∧ Stored s t loc bs ∧ e.sync.region = none ∧
      e.id.rob = c.id.rob + 1 ∧
      e.reg = ({ c.reg with
        fps := c.reg.fps ||| c.io.deferred.zeroExtend 64
        gzstat := BitVec.ofNat 64 (bitsOf c.reg.gzstat 63 56 * 2 ^ 56 +
          (r.die / 4 * 2 ^ 12 + r.die % 4 * 2 ^ 10 + r.entry) * 2 ^ 41 + r.granules.length % 2 ^ 12 * 2 ^ 20 +
          bitsOf c.reg.gzstat 17 17 * 2 ^ 17) }.put d 0).step 4

/-- R183, R317: the completion of an invalidation of a page gives GONE to the waiters of a live barrier in it and leaves it
no waiters; where nothing watched lies in the page, no region is live and no ferry has writes left, it changes nothing. -/
def Claim.Invalidations : Prop :=
  ∀ (s : State) (ia : Nat), s.whereIs ia = .pageable → (∀ c ∈ s.contexts, c.sync.region = none) →
    (∀ f ∈ s.ferry, f.tail = []) →
    let lo := ia / 2 ^ 15 * 2 ^ 15
    ((∀ o ∈ s.objects, o.1 < lo ∨ lo + 2 ^ 15 ≤ o.1) → exec (.tlbinvComplete ia 0) s = .next s) ∧
    (∀ bia loc, s.objects = [(bia, loc, .barrier)] → lo ≤ bia → bia < lo + 2 ^ 15 → s.numAt (loc + 0x0C) 1 = 1 →
      s.numAt loc 4 ≠ 0 → ∃ t, exec (.tlbinvComplete ia 0) s = .next t ∧ Stored s t (loc + 0x18) [0, 0, 0, 0] ∧
        t.contexts = s.contexts.map (fun c => if c.live ∧ c.sync.wait = .barrier bia ∧ c.sync.grant = none
          then { c with sync := { c.sync with grant := some 3 } } else c))

/-- R342 to R345: a trap of a user context outside any glaze parks it with ECAUSE, EPCX and EADDR written, and its record
stands last in the trap queue of its core, which was ready until then if the context waited for nothing (R171). -/
def Claim.Deliveries : Prop :=
  ∀ (s : State) (uid cause : Nat) (info : Word) (c : Context), s.ctx uid = some c → c.id.sup = false →
    c.sched.place = .slot → c.sched.parked = false → c.sched.stopped = false → c.sched.ending = none →
    c.sync.region = none → Unengaged s uid → (s.core c.id.core).dead = false → 1 ≤ cause → cause ≤ 0x14 →
    cause ≠ 0x0F → cause ≠ 0x12 → (c.reg.edepth = 1 → 3 ≤ cause) →
    let k := s.core c.id.core
    let ec := trapWord cause c.id.slot c.reg.edepth c.long
    ∃ t t1, exec (.deliverTrap uid cause info) s = .next t ∧
      OnlyContext s t1 uid (fun d => { d with
        reg := { d.reg with ecause := ec, epcx := c.reg.pc, eaddr := info, pc := c.reg.pc, edepth := c.reg.edepth }
        sched := { d.sched with parked := true }
        sync := { d.sync with wait := .none, grant := none } }) ∧
      OnlyCore t1 t c.id.core { k with
        traps := k.traps ++ [⟨uid, false, ec, c.reg.pc, info⟩]
        readyAt := if c.sync.wait = .none ∨ c.sync.grant.isSome = true then s.now else k.readyAt }

/-- R144, R278, R360: deadlines. A SPILL that has found no safe point for 1 ms saves its context; a CWAIT past its limit
whose object is unfinished is given 2, and an MRECV past its own is given 0. -/
def Claim.Deadlines : Prop :=
  ∀ (s : State) (uid : Nat) (c : Context), Distinct s → s.ctx uid = some c → c.sched.place = .slot →
    (∀ b s1, c.sched.toSafe = some b → 1000000 ≤ s.elapsed b → Savable s uid c .preempted s1 →
      ∃ t, exec (.safeSpillTimeout uid) s = .next t ∧ Departs s1 t uid (c.saved .preempted s.now)) ∧
    (∀ b, c.sched.toSafe = some b → s.elapsed b < 1000000 → exec (.safeSpillTimeout uid) s = .next s) ∧
    (∀ ia d a b, c.sync.wait = .object ia → c.sync.grant = none →
      decodeParcels (c.bits.toNat % 2 ^ 32) (c.bits.toNat / 2 ^ 32) = .ok (.cwait d a b) →
      let limit : Word := if b = 0 then 0 else c.reg.x[b]
      (limit ≠ 0 → limit.toNat ≤ s.tstamp → Unfinished s ia → ∃ t, exec (.cwaitTimeout uid) s = .next t ∧
        OnlyContext s t uid (fun c => { c with sync := { c.sync with grant := some 2 } })) ∧
      (limit = 0 ∨ s.tstamp < limit.toNat ∨ ¬Unfinished s ia → exec (.cwaitTimeout uid) s = .next s)) ∧
    (∀ d a b, c.sync.wait = .message → c.mail.inbox = [] → c.mail.frame = [] →
      decodeParcels (c.bits.toNat % 2 ^ 32) (c.bits.toNat / 2 ^ 32) = .ok (.mrecv d a b) →
      let limit : Word := if b = 0 then 0 else c.reg.x[b]
      (limit ≠ 0 → limit.toNat ≤ s.tstamp → ∃ t, exec (.mrecvTimeout uid) s = .next t ∧
        OnlyContext s t uid (fun c => { c with sync := { c.sync with grant := some 0 } })) ∧
      (limit = 0 ∨ s.tstamp < limit.toNat → exec (.mrecvTimeout uid) s = .next s))

/-- R349, R396: a supervisor that has met a double fault starts again at its entry point, with no record current and cause
0. That its other registers stay as they were is the model's reading (log 77). -/
def Claim.Restarts : Prop :=
  ∀ (s : State) (core : Nat), (s.core core).dead = true →
    ∃ t t1, exec (.supervisorRestart core) s = .next t ∧
      OnlyCore s t1 core { s.core core with dead := false, serving := none } ∧
      { t with cur := t1.cur, others := t1.others } = t1 ∧
      t.contexts = s.contexts.map (fun c => if c.id.sup ∧ c.id.core = core then { c with
        reg := { c.reg with pc := (s.atel (core / 512)).entry, ecause := 0 }
        sched := { c.sched with stopped := false }
        sync := { c.sync with wait := .none, grant := none } } else c)

/-- R183, R328 to R334, R342 to R349, R360, R396: what meets a context from outside its instructions. -/
def Obligations.InterruptSteps : Prop :=
  Claim.Preempts ∧ Claim.Releases ∧ Claim.Commits ∧ Claim.Invalidations ∧ Claim.Deliveries ∧ Claim.Deadlines ∧
    Claim.Restarts

/-- R26, R397: the loader's judgement of a code object. One with a wrong magic is refused with 0x20, its mark cleared.
One that passes every check is marked, with judgement 0; the core count that it is given is a multiple of its step and
within its bounds. -/
def Claim.Judgements : Prop :=
  ∀ (s s1 : State) (obj ncore : Nat), s.putIa 0 2 (obj + 0x60) [0, 0, 0, 0] = (none, s1) →
    (∀ head s2, s1.getIa 0 2 obj 128 = (.ok head, s2) → numIn head 0 4 ≠ 0x4B4F4C46 →
      ∃ t, exec (.loaderJudge obj ncore) s = .next t ∧ t.judged = 0x20 ∧ { t with judged := s2.judged } = s2) ∧
    (∀ o n s2 s3, loadObj obj s1 = .ok o s2 → s2.judge o ncore = .ok n → markJudged obj n o s2 = .ok () s3 →
      ∃ t, exec (.loaderJudge obj ncore) s = .next t ∧ t.judged = 0 ∧ { t with judged := s3.judged } = s3 ∧
        n % numIn o.head 0x58 2 = 0 ∧ numIn o.head 0x50 4 ≤ n ∧ n ≤ ncore ∧ 0 < n ∧
        (s.objects = [] → (∀ k, k < 4 → s.whereIs (obj + 0x60 + k) ≠ .pageable) →
          t.numAt (obj + 0x60) 4 = 0x4744554A)) ∧
    (∀ o w s2, loadObj obj s1 = .ok o s2 → s2.judge o ncore = .error w →
      ∃ t, exec (.loaderJudge obj ncore) s = .next t ∧ t.judged = BitVec.ofNat 32 w ∧
        { t with judged := s2.judged } = s2)

/-- R54, R61, R66, R274, R355: a launch that may dispatch is DISPATCHING from then on, whether or not a task of it finds a
core. The dispatch of its next task makes a context on the core that the rules choose, in a free slot, with a free
mailbox address, a frame and an extension, its registers those of R54; DISP is then DISPATCHED with the last one, and the
first dispatch writes TSTART. -/
def Claim.Dispatches : Prop :=
  ∀ (s : State) (lobj : Nat) (l : Launch), s.launchOf lobj = some l → s.launch l.num = some l → s.permitted l = true →
    s.missing l = none → (∀ ia ∈ l.lobjIa :: l.chain, s.objBusy ia = false) →
    (∀ loc, Seated s l.lobjIa loc [(loc, 64)] → s.numAt (loc + 0x0A) 1 = 0 →
      (s.openLaunch l).target l = none →
      ∃ t, exec (.taskDispatch lobj) s = .next t ∧ Wrote s t (loc + 0x0A) [1]) ∧
    (∀ (s0 s1 : State) (core slot cid frame ext : Nat) (set : Option Spread), s0 = s.openLaunch l → s0.mayDispatch l = true →
      l.coresident = false → s0.target l = some ([core], set) → s0.fitsNow l [core] = true →
      s0.outranked l [core] none = false → Vacant s0 l core slot cid frame ext s1 →
      ∃ t c, exec (.taskDispatch lobj) s = .next t ∧ Dispatched s t l core slot cid frame ext set c ∧
        (∀ loc, l.chain = [] → Seated s l.lobjIa loc [(loc, 64)] →
          t.numAt (loc + 0x0A) 1 = (if l.next + 1 = l.total then 2 else 1) ∧
          (s.numAt (loc + 0x28) 8 = 0 → t.numAt (loc + 0x28) 8 = s.tstamp % 2 ^ 64) ∧
          ∀ a, a < loc ∨ loc + 64 ≤ a → cellGet t.mem a = cellGet s.mem a))

/-- R58, R144, R384, R385: a node's ends go to its parent, and from the root to the launch's object: its count falls by
them, their words join its STATUS, and the end of the last task completes it and releases its waiters with the outcome.
NBAD of two joined words, counts of the tasks with a nonzero status, is the sum of theirs: that is the model's reading
(log 11, DEDUCED), for R384 and R385 speak of the words that children hand over. -/
def Claim.TreeForwards : Prop :=
  ∀ (s : State) (l : Launch) (n : Node) (pre post : List Node), s.launch n.launch = some l →
    (∀ k ∈ s.launches, k.lobjIa = l.lobjIa → k.num = l.num) → s.nodes = pre ++ n :: post →
    (∀ m ∈ pre ++ post, m.launch ≠ l.num) → n.node < 2 ^ 32 →
    (n.node ≠ 0 → ∃ t, exec (.treeForward l.lobjIa n.node) s = .next t ∧
      { t with nodes := s.nodes, agenda := s.agenda } = s ∧
      t.nodes = pre ++ post ++ [⟨l.num, (n.node - 1) / 4, n.ended, n.word⟩] ∧
      t.agenda = s.agenda ++ [.treeForward l.lobjIa ((n.node - 1) / 4)]) ∧
    (∀ loc, n.node = 0 → l.chain = [] → s.objBusy l.lobjIa = false → Seated s l.lobjIa loc [(loc, 64)] →
      let remain := s.numAt loc 4
      let status := s.numAt (loc + 0x0C) 4
      let total := min (status / 2 ^ 16 + (n.word.toNat / 2 ^ 16)) 0xFFFF * 2 ^ 16 + (status ||| n.word.toNat) % 2 ^ 16
      (n.ended < remain → ∃ t, exec (.treeForward l.lobjIa 0) s = .next t ∧ t.nodes = pre ++ post ∧
        t.numAt loc 4 = remain - n.ended ∧ t.numAt (loc + 0x0C) 4 = total ∧ t.numAt (loc + 8) 1 = s.numAt (loc + 8) 1 ∧
        (∀ a, a < loc ∨ loc + 64 ≤ a → cellGet t.mem a = cellGet s.mem a) ∧ t.launches = s.launches) ∧
      (n.ended = remain → (s.numAt (loc + 8) 1 = 1 ∨ s.numAt (loc + 8) 1 = 3) →
        ∃ t, exec (.treeForward l.lobjIa 0) s = .next t ∧ t.nodes = pre ++ post ∧ t.numAt loc 4 = 0 ∧
          t.numAt (loc + 0x0C) 4 = total ∧ t.numAt (loc + 8) 1 = s.numAt (loc + 8) 1 + 1 ∧
          t.numAt (loc + 0x30) 8 = s.tstamp % 2 ^ 64 ∧
          (∀ a, a < loc ∨ loc + 64 ≤ a → cellGet t.mem a = cellGet s.mem a) ∧
          t.launches = s.launches.map (fun k => if k.num = l.num then { k with finished := true } else k) ∧
          t.contexts = s.contexts.map (fun c => if c.live ∧ c.sync.wait = .object l.lobjIa ∧ c.sync.grant = none then
            { c with sync := { c.sync with grant := some (BitVec.ofNat 64 (total * 2 ^ 32 +
              (if s.numAt (loc + 8) 1 = 1 then 0 else 1))) } } else c)))

/-- R68: a streaming graph without a stage stays as it is. From two stages, of which the first is hot and the second has an
empty input ring, a task of the second is evicted: a blocked one before any other. A task of the first is then dispatched
on the core that it has left, where it fits there; where none of it can be dispatched, nothing more happens. -/
def Claim.Rebalances : Prop :=
  ∀ (s : State) (graph : Nat),
    ((∀ l ∈ s.launches, l.chain.head? = some graph → l.stage = false) →
      exec (.streamRebalance graph) s = .next s) ∧
    (∀ h k : Launch, s.launches = [h, k] → h.finished = false → k.finished = false → h.stage = true → k.stage = true →
      h.chain.head? = some graph → k.chain.head? = some graph → h.qin = 0 → h.qout = 0 → k.qin ≠ 0 → k.coresident = false →
      (s.residents h.num).length < h.slotmax → k.slotmin < (s.residents k.num).length →
      s.numAt (k.qin + 0x10) 4 = s.numAt (k.qin + 0x14) 4 →
      (s.evictOne k.num = none → exec (.streamRebalance graph) s = .next s) ∧
      ∀ d, s.evictOne k.num = some d →
        let blocked (c : Context) : Prop := c ∈ s.residents k.num ∧ c.sched.parked = false ∧ c.sched.ending = none ∧
          c.sync.wait.evictable = true ∧ s.waitOver c = false
        let s1 := (s.saveContext d.id.uid .evicted none).event (d.id.core / 4) 26
        (∀ c, blocked c → blocked d ∧ d.sync.since ≤ c.sync.since) ∧
        ((∀ c ∈ s1.contexts, c.job.launch = h.num → s1.wakes c = false) →
          (s1.mayDispatch h = false → exec (.streamRebalance graph) s = .next s1) ∧
          (∀ slot cid frame ext s2, s1.mayDispatch h = true → s1.launch h.num = some h → s1.missing h = none →
            h.together = 1 → s1.couldTake h d.id.core = true → s1.fitsNow h [d.id.core] = true →
            s1.outranked h [d.id.core] (some d.id.uid) = false → Vacant s1 h d.id.core slot cid frame ext s2 →
            ∃ t c, exec (.streamRebalance graph) s = .next t ∧
              Dispatched s1 t h d.id.core slot cid frame ext none c)))

/-- R15 to R26, R54, R68, R384, R385: the loader, dispatch, the completion tree, streaming graphs. -/
def Obligations.LaunchSteps : Prop :=
  Claim.Judgements ∧ Claim.Dispatches ∧ Claim.TreeForwards ∧ Claim.Rebalances

/-- R67, R143: a cancel marks the OPEN object of a launch beneath the cancelled one with its cause; every resident task of
it ends at its next boundary. -/
def Claim.CancelMarks : Prop :=
  ∀ (s : State) (l : Launch) (obj lloc oloc : Nat), s.launches = [l] → l.finished = false → l.chain = [obj] →
    s.attached = [] → s.objBusy l.lobjIa = false → s.numAt (oloc + 8) 1 = 3 → l.lobjIa ≠ obj → l.next = l.total → Apart lloc 64 oloc 64 → Seated s l.lobjIa lloc [(lloc, 64), (oloc, 64)] →
    Seated s obj oloc [(lloc, 64), (oloc, 64)] → s.numAt (lloc + 8) 1 = 1 → Distinct s →
    (∀ c ∈ s.contexts, c.live = true → c.id.sup = false → c.job.launch = l.num → c.sched.place = .slot ∧
      c.sched.ending = none) →
    let mine (c : Context) : Prop := c.live = true ∧ c.id.sup = false ∧ c.job.launch = l.num
    ∃ t, exec (.cancelMarkDescendants obj) s = .next t ∧ t.numAt (lloc + 8) 1 = 3 ∧
      t.numAt (lloc + 0x24) 4 = s.numAt (oloc + 0x24) 4 ∧
      (∀ a, a < lloc ∨ lloc + 64 ≤ a → cellGet t.mem a = cellGet s.mem a) ∧
      (∀ c ∈ s.contexts, mine c → { c with sched := { c.sched with cancelled := true } } ∈ t.contexts) ∧
      (∀ c ∈ s.contexts, ¬mine c → c ∈ t.contexts)

/-- R67, R141: a task that a cancel has reached ends at an instruction boundary with status 0. -/
def Claim.CancelEnds : Prop :=
  ∀ (s : State) (uid : Nat) (c : Context) (l : Launch), EndsAtOnce s uid c l → c.sched.cancelled = true →
    ∃ t, exec (.taskCancelEnd uid) s = .next t ∧ Gone s t uid c l 0

/-- R138, R141: TEND of a task that nothing holds ends it with the low word of x[A]. -/
def Claim.QuietEnds : Prop :=
  ∀ (s : State) (a : XReg) (l : Launch), EndsAtOnce s s.cur.id.uid s.cur l → Still s →
    ∃ t, exec (.tend a) s = .next t ∧ Gone s t s.cur.id.uid s.cur l ((s.arg a).extractLsb' 0 32)

/-- R63 to R65, R68: a task blocked for more than 20 µs whose slot another could use goes to its frame, and is counted,
unless it is of a stage with no more tasks than SLOTMIN; the scheduler may take a resident task of a launch without CORESIDENT off its core, and no other. -/
def Claim.Evictions : Prop :=
  ∀ (s s1 : State) (uid : Nat) (c : Context), s.ctx uid = some c → c.id.sup = false →
    c.sched.parked = false → c.sched.ending = none →
    (Savable s uid c .evicted s1 → c.job.coresident = false → (∃ ia, c.sync.wait = .barrier ia ∨ c.sync.wait = .monitor ia) →
      c.sync.grant = none → 20000 < s.elapsed c.sync.since → s.wanted c = true →
      (∀ l, s.launch c.job.launch = some l → l.stage = true → l.slotmin < (s.residents l.num).length) →
      ∃ t t1, exec (.taskEvict uid) s = .next t ∧ Departs s1 t1 uid (c.saved .evicted s.now) ∧
        { t with clusters := t1.clusters } = t1 ∧ (∀ k, k ≠ c.id.core / 4 → t.cluster k = t1.cluster k) ∧
        t.cluster (c.id.core / 4) = (t1.cluster (c.id.core / 4)).counted 26) ∧
    (s.elapsed c.sync.since ≤ 20000 → exec (.taskEvict uid) s = .next s) ∧
    (Savable s uid c .preempted s1 → c.job.coresident = false →
      (∀ l, s.launch c.job.launch = some l → l.stage = true → l.slotmin < (s.residents l.num).length) →
      ∃ t, exec (.schedulerPreEmption uid) s = .next t ∧ Departs s1 t uid (c.saved .preempted s.now)) ∧
    (c.job.coresident = true → exec (.schedulerPreEmption uid) s = .next s ∧ exec (.taskEvict uid) s = .next s)

/-- R65, R69, R188, R375, R376: a saved task that is ready comes back into a free slot of the core that the rules choose,
with the registers of its frame and a new token; one whose class is shed enters SHED instead, and keeps a failure of
its page that it has still to take. -/
def Claim.Restores : Prop :=
  ∀ (s s1 s2 : State) (uid core slot : Nat) (c c1 : Context), Distinct s → s.ctx uid = some c → s.wakes c = true →
    (s.classShed (pkgOf c.id.core) c.reg.cls = true → ∃ t d, exec (.contextRestore uid) s = .next t ∧
      t.ctx uid = some d ∧ d.reg = c.reg ∧ (∀ va, c.sched.place = .frame (.failed va) →
        d.sched.place = .frame (.shed (some va))) ∧
      ((∀ va, c.sched.place ≠ .frame (.failed va)) → d.sched.place = .frame (.shed none))) ∧
    (s.classShed (pkgOf c.id.core) c.reg.cls = false → s.yields c core = false → (c.sched.place = .frame .preempted ∨ c.sched.place = .frame .evicted) →
      c.job.tcells = 0 → c.job.easel = none → c.sync.region = none → c1.power.lease = none → c.mail.frame = [] →
      s.restoreCore c = some core → s.choose (s.freeSlots core) = (some slot, s1) → s1.readFrame c = (.ok c1, s2) →
      ∃ t, exec (.contextRestore uid) s = .next t ∧ t.mem = s.mem ∧ t.nextGen = s.nextGen + 1 ∧
        t.contexts = s.contexts.map (fun d => if d.id.uid = uid ∧ d.live = true then { c1 with
          id := { c.id with core := core, slot := slot, gen := s.nextGen, rob := 0 }
          job := { c1.job with easel := none, cells := [] }
          sched := { c1.sched with place := .slot }
          power := { c1.power with afterBarw := false } } else d))

/-- R63 to R69, R138 to R143, R188, R375: tasks are cancelled, end, are evicted and come back. -/
def Obligations.ContextSteps : Prop :=
  Claim.CancelMarks ∧ Claim.CancelEnds ∧ Claim.QuietEnds ∧ Claim.Evictions ∧ Claim.Restores

/-- R277, R278: a message of a type to a mailbox, the first in the network, enters the inbox of the context that has the
address; its MSEND, if one waits for the answer, is given 0. One to no live context is discarded, and counted. -/
def Claim.Mailboxes : Prop :=
  ∀ (s : State) (i : Instr) (n : NetMsg) (rest : List NetMsg), Distinct s → s.net = n :: rest →
    let type := n.msg.header.toNat / 2 ^ 56
    (i = .user n.dest n.msg ∧ type = 1 ∨ i = .ferryDone n.dest n.msg ∧ type = 2 ∨ i = .blocksum n.dest n.msg ∧ type = 4) →
    (∀ c, Accepts s n.dest c → ∃ t t1, exec i s = .next t ∧
      OnlyContext { s with net := rest } t1 c.id.uid (Context.take c.id.core n.msg) ∧
      (n.awaited = false → t = t1) ∧
      (n.awaited = true → OnlyContext t1 t n.sender (fun o => if o.sync.wait = .reply
        then { o with sync := { o.sync with grant := some 0 } } else o))) ∧
    (n.dest.getLsbD 37 = false → s.mailbox (destCore n.dest) (n.dest.toNat % 2 ^ 6) = none → n.awaited = false →
      ∃ t, exec i s = .next t ∧ { t with net := s.net, clusters := s.clusters } = s ∧ t.net = rest ∧
        ∀ k, t.cluster k = if k = destCore n.dest / 4 then (s.cluster k).counted 16 else s.cluster k)

/-- R25, R281: a message to a hardware message ring with room is written to its data area, header first, in two parts where
it passes the end of the area, and WR moves on by its bytes. No capability list may lie there: the contexts cannot write
one (log 82). -/
def Claim.MessageRings : Prop :=
  ∀ (s : State) (n : NetMsg) (rest : List NetMsg), s.net = n :: rest → n.awaited = false → n.dest.getLsbD 37 = true →
    let off := n.dest.toNat % 2 ^ 37
    let ia := s.gwIa (destCore n.dest) off
    let size := s.numAt ia 4
    let data := s.numAt (ia + 8) 8
    let wr := s.numAt (ia + 0x10) 4
    let rd := s.numAt (ia + 0x14) 4
    let bs := toBytes 8 n.msg.header.toNat ++ n.msg.payload.flatMap (fun w => toBytes 8 w.toNat)
    let room := size - wr % size
    let moved := toBytes 4 ((wr + bs.length) % 2 ^ 32)
    off < s.gwLength (destCore n.dest) → Unnoted s ia 64 → s.msgRingOk ia = true → (wr + 2 ^ 32 - rd) % 2 ^ 32 + bs.length ≤ size →
    s.objects = [] → s.readOnly (ia + 0x10) 4 = false → s.readOnly data size = false →
    (bs.length ≤ room → ∃ t t1, exec (.messageRingWrite n.dest n.msg) s = .next t ∧
      Wrote { s with net := rest } t1 (data + wr % size) bs ∧ Wrote t1 t (ia + 0x10) moved) ∧
    (room < bs.length → ∃ t t1 t2, exec (.messageRingWrite n.dest n.msg) s = .next t ∧
      Wrote { s with net := rest } t1 (data + wr % size) (bs.take room) ∧ Wrote t1 t2 data (bs.drop room) ∧
      Wrote t2 t (ia + 0x10) moved)

/-- R277, R282, R394: a post of a USER message, on a package whose host port is released, enters the inbox of the context at
the address, with the staged words as payload, and takes a shared entry of the window's core where that context has
no entry of its own left; while the mailbox of one that is saved is full, it keeps the entry in the network. One of a
SPAWN message waits for the agent; any other, or one without room, is dropped and sets OVF, whose passing from 0 to
1 is signalled. -/
def Claim.HostPosts : Prop :=
  ∀ (s : State) (core : Nat) (h : Word), Distinct s →
    let k := s.core core
    let type := h.toNat / 2 ^ 56
    let len := h.toNat / 2 ^ 48 % 2 ^ 8
    let msg (t : Nat) : Message := ⟨BitVec.ofNat 64 (t * 2 ^ 56 + len * 2 ^ 48 + h.toNat / 2 ^ 32 % 2 ^ 16 * 2 ^ 32 + 0xFFFFFFFF),
      k.stage.take len⟩
    let room := 0 < s.sharedFree core
    (s.atel (core / 512)).booted = true → s.net = [] →
    (∀ c, room → type = 1 → len ≤ 7 → s.mailbox core (h.toNat % 2 ^ 6) = some c → s.ctx c.id.uid = some c →
      (c.sched.place = .slot → c.mail.frame = [] →
        ∃ t, exec (.post core h) s = .next t ∧ OnlyContext s t c.id.uid (Context.take core (msg 1))) ∧
      ((∃ why, c.sched.place = .frame why) → 32 ≤ c.mail.frame.length →
        ∃ t n, exec (.post core h) s = .next t ∧ { t with net := s.net } = s ∧ t.net = [n] ∧ n.msg = msg 1 ∧
          t.sharedFree core + 1 = s.sharedFree core)) ∧
    (room → type = 3 → len ≤ 7 → ∃ t, exec (.post core h) s = .next t ∧
      OnlyCore s { t with agenda := s.agenda } core { k with spawns := k.spawns ++ [msg 3] } ∧
      t.agenda = s.agenda ++ [.spawnMessage core]) ∧
    (¬room ∨ (type ≠ 1 ∧ type ≠ 3) ∨ 7 < len → ∃ t, exec (.post core h) s = .next t ∧
      OnlyCore s { t with bar4 := s.bar4, msix := s.msix } core { k with ovf := true } ∧
      (k.ovf = false → Signals s t (core / 128) 5) ∧ (k.ovf = true → t.bar4 = s.bar4 ∧ t.msix = s.msix))

/-- R283: the agent works on the oldest SPAWN message of its core: the SPAWN procedure of the record that it names, then
its status word at the address that it names, then the entry is free. A record that is not aligned has status 4, which
is written to the reply address as any other; a reply address of 0 asks for none. The agent writes a status word at
the location to which the supervisor's ranges map the address. -/
def Claim.SpawnMessages : Prop :=
  ∀ (s : State) (core : Nat) (h record reply : Word) (rest : List Message),
    let k := s.core core
    let m : Message := ⟨h, [record, reply]⟩
    k.spawns = m :: rest → k.spawnWait = none → k.spawnDone = none → s.net = [] →
    (∀ c ∈ s.contexts, c.sched.place = .slot → c.mail.frame = []) →
    (record.toNat % 64 ≠ 0 → reply = 0 → ∃ t, exec (.spawnMessage core m) s = .next t ∧
      OnlyCore s { t with agenda := s.agenda } core { k with spawns := rest } ∧
      t.agenda = s.agenda ++ (if rest = [] then [] else [.spawnMessage core])) ∧
    (∀ s3, record.toNat % 64 ≠ 0 → reply ≠ 0 → reply.toNat % 8 = 0 →
      (s.setCore core { k with spawnDone := some 0x04 }).agentRun core (replyOp reply.toNat 0x04) = (.ok (), s3) →
      s3.core core = { k with spawnDone := some 0x04 } → s3.net = [] →
      (∀ c ∈ s3.contexts, c.sched.place = .slot → c.mail.frame = []) →
      ∃ t, exec (.spawnMessage core m) s = .next t ∧
        OnlyCore s3 { t with agenda := s3.agenda } core { k with spawns := rest }) ∧
    (∀ (u : State) (va st ia loc : Nat), let agent : State := { u with cur := u.agentOf core, others := u.cur :: u.others }
      va % 8 = 0 → Reaches agent .write va ia loc → Plain agent ia 8 → u.narrow = [] →
      ∃ t, u.agentRun core (replyOp va st) = (.ok (), t) ∧ Wrote u t loc (toBytes 8 st)) ∧
    (∀ st s1 s3, record.toNat % 64 = 0 → reply ≠ 0 → reply.toNat % 8 = 0 →
      s.agentRun core (spawnAt record.toNat) = (.ok st, s1) → s1.core core = k → s1.net = [] →
      (s1.setCore core { k with spawnDone := some st }).agentRun core (replyOp reply.toNat st) = (.ok (), s3) →
      s3.core core = { k with spawnDone := some st } → s3.net = [] →
      (∀ c ∈ s3.contexts, c.sched.place = .slot → c.mail.frame = []) →
      ∃ t, exec (.spawnMessage core m) s = .next t ∧
        OnlyCore s3 { t with agenda := s3.agenda } core { k with spawns := rest })

/-- R274 to R283: messages reach their mailboxes, message rings and agents. -/
def Obligations.MessageSteps : Prop :=
  Claim.Mailboxes ∧ Claim.MessageRings ∧ Claim.HostPosts ∧ Claim.SpawnMessages

/-- R391, R392, R394: an access of the host through BAR0 within one granule that a host range maps to memory: a store stands
at its location, a load gives the bytes, or completes poisoned, after a failed route once (log 67, DESIGN CHOICE). Without a
range it is unsupported. BAR2 stores staging words, and BAR4 mirrors PWR. While Atelier has not released the host port of
the package, an access is held. -/
def Claim.HostWindow : Prop :=
  ∀ (s : State) (pkg : Nat) (acc : HostAccess), pkg < s.packages →
    ((s.atel pkg).booted = false → exec (.hostBar0Access pkg acc) s = .next { s with host := .held }) ∧
    ((s.atel pkg).booted = true →
    (acc.bar = .bar0 → (∀ c, rangeMap (if acc.store.isSome then .write else .read) acc.addr (s.hmap pkg) ≠ .ok c) →
      exec (.hostBar0Access pkg acc) s = .next { s with host := .unsupported }) ∧
    (∀ w, acc.bar = .bar2 → acc.addr < 0x200000 → 8 ≤ acc.addr % 0x1000 → acc.addr % 0x1000 < 0x40 → acc.addr % 8 = 0 →
      acc.size = 8 → acc.store = some w →
      let core := pkg * 512 + acc.addr / 0x1000
      ∃ t, exec (.hostBar0Access pkg acc) s = .next t ∧ t.host = .done ∧ OnlyCore s { t with host := s.host } core
        { s.core core with stage := (s.core core).stage.set (acc.addr % 0x1000 / 8 - 1) w }) ∧
    (acc.bar = .bar4 → acc.addr = 0x108 → acc.size = 8 → acc.store = none →
      exec (.hostBar0Access pkg acc) s = .next { s with host := .data (s.ctlGet (pkg * 4) 0x758) }) ∧
    (∀ ia loc, acc.bar = .bar0 → acc.addr < 2 ^ 36 → HostPlace s ia → Unnoted s ia acc.size → ia % 32 + acc.size ≤ 32 → 0 < acc.size → acc.size ≤ 8 →
      (∀ c ∈ s.contexts, c.id.uid ≠ 2 ^ 65) →
      (∀ w, acc.store = some w → rangeMap .write acc.addr (s.hmap pkg) = .ok ia → Plain s ia acc.size →
        s.meet ia .write 0 = (.ok loc, s) → ∃ t, exec (.hostBar0Access pkg acc) s = .next t ∧
          Wrote s { t with host := s.host } loc ((toBytes 8 w.toNat).take acc.size) ∧ t.host = .done) ∧
      (acc.store = none → rangeMap .read acc.addr (s.hmap pkg) = .ok ia → s.meet ia .read 0 = (.ok loc, s) →
        let lost (r : Nat × Nat) : Prop := r.1 = pkg ∧ r.2 * 32 < loc + acc.size ∧ loc < r.2 * 32 + 32
        let bad : Prop := (∃ b ∈ s.poison, loc ≤ b ∧ b < loc + acc.size) ∨ ∃ r ∈ s.lost, lost r
        (¬bad → exec (.hostBar0Access pkg acc) s =
          .next { s with host := .data (BitVec.ofNat 64 (fromBytes (s.bytesAt loc acc.size))) }) ∧
        (bad → ∃ t, exec (.hostBar0Access pkg acc) s = .next t ∧ { t with host := s.host, lost := s.lost } = s ∧
          t.host = .poisoned ∧ ∀ r, r ∈ t.lost ↔ r ∈ s.lost ∧ ¬lost r))))

/-- R391, R394: an access of the host through CXL.mem goes to the on-package DRAM, once the host port is released. That an
address is PA plus 2^53 times the package, and that an access beyond the on-package DRAM is unsupported, is the model's
choice (log 69, DEDUCED). -/
def Claim.HostMemory : Prop :=
  ∀ (s : State) (acc : HostAccess), acc.size ≤ 8 →
    let inside : Prop := acc.addr / 2 ^ 53 < s.packages ∧ acc.addr % 2 ^ 53 + acc.size ≤ 0x9000000000
    s.narrow = [] →
    (¬inside → exec (.cxlMemAccess acc) s = .next { s with host := .unsupported }) ∧
    (inside → (s.atel (acc.addr / 2 ^ 53)).booted = false → exec (.cxlMemAccess acc) s = .next { s with host := .held }) ∧
    (inside → (s.atel (acc.addr / 2 ^ 53)).booted = true → acc.store = none →
      (∃ b ∈ s.poison, acc.addr ≤ b ∧ b < acc.addr + acc.size) →
      exec (.cxlMemAccess acc) s = .next { s with host := .poisoned }) ∧
    (inside → (s.atel (acc.addr / 2 ^ 53)).booted = true → acc.store = none →
      (∀ b ∈ s.poison, b < acc.addr ∨ acc.addr + acc.size ≤ b) → exec (.cxlMemAccess acc) s =
      .next { s with host := .data (BitVec.ofNat 64 (fromBytes (s.bytesAt acc.addr acc.size))) }) ∧
    (∀ w, inside → (s.atel (acc.addr / 2 ^ 53)).booted = true → acc.store = some w → s.touches = [] → s.objects = [] → ∃ t, exec (.cxlMemAccess acc) s = .next t ∧
      Wrote s { t with host := s.host } acc.addr ((toBytes 8 w.toNat).take acc.size) ∧ t.host = .done)

/-- R7, R8, R184, R371, R392: a write of a control-block register stores its RW bits alone, CEILMAX being held to SAFELIM;
one of the MSI-X table in BAR4 stores the word, and unmasking an entry that is pending sends its message (log 12); one of
an inbox window's staging word stores it. -/
def Claim.RegisterWrites : Prop :=
  ∀ (s : State) (w : Word),
    (∀ die off, ctlRw off ≠ 0 → off ∉ [0x028, 0x050, 0x058, 0x078, 0x080, 0x088, 0x090, 0x0A0, 0x740] →
      ∃ t, exec (.registerWrite (.control die off) w) s = .next t ∧ OnlyCtl s { t with freeAt := s.freeAt } die off
        ((s.ctlGet die off &&& ~~~(BitVec.ofNat 64 (ctlRw off))) ||| (w &&& BitVec.ofNat 64 (ctlRw off)))) ∧
    (∀ die, ∃ t, exec (.registerWrite (.control die 0x740) w) s = .next t ∧
      OnlyCtl s { t with freeAt := s.freeAt } die 0x740 ((s.ctlGet die 0x740).extractLsb' 32 32 ++ w.extractLsb' 16 16 ++
        BitVec.ofNat 16 (min (w.toNat % 2 ^ 16) (s.ctlField die 0x760 15 0)))) ∧
    (∀ pkg off, (s.atel pkg).booted = true → off % 8 = 0 → 0x8000 ≤ off → off < 0x8400 →
      let v := (off - 0x8000) / 16
      let sends := off % 16 = 8 ∧ w.getLsbD 32 = false ∧ (s.bar4Get pkg 0x9000).getLsbD v = true
      ∃ t, exec (.registerWrite (.bar4 pkg off) w) s = .next t ∧ { t with bar4 := s.bar4, msix := s.msix } = s ∧
        t.bar4Get pkg off = w ∧
        (¬sends → t.msix = s.msix ∧
          ∀ p o, p * 0x10000 + o ≠ pkg * 0x10000 + off → t.bar4Get p o = s.bar4Get p o) ∧
        (sends → t.msix = s.msix ++ [pkg * 64 + v] ∧
          t.bar4Get pkg 0x9000 = (s.bar4Get pkg 0x9000 &&& ~~~(BitVec.ofNat 64 (2 ^ v))) ∧
          ∀ p o, p * 0x10000 + o ≠ pkg * 0x10000 + off → p * 0x10000 + o ≠ pkg * 0x10000 + 0x9000 →
            t.bar4Get p o = s.bar4Get p o)) ∧
    (∀ core off, 8 ≤ off → off < 0x40 → ∃ t, exec (.registerWrite (.inbox core off) w) s = .next t ∧
      OnlyCore s t core { s.core core with stage := (s.core core).stage.set (off / 8 - 1) w })

/-- R284, R285: a store from beyond the packages of the model goes to the IA at which the agent finds its address. A GST of
a context on its way is performed. -/
def Claim.GlobalRequests : Prop :=
  ∀ (s : State) (req : GlobalReq) (ia loc : Nat), Distinct s → (∀ c ∈ s.contexts, c.id.uid ≠ 2 ^ 65) →
    s.mapGlobal req.addr .write = .ok ia →
    (s.ctx req.uid = none → Plain s ia req.size → 0 < req.size → req.size ≤ 8 → ia % 32 + req.size ≤ 32 →
      Unnoted s ia req.size → s.meet ia .write 0 = (.ok loc, s) → ∃ t, exec (.globalRequest req) s = .next t ∧
        Wrote s t loc ((toBytes 8 req.value.toNat).take req.size)) ∧
    (∀ c p bs, s.ctx req.uid = some c → c.sched.place = .slot → c.io.posted = [p] → p.held = false → p.kind ≠ .f → p.kind ≠ .w →
      p.global = true → p.parts = [(req.addr, bs)] → c.oldest p.born → Performs s c .write ia loc bs.length →
      ∃ t t1, exec (.globalRequest req) s = .next t ∧ Wrote s t1 loc bs ∧
        OnlyContext t1 { t with agenda := s.agenda } req.uid (fun c => { c with io := { c.io with posted := [] } }))

/-- R393: a flit of 64 bytes whose CRC is right is delivered on its virtual channel; another one is asked for again. The CRC
and the channel's place are free (log 26). -/
def Claim.Flits : Prop :=
  ∀ (s : State) (port : Nat) (body : List Byte) (crc : BitVec 32),
    let l := s.link port
    let k := Config.flitChannel body % 4
    let good : Prop := body.length = 64 ∧ crc = Config.flitCrc body
    ∃ t, exec (.voldinFlit port body crc) s = .next t ∧ { t with links := s.links } = s ∧
      (∀ p, p ≠ port → t.link p = s.link p) ∧ (¬good → t.link port = { l with retry := true }) ∧
      (good → t.link port = ⟨false, l.channels.set k ((l.channels[k]?).getD [] ++ [body])⟩)

/-- R361, R362, R393, R396, R398: an error of a unit that holds a granule poisons bytes of it, free ones, unless it is corrected,
and is recorded in the machine-check ring of the unit's die, with the granule's IA, a free one where memory is paged (log 5);
Atelier reports the record (log 128, DESIGN CHOICE). One of a core or an easel in what is no memory of the granule is recorded
alone, with IA 0 (log 102). A failed route spoils the next request for a granule of each package whose route leads over the
port, and not memory: that it is that request, its die and its detail are the model's choices (log 67, DESIGN CHOICE). -/
def Claim.Errors : Prop :=
  ∀ (s : State) (key : Nat),
    (∀ (corrected : Bool) (unit : BitVec 16) (syndrome : Word),
      let die := key * 32 / 2 ^ 53 % 8 * 4 + unit.toNat / 2 ^ 14
      let u := unit.toNat % 2 ^ 14
      let record (ia : Nat) : List Byte := checkRecord s ia (die % 4 * 2 ^ 14 + u) (if corrected then 0 else 1)
        (if corrected then 0 else 0x13) 0 syndrome
      let ran (t : State) : Prop := exec (.machineCheckError key corrected unit syndrome) s = .next t
      let marks (s t : State) : Prop := if corrected = true then t = s else Spoils s t key
      die / 4 < s.packages → RingRoom s die 0x078 →
      (HeldBy s key die u → s.whereIs (key * 32) ≠ .pageable → ∃ t s1, ran t ∧ marks s s1 ∧
        Reports s1 t die (record (key * 32))) ∧
      (HeldBy s key die u → s.whereIs (key * 32) = .pageable → ∃ t s1 ia, ran t ∧ ia < 2 ^ 56 ∧
        marks { s with freeAt := s.freeAt + 1 } s1 ∧ Reports s1 t die (record ia)) ∧
      (¬HeldBy s key die u → u / 2 ^ 11 < 2 → u % 2 ^ 11 < 128 → ∃ t, ran t ∧ Reports s t die (record 0)) ∧
      (¬HeldBy s key die u → 2 ≤ u / 2 ^ 11 ∨ 128 ≤ u % 2 ^ 11 → ran s)) ∧
    (∀ port, let die := Config.free s.freeAt % (4 * max s.packages 1)
      RingRoom s die 0x078 → ∃ t s1 detail, exec (.failedRoute port key) s = .next t ∧
        { s1 with lost := s.lost } = { s with freeAt := s.freeAt + 1 } ∧
        (∀ p k, (p, k) ∈ s1.lost ↔ (p, k) ∈ s.lost ∨ (k = key ∧ (p, key * 32 / 2 ^ 53, port) ∈ s.routes)) ∧
        Reports s1 t die (checkRecord s 0 (die % 4 * 2 ^ 14 + 5 * 2 ^ 11 + port % 2 ^ 11) 1 0x13 0 detail))

/-- R284, R285, R361, R362, R391 to R393: the host, register writes, requests from beyond, the links, and errors. -/
def Obligations.HostSteps : Prop :=
  Claim.HostWindow ∧ Claim.HostMemory ∧ Claim.RegisterWrites ∧ Claim.GlobalRequests ∧ Claim.Flits ∧ Claim.Errors

/-- R269, R271, R297: a step of a ferry on a command whose operation it names: once the source of its units can be read, and
all that they write can be written, the command's accesses are over with status 0, or, where units of it are left, its next
step is due, of a free number of units and free in whether it may complete before its last writes (log 105). -/
def Claim.FerryWorks : Prop :=
  ∀ (s s1 s2 s3 : State) (i : Instr) (f g : FerryCmd) (loc n : Nat) (bs : List Byte) (plan : List (Nat × List Byte)),
    Fetched s f loc bs → f.plan = none → ferryCode i = some (n, f.chain, f.seq) → (ferryFields bs).op = n → n ≠ 5 →
    s.ferryIndex f (ferryFields bs) = .ok (g, s1) → g.planned (ferryFields bs) s1 = .ok plan s2 →
    g.perform (ferryFields bs) (planFuel plan) plan s2 = ([], none, s3) → f.early = false →
    let e := (ferryFields bs).until f.pos f.pace
    ((ferryFields bs).total ≤ e → ∃ t, exec i s = .next t ∧ { t with ferry := s3.ferry, agenda := s3.agenda } = s3 ∧
      Performed s3 t f 0) ∧
    (e < (ferryFields bs).total → ∃ t free, exec i s = .next t ∧ t.freeAt = s3.freeAt + 1 ∧
      { t with ferry := s3.ferry, agenda := s3.agenda, freeAt := s3.freeAt } = s3 ∧
      t.agenda = s3.agenda ++ [.ferry f.chain f.seq] ∧
      t.ferry = s3.ferry.map (fun h => if h.chain = f.chain ∧ h.seq = f.seq ∧ h.completed = false then
        { h with pos := e, plan := none, pace := free / 2, early := decide (free % 2 = 1) } else h))

/-- R269, R297: what the operations write in a step from byte pos of their packed side to byte e. FILL repeats the eight bytes of
its pattern; COPY writes its source to its destination, GCOPY to a global address, REDUCE goes by elements; GATHER and
SCATTER go by the places of their elements, base plus signed index times ELEM. Bytes that overlap the source are free
values: here none do. A step takes one unit and as many more as pace says; the parts of whole transfers are the elements. -/
def Claim.FerryPlans : Prop :=
  (∀ (s : State) (f : FerryCmd) (c : FerryFields),
    let e := c.until f.pos f.pace
    let n := e - f.pos
    (c.op = 4 → f.planned c s = .ok [(c.dst + f.pos,
      (List.range n).map (fun k => BitVec.ofNat 8 (c.auxw / 2 ^ (8 * ((f.pos + k) % 8)))))] s) ∧
    (∀ bs, f.bytes (c.src + f.pos) n s = .ok bs s →
      (c.op = 1 → f.mask [(c.src, c.len)] (c.dst + f.pos) bs s = .ok bs s → f.planned c s = .ok [(c.dst + f.pos, bs)] s) ∧
      (c.op = 9 → (∀ k ia, s.mapGlobal (c.dst + f.pos + k) .write = .ok ia → f.sources [(c.src, c.len)] ia = false) →
        f.planned c s = .ok [(c.dst + f.pos, bs)] s)) ∧
    (∀ data : Nat → List Byte, c.op = 8 →
      (∀ k, k < n / c.size → f.bytes (c.src + (f.pos + k * c.size)) c.size s = .ok (data k) s) →
      f.planned c s = .ok ((List.range (n / c.size)).map (fun k => (c.dst + (f.pos + k * c.size), data k))) s) ∧
    (∀ (vas : List Nat) (data : Nat × Nat × Nat → List Byte), f.places = some vas →
      let at_ (q : Nat × Nat × Nat) : Nat := getAt vas q.1 0 + q.2.1
      (c.op = 2 → (∀ q ∈ c.parts f.pos e, f.bytes (at_ q) q.2.2 s = .ok (data q) s) →
        f.mask (vas.map (fun va => (va, c.elem))) (c.dst + f.pos) ((c.parts f.pos e).map data).flatten s =
          .ok ((c.parts f.pos e).map data).flatten s →
        f.planned c s = .ok [(c.dst + f.pos, ((c.parts f.pos e).map data).flatten)] s) ∧
      (c.op = 3 → (∀ q ∈ c.parts f.pos e, f.bytes (c.src + q.1 * c.elem + q.2.1) q.2.2 s = .ok (data q) s ∧
          f.mask [(c.src, c.len * c.elem)] (at_ q) (data q) s = .ok (data q) s) →
        f.planned c s = .ok ((c.parts f.pos e).map (fun q => (at_ q, data q))) s)) ∧
    (∀ (base : Nat) (ix : Nat → List Byte), f.places = none →
      (∀ k, k < c.len → f.bytes (c.auxw + 4 * k) 4 s = .ok (ix k) s) →
      f.indexed c base s = .ok ((List.range c.len).map (fun k =>
        (((base : Int) + (BitVec.ofNat 32 (fromBytes (ix k))).toInt * c.elem).emod (2 ^ 64)).toNat)) s)) ∧
  (∀ (c : FerryFields) (pos pace : Nat),
    (c.op = 2 ∨ c.op = 3 → 0 < c.elem → pos % min c.elem 8 = 0 →
      c.until pos pace = min c.total (pos + min c.elem 8 * (pace + 1))) ∧
    (c.op = 8 → pos % c.size = 0 → c.until pos pace = min c.total (pos + c.size * (pace + 1))) ∧
    (c.op ≠ 2 → c.op ≠ 3 → c.op ≠ 8 → (pos + c.dst) % 8 = 0 → c.until pos pace = min c.total (pos + 8 * (pace + 1))) ∧
    (0 < c.elem → c.parts 0 (c.len * c.elem) = (List.range c.len).map (fun k => (k, 0, c.elem))))

/-- R269, R271: a command of an operation that moves bytes, once planned, of at most 32 bytes to one granule of memory writes
them there: COPY, GATHER, SCATTER and FILL at the virtual address, GCOPY at the IA at which the agent of the core that it
names finds the global one. -/
def Claim.FerryWrites : Prop :=
  ∀ (s : State) (i : Instr) (f : FerryCmd) (n loc dst ia at_ : Nat) (bs data : List Byte), Fetched s f loc bs →
    f.plan = some [(dst, data)] → ferryCode i = some (n, f.chain, f.seq) → (ferryFields bs).op = n → n ≠ 5 → n ≠ 8 →
    (n = 2 ∨ n = 3 → f.places.isSome = true) → Ends f (ferryFields bs) →
    0 < data.length → dst % 32 + data.length ≤ 32 →
    (n ≠ 9 → dst < 2 ^ 60 ∧ rangeMap .write dst f.amap.toList = .ok ia) →
    (n = 9 → (ferryFields bs).dst / 2 ^ 38 = dst / 2 ^ 38 ∧ s.mapGlobal dst .write = .ok ia) →
    HostPlace s ia → Plain s ia data.length → Unnoted s ia data.length → s.meet ia .write f.token = (.ok at_, s) →
    s.readOnly at_ data.length = false → ∃ t t1, exec i s = .next t ∧ Wrote s t1 at_ data ∧ { t with ferry := t1.ferry, agenda := t1.agenda } = t1 ∧
      Performed t1 t f 0

/-- R206, R209, R210, R269: an element of a REDUCE, once its source has been read, becomes DST op SRC at the atomic unit, with
REDOP 0 the sum, 1 the signed minimum, 2 the signed maximum of integers, and the sum of FP32 values. -/
def Claim.FerryReduces : Prop :=
  ∀ (s : State) (f : FerryCmd) (loc dst ia at_ : Nat) (bs data : List Byte), Fetched s f loc bs →
    let c := ferryFields bs
    f.plan = some [(dst, data)] → c.op = 8 → Ends f c → c.fmt % 16 = 7 ∨ c.fmt % 16 = 8 ∨ c.fmt = 2 → c.fmt / 16 < 3 →
    data.length = c.size → dst % c.size = 0 → dst < 2 ^ 60 → rangeMap .atomic dst f.amap.toList = .ok ia →
    HostPlace s ia → Plain s ia c.size → Unnoted s ia c.size → s.meet ia .atomic f.token = (.ok at_, s) →
    s.readOnly at_ c.size = false → (∀ b ∈ s.poison, b < at_ ∨ at_ + c.size ≤ b) → s.lost = [] →
    (∀ k, k < c.size → f.sources [(c.src, c.len)] (ia + k) = false) →
    ∃ t t1, exec (.ferryReduce f.chain f.seq) s = .next t ∧
      Wrote s t1 at_ (toBytes c.size (reduced c.fmt (fromBytes (s.bytesAt at_ c.size)) (fromBytes data))) ∧
      { t with ferry := t1.ferry, agenda := t1.agenda } = t1 ∧ Performed t1 t f 0

/-- R230, R263, R269: a RINGPUT whose bytes are written posts the slot that it claimed, and nothing subscribes yet. -/
def Claim.FerryPuts : Prop :=
  ∀ (s : State) (f : FerryCmd) (loc cl : Nat) (r : Ring) (q : BitVec 32) (bs : List Byte), Fetched s f loc bs →
    f.plan = some [] → (ferryFields bs).op = 5 → Ends f (ferryFields bs) →
    (∀ t : State, t.packages = s.packages → t.clusters = s.clusters → f.ringOf (ferryFields bs) t = .ok (cl, r) t) →
    r.claimedBy (.ferry f.chain f.seq) = some q → r.subs = [] → 0 < r.nsub → s.ring cl ((ferryFields bs).ring % 64) = some r →
    ∃ t r1, exec (.ferryRingput f.chain f.seq) s = .next t ∧ t.ring cl ((ferryFields bs).ring % 64) = some r1 ∧
      r1.slots = r.slots.set (q.toNat % r.nslot) ⟨.ready, some (.ferry f.chain f.seq)⟩ ∧ Performed s t f 0

/-- R271, R272: the completion of a chain's first command, of which no write is left, writes its status and DONESEQ. One that
failed halts the chain, with its cause and its address. One that failed, or whose NOTIFY is set, posts FERRY_DONE to the
mailbox of the context that appended it, with the chain's address, its status and number, and TAGV; to a context that is
gone it is discarded. -/
def Claim.FerryCompletes : Prop :=
  ∀ (s : State) (f : FerryCmd) (loc at_ : Nat) (pre post : List FerryCmd), s.ferry = pre ++ f :: post →
    (∀ g ∈ pre, g.chain ≠ f.chain ∨ g.completed = true) → f.completed = false → f.performed = true → f.page = none →
    (∀ g ∈ s.ferry, g.chain = f.chain → g.tail = [] ∧ g.note = none) →
    s.objBusy f.chain = false → s.objBusy f.cmdIa = false → Seated s f.chain loc [] →
    s.meet f.cmdIa .atomic f.token = (.ok at_, s) → Apart loc 64 at_ 64 → f.seq < 2 ^ 32 →
    f.status < 256 → f.chain < 2 ^ 56 →
    let notify := s.numAt (at_ + 9) 1 % 2 = 1
    let failed := f.status ≠ 0 ∧ f.status ≠ 2
    let done (t : State) : Prop := t.numAt (at_ + 0x34) 4 = f.status ∧ t.numAt (loc + 0x14) 4 = f.seq ∧
      ∀ a, (a < loc ∨ loc + 64 ≤ a) → (a < at_ ∨ at_ + 64 ≤ a) → cellGet t.mem a = cellGet s.mem a
    let halted (t : State) : Prop := t.numAt (loc + 0x1A) 1 = 2 ∧ t.numAt (loc + 0x1B) 1 = f.status ∧
      t.numAt (loc + 0x20) 8 = f.errAddr.toNat ∧ ∀ g ∈ t.ferry, g.chain ≠ f.chain
    let runs (t : State) : Prop := t.numAt (loc + 0x1A) 1 = s.numAt (loc + 0x1A) 1 ∧
      ∀ g ∈ t.ferry, g.chain = f.chain → g.seq = f.seq → g.completed = true
    (¬failed → ¬notify → ∃ t, exec (.ferryCommandComplete f.chain) s = .next t ∧ done t ∧ runs t ∧ t.contexts = s.contexts) ∧
    (failed → s.ctx f.uid = none → ∃ t, exec (.ferryCommandComplete f.chain) s = .next t ∧ done t ∧ halted t) ∧
    (failed ∨ notify → Distinct s → s.net = [] → ∀ c d, s.ctx f.uid = some c → c.id.sup = false → Accepts s f.mailbox d →
      ∃ t, exec (.ferryCommandComplete f.chain) s = .next t ∧ done t ∧ (failed → halted t) ∧ (¬failed → runs t) ∧
        t.contexts = s.contexts.map (fun o => if o.id.uid = d.id.uid ∧ o.live = true then
          Context.take d.id.core ⟨BitVec.ofNat 64 (2 * 2 ^ 56 + 3 * 2 ^ 48), [f.chainVa,
            BitVec.ofNat 64 (f.status * 2 ^ 32 + f.seq), BitVec.ofNat 64 (s.numAt (at_ + 0x38) 8)]⟩ o else o))

/-- R270: a chain whose last command the ferry has fetched, and which TAILPTR still names, idles; otherwise it does not. -/
def Claim.ChainsIdle : Prop :=
  ∀ (s : State) (f : FerryCmd) (loc : Nat), (s.ferry.filter (fun g => g.chain = f.chain)).getLast? = some f →
    s.meet f.chain .atomic f.token = (.ok loc, s) → s.objBusy f.chain = false →
    (f.started = true → s.numAt (loc + 0x1A) 1 = 1 → s.numAt (loc + 8) 8 = f.cmdVa.toNat →
      ∃ t t1, exec (.chainIdle f.chain) s = .next t ∧ Wrote s t1 loc (toBytes 8 0) ∧
        Wrote t1 { t with ferry := s.ferry } (loc + 0x1A) [0] ∧
        t.ferry = s.ferry.filter (fun g => g.chain ≠ f.chain ∨ g.completed = false ∨ g.lingers = true)) ∧
    (s.numAt (loc + 0x1A) 1 ≠ 1 ∨ s.numAt (loc + 8) 8 ≠ f.cmdVa.toNat → exec (.chainIdle f.chain) s = .next s)

/-- R268 to R272: the steps of the ferries. -/
def Obligations.FerrySteps : Prop :=
  Claim.FerryWorks ∧ Claim.FerryPlans ∧ Claim.FerryWrites ∧ Claim.FerryReduces ∧ Claim.FerryPuts ∧ Claim.FerryCompletes ∧ Claim.ChainsIdle
end

