-- ==== Sys2Proof/Laws/State.lean ====
section
/-! SUPPORT. State.lean: what each update of the state and of a context leaves in each field. -/

namespace Sys2Proof.Machine

/-! State.setX. -/

@[simp] theorem State.setX_cur (s : State) (d : XReg) (w : Word) : (s.setX d w).cur = s.cur.setX d w := rfl
@[simp] theorem State.setX_others (s : State) (d : XReg) (w : Word) : (s.setX d w).others = s.others := rfl
@[simp] theorem State.setX_agenda (s : State) (d : XReg) (w : Word) : (s.setX d w).agenda = s.agenda := rfl
@[simp] theorem State.setX_turns (s : State) (d : XReg) (w : Word) : (s.setX d w).turns = s.turns := rfl
@[simp] theorem State.setX_now (s : State) (d : XReg) (w : Word) : (s.setX d w).now = s.now := rfl
@[simp] theorem State.setX_resetAt (s : State) (d : XReg) (w : Word) : (s.setX d w).resetAt = s.resetAt := rfl
@[simp] theorem State.setX_freeAt (s : State) (d : XReg) (w : Word) : (s.setX d w).freeAt = s.freeAt := rfl
@[simp] theorem State.setX_nextUid (s : State) (d : XReg) (w : Word) : (s.setX d w).nextUid = s.nextUid := rfl
@[simp] theorem State.setX_nextGen (s : State) (d : XReg) (w : Word) : (s.setX d w).nextGen = s.nextGen := rfl
@[simp] theorem State.setX_lastLaunch (s : State) (d : XReg) (w : Word) :
    (s.setX d w).lastLaunch = s.lastLaunch := rfl
@[simp] theorem State.setX_judged (s : State) (d : XReg) (w : Word) : (s.setX d w).judged = s.judged := rfl
@[simp] theorem State.setX_mem (s : State) (d : XReg) (w : Word) : (s.setX d w).mem = s.mem := rfl
@[simp] theorem State.setX_history (s : State) (d : XReg) (w : Word) : (s.setX d w).history = s.history := rfl
@[simp] theorem State.setX_promised (s : State) (d : XReg) (w : Word) : (s.setX d w).promised = s.promised := rfl
@[simp] theorem State.setX_broken (s : State) (d : XReg) (w : Word) : (s.setX d w).broken = s.broken := rfl
@[simp] theorem State.setX_narrow (s : State) (d : XReg) (w : Word) : (s.setX d w).narrow = s.narrow := rfl
@[simp] theorem State.setX_flushes (s : State) (d : XReg) (w : Word) : (s.setX d w).flushes = s.flushes := rfl
@[simp] theorem State.setX_poison (s : State) (d : XReg) (w : Word) : (s.setX d w).poison = s.poison := rfl
@[simp] theorem State.setX_ctl (s : State) (d : XReg) (w : Word) : (s.setX d w).ctl = s.ctl := rfl
@[simp] theorem State.setX_bar4 (s : State) (d : XReg) (w : Word) : (s.setX d w).bar4 = s.bar4 := rfl
@[simp] theorem State.setX_msix (s : State) (d : XReg) (w : Word) : (s.setX d w).msix = s.msix := rfl
@[simp] theorem State.setX_clusters (s : State) (d : XReg) (w : Word) : (s.setX d w).clusters = s.clusters := rfl
@[simp] theorem State.setX_strings (s : State) (d : XReg) (w : Word) : (s.setX d w).strings = s.strings := rfl
@[simp] theorem State.setX_cores (s : State) (d : XReg) (w : Word) : (s.setX d w).cores = s.cores := rfl
@[simp] theorem State.setX_dies (s : State) (d : XReg) (w : Word) : (s.setX d w).dies = s.dies := rfl
@[simp] theorem State.setX_pkgs (s : State) (d : XReg) (w : Word) : (s.setX d w).pkgs = s.pkgs := rfl
@[simp] theorem State.setX_packages (s : State) (d : XReg) (w : Word) : (s.setX d w).packages = s.packages := rfl
@[simp] theorem State.setX_launches (s : State) (d : XReg) (w : Word) : (s.setX d w).launches = s.launches := rfl
@[simp] theorem State.setX_attached (s : State) (d : XReg) (w : Word) : (s.setX d w).attached = s.attached := rfl
@[simp] theorem State.setX_unmarked (s : State) (d : XReg) (w : Word) : (s.setX d w).unmarked = s.unmarked := rfl
@[simp] theorem State.setX_nodes (s : State) (d : XReg) (w : Word) : (s.setX d w).nodes = s.nodes := rfl
@[simp] theorem State.setX_ferry (s : State) (d : XReg) (w : Word) : (s.setX d w).ferry = s.ferry := rfl
@[simp] theorem State.setX_net (s : State) (d : XReg) (w : Word) : (s.setX d w).net = s.net := rfl
@[simp] theorem State.setX_caps (s : State) (d : XReg) (w : Word) : (s.setX d w).caps = s.caps := rfl
@[simp] theorem State.setX_capbase (s : State) (d : XReg) (w : Word) : (s.setX d w).capbase = s.capbase := rfl
@[simp] theorem State.setX_capAt (s : State) (d : XReg) (w : Word) : (s.setX d w).capAt = s.capAt := rfl
@[simp] theorem State.setX_evcidx (s : State) (d : XReg) (w : Word) : (s.setX d w).evcidx = s.evcidx := rfl
@[simp] theorem State.setX_accounts (s : State) (d : XReg) (w : Word) : (s.setX d w).accounts = s.accounts := rfl
@[simp] theorem State.setX_touches (s : State) (d : XReg) (w : Word) : (s.setX d w).touches = s.touches := rfl
@[simp] theorem State.setX_objects (s : State) (d : XReg) (w : Word) : (s.setX d w).objects = s.objects := rfl
@[simp] theorem State.setX_atelier (s : State) (d : XReg) (w : Word) : (s.setX d w).atelier = s.atelier := rfl
@[simp] theorem State.setX_host (s : State) (d : XReg) (w : Word) : (s.setX d w).host = s.host := rfl
@[simp] theorem State.setX_links (s : State) (d : XReg) (w : Word) : (s.setX d w).links = s.links := rfl
@[simp] theorem State.setX_routes (s : State) (d : XReg) (w : Word) : (s.setX d w).routes = s.routes := rfl
@[simp] theorem State.setX_lost (s : State) (d : XReg) (w : Word) : (s.setX d w).lost = s.lost := rfl
/-! State.orFlags. -/

@[simp] theorem State.orFlags_cur (s : State) (f : Flags) : (s.orFlags f).cur = s.cur.orFlags f := rfl
@[simp] theorem State.orFlags_others (s : State) (f : Flags) : (s.orFlags f).others = s.others := rfl
@[simp] theorem State.orFlags_agenda (s : State) (f : Flags) : (s.orFlags f).agenda = s.agenda := rfl
@[simp] theorem State.orFlags_turns (s : State) (f : Flags) : (s.orFlags f).turns = s.turns := rfl
@[simp] theorem State.orFlags_now (s : State) (f : Flags) : (s.orFlags f).now = s.now := rfl
@[simp] theorem State.orFlags_resetAt (s : State) (f : Flags) : (s.orFlags f).resetAt = s.resetAt := rfl
@[simp] theorem State.orFlags_freeAt (s : State) (f : Flags) : (s.orFlags f).freeAt = s.freeAt := rfl
@[simp] theorem State.orFlags_nextUid (s : State) (f : Flags) : (s.orFlags f).nextUid = s.nextUid := rfl
@[simp] theorem State.orFlags_nextGen (s : State) (f : Flags) : (s.orFlags f).nextGen = s.nextGen := rfl
@[simp] theorem State.orFlags_lastLaunch (s : State) (f : Flags) : (s.orFlags f).lastLaunch = s.lastLaunch := rfl
@[simp] theorem State.orFlags_judged (s : State) (f : Flags) : (s.orFlags f).judged = s.judged := rfl
@[simp] theorem State.orFlags_mem (s : State) (f : Flags) : (s.orFlags f).mem = s.mem := rfl
@[simp] theorem State.orFlags_history (s : State) (f : Flags) : (s.orFlags f).history = s.history := rfl
@[simp] theorem State.orFlags_promised (s : State) (f : Flags) : (s.orFlags f).promised = s.promised := rfl
@[simp] theorem State.orFlags_broken (s : State) (f : Flags) : (s.orFlags f).broken = s.broken := rfl
@[simp] theorem State.orFlags_narrow (s : State) (f : Flags) : (s.orFlags f).narrow = s.narrow := rfl
@[simp] theorem State.orFlags_flushes (s : State) (f : Flags) : (s.orFlags f).flushes = s.flushes := rfl
@[simp] theorem State.orFlags_poison (s : State) (f : Flags) : (s.orFlags f).poison = s.poison := rfl
@[simp] theorem State.orFlags_ctl (s : State) (f : Flags) : (s.orFlags f).ctl = s.ctl := rfl
@[simp] theorem State.orFlags_bar4 (s : State) (f : Flags) : (s.orFlags f).bar4 = s.bar4 := rfl
@[simp] theorem State.orFlags_msix (s : State) (f : Flags) : (s.orFlags f).msix = s.msix := rfl
@[simp] theorem State.orFlags_clusters (s : State) (f : Flags) : (s.orFlags f).clusters = s.clusters := rfl
@[simp] theorem State.orFlags_strings (s : State) (f : Flags) : (s.orFlags f).strings = s.strings := rfl
@[simp] theorem State.orFlags_cores (s : State) (f : Flags) : (s.orFlags f).cores = s.cores := rfl
@[simp] theorem State.orFlags_dies (s : State) (f : Flags) : (s.orFlags f).dies = s.dies := rfl
@[simp] theorem State.orFlags_pkgs (s : State) (f : Flags) : (s.orFlags f).pkgs = s.pkgs := rfl
@[simp] theorem State.orFlags_packages (s : State) (f : Flags) : (s.orFlags f).packages = s.packages := rfl
@[simp] theorem State.orFlags_launches (s : State) (f : Flags) : (s.orFlags f).launches = s.launches := rfl
@[simp] theorem State.orFlags_attached (s : State) (f : Flags) : (s.orFlags f).attached = s.attached := rfl
@[simp] theorem State.orFlags_unmarked (s : State) (f : Flags) : (s.orFlags f).unmarked = s.unmarked := rfl
@[simp] theorem State.orFlags_nodes (s : State) (f : Flags) : (s.orFlags f).nodes = s.nodes := rfl
@[simp] theorem State.orFlags_ferry (s : State) (f : Flags) : (s.orFlags f).ferry = s.ferry := rfl
@[simp] theorem State.orFlags_net (s : State) (f : Flags) : (s.orFlags f).net = s.net := rfl
@[simp] theorem State.orFlags_caps (s : State) (f : Flags) : (s.orFlags f).caps = s.caps := rfl
@[simp] theorem State.orFlags_capbase (s : State) (f : Flags) : (s.orFlags f).capbase = s.capbase := rfl
@[simp] theorem State.orFlags_capAt (s : State) (f : Flags) : (s.orFlags f).capAt = s.capAt := rfl
@[simp] theorem State.orFlags_evcidx (s : State) (f : Flags) : (s.orFlags f).evcidx = s.evcidx := rfl
@[simp] theorem State.orFlags_accounts (s : State) (f : Flags) : (s.orFlags f).accounts = s.accounts := rfl
@[simp] theorem State.orFlags_touches (s : State) (f : Flags) : (s.orFlags f).touches = s.touches := rfl
@[simp] theorem State.orFlags_objects (s : State) (f : Flags) : (s.orFlags f).objects = s.objects := rfl
@[simp] theorem State.orFlags_atelier (s : State) (f : Flags) : (s.orFlags f).atelier = s.atelier := rfl
@[simp] theorem State.orFlags_host (s : State) (f : Flags) : (s.orFlags f).host = s.host := rfl
@[simp] theorem State.orFlags_links (s : State) (f : Flags) : (s.orFlags f).links = s.links := rfl
@[simp] theorem State.orFlags_routes (s : State) (f : Flags) : (s.orFlags f).routes = s.routes := rfl
@[simp] theorem State.orFlags_lost (s : State) (f : Flags) : (s.orFlags f).lost = s.lost := rfl
/-! State.setReg. -/

@[simp] theorem State.setReg_cur (s : State) (f : Regs → Regs) :
    (s.setReg f).cur = { s.cur with reg := f s.cur.reg } := rfl
@[simp] theorem State.setReg_others (s : State) (f : Regs → Regs) : (s.setReg f).others = s.others := rfl
@[simp] theorem State.setReg_agenda (s : State) (f : Regs → Regs) : (s.setReg f).agenda = s.agenda := rfl
@[simp] theorem State.setReg_turns (s : State) (f : Regs → Regs) : (s.setReg f).turns = s.turns := rfl
@[simp] theorem State.setReg_now (s : State) (f : Regs → Regs) : (s.setReg f).now = s.now := rfl
@[simp] theorem State.setReg_resetAt (s : State) (f : Regs → Regs) : (s.setReg f).resetAt = s.resetAt := rfl
@[simp] theorem State.setReg_freeAt (s : State) (f : Regs → Regs) : (s.setReg f).freeAt = s.freeAt := rfl
@[simp] theorem State.setReg_nextUid (s : State) (f : Regs → Regs) : (s.setReg f).nextUid = s.nextUid := rfl
@[simp] theorem State.setReg_nextGen (s : State) (f : Regs → Regs) : (s.setReg f).nextGen = s.nextGen := rfl
@[simp] theorem State.setReg_lastLaunch (s : State) (f : Regs → Regs) : (s.setReg f).lastLaunch = s.lastLaunch := rfl
@[simp] theorem State.setReg_judged (s : State) (f : Regs → Regs) : (s.setReg f).judged = s.judged := rfl
@[simp] theorem State.setReg_mem (s : State) (f : Regs → Regs) : (s.setReg f).mem = s.mem := rfl
@[simp] theorem State.setReg_history (s : State) (f : Regs → Regs) : (s.setReg f).history = s.history := rfl
@[simp] theorem State.setReg_promised (s : State) (f : Regs → Regs) : (s.setReg f).promised = s.promised := rfl
@[simp] theorem State.setReg_broken (s : State) (f : Regs → Regs) : (s.setReg f).broken = s.broken := rfl
@[simp] theorem State.setReg_narrow (s : State) (f : Regs → Regs) : (s.setReg f).narrow = s.narrow := rfl
@[simp] theorem State.setReg_flushes (s : State) (f : Regs → Regs) : (s.setReg f).flushes = s.flushes := rfl
@[simp] theorem State.setReg_poison (s : State) (f : Regs → Regs) : (s.setReg f).poison = s.poison := rfl
@[simp] theorem State.setReg_ctl (s : State) (f : Regs → Regs) : (s.setReg f).ctl = s.ctl := rfl
@[simp] theorem State.setReg_bar4 (s : State) (f : Regs → Regs) : (s.setReg f).bar4 = s.bar4 := rfl
@[simp] theorem State.setReg_msix (s : State) (f : Regs → Regs) : (s.setReg f).msix = s.msix := rfl
@[simp] theorem State.setReg_clusters (s : State) (f : Regs → Regs) : (s.setReg f).clusters = s.clusters := rfl
@[simp] theorem State.setReg_strings (s : State) (f : Regs → Regs) : (s.setReg f).strings = s.strings := rfl
@[simp] theorem State.setReg_cores (s : State) (f : Regs → Regs) : (s.setReg f).cores = s.cores := rfl
@[simp] theorem State.setReg_dies (s : State) (f : Regs → Regs) : (s.setReg f).dies = s.dies := rfl
@[simp] theorem State.setReg_pkgs (s : State) (f : Regs → Regs) : (s.setReg f).pkgs = s.pkgs := rfl
@[simp] theorem State.setReg_packages (s : State) (f : Regs → Regs) : (s.setReg f).packages = s.packages := rfl
@[simp] theorem State.setReg_launches (s : State) (f : Regs → Regs) : (s.setReg f).launches = s.launches := rfl
@[simp] theorem State.setReg_attached (s : State) (f : Regs → Regs) : (s.setReg f).attached = s.attached := rfl
@[simp] theorem State.setReg_unmarked (s : State) (f : Regs → Regs) : (s.setReg f).unmarked = s.unmarked := rfl
@[simp] theorem State.setReg_nodes (s : State) (f : Regs → Regs) : (s.setReg f).nodes = s.nodes := rfl
@[simp] theorem State.setReg_ferry (s : State) (f : Regs → Regs) : (s.setReg f).ferry = s.ferry := rfl
@[simp] theorem State.setReg_net (s : State) (f : Regs → Regs) : (s.setReg f).net = s.net := rfl
@[simp] theorem State.setReg_caps (s : State) (f : Regs → Regs) : (s.setReg f).caps = s.caps := rfl
@[simp] theorem State.setReg_capbase (s : State) (f : Regs → Regs) : (s.setReg f).capbase = s.capbase := rfl
@[simp] theorem State.setReg_capAt (s : State) (f : Regs → Regs) : (s.setReg f).capAt = s.capAt := rfl
@[simp] theorem State.setReg_evcidx (s : State) (f : Regs → Regs) : (s.setReg f).evcidx = s.evcidx := rfl
@[simp] theorem State.setReg_accounts (s : State) (f : Regs → Regs) : (s.setReg f).accounts = s.accounts := rfl
@[simp] theorem State.setReg_touches (s : State) (f : Regs → Regs) : (s.setReg f).touches = s.touches := rfl
@[simp] theorem State.setReg_objects (s : State) (f : Regs → Regs) : (s.setReg f).objects = s.objects := rfl
@[simp] theorem State.setReg_atelier (s : State) (f : Regs → Regs) : (s.setReg f).atelier = s.atelier := rfl
@[simp] theorem State.setReg_host (s : State) (f : Regs → Regs) : (s.setReg f).host = s.host := rfl
@[simp] theorem State.setReg_links (s : State) (f : Regs → Regs) : (s.setReg f).links = s.links := rfl
@[simp] theorem State.setReg_routes (s : State) (f : Regs → Regs) : (s.setReg f).routes = s.routes := rfl
@[simp] theorem State.setReg_lost (s : State) (f : Regs → Regs) : (s.setReg f).lost = s.lost := rfl
/-! State.setCluster. -/

@[simp] theorem State.setCluster_cur (s : State) (c : Nat) (v : Cluster) : (s.setCluster c v).cur = s.cur := rfl
@[simp] theorem State.setCluster_others (s : State) (c : Nat) (v : Cluster) :
    (s.setCluster c v).others = s.others := rfl
@[simp] theorem State.setCluster_agenda (s : State) (c : Nat) (v : Cluster) :
    (s.setCluster c v).agenda = s.agenda := rfl
@[simp] theorem State.setCluster_turns (s : State) (c : Nat) (v : Cluster) : (s.setCluster c v).turns = s.turns := rfl
@[simp] theorem State.setCluster_now (s : State) (c : Nat) (v : Cluster) : (s.setCluster c v).now = s.now := rfl
@[simp] theorem State.setCluster_resetAt (s : State) (c : Nat) (v : Cluster) :
    (s.setCluster c v).resetAt = s.resetAt := rfl
@[simp] theorem State.setCluster_freeAt (s : State) (c : Nat) (v : Cluster) :
    (s.setCluster c v).freeAt = s.freeAt := rfl
@[simp] theorem State.setCluster_nextUid (s : State) (c : Nat) (v : Cluster) :
    (s.setCluster c v).nextUid = s.nextUid := rfl
@[simp] theorem State.setCluster_nextGen (s : State) (c : Nat) (v : Cluster) :
    (s.setCluster c v).nextGen = s.nextGen := rfl
@[simp] theorem State.setCluster_lastLaunch (s : State) (c : Nat) (v : Cluster) :
    (s.setCluster c v).lastLaunch = s.lastLaunch := rfl
@[simp] theorem State.setCluster_judged (s : State) (c : Nat) (v : Cluster) :
    (s.setCluster c v).judged = s.judged := rfl
@[simp] theorem State.setCluster_mem (s : State) (c : Nat) (v : Cluster) : (s.setCluster c v).mem = s.mem := rfl
@[simp] theorem State.setCluster_history (s : State) (c : Nat) (v : Cluster) :
    (s.setCluster c v).history = s.history := rfl
@[simp] theorem State.setCluster_promised (s : State) (c : Nat) (v : Cluster) :
    (s.setCluster c v).promised = s.promised := rfl
@[simp] theorem State.setCluster_broken (s : State) (c : Nat) (v : Cluster) :
    (s.setCluster c v).broken = s.broken := rfl
@[simp] theorem State.setCluster_narrow (s : State) (c : Nat) (v : Cluster) :
    (s.setCluster c v).narrow = s.narrow := rfl
@[simp] theorem State.setCluster_flushes (s : State) (c : Nat) (v : Cluster) :
    (s.setCluster c v).flushes = s.flushes := rfl
@[simp] theorem State.setCluster_poison (s : State) (c : Nat) (v : Cluster) :
    (s.setCluster c v).poison = s.poison := rfl
@[simp] theorem State.setCluster_ctl (s : State) (c : Nat) (v : Cluster) : (s.setCluster c v).ctl = s.ctl := rfl
@[simp] theorem State.setCluster_bar4 (s : State) (c : Nat) (v : Cluster) : (s.setCluster c v).bar4 = s.bar4 := rfl
@[simp] theorem State.setCluster_msix (s : State) (c : Nat) (v : Cluster) : (s.setCluster c v).msix = s.msix := rfl
@[simp] theorem State.setCluster_clusters (s : State) (c : Nat) (v : Cluster) :
    (s.setCluster c v).clusters = tabPut s.clusters c v := rfl
@[simp] theorem State.setCluster_strings (s : State) (c : Nat) (v : Cluster) :
    (s.setCluster c v).strings = s.strings := rfl
@[simp] theorem State.setCluster_cores (s : State) (c : Nat) (v : Cluster) : (s.setCluster c v).cores = s.cores := rfl
@[simp] theorem State.setCluster_dies (s : State) (c : Nat) (v : Cluster) : (s.setCluster c v).dies = s.dies := rfl
@[simp] theorem State.setCluster_pkgs (s : State) (c : Nat) (v : Cluster) : (s.setCluster c v).pkgs = s.pkgs := rfl
@[simp] theorem State.setCluster_packages (s : State) (c : Nat) (v : Cluster) :
    (s.setCluster c v).packages = s.packages := rfl
@[simp] theorem State.setCluster_launches (s : State) (c : Nat) (v : Cluster) :
    (s.setCluster c v).launches = s.launches := rfl
@[simp] theorem State.setCluster_attached (s : State) (c : Nat) (v : Cluster) :
    (s.setCluster c v).attached = s.attached := rfl
@[simp] theorem State.setCluster_unmarked (s : State) (c : Nat) (v : Cluster) :
    (s.setCluster c v).unmarked = s.unmarked := rfl
@[simp] theorem State.setCluster_nodes (s : State) (c : Nat) (v : Cluster) : (s.setCluster c v).nodes = s.nodes := rfl
@[simp] theorem State.setCluster_ferry (s : State) (c : Nat) (v : Cluster) : (s.setCluster c v).ferry = s.ferry := rfl
@[simp] theorem State.setCluster_net (s : State) (c : Nat) (v : Cluster) : (s.setCluster c v).net = s.net := rfl
@[simp] theorem State.setCluster_caps (s : State) (c : Nat) (v : Cluster) : (s.setCluster c v).caps = s.caps := rfl
@[simp] theorem State.setCluster_capbase (s : State) (c : Nat) (v : Cluster) :
    (s.setCluster c v).capbase = s.capbase := rfl
@[simp] theorem State.setCluster_capAt (s : State) (c : Nat) (v : Cluster) : (s.setCluster c v).capAt = s.capAt := rfl
@[simp] theorem State.setCluster_evcidx (s : State) (c : Nat) (v : Cluster) :
    (s.setCluster c v).evcidx = s.evcidx := rfl
@[simp] theorem State.setCluster_accounts (s : State) (c : Nat) (v : Cluster) :
    (s.setCluster c v).accounts = s.accounts := rfl
@[simp] theorem State.setCluster_touches (s : State) (c : Nat) (v : Cluster) :
    (s.setCluster c v).touches = s.touches := rfl
@[simp] theorem State.setCluster_objects (s : State) (c : Nat) (v : Cluster) :
    (s.setCluster c v).objects = s.objects := rfl
@[simp] theorem State.setCluster_atelier (s : State) (c : Nat) (v : Cluster) :
    (s.setCluster c v).atelier = s.atelier := rfl
@[simp] theorem State.setCluster_host (s : State) (c : Nat) (v : Cluster) : (s.setCluster c v).host = s.host := rfl
@[simp] theorem State.setCluster_links (s : State) (c : Nat) (v : Cluster) : (s.setCluster c v).links = s.links := rfl
@[simp] theorem State.setCluster_routes (s : State) (c : Nat) (v : Cluster) :
    (s.setCluster c v).routes = s.routes := rfl
@[simp] theorem State.setCluster_lost (s : State) (c : Nat) (v : Cluster) : (s.setCluster c v).lost = s.lost := rfl
/-! State.setString. -/

@[simp] theorem State.setString_cur (s : State) (c : Nat) (v : StringSt) : (s.setString c v).cur = s.cur := rfl
@[simp] theorem State.setString_others (s : State) (c : Nat) (v : StringSt) :
    (s.setString c v).others = s.others := rfl
@[simp] theorem State.setString_agenda (s : State) (c : Nat) (v : StringSt) :
    (s.setString c v).agenda = s.agenda := rfl
@[simp] theorem State.setString_turns (s : State) (c : Nat) (v : StringSt) : (s.setString c v).turns = s.turns := rfl
@[simp] theorem State.setString_now (s : State) (c : Nat) (v : StringSt) : (s.setString c v).now = s.now := rfl
@[simp] theorem State.setString_resetAt (s : State) (c : Nat) (v : StringSt) :
    (s.setString c v).resetAt = s.resetAt := rfl
@[simp] theorem State.setString_freeAt (s : State) (c : Nat) (v : StringSt) :
    (s.setString c v).freeAt = s.freeAt := rfl
@[simp] theorem State.setString_nextUid (s : State) (c : Nat) (v : StringSt) :
    (s.setString c v).nextUid = s.nextUid := rfl
@[simp] theorem State.setString_nextGen (s : State) (c : Nat) (v : StringSt) :
    (s.setString c v).nextGen = s.nextGen := rfl
@[simp] theorem State.setString_lastLaunch (s : State) (c : Nat) (v : StringSt) :
    (s.setString c v).lastLaunch = s.lastLaunch := rfl
@[simp] theorem State.setString_judged (s : State) (c : Nat) (v : StringSt) :
    (s.setString c v).judged = s.judged := rfl
@[simp] theorem State.setString_mem (s : State) (c : Nat) (v : StringSt) : (s.setString c v).mem = s.mem := rfl
@[simp] theorem State.setString_history (s : State) (c : Nat) (v : StringSt) :
    (s.setString c v).history = s.history := rfl
@[simp] theorem State.setString_promised (s : State) (c : Nat) (v : StringSt) :
    (s.setString c v).promised = s.promised := rfl
@[simp] theorem State.setString_broken (s : State) (c : Nat) (v : StringSt) :
    (s.setString c v).broken = s.broken := rfl
@[simp] theorem State.setString_narrow (s : State) (c : Nat) (v : StringSt) :
    (s.setString c v).narrow = s.narrow := rfl
@[simp] theorem State.setString_flushes (s : State) (c : Nat) (v : StringSt) :
    (s.setString c v).flushes = s.flushes := rfl
@[simp] theorem State.setString_poison (s : State) (c : Nat) (v : StringSt) :
    (s.setString c v).poison = s.poison := rfl
@[simp] theorem State.setString_ctl (s : State) (c : Nat) (v : StringSt) : (s.setString c v).ctl = s.ctl := rfl
@[simp] theorem State.setString_bar4 (s : State) (c : Nat) (v : StringSt) : (s.setString c v).bar4 = s.bar4 := rfl
@[simp] theorem State.setString_msix (s : State) (c : Nat) (v : StringSt) : (s.setString c v).msix = s.msix := rfl
@[simp] theorem State.setString_clusters (s : State) (c : Nat) (v : StringSt) :
    (s.setString c v).clusters = s.clusters := rfl
@[simp] theorem State.setString_strings (s : State) (c : Nat) (v : StringSt) :
    (s.setString c v).strings = tabPut s.strings c v := rfl
@[simp] theorem State.setString_cores (s : State) (c : Nat) (v : StringSt) : (s.setString c v).cores = s.cores := rfl
@[simp] theorem State.setString_dies (s : State) (c : Nat) (v : StringSt) : (s.setString c v).dies = s.dies := rfl
@[simp] theorem State.setString_pkgs (s : State) (c : Nat) (v : StringSt) : (s.setString c v).pkgs = s.pkgs := rfl
@[simp] theorem State.setString_packages (s : State) (c : Nat) (v : StringSt) :
    (s.setString c v).packages = s.packages := rfl
@[simp] theorem State.setString_launches (s : State) (c : Nat) (v : StringSt) :
    (s.setString c v).launches = s.launches := rfl
@[simp] theorem State.setString_attached (s : State) (c : Nat) (v : StringSt) :
    (s.setString c v).attached = s.attached := rfl
@[simp] theorem State.setString_unmarked (s : State) (c : Nat) (v : StringSt) :
    (s.setString c v).unmarked = s.unmarked := rfl
@[simp] theorem State.setString_nodes (s : State) (c : Nat) (v : StringSt) : (s.setString c v).nodes = s.nodes := rfl
@[simp] theorem State.setString_ferry (s : State) (c : Nat) (v : StringSt) : (s.setString c v).ferry = s.ferry := rfl
@[simp] theorem State.setString_net (s : State) (c : Nat) (v : StringSt) : (s.setString c v).net = s.net := rfl
@[simp] theorem State.setString_caps (s : State) (c : Nat) (v : StringSt) : (s.setString c v).caps = s.caps := rfl
@[simp] theorem State.setString_capbase (s : State) (c : Nat) (v : StringSt) :
    (s.setString c v).capbase = s.capbase := rfl
@[simp] theorem State.setString_capAt (s : State) (c : Nat) (v : StringSt) : (s.setString c v).capAt = s.capAt := rfl
@[simp] theorem State.setString_evcidx (s : State) (c : Nat) (v : StringSt) :
    (s.setString c v).evcidx = s.evcidx := rfl
@[simp] theorem State.setString_accounts (s : State) (c : Nat) (v : StringSt) :
    (s.setString c v).accounts = s.accounts := rfl
@[simp] theorem State.setString_touches (s : State) (c : Nat) (v : StringSt) :
    (s.setString c v).touches = s.touches := rfl
@[simp] theorem State.setString_objects (s : State) (c : Nat) (v : StringSt) :
    (s.setString c v).objects = s.objects := rfl
@[simp] theorem State.setString_atelier (s : State) (c : Nat) (v : StringSt) :
    (s.setString c v).atelier = s.atelier := rfl
@[simp] theorem State.setString_host (s : State) (c : Nat) (v : StringSt) : (s.setString c v).host = s.host := rfl
@[simp] theorem State.setString_links (s : State) (c : Nat) (v : StringSt) : (s.setString c v).links = s.links := rfl
@[simp] theorem State.setString_routes (s : State) (c : Nat) (v : StringSt) :
    (s.setString c v).routes = s.routes := rfl
@[simp] theorem State.setString_lost (s : State) (c : Nat) (v : StringSt) : (s.setString c v).lost = s.lost := rfl
/-! State.setCore. -/

@[simp] theorem State.setCore_cur (s : State) (c : Nat) (v : CoreSt) : (s.setCore c v).cur = s.cur := rfl
@[simp] theorem State.setCore_others (s : State) (c : Nat) (v : CoreSt) : (s.setCore c v).others = s.others := rfl
@[simp] theorem State.setCore_agenda (s : State) (c : Nat) (v : CoreSt) : (s.setCore c v).agenda = s.agenda := rfl
@[simp] theorem State.setCore_turns (s : State) (c : Nat) (v : CoreSt) : (s.setCore c v).turns = s.turns := rfl
@[simp] theorem State.setCore_now (s : State) (c : Nat) (v : CoreSt) : (s.setCore c v).now = s.now := rfl
@[simp] theorem State.setCore_resetAt (s : State) (c : Nat) (v : CoreSt) : (s.setCore c v).resetAt = s.resetAt := rfl
@[simp] theorem State.setCore_freeAt (s : State) (c : Nat) (v : CoreSt) : (s.setCore c v).freeAt = s.freeAt := rfl
@[simp] theorem State.setCore_nextUid (s : State) (c : Nat) (v : CoreSt) : (s.setCore c v).nextUid = s.nextUid := rfl
@[simp] theorem State.setCore_nextGen (s : State) (c : Nat) (v : CoreSt) : (s.setCore c v).nextGen = s.nextGen := rfl
@[simp] theorem State.setCore_lastLaunch (s : State) (c : Nat) (v : CoreSt) :
    (s.setCore c v).lastLaunch = s.lastLaunch := rfl
@[simp] theorem State.setCore_judged (s : State) (c : Nat) (v : CoreSt) : (s.setCore c v).judged = s.judged := rfl
@[simp] theorem State.setCore_mem (s : State) (c : Nat) (v : CoreSt) : (s.setCore c v).mem = s.mem := rfl
@[simp] theorem State.setCore_history (s : State) (c : Nat) (v : CoreSt) : (s.setCore c v).history = s.history := rfl
@[simp] theorem State.setCore_promised (s : State) (c : Nat) (v : CoreSt) :
    (s.setCore c v).promised = s.promised := rfl
@[simp] theorem State.setCore_broken (s : State) (c : Nat) (v : CoreSt) : (s.setCore c v).broken = s.broken := rfl
@[simp] theorem State.setCore_narrow (s : State) (c : Nat) (v : CoreSt) : (s.setCore c v).narrow = s.narrow := rfl
@[simp] theorem State.setCore_flushes (s : State) (c : Nat) (v : CoreSt) : (s.setCore c v).flushes = s.flushes := rfl
@[simp] theorem State.setCore_poison (s : State) (c : Nat) (v : CoreSt) : (s.setCore c v).poison = s.poison := rfl
@[simp] theorem State.setCore_ctl (s : State) (c : Nat) (v : CoreSt) : (s.setCore c v).ctl = s.ctl := rfl
@[simp] theorem State.setCore_bar4 (s : State) (c : Nat) (v : CoreSt) : (s.setCore c v).bar4 = s.bar4 := rfl
@[simp] theorem State.setCore_msix (s : State) (c : Nat) (v : CoreSt) : (s.setCore c v).msix = s.msix := rfl
@[simp] theorem State.setCore_clusters (s : State) (c : Nat) (v : CoreSt) :
    (s.setCore c v).clusters = s.clusters := rfl
@[simp] theorem State.setCore_strings (s : State) (c : Nat) (v : CoreSt) : (s.setCore c v).strings = s.strings := rfl
@[simp] theorem State.setCore_cores (s : State) (c : Nat) (v : CoreSt) :
    (s.setCore c v).cores = tabPut s.cores c v := rfl
@[simp] theorem State.setCore_dies (s : State) (c : Nat) (v : CoreSt) : (s.setCore c v).dies = s.dies := rfl
@[simp] theorem State.setCore_pkgs (s : State) (c : Nat) (v : CoreSt) : (s.setCore c v).pkgs = s.pkgs := rfl
@[simp] theorem State.setCore_packages (s : State) (c : Nat) (v : CoreSt) :
    (s.setCore c v).packages = s.packages := rfl
@[simp] theorem State.setCore_launches (s : State) (c : Nat) (v : CoreSt) :
    (s.setCore c v).launches = s.launches := rfl
@[simp] theorem State.setCore_attached (s : State) (c : Nat) (v : CoreSt) :
    (s.setCore c v).attached = s.attached := rfl
@[simp] theorem State.setCore_unmarked (s : State) (c : Nat) (v : CoreSt) :
    (s.setCore c v).unmarked = s.unmarked := rfl
@[simp] theorem State.setCore_nodes (s : State) (c : Nat) (v : CoreSt) : (s.setCore c v).nodes = s.nodes := rfl
@[simp] theorem State.setCore_ferry (s : State) (c : Nat) (v : CoreSt) : (s.setCore c v).ferry = s.ferry := rfl
@[simp] theorem State.setCore_net (s : State) (c : Nat) (v : CoreSt) : (s.setCore c v).net = s.net := rfl
@[simp] theorem State.setCore_caps (s : State) (c : Nat) (v : CoreSt) : (s.setCore c v).caps = s.caps := rfl
@[simp] theorem State.setCore_capbase (s : State) (c : Nat) (v : CoreSt) : (s.setCore c v).capbase = s.capbase := rfl
@[simp] theorem State.setCore_capAt (s : State) (c : Nat) (v : CoreSt) : (s.setCore c v).capAt = s.capAt := rfl
@[simp] theorem State.setCore_evcidx (s : State) (c : Nat) (v : CoreSt) : (s.setCore c v).evcidx = s.evcidx := rfl
@[simp] theorem State.setCore_accounts (s : State) (c : Nat) (v : CoreSt) :
    (s.setCore c v).accounts = s.accounts := rfl
@[simp] theorem State.setCore_touches (s : State) (c : Nat) (v : CoreSt) : (s.setCore c v).touches = s.touches := rfl
@[simp] theorem State.setCore_objects (s : State) (c : Nat) (v : CoreSt) : (s.setCore c v).objects = s.objects := rfl
@[simp] theorem State.setCore_atelier (s : State) (c : Nat) (v : CoreSt) : (s.setCore c v).atelier = s.atelier := rfl
@[simp] theorem State.setCore_host (s : State) (c : Nat) (v : CoreSt) : (s.setCore c v).host = s.host := rfl
@[simp] theorem State.setCore_links (s : State) (c : Nat) (v : CoreSt) : (s.setCore c v).links = s.links := rfl
@[simp] theorem State.setCore_routes (s : State) (c : Nat) (v : CoreSt) : (s.setCore c v).routes = s.routes := rfl
@[simp] theorem State.setCore_lost (s : State) (c : Nat) (v : CoreSt) : (s.setCore c v).lost = s.lost := rfl
/-! State.setDie. -/

@[simp] theorem State.setDie_cur (s : State) (d : Nat) (v : Die) : (s.setDie d v).cur = s.cur := rfl
@[simp] theorem State.setDie_others (s : State) (d : Nat) (v : Die) : (s.setDie d v).others = s.others := rfl
@[simp] theorem State.setDie_agenda (s : State) (d : Nat) (v : Die) : (s.setDie d v).agenda = s.agenda := rfl
@[simp] theorem State.setDie_turns (s : State) (d : Nat) (v : Die) : (s.setDie d v).turns = s.turns := rfl
@[simp] theorem State.setDie_now (s : State) (d : Nat) (v : Die) : (s.setDie d v).now = s.now := rfl
@[simp] theorem State.setDie_resetAt (s : State) (d : Nat) (v : Die) : (s.setDie d v).resetAt = s.resetAt := rfl
@[simp] theorem State.setDie_freeAt (s : State) (d : Nat) (v : Die) : (s.setDie d v).freeAt = s.freeAt := rfl
@[simp] theorem State.setDie_nextUid (s : State) (d : Nat) (v : Die) : (s.setDie d v).nextUid = s.nextUid := rfl
@[simp] theorem State.setDie_nextGen (s : State) (d : Nat) (v : Die) : (s.setDie d v).nextGen = s.nextGen := rfl
@[simp] theorem State.setDie_lastLaunch (s : State) (d : Nat) (v : Die) :
    (s.setDie d v).lastLaunch = s.lastLaunch := rfl
@[simp] theorem State.setDie_judged (s : State) (d : Nat) (v : Die) : (s.setDie d v).judged = s.judged := rfl
@[simp] theorem State.setDie_mem (s : State) (d : Nat) (v : Die) : (s.setDie d v).mem = s.mem := rfl
@[simp] theorem State.setDie_history (s : State) (d : Nat) (v : Die) : (s.setDie d v).history = s.history := rfl
@[simp] theorem State.setDie_promised (s : State) (d : Nat) (v : Die) : (s.setDie d v).promised = s.promised := rfl
@[simp] theorem State.setDie_broken (s : State) (d : Nat) (v : Die) : (s.setDie d v).broken = s.broken := rfl
@[simp] theorem State.setDie_narrow (s : State) (d : Nat) (v : Die) : (s.setDie d v).narrow = s.narrow := rfl
@[simp] theorem State.setDie_flushes (s : State) (d : Nat) (v : Die) : (s.setDie d v).flushes = s.flushes := rfl
@[simp] theorem State.setDie_poison (s : State) (d : Nat) (v : Die) : (s.setDie d v).poison = s.poison := rfl
@[simp] theorem State.setDie_ctl (s : State) (d : Nat) (v : Die) : (s.setDie d v).ctl = s.ctl := rfl
@[simp] theorem State.setDie_bar4 (s : State) (d : Nat) (v : Die) : (s.setDie d v).bar4 = s.bar4 := rfl
@[simp] theorem State.setDie_msix (s : State) (d : Nat) (v : Die) : (s.setDie d v).msix = s.msix := rfl
@[simp] theorem State.setDie_clusters (s : State) (d : Nat) (v : Die) : (s.setDie d v).clusters = s.clusters := rfl
@[simp] theorem State.setDie_strings (s : State) (d : Nat) (v : Die) : (s.setDie d v).strings = s.strings := rfl
@[simp] theorem State.setDie_cores (s : State) (d : Nat) (v : Die) : (s.setDie d v).cores = s.cores := rfl
@[simp] theorem State.setDie_dies (s : State) (d : Nat) (v : Die) : (s.setDie d v).dies = tabPut s.dies d v := rfl
@[simp] theorem State.setDie_pkgs (s : State) (d : Nat) (v : Die) : (s.setDie d v).pkgs = s.pkgs := rfl
@[simp] theorem State.setDie_packages (s : State) (d : Nat) (v : Die) : (s.setDie d v).packages = s.packages := rfl
@[simp] theorem State.setDie_launches (s : State) (d : Nat) (v : Die) : (s.setDie d v).launches = s.launches := rfl
@[simp] theorem State.setDie_attached (s : State) (d : Nat) (v : Die) : (s.setDie d v).attached = s.attached := rfl
@[simp] theorem State.setDie_unmarked (s : State) (d : Nat) (v : Die) : (s.setDie d v).unmarked = s.unmarked := rfl
@[simp] theorem State.setDie_nodes (s : State) (d : Nat) (v : Die) : (s.setDie d v).nodes = s.nodes := rfl
@[simp] theorem State.setDie_ferry (s : State) (d : Nat) (v : Die) : (s.setDie d v).ferry = s.ferry := rfl
@[simp] theorem State.setDie_net (s : State) (d : Nat) (v : Die) : (s.setDie d v).net = s.net := rfl
@[simp] theorem State.setDie_caps (s : State) (d : Nat) (v : Die) : (s.setDie d v).caps = s.caps := rfl
@[simp] theorem State.setDie_capbase (s : State) (d : Nat) (v : Die) : (s.setDie d v).capbase = s.capbase := rfl
@[simp] theorem State.setDie_capAt (s : State) (d : Nat) (v : Die) : (s.setDie d v).capAt = s.capAt := rfl
@[simp] theorem State.setDie_evcidx (s : State) (d : Nat) (v : Die) : (s.setDie d v).evcidx = s.evcidx := rfl
@[simp] theorem State.setDie_accounts (s : State) (d : Nat) (v : Die) : (s.setDie d v).accounts = s.accounts := rfl
@[simp] theorem State.setDie_touches (s : State) (d : Nat) (v : Die) : (s.setDie d v).touches = s.touches := rfl
@[simp] theorem State.setDie_objects (s : State) (d : Nat) (v : Die) : (s.setDie d v).objects = s.objects := rfl
@[simp] theorem State.setDie_atelier (s : State) (d : Nat) (v : Die) : (s.setDie d v).atelier = s.atelier := rfl
@[simp] theorem State.setDie_host (s : State) (d : Nat) (v : Die) : (s.setDie d v).host = s.host := rfl
@[simp] theorem State.setDie_links (s : State) (d : Nat) (v : Die) : (s.setDie d v).links = s.links := rfl
@[simp] theorem State.setDie_routes (s : State) (d : Nat) (v : Die) : (s.setDie d v).routes = s.routes := rfl
@[simp] theorem State.setDie_lost (s : State) (d : Nat) (v : Die) : (s.setDie d v).lost = s.lost := rfl
/-! State.ctlSet. -/

@[simp] theorem State.ctlSet_cur (s : State) (d o : Nat) (w : Word) : (s.ctlSet d o w).cur = s.cur := rfl
@[simp] theorem State.ctlSet_others (s : State) (d o : Nat) (w : Word) : (s.ctlSet d o w).others = s.others := rfl
@[simp] theorem State.ctlSet_agenda (s : State) (d o : Nat) (w : Word) : (s.ctlSet d o w).agenda = s.agenda := rfl
@[simp] theorem State.ctlSet_turns (s : State) (d o : Nat) (w : Word) : (s.ctlSet d o w).turns = s.turns := rfl
@[simp] theorem State.ctlSet_now (s : State) (d o : Nat) (w : Word) : (s.ctlSet d o w).now = s.now := rfl
@[simp] theorem State.ctlSet_resetAt (s : State) (d o : Nat) (w : Word) : (s.ctlSet d o w).resetAt = s.resetAt := rfl
@[simp] theorem State.ctlSet_freeAt (s : State) (d o : Nat) (w : Word) : (s.ctlSet d o w).freeAt = s.freeAt := rfl
@[simp] theorem State.ctlSet_nextUid (s : State) (d o : Nat) (w : Word) : (s.ctlSet d o w).nextUid = s.nextUid := rfl
@[simp] theorem State.ctlSet_nextGen (s : State) (d o : Nat) (w : Word) : (s.ctlSet d o w).nextGen = s.nextGen := rfl
@[simp] theorem State.ctlSet_lastLaunch (s : State) (d o : Nat) (w : Word) :
    (s.ctlSet d o w).lastLaunch = s.lastLaunch := rfl
@[simp] theorem State.ctlSet_judged (s : State) (d o : Nat) (w : Word) : (s.ctlSet d o w).judged = s.judged := rfl
@[simp] theorem State.ctlSet_mem (s : State) (d o : Nat) (w : Word) : (s.ctlSet d o w).mem = s.mem := rfl
@[simp] theorem State.ctlSet_history (s : State) (d o : Nat) (w : Word) : (s.ctlSet d o w).history = s.history := rfl
@[simp] theorem State.ctlSet_promised (s : State) (d o : Nat) (w : Word) :
    (s.ctlSet d o w).promised = s.promised := rfl
@[simp] theorem State.ctlSet_broken (s : State) (d o : Nat) (w : Word) : (s.ctlSet d o w).broken = s.broken := rfl
@[simp] theorem State.ctlSet_narrow (s : State) (d o : Nat) (w : Word) : (s.ctlSet d o w).narrow = s.narrow := rfl
@[simp] theorem State.ctlSet_flushes (s : State) (d o : Nat) (w : Word) : (s.ctlSet d o w).flushes = s.flushes := rfl
@[simp] theorem State.ctlSet_poison (s : State) (d o : Nat) (w : Word) : (s.ctlSet d o w).poison = s.poison := rfl
@[simp] theorem State.ctlSet_ctl (s : State) (d o : Nat) (w : Word) :
    (s.ctlSet d o w).ctl = tabPut s.ctl (ctlKey d o) w := rfl
@[simp] theorem State.ctlSet_bar4 (s : State) (d o : Nat) (w : Word) : (s.ctlSet d o w).bar4 = s.bar4 := rfl
@[simp] theorem State.ctlSet_msix (s : State) (d o : Nat) (w : Word) : (s.ctlSet d o w).msix = s.msix := rfl
@[simp] theorem State.ctlSet_clusters (s : State) (d o : Nat) (w : Word) :
    (s.ctlSet d o w).clusters = s.clusters := rfl
@[simp] theorem State.ctlSet_strings (s : State) (d o : Nat) (w : Word) : (s.ctlSet d o w).strings = s.strings := rfl
@[simp] theorem State.ctlSet_cores (s : State) (d o : Nat) (w : Word) : (s.ctlSet d o w).cores = s.cores := rfl
@[simp] theorem State.ctlSet_dies (s : State) (d o : Nat) (w : Word) : (s.ctlSet d o w).dies = s.dies := rfl
@[simp] theorem State.ctlSet_pkgs (s : State) (d o : Nat) (w : Word) : (s.ctlSet d o w).pkgs = s.pkgs := rfl
@[simp] theorem State.ctlSet_packages (s : State) (d o : Nat) (w : Word) :
    (s.ctlSet d o w).packages = s.packages := rfl
@[simp] theorem State.ctlSet_launches (s : State) (d o : Nat) (w : Word) :
    (s.ctlSet d o w).launches = s.launches := rfl
@[simp] theorem State.ctlSet_attached (s : State) (d o : Nat) (w : Word) :
    (s.ctlSet d o w).attached = s.attached := rfl
@[simp] theorem State.ctlSet_unmarked (s : State) (d o : Nat) (w : Word) :
    (s.ctlSet d o w).unmarked = s.unmarked := rfl
@[simp] theorem State.ctlSet_nodes (s : State) (d o : Nat) (w : Word) : (s.ctlSet d o w).nodes = s.nodes := rfl
@[simp] theorem State.ctlSet_ferry (s : State) (d o : Nat) (w : Word) : (s.ctlSet d o w).ferry = s.ferry := rfl
@[simp] theorem State.ctlSet_net (s : State) (d o : Nat) (w : Word) : (s.ctlSet d o w).net = s.net := rfl
@[simp] theorem State.ctlSet_caps (s : State) (d o : Nat) (w : Word) : (s.ctlSet d o w).caps = s.caps := rfl
@[simp] theorem State.ctlSet_capbase (s : State) (d o : Nat) (w : Word) : (s.ctlSet d o w).capbase = s.capbase := rfl
@[simp] theorem State.ctlSet_capAt (s : State) (d o : Nat) (w : Word) : (s.ctlSet d o w).capAt = s.capAt := rfl
@[simp] theorem State.ctlSet_evcidx (s : State) (d o : Nat) (w : Word) : (s.ctlSet d o w).evcidx = s.evcidx := rfl
@[simp] theorem State.ctlSet_accounts (s : State) (d o : Nat) (w : Word) :
    (s.ctlSet d o w).accounts = s.accounts := rfl
@[simp] theorem State.ctlSet_touches (s : State) (d o : Nat) (w : Word) : (s.ctlSet d o w).touches = s.touches := rfl
@[simp] theorem State.ctlSet_objects (s : State) (d o : Nat) (w : Word) : (s.ctlSet d o w).objects = s.objects := rfl
@[simp] theorem State.ctlSet_atelier (s : State) (d o : Nat) (w : Word) : (s.ctlSet d o w).atelier = s.atelier := rfl
@[simp] theorem State.ctlSet_host (s : State) (d o : Nat) (w : Word) : (s.ctlSet d o w).host = s.host := rfl
@[simp] theorem State.ctlSet_links (s : State) (d o : Nat) (w : Word) : (s.ctlSet d o w).links = s.links := rfl
@[simp] theorem State.ctlSet_routes (s : State) (d o : Nat) (w : Word) : (s.ctlSet d o w).routes = s.routes := rfl
@[simp] theorem State.ctlSet_lost (s : State) (d o : Nat) (w : Word) : (s.ctlSet d o w).lost = s.lost := rfl
/-! State.putBytes. -/

@[simp] theorem State.putBytes_cur (s : State) (l : Nat) (bs : List Byte) : (s.putBytes l bs).cur = s.cur := rfl
@[simp] theorem State.putBytes_others (s : State) (l : Nat) (bs : List Byte) :
    (s.putBytes l bs).others = s.others := rfl
@[simp] theorem State.putBytes_agenda (s : State) (l : Nat) (bs : List Byte) :
    (s.putBytes l bs).agenda = s.agenda := rfl
@[simp] theorem State.putBytes_turns (s : State) (l : Nat) (bs : List Byte) : (s.putBytes l bs).turns = s.turns := rfl
@[simp] theorem State.putBytes_now (s : State) (l : Nat) (bs : List Byte) : (s.putBytes l bs).now = s.now := rfl
@[simp] theorem State.putBytes_resetAt (s : State) (l : Nat) (bs : List Byte) :
    (s.putBytes l bs).resetAt = s.resetAt := rfl
@[simp] theorem State.putBytes_freeAt (s : State) (l : Nat) (bs : List Byte) :
    (s.putBytes l bs).freeAt = s.freeAt := rfl
@[simp] theorem State.putBytes_nextUid (s : State) (l : Nat) (bs : List Byte) :
    (s.putBytes l bs).nextUid = s.nextUid := rfl
@[simp] theorem State.putBytes_nextGen (s : State) (l : Nat) (bs : List Byte) :
    (s.putBytes l bs).nextGen = s.nextGen := rfl
@[simp] theorem State.putBytes_lastLaunch (s : State) (l : Nat) (bs : List Byte) :
    (s.putBytes l bs).lastLaunch = s.lastLaunch := rfl
@[simp] theorem State.putBytes_judged (s : State) (l : Nat) (bs : List Byte) :
    (s.putBytes l bs).judged = s.judged := rfl
@[simp] theorem State.putBytes_mem (s : State) (l : Nat) (bs : List Byte) :
    (s.putBytes l bs).mem = cellsSet s.mem l bs := rfl
@[simp] theorem State.putBytes_history (s : State) (l : Nat) (bs : List Byte) :
    (s.putBytes l bs).history = ⟨s.now, Writer.agent 0, l, cellsGet s.mem l bs.length, bs⟩ :: s.history := rfl
@[simp] theorem State.putBytes_promised (s : State) (l : Nat) (bs : List Byte) :
    (s.putBytes l bs).promised = s.promised := rfl
@[simp] theorem State.putBytes_broken (s : State) (l : Nat) (bs : List Byte) :
    (s.putBytes l bs).broken = (s.broken ++ s.promisesOn l bs.length).eraseDups := rfl
@[simp] theorem State.putBytes_narrow (s : State) (l : Nat) (bs : List Byte) :
    (s.putBytes l bs).narrow = s.narrow := rfl
@[simp] theorem State.putBytes_flushes (s : State) (l : Nat) (bs : List Byte) :
    (s.putBytes l bs).flushes = s.flushes := rfl
@[simp] theorem State.putBytes_poison (s : State) (l : Nat) (bs : List Byte) :
    (s.putBytes l bs).poison = poisonLeft s.poison l bs.length := rfl
@[simp] theorem State.putBytes_ctl (s : State) (l : Nat) (bs : List Byte) : (s.putBytes l bs).ctl = s.ctl := rfl
@[simp] theorem State.putBytes_bar4 (s : State) (l : Nat) (bs : List Byte) : (s.putBytes l bs).bar4 = s.bar4 := rfl
@[simp] theorem State.putBytes_msix (s : State) (l : Nat) (bs : List Byte) : (s.putBytes l bs).msix = s.msix := rfl
@[simp] theorem State.putBytes_clusters (s : State) (l : Nat) (bs : List Byte) :
    (s.putBytes l bs).clusters = s.clusters := rfl
@[simp] theorem State.putBytes_strings (s : State) (l : Nat) (bs : List Byte) :
    (s.putBytes l bs).strings = s.strings := rfl
@[simp] theorem State.putBytes_cores (s : State) (l : Nat) (bs : List Byte) : (s.putBytes l bs).cores = s.cores := rfl
@[simp] theorem State.putBytes_dies (s : State) (l : Nat) (bs : List Byte) : (s.putBytes l bs).dies = s.dies := rfl
@[simp] theorem State.putBytes_pkgs (s : State) (l : Nat) (bs : List Byte) : (s.putBytes l bs).pkgs = s.pkgs := rfl
@[simp] theorem State.putBytes_packages (s : State) (l : Nat) (bs : List Byte) :
    (s.putBytes l bs).packages = s.packages := rfl
@[simp] theorem State.putBytes_launches (s : State) (l : Nat) (bs : List Byte) :
    (s.putBytes l bs).launches = s.launches := rfl
@[simp] theorem State.putBytes_attached (s : State) (l : Nat) (bs : List Byte) :
    (s.putBytes l bs).attached = s.attached := rfl
@[simp] theorem State.putBytes_unmarked (s : State) (l : Nat) (bs : List Byte) :
    (s.putBytes l bs).unmarked = s.unmarked := rfl
@[simp] theorem State.putBytes_nodes (s : State) (l : Nat) (bs : List Byte) : (s.putBytes l bs).nodes = s.nodes := rfl
@[simp] theorem State.putBytes_ferry (s : State) (l : Nat) (bs : List Byte) : (s.putBytes l bs).ferry = s.ferry := rfl
@[simp] theorem State.putBytes_net (s : State) (l : Nat) (bs : List Byte) : (s.putBytes l bs).net = s.net := rfl
@[simp] theorem State.putBytes_caps (s : State) (l : Nat) (bs : List Byte) : (s.putBytes l bs).caps = s.caps := rfl
@[simp] theorem State.putBytes_capbase (s : State) (l : Nat) (bs : List Byte) :
    (s.putBytes l bs).capbase = s.capbase := rfl
@[simp] theorem State.putBytes_capAt (s : State) (l : Nat) (bs : List Byte) : (s.putBytes l bs).capAt = s.capAt := rfl
@[simp] theorem State.putBytes_evcidx (s : State) (l : Nat) (bs : List Byte) :
    (s.putBytes l bs).evcidx = s.evcidx := rfl
@[simp] theorem State.putBytes_accounts (s : State) (l : Nat) (bs : List Byte) :
    (s.putBytes l bs).accounts = s.accounts := rfl
@[simp] theorem State.putBytes_touches (s : State) (l : Nat) (bs : List Byte) :
    (s.putBytes l bs).touches = s.touches := rfl
@[simp] theorem State.putBytes_objects (s : State) (l : Nat) (bs : List Byte) :
    (s.putBytes l bs).objects = s.objects := rfl
@[simp] theorem State.putBytes_atelier (s : State) (l : Nat) (bs : List Byte) :
    (s.putBytes l bs).atelier = s.atelier := rfl
@[simp] theorem State.putBytes_host (s : State) (l : Nat) (bs : List Byte) : (s.putBytes l bs).host = s.host := rfl
@[simp] theorem State.putBytes_links (s : State) (l : Nat) (bs : List Byte) : (s.putBytes l bs).links = s.links := rfl
@[simp] theorem State.putBytes_routes (s : State) (l : Nat) (bs : List Byte) :
    (s.putBytes l bs).routes = s.routes := rfl
@[simp] theorem State.putBytes_lost (s : State) (l : Nat) (bs : List Byte) : (s.putBytes l bs).lost = s.lost := rfl
/-! Context.setPc. -/

@[simp] theorem Context.setPc_id (c : Context) (w : Word) : (c.setPc w).id = c.id := rfl
@[simp] theorem Context.setPc_job (c : Context) (w : Word) : (c.setPc w).job = c.job := rfl
@[simp] theorem Context.setPc_io (c : Context) (w : Word) : (c.setPc w).io = c.io := rfl
@[simp] theorem Context.setPc_order (c : Context) (w : Word) : (c.setPc w).order = c.order := rfl
@[simp] theorem Context.setPc_sync (c : Context) (w : Word) : (c.setPc w).sync = c.sync := rfl
@[simp] theorem Context.setPc_mail (c : Context) (w : Word) : (c.setPc w).mail = c.mail := rfl
@[simp] theorem Context.setPc_sched (c : Context) (w : Word) : (c.setPc w).sched = c.sched := rfl
@[simp] theorem Context.setPc_power (c : Context) (w : Word) : (c.setPc w).power = c.power := rfl
@[simp] theorem Context.setPc_bits (c : Context) (w : Word) : (c.setPc w).bits = c.bits := rfl
@[simp] theorem Context.setPc_long (c : Context) (w : Word) : (c.setPc w).long = c.long := rfl
@[simp] theorem Context.setPc_reg_pc (c : Context) (w : Word) : (c.setPc w).reg.pc = w := rfl
@[simp] theorem Context.setPc_reg_x (c : Context) (w : Word) : (c.setPc w).reg.x = c.reg.x := rfl
@[simp] theorem Context.setPc_reg_v (c : Context) (w : Word) : (c.setPc w).reg.v = c.reg.v := rfl
@[simp] theorem Context.setPc_reg_m (c : Context) (w : Word) : (c.setPc w).reg.m = c.reg.m := rfl
@[simp] theorem Context.setPc_reg_t (c : Context) (w : Word) : (c.setPc w).reg.t = c.reg.t := rfl
@[simp] theorem Context.setPc_reg_p (c : Context) (w : Word) : (c.setPc w).reg.p = c.reg.p := rfl
@[simp] theorem Context.setPc_reg_q (c : Context) (w : Word) : (c.setPc w).reg.q = c.reg.q := rfl
@[simp] theorem Context.setPc_reg_sg (c : Context) (w : Word) : (c.setPc w).reg.sg = c.reg.sg := rfl
@[simp] theorem Context.setPc_reg_amap (c : Context) (w : Word) : (c.setPc w).reg.amap = c.reg.amap := rfl
@[simp] theorem Context.setPc_reg_segMode (c : Context) (w : Word) : (c.setPc w).reg.segMode = c.reg.segMode := rfl
@[simp] theorem Context.setPc_reg_shape (c : Context) (w : Word) : (c.setPc w).reg.shape = c.reg.shape := rfl
@[simp] theorem Context.setPc_reg_fps (c : Context) (w : Word) : (c.setPc w).reg.fps = c.reg.fps := rfl
@[simp] theorem Context.setPc_reg_tcoord (c : Context) (w : Word) : (c.setPc w).reg.tcoord = c.reg.tcoord := rfl
@[simp] theorem Context.setPc_reg_tlaunch (c : Context) (w : Word) : (c.setPc w).reg.tlaunch = c.reg.tlaunch := rfl
@[simp] theorem Context.setPc_reg_cls (c : Context) (w : Word) : (c.setPc w).reg.cls = c.reg.cls := rfl
@[simp] theorem Context.setPc_reg_gzstat (c : Context) (w : Word) : (c.setPc w).reg.gzstat = c.reg.gzstat := rfl
@[simp] theorem Context.setPc_reg_ecause (c : Context) (w : Word) : (c.setPc w).reg.ecause = c.reg.ecause := rfl
@[simp] theorem Context.setPc_reg_epcx (c : Context) (w : Word) : (c.setPc w).reg.epcx = c.reg.epcx := rfl
@[simp] theorem Context.setPc_reg_eaddr (c : Context) (w : Word) : (c.setPc w).reg.eaddr = c.reg.eaddr := rfl
@[simp] theorem Context.setPc_reg_edepth (c : Context) (w : Word) : (c.setPc w).reg.edepth = c.reg.edepth := rfl
@[simp] theorem Context.setPc_reg_spillbase (c : Context) (w : Word) :
    (c.setPc w).reg.spillbase = c.reg.spillbase := rfl
/-! Context.orFlags. -/

@[simp] theorem Context.orFlags_id (c : Context) (f : Flags) : (c.orFlags f).id = c.id := rfl
@[simp] theorem Context.orFlags_job (c : Context) (f : Flags) : (c.orFlags f).job = c.job := rfl
@[simp] theorem Context.orFlags_io (c : Context) (f : Flags) : (c.orFlags f).io = c.io := rfl
@[simp] theorem Context.orFlags_order (c : Context) (f : Flags) : (c.orFlags f).order = c.order := rfl
@[simp] theorem Context.orFlags_sync (c : Context) (f : Flags) : (c.orFlags f).sync = c.sync := rfl
@[simp] theorem Context.orFlags_mail (c : Context) (f : Flags) : (c.orFlags f).mail = c.mail := rfl
@[simp] theorem Context.orFlags_sched (c : Context) (f : Flags) : (c.orFlags f).sched = c.sched := rfl
@[simp] theorem Context.orFlags_power (c : Context) (f : Flags) : (c.orFlags f).power = c.power := rfl
@[simp] theorem Context.orFlags_bits (c : Context) (f : Flags) : (c.orFlags f).bits = c.bits := rfl
@[simp] theorem Context.orFlags_long (c : Context) (f : Flags) : (c.orFlags f).long = c.long := rfl
@[simp] theorem Context.orFlags_reg_pc (c : Context) (f : Flags) : (c.orFlags f).reg.pc = c.reg.pc := rfl
@[simp] theorem Context.orFlags_reg_x (c : Context) (f : Flags) : (c.orFlags f).reg.x = c.reg.x := rfl
@[simp] theorem Context.orFlags_reg_v (c : Context) (f : Flags) : (c.orFlags f).reg.v = c.reg.v := rfl
@[simp] theorem Context.orFlags_reg_m (c : Context) (f : Flags) : (c.orFlags f).reg.m = c.reg.m := rfl
@[simp] theorem Context.orFlags_reg_t (c : Context) (f : Flags) : (c.orFlags f).reg.t = c.reg.t := rfl
@[simp] theorem Context.orFlags_reg_p (c : Context) (f : Flags) : (c.orFlags f).reg.p = c.reg.p := rfl
@[simp] theorem Context.orFlags_reg_q (c : Context) (f : Flags) : (c.orFlags f).reg.q = c.reg.q := rfl
@[simp] theorem Context.orFlags_reg_sg (c : Context) (f : Flags) : (c.orFlags f).reg.sg = c.reg.sg := rfl
@[simp] theorem Context.orFlags_reg_amap (c : Context) (f : Flags) : (c.orFlags f).reg.amap = c.reg.amap := rfl
@[simp] theorem Context.orFlags_reg_segMode (c : Context) (f : Flags) :
    (c.orFlags f).reg.segMode = c.reg.segMode := rfl
@[simp] theorem Context.orFlags_reg_shape (c : Context) (f : Flags) : (c.orFlags f).reg.shape = c.reg.shape := rfl
@[simp] theorem Context.orFlags_reg_fps (c : Context) (f : Flags) :
    (c.orFlags f).reg.fps = c.reg.fps ||| f.zeroExtend 64 := rfl
@[simp] theorem Context.orFlags_reg_tcoord (c : Context) (f : Flags) : (c.orFlags f).reg.tcoord = c.reg.tcoord := rfl
@[simp] theorem Context.orFlags_reg_tlaunch (c : Context) (f : Flags) :
    (c.orFlags f).reg.tlaunch = c.reg.tlaunch := rfl
@[simp] theorem Context.orFlags_reg_cls (c : Context) (f : Flags) : (c.orFlags f).reg.cls = c.reg.cls := rfl
@[simp] theorem Context.orFlags_reg_gzstat (c : Context) (f : Flags) : (c.orFlags f).reg.gzstat = c.reg.gzstat := rfl
@[simp] theorem Context.orFlags_reg_ecause (c : Context) (f : Flags) : (c.orFlags f).reg.ecause = c.reg.ecause := rfl
@[simp] theorem Context.orFlags_reg_epcx (c : Context) (f : Flags) : (c.orFlags f).reg.epcx = c.reg.epcx := rfl
@[simp] theorem Context.orFlags_reg_eaddr (c : Context) (f : Flags) : (c.orFlags f).reg.eaddr = c.reg.eaddr := rfl
@[simp] theorem Context.orFlags_reg_edepth (c : Context) (f : Flags) : (c.orFlags f).reg.edepth = c.reg.edepth := rfl
@[simp] theorem Context.orFlags_reg_spillbase (c : Context) (f : Flags) :
    (c.orFlags f).reg.spillbase = c.reg.spillbase := rfl
/-! Context.setLfsr. -/

@[simp] theorem Context.setLfsr_id (c : Context) (l : BitVec 32) : (c.setLfsr l).id = c.id := rfl
@[simp] theorem Context.setLfsr_job (c : Context) (l : BitVec 32) : (c.setLfsr l).job = c.job := rfl
@[simp] theorem Context.setLfsr_io (c : Context) (l : BitVec 32) : (c.setLfsr l).io = c.io := rfl
@[simp] theorem Context.setLfsr_order (c : Context) (l : BitVec 32) : (c.setLfsr l).order = c.order := rfl
@[simp] theorem Context.setLfsr_sync (c : Context) (l : BitVec 32) : (c.setLfsr l).sync = c.sync := rfl
@[simp] theorem Context.setLfsr_mail (c : Context) (l : BitVec 32) : (c.setLfsr l).mail = c.mail := rfl
@[simp] theorem Context.setLfsr_sched (c : Context) (l : BitVec 32) : (c.setLfsr l).sched = c.sched := rfl
@[simp] theorem Context.setLfsr_power (c : Context) (l : BitVec 32) : (c.setLfsr l).power = c.power := rfl
@[simp] theorem Context.setLfsr_bits (c : Context) (l : BitVec 32) : (c.setLfsr l).bits = c.bits := rfl
@[simp] theorem Context.setLfsr_long (c : Context) (l : BitVec 32) : (c.setLfsr l).long = c.long := rfl
@[simp] theorem Context.setLfsr_reg_pc (c : Context) (l : BitVec 32) : (c.setLfsr l).reg.pc = c.reg.pc := rfl
@[simp] theorem Context.setLfsr_reg_x (c : Context) (l : BitVec 32) : (c.setLfsr l).reg.x = c.reg.x := rfl
@[simp] theorem Context.setLfsr_reg_v (c : Context) (l : BitVec 32) : (c.setLfsr l).reg.v = c.reg.v := rfl
@[simp] theorem Context.setLfsr_reg_m (c : Context) (l : BitVec 32) : (c.setLfsr l).reg.m = c.reg.m := rfl
@[simp] theorem Context.setLfsr_reg_t (c : Context) (l : BitVec 32) : (c.setLfsr l).reg.t = c.reg.t := rfl
@[simp] theorem Context.setLfsr_reg_p (c : Context) (l : BitVec 32) : (c.setLfsr l).reg.p = c.reg.p := rfl
@[simp] theorem Context.setLfsr_reg_q (c : Context) (l : BitVec 32) : (c.setLfsr l).reg.q = c.reg.q := rfl
@[simp] theorem Context.setLfsr_reg_sg (c : Context) (l : BitVec 32) : (c.setLfsr l).reg.sg = c.reg.sg := rfl
@[simp] theorem Context.setLfsr_reg_amap (c : Context) (l : BitVec 32) : (c.setLfsr l).reg.amap = c.reg.amap := rfl
@[simp] theorem Context.setLfsr_reg_segMode (c : Context) (l : BitVec 32) :
    (c.setLfsr l).reg.segMode = c.reg.segMode := rfl
@[simp] theorem Context.setLfsr_reg_shape (c : Context) (l : BitVec 32) : (c.setLfsr l).reg.shape = c.reg.shape := rfl
@[simp] theorem Context.setLfsr_reg_fps (c : Context) (l : BitVec 32) :
    (c.setLfsr l).reg.fps = l ++ c.reg.fps.extractLsb' 0 32 := rfl
@[simp] theorem Context.setLfsr_reg_tcoord (c : Context) (l : BitVec 32) :
    (c.setLfsr l).reg.tcoord = c.reg.tcoord := rfl
@[simp] theorem Context.setLfsr_reg_tlaunch (c : Context) (l : BitVec 32) :
    (c.setLfsr l).reg.tlaunch = c.reg.tlaunch := rfl
@[simp] theorem Context.setLfsr_reg_cls (c : Context) (l : BitVec 32) : (c.setLfsr l).reg.cls = c.reg.cls := rfl
@[simp] theorem Context.setLfsr_reg_gzstat (c : Context) (l : BitVec 32) :
    (c.setLfsr l).reg.gzstat = c.reg.gzstat := rfl
@[simp] theorem Context.setLfsr_reg_ecause (c : Context) (l : BitVec 32) :
    (c.setLfsr l).reg.ecause = c.reg.ecause := rfl
@[simp] theorem Context.setLfsr_reg_epcx (c : Context) (l : BitVec 32) : (c.setLfsr l).reg.epcx = c.reg.epcx := rfl
@[simp] theorem Context.setLfsr_reg_eaddr (c : Context) (l : BitVec 32) : (c.setLfsr l).reg.eaddr = c.reg.eaddr := rfl
@[simp] theorem Context.setLfsr_reg_edepth (c : Context) (l : BitVec 32) :
    (c.setLfsr l).reg.edepth = c.reg.edepth := rfl
@[simp] theorem Context.setLfsr_reg_spillbase (c : Context) (l : BitVec 32) :
    (c.setLfsr l).reg.spillbase = c.reg.spillbase := rfl
/-! Context.setV. -/

@[simp] theorem Context.setV_id (c : Context) (d : VNum) (v : VReg) : (c.setV d v).id = c.id := rfl
@[simp] theorem Context.setV_job (c : Context) (d : VNum) (v : VReg) : (c.setV d v).job = c.job := rfl
@[simp] theorem Context.setV_io (c : Context) (d : VNum) (v : VReg) : (c.setV d v).io = c.io := rfl
@[simp] theorem Context.setV_order (c : Context) (d : VNum) (v : VReg) : (c.setV d v).order = c.order := rfl
@[simp] theorem Context.setV_sync (c : Context) (d : VNum) (v : VReg) : (c.setV d v).sync = c.sync := rfl
@[simp] theorem Context.setV_mail (c : Context) (d : VNum) (v : VReg) : (c.setV d v).mail = c.mail := rfl
@[simp] theorem Context.setV_sched (c : Context) (d : VNum) (v : VReg) : (c.setV d v).sched = c.sched := rfl
@[simp] theorem Context.setV_power (c : Context) (d : VNum) (v : VReg) : (c.setV d v).power = c.power := rfl
@[simp] theorem Context.setV_bits (c : Context) (d : VNum) (v : VReg) : (c.setV d v).bits = c.bits := rfl
@[simp] theorem Context.setV_long (c : Context) (d : VNum) (v : VReg) : (c.setV d v).long = c.long := rfl
@[simp] theorem Context.setV_reg_pc (c : Context) (d : VNum) (v : VReg) : (c.setV d v).reg.pc = c.reg.pc := rfl
@[simp] theorem Context.setV_reg_x (c : Context) (d : VNum) (v : VReg) : (c.setV d v).reg.x = c.reg.x := rfl
@[simp] theorem Context.setV_reg_v (c : Context) (d : VNum) (v : VReg) : (c.setV d v).reg.v = c.reg.v.set d v := rfl
@[simp] theorem Context.setV_reg_m (c : Context) (d : VNum) (v : VReg) : (c.setV d v).reg.m = c.reg.m := rfl
@[simp] theorem Context.setV_reg_t (c : Context) (d : VNum) (v : VReg) : (c.setV d v).reg.t = c.reg.t := rfl
@[simp] theorem Context.setV_reg_p (c : Context) (d : VNum) (v : VReg) : (c.setV d v).reg.p = c.reg.p := rfl
@[simp] theorem Context.setV_reg_q (c : Context) (d : VNum) (v : VReg) : (c.setV d v).reg.q = c.reg.q := rfl
@[simp] theorem Context.setV_reg_sg (c : Context) (d : VNum) (v : VReg) : (c.setV d v).reg.sg = c.reg.sg := rfl
@[simp] theorem Context.setV_reg_amap (c : Context) (d : VNum) (v : VReg) : (c.setV d v).reg.amap = c.reg.amap := rfl
@[simp] theorem Context.setV_reg_segMode (c : Context) (d : VNum) (v : VReg) :
    (c.setV d v).reg.segMode = c.reg.segMode := rfl
@[simp] theorem Context.setV_reg_shape (c : Context) (d : VNum) (v : VReg) :
    (c.setV d v).reg.shape = c.reg.shape := rfl
@[simp] theorem Context.setV_reg_fps (c : Context) (d : VNum) (v : VReg) : (c.setV d v).reg.fps = c.reg.fps := rfl
@[simp] theorem Context.setV_reg_tcoord (c : Context) (d : VNum) (v : VReg) :
    (c.setV d v).reg.tcoord = c.reg.tcoord := rfl
@[simp] theorem Context.setV_reg_tlaunch (c : Context) (d : VNum) (v : VReg) :
    (c.setV d v).reg.tlaunch = c.reg.tlaunch := rfl
@[simp] theorem Context.setV_reg_cls (c : Context) (d : VNum) (v : VReg) : (c.setV d v).reg.cls = c.reg.cls := rfl
@[simp] theorem Context.setV_reg_gzstat (c : Context) (d : VNum) (v : VReg) :
    (c.setV d v).reg.gzstat = c.reg.gzstat := rfl
@[simp] theorem Context.setV_reg_ecause (c : Context) (d : VNum) (v : VReg) :
    (c.setV d v).reg.ecause = c.reg.ecause := rfl
@[simp] theorem Context.setV_reg_epcx (c : Context) (d : VNum) (v : VReg) : (c.setV d v).reg.epcx = c.reg.epcx := rfl
@[simp] theorem Context.setV_reg_eaddr (c : Context) (d : VNum) (v : VReg) :
    (c.setV d v).reg.eaddr = c.reg.eaddr := rfl
@[simp] theorem Context.setV_reg_edepth (c : Context) (d : VNum) (v : VReg) :
    (c.setV d v).reg.edepth = c.reg.edepth := rfl
@[simp] theorem Context.setV_reg_spillbase (c : Context) (d : VNum) (v : VReg) :
    (c.setV d v).reg.spillbase = c.reg.spillbase := rfl
/-! Context.setM. -/

@[simp] theorem Context.setM_id (c : Context) (d : MNum) (v : BitVec 512) : (c.setM d v).id = c.id := rfl
@[simp] theorem Context.setM_job (c : Context) (d : MNum) (v : BitVec 512) : (c.setM d v).job = c.job := rfl
@[simp] theorem Context.setM_io (c : Context) (d : MNum) (v : BitVec 512) : (c.setM d v).io = c.io := rfl
@[simp] theorem Context.setM_order (c : Context) (d : MNum) (v : BitVec 512) : (c.setM d v).order = c.order := rfl
@[simp] theorem Context.setM_sync (c : Context) (d : MNum) (v : BitVec 512) : (c.setM d v).sync = c.sync := rfl
@[simp] theorem Context.setM_mail (c : Context) (d : MNum) (v : BitVec 512) : (c.setM d v).mail = c.mail := rfl
@[simp] theorem Context.setM_sched (c : Context) (d : MNum) (v : BitVec 512) : (c.setM d v).sched = c.sched := rfl
@[simp] theorem Context.setM_power (c : Context) (d : MNum) (v : BitVec 512) : (c.setM d v).power = c.power := rfl
@[simp] theorem Context.setM_bits (c : Context) (d : MNum) (v : BitVec 512) : (c.setM d v).bits = c.bits := rfl
@[simp] theorem Context.setM_long (c : Context) (d : MNum) (v : BitVec 512) : (c.setM d v).long = c.long := rfl
@[simp] theorem Context.setM_reg_pc (c : Context) (d : MNum) (v : BitVec 512) : (c.setM d v).reg.pc = c.reg.pc := rfl
@[simp] theorem Context.setM_reg_x (c : Context) (d : MNum) (v : BitVec 512) : (c.setM d v).reg.x = c.reg.x := rfl
@[simp] theorem Context.setM_reg_v (c : Context) (d : MNum) (v : BitVec 512) : (c.setM d v).reg.v = c.reg.v := rfl
@[simp] theorem Context.setM_reg_m (c : Context) (d : MNum) (v : BitVec 512) :
    (c.setM d v).reg.m = c.reg.m.set d v := rfl
@[simp] theorem Context.setM_reg_t (c : Context) (d : MNum) (v : BitVec 512) : (c.setM d v).reg.t = c.reg.t := rfl
@[simp] theorem Context.setM_reg_p (c : Context) (d : MNum) (v : BitVec 512) : (c.setM d v).reg.p = c.reg.p := rfl
@[simp] theorem Context.setM_reg_q (c : Context) (d : MNum) (v : BitVec 512) : (c.setM d v).reg.q = c.reg.q := rfl
@[simp] theorem Context.setM_reg_sg (c : Context) (d : MNum) (v : BitVec 512) : (c.setM d v).reg.sg = c.reg.sg := rfl
@[simp] theorem Context.setM_reg_amap (c : Context) (d : MNum) (v : BitVec 512) :
    (c.setM d v).reg.amap = c.reg.amap := rfl
@[simp] theorem Context.setM_reg_segMode (c : Context) (d : MNum) (v : BitVec 512) :
    (c.setM d v).reg.segMode = c.reg.segMode := rfl
@[simp] theorem Context.setM_reg_shape (c : Context) (d : MNum) (v : BitVec 512) :
    (c.setM d v).reg.shape = c.reg.shape := rfl
@[simp] theorem Context.setM_reg_fps (c : Context) (d : MNum) (v : BitVec 512) :
    (c.setM d v).reg.fps = c.reg.fps := rfl
@[simp] theorem Context.setM_reg_tcoord (c : Context) (d : MNum) (v : BitVec 512) :
    (c.setM d v).reg.tcoord = c.reg.tcoord := rfl
@[simp] theorem Context.setM_reg_tlaunch (c : Context) (d : MNum) (v : BitVec 512) :
    (c.setM d v).reg.tlaunch = c.reg.tlaunch := rfl
@[simp] theorem Context.setM_reg_cls (c : Context) (d : MNum) (v : BitVec 512) :
    (c.setM d v).reg.cls = c.reg.cls := rfl
@[simp] theorem Context.setM_reg_gzstat (c : Context) (d : MNum) (v : BitVec 512) :
    (c.setM d v).reg.gzstat = c.reg.gzstat := rfl
@[simp] theorem Context.setM_reg_ecause (c : Context) (d : MNum) (v : BitVec 512) :
    (c.setM d v).reg.ecause = c.reg.ecause := rfl
@[simp] theorem Context.setM_reg_epcx (c : Context) (d : MNum) (v : BitVec 512) :
    (c.setM d v).reg.epcx = c.reg.epcx := rfl
@[simp] theorem Context.setM_reg_eaddr (c : Context) (d : MNum) (v : BitVec 512) :
    (c.setM d v).reg.eaddr = c.reg.eaddr := rfl
@[simp] theorem Context.setM_reg_edepth (c : Context) (d : MNum) (v : BitVec 512) :
    (c.setM d v).reg.edepth = c.reg.edepth := rfl
@[simp] theorem Context.setM_reg_spillbase (c : Context) (d : MNum) (v : BitVec 512) :
    (c.setM d v).reg.spillbase = c.reg.spillbase := rfl
/-! Context.setQ. -/

@[simp] theorem Context.setQ_id (c : Context) (d : QNum) (v : QAcc) : (c.setQ d v).id = c.id := rfl
@[simp] theorem Context.setQ_job (c : Context) (d : QNum) (v : QAcc) : (c.setQ d v).job = c.job := rfl
@[simp] theorem Context.setQ_io (c : Context) (d : QNum) (v : QAcc) : (c.setQ d v).io = c.io := rfl
@[simp] theorem Context.setQ_order (c : Context) (d : QNum) (v : QAcc) : (c.setQ d v).order = c.order := rfl
@[simp] theorem Context.setQ_sync (c : Context) (d : QNum) (v : QAcc) : (c.setQ d v).sync = c.sync := rfl
@[simp] theorem Context.setQ_mail (c : Context) (d : QNum) (v : QAcc) : (c.setQ d v).mail = c.mail := rfl
@[simp] theorem Context.setQ_sched (c : Context) (d : QNum) (v : QAcc) : (c.setQ d v).sched = c.sched := rfl
@[simp] theorem Context.setQ_power (c : Context) (d : QNum) (v : QAcc) : (c.setQ d v).power = c.power := rfl
@[simp] theorem Context.setQ_bits (c : Context) (d : QNum) (v : QAcc) : (c.setQ d v).bits = c.bits := rfl
@[simp] theorem Context.setQ_long (c : Context) (d : QNum) (v : QAcc) : (c.setQ d v).long = c.long := rfl
@[simp] theorem Context.setQ_reg_pc (c : Context) (d : QNum) (v : QAcc) : (c.setQ d v).reg.pc = c.reg.pc := rfl
@[simp] theorem Context.setQ_reg_x (c : Context) (d : QNum) (v : QAcc) : (c.setQ d v).reg.x = c.reg.x := rfl
@[simp] theorem Context.setQ_reg_v (c : Context) (d : QNum) (v : QAcc) : (c.setQ d v).reg.v = c.reg.v := rfl
@[simp] theorem Context.setQ_reg_m (c : Context) (d : QNum) (v : QAcc) : (c.setQ d v).reg.m = c.reg.m := rfl
@[simp] theorem Context.setQ_reg_t (c : Context) (d : QNum) (v : QAcc) : (c.setQ d v).reg.t = c.reg.t := rfl
@[simp] theorem Context.setQ_reg_p (c : Context) (d : QNum) (v : QAcc) : (c.setQ d v).reg.p = c.reg.p := rfl
@[simp] theorem Context.setQ_reg_q (c : Context) (d : QNum) (v : QAcc) : (c.setQ d v).reg.q = c.reg.q.set d v := rfl
@[simp] theorem Context.setQ_reg_sg (c : Context) (d : QNum) (v : QAcc) : (c.setQ d v).reg.sg = c.reg.sg := rfl
@[simp] theorem Context.setQ_reg_amap (c : Context) (d : QNum) (v : QAcc) : (c.setQ d v).reg.amap = c.reg.amap := rfl
@[simp] theorem Context.setQ_reg_segMode (c : Context) (d : QNum) (v : QAcc) :
    (c.setQ d v).reg.segMode = c.reg.segMode := rfl
@[simp] theorem Context.setQ_reg_shape (c : Context) (d : QNum) (v : QAcc) :
    (c.setQ d v).reg.shape = c.reg.shape := rfl
@[simp] theorem Context.setQ_reg_fps (c : Context) (d : QNum) (v : QAcc) : (c.setQ d v).reg.fps = c.reg.fps := rfl
@[simp] theorem Context.setQ_reg_tcoord (c : Context) (d : QNum) (v : QAcc) :
    (c.setQ d v).reg.tcoord = c.reg.tcoord := rfl
@[simp] theorem Context.setQ_reg_tlaunch (c : Context) (d : QNum) (v : QAcc) :
    (c.setQ d v).reg.tlaunch = c.reg.tlaunch := rfl
@[simp] theorem Context.setQ_reg_cls (c : Context) (d : QNum) (v : QAcc) : (c.setQ d v).reg.cls = c.reg.cls := rfl
@[simp] theorem Context.setQ_reg_gzstat (c : Context) (d : QNum) (v : QAcc) :
    (c.setQ d v).reg.gzstat = c.reg.gzstat := rfl
@[simp] theorem Context.setQ_reg_ecause (c : Context) (d : QNum) (v : QAcc) :
    (c.setQ d v).reg.ecause = c.reg.ecause := rfl
@[simp] theorem Context.setQ_reg_epcx (c : Context) (d : QNum) (v : QAcc) : (c.setQ d v).reg.epcx = c.reg.epcx := rfl
@[simp] theorem Context.setQ_reg_eaddr (c : Context) (d : QNum) (v : QAcc) :
    (c.setQ d v).reg.eaddr = c.reg.eaddr := rfl
@[simp] theorem Context.setQ_reg_edepth (c : Context) (d : QNum) (v : QAcc) :
    (c.setQ d v).reg.edepth = c.reg.edepth := rfl
@[simp] theorem Context.setQ_reg_spillbase (c : Context) (d : QNum) (v : QAcc) :
    (c.setQ d v).reg.spillbase = c.reg.spillbase := rfl
/-! Context.setT. -/

@[simp] theorem Context.setT_id (c : Context) (d : TNum) (v : Option Tile) : (c.setT d v).id = c.id := rfl
@[simp] theorem Context.setT_job (c : Context) (d : TNum) (v : Option Tile) : (c.setT d v).job = c.job := rfl
@[simp] theorem Context.setT_io (c : Context) (d : TNum) (v : Option Tile) : (c.setT d v).io = c.io := rfl
@[simp] theorem Context.setT_order (c : Context) (d : TNum) (v : Option Tile) : (c.setT d v).order = c.order := rfl
@[simp] theorem Context.setT_sync (c : Context) (d : TNum) (v : Option Tile) : (c.setT d v).sync = c.sync := rfl
@[simp] theorem Context.setT_mail (c : Context) (d : TNum) (v : Option Tile) : (c.setT d v).mail = c.mail := rfl
@[simp] theorem Context.setT_sched (c : Context) (d : TNum) (v : Option Tile) : (c.setT d v).sched = c.sched := rfl
@[simp] theorem Context.setT_power (c : Context) (d : TNum) (v : Option Tile) : (c.setT d v).power = c.power := rfl
@[simp] theorem Context.setT_bits (c : Context) (d : TNum) (v : Option Tile) : (c.setT d v).bits = c.bits := rfl
@[simp] theorem Context.setT_long (c : Context) (d : TNum) (v : Option Tile) : (c.setT d v).long = c.long := rfl
@[simp] theorem Context.setT_reg_pc (c : Context) (d : TNum) (v : Option Tile) : (c.setT d v).reg.pc = c.reg.pc := rfl
@[simp] theorem Context.setT_reg_x (c : Context) (d : TNum) (v : Option Tile) : (c.setT d v).reg.x = c.reg.x := rfl
@[simp] theorem Context.setT_reg_v (c : Context) (d : TNum) (v : Option Tile) : (c.setT d v).reg.v = c.reg.v := rfl
@[simp] theorem Context.setT_reg_m (c : Context) (d : TNum) (v : Option Tile) : (c.setT d v).reg.m = c.reg.m := rfl
@[simp] theorem Context.setT_reg_t (c : Context) (d : TNum) (v : Option Tile) :
    (c.setT d v).reg.t = c.reg.t.set d v := rfl
@[simp] theorem Context.setT_reg_p (c : Context) (d : TNum) (v : Option Tile) : (c.setT d v).reg.p = c.reg.p := rfl
@[simp] theorem Context.setT_reg_q (c : Context) (d : TNum) (v : Option Tile) : (c.setT d v).reg.q = c.reg.q := rfl
@[simp] theorem Context.setT_reg_sg (c : Context) (d : TNum) (v : Option Tile) : (c.setT d v).reg.sg = c.reg.sg := rfl
@[simp] theorem Context.setT_reg_amap (c : Context) (d : TNum) (v : Option Tile) :
    (c.setT d v).reg.amap = c.reg.amap := rfl
@[simp] theorem Context.setT_reg_segMode (c : Context) (d : TNum) (v : Option Tile) :
    (c.setT d v).reg.segMode = c.reg.segMode := rfl
@[simp] theorem Context.setT_reg_shape (c : Context) (d : TNum) (v : Option Tile) :
    (c.setT d v).reg.shape = c.reg.shape := rfl
@[simp] theorem Context.setT_reg_fps (c : Context) (d : TNum) (v : Option Tile) :
    (c.setT d v).reg.fps = c.reg.fps := rfl
@[simp] theorem Context.setT_reg_tcoord (c : Context) (d : TNum) (v : Option Tile) :
    (c.setT d v).reg.tcoord = c.reg.tcoord := rfl
@[simp] theorem Context.setT_reg_tlaunch (c : Context) (d : TNum) (v : Option Tile) :
    (c.setT d v).reg.tlaunch = c.reg.tlaunch := rfl
@[simp] theorem Context.setT_reg_cls (c : Context) (d : TNum) (v : Option Tile) :
    (c.setT d v).reg.cls = c.reg.cls := rfl
@[simp] theorem Context.setT_reg_gzstat (c : Context) (d : TNum) (v : Option Tile) :
    (c.setT d v).reg.gzstat = c.reg.gzstat := rfl
@[simp] theorem Context.setT_reg_ecause (c : Context) (d : TNum) (v : Option Tile) :
    (c.setT d v).reg.ecause = c.reg.ecause := rfl
@[simp] theorem Context.setT_reg_epcx (c : Context) (d : TNum) (v : Option Tile) :
    (c.setT d v).reg.epcx = c.reg.epcx := rfl
@[simp] theorem Context.setT_reg_eaddr (c : Context) (d : TNum) (v : Option Tile) :
    (c.setT d v).reg.eaddr = c.reg.eaddr := rfl
@[simp] theorem Context.setT_reg_edepth (c : Context) (d : TNum) (v : Option Tile) :
    (c.setT d v).reg.edepth = c.reg.edepth := rfl
@[simp] theorem Context.setT_reg_spillbase (c : Context) (d : TNum) (v : Option Tile) :
    (c.setT d v).reg.spillbase = c.reg.spillbase := rfl
/-! Context.setP. -/

@[simp] theorem Context.setP_id (c : Context) (d : PNum) (v : Option RingHandle) : (c.setP d v).id = c.id := rfl
@[simp] theorem Context.setP_job (c : Context) (d : PNum) (v : Option RingHandle) : (c.setP d v).job = c.job := rfl
@[simp] theorem Context.setP_io (c : Context) (d : PNum) (v : Option RingHandle) : (c.setP d v).io = c.io := rfl
@[simp] theorem Context.setP_order (c : Context) (d : PNum) (v : Option RingHandle) : (c.setP d v).order = c.order := rfl
@[simp] theorem Context.setP_sync (c : Context) (d : PNum) (v : Option RingHandle) : (c.setP d v).sync = c.sync := rfl
@[simp] theorem Context.setP_mail (c : Context) (d : PNum) (v : Option RingHandle) : (c.setP d v).mail = c.mail := rfl
@[simp] theorem Context.setP_sched (c : Context) (d : PNum) (v : Option RingHandle) : (c.setP d v).sched = c.sched := rfl
@[simp] theorem Context.setP_power (c : Context) (d : PNum) (v : Option RingHandle) : (c.setP d v).power = c.power := rfl
@[simp] theorem Context.setP_bits (c : Context) (d : PNum) (v : Option RingHandle) : (c.setP d v).bits = c.bits := rfl
@[simp] theorem Context.setP_long (c : Context) (d : PNum) (v : Option RingHandle) : (c.setP d v).long = c.long := rfl
@[simp] theorem Context.setP_reg_pc (c : Context) (d : PNum) (v : Option RingHandle) :
    (c.setP d v).reg.pc = c.reg.pc := rfl
@[simp] theorem Context.setP_reg_x (c : Context) (d : PNum) (v : Option RingHandle) :
    (c.setP d v).reg.x = c.reg.x := rfl
@[simp] theorem Context.setP_reg_v (c : Context) (d : PNum) (v : Option RingHandle) :
    (c.setP d v).reg.v = c.reg.v := rfl
@[simp] theorem Context.setP_reg_m (c : Context) (d : PNum) (v : Option RingHandle) :
    (c.setP d v).reg.m = c.reg.m := rfl
@[simp] theorem Context.setP_reg_t (c : Context) (d : PNum) (v : Option RingHandle) :
    (c.setP d v).reg.t = c.reg.t := rfl
@[simp] theorem Context.setP_reg_p (c : Context) (d : PNum) (v : Option RingHandle) :
    (c.setP d v).reg.p = c.reg.p.set d v := rfl
@[simp] theorem Context.setP_reg_q (c : Context) (d : PNum) (v : Option RingHandle) :
    (c.setP d v).reg.q = c.reg.q := rfl
@[simp] theorem Context.setP_reg_sg (c : Context) (d : PNum) (v : Option RingHandle) :
    (c.setP d v).reg.sg = c.reg.sg := rfl
@[simp] theorem Context.setP_reg_amap (c : Context) (d : PNum) (v : Option RingHandle) :
    (c.setP d v).reg.amap = c.reg.amap := rfl
@[simp] theorem Context.setP_reg_segMode (c : Context) (d : PNum) (v : Option RingHandle) :
    (c.setP d v).reg.segMode = c.reg.segMode := rfl
@[simp] theorem Context.setP_reg_shape (c : Context) (d : PNum) (v : Option RingHandle) :
    (c.setP d v).reg.shape = c.reg.shape := rfl
@[simp] theorem Context.setP_reg_fps (c : Context) (d : PNum) (v : Option RingHandle) :
    (c.setP d v).reg.fps = c.reg.fps := rfl
@[simp] theorem Context.setP_reg_tcoord (c : Context) (d : PNum) (v : Option RingHandle) :
    (c.setP d v).reg.tcoord = c.reg.tcoord := rfl
@[simp] theorem Context.setP_reg_tlaunch (c : Context) (d : PNum) (v : Option RingHandle) :
    (c.setP d v).reg.tlaunch = c.reg.tlaunch := rfl
@[simp] theorem Context.setP_reg_cls (c : Context) (d : PNum) (v : Option RingHandle) :
    (c.setP d v).reg.cls = c.reg.cls := rfl
@[simp] theorem Context.setP_reg_gzstat (c : Context) (d : PNum) (v : Option RingHandle) :
    (c.setP d v).reg.gzstat = c.reg.gzstat := rfl
@[simp] theorem Context.setP_reg_ecause (c : Context) (d : PNum) (v : Option RingHandle) :
    (c.setP d v).reg.ecause = c.reg.ecause := rfl
@[simp] theorem Context.setP_reg_epcx (c : Context) (d : PNum) (v : Option RingHandle) :
    (c.setP d v).reg.epcx = c.reg.epcx := rfl
@[simp] theorem Context.setP_reg_eaddr (c : Context) (d : PNum) (v : Option RingHandle) :
    (c.setP d v).reg.eaddr = c.reg.eaddr := rfl
@[simp] theorem Context.setP_reg_edepth (c : Context) (d : PNum) (v : Option RingHandle) :
    (c.setP d v).reg.edepth = c.reg.edepth := rfl
@[simp] theorem Context.setP_reg_spillbase (c : Context) (d : PNum) (v : Option RingHandle) :
    (c.setP d v).reg.spillbase = c.reg.spillbase := rfl
/-! Context.setX and Context.count. -/

@[simp] theorem Context.setX_id (c : Context) (d : XReg) (w : Word) : (c.setX d w).id = c.id := by
  unfold Context.setX; split <;> rfl
@[simp] theorem Context.setX_job (c : Context) (d : XReg) (w : Word) : (c.setX d w).job = c.job := by
  unfold Context.setX; split <;> rfl
@[simp] theorem Context.setX_io (c : Context) (d : XReg) (w : Word) : (c.setX d w).io = c.io := by
  unfold Context.setX; split <;> rfl
@[simp] theorem Context.setX_order (c : Context) (d : XReg) (w : Word) : (c.setX d w).order = c.order := by
  unfold Context.setX; split <;> rfl
@[simp] theorem Context.setX_sync (c : Context) (d : XReg) (w : Word) : (c.setX d w).sync = c.sync := by
  unfold Context.setX; split <;> rfl
@[simp] theorem Context.setX_mail (c : Context) (d : XReg) (w : Word) : (c.setX d w).mail = c.mail := by
  unfold Context.setX; split <;> rfl
@[simp] theorem Context.setX_sched (c : Context) (d : XReg) (w : Word) : (c.setX d w).sched = c.sched := by
  unfold Context.setX; split <;> rfl
@[simp] theorem Context.setX_power (c : Context) (d : XReg) (w : Word) : (c.setX d w).power = c.power := by
  unfold Context.setX; split <;> rfl
@[simp] theorem Context.setX_bits (c : Context) (d : XReg) (w : Word) : (c.setX d w).bits = c.bits := by
  unfold Context.setX; split <;> rfl
@[simp] theorem Context.setX_long (c : Context) (d : XReg) (w : Word) : (c.setX d w).long = c.long := by
  unfold Context.setX; split <;> rfl
@[simp] theorem Context.setX_reg_pc (c : Context) (d : XReg) (w : Word) : (c.setX d w).reg.pc = c.reg.pc := by
  unfold Context.setX; split <;> rfl
@[simp] theorem Context.setX_reg_v (c : Context) (d : XReg) (w : Word) : (c.setX d w).reg.v = c.reg.v := by
  unfold Context.setX; split <;> rfl
@[simp] theorem Context.setX_reg_m (c : Context) (d : XReg) (w : Word) : (c.setX d w).reg.m = c.reg.m := by
  unfold Context.setX; split <;> rfl
@[simp] theorem Context.setX_reg_t (c : Context) (d : XReg) (w : Word) : (c.setX d w).reg.t = c.reg.t := by
  unfold Context.setX; split <;> rfl
@[simp] theorem Context.setX_reg_p (c : Context) (d : XReg) (w : Word) : (c.setX d w).reg.p = c.reg.p := by
  unfold Context.setX; split <;> rfl
@[simp] theorem Context.setX_reg_q (c : Context) (d : XReg) (w : Word) : (c.setX d w).reg.q = c.reg.q := by
  unfold Context.setX; split <;> rfl
@[simp] theorem Context.setX_reg_sg (c : Context) (d : XReg) (w : Word) : (c.setX d w).reg.sg = c.reg.sg := by
  unfold Context.setX; split <;> rfl
@[simp] theorem Context.setX_reg_amap (c : Context) (d : XReg) (w : Word) : (c.setX d w).reg.amap = c.reg.amap := by
  unfold Context.setX; split <;> rfl
@[simp] theorem Context.setX_reg_segMode (c : Context) (d : XReg) (w : Word) : (c.setX d w).reg.segMode = c.reg.segMode := by
  unfold Context.setX; split <;> rfl
@[simp] theorem Context.setX_reg_shape (c : Context) (d : XReg) (w : Word) : (c.setX d w).reg.shape = c.reg.shape := by
  unfold Context.setX; split <;> rfl
@[simp] theorem Context.setX_reg_fps (c : Context) (d : XReg) (w : Word) : (c.setX d w).reg.fps = c.reg.fps := by
  unfold Context.setX; split <;> rfl
@[simp] theorem Context.setX_reg_tcoord (c : Context) (d : XReg) (w : Word) : (c.setX d w).reg.tcoord = c.reg.tcoord := by
  unfold Context.setX; split <;> rfl
@[simp] theorem Context.setX_reg_tlaunch (c : Context) (d : XReg) (w : Word) : (c.setX d w).reg.tlaunch = c.reg.tlaunch := by
  unfold Context.setX; split <;> rfl
@[simp] theorem Context.setX_reg_cls (c : Context) (d : XReg) (w : Word) : (c.setX d w).reg.cls = c.reg.cls := by
  unfold Context.setX; split <;> rfl
@[simp] theorem Context.setX_reg_gzstat (c : Context) (d : XReg) (w : Word) : (c.setX d w).reg.gzstat = c.reg.gzstat := by
  unfold Context.setX; split <;> rfl
@[simp] theorem Context.setX_reg_ecause (c : Context) (d : XReg) (w : Word) : (c.setX d w).reg.ecause = c.reg.ecause := by
  unfold Context.setX; split <;> rfl
@[simp] theorem Context.setX_reg_epcx (c : Context) (d : XReg) (w : Word) : (c.setX d w).reg.epcx = c.reg.epcx := by
  unfold Context.setX; split <;> rfl
@[simp] theorem Context.setX_reg_eaddr (c : Context) (d : XReg) (w : Word) : (c.setX d w).reg.eaddr = c.reg.eaddr := by
  unfold Context.setX; split <;> rfl
@[simp] theorem Context.setX_reg_edepth (c : Context) (d : XReg) (w : Word) : (c.setX d w).reg.edepth = c.reg.edepth := by
  unfold Context.setX; split <;> rfl
@[simp] theorem Context.setX_reg_spillbase (c : Context) (d : XReg) (w : Word) : (c.setX d w).reg.spillbase = c.reg.spillbase := by
  unfold Context.setX; split <;> rfl
@[simp] theorem Context.count_reg (c : Context) : c.count.reg = c.reg := rfl
@[simp] theorem Context.count_job (c : Context) : c.count.job = c.job := rfl
@[simp] theorem Context.count_io (c : Context) : c.count.io = c.io := rfl
@[simp] theorem Context.count_order (c : Context) : c.count.order = c.order := rfl
@[simp] theorem Context.count_sync (c : Context) : c.count.sync = c.sync := rfl
@[simp] theorem Context.count_mail (c : Context) : c.count.mail = c.mail := rfl
@[simp] theorem Context.count_sched (c : Context) : c.count.sched = c.sched := rfl
@[simp] theorem Context.count_power (c : Context) : c.count.power = c.power := rfl
@[simp] theorem Context.count_bits (c : Context) : c.count.bits = c.bits := rfl
@[simp] theorem Context.count_long (c : Context) : c.count.long = c.long := rfl

end Sys2Proof.Machine
end

