-- ==== Sys2Proof/Laws/Memory.lean ====
section
/-! SUPPORT. Memory.lean: what tables and sparse memory answer after an update, and that memory keeps its canonical
form. -/

namespace Sys2Proof.Machine

/-! Tables. -/

/-- A table after an update answers the new value at its key and what it answered before elsewhere. -/
theorem tabGet_tabPut {α : Type} (d x : α) (l : List (Nat × α)) (a b : Nat) :
    tabGet d (tabPut l a x) b = if b = a then x else tabGet d l b := by
  induction l with
  | nil => rfl
  | cons e l ih =>
    obtain ⟨k, v⟩ := e
    by_cases h1 : a < k
    · simp [tabPut, tabGet, h1]
    · by_cases h2 : a = k
      · subst h2
        by_cases h : b = a <;> simp [tabPut, tabGet, h]
      · by_cases h : b = k
        · subst h
          simp [tabPut, tabGet, h1, h2, Ne.symm h2]
        · simp [tabPut, tabGet, h1, h2, h, ih]

/-- A table after a deletion answers the default at the key. -/
theorem tabGet_tabDel {α : Type} (d : α) (l : List (Nat × α)) (a b : Nat) :
    tabGet d (tabDel l a) b = if b = a then d else tabGet d l b := by
  induction l with
  | nil => simp [tabDel, tabGet]
  | cons e l ih =>
    obtain ⟨k, v⟩ := e
    by_cases h : a = k
    · subst h
      by_cases hb : b = a
      · subst hb
        simpa [tabDel] using ih
      · simp [tabDel, tabGet, ih, hb]
    · by_cases hb : b = k
      · subst hb
        simp [tabDel, tabGet, h, Ne.symm h]
      · simp [tabDel, tabGet, h, hb, ih]

/-- Every key of a table lies above a bound. -/
def keysAbove {α : Type} (l : List (Nat × α)) (a : Nat) : Prop := ∀ e ∈ l, a < e.1

theorem tabSorted_cons {α : Type} (e : Nat × α) (l : List (Nat × α)) :
    tabSorted (e :: l) = true ↔ keysAbove l e.1 ∧ tabSorted l = true := by
  induction l generalizing e with
  | nil => simp [tabSorted, keysAbove]
  | cons f l ih =>
    obtain ⟨k, v⟩ := e
    obtain ⟨k', v'⟩ := f
    have := ih (k', v')
    simp only [tabSorted, Bool.and_eq_true, decide_eq_true_eq, this, keysAbove, List.mem_cons, forall_eq_or_imp]
    constructor
    · rintro ⟨h, h1, h2⟩
      exact ⟨⟨h, fun e he => h.trans (h1 e he)⟩, h1, h2⟩
    · rintro ⟨⟨h, -⟩, h1, h2⟩
      exact ⟨h, h1, h2⟩

theorem keysAbove_tabPut {α : Type} (l : List (Nat × α)) (a b : Nat) (x : α) (h : keysAbove l b) (hb : b < a) :
    keysAbove (tabPut l a x) b := by
  induction l with
  | nil => simpa [tabPut, keysAbove] using hb
  | cons e l ih =>
    obtain ⟨k, v⟩ := e
    have hk : b < k := h (k, v) (by simp)
    have hl : keysAbove l b := fun e he => h e (by simp [he])
    by_cases h1 : a < k
    · intro e he
      simp only [tabPut, h1, if_true, List.mem_cons] at he
      rcases he with rfl | rfl | he
      exacts [hb, hk, hl e he]
    · by_cases h2 : a = k
      · intro e he
        subst h2
        simp only [tabPut, Nat.lt_irrefl, if_false, if_true, List.mem_cons] at he
        rcases he with rfl | he
        exacts [hk, hl e he]
      · intro e he
        simp only [tabPut, h1, if_false, h2, List.mem_cons] at he
        rcases he with rfl | he
        exacts [hk, ih hl e he]

/-- An update keeps a table sorted. -/
theorem tabSorted_tabPut {α : Type} (l : List (Nat × α)) (a : Nat) (x : α) (h : tabSorted l = true) :
    tabSorted (tabPut l a x) = true := by
  induction l with
  | nil => rfl
  | cons e l ih =>
    obtain ⟨k, v⟩ := e
    rw [tabSorted_cons] at h
    by_cases h1 : a < k
    · simp only [tabPut, h1, if_true]
      rw [tabSorted_cons, tabSorted_cons]
      refine ⟨fun e he => ?_, h⟩
      rcases List.mem_cons.mp he with rfl | he
      exacts [h1, h1.trans (h.1 e he)]
    · by_cases h2 : a = k
      · simp only [tabPut, h2, Nat.lt_irrefl, if_false, if_true]
        rw [tabSorted_cons]
        exact h
      · simp only [tabPut, h1, h2, if_false]
        rw [tabSorted_cons]
        exact ⟨keysAbove_tabPut l a k x h.1 (by omega), ih h.2⟩

theorem mem_tabDel {α : Type} (l : List (Nat × α)) (a : Nat) (e : Nat × α) (h : e ∈ tabDel l a) : e ∈ l := by
  induction l with
  | nil => simp [tabDel] at h
  | cons f l ih =>
    obtain ⟨k, v⟩ := f
    by_cases h1 : a = k
    · simp only [tabDel, h1, if_true] at h
      exact List.mem_cons_of_mem _ (ih (h1 ▸ h))
    · simp only [tabDel, h1, if_false, List.mem_cons] at h
      rcases h with rfl | h
      exacts [by simp, List.mem_cons_of_mem _ (ih h)]

/-- A deletion keeps a table sorted. -/
theorem tabSorted_tabDel {α : Type} (l : List (Nat × α)) (a : Nat) (h : tabSorted l = true) :
    tabSorted (tabDel l a) = true := by
  induction l with
  | nil => rfl
  | cons e l ih =>
    obtain ⟨k, v⟩ := e
    rw [tabSorted_cons] at h
    by_cases h1 : a = k
    · simp only [tabDel, h1, if_true]
      exact h1 ▸ ih h.2
    · simp only [tabDel, h1, if_false]
      rw [tabSorted_cons]
      exact ⟨fun e he => h.1 e (mem_tabDel l a e he), ih h.2⟩

/-! Memory. -/

/-- A byte written reads back, and every other byte reads as before. -/
theorem cellGet_cellSet (m : List Host.Cell) (a b : Nat) (v : Byte) :
    cellGet (cellSet m a v) b = if b = a then v else cellGet m b := by
  unfold cellGet cellSet
  split
  · rename_i h
    rw [tabGet_tabDel, h]
  · exact tabGet_tabPut _ _ _ _ _

theorem mem_tabPut {α : Type} (l : List (Nat × α)) (a : Nat) (x : α) (e : Nat × α) (h : e ∈ tabPut l a x) :
    e = (a, x) ∨ e ∈ l := by
  induction l with
  | nil => simpa [tabPut] using h
  | cons f l ih =>
    obtain ⟨k, v⟩ := f
    by_cases h1 : a < k
    · simpa [tabPut, h1] using h
    · by_cases h2 : a = k
      · subst h2
        simp only [tabPut, Nat.lt_irrefl, if_false, if_true, List.mem_cons] at h
        rcases h with h | h
        · exact Or.inl h
        · exact Or.inr (List.mem_cons_of_mem _ h)
      · simp only [tabPut, h1, if_false, h2, List.mem_cons] at h
        rcases h with h | h
        · exact Or.inr (h ▸ List.mem_cons_self ..)
        · rcases ih h with h | h
          · exact Or.inl h
          · exact Or.inr (List.mem_cons_of_mem _ h)

/-- A byte written keeps the canonical form. -/
theorem wf_cellSet (m : List Host.Cell) (a : Nat) (b : Byte) (h : Memory.wf m = true) :
    Memory.wf (cellSet m a b) = true := by
  simp only [Memory.wf, Bool.and_eq_true, List.all_eq_true, bne_iff_ne, ne_eq] at h ⊢
  unfold cellSet
  split
  · exact ⟨tabSorted_tabDel m a h.1, fun e he => h.2 e (mem_tabDel m a e he)⟩
  · rename_i hb
    refine ⟨tabSorted_tabPut m a b h.1, fun e he => ?_⟩
    rcases mem_tabPut m a b e he with rfl | he
    exacts [hb, h.2 e he]

/-- Bytes written keep the canonical form. -/
theorem wf_cellsSet (bs : List Byte) (m : List Host.Cell) (a : Nat) (h : Memory.wf m = true) :
    Memory.wf (cellsSet m a bs) = true := by
  induction bs generalizing m a with
  | nil => exact h
  | cons b bs ih => exact ih _ _ (wf_cellSet m a b h)

/-- A byte outside the bytes written reads as before. -/
theorem cellGet_cellsSet_outside (bs : List Byte) (m : List Host.Cell) (a b : Nat) (h : b < a ∨ a + bs.length ≤ b) :
    cellGet (cellsSet m a bs) b = cellGet m b := by
  induction bs generalizing m a with
  | nil => rfl
  | cons x bs ih =>
    simp only [List.length_cons] at h
    have h1 : b < a + 1 ∨ a + 1 + bs.length ≤ b := by omega
    have h2 : b ≠ a := by omega
    simp only [cellsSet]
    rw [ih (cellSet m a x) (a + 1) h1, cellGet_cellSet, if_neg h2]

/-- The bytes written read back. -/
theorem cellsGet_cellsSet (bs : List Byte) (m : List Host.Cell) (a : Nat) :
    cellsGet (cellsSet m a bs) a bs.length = bs := by
  induction bs generalizing m a with
  | nil => rfl
  | cons x bs ih =>
    simp only [cellsSet, List.length_cons, cellsGet]
    rw [ih, cellGet_cellsSet_outside bs _ _ _ (by omega), cellGet_cellSet, if_pos rfl]

/-- Reset memory has the canonical form. -/
theorem wf_reset : Memory.wf State.reset.mem = true := rfl

/-- A store of bytes keeps the canonical form. -/
theorem wf_putBy (s : State) (w : Writer) (loc : Nat) (bs : List Byte) (h : Memory.wf s.mem = true) :
    Memory.wf (s.putBy w loc bs).mem = true := wf_cellsSet bs s.mem loc h

theorem wf_putBytes (s : State) (loc : Nat) (bs : List Byte) (h : Memory.wf s.mem = true) :
    Memory.wf (s.putBytes loc bs).mem = true := wf_cellsSet bs s.mem loc h

/-- The number of bytes that toBytes gives. -/
@[simp] theorem toBytes_length (n w : Nat) : (toBytes n w).length = n := by
  induction n generalizing w with
  | zero => rfl
  | succ n ih => simp [toBytes, ih]

/-- A number survives its bytes as far as they reach. -/
theorem fromBytes_toBytes (n w : Nat) : fromBytes (toBytes n w) = w % 256 ^ n := by
  induction n generalizing w with
  | zero => simp [toBytes, fromBytes, Nat.mod_one]
  | succ n ih =>
    simp only [toBytes, fromBytes, ih, BitVec.toNat_ofNat]
    exact (by rw [Nat.pow_succ', Nat.mod_mul] : w % 256 ^ (n + 1) = w % 256 + 256 * (w / 256 % 256 ^ n)).symm

end Sys2Proof.Machine
end

