-- ==== Sys2Proof/Laws/Ops.lean ====
section
/-! SUPPORT. Ops.lean: what the shared operations answer: one instruction's action evaluated piece by piece. -/

namespace Sys2Proof.Machine

/-! Sequencing. -/

/-- An action after one that succeeded. -/
theorem op_bind_ok {α β : Type} {x : Op α} {f : α → Op β} {s t : State} {a : α} (h : x s = .ok a t) :
    (x >>= f) s = f a t := by
  show EStateM.bind x f s = _
  unfold EStateM.bind
  rw [h]

/-- An action that stopped stops what follows. -/
theorem op_bind_error {α β : Type} {x : Op α} {f : α → Op β} {s t : State} {e : Stop} (h : x s = .error e t) :
    (x >>= f) s = .error e t := by
  show EStateM.bind x f s = _
  unfold EStateM.bind
  rw [h]

variable {α β : Type}

@[simp] theorem pure_run (a : α) (s : State) : (pure a : Op α) s = .ok a s := rfl
@[simp] theorem pure_bind_run (a : α) (f : α → Op β) (s : State) : (pure a >>= f : Op β) s = f a s := rfl
@[simp] theorem get_bind_run (f : State → Op β) (s : State) : ((get : Op State) >>= f) s = f s s := rfl
@[simp] theorem set_run (t s : State) : (set t : Op PUnit) s = .ok ⟨⟩ t := rfl
@[simp] theorem set_bind_run (t : State) (f : PUnit → Op β) (s : State) : ((set t : Op PUnit) >>= f) s = f ⟨⟩ t := rfl
@[simp] theorem modify_run (g : State → State) (s : State) : (modify g : Op PUnit) s = .ok ⟨⟩ (g s) := rfl
@[simp] theorem modify_bind_run (g : State → State) (f : PUnit → Op β) (s : State) :
    ((modify g : Op PUnit) >>= f) s = f ⟨⟩ (g s) := rfl
@[simp] theorem throw_run (e : Stop) (s : State) : (throw e : Op α) s = .error e s := rfl
@[simp] theorem throw_bind_run (e : Stop) (f : α → Op β) (s : State) : ((throw e : Op α) >>= f) s = .error e s := rfl
@[simp] theorem bind_assoc_run {γ : Type} (x : Op α) (f : α → Op β) (g : β → Op γ) (s : State) :
    ((x >>= f) >>= g) s = (x >>= fun a => f a >>= g) s := by rw [bind_assoc]
/-- A function of the answer of an action that succeeded. -/
theorem op_map_ok {x : Op α} {f : α → β} {s t : State} {a : α} (h : x s = .ok a t) : (f <$> x) s = .ok (f a) t := by
  show EStateM.map f x s = _
  unfold EStateM.map
  rw [h]
@[simp] theorem map_get_run (f : State → β) (s : State) : (f <$> (get : Op State)) s = .ok (f s) s := rfl
@[simp] theorem map_set_run (f : PUnit → β) (t s : State) : (f <$> (set t : Op PUnit)) s = .ok (f ⟨⟩) t := rfl
@[simp] theorem map_modify_run (f : PUnit → β) (g : State → State) (s : State) :
    (f <$> (modify g : Op PUnit)) s = .ok (f ⟨⟩) (g s) := rfl
@[simp] theorem map_self_run (f : Context → β) (s : State) : (f <$> self) s = .ok (f s.cur) s := rfl
@[simp] theorem map_readX_run (f : Word → β) (a : XReg) (s : State) : (f <$> readX a) s = .ok (f (s.x a)) s := rfl
@[simp] theorem map_pure_run (f : α → β) (a : α) (s : State) : (f <$> (pure a : Op α)) s = .ok (f a) s := rfl
@[simp] theorem self_bind_run (f : Context → Op β) (s : State) : (self >>= f) s = f s.cur s := rfl
@[simp] theorem readX_bind_run (a : XReg) (f : Word → Op β) (s : State) : (readX a >>= f) s = f (s.x a) s := rfl
@[simp] theorem writeX_bind_run (d : XReg) (w : Word) (f : PUnit → Op β) (s : State) :
    (writeX d w >>= f) s = f ⟨⟩ (s.setX d w) := rfl
@[simp] theorem modifySelf_run (g : Context → Context) (s : State) :
    modifySelf g s = .ok ⟨⟩ { s with cur := g s.cur } := rfl
@[simp] theorem modifySelf_bind_run (g : Context → Context) (f : PUnit → Op β) (s : State) :
    (modifySelf g >>= f) s = f ⟨⟩ { s with cur := g s.cur } := rfl
@[simp] theorem inGlaze_bind_run (f : Bool → Op β) (s : State) :
    (inGlaze >>= f) s = f s.cur.sync.region.isSome s := rfl
@[simp] theorem raise_run (c : Nat) (s : State) : (raise c : Op α) s = .error (.trap c none) s := rfl
@[simp] theorem raise_bind_run (c : Nat) (f : α → Op β) (s : State) :
    ((raise c : Op α) >>= f) s = .error (.trap c none) s := rfl
@[simp] theorem raiseAt_run (c i : Nat) (s : State) :
    (raiseAt c i : Op α) s = .error (.trap c (some (BitVec.ofNat 64 i))) s := rfl
@[simp] theorem raiseAt_bind_run (c i : Nat) (f : α → Op β) (s : State) :
    ((raiseAt c i : Op α) >>= f) s = .error (.trap c (some (BitVec.ofNat 64 i))) s := rfl
@[simp] theorem raiseOpen_run (s : State) :
    (raiseOpen : Op α) s = .error (.trap 7 (some (BitVec.ofNat 64 s.draw.1))) s.draw.2 := rfl
@[simp] theorem raiseOpen_bind_run (f : α → Op β) (s : State) :
    ((raiseOpen : Op α) >>= f) s = .error (.trap 7 (some (BitVec.ofNat 64 s.draw.1))) s.draw.2 := rfl
@[simp] theorem waitFor_run (w : Wait) (s : State) : (waitFor w : Op α) s = .error (.wait w) s := rfl
@[simp] theorem waitFor_bind_run (w : Wait) (f : α → Op β) (s : State) :
    ((waitFor w : Op α) >>= f) s = .error (.wait w) s := rfl
@[simp] theorem due_run (d : Duty) (s : State) : due d s = .ok ⟨⟩ { s with agenda := s.agenda ++ [d] } := rfl
@[simp] theorem due_bind_run (d : Duty) (f : PUnit → Op β) (s : State) :
    (due d >>= f) s = f ⟨⟩ { s with agenda := s.agenda ++ [d] } := rfl

/-- The machine after an instruction of len bytes has retired. -/
def State.retired (s : State) (len : Nat) : State :=
  ({ s with cur := { s.cur with sync := { s.cur.sync with wait := .none, grant := none } } } : State).retire len

@[simp] theorem retires_run (len : Nat) (s : State) : retires len s = .ok ⟨⟩ (s.retired len) := rfl
@[simp] theorem retires_bind_run (len : Nat) (f : PUnit → Op β) (s : State) :
    (retires len >>= f) s = f ⟨⟩ (s.retired len) := rfl

@[simp] theorem need_bind_run (c : Bool) (cause : Nat) (f : PUnit → Op β) (s : State) :
    (need c cause >>= f) s = if c then f ⟨⟩ s else .error (.trap cause none) s := by
  cases c <;> rfl

@[simp] theorem notInGlaze_bind_run (f : PUnit → Op β) (s : State) :
    (notInGlaze >>= f) s = if s.cur.sync.region.isNone then f ⟨⟩ s else .error (.trap 0x14 none) s := by
  unfold notInGlaze
  simp

@[simp] theorem userOnly_bind_run (f : PUnit → Op β) (s : State) :
    (userOnly >>= f) s =
      if s.cur.id.sup then .error (.trap 7 (some (BitVec.ofNat 64 s.draw.1))) s.draw.2 else f ⟨⟩ s := by
  unfold userOnly
  cases h : s.cur.id.sup <;> simp [h]

@[simp] theorem privileged_bind_run (f : PUnit → Op β) (s : State) :
    (privileged >>= f) s =
      if s.cur.id.sup then f ⟨⟩ s else .error (.trap 7 (some (BitVec.ofNat 64 s.draw.1))) s.draw.2 := by
  unfold privileged
  cases h : s.cur.id.sup <;> simp [h]

/-! How an instruction ends. -/

/-- An action that succeeds answers the machine it leaves. -/
theorem does_ok {s t : State} {op : Op Unit} (h : op s = .ok ⟨⟩ t) : s.does op = .next t := by
  unfold State.does State.run
  rw [h]

/-- An action that stops answers the machine after the stop. -/
theorem does_error {s t : State} {op : Op Unit} {e : Stop} (h : op s = .error e t) : s.does op = .next (t.stopped e) := by
  unfold State.does State.run
  rw [h]

end Sys2Proof.Machine
end

