-- ==== Sys2Proof/Laws/Frames.lean ====
section
/-! SUPPORT. Frames.lean: what the shared ends of an instruction leave unchanged: retirement, the waits of a context with
nothing in flight, a trap. -/

namespace Sys2Proof.Machine

/-! Events and retirement. -/

theorem event_fields (s : State) (cl src : Nat) : { s.event cl src with clusters := s.clusters } = s := by
  unfold State.event
  dsimp only
  split <;> rfl

theorem event_cur (s : State) (cl src : Nat) : (s.event cl src).cur = s.cur :=
  (congrArg State.cur (event_fields s cl src) :)

theorem event_counting (s : State) (cl src : Nat) : Counting s (s.event cl src) := by
  intro k
  unfold State.event
  dsimp only
  split
  · by_cases h : k = cl
    · subst h
      simp [State.cluster, State.setCluster, tabGet_tabPut]
    · simp [State.cluster, State.setCluster, tabGet_tabPut, h]
  · rfl

theorem Counting.rfl' (s : State) : Counting s s := fun _ => rfl

theorem Counting.trans {s t u : State} (h : Counting s t) (h' : Counting t u) : Counting s u :=
  fun k => (h' k).trans (h k)

/-- An event beside another context in place of the one whose turn it is. -/
theorem beside_event {s u : State} (h : Beside s u) (c : Context) (cl src : Nat) :
    Beside s (({ u with cur := c } : State).event cl src) := by
  constructor
  · exact (congrArg (fun t : State => { t with cur := s.cur, clusters := s.clusters })
      (event_fields ({ u with cur := c } : State) cl src)).trans h.1
  · exact h.2.trans (event_counting ({ u with cur := c } : State) cl src)

theorem beside_cur (s : State) (c : Context) : Beside s { s with cur := c } := ⟨rfl, Counting.rfl' _⟩

/-- A machine differs from another only in the notes that memory keeps beside its bytes. -/
def Noted (s t : State) : Prop := t.withNotes s = s

theorem Noted.refl (s : State) : Noted s s := rfl

theorem Noted.trans {s t u : State} (h : Noted s t) (h' : Noted t u) : Noted s u :=
  (congrArg (fun v : State => v.withNotes s) (h' : u.withNotes t = t)).trans h

theorem Noted.cur {s t : State} (h : Noted s t) : t.cur = s.cur := (congrArg State.cur (h : t.withNotes s = s) :)

theorem Noted.mem {s t : State} (h : Noted s t) : t.mem = s.mem := (congrArg State.mem (h : t.withNotes s = s) :)

theorem Noted.setCur {s t : State} (h : Noted s t) (c : Context) :
    Noted { s with cur := c } { t with cur := c } := by
  have e := congrArg (fun v : State => { v with cur := c }) (h : t.withNotes s = s)
  exact e

theorem Noted.putBytes {s t : State} (h : Noted s t) (loc : Nat) (bs : List Byte) :
    Noted (s.putBytes loc bs) (t.putBytes loc bs) := by
  have e := congrArg (fun v : State => { v.putBytes loc bs with
    history := (s.putBytes loc bs).history, broken := (s.putBytes loc bs).broken }) (h : t.withNotes s = s)
  exact e

/-- Bytes put in memory with another context in place of the one whose turn it is. -/
theorem Noted.setCurPut {s u : State} {loc : Nat} {bs : List Byte} (h : Noted (s.putBytes loc bs) u) (c : Context) :
    Noted (({ s with cur := c } : State).putBytes loc bs) { u with cur := c } := by
  have e := congrArg (fun v : State => ({ v with cur := c } : State).withNotes (({ s with cur := c } : State).putBytes loc bs))
    (h : u.withNotes (s.putBytes loc bs) = s.putBytes loc bs)
  exact e

/-- Who writes bytes is noted alone. -/
theorem putBy_noted (s : State) (w : Writer) (loc : Nat) (bs : List Byte) :
    Noted (s.putBytes loc bs) (s.putBy w loc bs) := rfl

theorem releaseFlushes_noted (s : State) (uid core scope born : Nat) : Noted s (s.releaseFlushes uid core scope born) := rfl

theorem noteRelease_noted (s : State) (uid core : Nat) (lines : List Nat) (scope born : Nat) :
    Noted s (s.noteRelease uid core lines scope born) := by
  unfold State.noteRelease
  dsimp only
  split <;> rfl

theorem watch_noted (s : State) (ia loc : Nat) (k : ObjKind) : Noted s (s.watch ia loc k) := by
  unfold State.watch
  split <;> rfl

theorem announce_noted (s : State) (ia loc n : Nat) : Noted s (s.announce ia loc n) := by
  unfold State.announce
  dsimp only
  repeat' split
  all_goals first | exact watch_noted .. | rfl

theorem gateDone_noted (s : State) (uid : Nat) (g : Gate) (ps : List (Nat × List Byte)) (born : Nat) :
    Noted s (s.gateDone uid g ps born) := by
  unfold State.gateDone
  repeat' split
  all_goals first | exact noteRelease_noted .. | rfl

/-- Bytes put in memory beside a change of the context. -/
theorem besideMemory_noted {s u : State} {c : Context} {loc : Nat} {bs : List Byte}
    (h : Noted (({ s with cur := c } : State).putBytes loc bs) u) : BesideMemory s u := by
  have e : ∀ k, u.cluster k = s.cluster k := fun k =>
    (congrArg (fun v : State => v.cluster k) (h : u.withNotes _ = _) :)
  constructor
  · exact congrArg (fun v : State => { v.withNotes s with
      cur := s.cur, clusters := s.clusters, mem := s.mem, poison := s.poison }) (h : u.withNotes _ = _)
  · intro k; rw [e]

/-- An event beside memory and another context in place of the one whose turn it is. -/
theorem besideMemory_event {s u : State} (h : BesideMemory s u) (c : Context) (cl src : Nat) :
    BesideMemory s (({ u with cur := c } : State).event cl src) := by
  constructor
  · exact (congrArg (fun t : State => { t.withNotes s with
      cur := s.cur, clusters := s.clusters, mem := s.mem, poison := s.poison })
      (event_fields ({ u with cur := c } : State) cl src)).trans h.1
  · exact h.2.trans (event_counting ({ u with cur := c } : State) cl src)

theorem retired_eq (s : State) (len : Nat) :
    s.retired len =
      ({ s with cur := { s.cur with
        reg := s.cur.reg.step len, id := { s.cur.id with rob := s.cur.id.rob + 1 }
        sync := { s.cur.sync with wait := .none, grant := none } } } : State).event (clusterOf s.cur.id.core) 2 := rfl

theorem retire_eq (s : State) (len : Nat) :
    s.retire len =
      ({ s with cur := { s.cur with
        reg := s.cur.reg.step len, id := { s.cur.id with rob := s.cur.id.rob + 1 } } } : State).event
        (clusterOf s.cur.id.core) 2 := rfl

/-- An instruction whose action ends with the registers r, and nothing else changed but what it notes of its acquires
and event counters. -/
theorem finishes_of {s u : State} {r : Regs} (len : Nat) (hc : u.cur = { s.cur with reg := r, order := u.cur.order })
    (hb : Beside s u) : Finishes s (u.retired len) (r.step len) := by
  rw [retired_eq]
  refine ⟨⟨?_, Or.inr ?_⟩, beside_event hb ..⟩ <;> rw [event_cur] <;> simp only <;> rw [hc]

/-- An instruction whose action ends with the registers r and nothing else changed. -/
theorem finishes_retired (s : State) (r : Regs) (len : Nat) :
    Finishes s (({ s with cur := { s.cur with reg := r } } : State).retired len) (r.step len) :=
  finishes_of len rfl (beside_cur ..)

theorem finishes_retire (s : State) (r : Regs) (len : Nat) :
    Finishes s (({ s with cur := { s.cur with reg := r } } : State).retire len) (r.step len) := by
  rw [retire_eq]
  exact ⟨⟨by rw [event_cur], Or.inl (by rw [event_cur])⟩, beside_event (beside_cur ..) ..⟩

theorem x_eq (s : State) (a : XReg) : s.x a = s.arg a := rfl

theorem setX_eq (s : State) (d : XReg) (w : Word) :
    s.setX d w = { s with cur := { s.cur with reg := s.cur.reg.put d w } } := by
  unfold State.setX Context.setX Regs.put
  split <;> rfl

/-- A result in an x register. -/
theorem gives_spec (s : State) (d : XReg) (w : Word) (len : Nat) :
    ∃ t, s.gives d w len = .next t ∧ Finishes s t (s.gpr d w len) := by
  refine ⟨_, rfl, ?_⟩
  rw [setX_eq]
  exact finishes_retire ..

/-! The waits of a context with nothing in flight. -/

theorem ctx_cur {s : State} (h : s.cur.sched.place = .slot) : s.ctx s.cur.id.uid = some s.cur := by
  simp [State.ctx, State.contexts, Context.live, h]

theorem drainTiles_still {s : State} (f : Drain → Bool) (h : Still s) : s.drainTiles s.cur.id.uid f = s := by
  unfold State.drainTiles
  rw [ctx_cur h.1]
  simp [h.2.2.2.2.1]

theorem drainPosted_still {s : State} (f : Posted → Bool) (h : Still s) : s.drainPosted s.cur.id.uid f = s := by
  unfold State.drainPosted
  rw [ctx_cur h.1]
  simp [h.2.2.1]

theorem drainReds_still {s : State} (f : Red → Bool) (b : Bool) (h : Still s) :
    s.drainReds s.cur.id.uid f b = s := by
  unfold State.drainReds
  rw [ctx_cur h.1]
  simp [h.2.2.2.1]

theorem drainSome_still {s : State} (a b c : Bool) (h : Still s) : drainSome a b c s = .ok ⟨⟩ s := by
  unfold drainSome
  simp only [modify_run]
  cases a <;> cases b <;> cases c <;>
    simp [drainTiles_still _ h, drainPosted_still _ h, drainReds_still _ _ h]

theorem takeLate_still {s : State} (f : LateKind → Bool) (h : Still s) : takeLate f s = .ok ⟨⟩ s := by
  unfold takeLate
  simp [h.2.2.2.2.2.1]

theorem waitRelease_still {s : State} (n : Nat) (h : Still s) : waitRelease n s = .ok ⟨⟩ s := by
  unfold waitRelease
  simp only [inGlaze_bind_run, h.2.1, Option.isSome_none, Bool.false_eq_true, if_false]
  rw [op_bind_ok (drainSome_still true true true h)]
  have key : (do
      let f := (← self).io
      if !f.reds.isEmpty || !f.drains.isEmpty || f.storing then waitFor .access : Op Unit) s = .ok ⟨⟩ s := by
    simp [h.2.2.1, h.2.2.2.1, h.2.2.2.2.1, InFlight.storing]
  split
  · exact (op_bind_ok (takeLate_still _ h)).trans key
  · exact key

theorem waitReds_still {s : State} (n : Nat) (h : Still s) : waitReds n s = .ok ⟨⟩ s := by
  unfold waitReds
  simp only [inGlaze_bind_run, h.2.1]
  by_cases hn : n = 0
  · simp [hn]
  · simp only [hn, decide_false, Option.isSome_none, Bool.or_self, Bool.false_eq_true, if_false]
    rw [op_bind_ok (drainSome_still false false true h), op_bind_ok (takeLate_still _ h)]
    simp [h.2.2.2.1]

theorem takeDeferred_calm {s : State} (n : Nat) (h : Calm s) : takeDeferred n s = .ok ⟨⟩ s := by
  unfold takeDeferred
  simp only [inGlaze_bind_run, h.1.2.1]
  split
  · rfl
  · simp only [modifySelf_run, Context.orFlags, h.2]
    have h1 : s.cur.reg.fps ||| BitVec.zeroExtend 64 (0 : BitVec 6) = s.cur.reg.fps := by simp
    have h2 : ({ s.cur.io with deferred := 0 } : InFlight) = s.cur.io := by rw [← h.2]
    rw [h1, h2]

theorem waitCounter_still {s : State} (n : Nat) (h : Still s) : waitCounter n s = .ok ⟨⟩ s := by
  unfold waitCounter
  split
  · rfl
  · simp only [modify_bind_run, drainPosted_still _ h, drainTiles_still _ h]
    have key : (do
        if (← self).io.counted (waitKind n) != 0 then waitFor .access : Op Unit) s = .ok ⟨⟩ s := by
      simp [h.2.2.1, h.2.2.2.2.1, InFlight.counted]
    split
    · rw [op_bind_ok (takeLate_still _ h)]
      exact key
    · exact key

theorem endFence_run (s : State) :
    endFence s = .ok ⟨⟩ { s with cur := { s.cur with order := { s.cur.order with fenced := none } } } := by
  unfold endFence
  simp only [self_bind_run]
  split
  · rfl
  · have e : s.cur.order.fenced = none := by simpa using ‹¬s.cur.order.fenced.isSome = true›
    have : ({ s.cur.order with fenced := none } : Order) = s.cur.order := by rw [← e]
    rw [this]
    rfl

/-- A release beside the other effects of an instruction. -/
theorem releaseEvent_still {s : State} (n : Nat) (h : Still s) : releaseEvent n s = .ok ⟨⟩ (s.released n) := by
  unfold releaseEvent
  rw [op_bind_ok (waitRelease_still _ h), op_bind_ok (endFence_run _)]
  simp only [modify_run, State.released]
  split
  · have e : s.flushes = [] := by simpa using ‹s.flushes.isEmpty = true›
    unfold State.releaseFlushes
    simp [e]
  · rfl

theorem releaseSystem_still {s : State} (h : Still s) : releaseSystem s = .ok ⟨⟩ (s.released 6) := releaseEvent_still 6 h

theorem loadWaits_still {s : State} (m : MemAttr) (h : Still s) : loadWaits m s = .ok ⟨⟩ s := by
  have hs : s.cur.io.scPending = false := by simp [InFlight.scPending, h.2.2.1, h.2.2.2.2.1]
  have tail : (do
      if m.cls = 3 && (← self).io.scPending then
        drainSome true true true
        if (← self).io.scPending then waitFor .access : Op Unit) s = .ok ⟨⟩ s := by
    simp [hs]
  unfold loadWaits
  rw [op_bind_ok (waitCounter_still _ h)]
  split
  · exact (op_bind_ok (waitReds_still _ h)).trans tail
  · exact tail

theorem settleWith_still {s : State} (k : Kinds) (ia n : Nat) (h : Still s) : settleWith k ia n s = .ok ⟨⟩ s := by
  unfold settleWith
  simp [h.2.2.1, h.2.2.2.1, h.2.2.2.2.1, InFlight.quiet]

theorem settle_still {s : State} (ia n : Nat) (h : Still s) : settle ia n s = .ok ⟨⟩ s := settleWith_still _ ia n h

theorem forcePublish_still {s : State} (ia n : Nat) (h : Still s) : forcePublish ia n s = .ok ⟨⟩ s := by
  have hn : s.narrowAt ia n (some (s.cur.id.uid, s.cur.id.core)) = [] := by
    unfold State.narrowAt
    rw [List.filter_eq_nil_iff]
    intro r hr
    simp [h.2.2.2.2.2.2 r hr]
  have hw : s.withheld ia n (some (s.cur.id.uid, s.cur.id.core)) = false := by simp [State.withheld, hn]
  have hf : s.forcePublish ia n (some (s.cur.id.uid, s.cur.id.core)) = s := by
    unfold State.forcePublish
    simp [hn, hw, State.published]
  unfold forcePublish
  simp only [get_bind_run]
  split
  · rfl
  · simp [hf, hw]

/-- What a gate of a context with nothing in flight waits for is over. -/
theorem lets_still {s : State} (g : Gate) (h : Still s) : g.lets s.cur.io s.now = true := by
  simp [Gate.lets, h.2.2.1, h.2.2.2.1, h.2.2.2.2.1]

/-- A context of which none of the accesses has failed takes none. -/
theorem takeAwaited_still {s : State} (w : Nat) (rel : Bool) (sc : Nat) (h : Still s) :
    takeAwaited w rel sc s = .ok ⟨⟩ s := by
  unfold takeAwaited
  simp only [inGlaze_bind_run, h.2.1, Option.isSome_none, Bool.false_eq_true, if_false]
  have t : (do if rel && sc != 0 then takeLate (fun k => k != .message) : Op Unit) s = .ok ⟨⟩ s := by
    split
    · exact takeLate_still _ h
    · rfl
  split
  · exact (op_bind_ok (takeLate_still _ h)).trans t
  · exact t

/-- The reach of the fence before a release ends with it. -/
def State.unfenced (s : State) (rel : Bool) : State :=
  if rel && s.cur.order.fenced.isSome then
    { s with cur := { s.cur with order := { s.cur.order with fenced := none } } } else s

theorem gateOf_still {s : State} (w : Nat) (rel sc : Bool) (scope : Nat) (h : Still s) :
    gateOf w rel sc scope s = .ok (s.gate w rel sc scope) (s.unfenced rel) := by
  unfold gateOf State.unfenced
  rw [op_bind_ok (takeAwaited_still _ _ _ h)]
  simp only [self_bind_run]
  cases rel
  · rfl
  · refine (op_bind_ok (endFence_run s)).trans ?_
    have e : ({ s with cur := { s.cur with order := { s.cur.order with fenced := none } } } : State) =
        if true && s.cur.order.fenced.isSome then
          { s with cur := { s.cur with order := { s.cur.order with fenced := none } } } else s := by
      split
      · rfl
      · have e : s.cur.order.fenced = none := by simp_all
        have : ({ s.cur.order with fenced := none } : Order) = s.cur.order := by rw [← e]
        rw [this]
    rw [← e]
    rfl

theorem storeGate_still {s : State} (m : MemAttr) (h : Still s) :
    storeGate m s = .ok (s.storeGateOf m) (s.unfenced (m.cls = 1 || m.cls = 3)) := gateOf_still _ _ _ _ h

theorem unfenced_cur (s : State) (rel : Bool) :
    (s.unfenced rel).cur = { s.cur with order := (s.unfenced rel).cur.order } := by
  unfold State.unfenced
  split <;> rfl

theorem unfenced_eq (s : State) (rel : Bool) :
    s.unfenced rel = { s with cur := { s.cur with order := (s.unfenced rel).cur.order } } := by
  unfold State.unfenced
  split <;> rfl

theorem unfenced_still {s : State} (rel : Bool) (h : Still s) : Still (s.unfenced rel) := by
  unfold State.unfenced
  split <;> exact h

theorem readOnly_of_writable {s : State} {loc n : Nat} (h : Writable s loc) (hn : n ≤ 64) : s.readOnly loc n = false := by
  unfold Writable State.readOnly at h
  unfold State.readOnly
  rw [List.any_eq_false] at h ⊢
  intro p hp
  have := h p hp
  simp only [Bool.and_eq_true, decide_eq_true_eq, not_and, not_lt] at this ⊢
  omega

theorem postRoom_still {s : State} (k : PostKind) (h : Still s) : postRoom k s = .ok ⟨⟩ s := by
  unfold postRoom
  simp [h.2.2.1, h.2.2.2.2.1, InFlight.counted]

/-! Addresses. -/

theorem atomicAt_cases {s : State} {ia core : Nat} (h : s.atomicAt ia core = true) :
    s.whereIs ia = .pageable ∨ (∃ c, s.whereIs ia = .palette c) ∨ (∃ d, s.whereIs ia = .lagoon d) ∨
      s.whereIs ia = .tcm core := by
  unfold State.atomicAt at h
  split at h <;> simp_all

theorem checkIa_ordinary {s : State} {ia : Nat} (k : Access) (w : Bool) (h : s.atomicAt ia s.cur.id.core = true) :
    s.checkIa s.cur ia k w = none := by
  unfold State.checkIa
  rcases atomicAt_cases h with h | ⟨c, h⟩ | ⟨c, h⟩ | h <;> simp [h]

theorem mapSpot_reaches {s : State} {k : Access} {va ia loc : Nat} (w : Bool) (h : Reaches s k va ia loc)
    (hg : s.cur.sync.region = none) : mapSpot va k w s = .ok ⟨va, ia⟩ s := by
  obtain ⟨h1, h2, h3, -⟩ := h
  unfold mapSpot
  rw [if_neg (Nat.not_le.mpr h1)]
  simp only [get_bind_run, h2, checkIa_ordinary _ _ h3, hg, Option.isSome_none, Bool.false_and, Bool.false_eq_true,
    if_false, pure_run]

theorem reach_reaches {s : State} {k : Access} {va ia loc : Nat} (h : Reaches s k va ia loc) (n : Nat := 1)
    (hn : n ≤ 64 := by omega) : reach ⟨va, ia⟩ k n s = .ok loc s := by
  have hw : ((decide (k = .write) || decide (k = .atomic)) && s.readOnly loc n) = false := by
    by_cases hk : k = .write ∨ k = .atomic
    · simp [readOnly_of_writable (h.2.2.2.2 hk) hn]
    · rw [not_or] at hk; simp [hk.1, hk.2]
  unfold reach
  simp only [get_bind_run, h.2.2.2.1, hw, Bool.false_eq_true, if_false]
  rfl

theorem effectiveVa_ok {s : State} {base : Word} {off : Int} {size al va : Nat}
    (h : s.cur.effective base off size = .ok va) (ha : va % al = 0) : effectiveVa base off size al s = .ok va s := by
  unfold effectiveVa
  simp [h, ha]

theorem resolve_ok {s : State} {base : Word} {off : Int} {n va ia loc : Nat} {k : Access} (w : Bool)
    (h : s.cur.effective base off n = .ok va) (ha : va % n = 0) (hr : Reaches s k va ia loc)
    (hg : s.cur.sync.region = none) : resolve base off n k w s = .ok ⟨va, ia⟩ s := by
  unfold resolve
  rw [op_bind_ok (effectiveVa_ok h ha)]
  exact mapSpot_reaches w hr hg

theorem readMem_ok {s : State} {va ia loc n : Nat} (h : Still s) (hr : Reaches s .read va ia loc)
    (hp : s.poisoned loc n = false) : readMem ⟨va, ia⟩ n s = .ok (s.bytesAt loc n) s := by
  unfold readMem
  rw [op_bind_ok (settle_still _ _ h), op_bind_ok (forcePublish_still _ _ h), op_bind_ok (reach_reaches hr)]
  unfold needClean
  simp [hp, h.2.1]

theorem readSpot_ok {s : State} {va ia loc n : Nat} (h : Still s) (hr : Reaches s .read va ia loc)
    (hp : s.poisoned loc n = false) : readSpot ⟨va, ia⟩ n s = .ok (s.bytesAt loc n) s := by
  unfold readSpot
  rcases atomicAt_cases hr.2.2.1 with h' | ⟨c, h'⟩ | ⟨c, h'⟩ | h' <;> simp [h', readMem_ok h hr hp]

end Sys2Proof.Machine
end

