-- ==== Sys2Proof/Laws/Traps.lean ====
section
/-! SUPPORT. Traps.lean: what taking a trap does to a context that is ready for it (R342). -/

namespace Sys2Proof.Machine

theorem foldl_id {α β : Type} (l : List α) (f : β → α → β) (b : β) (h : ∀ a ∈ l, f b a = b) : l.foldl f b = b := by
  induction l with
  | nil => rfl
  | cons a l ih =>
    simp only [List.foldl_cons, h a (by simp)]
    exact ih (fun x hx => h x (by simp [hx]))

/-- A context that has no place at a code table leaves none. -/
theorem leaveTable_none {s : State} {uid : Nat} (h : ∀ p ∈ s.clusters, ∀ o ∈ p.2.table, o.uid ≠ uid) :
    s.leaveTable uid = s := by
  unfold State.leaveTable
  have e : s.clusters.map (fun c => (c.1, { c.2 with table := c.2.table.filter (fun o => o.uid != uid) })) =
      s.clusters := by
    conv_rhs => rw [← List.map_id s.clusters]
    refine List.map_congr_left (fun c hc => ?_)
    have : c.2.table.filter (fun o => o.uid != uid) = c.2.table :=
      List.filter_eq_self.mpr (fun o ho => by simpa using h c hc o ho)
    rw [this]; rfl
  rw [e]

/-- A context with no command in flight has none squashed. -/
theorem squashFrom_none {s : State} {uid : Nat} {younger : EngineCmd → Bool} (h : s.commandsOf uid = []) :
    s.squashFrom uid younger = s := by
  unfold State.squashFrom
  simp [h]

/-- Nothing of a context that is not engaged is squashed. -/
theorem squashOf_none {s : State} {uid : Nat} (h : Unengaged s uid) : s.squashOf uid = s := by
  unfold State.squashOf
  rw [leaveTable_none h.2, squashFrom_none h.1]

/-- Where one number is borne by one context, a change of the contexts of that number is a change of it. -/
theorem mapCtx_cur {s : State} (hl : s.cur.sched.place = .slot) (ha : Alone s) (f : Context → Context) :
    s.mapCtx s.cur.id.uid f = { s with cur := f s.cur } := by
  unfold State.mapCtx State.mapAll
  have h : s.others.map (fun c => if c.id.uid = s.cur.id.uid && c.live then f c else c) = s.others := by
    conv_rhs => rw [← List.map_id s.others]
    exact List.map_congr_left (fun c hc => by simp [ha c hc])
  have hc : (decide (s.cur.id.uid = s.cur.id.uid) && s.cur.live) = true := by simp [Context.live, hl]
  dsimp only
  rw [h, if_pos hc]

/-- How a trap changes the emulation depth and EPCX: a routine's TRAP n restores both (R353). -/
def trapDepth (s : State) (how : Raised) : Nat := if how = .routine ∧ s.cur.reg.edepth = 1 then 0 else s.cur.reg.edepth

/-- EPCX of a trap outside a glaze. -/
def trapPc (s : State) (how : Raised) : Word :=
  if how = .routine ∧ s.cur.reg.edepth = 1 then s.cur.reg.epcx else s.cur.reg.pc

/-- ECAUSE.LONG of a trap outside a glaze: that of the emulated instruction where a routine's TRAP n raises it (R353). -/
def trapLong (s : State) (how : Raised) : Bool :=
  if how = .routine ∧ s.cur.reg.edepth = 1 then s.cur.reg.ecause.getLsbD 11 else s.cur.long

/-- A trap taken: the context and the record that it leaves. -/
theorem deliverTrap_eq {s : State} (h : TrapReady s) (cause : Nat) (info : Option Word) (how : Raised)
    (hl : how ≠ .late) (hd : (cause ≠ 1 ∧ cause ≠ 2) ∨ s.cur.reg.edepth ≠ 1 ∨ how = .routine) :
    s.deliverTrap s.cur.id.uid cause info how =
      ({ s with cur := { s.cur with
        reg := { s.cur.reg with
          ecause := trapWord cause s.cur.id.slot (trapDepth s how) (trapLong s how)
          epcx := trapPc s how
          eaddr := info.getD s.cur.reg.eaddr
          pc := if how = .call then trapPc s how + 4 else trapPc s how
          edepth := trapDepth s how }
        sched := { s.cur.sched with parked := true }
        sync := { s.cur.sync with wait := .none, grant := none } } } : State).queueTrap s.cur.id.core
        ⟨s.cur.id.uid, false, trapWord cause s.cur.id.slot (trapDepth s how) (trapLong s how), trapPc s how,
          info.getD s.cur.reg.eaddr⟩ := by
  obtain ⟨h1, h2, h3, h4, h5, h6, h7⟩ := h
  have hc : ((decide (cause = 1) || decide (cause = 2)) && decide (s.cur.reg.edepth = 1) && true && how != .routine) =
      false := by
    rcases hd with hd | hd | hd
    · simp [hd.1, hd.2]
    · simp [hd]
    · simp [hd]
  have e1 : ecauseOf cause s.cur.id.slot (trapLong s how) (trapDepth s how) false (decide (how = .late)) =
      trapWord cause s.cur.id.slot (trapDepth s how) (trapLong s how) := by
    unfold ecauseOf trapWord
    simp [hl]
  have e2 : (if (decide (how = .routine) && decide (s.cur.reg.edepth = 1)) = true then 0 else s.cur.reg.edepth) =
      trapDepth s how := by
    unfold trapDepth
    simp
  have e3 : (if (decide (how = .routine) && decide (s.cur.reg.edepth = 1) && true) = true then s.cur.reg.epcx
      else s.cur.reg.pc) = trapPc s how := by
    unfold trapPc
    simp
  have e4 : (if (decide (how = .routine) && decide (s.cur.reg.edepth = 1)) = true then s.cur.reg.ecause.getLsbD 11
      else s.cur.long) = trapLong s how := by
    unfold trapLong
    simp
  unfold State.deliverTrap
  simp only [ctx_cur h2, h1, h3, Option.isSome_none, squashOf_none ⟨h5, h7⟩, h6, hc, Bool.false_eq_true, if_false,
    Bool.not_false, mapCtx_cur h2 h4, e1, e2, e3, e4]

/-- A trap taken. -/
theorem deliverTrap_spec {s : State} (h : TrapReady s) (cause : Nat) (info : Option Word) (how : Raised)
    (hl : how ≠ .late) (hd : (cause ≠ 1 ∧ cause ≠ 2) ∨ s.cur.reg.edepth ≠ 1 ∨ how = .routine) :
    TrapsAt s (s.deliverTrap s.cur.id.uid cause info how) (trapLong s how) cause (trapDepth s how) (trapPc s how)
      (info.getD s.cur.reg.eaddr) (if how = .call then trapPc s how + 4 else trapPc s how) := by
  rw [deliverTrap_eq h cause info how hl hd]
  refine ⟨rfl, ?_, rfl, ?_, fun k hk => ?_⟩ <;>
    simp [State.queueTrap, State.core, State.setCore, tabGet_tabPut, *]

end Sys2Proof.Machine
end

