-- ==== Sys2Proof/Laws/Access.lean ====
section
/-! SUPPORT. Access.lean: what loads, stores, atomics, reductions and fences do when nothing holds them up. -/

namespace Sys2Proof.Machine

/-! Acquires. -/

/-- A context outside any glaze with no deferred flags takes none. -/
theorem takeDeferred_none {s : State} (n : Nat) (hg : s.cur.sync.region = none) (hd : s.cur.io.deferred = 0) :
    takeDeferred n s = .ok ⟨⟩ s := by
  unfold takeDeferred
  simp only [inGlaze_bind_run, hg]
  split
  · rfl
  · simp only [modifySelf_run, Context.orFlags, hd]
    have h1 : s.cur.reg.fps ||| BitVec.zeroExtend 64 (0 : BitVec 6) = s.cur.reg.fps := by simp
    have h2 : ({ s.cur.io with deferred := 0 } : InFlight) = s.cur.io := by rw [← hd]
    rw [h1, h2]

/-- The end of an acquire changes what the context notes of it, and event counters. -/
theorem acquired_run {s : State} (wide : Bool) (sc : Nat) (hg : s.cur.sync.region = none) (hd : s.cur.io.deferred = 0) :
    ∃ u, acquired wide sc s = .ok ⟨⟩ u ∧ Beside s u ∧ u.cur = { s.cur with order := u.cur.order } := by
  have last : ∀ (n : Nat) (v : State), v.cur = s.cur → Beside s v → ∃ u, (do
      acquireNow
      takeDeferred n : Op Unit) v = .ok ⟨⟩ u ∧ Beside s u ∧ u.cur = { s.cur with order := u.cur.order } := by
    intro n v hv hb
    refine ⟨{ v with cur := { v.cur with order := { v.cur.order with acquired := v.now } } }, ?_, ⟨hb.1, hb.2⟩, by rw [← hv]⟩
    have e : acquireNow v = .ok ⟨⟩ { v with cur := { v.cur with order := { v.cur.order with acquired := v.now } } } := rfl
    rw [op_bind_ok e]
    exact takeDeferred_none _ (by rw [hv]; exact hg) (by rw [hv]; exact hd)
  unfold acquired
  cases wide
  · exact last sc s rfl (beside_cur s s.cur)
  · exact last 6 (s.event s.cl 11) (event_cur ..)
      ⟨congrArg (fun q : State => { q with cur := s.cur, clusters := s.clusters }) (event_fields s s.cl 11),
        event_counting s s.cl 11⟩

/-- An acquire of a context with nothing in flight. -/
theorem acquires_run {s : State} (p : Spot) (n sc : Nat) (h : Calm s) : ∃ u, acquires p n sc s = .ok ⟨⟩ u ∧ Beside s u ∧
    u.cur = { s.cur with order := u.cur.order } := by
  obtain ⟨u, hu, hb⟩ := acquired_run (s := s) ([p].any (fun q => s.widens q n sc)) sc h.1.2.1 h.2
  refine ⟨u, ?_, hb⟩
  unfold acquires acquiresAll
  simp only [get_bind_run]
  split
  · exact (op_bind_ok (waitReds_still _ h.1)).trans hu
  · exact hu

/-! Loads. -/

/-- The end of a load that has its bytes. -/
theorem loaded_spec {s : State} {t : XReg} {m : MemAttr} {n len : Nat} {w : Word} {p : Spot} (h : Calm s) :
    ∃ u, (do
      if acquiring m then acquires p n m.scope.val
      writeX t w
      retires len : Op Unit) s = .ok ⟨⟩ u ∧ Finishes s u (s.gpr t w len) := by
  have last : ∀ v : State, v.cur = { s.cur with order := v.cur.order } → Beside s v → ∃ u, (do
      writeX t w
      retires len : Op Unit) v = .ok ⟨⟩ u ∧ Finishes s u (s.gpr t w len) := by
    intro v hv hb
    simp only [writeX_bind_run, setX_eq]
    refine ⟨_, rfl, finishes_of len ?_ ⟨hb.1, hb.2⟩⟩
    rw [hv]
  split
  · obtain ⟨u, hu, hbu, hcu⟩ := acquires_run p n m.scope.val h
    rw [op_bind_ok hu]
    exact last u hcu hbu
  · exact last s rfl (beside_cur s s.cur)

/-- A load that nothing holds up, and that is not an invariant one. -/
theorem load_spec {s : State} {t a : XReg} {m : MemAttr} {off : Int} {n len va ia loc : Nat} (h : Calm s)
    (he : s.cur.effective (s.arg a) off n = .ok va) (ha : va % n = 0) (hr : Reaches s .read va ia loc)
    (hp : s.poisoned loc n = false) (hm : m.cls ≠ 2) :
    ∃ u, s.does (load t a m off n len) = .next u ∧
      Finishes s u (s.gpr t (BitVec.ofNat 64 (fromBytes (s.bytesAt loc n))) len) := by
  obtain ⟨u, hu, hf⟩ := loaded_spec (t := t) (m := m) (n := n) (len := len) (p := ⟨va, ia⟩)
    (w := word (fromBytes (s.bytesAt loc n))) h
  refine ⟨u, does_ok ?_, hf⟩
  unfold load
  simp only [readX_bind_run, x_eq]
  rw [op_bind_ok (resolve_ok _ he ha hr h.1.2.1), op_bind_ok (loadWaits_still m h.1)]
  simp only [get_bind_run, hm, decide_false, Bool.false_and, Bool.false_eq_true, if_false]
  rw [op_bind_ok (readSpot_ok h.1 hr hp)]
  exact hu

/-! Stores. -/

theorem clobber_plain {s : State} {ia loc n k : Nat}
    (h : ∀ o ∈ s.objects, ¬(o.1 < ia + n ∧ ia < o.1 + 64)) : s.clobber ia loc n k = s := by
  unfold State.clobber
  generalize s.objects = l at h ⊢
  induction l with
  | nil => rfl
  | cons o rest ih =>
    have h1 := h o (by simp)
    have : (decide (o.1 < ia + n) && decide (ia < o.1 + 64)) = false := by
      rw [Bool.and_eq_false_iff]; simp only [decide_eq_false_iff_not]; omega
    simp only [List.foldl_cons, this, Bool.false_eq_true, if_false]
    exact ih (fun o' ho => h o' (by simp [ho]))

theorem prepare_ok {s : State} {va ia loc n : Nat} (h : Still s) (hr : Reaches s .write va ia loc) (hn : n ≤ 64) :
    prepare ⟨va, ia⟩ n s = .ok loc s := by
  unfold prepare
  rw [op_bind_ok (settle_still _ _ h), op_bind_ok (forcePublish_still _ _ h), op_bind_ok (reach_reaches hr n hn)]
  simp [h.2.1]

theorem prepareSpot_ok {s : State} {va ia loc n : Nat} (h : Still s) (hr : Reaches s .write va ia loc) (hn : n ≤ 64) :
    prepareSpot ⟨va, ia⟩ n s = .ok (some loc) s := by
  unfold prepareSpot
  rcases atomicAt_cases hr.2.2.1 with h' | ⟨c, h'⟩ | ⟨c, h'⟩ | h' <;>
    simp only [get_bind_run, h'] <;> exact op_map_ok (prepare_ok h hr hn)

/-- A store that meets no watched object puts its bytes in memory, and notes them. -/
theorem storeAt_plain {s : State} {ia loc : Nat} {bs : List Byte} (w : Writer) (hp : Plain s ia bs.length) :
    Noted (s.putBytes loc bs) (s.storeAt ia loc bs w) := by
  unfold State.storeAt
  rw [clobber_plain hp.1]
  exact (putBy_noted ..).trans (announce_noted ..)

/-- The write of a store that nothing holds up. -/
theorem write_plain {s : State} {va ia loc : Nat} {bs : List Byte} {g : Gate} (h : Still s) (hp : Plain s ia bs.length) :
    ∃ u, write ⟨va, ia⟩ loc bs g s = .ok ⟨⟩ u ∧ Noted (s.putBytes loc bs) u := by
  unfold write
  refine ⟨_, ?_, (storeAt_plain s.cur.writer hp).trans (gateDone_noted _ s.cur.id.uid g [(ia, bs)] s.now)⟩
  simp [h.2.1, hp.2, lets_still g h]

/-- An instruction whose action ends with the registers r and bytes put in memory. -/
theorem finishesStore_at {s u : State} {r : Regs} {loc : Nat} {bs : List Byte} (len : Nat) (hb : BesideMemory s u)
    (hm : u.mem = (s.putBytes loc bs).mem) (hc : u.cur = { s.cur with reg := r, order := u.cur.order }) :
    FinishesStore s (u.retired len) (r.step len) loc bs := by
  have hm : (u.retired len).mem = (s.putBytes loc bs).mem := by
    rw [retired_eq]
    exact (congrArg State.mem (event_fields _ _ _) :).trans hm
  refine ⟨⟨?_, Or.inr ?_⟩, ?_, ?_, ?_⟩
  · rw [retired_eq, event_cur]; simp only; rw [hc]
  · rw [retired_eq, event_cur]; simp only; rw [hc]
  · rw [retired_eq]; exact besideMemory_event hb ..
  · unfold State.bytesAt
    rw [hm]
    exact cellsGet_cellsSet ..
  · intro a ha
    rw [hm]
    exact cellGet_cellsSet_outside _ _ _ _ ha

/-- Bytes put in memory, what memory notes beside them, and a retirement. -/
theorem finishesStore_of {s u : State} {r : Regs} {c : Context} {loc : Nat} {bs : List Byte} (len : Nat)
    (hu : Noted (({ s with cur := c } : State).putBytes loc bs) u) (hc : u.cur = { s.cur with reg := r, order := u.cur.order }) :
    FinishesStore s (u.retired len) (r.step len) loc bs :=
  finishesStore_at len (besideMemory_noted hu) hu.mem hc

/-- A change beside memory after one beside memory and its bytes. -/
theorem besideMemory_beside {s v u : State} (h : BesideMemory s v) (h' : Beside v u) : BesideMemory s u :=
  ⟨(congrArg (fun q : State => { q.withNotes s with
    cur := s.cur, clusters := s.clusters, mem := s.mem, poison := s.poison }) h'.1 :).trans h.1, h.2.trans h'.2⟩

/-- A store that nothing holds up and no counter counts. -/
theorem store_spec {s : State} {t a : XReg} {m : MemAttr} {off : Int} {n len va ia loc : Nat} (h : Still s)
    (he : s.cur.effective (s.arg a) off n = .ok va) (ha : va % n = 0) (hr : Reaches s .write va ia loc) (hn : n ≤ 64)
    (hk : s.postKind s.cur ia (m.cls = 2) = none) (hp : Plain s ia n) :
    ∃ u, s.does (store t a m off n len) = .next u ∧
      FinishesStore s u (s.cur.reg.step len) loc (toBytes n ((s.arg t).toNat % 2 ^ (8 * n))) := by
  have hl : (toBytes n ((s.arg t).toNat % 2 ^ (8 * n))).length = n := by simp
  have hg := storeGate_still m h
  have h1 := unfenced_still (m.cls = 1 || m.cls = 3) h
  have e1 := unfenced_eq s (m.cls = 1 || m.cls = 3)
  have hc1 := unfenced_cur s (m.cls = 1 || m.cls = 3)
  generalize s.unfenced (m.cls = 1 || m.cls = 3) = s1 at hg h1 e1 hc1
  have hp1 : Plain s1 ia (toBytes n ((s.arg t).toNat % 2 ^ (8 * n))).length := by
    rw [hl, e1]; exact hp
  obtain ⟨u, hu, hnu⟩ := write_plain (g := s.storeGateOf m) (va := va) (loc := loc) h1 hp1
  refine ⟨u.retired len, does_ok ?_, finishesStore_of (c := s1.cur) len ?_ (by rw [hnu.cur]; exact hc1)⟩
  · unfold store
    simp only [readX_bind_run, x_eq]
    rw [op_bind_ok (resolve_ok _ he ha hr h.2.1)]
    simp only [readX_bind_run, x_eq, get_bind_run, hk]
    rw [op_bind_ok (prepareSpot_ok h hr hn)]
    refine (op_bind_ok hg).trans ?_
    exact op_bind_ok hu
  · have e2 : ({ s with cur := s1.cur } : State) = s1 := by rw [hc1]; exact e1.symm
    rw [e2]; exact hnu

/-! Posted stores and reductions. -/

theorem mapSpot_maps {s : State} {k : Access} {va ia : Nat} (w : Bool) (h : Maps s k va ia)
    (hg : s.cur.sync.region = none) : mapSpot va k w s = .ok ⟨va, ia⟩ s := by
  obtain ⟨h1, h2, h3⟩ := h
  unfold mapSpot
  rw [if_neg (Nat.not_le.mpr h1)]
  simp only [get_bind_run, h2, checkIa_ordinary _ _ h3, hg, Option.isSome_none, Bool.false_and, Bool.false_eq_true,
    if_false, pure_run]

theorem resolve_maps {s : State} {base : Word} {off : Int} {n va ia : Nat} {k : Access} (w : Bool)
    (h : s.cur.effective base off n = .ok va) (ha : va % n = 0) (hr : Maps s k va ia)
    (hg : s.cur.sync.region = none) : resolve base off n k w s = .ok ⟨va, ia⟩ s := by
  unfold resolve
  rw [op_bind_ok (effectiveVa_ok h ha)]
  exact mapSpot_maps w hr hg

/-- Accesses in flight of the context replaced, work laid down, flushes released, and a retirement. -/
theorem leaves_of (s : State) (o : Order) (fl : List Flush) (r : Regs) (io : InFlight) (work : List Duty) (len : Nat) :
    Leaves s (({ s with
      cur := { s.cur with reg := r, io := io, order := o }, agenda := s.agenda ++ work, flushes := fl } : State).retired len)
      (r.step len) io work := by
  rw [retired_eq]
  dsimp only
  generalize hc : ({ s with
    cur := { s.cur with
      reg := r.step len, io := io, order := o, id := { s.cur.id with rob := s.cur.id.rob + 1 }
      sync := { s.cur.sync with wait := .none, grant := none } }
    agenda := s.agenda ++ work, flushes := fl } : State) = u
  have he := event_fields u (clusterOf s.cur.id.core) 2
  have ho : u.cur.order = o := by rw [← hc]
  refine ⟨by rw [event_cur, ho, ← hc], ?_, ?_, ?_⟩
  · have := congrArg (fun t : State => { t with
      cur := s.cur, clusters := s.clusters, agenda := s.agenda, flushes := s.flushes }) he
    rw [← hc] at this ⊢
    exact this
  · intro k
    have := event_counting u (clusterOf s.cur.id.core) 2 k
    rw [← hc] at this ⊢
    exact this
  · have := (congrArg State.agenda he :)
    rw [← hc] at this ⊢
    exact this

theorem postStore_ok {s : State} {k : PostKind} {ia : Nat} {bs : List Byte} {g : Gate} (h : Still s) :
    postStore k [(ia, bs)] false g s = .ok ⟨⟩ { s with
      cur := { s.cur with io := { s.cur.io with posted := [⟨k, [(ia, bs)], s.cur.bits, false, false, s.now, g⟩] } }
      agenda := s.agenda ++ [.postedAck s.cur.id.uid] } := by
  unfold postStore
  simp only [Bool.not_false, if_true, List.forM_eq_forM, List.forM_cons, List.forM_nil, bind_assoc]
  refine (op_bind_ok (settleWith_still _ _ _ h)).trans ?_
  refine (op_bind_ok (postRoom_still k h)).trans ?_
  simp only [get_bind_run]
  unfold post
  simp only [modifySelf_bind_run, self_bind_run, due_run, h.2.2.1, List.nil_append]

theorem store_posted {s : State} {t a : XReg} {m : MemAttr} {off : Int} {n len va ia : Nat} {k : PostKind}
    (h : Still s) (he : s.cur.effective (s.arg a) off n = .ok va) (ha : va % n = 0) (hr : Maps s .write va ia)
    (hk : s.postKind s.cur ia (m.cls = 2) = some k) :
    ∃ u, s.does (store t a m off n len) = .next u ∧
      Leaves s u (s.cur.reg.step len)
        { s.cur.io with
          posted := [⟨k, [(ia, toBytes n ((s.arg t).toNat % 2 ^ (8 * n)))], s.cur.bits, false, false, s.now,
            s.storeGateOf m⟩] }
        [.postedAck s.cur.id.uid] := by
  have hg := storeGate_still m h
  have h1 := unfenced_still (m.cls = 1 || m.cls = 3) h
  have e1 := unfenced_eq s (m.cls = 1 || m.cls = 3)
  generalize s.unfenced (m.cls = 1 || m.cls = 3) = s1 at hg h1 e1
  have hp := postStore_ok (k := k) (ia := ia) (bs := toBytes n ((s.arg t).toNat % 2 ^ (8 * n)))
    (g := s.storeGateOf m) h1
  refine ⟨_, does_ok ?_, leaves_of s s1.cur.order s.flushes s.cur.reg _ _ len⟩
  unfold store
  simp only [readX_bind_run, x_eq]
  rw [op_bind_ok (resolve_maps _ he ha hr h.2.1)]
  simp only [readX_bind_run, x_eq, get_bind_run, hk]
  refine (op_bind_ok hg).trans ?_
  refine (op_bind_ok hp).trans ?_
  rw [e1]
  rfl

/-! Atomics and reductions. -/

theorem resolveAtomic_maps {s : State} {a : XReg} {n va ia : Nat} (h : s.cur.effective (s.arg a) 0 n = .ok va)
    (ha : va % n = 0) (hm : Maps s .atomic va ia) (hg : s.cur.sync.region = none) :
    resolveAtomic a n s = .ok ⟨va, ia⟩ s := by
  unfold resolveAtomic
  simp only [get_bind_run, x_eq]
  rw [op_bind_ok (effectiveVa_ok h ha)]
  have hw : s.whereIs ia ≠ .reserved := by
    rcases atomicAt_cases hm.2.2 with h' | ⟨c, h'⟩ | ⟨c, h'⟩ | h' <;> simp [h']
  simp [hm.2.1, hw, hm.2.2, hg]

theorem atomicStep_ok {s : State} {fn : AmoFn} {n va ia loc : Nat} {b c : Word} (h : Still s)
    (hr : Reaches s .atomic va ia loc) (hp : s.poisoned loc n = false) (hq : Plain s ia n) (hn : n ≤ 64) :
    let r := amoOp fn n (s.numAt loc n) (b.toNat % 2 ^ (8 * n)) c.toNat
    ∃ u, atomicStep fn n ⟨va, ia⟩ b c s = .ok (s.numAt loc n, r.2) u ∧ Noted (s.putBytes loc (toBytes n r.1)) u := by
  intro r
  have hl : (toBytes n r.1).length = n := by simp
  refine ⟨s.storeAt ia loc (toBytes n r.1) s.cur.writer, ?_, storeAt_plain _ (by rw [hl]; exact hq)⟩
  unfold atomicStep
  rw [op_bind_ok (settle_still _ _ h), op_bind_ok (forcePublish_still _ _ h), op_bind_ok (reach_reaches hr n hn)]
  unfold needClean
  simp [hp, h.2.1, hq.2, r]

theorem amo_spec {s : State} {fn : AmoFn} {n va ia loc : Nat} {d a b : XReg} {scope : Fin 8} {o : Bool} (h : Calm s)
    (he : s.cur.effective (s.arg a) 0 n = .ok va) (ha : va % n = 0) (hr : Reaches s .atomic va ia loc)
    (hp : s.poisoned loc n = false) (hq : Plain s ia n) (hn : n ≤ 64) :
    let r := amoOp fn n (s.numAt loc n) ((s.arg b).toNat % 2 ^ (8 * n)) (s.arg d).toNat
    ∃ u, s.does (amo fn n d a b scope o) = .next u ∧
      FinishesStore s u (((s.cur.reg.put d (BitVec.ofNat 64 (s.numAt loc n))).flag r.2).step 4) loc (toBytes n r.1) := by
  intro r
  obtain ⟨u, hu, hnu⟩ := atomicStep_ok (fn := fn) (b := s.arg b) (c := s.arg d) h.1 hr hp hq hn
  generalize hR : (s.cur.reg.put d (BitVec.ofNat 64 (s.numAt loc n))).flag r.2 = R
  let v : State := { u with cur := { s.cur with reg := R } }
  have hv : Noted (({ s with cur := { s.cur with reg := R } } : State).putBytes loc (toBytes n r.1)) v :=
    hnu.setCurPut { s.cur with reg := R }
  have tail : ∀ wide : Bool, ∃ t, (do
      let (old, fl) ← atomicStep fn n ⟨va, ia⟩ (← readX b) (← readX d)
      writeX d (BitVec.ofNat 64 old)
      modifySelf (fun c => c.orFlags fl)
      if o then
        endFence
        modify (fun s => s.noteRelease s.cur.id.uid s.cur.id.core [ia / 128] scope.val s.now)
        acquired wide scope.val
      retires 4 : Op Unit) s = .ok ⟨⟩ t ∧ FinishesStore s t (R.step 4) loc (toBytes n r.1) := by
    intro wide
    simp only [readX_bind_run, x_eq]
    rw [op_bind_ok hu]
    simp only [writeX_bind_run, modifySelf_bind_run, setX_eq, hnu.cur]
    have e : ∀ f : Unit → Op Unit, f ⟨⟩ { u with cur := Context.orFlags { s.cur with
        reg := s.cur.reg.put d (BitVec.ofNat 64 (s.numAt loc n)) } r.2 } = f ⟨⟩ v := by
      intro f; simp only [v, ← hR]; rfl
    cases o
    · simp only [Bool.false_eq_true, if_false]
      refine ⟨v.retired 4, ?_, finishesStore_of 4 hv rfl⟩
      exact e (fun _ => retires 4)
    · simp only [if_true]
      let c1 : Context := { s.cur with reg := R, order := { s.cur.order with fenced := none } }
      have hv1 : Noted (({ s with cur := c1 } : State).putBytes loc (toBytes n r.1)) { u with cur := c1 } := hnu.setCurPut c1
      let w : State := ({ u with cur := c1 } : State).noteRelease s.cur.id.uid s.cur.id.core [ia / 128] scope.val u.now
      have hw := hv1.trans (noteRelease_noted { u with cur := c1 } s.cur.id.uid s.cur.id.core [ia / 128] scope.val u.now)
      have hcw : w.cur = c1 := hw.cur
      obtain ⟨y, hy, hby, hcy⟩ := acquired_run (s := w) wide scope.val (by rw [hcw]; exact h.1.2.1) (by rw [hcw]; exact h.2)
      refine ⟨y.retired 4, ?_, finishesStore_at 4 (besideMemory_beside (besideMemory_noted hw) hby) ?_ ?_⟩
      · refine (e (fun _ => do
          endFence
          modify (fun s => s.noteRelease s.cur.id.uid s.cur.id.core [ia / 128] scope.val s.now)
          acquired wide scope.val
          retires 4)).trans ?_
        refine (op_bind_ok (endFence_run v)).trans ?_
        simp only [modify_bind_run]
        refine (op_bind_ok (a := ⟨⟩) (t := y) ?_).trans rfl
        exact hy
      · exact (congrArg State.mem hby.1 :).trans hw.mem
      · rw [hcy, hcw]
  have hres := resolveAtomic_maps he ha ⟨hr.1, hr.2.1, hr.2.2.1⟩ h.1.2.1
  unfold amo
  cases o
  · obtain ⟨t, ht, hf⟩ := tail false
    exact ⟨t, does_ok ((op_bind_ok hres).trans ht), hf⟩
  · obtain ⟨t, ht, hf⟩ := tail (s.widens ⟨va, ia⟩ n scope.val)
    refine ⟨t, does_ok ((op_bind_ok hres).trans ?_), hf⟩
    refine (op_bind_ok (waitRelease_still _ h.1)).trans ?_
    simp only [get_bind_run, Bool.true_and]
    split
    · exact (op_bind_ok (waitReds_still _ h.1)).trans ht
    · exact ht

theorem red_spec {s : State} {fn : AmoFn} {n va ia : Nat} {a b : XReg} {scope : Fin 8} {rel : Bool} (h : Still s)
    (he : s.cur.effective (s.arg a) 0 n = .ok va) (ha : va % n = 0) (hm : Maps s .atomic va ia) :
    ∃ u, s.does (red fn n a b scope rel) = .next u ∧
      Leaves s u (s.cur.reg.step 4) { s.cur.io with
          reds := [⟨fn, n, ia, s.arg b, s.cur.bits, false, false, s.now, s.gate 0 rel false scope.val⟩] }
        [.redPerform s.cur.id.uid, .redAck s.cur.id.uid] := by
  have hg := gateOf_still 0 rel false scope.val h
  have e1 := unfenced_eq s rel
  generalize s.unfenced rel = s1 at hg e1
  refine ⟨_, does_ok ?_, leaves_of s s1.cur.order s.flushes s.cur.reg _ _ 4⟩
  unfold red
  rw [op_bind_ok (resolveAtomic_maps he ha hm h.2.1)]
  have hz : ¬(32 ≤ 0) := by omega
  simp only [readX_bind_run, x_eq, get_bind_run, self_bind_run, h.2.1, Option.isSome_none, Bool.false_eq_true, if_false,
    h.2.2.2.1, List.length_nil, hz]
  refine (op_bind_ok (settleWith_still _ _ _ h)).trans ?_
  refine (op_bind_ok hg).trans ?_
  rw [e1]
  simp [h.2.2.2.1]

/-! Fences. -/

theorem fence_spec {s : State} {kind : Nat} {scope : Fin 8} {w : Fin 4} (h : Still s) :
    ∃ u, s.does (fenceOp kind scope w) = .next u ∧
      if 2 ≤ scope.val then
        Leaves s u ((s.cur.reg.flag s.cur.io.deferred).step 4) { s.cur.io with deferred := 0 } []
      else Leaves s u (s.cur.reg.step 4) s.cur.io [] := by
  have hd : takeDeferred scope.val s = .ok ⟨⟩ (if 2 ≤ scope.val then
      { s with cur := { s.cur with
        reg := s.cur.reg.flag s.cur.io.deferred, io := { s.cur.io with deferred := 0 } } } else s) := by
    unfold takeDeferred
    simp only [inGlaze_bind_run, h.2.1]
    by_cases h2 : scope.val < 2
    · simp [h2, Nat.not_le.mpr h2]
    · simp only [h2, Nat.not_lt.mp h2, decide_false, Option.isSome_none, Bool.or_self, Bool.false_eq_true, if_false,
        if_true]
      rfl
  have last : ∀ v : State, ∃ o fl, (do
      let s ← get
      if kind != 1 && scope != 0 then set (s.releaseFlushes s.cur.id.uid s.cur.id.core scope.val s.now)
      modifySelf (fun c => { c with order := { c.order with
        fenced := if kind = 1 || scope = 0 || scope = 6 then none else some scope.val
        acquired := if kind = 2 || scope = 0 then c.order.acquired else s.now } })
      retires 4 : Op Unit) v = .ok ⟨⟩ (({ v with cur := { v.cur with order := o }, flushes := fl } : State).retired 4) := by
    intro v
    simp only [get_bind_run]
    split
    · exact ⟨_, _, rfl⟩
    · exact ⟨_, v.flushes, rfl⟩
  have t2 : ∃ o fl, (do
      if scope = 6 then takeLate (fun k => k = .message)
      waitCounter w.val
      takeDeferred scope.val
      let s ← get
      if kind != 1 && scope != 0 then set (s.releaseFlushes s.cur.id.uid s.cur.id.core scope.val s.now)
      modifySelf (fun c => { c with order := { c.order with
        fenced := if kind = 1 || scope = 0 || scope = 6 then none else some scope.val
        acquired := if kind = 2 || scope = 0 then c.order.acquired else s.now } })
      retires 4 : Op Unit) s = .ok ⟨⟩ ((if 2 ≤ scope.val then
      { s with cur := { s.cur with
        reg := s.cur.reg.flag s.cur.io.deferred, io := { s.cur.io with deferred := 0 }, order := o }, flushes := fl }
      else { s with cur := { s.cur with order := o }, flushes := fl } : State).retired 4) := by
    obtain ⟨o, fl, hl⟩ := last (if 2 ≤ scope.val then
      { s with cur := { s.cur with
        reg := s.cur.reg.flag s.cur.io.deferred, io := { s.cur.io with deferred := 0 } } } else s)
    refine ⟨o, fl, ?_⟩
    have e : (({ (if 2 ≤ scope.val then
      { s with cur := { s.cur with
        reg := s.cur.reg.flag s.cur.io.deferred, io := { s.cur.io with deferred := 0 } } } else s : State) with
        cur := { (if 2 ≤ scope.val then
      { s with cur := { s.cur with
        reg := s.cur.reg.flag s.cur.io.deferred, io := { s.cur.io with deferred := 0 } } } else s : State).cur with
          order := o }, flushes := fl } : State)) = (if 2 ≤ scope.val then
      { s with cur := { s.cur with
        reg := s.cur.reg.flag s.cur.io.deferred, io := { s.cur.io with deferred := 0 }, order := o }, flushes := fl }
      else { s with cur := { s.cur with order := o }, flushes := fl } : State) := by
      split <;> rfl
    rw [← e]
    dsimp only
    split
    · refine (op_bind_ok (takeLate_still _ h)).trans ?_
      refine (op_bind_ok (waitCounter_still _ h)).trans ?_
      exact (op_bind_ok hd).trans hl
    · refine (op_bind_ok (waitCounter_still _ h)).trans ?_
      exact (op_bind_ok hd).trans hl
  obtain ⟨o, fl, ht⟩ := t2
  have hf : fenceOp kind scope w s = .ok ⟨⟩ ((if 2 ≤ scope.val then
      { s with cur := { s.cur with
        reg := s.cur.reg.flag s.cur.io.deferred, io := { s.cur.io with deferred := 0 }, order := o }, flushes := fl }
      else { s with cur := { s.cur with order := o }, flushes := fl } : State).retired 4) := by
    unfold fenceOp
    simp only [inGlaze_bind_run, h.2.1, Option.isSome_none, Bool.not_false, if_true]
    split
    · split
      · exact (op_bind_ok (waitReds_still _ h)).trans ht
      · exact (op_bind_ok (waitRelease_still _ h)).trans ht
    · exact ht
  refine ⟨_, does_ok hf, ?_⟩
  split
  · have := leaves_of s o fl (s.cur.reg.flag s.cur.io.deferred) { s.cur.io with deferred := 0 } [] 4
    simpa using this
  · have := leaves_of s o fl s.cur.reg s.cur.io [] 4
    simpa using this

end Sys2Proof.Machine
end

