-- ==== Sys2Proof/Safety.lean ====
section
/-! DEFINITION. Safety.lean: what counts as a safe run. -/

namespace Sys2Proof.Machine

/-- A step that answers a next state. -/
def Advances (s : State) : Prop := ∃ t, step s = .next t

/-- A state from which no number of steps stops. -/
def Safe (s : State) : Prop := ∀ n, ∃ t, Sys2Proof.core.run n s = .next t

end Sys2Proof.Machine
end

