-- ==== Sys2Proof/Tests/Slice0.lean ====
section
/-! SUPPORT. Slice0.lean: tests. First the words of the encodings and ill-formed terms, then single steps on small
states, then witnesses: for each statement of Obligations.lean that has hypotheses, states and operands that meet
them. -/

open Sys2Proof Sys2Proof.Machine

namespace Sys2Proof.Tests

set_option Elab.async false

/-! The states of the tests. -/

/-- A range register: n units of 32 MiB from va to ia, all permissions. -/
def rangeTo (va ia n : Nat) : BitVec 128 :=
  BitVec.ofNat 128 (0x1F + va / 2 ^ 25 * 2 ^ 21 + ia / 2 ^ 25 * 2 ^ 56 + (va / 2 ^ 25 + n) * 2 ^ 87)

/-- Ranges: 1 GiB at 0 to pageable memory, then at 2^31 the lagoons, the TCMs at 2^32, the control blocks at 2^33. -/
def testRanges : Vector (BitVec 128) 8 :=
  #v[rangeTo 0 0 32, rangeTo (2 ^ 31) 0x10000000000000 2, rangeTo (2 ^ 32) 0x12000000000000 1,
    rangeTo (2 ^ 33) 0x14000000000000 1, 0, 0, 0, 0]

/-- A user context in a slot of a core. -/
def user (uid core slot : Nat) : Context :=
  let c := Context.reset uid core slot false
  { c with reg := { c.reg with pc := 0x100000, amap := testRanges } }

/-- The supervisor of a core. -/
def super (core : Nat) : Context :=
  let c := Context.reset core core 7 true
  { c with reg := { c.reg with pc := 0x200000, amap := testRanges } }

/-- Context 0x1001 runs in slot 0 of core 0 beside the supervisor; 1 GiB of memory is mapped to itself by one leaf. -/
def base : State := { State.reset with
  cur := user 0x1001 0 0, others := [super 0]
  mem := cellsSet (cellsSet [] 0x4000 (toBytes 8 0x8001)) 0x8000 (toBytes 8 0xBD)
  ctl := [(0, 0x4001)] }

/-- With bytes of memory. -/
def withMem (s : State) (loc : Nat) (bs : List Byte) : State := { s with mem := cellsSet s.mem loc bs }

/-- With the context whose turn it is changed. -/
def withCur (s : State) (f : Context → Context) : State := { s with cur := f s.cur }

/-- With an x register. -/
def withX (s : State) (a : XReg) (w : Word) : State :=
  withCur s (fun c => { c with reg := { c.reg with x := c.reg.x.set a w } })

/-- The supervisor of core 0 runs. -/
def superBase : State := { base with cur := super 0, others := [user 0x1001 0 0] }

/-- x1 names memory, x2 a place that is not aligned, x3 one beyond 2^60, x4 a lagoon, x5 a place that no range maps. -/
def st : State :=
  withX (withX (withX (withX (withX (withMem base 0x120000 [1, 2, 3, 4, 5, 6, 7, 8]) 1 0x120000) 2 0x120001) 3 (2 ^ 60))
    4 (2 ^ 31 + 64)) 5 (2 ^ 40)


/-! Words written from the encodings of chapter 04 (R75, R84 to R93): one for each instruction, with the instruction that
it stands for. -/

/-- Each word decodes to the instruction beside it, which passes the checks of its fields. -/
def decodesTo (l : List (Nat × Nat × Instr)) : Prop :=
  ∀ p ∈ l, decodeParcels p.1 p.2.1 = .ok p.2.2 ∧ checkFields p.2.2 = none

theorem test_decode_integer_1 : decodesTo [
      (0x08486000, 0, .add 2 8 12), (0x086FB810, 0, .sub 3 15 23), (0x08961820, 0, .and 4 22 3),
      (0x08BD7030, 0, .or 5 29 14), (0x08C5C840, 0, .xor 6 5 25), (0x08EC2850, 0, .sll 7 12 5),
      (0x09138060, 0, .srl 8 19 16), (0x093AD870, 0, .sra 9 26 27), (0x09423881, 0, .slli 10 2 0x27),
      (0x09699091, 0, .srli 11 9 0x32), (0x0990E8A1, 0, .srai 12 16 0x3D), (0x09B748B0, 0, .mul 13 23 9),
      (0x09DEA0C0, 0, .mulh 14 30 20), (0x09E6F8D0, 0, .mulhu 15 6 31), (0x0A0D58E0, 0, .div 16 13 11),
      (0x0A34B0F0, 0, .divu 17 20 22), (0x0A5B1100, 0, .rem 18 27 2), (0x0A636910, 0, .remu 19 3 13),
      (0x0A8AC120, 0, .min 20 10 24), (0x0AB12130, 0, .max 21 17 4), (0x0AD87940, 0, .minu 22 24 15),
      (0x0AFFD150, 0, .maxu 23 31 26), (0x0B070160, 0, .clz 24 7), (0x0B2E0170, 0, .ctz 25 14)] := by
  unfold decodesTo; decide +kernel

theorem test_decode_integer_2 : decodesTo [
      (0x0B550180, 0, .popc 26 21), (0x0B7C4190, 0, .slt 27 28 8), (0x0B8499A0, 0, .sltu 28 4 19),
      (0x0BABF1B0, 0, .seq 29 11 30), (0x0BD251C3, 0, .lea 30 18 10 3), (0x0FF9801E, 0, .addi 31 25 0x801E),
      (0xFC202000, 0x89ABCDEF, .lih 1 0x89ABCDEF), (0xFC244000, 0x89ABCDEF, .lihHi 2 0x89ABCDEF)] := by
  unfold decodesTo; decide +kernel

theorem test_decode_control_transfer : decodesTo [
      (0x186FF021, 0, .beq 3 15 0xF021), (0x1C96F022, 0, .bne 4 22 0xF022), (0x20BDF023, 0, .blt 5 29 0xF023),
      (0x24C5F024, 0, .bge 6 5 0xF024), (0x28ECF025, 0, .bltu 7 12 0xF025), (0x2D13F026, 0, .bgeu 8 19 0xF026),
      (0x313F0003, 0, .jal 9 0x1F0003), (0xFC294000, 0x87654321, .jalLong 10 0x87654321),
      (0x35698029, 0, .jalr 11 9 0x8029), (0x06A55AA5, 0, .nop 0x2A55AA5)] := by
  unfold decodesTo; decide +kernel

theorem test_decode_scalar_float : decodesTo [
      (0x39B74807, 0, .fadd 13 23 9 3 true), (0x39DEA018, 0, .fsub 14 30 20 4 false),
      (0x39E6F821, 0, .fmul 15 6 31 0 true), (0x3A0D5832, 0, .fma 16 13 11 1 false),
      (0x3A34B045, 0, .fdiv 17 20 22 2 true), (0x3A5B0056, 0, .fsqrt 18 27 3 false),
      (0x3A636861, 0, .fmin 19 3 13 true), (0x3A8AC070, 0, .fmax 20 10 24 false),
      (0x3AB12089, 0, .fcmp 21 17 4 4 true), (0x3AD84896, 0, .fcvt 22 24 9 3), (0x3AFF00A1, 0, .fclass 23 31 true)] := by
  unfold decodesTo; decide +kernel

theorem test_decode_memory : decodesTo [
      (0x3F07B536, 0, .ldB 24 7 ⟨5, 2, 2⟩ 0x136), (0x432ED737, 0, .ldH 25 14 ⟨6, 2, 3⟩ 0x137),
      (0x47551138, 0, .ldW 26 21 ⟨0, 2, 0⟩ 0x138), (0x4B7C3339, 0, .ldD 27 28 ⟨1, 2, 1⟩ 0x139),
      (0x4F844D3A, 0, .stB 28 4 ⟨2, 1, 2⟩ 0x13A), (0x53AB6F3B, 0, .stH 29 11 ⟨3, 1, 3⟩ 0x13B),
      (0x57D2893C, 0, .stW 30 18 ⟨4, 1, 0⟩ 0x13C), (0x5BF9AB3D, 0, .stD 31 25 ⟨5, 1, 1⟩ 0x13D),
      (0xFC0021C0, 0x400BA, .ldBLong 1 1 ⟨6, 0, 0⟩ 0x400BA), (0xFC04480A, 0x400BD, .ldHLong 2 8 ⟨0, 1, 1⟩ 0x400BD),
      (0xFC086F22, 0x400C0, .ldWLong 3 15 ⟨1, 0, 1⟩ 0x400C0), (0xFC0C964A, 0x400C3, .ldDLong 4 22 ⟨2, 1, 1⟩ 0x400C3),
      (0xFC10BD64, 0x400C6, .stBLong 5 29 ⟨3, 0, 2⟩ 0x400C6), (0xFC14C58C, 0x400C9, .stHLong 6 5 ⟨4, 1, 2⟩ 0x400C9),
      (0xFC18ECA4, 0x400CC, .stWLong 7 12 ⟨5, 0, 2⟩ 0x400CC), (0xFC1D13CE, 0x400CF, .stDLong 8 19 ⟨6, 1, 3⟩ 0x400CF)] := by
  unfold decodesTo; decide +kernel

theorem test_decode_amo : decodesTo [
      (0x5D3AD801, 0, .amoAdd 9 26 27 false 0 true), (0x5D423833, 0, .amoMin 10 2 7 true 1 true),
      (0x5D699044, 0, .amoMax 11 9 18 false 2 false), (0x5D90E876, 0, .amoAnd 12 16 29 true 3 false),
      (0x5DB74889, 0, .amoOr 13 23 9 false 4 true), (0x5DDEA0BB, 0, .amoXor 14 30 20 true 5 true),
      (0x5DE6F8CC, 0, .amoSwap 15 6 31 false 6 false), (0x5E0D58F0, 0, .amoCas 16 13 11 true 0 false),
      (0x5E34B103, 0, .amoFadd 17 20 22 false 1 true)] := by
  unfold decodesTo; decide +kernel

theorem test_decode_red : decodesTo [
      (0x601B1015, 0, .redAdd 27 2 true 2 true), (0x60036826, 0, .redMin 3 13 false 3 false),
      (0x600AC058, 0, .redMax 10 24 true 4 false), (0x6011206B, 0, .redAnd 17 4 false 5 true),
      (0x6018789D, 0, .redOr 24 15 true 6 true), (0x601FD0A0, 0, .redXor 31 26 false 0 false),
      (0x60073112, 0, .redFadd 7 6 true 1 false)] := by
  unfold decodesTo; decide +kernel

theorem test_decode_fence : decodesTo [
      (0x64000042, 0, .fence 2 2), (0x6400006B, 0, .fenceAcq 3 3), (0x64000014, 0, .fenceRel 4 0)] := by
  unfold decodesTo; decide +kernel

theorem test_decode_vector_1 : decodesTo [
      (0x6B84733E, 0, .vld none 9 28 4 ⟨3, 2, 1⟩ 30), (0x6FAB733E, 0, .vst none 9 29 11 ⟨3, 2, 1⟩ 30),
      (0x73D25100, 0, .vadd none 2 30 18 10), (0x73F9A901, 0, .vsub none 2 31 25 21),
      (0x70210902, 0, .vmul none 2 1 1 1), (0x70486103, 0, .vfma none 2 2 8 12),
      (0x706FB904, 0, .vmin none 2 3 15 23), (0x70961905, 0, .vmax none 2 4 22 3), (0x70BD0106, 0, .vabs none 2 5 29),
      (0x70C50107, 0, .vneg none 2 6 5), (0x70EC2908, 0, .vcmpEq none 2 7 12 5),
      (0x70138109, 0, .vcmpNe none 2 0 19 16), (0x703AD90A, 0, .vcmpLt none 2 1 26 27),
      (0x7042390B, 0, .vcmpLe none 2 2 2 7), (0x7069910C, 0, .vcmpUnord none 2 3 9 18),
      (0x7190E90D, 0, .vsel none 2 12 16 29), (0x71B74C0E, 0, .vand none 8 13 23 9),
      (0x71DEA40F, 0, .vor none 8 14 30 20), (0x71E6FC10, 0, .vxor none 8 15 6 31),
      (0x720D5C11, 0, .vshl none 8 16 13 11), (0x7234B412, 0, .vshr none 8 17 20 22),
      (0x765B1100, 0, .vldg none 2 18 27 2), (0x76636901, 0, .vsts none 2 19 3 13),
      (0x768A0102, 0, .vsumRow none 2 20 10)] := by
  unfold decodesTo; decide +kernel

theorem test_decode_vector_2 : decodesTo [
      (0x76B10103, 0, .vsumCol none 2 21 17), (0x76D80104, 0, .vmaxrRow none 2 22 24),
      (0x76FF0105, 0, .vmaxrCol none 2 23 31), (0x77073106, 0, .vperm none 2 24 7 6),
      (0x772E8907, 0, .vrot none 2 25 14 17), (0x77550108, 0, .vtrn none 2 26 21),
      (0x777C0109, 0, .vbcast none 2 27 28), (0x7784010A, 0, .vmov none 2 28 4),
      (0x77AB120B, 0, .vcvt none 4 2 29 11), (0x77D2120C, 0, .vcvtSat none 4 2 30 18),
      (0x77F9A80D, 0, .vshape none 0 31 25 21), (0x74210110, 0, .vrint none 2 1 1),
      (0x74480111, 0, .vexp2f none 2 2 8), (0x746FB912, 0, .vscaleb none 2 3 15 23),
      (0x74960113, 0, .vrcp none 2 4 22), (0x74BD0114, 0, .vrsqrt none 2 5 29), (0x74C50115, 0, .vlog2 none 2 6 5),
      (0x74EC0116, 0, .vsinpi none 2 7 12), (0x74030020, 0, .mand none 0 0 3 0), (0x74221821, 0, .mor none 0 1 2 3),
      (0x74420022, 0, .mnot none 0 2 2), (0x75610023, 0, .mpop none 0 11 1)] := by
  unfold decodesTo; decide +kernel

theorem test_decode_system : decodesTo [
      (0x7980000F, 0, .srd 12 15), (0x78170420, 0, .swr 0x20 23), (0x78000BA5, 0, .svc 0x3A5), (0x78000C00, 0, .eret),
      (0x7800100E, 0, .trap 14), (0x780017A5, 0, .bkpt 0x3A5), (0x7A5B1805, 0, .pkrd 18 27 5),
      (0x7A631C05, 0, .pkwr 19 3 5), (0x780A2000, 0, .spill 10), (0x78112407, 0, .amapw 7 17),
      (0x78182800, 0, .tlbinv 24), (0x781F2C00, 0, .cflush 31), (0x78073001, 0, .cinv 7 true),
      (0x7B2E3400, 0, .capq 25 14)] := by
  unfold decodesTo; decide +kernel

theorem test_decode_task : decodesTo [
      (0x7F550000, 0, .spawn 26 21), (0x7C1C0010, 0, .tend 28), (0x7F849820, 0, .cancel 28 4 19),
      (0x7FABF030, 0, .cwait 29 11 30)] := by
  unfold decodesTo; decide +kernel

theorem test_decode_sync : decodesTo [
      (0x83D25000, 0, .barinit 30 18 10), (0x83F9A810, 0, .barw 31 25 21), (0x80210020, 0, .menter 1 1),
      (0x80080030, 0, .mexit 8), (0x80600040, 0, .gzbegin 3), (0x80800050, 0, .gzend 4), (0x801D0060, 0, .gzabort 29)] := by
  unfold decodesTo; decide +kernel

theorem test_decode_power : decodesTo [
      (0x84C50000, 0, .pclass 6 5), (0x84EC2810, 0, .blease 7 12 5)] := by
  unfold decodesTo; decide +kernel

theorem test_decode_message : decodesTo [
      (0x89138000, 0, .msend 8 19 16), (0x893AD810, 0, .mrecv 9 26 27), (0x89400020, 0, .mpeek 10 0)] := by
  unfold decodesTo; decide +kernel

theorem test_decode_global : decodesTo [
      (0xFC45698E, 0x401EF, .gld true 11 9 ⟨4, 1, 3⟩ 0x401EF),
      (0xFC4D90A6, 0x401F2, .gst true 12 16 ⟨5, 0, 3⟩ 0x401F2),
      (0xFC55B7CE, 0x48401F5, .gamoAdd true 13 23 9 ⟨6, 1, 3⟩ 0x401F5),
      (0xFC51DE00, 0x1A0401F8, .gamoMin false 14 30 20 ⟨0, 0, 0⟩ 0x401F8),
      (0xFC55E628, 0x2F8401FB, .gamoMax true 15 6 31 ⟨1, 1, 0⟩ 0x401FB),
      (0xFC520D40, 0x358401FE, .gamoAnd false 16 13 11 ⟨2, 0, 0⟩ 0x401FE),
      (0xFC56346A, 0x4B040201, .gamoOr true 17 20 22 ⟨3, 1, 1⟩ 0x40201),
      (0xFC525B82, 0x51040204, .gamoXor false 18 27 2 ⟨4, 0, 1⟩ 0x40204),
      (0xFC5663AA, 0x66840207, .gamoSwap true 19 3 13 ⟨5, 1, 1⟩ 0x40207),
      (0xFC528AC4, 0x7C04020A, .gamoCas false 20 10 24 ⟨6, 0, 2⟩ 0x4020A),
      (0xFC52B10C, 0x8204020D, .gamoFadd 21 17 4 ⟨0, 1, 2⟩ 0x4020D)] := by
  unfold decodesTo; decide +kernel

theorem test_decode_tile : decodesTo [
      (0xFC80D824, 0x27840210, .tld 6 24 15 2 ⟨1, 0, 2⟩ 0x40210), (0xFC84E000, 0x2D5B0213, .tldp 7 11 26 2 0x30213),
      (0xFC880766, 0x23040216, .tst 0 7 6 2 ⟨3, 0, 3⟩ 0x40216), (0xFC8C2E00, 0x28DB0219, .tstp 1 11 14 17 2 0x30219),
      (0xFC9015A0, 0x4021C, .ctwr 21 ⟨5, 0, 0⟩ 0x4021C), (0xFD180000, 0, .ctswap),
      (0xFD0086AA, 0x26080000, .tmma 1 0 3 5 5 2 6 0 true false),
      (0xFD04A6AA, 0x20010780, .tmmas 1 2 3 5 5 2 0 0 false false 2 30), (0xFD0A8000, 0x20000280, .tzero 5 2 10),
      (0xFD0EE040, 0x40003000, .tcvt 5 6 false 2 4 3 false), (0xFD12EE00, 0x20001000, .tadd 5 6 7 2 1),
      (0xFD168000, 0x20000300, .tgrp 5 2 12)] := by
  unfold decodesTo; decide +kernel

theorem test_decode_ring : decodesTo [
      (0xFD400000, 0xD0003EE, .pdef 13 15 23), (0xFD440000, 0xD000586, .psub 13 22 3),
      (0xFD480000, 0xD00001C, .pclaim 13 14), (0xFD4C0000, 0xD000140, .ppost 13 5),
      (0xFD500000, 0xD00000A, .pwfill 13 5), (0xFD540000, 0xD0004E0, .pwfree 13 19 16),
      (0xFD580000, 0xD000000, .ppop 13)] := by
  unfold decodesTo; decide +kernel

theorem test_decode_ferry : decodesTo [
      (0xFCA14200, 0x3840249, .fapp 10 2 7 0x40249), (0xFCA56900, 0x4024C, .fseq 11 9 0x4024C)] := by
  unfold decodesTo; decide +kernel

theorem test_decode_exact : decodesTo [
      (0xFD808000, 0, .qclr 1), (0xFD848000, 0x5D2, .qadd 1 23 9), (0xFD888040, 0x780, .qaddf 1 2 30),
      (0xFD8C8000, 0x200041BE, .qrnd 1 2 4 6 31), (0xFD908000, 0x356, .qsendQ 1 13 11),
      (0xFD9027AA, 0x52C, .qsendQ4n 2 3 13 5 20 22)] := by
  unfold decodesTo; decide +kernel

/-- A vector parcel with its prefix, an instruction in the low half of a table word, and a hint whose reserved bits are
ignored (R81, R94). -/
theorem test_decode_prefix : decodesTo [(0xF9000000, 0x75010102, .vsumRow (some ⟨2, false, 0, 0, 0⟩) 2 8 1),
      (0xF950C000, 0x70611103, .vfma (some ⟨2, true, 2, 3, 0⟩) 2 3 1 2)] ∧
    decodeTableWord 32 0x08642800 = some (.add 3 4 5) ∧ decodeTableWord 32 0x40000000FC20A000 = some (.lih 5 0x40000000) ∧
    decodeTableWord 32 0 = none := by
  unfold decodesTo; decide +kernel

/-- Words that R94 to R97 reject: a major that is not assigned, a function that is not, a field that must be zero. -/
theorem test_decode_rejects : decodeParcels 0x8C000000 0 = .error .illegalInstruction ∧
    decodeParcels 0x080001D0 0 = .error .illegalInstruction ∧ decodeParcels 0x08000001 0 = .error .illegalField ∧
    decodeParcels 0x0800F960 0 = .error .illegalField ∧ decodeParcels 0x64000018 0 = .error .illegalField ∧
    decodeParcels 0xF8000000 0x08642800 = .error .illegalInstruction ∧ decodeParcels 0xFD800000 1 = .error .illegalField := by
  decide +kernel

/-- Ill-formed terms, one for each check of the fields, are refused (R86 to R93, R97). -/
theorem test_ill_formed : ∀ i ∈ ([.fadd 1 2 3 7 true, .fsqrt 1 2 7 true, .fcmp 1 2 3 0 true, .fcmp 1 2 3 5 true,
      .fcvt 1 2 10 0, .fcvt 1 2 0 7, .ldD 1 2 ⟨7, 0, 0⟩ 0, .stBLong 1 2 ⟨7, 0, 0⟩ 0, .ctwr 1 ⟨7, 0, 0⟩ 0,
      .amoAdd 1 2 3 true 7 true, .redFadd 1 2 true 7 true, .fence 7 0, .vld none 15 1 2 ⟨0, 0, 0⟩ 0,
      .vld (some ⟨1, false, 0, 0, 0⟩) 0 1 2 ⟨0, 0, 0⟩ 0, .vst (some ⟨1, true, 0, 0, 0⟩) 2 1 2 ⟨0, 0, 0⟩ 0,
      .vst none 2 1 2 ⟨7, 0, 0⟩ 0, .vadd none 0 1 2 3, .vadd none 5 1 2 3, .vadd (some ⟨0, false, 0, 1, 0⟩) 2 1 2 3,
      .vadd (some ⟨0, false, 7, 0, 0⟩) 2 1 2 3, .vmin (some ⟨0, false, 1, 0, 0⟩) 2 1 2 3, .vabs none 12 1 2,
      .vcmpEq none 13 1 2 3, .vcmpUnord none 8 1 2 3, .vsel (some ⟨1, true, 0, 0, 0⟩) 2 1 2 3, .vand none 12 1 2 3,
      .vshl none 2 1 2 3, .vldg none 0 1 2 3, .vsts (some ⟨1, true, 0, 0, 0⟩) 2 1 2 3, .vsumRow none 6 1 2,
      .vmaxrCol (some ⟨0, false, 1, 0, 0⟩) 2 1 2, .vperm none 15 1 2 3, .vbcast none 0 1 2, .vmov none 12 1 2,
      .vcvt none 14 3 1 2, .vcvt (some ⟨0, false, 0, 1, 0⟩) 4 2 1 2, .vshape (some ⟨1, false, 0, 0, 0⟩) 0 1 2 3,
      .vshape none 1 1 2 3, .vrcp none 8 1 2, .vscaleb none 7 1 2 3, .vlog2 none 1 1 2, .mand none 1 1 2 3,
      .mnot none 2 1 2, .mpop (some ⟨1, false, 0, 0, 0⟩) 0 1 2, .srd 1 0x50, .swr 0x3FF 1, .trap 0x0F, .trap 0x15,
      .pkrd 1 2 0x3FF, .mpeek 1 3, .gld true 1 2 ⟨7, 0, 0⟩ 0, .gst true 1 2 ⟨0, 2, 0⟩ 0, .gamoAdd true 1 2 3 ⟨0, 3, 0⟩ 0,
      .tld 1 2 3 1 ⟨0, 0, 0⟩ 0, .tldp 1 2 3 2 0x40000, .tmma 1 2 3 5 5 2 1 0 true false, .tmma 1 2 3 5 5 2 0 1 false false,
      .tmma 1 2 3 2 2 2 0 0 false false, .tmmas 1 2 3 5 5 2 0 0 false false 0 1, .tmmas 1 2 3 5 5 2 0 0 false false 4 1,
      .tzero 1 1 2, .tcvt 1 2 true 2 4 0 false, .tcvt 1 2 false 2 4 7 false, .tadd 1 2 3 4 0, .tadd 1 2 3 2 7, .tgrp 1 4 2,
      .qaddf 0 4 1, .qrnd 0 3 0 1 2, .qrnd 0 2 7 1 2, .qsendQ4n 1 2 5 5 1 2] : List Instr), wellFormed i = false := by
  decide +kernel

/-! Single steps, with the results of the manual's own examples. -/

/-- x9 after an instruction, and the flags in FPS. -/
def after (i : Instr) (a b d : Word) : Option (Word × Nat) :=
  match exec i (withX (withX (withX st 1 a) 2 b) 9 d) with
  | .next t => some (t.arg 9, (t.cur.reg.fps.toNat % 64))
  | _ => none

/-- Chapter 06, Example 1. -/
theorem test_integer_corners : ∀ r ∈ ([
      (.div 9 1 2, 0x8000000000000000, 0xFFFFFFFFFFFFFFFF, 0x8000000000000000),
      (.rem 9 1 2, 0x8000000000000000, 0xFFFFFFFFFFFFFFFF, 0), (.div 9 1 2, 7, 0, 0xFFFFFFFFFFFFFFFF), (.rem 9 1 2, 7, 0, 7),
      (.div 9 1 2, 0xFFFFFFFFFFFFFFF9, 2, 0xFFFFFFFFFFFFFFFD), (.rem 9 1 2, 0xFFFFFFFFFFFFFFF9, 2, 0xFFFFFFFFFFFFFFFF),
      (.mulhu 9 1 2, 0xFFFFFFFFFFFFFFFF, 0xFFFFFFFFFFFFFFFF, 0xFFFFFFFFFFFFFFFE),
      (.mulh 9 1 2, 0xFFFFFFFFFFFFFFFF, 0xFFFFFFFFFFFFFFFF, 0), (.sll 9 1 2, 3, 65, 6),
      (.srai 9 1 63, 0x8000000000000000, 0, 0xFFFFFFFFFFFFFFFF), (.clz 9 1, 0, 0, 64), (.ctz 9 1, 0, 0, 64),
      (.ctz 9 1, 0x380, 0, 7), (.popc 9 1, 0x380, 0, 3), (.lea 9 1 2 3, 0x1000, 0x20, 0x1100)] :
      List (Instr × Word × Word × Word)), after r.1 r.2.1 r.2.2.1 0 = some (r.2.2.2, 0) := by decide +kernel

/-- Chapter 06, Example 2. The flags are NV 1, DZ 2, OF 4, UF 8, NX 16, SAT 32 (R113). -/
theorem test_float_corners : ∀ r ∈ ([
      (.fadd 9 1 2 0 true, 0x7F7FFFFF, 0x7F7FFFFF, 0, 0x7F800000, 20), (.fadd 9 1 2 2 true, 0x7F7FFFFF, 0x7F7FFFFF, 0, 0x7F7FFFFF, 20),
      (.fmul 9 1 2 0 true, 0x00800000, 0x3F000000, 0, 0x00400000, 0), (.fmul 9 1 2 0 true, 0x00800001, 0x3F000000, 0, 0x00400000, 24),
      (.fma 9 1 2 0 true, 0, 0x7F800000, 0x7FC00000, 0x7FC00000, 1),
      (.fdiv 9 1 2 0 false, 0x3FF0000000000000, 0x8000000000000000, 0, 0xFFF0000000000000, 2),
      (.fsqrt 9 1 0 true, 0xBF800000, 0, 0, 0x7FC00000, 1), (.fsqrt 9 1 0 true, 0x80000000, 0, 0, 0x80000000, 0),
      (.fmin 9 1 2 true, 0x7F800001, 0x3F800000, 0, 0x3F800000, 1), (.fmin 9 1 2 true, 0x80000000, 0, 0, 0x80000000, 0),
      (.fcmp 9 1 2 2 true, 0x7FC00000, 0x3F800000, 0, 0, 1), (.fcmp 9 1 2 1 true, 0x7FC00000, 0x3F800000, 0, 0, 0),
      (.fclass 9 1 true, 1, 0, 0, 0x20, 0), (.fcvt 9 1 0 0, 0x3FF0000010000000, 0, 0, 0x3F800000, 16),
      (.fcvt 9 1 0 5, 0x3FF0000010000000, 0, 0, 0x3F800001, 16), (.fcvt 9 1 2 0, 0x43E0000000000000, 0, 0, 0x7FFFFFFFFFFFFFFF, 33)] :
      List (Instr × Word × Word × Word × Word × Nat)),
    after r.1 r.2.1 r.2.2.1 r.2.2.2.1 = some (r.2.2.2.2.1, r.2.2.2.2.2) := by decide +kernel

/-- A state with SHAPE and with v1 and v2 of FP32. -/
def lanes (rows cols : Nat) (a b : List Nat) : State := withCur st (fun c => { c with reg := { c.reg with
  shape := BitVec.ofNat 64 (rows * 2 ^ 16 + cols)
  m := c.reg.m.set 2 0xDF
  v := (c.reg.v.set 1 ⟨BitVec.ofNat 4096 (fromBytes (a.flatMap (toBytes 4))), 2, false⟩).set 2
    ⟨BitVec.ofNat 4096 (fromBytes (b.flatMap (toBytes 4))), 2, false⟩ } })

/-- v9 after an instruction, its tag, the flags, and the random state in FPS. -/
def vectorAfter (i : Instr) (s : State) : Option (Nat × Nat × Nat × Nat) :=
  match exec i s with
  | .next t => some (t.cur.reg.v[(9 : VNum)].bits.toNat, t.cur.reg.v[(9 : VNum)].tag.val, t.cur.reg.fps.toNat % 64,
      t.cur.reg.fps.toNat / 2 ^ 32)
  | _ => none

/-- Chapter 07, Example 1: a masked exact row sum, and the same without its mask. -/
theorem test_row_sum :
    let s := lanes 2 4 [0x4B800000, 0x3F800000, 0x3F800000, 0xCB800000, 0x40400000, 0x7F800001, 0x3F000000, 0xC0000000] []
    let row (a b : Nat) := fromBytes ([a, a, a, a, b, b, b, b].flatMap (toBytes 4))
    vectorAfter (.vsumRow (some ⟨2, false, 0, 0, 0⟩) 2 9 1) s = some (row 0x40000000 0x3FC00000, 2, 0, 0x13579BDF) ∧
    vectorAfter (.vsumRow none 2 9 1) s = some (row 0x40000000 0x7FC00000, 2, 1, 0x13579BDF) := by decide +kernel

/-- Chapter 07, Example 2: special functions. -/
theorem test_special_functions : ∀ r ∈ ([
      (.vexp2f none 2 9 1, 0x3F000000, 0, 0x3FB504F2, 16), (.vexp2f none 2 9 1, 0xC3100000, 0, 0x20, 0),
      (.vexp2f none 2 9 1, 0x43000000, 0, 0x7F800000, 20), (.vexp2f none 2 9 1, 0xFF800000, 0, 0, 0),
      (.vlog2 none 2 9 1, 0x41000000, 0, 0x40400000, 0), (.vlog2 none 2 9 1, 1, 0, 0xC3150000, 0),
      (.vlog2 none 2 9 1, 0x80000000, 0, 0xFF800000, 2), (.vlog2 none 2 9 1, 0xBF800000, 0, 0x7FC00000, 1),
      (.vsinpi none 2 9 1, 0x3E800000, 0, 0x3F3504F2, 16), (.vsinpi none 2 9 1, 0x3F000000, 0, 0x3F800000, 0),
      (.vsinpi none 2 9 1, 0xC0000000, 0, 0x80000000, 0), (.vsinpi none 2 9 1, 0x7F800000, 0, 0x7FC00000, 1),
      (.vrcp none 2 9 1, 0x40400000, 0, 0x3EAAAAAB, 16), (.vrcp none 2 9 1, 0, 0, 0x7F800000, 2),
      (.vrsqrt none 2 9 1, 0x40800000, 0, 0x3F000000, 0), (.vrsqrt none 2 9 1, 0x80000000, 0, 0xFF800000, 2),
      (.vrint none 2 9 1, 0xBE99999A, 0, 0x80000000, 0), (.vscaleb none 2 9 1 2, 0x3FC00000, 0x40400000, 0x41400000, 0)] :
      List (Instr × Nat × Nat × Nat × Nat)),
    vectorAfter r.1 (lanes 1 1 [r.2.1] [r.2.2.1]) = some (r.2.2.2.1, 2, r.2.2.2.2, 0x13579BDF) := by decide +kernel

/-- Chapter 02, Example 1: two elements rounded at random to BF16. -/
theorem test_stochastic : vectorAfter (.vcvt (some ⟨0, false, 6, 0, 0⟩) 3 2 9 1) (lanes 1 2 [0x3F808000, 0x3F80C000] []) =
    some (0x3F813F80, 3, 16, 0x4D5E6F7C) := by decide +kernel
/-! Witnesses. -/

/-- The plain facts about a state that hold in st. -/
theorem wit_still : Still st ∧ Calm st := by simp only [Still, Calm]; decide +kernel

theorem wit_trap_ready : TrapReady st :=
  ⟨rfl, rfl, rfl, by simp only [Alone]; decide +kernel, rfl, rfl, by decide +kernel⟩

theorem wit_integer_instructions : st.integerRow (.add 9 1 2) = some (9, BitVec.ofNat 64 0x240001, 4) := by decide +kernel

theorem wit_control_transfers :
    st.branchRow (.bne 1 1 5) = some (false, 5) ∧
    (st.branchRow (.beq 1 1 5) = some (true, 5) ∧ (BitVec.ofInt 64 (st.cur.reg.pc.toNat + 5 * 4)).toNat % 4 = 0 ∧
      (BitVec.ofInt 64 (st.cur.reg.pc.toNat + 5 * 4)).toNat < 2 ^ 60) ∧
    st.jumpRow (.jalr 9 3 0xFFFC) = some (BitVec.ofNat 64 (2 ^ 60 - 4), 9, 4) := by decide +kernel

theorem wit_transfer_traps : TrapReady st ∧ st.jumpRow (.jalr 9 2 0) = some (0x120001, 9, 4) ∧
    st.jumpRow (.jalr 9 3 0) = some (BitVec.ofNat 64 (2 ^ 60), 9, 4) := ⟨wit_trap_ready, by decide +kernel⟩

theorem wit_float_results : ∃ r v f, st.floatRow (.fadd 9 1 2 0 true) = some (r, 9, v, f) := ⟨_, _, _, rfl⟩

theorem wit_effective_address : st.cur.reg.segMode = false ∧
    (let c := { st.cur with reg := { st.cur.reg with segMode := true } }
     c.reg.segMode = true ∧ c.id.sup = false ∧ (15 : Fin 16).val = (BitVec.ofNat 64 (2 ^ 64 - 1)).toNat / 2 ^ 60) := by
  decide +kernel

/-- Where no store has been entered and no promise is broken, every promise is kept. -/
theorem promised_of_none {s : State} (h : s.history = []) (b : s.broken = []) (loc n : Nat) : Promised s loc n := by
  intro a _ _
  simp [State.versions, h, b]

theorem wit_loads_complete : loadRow (.ldD 9 1 ⟨0, 0, 0⟩ 0) = some ⟨9, 1, ⟨0, 0, 0⟩, 0, 8, 4⟩ ∧ Calm st ∧
    st.cur.effective (st.arg 1) 0 8 = .ok 0x120000 ∧ Reaches st .read 0x120000 0x120000 0x120000 ∧
    st.poisoned 0x120000 8 = false ∧ Promised st 0x120000 8 :=
  ⟨rfl, wit_still.2, rfl, ⟨by decide, rfl, rfl, rfl, fun _ => rfl⟩, rfl, promised_of_none rfl rfl _ _⟩

theorem wit_stores_complete : storeRow (.stD 9 1 ⟨0, 0, 0⟩ 0) = some ⟨9, 1, ⟨0, 0, 0⟩, 0, 8, 4⟩ ∧ Still st ∧
    st.cur.effective (st.arg 1) 0 8 = .ok 0x120000 ∧ Reaches st .write 0x120000 0x120000 0x120000 ∧
    st.postKind st.cur 0x120000 false = none ∧ Plain st 0x120000 8 :=
  ⟨rfl, wit_still.1, rfl, ⟨by decide, rfl, rfl, rfl, fun _ => rfl⟩, rfl, by simp only [Plain]; decide +kernel⟩

/-- A store to a lagoon is counted. -/
theorem wit_stores_posted : storeRow (.stB 9 4 ⟨0, 0, 0⟩ 0) = some ⟨9, 4, ⟨0, 0, 0⟩, 0, 1, 4⟩ ∧ Still st ∧
    st.cur.effective (st.arg 4) 0 1 = .ok (2 ^ 31 + 64) ∧ Maps st .write (2 ^ 31 + 64) 0x10000000000040 ∧
    st.postKind st.cur 0x10000000000040 false = some .d :=
  ⟨rfl, wit_still.1, rfl, ⟨by decide, rfl, rfl⟩, rfl⟩

theorem wit_access_traps : TrapReady st ∧ loadRow (.ldD 9 3 ⟨0, 0, 0⟩ 0) = some ⟨9, 3, ⟨0, 0, 0⟩, 0, 8, 4⟩ ∧
    storeRow (.stD 9 1 ⟨0, 0, 0⟩ 0) = some ⟨9, 1, ⟨0, 0, 0⟩, 0, 8, 4⟩ ∧
    st.cur.effective (st.arg 3) 0 8 = .error (0x05, 2 ^ 60) ∧ st.cur.effective (st.arg 2) 0 8 = .ok 0x120001 ∧
    st.cur.effective (st.arg 5) 0 8 = .ok (2 ^ 40) ∧ st.cur.mapVa .read (2 ^ 40) = .error 0x05 :=
  ⟨wit_trap_ready, rfl, rfl, by decide +kernel, by decide +kernel, by decide +kernel, by decide +kernel⟩

/-- A reserved IA, a control register and another core's TCM; a leaf without W; a capability list at 0x120000. -/
theorem wit_checks_of_ias : (∀ va ∈ [2 ^ 33 + 0x20000, 2 ^ 33 + 0x740, 2 ^ 32 + 0x10000], va % 8 = 0 ∧ va < 2 ^ 60) ∧
    st.cur.mapVa .read (2 ^ 33 + 0x20000) = .ok 0x14000000020000 ∧ st.whereIs 0x14000000020000 = .reserved ∧
    st.cur.mapVa .write (2 ^ 33 + 0x740) = .ok 0x14000000000740 ∧ st.whereIs 0x14000000000740 = .control 0 0x740 ∧
    st.cur.mapVa .write (2 ^ 32 + 0x10000) = .ok 0x12000000010000 ∧ st.whereIs 0x12000000010000 = .tcm 1 ∧
    (let s := withMem st 0x8000 [0xAD]
     TrapReady s ∧ Still s ∧ s.atomicAt 0x120000 0 = true ∧ s.postKind s.cur 0x120000 false = none ∧
     s.meet 0x120000 .write s.cur.token = (.fail 7, s)) ∧
    (let s : State := { st with capAt := [(0, 0x120000)] }
     TrapReady s ∧ Still s ∧ s.meet 0x120000 .write s.cur.token = (.ok 0x120000, s) ∧ s.readOnly 0x120000 8 = true) := by
  refine ⟨by decide +kernel, by decide +kernel, by decide +kernel, by decide +kernel, by decide +kernel, by decide +kernel,
    by decide +kernel, ⟨⟨rfl, rfl, rfl, by simp only [Alone]; decide +kernel, rfl, rfl, by decide +kernel⟩, by simp only [Still]; decide +kernel, by decide +kernel⟩, ⟨rfl, rfl, rfl, by simp only [Alone]; decide +kernel, rfl, rfl, by decide +kernel⟩, by simp only [Still]; decide +kernel, by decide +kernel⟩

theorem wit_atomics_complete : (∃ f, amoRow (.amoAdd 9 1 2 true 0 0) = some (9, 1, 2, 8, f)) ∧ Calm st ∧
    st.cur.effective (st.arg 1) 0 8 = .ok 0x120000 ∧ Reaches st .atomic 0x120000 0x120000 0x120000 ∧
    st.poisoned 0x120000 8 = false ∧ Plain st 0x120000 8 :=
  ⟨⟨_, rfl⟩, wit_still.2, rfl, ⟨by decide, rfl, rfl, rfl, fun _ => rfl⟩, rfl, by simp only [Plain]; decide +kernel⟩

theorem wit_reductions_and_fences : redRow (.redAdd 1 2 true 0 false) = some (1, 2, .add, 8, 0, false) ∧ Still st ∧
    st.cur.effective (st.arg 1) 0 8 = .ok 0x120000 ∧ Maps st .atomic 0x120000 0x120000 ∧
    fenceRow (.fence 2 0) = some 2 ∧ fenceRow (.fenceRel 1 0) = some 1 :=
  ⟨rfl, wit_still.1, rfl, ⟨by decide, rfl, rfl⟩, rfl, rfl⟩

/-- The supervisor with addresses of a control register. -/
def sst : State := withX (withX superBase 1 (2 ^ 33 + 0x740)) 2 0x120000

theorem wit_control_registers (reg : Nat) (h : reg ∈ [0x010, 0x080, 0x0A0, 0x740]) :
    (let s := withX sst 1 (BitVec.ofNat 64 (2 ^ 33 + reg))
    Calm s ∧ s.cur.id.sup = true ∧
    s.cur.effective (s.arg 1) 0 8 = .ok (2 ^ 33 + reg) ∧ (2 ^ 33 + reg) % 8 = 0 ∧ s.whereIs (0x14000000000000 + reg) = .control 0 reg ∧
    s.cur.mapVa .read (2 ^ 33 + reg) = .ok (0x14000000000000 + reg) ∧
    s.cur.mapVa .write (2 ^ 33 + reg) = .ok (0x14000000000000 + reg) ∧ (s.die 0).energyWait = []) := by
  simp only [List.mem_cons, List.not_mem_nil, or_false] at h
  rcases h with rfl | rfl | rfl | rfl <;> (simp only [Still, Calm]; decide +kernel)

theorem wit_plain_registers : PlainRegister 0x010 ∧ PlainRegister 0x0A0 := by simp only [PlainRegister]; decide +kernel

/-- Vectors: SHAPE 2 x 4; v1 and v2 carry FP32, v3 INT32; v4 BF16. -/
def vst : State := withCur st (fun c => { c with reg := { c.reg with
  shape := 0x20004
  v := (((c.reg.v.set 1 ⟨0x3F80000040000000, 2, false⟩).set 2 ⟨0x4040000040400000, 2, false⟩).set 3
    ⟨0x0000000100000002, 8, false⟩).set 4 ⟨0x3F80, 4, false⟩ } })

theorem wit_vector_lanes : (∃ f, vst.laneRow (.vadd none 2 9 1 2) = some f ∧ f.f = 2 ∧ f.sources = [1, 2]) ∧
    vst.fits 32 ∧ vst.carries 1 2 ∧ vst.carries 2 2 := by
  refine ⟨⟨_, rfl, rfl, rfl⟩, ?_⟩
  simp only [State.fits, State.carries]; decide +kernel

theorem wit_vector_selections : vst.fits (fmtWidth 2) ∧ vst.carries 1 2 ∧ vst.carries 2 2 ∧
    7 ≤ vst.cur.reg.v[3].tag.val ∧ vst.cur.reg.v[3].tag.val ≤ 11 ∧ fmtWidth vst.cur.reg.v[3].tag = fmtWidth 2 ∧
    (∃ f, logicRow (.vand none 0 9 1 2) = some (none, 0, 9, 1, 2, f)) ∧ vst.cur.reg.v[1].tag ≠ 15 := by
  refine ⟨?_, ?_, ?_, ?_, ?_, ?_, ⟨_, rfl⟩, ?_⟩ <;> (try simp only [State.fits, State.carries]) <;> decide +kernel

theorem wit_vector_reduces : compareRow (.vcmpLt none 2 3 1 2) = some (none, 2, 3, 1, 2, 2) ∧
    vst.fits (fmtWidth 2) ∧ vst.elements ≤ 512 ∧ vst.carries 1 2 ∧ vst.carries 2 2 ∧
    (∃ fn, vst.reduceRow (.vsumRow none 2 9 1) = some (none, 2, 9, 1, true, fn)) := by
  refine ⟨rfl, ?_, ?_, ?_, ?_, ⟨_, rfl⟩⟩ <;> (try simp only [State.fits, State.carries]) <;> decide +kernel

theorem wit_vector_conversions : convertRow (.vcvt none 4 2 9 1) = some (none, 4, 2, false, 9, 1) ∧
    vst.fits (fmtWidth 4) ∧ vst.fits (fmtWidth 2) ∧ vst.carries 1 2 ∧
    (vst.cluster (vst.cur.id.core / 4)).table = [] := by
  refine ⟨rfl, ?_, ?_, ?_, ?_⟩ <;> (try simp only [State.fits, State.carries]) <;> decide +kernel

/-- Every number that R111 lists, the ends of its ranges, and one that it does not list. -/
theorem wit_system_reads : (∀ n ∈ List.range 0x15 ++ [0x20, 0x2F, 0x30, 0x3F], (st.systemRow st.cur n).isSome = true) ∧
    (∀ n ∈ [0x15, 0x1F, 0x40, 0x3FF], st.systemRow st.cur n = none) := by decide +kernel

theorem wit_open_writes : ShapeOk ((withX st 9 0x04000001).arg 9) ∧ ShapeOk ((withX st 9 0x00200020).arg 9) ∧
    ¬ShapeOk ((withX st 9 0x04010001).arg 9) ∧ (0xC00 : Word).extractLsb' 9 3 ≠ 0 ∧ (0xC00 : Word).extractLsb' 9 3 ≠ 7 ∧
    (0xE00 : Word).extractLsb' 9 3 = 7 ∧ (0 : Word).extractLsb' 9 3 = 0 ∧ TrapReady st ∧ st.cur.reg.edepth ≠ 1 := by
  refine ⟨?_, ?_, ?_, ?_, ?_, ?_, ?_, wit_trap_ready, ?_⟩ <;> (try simp only [ShapeOk]) <;> decide +kernel

theorem wit_supervisor_writes : sst.cur.id.sup = true ∧ st.cur.id.sup = false ∧
    (∀ n ∈ [0x0F, 0x10, 0x11, 0x12, 0x20, 0x2F, 0x30, 0x3F],
      (sst.systemRow sst.cur n).isSome = true ∧ (sst.cur.reg.sysPut n 0x1234567).isSome = true) ∧
    (∀ n ∈ [0x02, 0x0B, 0x14], (sst.systemRow sst.cur n).isSome = true ∧ (sst.cur.reg.sysPut n 7).isNone = true) := by
  decide +kernel

theorem wit_traps_taken : TrapReady st ∧ sst.cur.id.sup = true ∧ sst.cur.sched.place = .slot ∧ Alone sst ∧
    (∀ c ∈ sst.contexts, c.sched.parked = false) :=
  ⟨wit_trap_ready, rfl, rfl, by simp only [Alone]; decide +kernel, by decide +kernel⟩

/-- In an emulation routine, at an EPCX. -/
def emulating (epcx : Word) : State := withCur st (fun c => { c with reg := { c.reg with edepth := 1, epcx := epcx } })

theorem ready_with_regs {s : State} (h : TrapReady s) (f : Regs → Regs) :
    TrapReady (withCur s (fun c => { c with reg := f c.reg })) := h

/-- ERET of a routine to a target that is allowed, to one that is not aligned, and to one that is out of range. -/
theorem wit_emulation (e : Word) : TrapReady (emulating e) ∧ (emulating e).cur.reg.edepth = 1 ∧
    (emulating e).cur.reg.epcx = e ∧ (emulating e).cur.reg.ecause.getLsbD 11 = false ∧
    ((0x100000 + 4 : Word).toNat % 4 = 0 ∧ (0x100000 + 4 : Word).toNat < 2 ^ 60) ∧ (0x100001 + 4 : Word).toNat % 4 ≠ 0 ∧
    2 ^ 60 ≤ (BitVec.ofNat 64 (2 ^ 60 - 4) + 4).toNat ∧ (BitVec.ofNat 64 (2 ^ 60 - 4) + 4).toNat % 4 = 0 :=
  ⟨ready_with_regs wit_trap_ready (fun r => { r with edepth := 1, epcx := e }), rfl, rfl,
    (by decide : (0 : Word).getLsbD 11 = false), by decide +kernel⟩

/-- The supervisor serves a context that is parked in slot 0; a record of it stands in the trap queue. -/
def served : State := { sst with
  others := [let c := user 0x1001 0 0; { c with sched := { c.sched with parked := true } }]
  cores := [(0, { CoreSt.reset with traps := [⟨0x1001, true, 0x0B, 4, 0⟩], serving := some 0x1001 })]
  cur := { sst.cur with reg := { sst.cur.reg with ecause := 0x0B } } }

theorem wit_trap_returns : served.cur.id.sup = true ∧ Still served ∧ Alone served ∧
    (served.core 0).traps = [⟨0x1001, true, 0x0B, 4, 0⟩] ∧ (served.core 0).serving = some 0x1001 ∧
    (∃ c, served.ctx 0x1001 = some c ∧ c.id.uid = 0x1001 ∧ c.sched.parked = true ∧ c.id.uid ≠ served.cur.id.uid) ∧
    served.cur.reg.ecause.extractLsb' 0 8 ≠ 0 ∧ served.cur.reg.ecause.extractLsb' 16 2 = 0 :=
  ⟨rfl, by simp only [Still]; decide +kernel, by simp only [Alone]; decide +kernel, rfl, rfl,
    ⟨_, rfl, rfl, rfl, by decide +kernel⟩, by decide +kernel, by decide +kernel⟩

theorem wit_parked_contexts : (∃ c, served.parkedIn 0 0 = some c ∧ c.sched.place = .slot ∧ c.id.uid = 0x1001) ∧
    served.parkedIn 0 6 = none ∧ (∀ o ∈ served.others, o.sched.place ≠ .ended) ∧ served.cur.sync.wait ≠ .record ∧
    (∃ c, served.inSlot 0 0 = some c) ∧ served.inSlot 0 6 = none :=
  ⟨⟨_, rfl, rfl, rfl⟩, rfl, by decide +kernel, by decide +kernel, ⟨_, rfl⟩, rfl⟩

/-- x2 names a 32-byte block for AMAPW, for its own ranges and for the core's; x3 a page for TLBINV. -/
def amapState (target : Nat) : State :=
  withX (withMem sst 0x120000 (toBytes 8 0x1F ++ toBytes 8 1 ++ toBytes 8 target ++ toBytes 8 0)) 3 0x128000

theorem wit_ranges (target : Fin 9) : Calm (amapState target) ∧ (amapState target).cur.id.sup = true ∧
    (amapState target).cur.effective ((amapState target).arg 2) 0 32 = .ok 0x120000 ∧
    (∀ k, k < 4 → Reaches (amapState target) .read (0x120000 + 8 * k) (0x120000 + 8 * k) (0x120000 + 8 * k) ∧
      (amapState target).poisoned (0x120000 + 8 * k) 8 = false) ∧
    fromBytes ((amapState target).bytesAt 0x120010 8) = target ∧
    fromBytes ((amapState target).bytesAt 0x120018 8) = 0 := by
  simp only [Calm, Still, Reaches]
  revert target
  decide +kernel

/-- AMAPW of the registers of the context in slot 0, which is parked, and of slot 6, which is empty. -/
theorem wit_ranges_of_others (target : Nat) (h : target = 0 ∨ target = 6) : (let s := { served with
      mem := cellsSet sst.mem 0x120000 (toBytes 8 0x1F ++ toBytes 8 1 ++ toBytes 8 target ++ toBytes 8 0) }
    Calm s ∧ s.cur.id.sup = true ∧ s.cur.effective (s.arg 2) 0 32 = .ok 0x120000 ∧
    (∀ k, k < 4 → Reaches s .read (0x120000 + 8 * k) (0x120000 + 8 * k) (0x120000 + 8 * k) ∧
      s.poisoned (0x120000 + 8 * k) 8 = false) ∧
    fromBytes (s.bytesAt 0x120010 8) = target ∧ fromBytes (s.bytesAt 0x120018 8) = 0 ∧ Alone s ∧
    (∀ o ∈ s.others, o.sched.place ≠ .ended) ∧ (target = 6 → s.parkedIn 0 target = none) ∧
    (target = 0 → ∃ c, s.parkedIn 0 target = some c ∧ c.sched.place = .slot ∧ c.id.uid ≠ s.cur.id.uid)) := by
  rcases h with rfl | rfl <;>
    exact ⟨by simp only [Calm, Still]; decide +kernel, rfl, by decide +kernel, by simp only [Reaches]; decide +kernel,
      by decide +kernel, by decide +kernel, by simp only [Alone]; decide +kernel, by decide +kernel,
      by first | (intro h; rfl) | (intro h; exact absurd h (by decide)),
      by first | (intro h; exact absurd h (by decide)) | exact fun _ => ⟨_, rfl, rfl, by decide +kernel⟩⟩

theorem wit_invalidates : (let s := amapState 7
    let w := (s.arg 3).toNat
    w % 16 ≤ 4 ∧ w / 16 % 2 ^ 11 = 0 ∧ w < 2 ^ 56 ∧ s.whereIs (w / 2 ^ 15 * 2 ^ 15) = .pageable ∧
    (∀ c ∈ s.contexts, c.sync.region = none) ∧ s.objects = [] ∧ s.ferry = [] ∧ Still s) := by simp only [Still]; decide +kernel

theorem wit_capabilities : (withX st 9 0x10007).arg 9 = 0x10007 ∧ Still st ∧
    st.cur.effective (st.arg 2) 0 1 = .ok 0x120001 ∧ st.cur.mapVa .read 0x120001 = .ok 0x120001 :=
  ⟨by decide +kernel, wit_still.1, by decide +kernel, by decide +kernel⟩

/-- A launch record at 0x140000 for kernel 0 of an image at 0x150000, and the objects above it. -/
def spawnState : State :=
  let record := toBytes 8 0x150000 ++ toBytes 8 0 ++ toBytes 2 1 ++ toBytes 2 1 ++ toBytes 4 1 ++ toBytes 8 0x151000 ++
    toBytes 8 0x150800
  let object (level parent : Nat) : List Byte :=
    toBytes 4 9 ++ toBytes 4 9 ++ [1, BitVec.ofNat 8 level] ++ toBytes 6 0 ++ toBytes 8 parent
  let head := withMem (withMem (withMem st 0x150008 (toBytes 8 0x10000)) 0x150020 (toBytes 8 0x0000008000010000))
    0x150060 (toBytes 8 0x4744554A)
  withX (withMem (withMem (withMem (withMem head 0x151000 (object 2 0x151040)) 0x151040 (object 3 0x151080))
    0x151080 (object 4 0)) 0x140000 record) 6 0x140000

theorem wit_spawns : Still spawnState ∧ spawnState.released 6 = spawnState ∧ spawnState.cur.effective (spawnState.arg 6) 0 128 = .ok 0x140000 ∧
    Maps spawnState .read 0x140000 0x140000 ∧
    (match peek 5 0x140000 128 spawnState with
      | .ok bs t => decide (t = spawnState) && (match (spawnChecks 0x140000 bs).run spawnState with
        | .ok (.ok (l, obj, tree)) t => decide (t = spawnState ∧ l.total = 1 ∧ tree.attach.length = 3) &&
          (match homeLoc obj.spot .atomic spawnState with
            | .ok home t => decide (home = 0x150800 ∧ t = spawnState)
            | _ => false) &&
          tree.attach.all (fun o => match homeLoc o.spot .atomic spawnState with
            | .ok loc t => decide (loc = o.loc ∧ t = spawnState)
            | _ => false)
        | _ => false)
      | _ => false) = true := by
  refine ⟨by simp only [Still]; decide +kernel, by decide +kernel, by decide +kernel, by simp only [Maps]; decide +kernel, ?_⟩
  decide +kernel

/-- A record of zeros is refused. -/
theorem wit_spawn_refused : (match peek 5 0x160000 128 st with
    | .ok bs t => decide (t = st) && (match (spawnChecks 0x160000 bs).run st with
      | .ok (.error e) t => decide (e = 0x1009 ∧ t = st)
      | _ => false)
    | _ => false) = true := by decide +kernel

/-- x6 a completion object that is OPEN, x7 a barrier of 2, x8 a free monitor, x9 nothing at all, x10 a monitor of
another context, x11 a monitor of its own; the context holds the last, and region entry 5 is set aside for it. -/
def sync : State :=
  let s := withMem (withMem (withMem (withMem (withMem st 0x130000 (toBytes 4 3 ++ toBytes 4 3 ++ [1]))
    0x130040 (toBytes 4 2 ++ toBytes 8 0 ++ [1])) 0x130080 (toBytes 4 0 ++ [0, 1]))
    0x130100 (toBytes 4 0x777 ++ [1, 1])) 0x130140 (toBytes 4 st.cur.src ++ [1, 1])
  let s := withX (withX (withX (withX (withX (withX s 6 0x130000) 7 0x130040) 8 0x130080) 9 0x1300C0) 10 0x130100)
    11 0x130140
  { withCur s (fun c => { c with sync := { c.sync with monitors := [0x130140] } }) with
    dies := [(0, { Die.reset with reserved := [(0x1001, 5)] })] }

theorem wit_object (k : Access) (hk : k = .write ∨ k = .atomic) : ObjectAt sync 6 k 0x130000 0x130000 ∧
    ObjectAt sync 7 k 0x130040 0x130040 ∧ ObjectAt sync 8 k 0x130080 0x130080 ∧
    ObjectAt sync 9 k 0x1300C0 0x1300C0 ∧ ObjectAt sync 10 k 0x130100 0x130100 ∧
    ObjectAt sync 11 k 0x130140 0x130140 := by
  rcases hk with rfl | rfl <;>
    exact ⟨⟨0x130000, by decide +kernel⟩, ⟨0x130040, by decide +kernel⟩, ⟨0x130080, by decide +kernel⟩,
      ⟨0x1300C0, by decide +kernel⟩, ⟨0x130100, by decide +kernel⟩, ⟨0x130140, by decide +kernel⟩⟩

theorem wit_ready : Ready sync ∧ Calm sync := by simp only [Ready, Calm, Still]; decide +kernel

theorem wit_task_endings : st.cur.sync.monitors = [] ∧ sync.cur.sync.monitors ≠ [] ∧ TrapReady sync ∧
    fromBytes (sync.bytesAt 0x130008 1) = 1 ∧
    ({ (sync.putBytes 0x130008 [3]).putBytes 0x130024 (toBytes 4 0xFFFFFFFF) with
      agenda := sync.agenda ++ [.cancelMark 0x130000] } : State).cancelling sync.cur.job.launch = false := by
  exact ⟨by decide +kernel, by decide +kernel,
    ⟨rfl, rfl, rfl, by simp only [Alone]; decide +kernel, rfl, rfl, by decide +kernel⟩, by decide +kernel, by decide +kernel⟩

theorem wit_completion_waits : sync.cur.effective (sync.arg 6) 0 64 = .ok 0x130000 ∧
    Reaches sync .read 0x130000 0x130000 0x130000 ∧ sync.cur.sync.grant = none ∧ sync.cur.sync.wait = .none ∧
    onChain 4 0x130000 sync.cur.reg.tlaunch.toNat sync = .ok false sync ∧
    fromBytes (sync.bytesAt 0x130008 1) = 1 ∧ sync.arg 12 = 0 ∧
    onChain 4 0x130000 (0x130000 : Word).toNat sync = .ok true sync :=
  ⟨by decide +kernel, ⟨by decide, rfl, rfl, rfl, fun _ => rfl⟩, rfl, rfl, rfl, by decide +kernel, by decide +kernel, rfl⟩

theorem wit_barriers : sync.classShed 0 sync.cur.reg.cls = false ∧
    fromBytes (sync.bytesAt 0x13004C 1) = 1 ∧ fromBytes (sync.bytesAt 0x130040 4) = 2 ∧
    (fromBytes (sync.bytesAt 0x130044 4) + 1) % 2 ^ 32 ≠ fromBytes (sync.bytesAt 0x130040 4) ∧
    (let s := withMem sync 0x130044 [1]
     (fromBytes (s.bytesAt 0x130044 4) + 1) % 2 ^ 32 = fromBytes (s.bytesAt 0x130040 4)) ∧
    fromBytes (sync.bytesAt 0x1300CC 1) ≠ 1 := by decide +kernel

theorem wit_monitors : sync.cur.sync.monitors.length < 8 ∧ fromBytes (sync.bytesAt 0x130085 1) = 1 ∧
    fromBytes (sync.bytesAt 0x130084 1) = 0 ∧ fromBytes (sync.bytesAt 0x1300C5 1) ≠ 1 ∧
    fromBytes (sync.bytesAt 0x130104 1) = 1 ∧ fromBytes (sync.bytesAt 0x130100 4) ≠ sync.cur.src ∧
    fromBytes (sync.bytesAt 0x130144 1) = 1 ∧ fromBytes (sync.bytesAt 0x130140 4) = sync.cur.src ∧
    sync.cur.namedIa (sync.arg 11) = some 0x130140 ∧ 0x130140 ∈ sync.cur.sync.monitors ∧
    fromBytes (sync.bytesAt 0x130148 4) = 0 ∧ (∀ c ∈ sync.contexts, c.sync.wait ≠ .monitor 0x130140) := by
  decide +kernel

/-- The context in a region of its own. -/
def glazed : State := withCur sync (fun c => { c with sync := { c.sync with region := some {
  die := 0, entry := 5, born := 0, senior := false, gzpc := 0x500, gzd := 9
  ckpt := ⟨c.reg.x, c.reg.v, c.reg.m, c.reg.t, c.reg.q, c.reg.fps, c.reg.shape, []⟩
  log := [], granules := [], edges := [], owed := [], pending := [], freed := [], ending := false, postf := false } } })

theorem wit_glazes : Calm sync ∧ (∃ s1, (sync.released 6).regionEntry sync.cur = (some (0, 5), s1)) ∧ sync.cur.id.sup = false ∧
    (∃ r, glazed.cur.sync.region = some r ∧ r.edges = []) ∧ glazed.cur.sched.place = .slot ∧ Alone glazed ∧
    glazed.commandsOf 0x1001 = [] ∧ (∀ c ∈ glazed.others, c.sync.region = none) ∧ glazed.touches = [] ∧
    TrapReady sync := by
  exact ⟨wit_ready.2, ⟨_, rfl⟩, by decide +kernel, ⟨_, rfl, rfl⟩, by decide +kernel, by simp only [Alone]; decide +kernel,
    by decide +kernel, by decide +kernel, by decide +kernel, wit_task_endings.2.2.1⟩

theorem wit_glaze_ends : glazed.cur.io.drains = [] ∧ glazed.cur.io.late = [] ∧
    (∃ r, glazed.cur.sync.region = some r ∧ r.edges = [] ∧ r.postf = false) ∧
    (glazed.glazeCommitRegion glazed.cur.id.uid).cur.io.late = [] := by
  exact ⟨rfl, rfl, ⟨_, rfl, rfl, rfl⟩, by decide +kernel⟩

theorem wit_power_requests : st.cur.sync.region = none ∧ st.cur.job.lclass ≤ 6 ∧ st.cur.reg.cls = st.cur.job.lclass ∧ st.cur.power.lease = none ∧
    st.boostOff 0 = false ∧ st.boostOff (0 : Nat) = false ∧
    (let s := { st with ctl := [(0, 0x4001), (0x758, 0x40000000), (0x780, 3)] }
     s.boostOff 0 = true ∧ (0 : Nat) + 3 ≤ s.ctlField 0 0x780 7 0 ∧ s.ctlField 0 0x780 15 8 = 0) ∧
    st.ctlField 0 0x780 7 0 < st.ctlField 0 0x780 15 8 + 1 := by decide +kernel
/-- Context 0x1002 has the mailbox 1 of core 0. x1 names it, x6 no live context, x7 a package that is not there; x2 a
payload, x3 a message of one word with tag 7, x8 a global address in the window of core 0, which shows the lagoon of
die 0. Two messages are in the context's own inbox. -/
def mail : State :=
  let c := user 0x1002 0 1
  let s := withX (withX (withX (withX (withX (withX st 1 1) 6 9) 7 (BitVec.ofNat 64 (2 ^ 47))) 2 0x120000) 3
    (BitVec.ofNat 64 (2 ^ 48 + 7 * 2 ^ 32))) 8 0x1008
  { withCur s (fun c => { c with mail := { c.mail with inbox := [⟨⟨5, [8, 9]⟩, none⟩, ⟨⟨6, []⟩, none⟩] } }) with
    others := [super 0, { c with id := { c.id with cid := 1 } }]
    ctl := [(0, 0x4001), (0x800, 0x10000000000007), (0x808, 0x2000000)] }

theorem wit_mailbox : (∃ c, MailboxFree mail (mail.arg 1) c) ∧ (mail.arg 6).getLsbD 37 = false ∧
    mail.checkDest (mail.arg 6) = none ∧ mail.mailbox (destCore (mail.arg 6)) ((mail.arg 6).toNat % 2 ^ 6) = none ∧
    (∃ cause, mail.checkDest (mail.arg 7) = some cause ∧ (cause ≠ 2 ∨ mail.cur.reg.edepth ≠ 1)) := by
  refine ⟨⟨{ user 0x1002 0 1 with id := { (user 0x1002 0 1).id with cid := 1 } }, ?_⟩, by decide +kernel,
    by decide +kernel, by decide +kernel, ⟨_, rfl, by decide +kernel⟩⟩
  simp only [MailboxFree]; decide +kernel

theorem wit_messages : Ready mail ∧ Calm mail ∧ TrapReady mail ∧ Alone mail ∧ mail.net = [] ∧ mail.cur.sync.grant = none ∧
    (mail.arg 3).toNat / 2 ^ 48 % 2 ^ 8 = 1 ∧
    readPayload (mail.arg 2) 1 mail = .ok [0x0807060504030201] mail ∧
    mail.cur.mail.frame = [] ∧ (∃ e rest, mail.cur.mail.inbox = e :: rest ∧ e.msg.payload.length = 2) ∧
    mail.cur.effective (mail.arg 2) 0 16 = .ok 0x120000 ∧
    (∀ i, i < 2 → Reaches mail .write (0x120000 + 8 * i) (0x120000 + 8 * i) (0x120000 + 8 * i) ∧
      mail.postKind mail.cur (0x120000 + 8 * i) false = none ∧ Plain mail (0x120000 + 8 * i) 8 ∧
      ∀ j, j < 2 → (0x120000 + 8 * i) / 32 = (0x120000 + 8 * j) / 32 →
        (0x120000 + 8 * i) / 32 = (0x120000 + 8 * j) / 32) := by
  refine ⟨by simp only [Ready, Still]; decide +kernel, by simp only [Calm, Still]; decide +kernel,
    ⟨rfl, rfl, rfl, by simp only [Alone]; decide +kernel, rfl, rfl, by decide +kernel⟩, by simp only [Alone]; decide +kernel,
    rfl, rfl, by decide +kernel, rfl, rfl, ⟨_, _, rfl, rfl⟩, by decide +kernel, by simp only [Reaches, Plain]; decide +kernel⟩

/-- An empty mailbox, and a time limit that has passed. -/
theorem wit_no_message : st.cur.mail.inbox = [] ∧ st.cur.mail.frame = [] ∧ st.cur.sync.grant = none ∧ st.arg 9 = 0 ∧
    (let s := { st with now := 5, resetAt := 5 }
     s.tstamp < (s.arg 1).toNat) := by decide +kernel

theorem wit_no_message_in_time (h : 1 ≤ Config.nanos 0) :
    (let s := { withX st 9 1 with now := 1 }
     s.arg 9 ≠ 0 ∧ (s.arg 9).toNat ≤ s.tstamp) :=
  ⟨by decide +kernel, show 1 ≤ 0 + Config.nanos 0 by omega⟩

theorem wit_global_memory : mail.globalAt 8 0x7FFF0 (0x1008 - 16) ∧ (0x1008 - 16) % 8 = 0 ∧
    GlobalReaches mail .read 0xFF8 0x10000000000FF8 0x10000000000FF8 ∧
    mail.poisoned 0x10000000000FF8 8 = false ∧ Plain mail 0x10000000000FF8 8 ∧
    (∃ f, gamoRow (.gamoAdd true 9 8 2 ⟨0, 0, 0⟩ 0x7FFF0) = some (9, 8, 2, ⟨0, 0, 0⟩, 0x7FFF0, 8, f)) := by
  refine ⟨by simp only [State.globalAt]; decide +kernel, by decide, ⟨rfl, rfl, rfl, by decide⟩, rfl,
    by simp only [Plain]; decide +kernel, ⟨_, rfl⟩⟩

theorem wit_global_atomics : GlobalReaches
    { mail with ctl := [(0, 0x4001), (0x800, 0x10000000000017), (0x808, 0x2000000)] } .atomic 0xFF8 0x10000000000FF8
      0x10000000000FF8 := ⟨rfl, rfl, rfl, fun _ => rfl⟩

theorem wit_exact_sums : mail.cur.reg.q[(0 : QNum)].sat = false ∧ spanWith mail.cur.reg.q[(0 : QNum)] 0 0 ≤ 192 ∧
    mail.arg 1 ≠ 0 ∧ mail.arg 9 = 0 ∧ (fpFmt 2).value 0x3FC00000 = .fin false 12582912 (-23) ∧
    (fpFmt 2).value 0x7F800000 = .inf false ∧ (fpFmt 2).value 0x7FC00000 = .nan false ∧
    mail.cur.reg.q[(0 : QNum)] = ⟨0, 0, 0, true, false, false, false, false⟩ := by decide +kernel

/-- A BLOCKSUM message with digit 5 at exponent -3 and tag 7. -/
def summed : State := withCur (withX mail 9 7) (fun c => { c with mail :=
  ⟨[⟨⟨BitVec.ofNat 64 (4 * 2 ^ 56 + 2 * 2 ^ 48 + 7 * 2 ^ 32), [5, 0x0000FFFF0000FFFD &&& 0xFFFFFFFD]⟩, none⟩], [], none⟩ })

theorem wit_block_sums : Ready summed ∧ summed.net = [] ∧ summed.arg 1 = 1 ∧
    (∃ e p w, summed.cur.mail = ⟨[e], [], none⟩ ∧ e.msg.payload = [p, w] ∧ e.msg.header.toNat / 2 ^ 56 = 4 ∧
      e.msg.header.toNat / 2 ^ 32 % 2 ^ 16 = (summed.arg 9).toNat % 2 ^ 16 ∧ w.getLsbD 37 = false ∧
      w.getLsbD 36 = false ∧ w.extractLsb' 32 4 = 0 ∧
      spanWith summed.cur.reg.q[(0 : QNum)] (w.extractLsb' 0 16).toInt (w.extractLsb' 16 16).toInt ≤ 192) := by
  refine ⟨by simp only [Ready, Still]; decide +kernel, rfl, by decide +kernel, ⟨_, _, _, rfl, rfl, ?_⟩⟩
  decide +kernel

/-- BLOCKSUM messages with digit 5 at exponent -3 and tag 7, all but the last with MORE, and one of another tag between. -/
def summedMore : State := withCur (withX (withX mail 9 7) 1 1) (fun c => { c with mail :=
  ⟨[⟨⟨BitVec.ofNat 64 (4 * 2 ^ 56 + 2 * 2 ^ 48 + 7 * 2 ^ 32), [5, 0x2000000000 + 0xFFFDFFFD]⟩, none⟩,
    ⟨⟨BitVec.ofNat 64 (4 * 2 ^ 56 + 2 * 2 ^ 48 + 8 * 2 ^ 32), [9, 0]⟩, none⟩,
    ⟨⟨BitVec.ofNat 64 (4 * 2 ^ 56 + 2 * 2 ^ 48 + 7 * 2 ^ 32), [1, 0]⟩, none⟩], [], none⟩ })

/-- The sums after none, one and both of them: 5 * 2^-3, then 13 * 2^-3. -/
def sums : Nat → QAcc
  | 0 => ⟨0, 0, 0, true, false, false, false, false⟩
  | 1 => ⟨5, -3, -3, false, false, false, false, false⟩
  | _ => ⟨13, -3, 0, false, false, false, false, false⟩

theorem wit_sums_of_several : Ready summedMore ∧ summedMore.net = [] ∧ (summedMore.cur.mail.inbox.length = 3) ∧
    (let l := summedMore.cur.mail.inbox
     let mine := l.filter (blockSumOf ((summedMore.arg 9).toNat % 2 ^ 16))
     summedMore.cur.mail = ⟨l, [], none⟩ ∧
     (summedMore.arg 1).toNat = (mine.filter (fun e => !(e.msg.payload.getD 1 0).getLsbD 37)).length ∧
     (∀ e, mine.getLast? = some e → (!(e.msg.payload.getD 1 0).getLsbD 37) = true) ∧ mine.length = 2 ∧
     sums 0 = summedMore.cur.reg.q[(0 : QNum)] ∧ SumsUp sums mine) := by
  refine ⟨by simp only [Ready, Still]; decide +kernel, rfl, rfl, rfl, by decide +kernel, ?_, by decide +kernel, by decide +kernel, ?_⟩
  · intro e h
    have : (summedMore.cur.mail.inbox.filter (blockSumOf ((summedMore.arg 9).toNat % 2 ^ 16))).getLast? =
      some ⟨⟨BitVec.ofNat 64 (4 * 2 ^ 56 + 2 * 2 ^ 48 + 7 * 2 ^ 32), [1, 0]⟩, none⟩ := by decide +kernel
    rw [this, Option.some.injEq] at h
    subst h
    decide
  · simp only [SumsUp, TakesLeaf]; decide +kernel

/-- QSEND of an accumulator that holds 3 * 2^62 + 4 at exponent -5: two messages. -/
def sending : State := withCur mail (fun c => { c with reg := { c.reg with
  q := c.reg.q.set 0 ⟨BitVec.ofNat 320 (3 * 2 ^ 62 + 4), -5, 9, false, false, false, false, false⟩ } })

theorem wit_sums_sent : Ready sending ∧ sending.cur.reg.q[(0 : QNum)].empty = false ∧
    Digits sending.cur.reg.q[(0 : QNum)].q.toInt [4, 3] ∧
    (∃ c, MailboxFree sending (sending.arg 1) c ∧ c.mail.inbox.length + 2 ≤ 3) := by
  refine ⟨by simp only [Ready, Still]; decide +kernel, by decide +kernel, ⟨by decide, by decide +kernel, by decide +kernel, ?_⟩,
    ⟨{ user 0x1002 0 1 with id := { (user 0x1002 0 1).id with cid := 1 } }, ?_, by decide +kernel⟩⟩
  · intro m h1 h2
    obtain rfl : m = 1 := by simp only [List.length_cons, List.length_nil] at h2; omega
    exact Or.inr (by decide +kernel)
  · simp only [MailboxFree]; decide +kernel

theorem wit_encodings : encodable (.tmma 1 0 3 5 5 2 2 0 true false) = true ∧
    wellFormed (.tmma 1 0 3 5 5 2 2 0 true false) = true := by decide +kernel

/-- At the program counter stands LIH x5, 0x12345678. -/
def lihAtPc : State := { withMem base 0x100000 (toBytes 4 0xFC20A000 ++ toBytes 4 0x12345678) with
  turns := [.run 0x1001, .run 0x1001] }

theorem wit_step_runs : (let s0 := ({ lihAtPc.tick with turns := [.run 0x1001] } : State).served 0
    ({ lihAtPc.tick with turns := [.run 0x1001] } : State).waitOver lihAtPc.tick.cur = true ∧ lihAtPc.cur.runnable = true ∧
    ({ lihAtPc.tick with turns := [.run 0x1001] } : State).stalled lihAtPc.cur = false ∧ lihAtPc.cur.sched.ending = none ∧ lihAtPc.cur.sched.cancelled = false ∧
    lihAtPc.cur.sched.toSafe = none ∧ isLong 0xFC20A000 = true ∧ Fetches s0 0x100000 0xFC20A000 ∧
    Fetches s0 0x100004 0x12345678 ∧ decodeParcels 0xFC20A000 0x12345678 = .ok (.lih 5 0x12345678) ∧
    checkFields (.lih 5 0x12345678) = none) :=
  ⟨rfl, rfl, rfl, rfl, rfl, rfl, rfl, ⟨0x100000, 0x100000, rfl, rfl, rfl, rfl, by decide +kernel, by decide +kernel⟩,
    ⟨0x100004, 0x100004, rfl, rfl, rfl, rfl, by decide +kernel, by decide +kernel⟩, by decide +kernel, by decide +kernel⟩

/-- Nothing else is due where the context is alone. -/
theorem wit_step_alone : (let s := { lihAtPc with turns := [], others := [] }
    s.agenda = [] ∧ s.net = [] ∧ s.tick.schedule = none) := ⟨rfl, rfl, rfl⟩

theorem wit_memory_canonical : Memory.wf lihAtPc.mem = true ∧ ∃ t, step lihAtPc = .next t := by
  refine ⟨by decide +kernel, ?_⟩
  exact ⟨_, rfl⟩
/-- A tile of ones in the cells of easel 0 from a number on. -/
def tile (f : FmtCode) (rows cols : Nat) (first : Nat := 90) : Tile :=
  { cells := [(0, List.range' first (tileCells rows cols f))], rows := rows, cols := cols, tag := f, comp := false
    elems := List.replicate (rows * cols) 1, us := [], ss := [], group := false }

/-- t1 1 x 64 and t2 64 x 64 of INT8, t3 1 x 64 of INT32, t4 and t5 1 x 32 of FP32, t6 unbound. x6 describes t3, x7
t4. -/
def tiles : State :=
  withCur (withX (withX st 6 0x10040) 7 0x10020) (fun c => { c with
    job := { c.job with tcells := 96, easel := some 0, cells := [(0, List.range 96)] }
    reg := { c.reg with t := ((((c.reg.t.set 1 (some (tile 10 1 64 0))).set 2 (some (tile 10 64 64 4))).set 3
      (some (tile 8 1 64 80))).set 4 (some (tile 2 1 32))).set 5 (some (tile 2 1 32 86)) } })

theorem wit_engine_free : EngineFree tiles := by
  simp only [EngineFree, Still]; decide +kernel

theorem wit_tile_results : (let d : Desc := { descOf (tiles.arg 6) with stride := 0 }
    d.ok 8 false = true ∧ CellsFor tiles (tileCells d.rows d.cols 8)) ∧
    TileIn tiles 4 2 (tile 2 1 32) ∧ TileIn tiles 5 2 (tile 2 1 32 86) ∧ tiles.cur.groupName 6 = false ∧
    CellsFor tiles (tileCells 1 32 2) ∧ (⟨1, 32, 0⟩ : Desc).ok 8 false = true ∧ tiles.roundMode 1 false ≠ 6 ∧
    TileIn tiles 1 10 (tile 10 1 64 0) ∧ TileIn tiles 2 10 (tile 10 64 64 4) ∧ TileIn tiles 3 8 (tile 8 1 64 80) ∧
    CellsFor tiles (tileCells 1 64 8) := by
  simp only [TileIn, CellsFor, CellsOn]; decide +kernel

/-- A tile of the rows of an image. -/
def rowsTile (f : FmtCode) (rows cols : Nat) (bank : Bool) (byte : Nat → Nat → Byte) : Tile where
  cells := []
  rows := rows
  cols := cols
  tag := f
  comp := bank && f = 14
  elems := (List.range rows).flatMap (fun r => (List.range cols).map (fun c =>
    fromBytes ((List.range (rowBytes cols f)).map (byte r)) / 2 ^ (fmtWidth f * c) % 2 ^ fmtWidth f))
  us := (List.range rows).flatMap (fun r => (List.range (cols / 64)).map (fun b => (byte r (cols / 2 + b)).toNat))
  ss := (List.range rows).map (fun r =>
    fromBytes ((List.range 4).map (fun j => byte r (cols / 2 + 4 * ((cols + 255) / 256) + j))))
  group := false

theorem rows_tile (f : FmtCode) (rows cols : Nat) (bank : Bool) (byte : Nat → Nat → Byte) :
    FromRows (rowsTile f rows cols bank byte) f rows cols bank byte :=
  ⟨rfl, rfl, rfl, rfl, rfl, rfl, fun _ => ⟨rfl, rfl⟩⟩

/-- The slot of 64 x 64 INT8 ones that stands in the operand staging of easel 0. -/
def stagedOnes : Staged := ⟨0, 0, List.replicate 4096 1, []⟩

/-- A subscription of easel 0 that has received the slot, and its ring. -/
def fedSub : RingSub := ⟨0x1001, 1, some 0, 1, 1, 0, false, [stagedOnes]⟩

def fedRing : Ring :=
  { pbase := 0x4000, slotBytes := 4096, nslot := 2, nsub := 1, fmt := 10, stringRing := false, rows := 64, cols := 64
    stride := 0, claim := 1, head := 0, tail := 1, slots := [⟨.ready, none⟩, ⟨.empty, none⟩], subs := [fedSub]
    waiting := [] }

/-- x8 describes 4 x 64, t2 is 8 x 64 of INT8 and t7 1 x 4. -/
def loading : State := withCur (withX tiles 8 0x40040) (fun c => { c with reg := { c.reg with
  t := (c.reg.t.set 2 (some (tile 10 8 64 4))).set 7 (some (tile 10 1 4)) } })

/-- p1 subscribes to ring 4 for easel 0. -/
def fed : State := { withCur (withX tiles 8 0x40040) (fun c => { c with reg := { c.reg with
    p := c.reg.p.set 1 (some ⟨4, .easelSub, 0, 0⟩) } }) with
  clusters := [(0, { Cluster.reset with rings := [(4, fedRing)] })] }

/-- t1 1 x 64 and t2 64 x 64 of Q4NL. -/
def quartered : State := withCur tiles (fun c => { c with reg := { c.reg with
  t := (c.reg.t.set 1 (some (tile 13 1 64 0))).set 2 (some (tile 13 64 64 4)) } })

theorem wit_loading : EngineFree loading ∧ EngineFree fed ∧ EngineFree quartered ∧ (let d := descOf (loading.arg 8)
    d.ok 10 false = true ∧ d.rows = 4 ∧ d.cols = 64 ∧ d.span 10 = 256 ∧ CellsFor loading (tileCells d.rows d.cols 10) ∧
    CellsFor fed (tileCells d.rows d.cols 10)) ∧ fed.arg 8 = loading.arg 8 ∧
    loading.cur.groupName 6 = false ∧ fed.cur.groupName 6 = false := by
  simp only [EngineFree, Still, CellsFor, CellsOn]; decide +kernel

theorem wit_readable (n : Nat) (h : n ≤ 256) : Readable loading 0x120000 n id id := by
  intro va h1 h2
  obtain ⟨k, rfl⟩ := Nat.exists_eq_add_of_le h1
  have hk : k < 256 := by omega
  have : (∀ k, k < 256 → 0x120000 + k < 2 ^ 60 ∧ loading.cur.mapVa .read (0x120000 + k) = .ok (0x120000 + k) ∧
      loading.atomicAt (0x120000 + k) loading.cur.id.core = true ∧
      loading.meet (0x120000 + k) .read loading.cur.token = (.ok (0x120000 + k), loading) ∧
      loading.poisoned (0x120000 + k) 1 = false) := by decide +kernel
  obtain ⟨a, b, c, d, e⟩ := this k hk
  exact ⟨a, b, c, d, e, fun _ _ => ⟨rfl, rfl⟩⟩

theorem wit_tile_loads : loading.cur.effective (loading.arg 1) 0 256 = .ok 0x120000 ∧
    (∀ loc n, Promised loading loc n) ∧
    Handles fed 1 ⟨4, .easelSub, 0, 0⟩ fedRing ∧ StagedSlot fed ⟨4, .easelSub, 0, 0⟩ fedRing 0 fedSub stagedOnes ∧
    (0 : BitVec 19).toNat + 256 ≤ fedRing.slotBytes ∧ stagedOnes.bytes.length = fedRing.slotBytes ∧
    (∀ loc, fed.versions loc = []) ∧ ∀ k, k < 4096 → stagedOnes.bytes[k]? = some 1 := by
  refine ⟨by decide +kernel, promised_of_none rfl rfl, ⟨rfl, rfl⟩, ⟨Or.inl rfl, rfl, by decide +kernel, by decide +kernel, rfl, rfl⟩,
    by decide +kernel, by rw [stagedOnes, List.length_replicate]; rfl, fun _ => rfl, fun k h => ?_⟩
  simp only [stagedOnes, List.getElem?_replicate, if_pos h]

/-- x6 describes 2 x 64: a group of 16. -/
def grouped : State := withCur (withX st 6 0x20040) (fun c => { c with
  job := { c.job with tcells := 96, group := 16, easel := some 0 } })

theorem wit_groups : EngineFree grouped ∧ 1 < grouped.cur.job.group ∧ (descOf (grouped.arg 6)).ok 2 true = true ∧
    (grouped.cur.needs (zeroTile 2 false 2 64 true)) ≠ [] ∧
    ∀ q ∈ grouped.cur.needs (zeroTile 2 false (descOf (grouped.arg 6)).rows (descOf (grouped.arg 6)).cols true),
      CellsOn grouped q.1 q.2 := by
  simp only [EngineFree, Still, CellsOn]; decide +kernel

/-- An operand of a ring, with a tile; two tiles of Q4NL; a sparse product below. -/
theorem wit_tile_products : Operand fed 1 0 false 10 0 (tile 10 1 64 0) ∧ TileIn fed 3 8 (tile 8 1 64 80) ∧
    (∃ b, Operand fed 2 1 true 10 0 b ∧ b.rows = 64 ∧ b.cols = 64) ∧ CellsFor fed (tileCells 1 64 8) ∧
    Operand quartered 1 0 false 13 0 (tile 13 1 64 0) ∧ Operand quartered 2 0 false 13 0 (tile 13 64 64 4) ∧
    TileIn quartered 3 8 (tile 8 1 64 80) ∧ CellsFor quartered (tileCells 1 64 8) ∧ (tile 13 1 64).cols % 64 = 0 := by
  simp only [Operand, Bool.false_eq_true, if_false, if_true, CellsFor, CellsOn, TileIn]
  refine ⟨⟨rfl, rfl, rfl⟩, ⟨rfl, rfl, rfl⟩,
    ⟨rowsTile 10 fedRing.rows fedRing.cols (fed.cluster (fed.cur.id.core / 4)).bank
      (fun k j => (stagedOnes.bytes[k * strideOf fedRing.stride fedRing.cols 10 + j]?).getD 0), ?_, rfl, rfl⟩,
    by decide +kernel, ⟨rfl, rfl, rfl⟩, ⟨rfl, rfl, rfl⟩, ⟨rfl, rfl, rfl⟩, by decide +kernel, rfl⟩
  exact ⟨⟨4, .easelSub, 0, 0⟩, fedRing, fedSub, stagedOnes, rfl, rfl, wit_tile_loads.2.2.2.1, rfl, by decide,
    by rw [stagedOnes, List.length_replicate]; decide +kernel,
    rows_tile _ _ _ _ _⟩

theorem wit_sparse_products : Operand loading 7 0 false 10 0 (tile 10 1 4) ∧ Operand loading 2 0 false 10 0 (tile 10 8 64 4) ∧
    TileIn loading 3 8 (tile 8 1 64 80) ∧ (tile 10 1 4).cols = (tile 10 8 64 4).rows * 2 ^ (3 - 1) / 8 ∧
    (3 * 2 ^ (3 - 1) * 8 + 511) / 512 * 8 = 8 ∧ loading.cur.effective (loading.arg 1) 0 (1 * 8) = .ok 0x120000 ∧
    Readable loading 0x120000 (1 * 8) id id := by
  simp only [Operand, Bool.false_eq_true, if_false, TileIn]
  exact ⟨⟨rfl, rfl, rfl⟩, ⟨rfl, rfl, rfl⟩, ⟨rfl, rfl, rfl⟩, rfl, by decide, by decide +kernel,
    wit_readable 8 (by decide)⟩

/-- The engine's report of a command. -/
def report (f : Option Tile) : EngineCmd :=
  { easel := 0, tag := 0, op := 0, uid := 0x1001, bits := 0, sources := [], cells := [], name := 0, slots := []
    start := none, state := .complete, squashed := false, banks := [], result := f, flags := 0, lfsr := none, fault := none }

/-- The same with a command reported. -/
def reported : State := { withX tiles 9 0x140000 with
  clusters := [(0, { Cluster.reset with cmds := [report (some (tile 2 1 32))] })] }

theorem wit_tile_bindings : tileTarget (.tadd 6 4 5 2 0) = some 6 ∧ Calm reported ∧
    Reported reported (0, report (some (tile 2 1 32))) [] ∧
    (report (some (tile 2 1 32))).result = some (tile 2 1 32) := by
  refine ⟨rfl, by simp only [Calm, Still]; decide +kernel, ?_, rfl⟩
  simp only [Reported]; decide +kernel

theorem wit_tile_stores : (let d := descOf (reported.arg 7)
    reported.cur.reg.t[(4 : TNum)] = some (tile 2 1 32) ∧ d.ok 2 false = true ∧ d.rows = 1 ∧ d.cols = 32 ∧
    (List.range d.rows).flatMap (tile 2 1 32).rowImage ≠ [] ∧ d.span 2 = 128 ∧
    reported.cur.effective (reported.arg 9) 0 (d.span 2) = .ok 0x140000) ∧
    (∀ k, k < 128 → reported.cur.mapVa .write (0x140000 + k) = .ok (0x140000 + k) ∧
      reported.cur.mapVa .read (0x140000 + k) = .ok (0x140000 + k) ∧
      reported.atomicAt (0x140000 + k) 0 = true) := by decide +kernel

/-- Rings: ring 3 of cluster 0 has two slots. p1 is its producer and has claimed slot 0, p2 subscribes to ring 4, whose
slot 0 has been delivered. x6 holds the claim word of slot 0, x7 names a descriptor, x10 is 5, x12 ring 3, x13 a
watermark. -/
def ringed : State :=
  let s := withX (withX (withX (withX (withX (withMem reported 0x140000 (toBytes 4 0x8000 ++ toBytes 4 512 ++ [2, 1]))
    6 0) 7 0x140000) 10 5) 12 3) 13 0x100
  let r : Ring := { pbase := 0, slotBytes := 512, nslot := 2, nsub := 1, fmt := 0, stringRing := false, rows := 0, cols := 0
                    stride := 0, claim := 1, head := 0, tail := 0
                    slots := [⟨.filling, some (.handle 0x1001 1)⟩, ⟨.empty, none⟩], subs := [], waiting := [] }
  let r4 : Ring := { r with
    pbase := 0x4000, tail := 1, slots := [⟨.ready, none⟩, ⟨.empty, none⟩], subs := [⟨0x1001, 2, none, 1, 1, 0, false, []⟩] }
  let handles := (s.cur.reg.p.set 1 (some ⟨3, .producer, 0, 0⟩)).set 2 (some ⟨4, .contextSub, 0, 0⟩)
  { withCur s (fun c => { c with reg := { c.reg with p := handles } }) with
    clusters := [(0, { s.cluster 0 with rings := [(3, r), (4, r4)] })] }

theorem wit_ring_handles : ringed.cur.sync.region = none ∧ ringed.cur.sched.place = .slot ∧ ringed.cur.reg.p[(0 : PNum)] = none ∧ Calm ringed ∧
    ringed.cur.effective (ringed.arg 7) 0 32 = .ok 0x140000 ∧ Reaches ringed .read 0x140000 0x140000 0x140000 ∧
    ringed.poisoned 0x140000 32 = false ∧ ringed.ringDescOk 0 (ringed.bytesAt 0x140000 32) = true ∧
    (ringed.arg 10).toNat < 64 ∧ ringed.ring 0 (ringed.arg 10).toNat = none ∧
    (∃ r, ringed.ring 0 (ringed.arg 12).toNat = some r ∧ r.subs.length + 1 ≤ r.nsub) ∧
    (ringed.arg 13).toNat = 1 * 2 ^ 8 := by
  refine ⟨rfl, rfl, rfl, by simp only [Calm, Still]; decide +kernel, by decide +kernel, ⟨by decide, rfl, rfl, rfl, by decide⟩, rfl,
    by decide +kernel, by decide +kernel, by decide +kernel, ⟨_, rfl, by decide +kernel⟩, by decide +kernel⟩

theorem wit_ring_slots : (∃ h r, Handles ringed 1 h r ∧ (r.claim - r.head).toNat < r.nslot ∧ r.waiting = [] ∧
      r.slots.length = r.nslot ∧ r.inside ((ringed.arg 6).extractLsb' 32 32) = true ∧
      r.slot ((ringed.arg 6).extractLsb' 32 32) = ⟨.filling, some (.handle 0x1001 1)⟩ ∧ r.subs = [] ∧ 0 < r.nsub) ∧
    (∃ h r u, Handles ringed 2 h r ∧ h.role = .contextSub ∧ r.subs[h.record]? = some u ∧ u.delivered ≠ u.popped ∧
      u.window ≤ 64) ∧ ringed.cur.sync.grant = none := by
  refine ⟨⟨_, _, ⟨rfl, rfl⟩, by decide +kernel⟩, ⟨_, _, _, ⟨rfl, rfl⟩, rfl, rfl, by decide +kernel⟩, rfl⟩

/-- A streaming store of the tile is counted. -/
theorem wit_tile_streams : ∀ j, j < 128 → (if (⟨2, 2, 0⟩ : MemAttr).cls = 2 ∧ reported.pageable (0x140000 + j) = true then
    reported.postKind reported.cur (0x140000 + j) true else none) = some .d := by decide +kernel

/-- TSTP into the claimed slot of ring 3: x14 describes the tile. -/
theorem wit_tile_posts : (let s := withX ringed 14 0x10020
    Calm s ∧ Reported s (0, report (some (tile 2 1 32))) [] ∧ s.cur.reg.t[(4 : TNum)] = some (tile 2 1 32) ∧
    (descOf (s.arg 14)).ok 2 false = true ∧ (descOf (s.arg 14)).rows = 1 ∧ (descOf (s.arg 14)).cols = 32 ∧
    (descOf (s.arg 14)).span 2 = 128 ∧ ∃ h r, Handles s 1 h r ∧ (0 : BitVec 19).toNat + 128 ≤ r.slotBytes ∧
      r.inside ((s.arg 6).extractLsb' 32 32) = true ∧
      r.slot ((s.arg 6).extractLsb' 32 32) = ⟨.filling, some (.handle s.cur.id.uid 1)⟩) :=
  ⟨by simp only [Calm, Still]; decide +kernel, by simp only [Reported]; decide +kernel, rfl, by decide +kernel, by decide +kernel,
    by decide +kernel, by decide +kernel, ⟨_, _, ⟨rfl, rfl⟩, by decide +kernel, by decide +kernel, by decide +kernel⟩⟩

theorem wit_unbound_rings : TrapReady st ∧ st.cur.reg.p[(0 : PNum)] = none := ⟨wit_trap_ready, rfl⟩

/-- QSEND of a row of t1 and a column of t2, to nobody and to the mailbox of 0x1002. -/
def rowSent : State := { mail with
  cur := { reported.cur with reg := { reported.cur.reg with x := mail.cur.reg.x } }, clusters := reported.clusters }

theorem wit_tile_sums : Ready rowSent ∧ rowSent.net = [] ∧ Reported rowSent (0, report (some (tile 2 1 32))) [] ∧
    rowSent.cur.reg.t[(1 : TNum)] = some (tile 10 1 64 0) ∧ (tile 10 1 64 0).rows = 1 ∧
    rowSent.mailbox (destCore (rowSent.arg 6)) ((rowSent.arg 6).toNat % 2 ^ 6) = none ∧
    (∃ c, MailboxFree rowSent (rowSent.arg 1) c) := by
  refine ⟨by simp only [Ready, Still]; decide +kernel, rfl, by simp only [Reported]; decide +kernel, rfl, rfl,
    by decide +kernel, ⟨{ user 0x1002 0 1 with id := { (user 0x1002 0 1).id with cid := 1 } }, ?_⟩⟩
  simp only [MailboxFree]; decide +kernel

/-- A halted chain at 0x130000 and an idle one at 0x130040; x6 and x7 name them, x1 a command. -/
def chains : State := withX (withX (withMem st 0x13001A [2]) 6 0x130000) 7 0x130040

theorem wit_ferry_doorbells : ObjectAt chains 6 .atomic 0x130000 0x130000 ∧ ObjectAt chains 7 .atomic 0x130040 0x130040 ∧
    chains.cur.effective (chains.arg 1) 0 64 = .ok 0x120000 ∧ Reaches chains .write 0x120000 0x120000 0x120000 ∧
    chains.touchedBy none 0x120000 64 = false ∧ fromBytes (chains.bytesAt 0x13001A 1) = 2 ∧
    fromBytes (chains.bytesAt 0x13005A 1) ≠ 2 ∧ fromBytes (chains.bytesAt 0x130040 8) = 0 ∧ Calm chains ∧
    Reaches chains .read 0x130040 0x130040 0x130040 ∧
    chains.meet 0x130050 .read chains.cur.token = (.ok 0x130050, chains) := by
  refine ⟨⟨0x130000, by decide +kernel⟩, ⟨0x130040, by decide +kernel⟩, by decide +kernel, ⟨by decide, rfl, rfl, rfl, fun _ => rfl⟩,
    by decide +kernel, by decide +kernel, by decide +kernel, by decide +kernel, by simp only [Calm, Still]; decide +kernel,
    ⟨by decide, rfl, rfl, rfl, by decide⟩, rfl⟩

theorem wit_code_tables : (chains.cluster 0).table = [] ∧ chains.bankHeld 0 true = false ∧ chains.bankHeld 0 false = false ∧
    chains.cur.effective (chains.arg 6) 0 32 = .ok 0x130000 ∧ Reaches chains .read 0x130000 0x130000 0x130000 ∧
    chains.poisoned 0x130000 32 = false ∧ Promised chains 0x130000 32 ∧
    ∀ e ∈ (List.range 16).map (fun k => fromBytes (chains.bytesAt (0x130000 + 2 * k) 2)), e < 512 :=
  ⟨rfl, rfl, rfl, by decide +kernel, ⟨by decide, rfl, rfl, rfl, by decide⟩, rfl, promised_of_none rfl rfl _ _, by decide +kernel⟩
/-! Steps of the device. Where a statement speaks of time that has passed or of measured power, the witness says for
which of those free values it holds. -/

/-- One step after reset, so that the time that has passed is the free value of one step. -/
def later (s : State) : State := { s with now := 1 }

theorem elapsed_later (s : State) : (later s).elapsed 0 = Config.nanos 0 := by
  show 0 + Config.nanos 0 = _
  omega

theorem tstamp_later : (later st).tstamp = Config.nanos 0 := by
  show 0 + Config.nanos 0 = _
  omega

/-- Cluster 2 stretches and holds until CYC is 0; string 3 has EN 0; string 1 has a node above THRESH and above LIMIT since
step 0, string 2 only low ones. -/
def circuits : State := { st with
  clusters := [(2, { Cluster.reset with stretching := true, holdEnd := some 0 }), (3, { Cluster.reset with holdEnd := some 9 })]
  strings := [(1, { StringSt.reset with node2 := -300, above := [none, some 0, none] }),
    (2, { StringSt.reset with calm := some 0, below := some 0 }), (3, { StringSt.reset with gesso := 0 })] }

theorem wit_string_steps : (circuits.string 1).gesso.getLsbD 0 = true ∧ (circuits.string 3).gesso.getLsbD 0 = false ∧
    (some 0 ∈ (circuits.string 1).above) ∧ (circuits.string 2).calm = some 0 ∧ (circuits.string 2).below = some 0 ∧
    ((circuits.string 1).gesso.extractLsb' 20 10).toNat < (circuits.string 1).node2.toInt.natAbs ∧
    (circuits.cluster 2).drpth.extractLsb' 0 8 = 8 ∧
    (circuits.cluster 2).stretching = true ∧ (circuits.cluster 0).stretching = false ∧
    (circuits.cluster 2).holdEnd = some 0 ∧ 0 ≤ circuits.cyc 2 ∧ (circuits.cluster 3).holdEnd = some 9 ∧
    circuits.cyc 3 < 9 ∧
    (∀ c ∈ st.contexts, c.sched.place = .slot → c.id.core = 5 → c.runnable = true → st.waitOver c = false) ∧
    (∃ c ∈ st.contexts, c.sched.place = .slot ∧ c.id.core = 0 ∧ c.runnable = true ∧ st.waitOver c = true) := by
  refine ⟨rfl, rfl, by decide +kernel, rfl, rfl, by decide +kernel, rfl, rfl, rfl, rfl, by decide +kernel, rfl,
    by decide +kernel, by decide +kernel, ⟨st.cur, ?_⟩⟩
  decide +kernel

/-- The clock of a cluster has run for as long as a step takes it. -/
theorem wit_cycles (cl : Nat) (h : 256 ≤ Config.cycles cl 0) : 256 ≤ (later circuits).cyclesSince cl 0 := by
  show 256 ≤ 0 + Config.cycles cl 0
  omega

theorem wit_idle (h : 256 ≤ Config.cycles 1 0) :
    256 ≤ (later st).cyclesSince (5 / 4) (max ((later st).core 5).readyAt (later st).resetAt) ∧
    st.cyclesSince (5 / 4) (max (st.core 5).readyAt st.resetAt) < 256 := by
  refine ⟨?_, by decide +kernel⟩
  show 256 ≤ 0 + Config.cycles 1 0
  omega

/-- A frame with its CRC. -/
def frame : List Byte :=
  let body := toBytes 2 0x7E1D ++ [9, 0] ++ toBytes 2 2400 ++ toBytes 2 900 ++ toBytes 2 100 ++ toBytes 2 0
  body ++ toBytes 4 (crc32 body).toNat

/-- The CRC-32 of the nine digits is 0xCBF43926 (the check value of the polynomial of R369). -/
theorem test_crc32 : crc32 ([49, 50, 51, 52, 53, 54, 55, 56, 57] : List Byte) = 0xCBF43926 := by decide +kernel

theorem wit_frames : Distinct st ∧ frameValid frame = true ∧ (0 : Nat) < st.packages ∧ ([] : List Byte).length ≠ 16 ∧
    st.ctlField 0 0x758 39 33 = 0 ∧ st.ctlField 0 0x758 30 30 = 0 ∧ st.ctlField 0 0x758 15 0 = 0 ∧
    st.elapsed (st.pkg 0).lastFrame < 1000000 := by
  simp only [Distinct]; decide +kernel

/-- The estimate once the demands are measured, where no class is shed and nothing is at half width. -/
theorem estimate_measured (s : State) (h : ∀ k, k < 8 → s.classShed 0 k = false) (hs : ∀ k, k < 9 → s.slowed 0 k = false) :
    (s.sampleDemands 0).estimate 0 = Config.demand 0 8 s.now + Config.demand 0 0 s.now + Config.demand 0 1 s.now +
      Config.demand 0 2 s.now + Config.demand 0 3 s.now + Config.demand 0 4 s.now + Config.demand 0 5 s.now +
      Config.demand 0 6 s.now + Config.demand 0 7 s.now := by
  have h1 (k : Nat) (hk : k < 8) : (s.sampleDemands 0).classShed 0 k = false := h k hk
  have d : ((s.sampleDemands 0).pkg 0).demands = (List.range 9).map (fun k =>
      if s.slowed 0 k then getAt (s.pkg 0).demands k 0 else Config.demand 0 k s.now) := by
    simp only [State.sampleDemands, State.setPkg, State.pkg, tabGet_tabPut, if_true]
  simp [State.estimate, State.demand, h1, hs, d, getAt, List.range, List.range.loop]

/-- Where no class demands anything, the estimate is 0. -/
theorem wit_estimate (h : ∀ k, Config.demand 0 k 0 = 0) : (st.sampleDemands 0).estimate 0 = 0 := by
  rw [estimate_measured st (by decide +kernel) (by decide +kernel)]
  simp [show st.now = 0 from rfl, h]

/-- A package under STALE and HWPWR, with PKGW 3000. -/
def stale : State := { st with ctl := [(0, 0x4001), (0x748, 0x07D00080), (0x758, 0xC0000BB8)] }

theorem wit_stale : (stale.ctlGet 0 0x748).getLsbD 7 = true ∧ stale.ctlField 0 0x748 5 3 = 0 ∧
    stale.ctlField 0 0x758 39 33 = 0 ∧ (∀ c ∈ stale.contexts, c.reg.cls = 0 ∧ c.power.lease = none) ∧
    min (stale.ctlField 0 0x740 31 16) (min (stale.ctlField 0 0x740 15 0) (stale.ctlField 0 0x760 15 0)) = 2000 ∧
    (stale.ctlGet 0 0x758).getLsbD 30 = true ∧ (stale.ctlGet 0 0x758).getLsbD 31 = true ∧
    stale.ctlField 0 0x748 31 16 = 2000 ∧ ((stale.ctlGet 0 0x758).extractLsb' 0 16).toNat = 3000 ∧
    ((st.ctlGet 0 0x758).extractLsb' 0 16).toNat * 100 < 95 * st.ctlField 0 0x748 31 16 := by decide +kernel

/-- A package under STALE that is not yet at half width. -/
def strained : State := { st with ctl := [(0, 0x4001), (0x748, 0x07D00080)] }

/-- Where the system demands 2001, the estimate is above FALLBACK. -/
theorem wit_half_width (h : 2001 ≤ Config.demand 0 8 0) : 2000 < (strained.sampleDemands 0).estimate 0 ∧
    (strained.ctlGet 0 0x748).getLsbD 7 = true ∧ strained.ctlField 0 0x748 5 3 = 0 ∧
    strained.ctlField 0 0x758 39 33 = 0 ∧ (∀ c ∈ strained.contexts, c.reg.cls = 0 ∧ c.power.lease = none) ∧
    min (strained.ctlField 0 0x740 31 16) (min (strained.ctlField 0 0x740 15 0) (strained.ctlField 0 0x760 15 0)) = 2000 := by
  refine ⟨?_, by decide +kernel⟩
  rw [estimate_measured strained (by decide +kernel) (by decide +kernel), show strained.now = 0 from rfl]
  omega

theorem wit_time (h : 2000000 ≤ Config.nanos 0) : 2000000 ≤ (later stale).elapsed 0 ∧
    1000000 ≤ (later stale).elapsed ((later stale).pkg 0).lastFrame ∧ 50000 ≤ (later stale).elapsed ((later stale).pkg 0).halfAt ∧
    10000 ≤ (later stale).elapsed ((later stale).pkg 0).safeAt := by
  have e := elapsed_later stale
  refine ⟨by omega, ?_, ?_, ?_⟩
  · show 1000000 ≤ (later stale).elapsed 0; omega
  · show 50000 ≤ (later stale).elapsed 0; omega
  · show 10000 ≤ (later stale).elapsed 0; omega

/-- A task of class 3, which is shed, with a lease that expires at 0. -/
def shed : State := { withCur st (fun c => { c with
    reg := { c.reg with cls := 3 }, power := { c.power with shedAt := some 0, lease := some ⟨2, 0, 0⟩ } }) with
  ctl := [(0, 0x4001), (0x758, 0x0000000800000000), (0x780, 0x20203), (0x098, 0x30000), (0x0A0, 0x0004000000000000)]
  accounts := [⟨0x1001, 7, 0x99, 0, none, [], []⟩] }

theorem wit_shed : (∃ c, shed.ctx 0x1001 = some c ∧ c.power.shedAt = some 0 ∧ c.sched.place = .slot ∧
      shed.classShed (pkgOf c.id.core) c.reg.cls = true ∧ c.power.lease = some ⟨2, 0, 0⟩) ∧ 0 ≤ shed.tstamp ∧
    shed.elapsed 0 < 2000000 ∧ shed.tstamp < 1 ∧
    (shed.die 0).energyWait = [] ∧
    RingRoom shed 0 0x0A0 := by
  refine ⟨⟨_, rfl, rfl, rfl, by decide +kernel, rfl⟩, by decide +kernel, by decide +kernel, by decide +kernel, rfl, ?_⟩
  simp only [RingRoom]; decide +kernel

/-- The account of its token, 100 ms after its dispatch. -/
theorem wit_energy (h : 100000000 ≤ Config.nanos 0) : (later shed).accounts.find? (fun b =>
    b.token = 7 ∧ b.ended = none ∧ 100000000 ≤ (later shed).elapsed (b.since 0)) = some ⟨0x1001, 7, 0x99, 0, none, [], []⟩ := by
  show List.find? _ [_] = _
  rw [List.find?_cons_of_pos]
  have e := elapsed_later shed
  exact decide_eq_true ⟨rfl, rfl, show 100000000 ≤ (later shed).elapsed 0 by omega⟩

/-- SAFE with an input below 95 % of the limit since step 0. -/
def safe : State := { st with
  ctl := [(0, 0x4001), (0x758, 0x80000000), (0x760, 1000)], pkgs := [(0, { Pkg.reset with safeBelow := some 0 })] }

theorem wit_safety : (safe.ctlGet 0 0x758).getLsbD 31 = true ∧ safe.ctlField 0 0x760 15 0 = 1000 ∧
    (safe.pkg 0).safeBelow = some 0 ∧ safe.elapsed 0 < 1000000 ∧ (st.pkg 0).safeBelow = none ∧
    1000 < (1001 : BitVec 16).toNat ∧ (949 : BitVec 16).toNat * 100 < 95 * 1000 ∧ safe.elapsed (safe.pkg 0).safeAt < 10000 := by
  decide +kernel

theorem wit_boots : (0 : Nat) < 8 ∧ (st.atel 0).booted = false ∧
    (({ st with atelier := [(0, { Atelier.reset with booted := true, algorithms := true })] } : State).atel 0).booted = true := by
  decide +kernel

/-- An image whose signatures hold, and one of which one does not. -/
def image (rsa : Bool) : BootImage where
  atelier := ⟨true, true⟩
  config := ⟨rsa, true⟩
  identity := ⟨true, true⟩
  control := []
  gesso := []
  drpth := []
  packages := 1
  routes := [(0, 3)]
  capbase := 0x30000
  capIa := 0x30000
  entry := 0x200000
  supervisorRanges := []
  dispatchRanges := []
  bytes := [1, 2]
  firmware := [3]

theorem wit_images : (∀ v ∈ [(image true).atelier, (image true).config, (image true).identity], v.rsa = true ∧ v.slh = true) ∧
    ¬∀ v ∈ [(image false).atelier, (image false).config, (image false).identity], v.rsa = true ∧ v.slh = true := by decide +kernel

/-- The leaf's D is clear. -/
def clean : State := withMem st 0x8000 [0x3D]

theorem wit_walks : clean.whereIs 0x123456 = .pageable ∧ clean.walk 0x123456 = .leaf 0x8000 0x3D 30 ∧
    (entryBit 0x3D 4 = true ∧ entryBit 0x3D 6 = false ∧ entryBit 0x3D 7 = false) ∧
    ∃ level, clean.walk 0x12345600000 = .absent level :=
  ⟨by decide +kernel, by decide +kernel, by decide +kernel, ⟨_, rfl⟩⟩

/-- Tables of five levels down to a copy-on-write page at 0x10000, shared by n; the reserve frame is 0x20000. -/
def shared (n : Nat) : State :=
  let tables := withMem (withMem (withMem (withMem (withMem { st with mem := [] } 0x4000 (toBytes 8 0x8001)) 0x8000
    (toBytes 8 0x8101)) 0x8100 (toBytes 8 0x8201)) 0x8200 (toBytes 8 0x8301)) 0x8300 (toBytes 8 0x1007D)
  { withMem tables 0x40020 (toBytes 4 n) with
    ctl := [(0, 0x4001), (8, 0x40000)], dies := [(0, { Die.reset with reserve := some 0x20000 })] }

theorem wit_breaks : (shared 1).whereIs 0x33 = .pageable ∧ (shared 1).walk 0x33 = .leaf 0x8300 0x1007D 15 ∧
    (shared 3).walk 0x33 = .leaf 0x8300 0x1007D 15 ∧ entryBit 0x1007D 4 = true ∧ entryBit 0x1007D 6 = true ∧
    (shared 1).numAt ((shared 1).descLoc 0 0x10000) 4 = 1 ∧ 2 ≤ (shared 3).numAt ((shared 3).descLoc 0 0x10000) 4 ∧
    ((shared 3).die (homeDie 0x33)).reserve = some 0x20000 ∧ (shared 3).descLoc 0 0x10000 = 0x40020 ∧
    (shared 3).descLoc 0 0x20000 = 0x40040 ∧ Apart 0x20000 (2 ^ 15) 0x8300 8 ∧ Apart 0x20000 (2 ^ 15) 0x40020 16 ∧
    Apart 0x40020 16 0x40040 16 ∧ Apart 0x40020 16 0x8300 8 ∧ Apart 0x20000 (2 ^ 15) 0x10000 (2 ^ 15) := by
  simp only [Apart]; decide +kernel

/-- Fault records wait at die 1, whose ring has room; at die 2 there is no ring. -/
def waiting : State := { st with
  dies := [(1, { Die.reset with faultWait := [⟨1, 2, 3, 4, 5, 6⟩] }), (2, { Die.reset with faultWait := [⟨1, 2, 3, 4, 5, 6⟩] })]
  ctl := [(0, 0x4001), (0x1020, 0x30000), (0x1028, 0x0004000000000000)] }

theorem wit_fault_records : (waiting.die 1).faultWait = [⟨1, 2, 3, 4, 5, 6⟩] ∧ RingRoom waiting 1 0x028 ∧
    (waiting.die 2).faultWait = [⟨1, 2, 3, 4, 5, 6⟩] ∧ ¬RingRoom waiting 2 0x028 := by
  simp only [RingRoom]; decide +kernel

theorem wit_epochs : (st.ctlGet 0 0x000).getLsbD 0 = true ∧ (State.reset.ctlGet 0 0x000).getLsbD 0 = false ∧
    st.elapsed (max (st.die 0).epochAt st.resetAt) < st.ctlField 0 0x040 31 0 * 1000 ∧
    (∀ d ∈ List.range 4, d / 4 = 0) ∧ (∀ d, st.ctlField d 0x038 63 48 = 0) := by
  refine ⟨by decide +kernel, by decide +kernel, by decide +kernel, by decide, fun d => ?_⟩
  show bitsOf (tabGet _ [(0, (0x4001 : Word))] (ctlKey d 0x038)) 63 48 = 0
  rw [show tabGet (ctlReset 0x038) [(0, (0x4001 : Word))] (ctlKey d 0x038) = 0 by
    have : ctlKey d 0x038 ≠ 0 := by simp [ctlKey, pkgWide]
    simp [tabGet, this, ctlReset]]
  rfl

/-- Epochs of the four dies that are over. -/
theorem wit_epochs_over (h : 2 ^ 42 ≤ Config.nanos 0) : ∀ d, d / 4 = 0 →
    (later st).ctlField d 0x040 31 0 * 1000 ≤ (later st).elapsed (max ((later st).die d).epochAt (later st).resetAt) := by
  intro d _
  have e : (later st).elapsed (max ((later st).die d).epochAt (later st).resetAt) = Config.nanos 0 := by
    have : ((later st).die d).epochAt = 0 := rfl
    rw [this, show (later st).resetAt = 0 from rfl]
    exact elapsed_later st
  rw [e]
  have : (later st).ctlField d 0x040 31 0 < 2 ^ 32 := by
    simp only [State.ctlField, bitsOf]
    exact Nat.mod_lt _ (by decide)
  omega

/-- A posted store, a submission, a reduction and a tile store in flight. -/
def flying : State := withCur st (fun c => { c with io := { c.io with
  posted := [⟨.d, [(0x123440, [1, 2, 3])], 0, false, false, 0, {}⟩, ⟨.f, [], 0, false, false, 0, {}⟩]
  reds := [⟨.add, 8, 0x120000, 5, 9, false, false, 0, {}⟩, ⟨.add, 8, 0x120008, 5, 9, true, false, 0, {}⟩]
  drains := [⟨[(0x120020, [7])], [(0x120020, [7])], [(2, [1])], none, 3, 4, false, none, 0, {}, false⟩] } })

theorem wit_flight : (∃ c p q rest, flying.ctx 0x1001 = some c ∧ Distinct flying ∧ c.sched.place = .slot ∧
      c.io.posted = p :: q :: rest ∧ p.held = false ∧ p ≠ q ∧ rest = [] ∧ PostedAt flying p 0x123440 [1, 2, 3] ∧ q.kind = .f ∧
      c.oldest p.born ∧ Performs flying c .write 0x123440 0x123440 3) ∧
    (∃ c r q d, flying.ctx 0x1001 = some c ∧ c.io.reds = [r, q] ∧ r.performed = false ∧ r.held = false ∧ r ≠ q ∧
      q.performed = true ∧ c.oldest r.born ∧ Performs flying c .atomic r.ia r.ia 8 ∧ flying.poisoned r.ia 8 = false ∧
      c.io.drains = [d] ∧ d.held = false ∧ d.region = false ∧ d.left = [(0x120020, [7])] ∧ (∀ q ∈ d.cells, Untraced flying (q.1 / 4)) ∧
      c.oldest d.born ∧ Performs flying c .write 0x120020 0x120020 1) ∧ Untraced flying 0 := by
  refine ⟨⟨_, _, _, _, rfl, by simp only [Distinct]; decide +kernel, rfl, rfl, rfl, by decide +kernel, rfl,
    ⟨by decide +kernel, by decide +kernel, Or.inl ⟨rfl, rfl⟩⟩, rfl, by simp only [Context.oldest]; decide +kernel, ?_⟩,
    ⟨_, _, _, _, rfl, rfl, rfl, rfl, by decide +kernel, rfl, by simp only [Context.oldest]; decide +kernel, ?_, rfl, rfl, rfl,
      rfl, rfl, ?_, by simp only [Context.oldest]; decide +kernel, ?_⟩, ?_⟩ <;> simp only [Performs, Plain, Untraced] <;> decide +kernel

/-- A store to a control-block register on its way. -/
theorem wit_register_store : (let s := withCur st (fun c => { c with io := { c.io with
      posted := [⟨.w, [(0x14000000000010, toBytes 8 7)], 0, false, false, 0, {}⟩] } })
    Distinct s ∧ s.whereIs 0x14000000000010 = .control 0 0x010 ∧ ∃ c p, s.ctx 0x1001 = some c ∧ c.io.posted = [p] ∧ p.held = false ∧
      p.kind = .w ∧ p.parts = [(0x14000000000010, toBytes 8 7)] ∧ (toBytes 8 7).length = 8 ∧ c.oldest p.born) := by
  refine ⟨by simp only [Distinct]; decide +kernel, by decide +kernel, ⟨_, _, rfl, rfl, rfl, rfl, rfl, by decide +kernel, ?_⟩⟩
  simp only [Context.oldest]; decide +kernel

/-- A submission that the ferry has not accepted, and a store whose release a line notes. -/
def submitted (p : Posted) : State := { withCur st (fun c => { c with io := { c.io with posted := [p] } }) with
  narrow := [⟨0x123440 / 128, 0x1001, 0, 1, 0⟩]
  ferry := [{
    chain := 0x130000, chainVa := 0x130000, seq := 1, cmdIa := 0x131000, cmdVa := 0x131000, core := 0, uid := 0x1001, token := 0
    mailbox := 0, amap := testRanges, accepted := false, started := false, pos := 0, pace := 0, places := none, plan := none
    early := false, tail := [], note := none, tagv := 0, performed := false, completed := false, wild := false, page := none
    status := 0, errAddr := 0 }] }

theorem wit_submitted : (∃ l1 f l2, (submitted ⟨.f, [], 0, false, false, 0, {}⟩).ferry = l1 ++ f :: l2 ∧
      (∀ g ∈ l1, g.uid = 0x1001 → g.accepted = true) ∧ f.uid = 0x1001 ∧ f.accepted = false) ∧
    (let p : Posted := ⟨.d, [(0x123440, [1, 2, 3])], 0, false, false, 0, {}⟩
     let s := submitted p
     s.cur.io.posted = [p] ∧ s.cur.io.reds = [] ∧ s.cur.io.drains = [] ∧ p.gate.scope = none ∧
      PostedAt s p 0x123440 [1, 2, 3] ∧ Performs s s.cur .write 0x123440 0x123440 3 ∧
      ∃ r, s.narrow = [r] ∧ r.uid = 0x1001 ∧ r.scope ≤ 3) := by
  refine ⟨⟨[], _, [], rfl, by decide, rfl, rfl⟩, rfl, rfl, rfl, rfl, ⟨by decide +kernel, by decide +kernel, Or.inl ⟨rfl, rfl⟩⟩, ?_,
    _, rfl, rfl, by decide⟩
  simp only [Performs, Plain]; decide +kernel

/-- A command of an easel. -/
def command (easel tag uid : Nat) (state : CmdState) : EngineCmd := { report none with
  easel := easel, tag := tag, uid := uid, cells := [1], state := state }

/-- A ring of four slots: the first is READY, the second FILLING; a subscriber has room, and a claim waits. -/
def lined : Ring where
  pbase := 0
  slotBytes := 512
  nslot := 4
  nsub := 1
  fmt := 0
  stringRing := false
  rows := 0
  cols := 0
  stride := 0
  claim := 2
  head := 0
  tail := 0
  slots := [⟨.ready, none⟩, ⟨.filling, none⟩, ⟨.empty, none⟩, ⟨.empty, none⟩]
  subs := [⟨5, 1, none, 1, 0, 0, false, []⟩]
  waiting := [.handle 0x1001 3]

/-- Easels 1 to 3 of cluster 0: one command executes, one waits behind it, one waits on easel 3, for cells or for ring 5. -/
def engines (wait : Wait) (squashes : List Squash) (st3 : CmdState) : State :=
  { withCur st (fun c => { c with sync := { c.sync with wait := wait } }) with
    clusters := [(0, { Cluster.reset with
      cmds := [command 1 7 5 .received, command 2 8 6 .executing, command 2 9 8 .received, command 3 0x160A 0x1001 st3]
      squashes := squashes, rings := [(5, lined)] })] }

theorem wit_easel_steps : (let s := engines (.ring 5 (.claim 3)) [] .executing
    Untraced s 0 ∧
    (s.cluster 0).cmds = [command 1 7 5 .received] ++ command 2 8 6 .executing ::
      ([] ++ command 2 9 8 .received :: [command 3 0x160A 0x1001 .executing]) ∧
    (s.cluster 0).cmds = [command 1 7 5 .received, command 2 8 6 .executing, command 2 9 8 .received] ++
      command 3 0x160A 0x1001 .executing :: [] ∧
    (∃ c, s.ctx 0x1001 = some c ∧ c.sync.wait = .ring 5 (.claim 3) ∧ c.sync.grant = none) ∧
    (∃ r u, s.ring 0 5 = some r ∧ r.subs[0]? = some u ∧ r.subs.length = r.nsub ∧ u.closed = false ∧
      (u.delivered - r.head).toNat < (r.claim - r.head).toNat ∧
      (r.slots[u.delivered.toNat % r.nslot]?).map (fun v => v.st) = some .ready ∧
      (u.delivered - u.popped).toNat < u.window ∧ (r.claim - r.head).toNat < r.nslot ∧
      r.waiting = [.handle 0x1001 3])) := by
  refine ⟨by simp only [Untraced]; decide +kernel, rfl, rfl, ⟨_, rfl, rfl, rfl⟩, ⟨_, _, rfl, rfl, by decide +kernel⟩⟩

/-- A squash of entries of slot 3 of core 1 from 5 on reaches easel 3, whose command waits or executes. -/
theorem wit_squashes (e : CmdState) : (let q : Squash := ⟨0x1001, 3, 1, 3, 5⟩
    let s := engines .cells [q] e
    (s.cluster 0).cmds = [command 1 7 5 .received, command 2 8 6 .executing, command 2 9 8 .received] ++
      command 3 0x160A 0x1001 e :: [] ∧ (s.cluster 0).squashes = [q] ∧ q.hits (command 3 0x160A 0x1001 e) = true ∧
    ∀ x ∈ [command 1 7 5 .received, command 2 8 6 .executing, command 2 9 8 .received], q.hits x = false ∧ x.easel ≠ 3) := by
  refine ⟨rfl, rfl, ?_, by decide +kernel⟩
  cases e <;> decide +kernel

theorem wit_reservation_squash : (let s := engines .cells [] .received
    tabSorted s.clusters = true ∧ (∃ c, s.ctx 0x1001 = some c ∧ c.sync.wait = .cells) ∧
    s.commandsOf 0x1001 = [(0, command 3 0x160A 0x1001 .received)] ∧ (s.cluster 0).squashes = [] ∧ tagAge 0x160A = 5) :=
  ⟨by decide +kernel, ⟨_, rfl, rfl⟩, by decide +kernel, rfl, rfl⟩

/-- A squashed command that its easel executes. -/
theorem wit_discard : (let k := { command 2 8 6 .executing with squashed := true }
    let s : State := { st with clusters := [(0, { Cluster.reset with cmds := [command 1 7 5 .received] ++ k :: [command 3 9 7 .received] })] }
    Untraced s 0 ∧ (s.cluster 0).cmds = [command 1 7 5 .received] ++ k :: [command 3 9 7 .received] ∧ k.squashed = true) :=
  ⟨by simp only [Untraced]; decide +kernel, rfl, rfl⟩

/-- A choice from a list that is not empty gives something, whatever the free value. -/
theorem choose_some (s : State) (l : List Nat) (h : l ≠ []) : ∃ x s1, s.choose l = (some x, s1) := by
  have h1 : 0 < l.length := List.length_pos_iff.mpr h
  have h2 : s.draw.1 % max l.length 1 < l.length := by
    rw [Nat.max_eq_left h1]; exact Nat.mod_lt _ h1
  exact ⟨l[s.draw.1 % max l.length 1], s.draw.2, by simp [State.choose, List.getElem?_eq_getElem h2]⟩

/-- So does a choice of frames. -/
theorem take_frames_some (s : State) (cl x : Nat) (h : s.frameSpaces cl 6 s.framesTaken ≠ [])
    (h2 : ∀ f ∈ s.frameSpaces cl 6 s.framesTaken, s.frameSpaces cl (ceilDiv x 4096) ((f, 6) :: s.framesTaken) ≠ []) :
    ∃ frame ext s1, s.takeFrames cl x = (some (frame, ext), s1) ∧ s1.contexts = s.contexts := by
  obtain ⟨f, s1, e⟩ := choose_some s _ h
  simp only [State.choose, Prod.mk.injEq] at e
  have hf : f ∈ s.frameSpaces cl 6 s.framesTaken := List.mem_of_getElem? e.1
  obtain ⟨g, s2, e2⟩ := choose_some s.draw.2 _ (h2 f hf)
  simp only [State.choose, Prod.mk.injEq] at e2
  refine ⟨f * 4096, g * 4096, s.draw.2.draw.2, ?_, rfl⟩
  simp only [State.takeFrames, e.1]
  have : s.draw.2.frameSpaces cl (ceilDiv x 4096) ((f, 6) :: s.framesTaken) =
      s.frameSpaces cl (ceilDiv x 4096) ((f, 6) :: s.framesTaken) := rfl
  simp only [this, e2.1]

/-- What lies in a lagoon is met where it lies. -/
theorem meet_lagoon (t : State) (ia : Nat) (k : Access) (token : Nat) (hp : t.packages = 1)
    (h : 0x10000000000000 ≤ ia) (h1 : ia < 0x10000004000000) : t.meet ia k token = (.ok ia, t) := by
  have : t.whereIs ia ≠ .pageable := by
    have h2 : ia / 2 ^ 53 = 0 := by omega
    have h3 : ia % 2 ^ 53 = ia := by omega
    simp only [State.whereIs, h2, h3, hp]
    rw [if_neg (by decide), if_neg (by omega), if_pos (by omega)]
    simp
  simp [State.meet, this]

theorem seated_lagoon (s : State) (ia : Nat) (spans : List (Nat × Nat)) (h : s.packages = 1)
    (h1 : 0x10000000000000 ≤ ia ∧ ia < 0x10000004000000) : Seated s ia ia spans :=
  fun t hp _ _ k token _ => meet_lagoon t ia k token (hp.trans h) h1.1 h1.2

/-- Bytes may be written in a lagoon, and nothing but memory changes where no object is watched. -/
theorem put_lagoon (token fuel : Nat) : ∀ (s : State) (ia : Nat) (bs : List Byte), s.packages = 1 → s.objects = [] →
    0x10000000000000 ≤ ia → ia + 4096 * fuel ≤ 0x10000004000000 →
    ∃ m p h k, s.putIa token fuel ia bs = (none, { s with mem := m, poison := p, history := h, broken := k }) := by
  induction fuel with
  | zero => intro s ia bs _ _ _ _; exact ⟨s.mem, s.poison, s.history, s.broken, rfl⟩
  | succ n ih =>
    intro s ia bs hp ho h h1
    by_cases hb : bs.isEmpty = true
    · exact ⟨s.mem, s.poison, s.history, s.broken, by simp only [State.putIa, hb, if_true]⟩
    · have g (k : Nat) : s.clobber ia ia k token = s := by simp only [State.clobber, ho, List.foldl_nil]
      have h2 : 0x10000000000000 ≤ ia + (4096 - ia % 4096) := Nat.le_add_right_of_le h
      have h3 : ia + (4096 - ia % 4096) + 4096 * n ≤ 0x10000004000000 := by clear ih g; omega
      have h4 : ia < 0x10000004000000 := by clear ih g; omega
      obtain ⟨m, p, u, v, e⟩ := ih (s.putBytes ia (bs.take (4096 - ia % 4096))) (ia + (4096 - ia % 4096))
        (bs.drop (4096 - ia % 4096)) hp ho h2 h3
      exact ⟨m, p, u, v, by simp only [State.putIa, hb, meet_lagoon s ia .write token hp h h4, g, e]; rfl⟩

/-- And bytes may be read there, zeros where nothing is listed. -/
theorem get_lagoon (s : State) (token fuel : Nat) (hp : s.packages = 1)
    (hz : ∀ a, 0x10000000000000 ≤ a → cellGet s.mem a = 0) : ∀ ia n : Nat,
    0x10000000000000 ≤ ia → ia + 4096 * fuel ≤ 0x10000004000000 →
    ∃ bs, s.getIa token fuel ia n = (.ok bs, s) ∧ ∀ b ∈ bs, b = 0 := by
  have z (n : Nat) : ∀ a, 0x10000000000000 ≤ a → ∀ b ∈ s.bytesAt a n, b = 0 := by
    induction n with
    | zero => intro a _ b hb; cases hb
    | succ n ih =>
      intro a ha b hb
      rcases List.mem_cons.mp hb with rfl | hb
      · exact hz a ha
      · exact ih (a + 1) (Nat.le_succ_of_le ha) b hb
  induction fuel with
  | zero => intro ia n _ _; exact ⟨[], rfl, by simp⟩
  | succ k ih =>
    intro ia n h h1
    by_cases hn : n = 0
    · exact ⟨[], by simp only [State.getIa, hn, if_true], by simp⟩
    · have h2 : 0x10000000000000 ≤ ia + min n (4096 - ia % 4096) := Nat.le_add_right_of_le h
      have h3 : ia + min n (4096 - ia % 4096) + 4096 * k ≤ 0x10000004000000 := by clear ih z; omega
      have h4 : ia < 0x10000004000000 := by clear ih z; omega
      obtain ⟨bs, e, hb⟩ := ih (ia + min n (4096 - ia % 4096)) (n - min n (4096 - ia % 4096)) h2 h3
      refine ⟨s.bytesAt ia (min n (4096 - ia % 4096)) ++ bs, ?_, fun b hm => ?_⟩
      · simp only [State.getIa, hn, if_false, meet_lagoon s ia .read token hp h h4, e]
      · exact (List.mem_append.mp hm).elim (z _ ia h b) (hb b)

/-- A frame in a lagoon can be written, and nothing but memory changes. -/
theorem frame_lagoon (s : State) (c : Context) (live : LiveMap) (hp : s.packages = 1) (ho : s.objects = [])
    (ht : c.job.tcells = 0) (hr : c.sync.region = none) (h : 0x10000000000000 ≤ c.frameIa)
    (h1 : c.frameIa + 4096 * 8 ≤ 0x10000004000000) :
    ∃ m p u v, s.saveFrame c false live = (none, { s with mem := m, poison := p, history := u, broken := v }) := by
  obtain ⟨m, p, u, v, e⟩ := put_lagoon c.token 8 s c.frameIa
    (frameBytes s { c with reg := { c.reg with gzstat := s.gzstat c } } false live) hp ho h h1
  refine ⟨m, p, u, v, ?_⟩
  simp only [State.saveFrame, State.writeFrame, ht, hr, tileRoom, if_true]
  exact (congrArg (fun r => thenPut r _) e).trans rfl

theorem zeros_count (bs : List Byte) (h : ∀ b ∈ bs, b = 0) : fromBytes bs = 0 := by
  induction bs with
  | nil => rfl
  | cons b bs ih =>
    rw [h b (by simp)]
    simp [fromBytes, ih (fun c hc => h c (by simp [hc]))]

/-- And read: one of zeros holds no lease. -/
theorem read_frame_lagoon (s : State) (c : Context) (hp : s.packages = 1) (ht : c.job.tcells = 0)
    (hz : ∀ a, 0x10000000000000 ≤ a → cellGet s.mem a = 0)
    (h : 0x10000000000000 ≤ c.frameIa) (h1 : c.frameIa + 4096 * 8 ≤ 0x10000004000000) :
    ∃ c1, s.readFrame c = (.ok c1, s) ∧ c1.power.lease = none := by
  obtain ⟨bs, e, hb⟩ := get_lagoon s c.token 8 hp hz c.frameIa 0x6000 h h1
  refine ⟨c.readBack bs [], ?_, ?_⟩
  · simp only [State.readFrame, e, ht, tileRoom, if_true]
    rfl
  · have : fromBytes ((bs.drop 0x52).take 1) = 0 :=
      zeros_count _ (fun b hm => hb b (List.mem_of_mem_drop (List.mem_of_mem_take hm)))
    simp only [Context.readBack, this, if_true]

theorem unlisted_lagoon (m : List Host.Cell) (h : ∀ p ∈ m, p.1 < 0x10000000000000) (a : Nat) (ha : 0x10000000000000 ≤ a) :
    cellGet m a = 0 := by
  induction m with
  | nil => rfl
  | cons p m ih =>
    have h1 := h p (by simp)
    have h2 : a ≠ p.1 := by omega
    simp only [cellGet, tabGet] at ih ⊢
    split
    · rename_i h3; exact absurd (h3) h2
    · exact ih (fun q hq => h q (by simp [hq]))

/-- A place in the lagoon of die 0. -/
def lagoon : Nat := 0x10000000001000

/-- A launch whose next task may be dispatched in cluster 0. -/
def launch : Launch where
  num := 1
  lobj := 0x160000
  lobjIa := lagoon
  chain := []
  prev := none
  queue := 0
  overlap := false
  coresident := false
  stage := false
  cls := 0
  dimx := 3
  dimy := 2
  dimz := 1
  arg := 0xA
  record := 0xB
  entry := 0xC0
  segMode := false
  segs := Regs.reset.sg
  demands := ⟨0, 0, 0, 0, 0, 0, 0, 0, 0, 0, 0⟩
  pkgmask := 0
  diemask := 0
  qin := 0
  qout := 0
  slotmin := 0
  slotmax := 3
  next := 4
  dropped := 0
  places := []
  used := [0, 4, 8, 12]
  set := none
  tcmKept := []
  palKept := []
  stalled := false
  finished := false

/-- The launch and its object, once where no core takes a task of it: its class is shed. -/
def launched (cls : Nat) : State := { withMem (withMem st lagoon (toBytes 4 6)) (lagoon + 8) [1] with
  launches := [{ launch with cls := cls }]
  ctl := [(0, 0x4001), (0x540, 0x400000), (0x548, 12), (0x758, 0x0000000800000000)] }

/-- What the dispatch of a task without cells takes is there, whatever the free choices are. -/
theorem vacant_some (s : State) (l : Launch) (core : Nat) (ht : l.demands.tcells = 0) (hg : l.demands.group = 0)
    (h : s.frameSpaces (core / 4) 6 s.framesTaken ≠ [])
    (h2 : ∀ f ∈ s.frameSpaces (core / 4) 6 s.framesTaken,
      s.frameSpaces (core / 4) (ceilDiv (extensionBytes 0 0) 4096) ((f, 6) :: s.framesTaken) ≠ [])
    (h3 : s.freeSlots core ≠ []) (h4 : s.freeCids core ≠ []) :
    ∃ slot cid frame ext s1, Vacant s l core slot cid frame ext s1 := by
  obtain ⟨frame, ext, s2, e, hc⟩ := take_frames_some s (core / 4) (extensionBytes 0 0) h h2
  have f : s2.freeSlots core = s.freeSlots core := by simp only [State.freeSlots, State.inSlot, hc]
  obtain ⟨slot, s3, e3⟩ := choose_some s2 (s2.freeSlots core) (f ▸ h3)
  have g : s3.freeCids core = s.freeCids core := by
    have : s3 = s2.draw.2 := by simp only [State.choose, Prod.mk.injEq] at e3; exact e3.2.symm
    rw [this]
    show s2.freeCids core = _
    simp only [State.freeCids, hc]
  obtain ⟨cid, s4, e4⟩ := choose_some s3 (s3.freeCids core) (g ▸ h4)
  exact ⟨slot, cid, frame, ext, s4, s2, s3, ht, by rw [ht, hg]; exact e, e3, e4⟩

theorem wit_dispatches : (launched 0).launchOf lagoon = some launch ∧ (launched 0).launch 1 = some launch ∧
    (launched 0).permitted launch = true ∧ (launched 0).missing launch = none ∧
    (∀ ia ∈ lagoon :: [], (launched 0).objBusy ia = false) ∧ Seated (launched 0) lagoon lagoon [(lagoon, 64)] ∧
    (let s0 := (launched 0).openLaunch launch
     s0.mayDispatch launch = true ∧ ∃ core set, s0.target launch = some ([core], set) ∧ s0.fitsNow launch [core] = true ∧
      s0.outranked launch [core] none = false ∧
      ∃ slot cid frame ext s1, Vacant s0 launch core slot cid frame ext s1) := by
  refine ⟨by decide +kernel, by decide +kernel, by decide +kernel, by decide +kernel, by decide +kernel,
    seated_lagoon _ _ _ rfl (by decide), by decide +kernel, 16, some ⟨1, 1, false⟩, by decide +kernel, by decide +kernel, by decide +kernel,
    vacant_some _ _ _ rfl rfl (by decide +kernel) (by decide +kernel) (by decide +kernel) (by decide +kernel)⟩

theorem wit_dispatch_opens : (let s := launched 3
    let l := { launch with cls := 3 }
    s.launchOf lagoon = some l ∧ s.launch 1 = some l ∧ s.permitted l = true ∧ s.missing l = none ∧
    s.numAt (lagoon + 0x0A) 1 = 0 ∧ (s.openLaunch l).target l = none) := by
  decide +kernel

/-- Context 0x1001 at the GZEND x4 of its region, which holds a write; context 0x1003 in its frame with a region. -/
def glazing : State :=
  let gz : Nat := ((encode (.gzend 4)).head?).getD 0
  let away := { glazed.cur with
    id := { glazed.cur.id with uid := 0x1003 }, sched := { glazed.cur.sched with place := .frame .preempted } }
  { withCur glazed (fun c => { c with
    bits := BitVec.ofNat 64 gz
    sync := { c.sync with region := c.sync.region.map (fun r => { r with
      log := [.write 0x120000 0x120000 [9]], ending := true }) } }) with
    others := [super 0, away, { user 0x1004 0 3 with sync := { away.sync with wait := .edge } }] }

theorem wit_commits : Distinct glazing ∧ (∃ c r, glazing.ctx 0x1001 = some c ∧ c.sync.region = some r ∧
    c.sched.place = .slot ∧ c.sched.parked = false ∧ c.sched.ending = none ∧
    decodeParcels (c.bits.toNat % 2 ^ 32) (c.bits.toNat / 2 ^ 32) = .ok (.gzend 4) ∧ r.ending = true ∧ r.edges = [] ∧
    r.log = [.write 0x120000 0x120000 [9]] ∧ c.io.late = [] ∧ r.postf = false) ∧ glazing.objects = [] ∧
    (∃ c r, glazing.ctx 0x1003 = some c ∧ c.sync.region = some r ∧ c.sched.place = .frame .preempted ∧
      glazing.elapsed c.sched.savedAt ≤ 100000) ∧
    (∃ c r, glazing.ctx 0x1004 = some c ∧ c.sync.region = some r ∧ r.ending = false ∧ c.sync.wait = .edge) := by
  refine ⟨by simp only [Distinct]; decide +kernel, ⟨_, _, rfl, rfl, rfl, rfl, rfl, by decide +kernel, rfl, rfl, rfl, rfl, rfl⟩, rfl,
    ⟨_, _, rfl, rfl, rfl, by decide +kernel⟩, ⟨_, _, rfl, rfl, rfl, rfl⟩⟩

theorem wit_preempts (h : 100000 < Config.nanos 0) : 100000 < (later glazing).elapsed 0 := by
  rw [elapsed_later]; exact h

/-- A barrier for which context 0x1002 waits. -/
def invalid : State := { sync with
  objects := [(0x130040, 0x130040, .barrier)]
  others := [super 0, { user 0x1002 0 1 with sync := { (user 0x1002 0 1).sync with wait := .barrier 0x130040 } }] }

theorem wit_invalidations : invalid.whereIs 0x130FFF = .pageable ∧ (∀ c ∈ invalid.contexts, c.sync.region = none) ∧
    0x130FFF / 2 ^ 15 * 2 ^ 15 ≤ 0x130040 ∧ 0x130040 < 0x130FFF / 2 ^ 15 * 2 ^ 15 + 2 ^ 15 ∧
    invalid.numAt 0x13004C 1 = 1 ∧ invalid.numAt 0x130040 4 ≠ 0 := by decide +kernel

theorem wit_deliveries : (∃ c, st.ctx 0x1001 = some c ∧ c.id.sup = false ∧ c.sched.place = .slot ∧
    c.sched.parked = false ∧ c.sched.stopped = false ∧ c.sched.ending = none ∧ c.sync.region = none ∧
    (st.core c.id.core).dead = false ∧ c.reg.edepth = 0) ∧ Unengaged st 0x1001 :=
  ⟨⟨_, rfl, rfl, rfl, rfl, rfl, rfl, rfl, rfl, rfl⟩, rfl, by decide +kernel⟩

/-- A context whose frame, in a lagoon, can be written, for a SPILL that waits for its safe point. -/
def framed : State := withCur st (fun c => { c with
  reg := { c.reg with spillbase := 0x10000000100000 }
  sched := { c.sched with xbase := 0x10000000200000, xsize := 20480, toSafe := some 0 } })

theorem savable_of (s : State) (uid : Nat) (c : Context) (why : Saved) (h : s.ctx uid = some c) (hs : c.sched.place = .slot)
    (hu : Unengaged s uid) (hn : s.net = []) (hp : s.packages = 1) (ho : s.objects = []) (ht : c.job.tcells = 0)
    (hr : c.sync.region = none) (h0 : 0x10000000000000 ≤ c.frameIa) (h1 : c.frameIa + 4096 * 8 ≤ 0x10000004000000) :
    ∃ s1, Savable s uid c why s1 := by
  obtain ⟨m, p, u, v, e⟩ := frame_lagoon (if c.sync.wait.evictable then s
    else s.setCore c.id.core { s.core c.id.core with readyAt := s.now }) (c.saved why s.now) LiveMap.all
    (by split <;> exact hp) (by split <;> exact ho) ht hr h0 h1
  exact ⟨_, h, hs, hu, hn, e⟩

theorem wit_savable (why : Saved) : ∃ s1, Savable framed 0x1001 framed.cur why s1 :=
  savable_of _ _ _ _ rfl rfl ⟨rfl, by decide +kernel⟩ rfl rfl rfl rfl rfl (by decide +kernel) (by decide +kernel)

theorem wit_safe_spill (h : 1000000 ≤ Config.nanos 0) : framed.cur.sched.toSafe = some 0 ∧
    1000000 ≤ (later framed).elapsed 0 ∧ framed.elapsed 0 < 1000000 := by
  refine ⟨rfl, ?_, by decide +kernel⟩
  rw [elapsed_later]; exact h

/-- CWAIT x1, x2, x3 and MRECV x1, x2, x3 wait, with a limit of x3 or with none. -/
def limited (i : Instr) (wait : Wait) (limit : Word) : State := withCur (withX st 3 limit) (fun c => { c with
  bits := BitVec.ofNat 64 (((encode i).head?).getD 0), sync := { c.sync with wait := wait } })

theorem wit_deadlines : (let s := limited (.cwait 1 2 3) (.object 0x130000) 9
    decodeParcels (s.cur.bits.toNat % 2 ^ 32) (s.cur.bits.toNat / 2 ^ 32) = .ok (.cwait 1 2 3) ∧
    s.cur.sync.wait = .object 0x130000 ∧ s.cur.sync.grant = none ∧ s.tstamp < (9 : Word).toNat) ∧
    (let s := limited (.mrecv 1 2 3) .message 0
    decodeParcels (s.cur.bits.toNat % 2 ^ 32) (s.cur.bits.toNat / 2 ^ 32) = .ok (.mrecv 1 2 3) ∧
    s.cur.sync.wait = .message ∧ s.cur.mail.inbox = [] ∧ s.cur.mail.frame = []) := by decide +kernel

/-- The object that a CWAIT waits for is OPEN, or nothing. -/
theorem wit_unfinished : Unfinished (withMem (limited (.cwait 1 2 3) (.object 0x130000) 9) 0x130008 [1]) 0x130000 ∧
    ¬Unfinished (limited (.cwait 1 2 3) (.object 0x130000) 9) 0x130000 := by
  constructor
  · intro loc h
    rw [show ((withMem (limited (.cwait 1 2 3) (.object 0x130000) 9) 0x130008 [1]).objLoc 0x130000).1 = some 0x130000 by
      decide +kernel] at h
    cases h
    left; decide +kernel
  · intro h
    have := h 0x130000 (by decide +kernel)
    revert this
    decide +kernel

theorem wit_deadlines_passed (h : 1 ≤ Config.nanos 0) :
    (1 : Word).toNat ≤ (later (limited (.cwait 1 2 3) (.object 0x130000) 1)).tstamp := by
  show 1 ≤ 0 + Config.nanos 0
  omega

theorem wit_restarts : (({ st with cores := [(0, { CoreSt.reset with dead := true })] } : State).core 0).dead = true := rfl

/-- A code object of 320 bytes with one note, one section, one task and no bindings, in ADDRESS mode, in a lagoon. -/
def code : State :=
  let at_ (k : Nat) := lagoon + k
  { withMem (withMem (withMem (withMem st (at_ 0)
    (toBytes 4 0x4B4F4C46 ++ toBytes 2 1 ++ toBytes 2 128 ++ toBytes 2 0x100 ++ [1, 0] ++ toBytes 4 0x140 ++ toBytes 4 0x80 ++
      toBytes 2 1 ++ toBytes 2 0 ++ toBytes 4 0 ++ toBytes 4 0x90 ++ toBytes 2 1 ++ toBytes 2 1 ++ toBytes 4 0xA0))
    (at_ 0x50) (toBytes 4 1 ++ toBytes 4 0 ++ toBytes 2 1)) (at_ 0x80) (toBytes 2 0x100))
    (at_ 0x90) (toBytes 4 1 ++ toBytes 4 0x100 ++ toBytes 4 0x40 ++ toBytes 4 0 ++ toBytes 4 0x100) with
    caps := [(0, [⟨0x100, 1, 0⟩])] }

theorem wit_judgements : (match code.putIa 0 2 (lagoon + 0x60) [0, 0, 0, 0] with
    | (none, s1) => (match loadObj lagoon s1 with
      | .ok o s2 => (match s2.judge o 4 with
        | .ok n => decide (n = 4) && (match markJudged lagoon n o s2 with
          | .ok _ _ => true
          | .error _ _ => false)
        | .error _ => false)
      | .error _ _ => false)
    | (some _, _) => false) = true ∧ code.objects = [] ∧ (∀ k, k < 4 → code.whereIs (lagoon + 0x60 + k) ≠ .pageable) ∧
    (match st.putIa 0 2 0x120060 [0, 0, 0, 0] with
    | (none, s1) => (match s1.getIa 0 2 0x120000 128, loadObj 0x120000 s1 with
      | (.ok head, _), .ok o s2 => decide (numIn head 0 4 ≠ 0x4B4F4C46) && (match s2.judge o 4 with
        | .ok _ => false
        | .error w => decide (w = 0x20))
      | _, _ => false)
    | (some _, _) => false) = true := by decide +kernel

/-- A launch that has ended some of its 6 tasks at a node, its object OPEN. -/
def tree (node ended : Nat) : State := { withMem (withMem st lagoon (toBytes 4 6)) (lagoon + 8) [1] with
  launches := [launch], nodes := [⟨1, node, ended, 0x20005⟩] }

theorem wit_tree_forwards (node ended : Nat) : (tree node ended).launch 1 = some launch ∧
    (∀ k ∈ (tree node ended).launches, k.lobjIa = lagoon → k.num = 1) ∧ launch.chain = [] ∧
    (tree node ended).nodes = [] ++ ⟨1, node, ended, 0x20005⟩ :: [] ∧ (tree node ended).objBusy lagoon = false ∧
    Seated (tree node ended) lagoon lagoon [(lagoon, 64)] ∧ (tree node ended).numAt lagoon 4 = 6 ∧
    (tree node ended).numAt (lagoon + 8) 1 = 1 := by
  refine ⟨rfl, fun k hk _ => ?_, rfl, rfl, ?_, seated_lagoon _ _ _ rfl (by decide), ?_, ?_⟩
  · simp only [tree, List.mem_singleton] at hk; rw [hk]; rfl
  · show (tree 0 0).objBusy lagoon = false; decide +kernel
  · show fromBytes (cellsGet (tree 0 0).mem lagoon 4) = 6; decide +kernel
  · show fromBytes (cellsGet (tree 0 0).mem (lagoon + 8) 1) = 1; decide +kernel

/-- Two stages of a graph: the first runs short, the second may be evicted from, its one task having a frame at an IA, at
which there is no page, so that the task ends. -/
def stages (next slotmax frame : Nat) : State := { withMem st (lagoon + 8) [1] with
  launches := [{ launch with stage := true, chain := [lagoon + 64], next := next, slotmax := slotmax },
    { launch with num := 2, stage := true, chain := [lagoon + 64], qin := 0x170000, lobjIa := lagoon + 128 }]
  ctl := [(0, 0x4001), (0x540, 0x400000), (0x548, 12), (0x500, 0x400000), (0x508, 12)]
  cur := { framed.cur with
    job := { st.cur.job with launch := 2 }, reg := { framed.cur.reg with spillbase := BitVec.ofNat 64 frame } } }

theorem wit_rebalances : (let s := stages 4 3 0x12345600000
    (s.evictOne 2).map (fun d => d.id.uid) = some 0x1001 ∧ (s.residents 1).length < 3 ∧ 0 < (s.residents 2).length ∧
    s.numAt 0x170010 4 = s.numAt 0x170014 4) ∧ (∀ l ∈ st.launches, l.chain.head? = some 0x99 → l.stage = false) ∧
    ({ st with launches := (stages 4 3 0).launches } : State).evictOne 2 = none := by decide +kernel

theorem frames_for (s : State) (l : Launch) (core : Nat) (h : s.frameSpaces (core / 4) 6 s.framesTaken ≠ [])
    (h2 : ∀ f ∈ s.frameSpaces (core / 4) 6 s.framesTaken, s.frameSpaces (core / 4)
      (ceilDiv (extensionBytes l.demands.tcells l.demands.group) 4096) ((f, 6) :: s.framesTaken) ≠ []) :
    s.framesFor l core = true := by
  obtain ⟨_, _, _, e, _⟩ := take_frames_some s (core / 4) _ h h2
  simp only [State.framesFor, clusterOf, e, Option.isSome_some]

/-- The first stage, and the machine once the task of the second has left. -/
def hot : Launch := { launch with stage := true, chain := [lagoon + 64] }

def made : State := ((stages 4 3 0x12345600000).saveContext 0x1001 .evicted none).event 0 26

theorem wit_rebalances_dispatch : (stages 4 3 0x12345600000).launches.head? = some hot ∧
    (∀ c ∈ made.contexts, c.job.launch = 1 → made.wakes c = false) ∧ made.mayDispatch hot = true ∧ made.launch 1 = some hot ∧
    made.missing hot = none ∧ hot.together = 1 ∧ made.couldTake hot 0 = true ∧ made.fitsNow hot [0] = true ∧
    made.outranked hot [0] (some 0x1001) = false ∧ ∃ slot cid frame ext s2, Vacant made hot 0 slot cid frame ext s2 := by
  refine ⟨rfl, by decide +kernel, by decide +kernel, by decide +kernel, by decide +kernel, by decide +kernel, ?_,
    by decide +kernel, by decide +kernel, vacant_some _ _ _ rfl rfl (by decide +kernel) (by decide +kernel) (by decide +kernel)
      (by decide +kernel)⟩
  unfold State.couldTake
  rw [frames_for made hot 0 (by decide +kernel) (by decide +kernel)]
  decide +kernel

theorem wit_rebalances_full : (let s := stages 6 3 0x12345600000
    let s1 := (s.saveContext 0x1001 .evicted none).event 0 26
    (∀ c ∈ s1.contexts, c.job.launch = 1 → s1.wakes c = false) ∧
    s1.mayDispatch { launch with stage := true, chain := [lagoon + 64], next := 6 } = false) := by decide +kernel

/-- A launch beneath a cancelled object, both in a lagoon, all of whose tasks have been dispatched. -/
def cancelled : State := { withMem (tree 0 0) (lagoon + 72) [3] with
  launches := [{ launch with chain := [lagoon + 64], next := 6 }]
  cur := { st.cur with job := { st.cur.job with launch := 1 } } }

theorem wit_cancel_marks : cancelled.launches = [{ launch with chain := [lagoon + 64], next := 6 }] ∧
    cancelled.attached = [] ∧ cancelled.objBusy lagoon = false ∧ cancelled.numAt (lagoon + 64 + 8) 1 = 3 ∧
    lagoon ≠ lagoon + 64 ∧ 6 = launch.total ∧ Apart lagoon 64 (lagoon + 64) 64 ∧
    Seated cancelled lagoon lagoon [(lagoon, 64), (lagoon + 64, 64)] ∧
    Seated cancelled (lagoon + 64) (lagoon + 64) [(lagoon, 64), (lagoon + 64, 64)] ∧
    cancelled.numAt (lagoon + 8) 1 = 1 ∧ Distinct cancelled ∧
    (∀ c ∈ cancelled.contexts, c.live = true → c.id.sup = false → c.job.launch = 1 → c.sched.place = .slot ∧
      c.sched.ending = none) := by
  refine ⟨rfl, rfl, by decide +kernel, by decide +kernel, by decide, rfl, by simp [Apart], seated_lagoon _ _ _ rfl (by decide),
    seated_lagoon _ _ _ rfl (by decide), by decide +kernel, by simp only [Distinct]; decide +kernel, by decide +kernel⟩

theorem wit_ends_at_once : (∃ l, EndsAtOnce cancelled 0x1001 cancelled.cur l) ∧ Still cancelled ∧
    ({ cancelled.cur with sched := { cancelled.cur.sched with cancelled := true } } : Context).sched.cancelled = true := by
  refine ⟨⟨_, ?_, rfl, rfl, rfl, rfl, rfl, rfl, rfl, by decide +kernel, rfl, rfl, rfl, rfl, rfl, rfl, by decide +kernel,
    by decide +kernel, rfl⟩, by simp only [Still]; decide +kernel, rfl⟩
  simp only [Distinct]; decide +kernel

/-- A task blocked at a barrier in the last free slot of its core, where a task of another launch could run. -/
def blocked : State := { withCur framed (fun c => { c with sync := { c.sync with wait := .barrier 0x130040 } }) with
  others := super 0 :: (List.range 6).map (fun k => user (0x2000 + k) 0 (k + 1))
  launches := [launch]
  ctl := [(0, 0x4001), (0x500, 0x400000), (0x508, 60)] }

/-- The machine without it. -/
def freed : State :=
  blocked.mapCtx 0x1001 (fun c => { c.bare with sched := { c.sched with place := .frame .evicted } })

theorem wit_wanted : blocked.wanted blocked.cur = true := by
  have a : freed.couldTake launch 0 = true := by
    unfold State.couldTake
    rw [frames_for freed launch 0 (by decide +kernel) (by decide +kernel)]
    decide +kernel
  have b : blocked.couldTake launch 0 = false := by
    unfold State.couldTake
    rw [frames_for blocked launch 0 (by decide +kernel) (by decide +kernel)]
    decide +kernel
  unfold State.wanted
  rw [Bool.or_eq_true, Bool.or_eq_true, List.any_eq_true]
  refine Or.inl (Or.inl ⟨launch, List.mem_singleton_self _, ?_⟩)
  rw [List.any_eq_true]
  refine ⟨0, by decide, ?_⟩
  show (freed.couldTake launch 0 && !blocked.couldTake launch 0) = true
  rw [a, b]
  rfl

theorem wit_evictions : blocked.cur.job.coresident = false ∧
    blocked.elapsed blocked.cur.sync.since ≤ 20000 ∧ blocked.cur.sched.ending = none ∧ blocked.launch blocked.cur.job.launch = none ∧
    blocked.cur.sync.grant = none ∧ blocked.cur.sched.parked = false ∧ blocked.ctx 0x1001 = some blocked.cur ∧
    blocked.cur.id.sup = false := by decide +kernel

theorem wit_evictions_due (h : 20000 < Config.nanos 0) : 20000 < (later blocked).elapsed 0 := by
  rw [elapsed_later]; exact h

/-- A task in its frame, once with a class that is shed. -/
def away (cls : Nat) : State := { withCur framed (fun c => { c with
    job := { c.job with launch := 1 }
    reg := { c.reg with cls := cls }, sched := { c.sched with place := .frame .preempted } }) with
  ctl := [(0, 0x4001), (0x758, 0x0000000800000000)], launches := [launch] }

theorem wit_restores : Distinct (away 0) ∧ (away 0).wakes (away 0).cur = true ∧ (away 3).wakes (away 3).cur = true ∧
    (away 3).classShed 0 3 = true ∧ (away 0).classShed 0 0 = false ∧ (away 0).cur.job.easel = none ∧
    (away 0).cur.sync.region = none ∧ (away 0).cur.mail.frame = [] ∧
    (∃ core, (away 0).restoreCore (away 0).cur = some core ∧ (away 0).yields (away 0).cur core = false ∧
      ∃ slot s1, (away 0).choose ((away 0).freeSlots core) = (some slot, s1) ∧
        ∃ c1 s2, s1.readFrame (away 0).cur = (.ok c1, s2) ∧ c1.power.lease = none) := by
  refine ⟨by simp only [Distinct]; decide +kernel, by decide +kernel, by decide +kernel, by decide +kernel,
    by decide +kernel, rfl, rfl, rfl, 0, by decide +kernel, by decide +kernel, ?_⟩
  obtain ⟨slot, s1, e⟩ := choose_some (away 0) ((away 0).freeSlots 0) (by decide +kernel)
  have hs : s1 = (away 0).draw.2 := by simp only [State.choose, Prod.mk.injEq] at e; exact e.2.symm
  refine ⟨slot, s1, e, ?_⟩
  obtain ⟨c1, e1, h1⟩ := read_frame_lagoon s1 (away 0).cur (by rw [hs]; rfl) rfl
    (fun a ha => by rw [hs]; exact unlisted_lagoon (away 0).draw.2.mem (by decide +kernel) a ha) (by decide +kernel) (by decide +kernel)
  exact ⟨c1, s1, e1, h1⟩

/-- A saved task whose page has failed, of a class that is shed. -/
theorem wit_failed_shed : (let s := withCur (away 3) (fun c => { c with sched := { c.sched with place := .frame (.failed 5) } })
    s.wakes s.cur = true ∧ s.classShed (pkgOf s.cur.id.core) s.cur.reg.cls = true ∧ s.ctx 0x1001 = some s.cur) :=
  ⟨by decide +kernel, by decide +kernel, rfl⟩
/-- A message in the network, its answer awaited or not, one to a ring in the lagoon of die 0, one to nobody; the host ranges
map memory and the messages of the host have room. -/
def sent (dest : Word) (awaited : Bool := true) : State := { mail with
  net := [⟨0x1003, dest, ⟨BitVec.ofNat 64 (2 ^ 56 + 2 ^ 49), [3, 4]⟩, awaited⟩]
  mem := cellsSet (cellsSet mail.mem 0x10000000000100 (toBytes 4 64)) 0x10000000000108 (toBytes 8 0x10000000000140)
  bar4 := [(0, BitVec.ofNat 64 0x1F), (8, BitVec.ofNat 64 (32 * 2 ^ 23))]
  cores := [(0, { CoreSt.reset with stage := [1, 2, 3, 4, 5, 6, 7], spawns := [⟨7, [0x81, 0]⟩] }),
    (1, { CoreSt.reset with spawns := [⟨7, [0x140000, 0x170000]⟩] })] }

/-- The message ring in the lagoon of die 0, its WR somewhere: the message to it is not awaited. -/
def ringing (wr : Nat) : State := withMem (withMem (sent (BitVec.ofNat 64 (2 ^ 37 + 0x100)) false) 0x10000000000110 (toBytes 4 wr))
  0x10000000000114 (toBytes 4 wr)

theorem wit_mailboxes : Distinct (sent 1) ∧ (∃ c, Accepts (sent 1) 1 c) ∧
    (BitVec.ofNat 64 (2 ^ 56 + 2 ^ 49)).toNat / 2 ^ 56 = 1 ∧
    (sent 1).mailbox (destCore 9) ((9 : Word).toNat % 2 ^ 6) = none := by
  refine ⟨by simp only [Distinct]; decide +kernel,
    ⟨{ user 0x1002 0 1 with id := { (user 0x1002 0 1).id with cid := 1 } }, ?_⟩, by decide +kernel, by decide +kernel⟩
  simp only [Accepts]; decide +kernel

theorem wit_message_rings (wr : Nat) (h : wr = 0 ∨ wr = 56) : (let s := ringing wr
    let ia := s.gwIa 0 0x100
    ia = 0x10000000000100 ∧ 0x100 < s.gwLength 0 ∧ s.msgRingOk ia = true ∧ s.numAt ia 4 = 64 ∧
    s.numAt (ia + 0x10) 4 = wr ∧ (wr + 2 ^ 32 - s.numAt (ia + 0x14) 4) % 2 ^ 32 + 24 ≤ 64 ∧ (wr = 0 → 24 ≤ 64 - wr % 64) ∧
    (wr = 56 → 64 - wr % 64 < 24) ∧ s.objects = [] ∧ Unnoted s ia 64 ∧ s.readOnly (ia + 0x10) 4 = false ∧
    s.readOnly (s.numAt (ia + 8) 8) 64 = false) := by
  rcases h with rfl | rfl <;> (simp only [Unnoted]; decide +kernel)

/-- The host port of package 0 is released. -/
def released (s : State) : State := { s with atelier := [(0, { Atelier.reset with booted := true })] }

/-- The context with address 1 is saved, its mailbox full. -/
def fullBox : State := { sent 1 with
  atelier := [(0, { Atelier.reset with booted := true })]
  others := (sent 1).others.map (fun c => if c.id.cid = 1 then { c with
    sched := { c.sched with place := .frame .preempted }
    mail := { c.mail with frame := List.replicate 32 ⟨0, []⟩ } } else c) 
  net := [] }

theorem wit_host_posts : Distinct (sent 1) ∧ 0 < (sent 1).sharedFree 0 ∧ ((released (sent 1)).atel 0).booted = true ∧
    (∃ c, (sent 1).mailbox 0 1 = some c ∧ (sent 1).ctx c.id.uid = some c ∧ c.sched.place = .slot ∧ c.mail.frame = [] ∧
      c.mail.inbox.length < 3) ∧
    ((BitVec.ofNat 64 (3 * 2 ^ 56 + 2 ^ 49)).toNat / 2 ^ 56 = 3) ∧ ((5 : Word).toNat / 2 ^ 56 ≠ 1) ∧
    Distinct fullBox ∧ 0 < fullBox.sharedFree 0 ∧ (fullBox.atel 0).booted = true ∧
    (∃ c, fullBox.mailbox 0 1 = some c ∧ fullBox.ctx c.id.uid = some c ∧ c.sched.place = .frame .preempted ∧
      32 ≤ c.mail.frame.length) := by
  refine ⟨by simp only [Distinct]; decide +kernel, by decide +kernel, rfl, ⟨_, rfl, rfl, rfl, rfl, by decide +kernel⟩, by decide +kernel,
    by decide +kernel, by simp only [Distinct]; decide +kernel, by decide +kernel, rfl, ⟨_, rfl, rfl, rfl, by decide +kernel⟩⟩

/-- A SPAWN message whose record is misaligned and asks for no reply, and one that is accepted and answered. -/
def asked : State := { spawnState with
  cores := [(0, { CoreSt.reset with spawns := [⟨7, [0x81, 0]⟩] }), (1, { CoreSt.reset with spawns := [⟨7, [0x140000, 0x170000]⟩] })]
  others := [super 0, super 1] }

theorem wit_spawn_messages : (asked.core 0).spawns = [⟨7, [0x81, 0]⟩] ∧ (asked.core 0).spawnWait = none ∧
    (asked.core 0).spawnDone = none ∧ asked.net = [] ∧ (0x81 : Word).toNat % 64 ≠ 0 ∧
    (∀ c ∈ asked.contexts, c.sched.place = .slot → c.mail.frame = []) ∧
    (match asked.agentRun 1 (spawnAt 0x140000) with
      | (.ok st, s1) => decide (st = 0 ∧ s1.core 1 = asked.core 1 ∧ s1.net = []) &&
        (match (s1.setCore 1 { asked.core 1 with spawnDone := some st }).agentRun 1 (replyOp 0x170000 st) with
          | (.ok _, s3) => decide (s3.core 1 = { asked.core 1 with spawnDone := some st } ∧ s3.net = [] ∧
              ∀ c ∈ s3.contexts, c.sched.place = .slot → c.mail.frame = [])
          | _ => false)
      | _ => false) = true := by decide +kernel

/-- A misaligned record with a reply address: the agent's status word reaches memory. -/
theorem wit_spawn_replies : (let k : CoreSt := { CoreSt.reset with spawns := [⟨7, [0x81, 0x170000]⟩] }
    let s := asked.setCore 1 k
    let agent : State := { s with cur := s.agentOf 1, others := s.cur :: s.others }
    (match (s.setCore 1 { k with spawnDone := some 4 }).agentRun 1 (replyOp 0x170000 4) with
      | (.ok _, s3) => decide (s3.core 1 = { k with spawnDone := some 4 } ∧ s3.net = [] ∧
          ∀ c ∈ s3.contexts, c.sched.place = .slot → c.mail.frame = [])
      | _ => false) = true ∧
    Reaches agent .write 0x170000 0x170000 0x170000 ∧ Plain agent 0x170000 8 ∧ s.narrow = []) := by
  simp only [Reaches, Plain]; decide +kernel

theorem wit_host_window : rangeMap .write 0x120001 ((sent 1).hmap 0) = .ok 0x120001 ∧
    rangeMap .read 0x120001 ((sent 1).hmap 0) = .ok 0x120001 ∧ HostPlace (sent 1) 0x120001 ∧ 0x120001 % 32 + 4 ≤ 32 ∧
    (∀ c ∈ (sent 1).contexts, c.id.uid ≠ 2 ^ 65) ∧ Plain (sent 1) 0x120001 4 ∧ Unnoted (sent 1) 0x120001 4 ∧
    (sent 1).meet 0x120001 .write 0 = (.ok 0x120001, sent 1) ∧ (sent 1).meet 0x120001 .read 0 = (.ok 0x120001, sent 1) ∧
    ((released (sent 1)).atel 0).booted = true ∧ ((sent 1).atel 0).booted = false ∧
    ((sent 1).poison = [] ∧ (sent 1).lost = []) ∧ (0x120001 ≤ 0x120004 ∧ 0x120004 < 0x120001 + 4) ∧
    (0x120001 / 32 * 32 < 0x120001 + 4 ∧ 0x120001 < 0x120001 / 32 * 32 + 32) ∧
    (∀ c, rangeMap .read 0x120001 ((sent 1).hmap 1) ≠ .ok c) := by
  refine ⟨by decide +kernel, by decide +kernel, Or.inl (by decide +kernel), by decide, by decide +kernel,
    by simp only [Plain]; decide +kernel, by simp only [Unnoted]; decide +kernel, rfl, rfl, rfl, rfl, ⟨rfl, rfl⟩, by decide, by decide, fun c => ?_⟩
  rw [show rangeMap .read 0x120001 ((sent 1).hmap 1) = .error 0x05 by decide +kernel]
  simp

theorem wit_host_memory : (0x120000 : Nat) / 2 ^ 53 < st.packages ∧ 0x120000 % 2 ^ 53 + 8 ≤ 0x9000000000 ∧
    ¬(0x8FFFFFFFFD % 2 ^ 53 + 8 ≤ 0x9000000000) ∧ st.touches = [] ∧ st.objects = [] ∧ st.narrow = [] ∧
    (st.atel (0x120000 / 2 ^ 53)).booted = false ∧ ((released st).atel (0x120000 / 2 ^ 53)).booted = true ∧
    st.poison = [] := by decide +kernel

theorem wit_register_writes : ctlRw 0x000 ≠ 0 ∧
    0x000 ∉ [0x028, 0x050, 0x058, 0x078, 0x080, 0x088, 0x090, 0x0A0, 0x740] := by decide +kernel

/-- A GST of the context on its way into the lagoon. -/
def onItsWay : State := withCur mail (fun c => { c with io := { c.io with
  posted := [⟨.p, [(0x1008, [1, 2])], 0, true, false, 0, {}⟩] } })

theorem wit_global_requests : Distinct onItsWay ∧ (∀ c ∈ onItsWay.contexts, c.id.uid ≠ 2 ^ 65) ∧
    onItsWay.mapGlobal 0x1008 .write = .ok 0x10000000001008 ∧ onItsWay.ctx 0x777 = none ∧
    Plain onItsWay 0x10000000001008 8 ∧ Unnoted onItsWay 0x10000000001008 8 ∧ 0x10000000001008 % 32 + 8 ≤ 32 ∧
    onItsWay.meet 0x10000000001008 .write 0 = (.ok 0x10000000001008, onItsWay) ∧
    (∃ c p, onItsWay.ctx 0x1001 = some c ∧ c.sched.place = .slot ∧ c.io.posted = [p] ∧ p.held = false ∧ p.kind ≠ .f ∧
      p.global = true ∧ p.parts = [(0x1008, [1, 2])] ∧ c.oldest p.born ∧
      Performs onItsWay c .write 0x10000000001008 0x10000000001008 2) := by
  refine ⟨by simp only [Distinct]; decide +kernel, by decide +kernel, by decide +kernel, rfl,
    by simp only [Plain]; decide +kernel, by simp only [Unnoted]; decide +kernel, by decide, rfl,
    ⟨_, _, rfl, rfl, rfl, rfl, by decide +kernel, rfl, rfl, by simp only [Context.oldest]; decide +kernel, ?_⟩⟩
  simp only [Performs, Plain]; decide +kernel

/-- The machine-check ring of every die has room. -/
def rings : State := { st with ctl := (List.range 4).map (fun d => (d * 0x1000 + 0x078, BitVec.ofNat 64 (4 * 2 ^ 48))) }

theorem wit_errors : rings.whereIs (lagoon / 32 * 32) ≠ .pageable ∧ rings.whereIs (0x120000 / 32 * 32) = .pageable ∧
    HeldBy rings (lagoon / 32) 0 (3 * 2 ^ 11) ∧ HeldBy rings (0x120000 / 32) 0 (2 * 2 ^ 11) ∧
    ¬HeldBy rings (lagoon / 32) 0 5 ∧ ¬HeldBy rings (lagoon / 32) 0 (7 * 2 ^ 11) ∧ (∀ d : Fin 4, RingRoom rings d.val 0x078) := by
  refine ⟨by decide +kernel, by decide +kernel, ?_, ?_, ?_, ?_, ?_⟩
  · simp only [HeldBy]
    rw [show rings.whereIs (lagoon / 32 * 32) = .lagoon 0 by decide +kernel]; decide
  · simp only [HeldBy]
    rw [show rings.whereIs (0x120000 / 32 * 32) = .pageable by decide +kernel]; decide
  · simp only [HeldBy]
    rw [show rings.whereIs (lagoon / 32 * 32) = .lagoon 0 by decide +kernel]; decide
  · simp only [HeldBy]
    rw [show rings.whereIs (lagoon / 32 * 32) = .lagoon 0 by decide +kernel]; decide
  · simp only [RingRoom]; decide +kernel

theorem wit_errors_free : RingRoom rings (Config.free rings.freeAt % (4 * max rings.packages 1)) 0x078 := by
  have h : Config.free rings.freeAt % (4 * max rings.packages 1) < 4 := Nat.mod_lt _ (by decide)
  exact wit_errors.2.2.2.2.2.2 ⟨_, h⟩

theorem wit_errors_lost : ((0, lagoon / 32 * 32 / 2 ^ 53, 3) : Nat × Nat × Nat) ∈
    ({ rings with routes := [(0, 0, 3)] } : State).routes ∧ ((0, lagoon / 32 * 32 / 2 ^ 53, 2) : Nat × Nat × Nat) ∉
    ({ rings with routes := [(0, 0, 3)] } : State).routes := by decide +kernel

/-- The 64 bytes of a ferry command. -/
def bytesOf (op fmt ring elem src dst len aux : Nat) : List Byte :=
  toBytes 8 0 ++ [BitVec.ofNat 8 op, 0, BitVec.ofNat 8 fmt, BitVec.ofNat 8 ring] ++ toBytes 4 elem ++ toBytes 8 src ++
    toBytes 8 dst ++ toBytes 8 len ++ toBytes 8 aux ++ toBytes 16 0

/-- A command at 0x121000 of the chain whose object lies in a lagoon, started. -/
def started (plan : Option (List (Nat × List Byte))) : FerryCmd :=
  { chain := lagoon, chainVa := 0, seq := 3, cmdIa := 0x121000, cmdVa := 0x121000, core := 0, uid := 0x1009, token := 1, mailbox := 5,
    amap := testRanges, accepted := true, started := true, pos := 0, pace := 63, places := none, plan := plan, early := false
    tail := [], note := none, tagv := 0, performed := false, completed := false, wild := false,
    page := none, status := 0, errAddr := 0 }

def ferrying (f : FerryCmd) (bs : List Byte) : State := { withMem (withMem st 0x121000 bs) 0x123000 (toBytes 4 0xFFFFFFFF) with
  ferry := [f] }

theorem result_ok {ε σ α : Type} [DecidableEq α] [DecidableEq σ] (x : EStateM.Result ε σ α) (a : α) (s : σ)
    (h : (match x with
      | .ok b t => decide (b = a ∧ t = s)
      | .error _ _ => false) = true) : x = .ok a s := by
  cases x <;> simp_all

theorem wit_fetched (op fmt elem src dst len aux : Nat)
    (h : (op, fmt, elem, src, dst, len, aux) ∈ [(1, 0, 0, 0x120000, 0x124000, 5, 0), (4, 0, 0, 0, 0x124000, 9, 0x1122334455),
      (2, 0, 4, 0x120004, 0x124000, 2, 0x123000), (3, 0, 4, 0x120000, 0x124008, 2, 0x123000),
      (8, 7, 0, 0x120000, 0x124008, 8, 0)]) :
    (let s := ferrying (started none) (bytesOf op fmt 0 elem src dst len aux)
     let f := started none
     let c := ferryFields (bytesOf op fmt 0 elem src dst len aux)
     Fetched s f lagoon (bytesOf op fmt 0 elem src dst len aux) ∧ f.early = false ∧ c.total ≤ c.until f.pos f.pace ∧
     (match s.ferryIndex f c with
       | .ok (g, s1) => (match g.planned c s1 with
         | .ok plan s2 =>
           (match g.perform c (planFuel plan) plan s2 with
             | ([], none, _) => true
             | _ => false)
         | _ => false)
       | _ => false) = true) := by
  simp only [List.mem_cons, Prod.mk.injEq, List.not_mem_nil, or_false] at h
  rcases h with h | h | h | h | h <;> obtain ⟨rfl, rfl, rfl, rfl, rfl, rfl, rfl⟩ := h <;>
    exact ⟨⟨by decide +kernel, by decide +kernel, by decide +kernel, rfl, rfl, rfl, rfl, by decide +kernel, by decide +kernel,
      result_ok _ _ _ (by decide +kernel)⟩, rfl, by decide +kernel, by decide +kernel⟩

/-- A COPY of 600 bytes: its first step ends before them. -/
theorem wit_ferry_unfinished : (let c := ferryFields (bytesOf 1 0 0 0 0x120000 0x124000 600 0)
    c.until 0 63 = 512 ∧ c.total = 600) := by decide +kernel

theorem wit_ferry_plans : (let f := started none
    let s := ferrying f []
    f.bytes 0x120000 5 s = .ok [1, 2, 3, 4, 5] s ∧
    f.mask [(0x120000, 5)] 0x124000 [1, 2, 3, 4, 5] s = .ok [1, 2, 3, 4, 5] s ∧
    f.bytes 0x123000 4 s = .ok [255, 255, 255, 255] s ∧ f.bytes 0x123004 4 s = .ok [0, 0, 0, 0] s ∧
    (∀ e, s.mapGlobal 0x1008 .write ≠ .ok e)) := by
  refine ⟨result_ok _ _ _ (by decide +kernel), result_ok _ _ _ (by decide +kernel), result_ok _ _ _ (by decide +kernel),
    result_ok _ _ _ (by decide +kernel), fun e => ?_⟩
  rw [show (ferrying (started none) []).mapGlobal 0x1008 .write = .error 0x05 by decide +kernel]
  simp

/-- Two elements of 4 bytes, gathered from 0x120000 and 0x120004 or scattered there. -/
theorem wit_ferry_places (op src dst : Nat) (h : (op, src, dst) ∈ [(2, 0x120004, 0x124000), (3, 0x120000, 0x124000)]) :
    (let f := { started none with places := some [0x120000, 0x120004] }
    let c := ferryFields (bytesOf op 0 0 4 src dst 2 0x123000)
    let s := ferrying f []
    c.parts 0 (c.until 0 63) = [(0, 0, 4), (1, 0, 4)] ∧
    (op = 2 → f.bytes 0x120000 4 s = .ok [1, 2, 3, 4] s ∧ f.bytes 0x120004 4 s = .ok [5, 6, 7, 8] s ∧
      f.mask [(0x120000, 4), (0x120004, 4)] 0x124000 [1, 2, 3, 4, 5, 6, 7, 8] s = .ok [1, 2, 3, 4, 5, 6, 7, 8] s) ∧
    (op = 3 → f.mask [(0x120000, 8)] 0x124000 [1, 2, 3, 4] s = .ok [1, 2, 3, 4] s)) := by
  simp only [List.mem_cons, Prod.mk.injEq, List.not_mem_nil, or_false] at h
  rcases h with h | h <;> obtain ⟨rfl, rfl, rfl⟩ := h <;>
    exact ⟨by decide +kernel,
      fun _ => ⟨result_ok _ _ _ (by decide +kernel), result_ok _ _ _ (by decide +kernel), result_ok _ _ _ (by decide +kernel)⟩,
      fun _ => result_ok _ _ _ (by decide +kernel)⟩

theorem wit_ferry_writes : rangeMap .write 0x124000 (started none).amap.toList = .ok 0x124000 ∧
    (let bs := bytesOf 1 0 0 0 0x120000 0x124000 3 0
     let f := started (some [(0x124000, [1, 2, 3])])
     let s := ferrying f bs
     Fetched s f lagoon bs ∧ Ends f (ferryFields bs) ∧ HostPlace s 0x124000 ∧ Plain s 0x124000 3 ∧ Unnoted s 0x124000 3 ∧
      s.meet 0x124000 .write 1 = (.ok 0x124000, s) ∧ s.readOnly 0x124000 3 = false) :=
  ⟨by decide +kernel, ⟨by decide +kernel, by decide +kernel, by decide +kernel, rfl, rfl, rfl, rfl, by decide +kernel,
    by decide +kernel, result_ok _ _ _ (by decide +kernel)⟩, ⟨rfl, by decide +kernel⟩, Or.inl (by decide +kernel), by simp only [Plain]; decide +kernel,
    by simp only [Unnoted]; decide +kernel, by decide +kernel, by decide +kernel⟩

/-- A GCOPY of 8 bytes to the lagoon window of core 0. -/
theorem wit_ferry_global : (let bs := bytesOf 9 0 0 0 0x120000 0x1008 8 0
    let f := started (some [(0x1008, [1, 2, 3, 4, 5, 6, 7, 8])])
    let s : State := { onItsWay with mem := cellsSet onItsWay.mem 0x121000 bs, ferry := [f] }
    let ia := 0x10000000001008
    Fetched s f lagoon bs ∧ Ends f (ferryFields bs) ∧ (ferryFields bs).dst / 2 ^ 38 = 0x1008 / 2 ^ 38 ∧
      s.mapGlobal 0x1008 .write = .ok ia ∧ HostPlace s ia ∧ Plain s ia 8 ∧ Unnoted s ia 8 ∧
      s.meet ia .write 1 = (.ok ia, s) ∧ s.readOnly ia 8 = false) :=
  ⟨⟨by decide +kernel, by decide +kernel, by decide +kernel, rfl, rfl, rfl, rfl, by decide +kernel,
    by decide +kernel, result_ok _ _ _ (by decide +kernel)⟩, ⟨rfl, by decide +kernel⟩, by decide +kernel, by decide +kernel,
    Or.inr (Or.inl ⟨0, by decide +kernel⟩), by simp only [Plain]; decide +kernel,
    by simp only [Unnoted]; decide +kernel, by decide +kernel, by decide +kernel⟩

/-- A REDUCE of one element, by the code of its format and operation. -/
theorem wit_ferry_reduces (fmt : Nat) (h : fmt ∈ [0x07, 0x18, 0x28, 0x02]) :
    (let bs := bytesOf 8 fmt 0 0 0x120000 0x124008 (ferryFields (bytesOf 8 fmt 0 0 0 0 0 0)).size 0
    let c := ferryFields bs
    let f := started (some [(0x124008, (toBytes 8 5).take c.size)])
    let s := ferrying f bs
    Fetched s f lagoon bs ∧ Ends f c ∧ c.op = 8 ∧ (c.fmt % 16 = 7 ∨ c.fmt % 16 = 8 ∨ c.fmt = 2) ∧ c.fmt / 16 < 3 ∧
      ((toBytes 8 5).take c.size).length = c.size ∧ 0x124008 % c.size = 0 ∧
      rangeMap .atomic 0x124008 f.amap.toList = .ok 0x124008 ∧ HostPlace s 0x124008 ∧ Plain s 0x124008 c.size ∧
      Unnoted s 0x124008 c.size ∧ s.meet 0x124008 .atomic f.token = (.ok 0x124008, s) ∧ s.readOnly 0x124008 c.size = false ∧
      s.poison = [] ∧ s.lost = [] ∧ (∀ k, k < c.size → f.sources [(c.src, c.len)] (0x124008 + k) = false)) := by
  simp only [List.mem_cons, List.not_mem_nil, or_false] at h
  rcases h with rfl | rfl | rfl | rfl <;>
  exact ⟨⟨by decide +kernel, by decide +kernel, by decide +kernel, rfl, rfl, rfl, rfl, by decide +kernel, by decide +kernel,
      result_ok _ _ _ (by decide +kernel)⟩, ⟨rfl, by decide +kernel⟩, by decide +kernel, by decide +kernel, by decide +kernel,
      by decide +kernel, by decide +kernel, by decide +kernel, Or.inl (by decide +kernel), by simp only [Plain]; decide +kernel,
      by simp only [Unnoted]; decide +kernel, by decide +kernel, by decide +kernel, rfl, rfl, by decide +kernel⟩

/-- A RINGPUT to ring 5 of cluster 0, whose palette is mapped at 2^34: its bytes are written. -/
def putting : State :=
  let f := { started (some []) with amap := (started none).amap.set 4 (rangeTo (2 ^ 34) 0x11000000000000 1) }
  { ferrying f (bytesOf 5 0 5 0 0x120000 (2 ^ 34) 8 0) with
    clusters := [(0, { Cluster.reset with rings := [(5, { lined with
      slots := [⟨.filling, some (.ferry lagoon 3)⟩, ⟨.filling, none⟩, ⟨.empty, none⟩, ⟨.empty, none⟩]
      subs := [], waiting := [] })] })] }

/-- The ring that a RINGPUT names, in steps. -/
theorem ring_of (f : FerryCmd) (c : FerryFields) (t : State) (ia cl : Nat) (r : Ring) (h : c.dst < 2 ^ 60)
    (h1 : rangeMap .write c.dst f.amap.toList = .ok ia) (h2 : t.whereIs ia = .palette cl)
    (h3 : t.ring cl (c.ring % 64) = some r) (h4 : c.len ≤ r.slotBytes) : f.ringOf c t = .ok (cl, r) t := by
  have m : f.map c.dst .write t = .ok ia t := by
    unfold FerryCmd.map
    rw [if_neg (by omega)]
    simp only [bind, EStateM.bind, get, getThe, MonadStateOf.get, EStateM.get, h1, h2, pure, EStateM.pure]
  unfold FerryCmd.ringOf
  simp only [bind, EStateM.bind, m, get, getThe, MonadStateOf.get, EStateM.get, h2, h3, h4, if_true, pure, EStateM.pure]

theorem wit_ferry_puts : (∃ f r, putting.ferry = [f] ∧ Fetched putting f lagoon (bytesOf 5 0 5 0 0x120000 (2 ^ 34) 8 0) ∧
    f.plan = some [] ∧ Ends f (ferryFields (bytesOf 5 0 5 0 0x120000 (2 ^ 34) 8 0)) ∧ putting.ring 0 5 = some r ∧
    r.claimedBy (.ferry lagoon 3) = some 0 ∧ r.subs = [] ∧ 0 < r.nsub ∧
    (ferryFields (bytesOf 5 0 5 0 0x120000 (2 ^ 34) 8 0)).op = 5 ∧
    ∀ t : State, t.packages = putting.packages → t.clusters = putting.clusters →
      f.ringOf (ferryFields (bytesOf 5 0 5 0 0x120000 (2 ^ 34) 8 0)) t = .ok (0, r) t) := by
  refine ⟨_, _, rfl, ⟨by decide +kernel, by decide +kernel, by decide +kernel, rfl, rfl, rfl, rfl, by decide +kernel,
    by decide +kernel, result_ok _ _ _ (by decide +kernel)⟩, rfl, ⟨rfl, by decide +kernel⟩, rfl, by decide +kernel, rfl, by decide, by decide +kernel, fun t hp hc => ?_⟩
  refine ring_of _ _ t 0x11000000000000 0 _ (by decide +kernel) (by decide +kernel) ?_ ?_ (by decide +kernel)
  · rw [show t.whereIs 0x11000000000000 = putting.whereIs 0x11000000000000 by simp only [State.whereIs, hp]]
    decide +kernel
  · rw [show (ferryFields (bytesOf 5 0 5 0 0x120000 (2 ^ 34) 8 0)).ring % 64 = 5 by decide +kernel,
      show t.ring 0 5 = putting.ring 0 5 by simp only [State.ring, State.cluster, hc]]
    rfl

theorem wit_ferry_completes (status notify : Nat) (h : (status, notify) ∈ [(0, 0), (0, 1), (2, 1), (0x13, 0), (0x13, 1)]) :
    (let f := { started (some []) with performed := true, status := status, mailbox := 1, uid := 0x1001 }
    let s : State := { sent 1 with net := [], mem := cellsSet (sent 1).mem 0x121009 [BitVec.ofNat 8 notify], ferry := [f] }
    s.ferry = [] ++ f :: [] ∧ (∀ g ∈ s.ferry, g.chain = f.chain → g.tail = [] ∧ g.note = none) ∧
    Seated s lagoon lagoon [] ∧ s.meet 0x121000 .atomic 1 = (.ok 0x121000, s) ∧
    Apart lagoon 64 0x121000 64 ∧ s.numAt 0x121009 1 % 2 = notify ∧ s.objBusy lagoon = false ∧ s.objBusy 0x121000 = false ∧
    Distinct s ∧ f.chain < 2 ^ 56 ∧ (∃ c, s.ctx f.uid = some c ∧ c.id.sup = false) ∧ ∃ d, Accepts s f.mailbox d) := by
  simp only [List.mem_cons, Prod.mk.injEq, List.not_mem_nil, or_false] at h
  rcases h with h | h | h | h | h <;> obtain ⟨rfl, rfl⟩ := h <;>
  exact ⟨rfl, by decide +kernel, seated_lagoon _ _ _ (by decide +kernel) (by decide), by decide +kernel, by simp [Apart, lagoon],
    by decide +kernel, by decide +kernel, by decide +kernel, by simp only [Distinct]; decide +kernel, by decide +kernel,
    ⟨_, rfl, rfl⟩,
    ⟨{ user 0x1002 0 1 with id := { (user 0x1002 0 1).id with cid := 1 } }, by simp only [Accepts]; decide +kernel⟩⟩

theorem wit_ferry_fails : (let f := { started (some []) with performed := true, status := 0x13 }
    let s := ferrying f (bytesOf 1 0 0 0 0x120000 0x124000 3 0)
    s.ferry = [] ++ f :: [] ∧ Seated s lagoon lagoon [] ∧ s.meet 0x121000 .atomic 1 = (.ok 0x121000, s) ∧
    s.numAt 0x121009 1 % 2 = 0 ∧ s.objBusy lagoon = false ∧ s.objBusy 0x121000 = false ∧ s.ctx f.uid = none) :=
  ⟨rfl, seated_lagoon _ _ _ (by decide +kernel) (by decide), by decide +kernel, by decide +kernel,
    by decide +kernel, by decide +kernel, by decide +kernel⟩

theorem wit_chains_idle : (let f := { started (some []) with completed := true }
    let s := { withMem (withMem st (lagoon + 8) (toBytes 8 0x121000)) (lagoon + 0x1A) [1] with ferry := [f] }
    (s.ferry.filter (fun g => g.chain = f.chain)).getLast? = some f ∧ s.meet f.chain .atomic f.token = (.ok lagoon, s) ∧
    s.objBusy f.chain = false ∧ f.started = true ∧
    s.numAt (lagoon + 0x1A) 1 = 1 ∧ s.numAt (lagoon + 8) 8 = f.cmdVa.toNat) ∧
    (ferrying (started none) []).numAt (lagoon + 0x1A) 1 ≠ 1 := by
  refine ⟨⟨by decide +kernel, rfl, by decide +kernel, rfl, by decide +kernel, by decide +kernel⟩, by decide +kernel⟩

/-- Vector accesses: 2 x 4 elements of FP32 at x1 and of pairs of 16 bits; v5 holds indices 0 to 7. -/
def accessed : State := withCur vst (fun c => { c with reg := { c.reg with
  v := c.reg.v.set 5 ⟨BitVec.ofNat 4096 (fromBytes ((List.range 8).flatMap (fun k => toBytes 4 k))), 8, false⟩ } })

theorem wit_vector_pieces (k : Access) (hk : k = .read ∨ k = .write) (n : Nat) (hn : n = 4 ∨ n = 32) : ∀ i, i < 16 →
    Reaches accessed k (0x120000 + i * n) (0x120000 + i * n) (0x120000 + i * n) ∧
    accessed.poisoned (0x120000 + i * n) n = false ∧
    accessed.postKind accessed.cur (0x120000 + i * n) false = none ∧ Plain accessed (0x120000 + i * n) n := by
  rcases hk with rfl | rfl <;> rcases hn with rfl | rfl <;> (simp only [Reaches, Plain]; decide +kernel)

theorem wit_vector_accesses :
    accessed.cur.effective (accessed.arg 1) 0 32 = .ok 0x120000 ∧
    accessed.cur.effective (accessed.arg 1) 0 512 = .ok 0x120000 ∧
    accessed.selected none 32 = [0, 1, 2, 3, 4, 5, 6, 7] ∧ (∀ i ∈ accessed.selected none 0, i < 16) ∧
    accessed.fits 32 ∧ accessed.carries 1 2 ∧ accessed.cur.reg.v[(5 : VNum)].tag = 8 ∧
    (∀ i ∈ accessed.selected none 32, accessed.cur.effective (accessed.arg 1)
      (signedBits 32 (laneOf 32 accessed.cur.reg.v[(5 : VNum)].bits i) * 4) 4 = .ok (0x120000 + i * 4)) := by
  simp only [State.fits, State.carries]; decide +kernel

theorem wit_vector_still : Still accessed ∧ Calm accessed := by simp only [Still, Calm]; decide +kernel

theorem wit_vector_promised (loc n : Nat) : Promised accessed loc n := promised_of_none rfl rfl _ _

/-- VSHAPE 3 x 4. -/
theorem wit_shape : (let s := withX (withX st 1 3) 2 4
    1 ≤ (s.arg 1).toNat ∧ (s.arg 1).toNat ≤ 1024 ∧ 1 ≤ (s.arg 2).toNat ∧ (s.arg 2).toNat ≤ 1024 ∧
    (s.arg 1).toNat * (s.arg 2).toNat ≤ 1024) := by decide +kernel

theorem wit_evictable (why : Saved) : ∃ s1, Savable blocked 0x1001 blocked.cur why s1 :=
  savable_of _ _ _ _ rfl rfl ⟨by decide +kernel, by decide +kernel⟩ rfl rfl rfl rfl rfl (by decide +kernel) (by decide +kernel)

/-- Vector 5 of package 0 is pending; unmasking its entry sends its message. At reset every entry is masked. -/
theorem wit_msix : (let s := st.signal 0 5
    (0x8058 % 16 = 8 ∧ (0 : Word).getLsbD 32 = false ∧ (s.bar4Get 0 0x9000).getLsbD ((0x8058 - 0x8000) / 16) = true) ∧
    (st.bar4Get 0 (0x8008 + 16 * 5)).getLsbD 32 = true ∧
    ((s.msixWrite 0 0x8058 0).bar4Get 0 (0x8008 + 16 * 5)).getLsbD 32 = false) := by decide +kernel

end Sys2Proof.Tests
end

section
/-! PROOF. Package reset and boot (O48), and the host, register writes, links, requests from beyond and errors (O57),
after the rules of the state's operations that they use. -/

namespace Sys2Proof.Machine

/-! Units beside each other. -/

theorem atel_setAtel (s : State) (p q : Nat) (v : Atelier) :
    (s.setAtel p v).atel q = if q = p then v else s.atel q := tabGet_tabPut ..

theorem core_setCore (s : State) (k j : Nat) (v : CoreSt) :
    (s.setCore k v).core j = if j = k then v else s.core j := tabGet_tabPut ..

theorem onlyAtelier_setAtel (s : State) (p : Nat) (v : Atelier) : OnlyAtelier s (s.setAtel p v) p v :=
  ⟨rfl, by simp [atel_setAtel], fun j hj => by simp [atel_setAtel, hj]⟩

theorem onlyCore_setCore (s : State) (k : Nat) (v : CoreSt) : OnlyCore s (s.setCore k v) k v :=
  ⟨rfl, (core_setCore ..).trans (if_pos rfl), fun _ hj => (core_setCore ..).trans (if_neg hj)⟩

/-! Bytes written (R298, R361). -/

theorem bytesAt_putBytes (s : State) (loc : Nat) (bs : List Byte) : (s.putBytes loc bs).bytesAt loc bs.length = bs :=
  cellsGet_cellsSet ..

theorem Noted.poison {s t : State} (h : Noted s t) : t.poison = s.poison :=
  (congrArg State.poison (h : t.withNotes s = s) :)

theorem stored_putBytes (s : State) (loc : Nat) (bs : List Byte) : Stored s (s.putBytes loc bs) loc bs :=
  ⟨bytesAt_putBytes .., fun a ha => cellGet_cellsSet_outside bs s.mem loc a ha⟩

theorem cleared_putBytes (s : State) (loc : Nat) (bs : List Byte) : Cleared s (s.putBytes loc bs) loc bs.length := by
  intro b
  simp only [State.putBytes_poison, poisonLeft, List.mem_filter, List.any_eq_true, Bool.and_eq_true, decide_eq_true_eq,
    Bool.not_eq_true', Bool.and_eq_false_iff, decide_eq_false_iff_not, not_le, not_lt]

/-- Bytes put in memory, and what memory notes beside them. -/
theorem wrote_of_noted {s t : State} {loc : Nat} {bs : List Byte} (h : Noted (s.putBytes loc bs) t) : Wrote s t loc bs := by
  refine ⟨congrArg (fun v : State => { v.withNotes s with mem := s.mem, poison := s.poison })
    (h : t.withNotes (s.putBytes loc bs) = s.putBytes loc bs), ?_, ?_⟩
  · unfold Stored State.bytesAt
    rw [h.mem]
    exact stored_putBytes ..
  · unfold Cleared
    rw [h.poison]
    exact cleared_putBytes _ _ _

/-! Control registers, BAR4 and signals (R184, R392). -/

theorem ctlGet_ctlSet (s : State) (d o d' o' : Nat) (w : Word) :
    (s.ctlSet d o w).ctlGet d' o' = if ctlKey d' o' = ctlKey d o then w else s.ctlGet d' o' := tabGet_tabPut ..

theorem ctlKept_ctlSet (s : State) (d o : Nat) (w : Word) : CtlKept s (s.ctlSet d o w) [ctlKey d o] := fun d' o' h => by
  rw [ctlGet_ctlSet, if_neg (by simpa using h)]

theorem onlyCtl_ctlSet (s : State) (d o : Nat) (w : Word) : OnlyCtl s (s.ctlSet d o w) d o w :=
  ⟨rfl, by rw [ctlGet_ctlSet, if_pos rfl], ctlKept_ctlSet _ _ _ _⟩

theorem bar4Get_bar4Put (s : State) (p o p' o' : Nat) (w : Word) :
    (s.bar4Put p o w).bar4Get p' o' = if p' * 0x10000 + o' = p * 0x10000 + o then w else s.bar4Get p' o' :=
  tabGet_tabPut ..

theorem signals_signal (s : State) (die e : Nat) : Signals s (s.signal die e) die e := by
  unfold Signals State.signal
  constructor
  · intro hm
    simp only [hm, Bool.false_eq_true, if_false, and_self]
  · intro hm
    simp only [hm, if_true]
    refine ⟨rfl, by rw [bar4Get_bar4Put, if_pos rfl], fun p o h => by rw [bar4Get_bar4Put, if_neg h]⟩

theorem signal_eq (s : State) (die e : Nat) : ∃ b m, s.signal die e = { s with bar4 := b, msix := m } := by
  unfold State.signal
  dsimp only
  split
  · exact ⟨_, s.msix, rfl⟩
  · exact ⟨s.bar4, _, rfl⟩

/-! Record rings (R184, R362). -/

/-- A record put at the HEAD of a ring, and HEAD moved on. -/
def State.recorded (s : State) (die baseOff ctlOff : Nat) (bs : List Byte) : State :=
  let head := s.ctlField die ctlOff 15 0
  (s.putBytes (pkgBase (die / 4) + (s.ctlGet die baseOff).toNat % 2 ^ 52 + head * bs.length) bs).ctlPutField die ctlOff 15 0
    ((head + 1) % s.ctlField die ctlOff 63 48)

/-- A record put into a ring, and the signal of a ring that was empty. -/
def State.recordPosted (s : State) (die baseOff ctlOff e : Nat) (bs : List Byte) : State :=
  if s.ctlField die ctlOff 15 0 = s.ctlField die ctlOff 31 16 then (s.recorded die baseOff ctlOff bs).signal die e
  else s.recorded die baseOff ctlOff bs

theorem ringPost_room {s : State} {die ctlOff : Nat} (h : RingRoom s die ctlOff) (baseOff e : Nat) (bs : List Byte) :
    s.ringPost die baseOff ctlOff e bs = some (s.recordPosted die baseOff ctlOff e bs) := by
  obtain ⟨h1, h2⟩ := h
  unfold State.ringPost
  simp only [h1, h2, decide_false, Bool.or_self, Bool.false_eq_true, if_false]
  rfl

theorem posts_recordPosted (s : State) (die baseOff ctlOff e : Nat) (bs : List Byte) :
    Posts s (s.recordPosted die baseOff ctlOff e bs) die baseOff ctlOff e bs := by
  unfold State.recordPosted
  have hs := signals_signal (s.recorded die baseOff ctlOff bs) die e
  obtain ⟨b, m, hbm⟩ := signal_eq (s.recorded die baseOff ctlOff bs) die e
  rw [hbm] at hs ⊢
  split
  · rename_i heq
    refine ⟨rfl, stored_putBytes _ _ _, cleared_putBytes _ _ _, ?_, ctlKept_ctlSet _ _ _ _, fun _ => hs,
      fun hne => absurd heq hne⟩
    exact (ctlGet_ctlSet ..).trans (if_pos rfl)
  · rename_i hne
    refine ⟨rfl, stored_putBytes _ _ _, cleared_putBytes _ _ _, ?_, ctlKept_ctlSet _ _ _ _, fun heq => absurd heq hne,
      fun _ => ⟨rfl, rfl⟩⟩
    exact (ctlGet_ctlSet ..).trans (if_pos rfl)

theorem machineCheck_reports {s : State} {die : Nat} (h : RingRoom s die 0x078) (ia unit kind cause token : Nat)
    (detail : Word) : Reports s (s.machineCheck die ia unit kind cause token detail) die
      (checkRecord s ia (die % 4 * 2 ^ 14 + unit) kind cause token detail) := by
  refine ⟨_, posts_recordPosted .., ?_⟩
  unfold State.machineCheck
  dsimp only
  rw [ringPost_room h]
  rfl

/-- A record of a machine that differs from s in neither its control registers nor its time. -/
theorem machineCheck_reports_of {s v : State} {die : Nat} (h : RingRoom s die 0x078) (hc : v.ctl = s.ctl)
    (ht : v.tstamp = s.tstamp) (ia unit kind cause token : Nat) (detail : Word) :
    Reports v (v.machineCheck die ia unit kind cause token detail) die
      (checkRecord s ia (die % 4 * 2 ^ 14 + unit) kind cause token detail) := by
  have hv : RingRoom v die 0x078 := by
    unfold RingRoom State.ctlField State.ctlGet at h ⊢
    rwa [hc]
  have hr := machineCheck_reports hv ia unit kind cause token detail
  unfold checkRecord at hr ⊢
  rwa [ht] at hr

/-! Reset (R9). -/

theorem exec_packageReset (s : State) : exec .packageReset s = execPackageReset s := rfl

theorem packageReset_resets : Claim.Resets := fun s =>
  ⟨_, exec_packageReset s, rfl, rfl, by simp [State.tstamp, sumSteps], fun cl => by simp [State.cyc, sumSteps],
    by unfold State.reset; dsimp only⟩

/-! Boot (R25, R347, R364, R394). -/

theorem exec_atelierBoot (pkg : Nat) (image : BootImage) (s : State) :
    exec (.atelierBoot pkg image) s = execAtelierBoot pkg image s := rfl

theorem signedImage_iff (i : BootImage) :
    signedImage i = true ↔ ∀ v ∈ [i.atelier, i.config, i.identity], v.rsa = true ∧ v.slh = true := by
  simp [signedImage]

/-- Nothing but control-block registers, strings and clusters differs between two machines. -/
def RegistersOnly (s t : State) : Prop := { t with ctl := s.ctl, strings := s.strings, clusters := s.clusters } = s

theorem RegistersOnly.trans {s t u : State} (h : RegistersOnly s t) (h' : RegistersOnly t u) : RegistersOnly s u :=
  Eq.trans (b := ({ t with ctl := s.ctl, strings := s.strings, clusters := s.clusters } : State))
    (congrArg (fun v : State => { v with ctl := s.ctl, strings := s.strings, clusters := s.clusters })
      (h' : { u with ctl := t.ctl, strings := t.strings, clusters := t.clusters } = t)) h

theorem registersOnly_foldl {α : Type} (f : State → α → State) (h : ∀ s a, RegistersOnly s (f s a)) (l : List α)
    (s : State) : RegistersOnly s (l.foldl f s) := by
  induction l generalizing s with
  | nil => rfl
  | cons a l ih => exact (h s a).trans (ih (f s a))

theorem bootRegister_registersOnly (s : State) (die off : Nat) (w : Word) : RegistersOnly s (s.bootRegister die off w) := by
  unfold State.bootRegister
  dsimp only
  split <;> rfl

theorem bootRegisters_registersOnly (s : State) (pkg : Nat) (image : BootImage) :
    RegistersOnly s (s.bootRegisters pkg image) := by
  unfold State.bootRegisters
  refine ((registersOnly_foldl _ (fun s r => bootRegister_registersOnly ..) _ s).trans
    (registersOnly_foldl _ (fun s g => ?_) _ _)).trans (registersOnly_foldl _ (fun s g => ?_) _ _) <;> rfl

theorem capabilityBytes_length (n : Nat) (l : List Capability) : (capabilityBytes n l).length = 16 * l.length := by
  induction l generalizing n with
  | nil => rfl
  | cons k l ih => simp [capabilityBytes, ih]; omega

/-- Dispatch ranges written to the cores of a list. -/
theorem core_ranges_foldl (r : Nat → Vector (BitVec 128) 8) (l : List Nat) (s : State) (k : Nat) :
    ((l.foldl (fun s k => s.setCore k { s.core k with ranges := r k }) s).core k).ranges =
      if k ∈ l then r k else (s.core k).ranges := by
  induction l generalizing s with
  | nil => simp
  | cons j l ih =>
    rw [List.foldl_cons, ih, core_setCore]
    by_cases h : k = j
    · subst h; simp
    · simp [h]

theorem coresOnly_foldl (r : Nat → Vector (BitVec 128) 8) (l : List Nat) (s : State) :
    ∃ cs, l.foldl (fun s k => s.setCore k { s.core k with ranges := r k }) s = { s with cores := cs } := by
  induction l generalizing s with
  | nil => exact ⟨s.cores, rfl⟩
  | cons j l ih => exact ih (s.setCore j { s.core j with ranges := r j })

theorem getAt_bootRanges (rs : List (BitVec 128)) (i : Fin 8) : (bootRanges rs)[i] = rangeImage ((rs[i.val]?).getD 0) := by
  simp [bootRanges, getAt]

/-- The machine with the supervisors of a package started, before the dispatch ranges of its cores are written. -/
def State.withSupervisors (s : State) (pkg : Nat) (image : BootImage) : State :=
  let mine (c : Context) : Bool := c.id.sup && decide (pkgOf c.id.core = pkg)
  { s with
    cur := if mine s.cur then startSupervisor image s.now s.cur.id.core else s.cur
    others := s.others.filter (fun c => !(mine c)) ++
      (((List.range 512).map (fun k => pkg * 512 + k)).filter (fun k => !(mine s.cur && s.cur.id.core = k))).map
        (startSupervisor image s.now) }

theorem mem_packageCores {pkg k : Nat} : k ∈ (List.range 512).map (fun j => pkg * 512 + j) ↔ pkgOf k = pkg := by
  simp only [List.mem_map, List.mem_range, pkgOf]
  exact ⟨fun ⟨j, hj, e⟩ => by omega, fun h => ⟨k % 512, by omega, by omega⟩⟩

theorem bootSupervisors_eq (s : State) (pkg : Nat) (image : BootImage) :
    ∃ cs, s.bootSupervisors pkg image = { s.withSupervisors pkg image with cores := cs } :=
  coresOnly_foldl (fun k => bootRanges (tabGet [] image.dispatchRanges k)) _ (s.withSupervisors pkg image)

theorem bootSupervisors_ranges (s : State) (pkg : Nat) (image : BootImage) {k : Nat} (h : pkgOf k = pkg) :
    ((s.bootSupervisors pkg image).core k).ranges = bootRanges (tabGet [] image.dispatchRanges k) := by
  unfold State.bootSupervisors
  dsimp only
  rw [core_ranges_foldl, if_pos (mem_packageCores.mpr h)]

theorem startSupervisor_mem_withSupervisors (s : State) (pkg : Nat) (image : BootImage) {k : Nat} (h : pkgOf k = pkg) :
    startSupervisor image s.now k ∈ (s.withSupervisors pkg image).contexts := by
  unfold State.contexts State.withSupervisors
  dsimp only
  by_cases hc : s.cur.id.sup && decide (pkgOf s.cur.id.core = pkg) && decide (s.cur.id.core = k)
  · simp only [Bool.and_eq_true, decide_eq_true_eq] at hc
    obtain ⟨⟨h1, h2⟩, h3⟩ := hc
    simp [h1, h3, h]
  · refine List.mem_cons_of_mem _ (List.mem_append_right _ (List.mem_map_of_mem (List.mem_filter.mpr ⟨?_, ?_⟩)))
    · exact mem_packageCores.mpr h
    · rwa [Bool.not_eq_true, ← Bool.not_eq_true'] at hc

theorem execAtelierBoot_signed {s : State} {pkg : Nat} {image : BootImage} (hp : pkg < 8)
    (hb : (s.atel pkg).booted = false) (hs : signedImage image = true) :
    execAtelierBoot pkg image s = .next (((((({ s with packages := max s.packages (min 8 image.packages) } :
      State).bootRegisters pkg image).bootRoutes pkg image).bootCapabilities pkg image).bootSupervisors pkg image).setAtel pkg
      { s.atel pkg with booted := true, failed := false, entry := image.entry, measurements := measured image }) := by
  unfold execAtelierBoot
  simp [hb, hs, Nat.not_le.mpr hp]

theorem execAtelierBoot_unsigned {s : State} {pkg : Nat} {image : BootImage} (hp : pkg < 8)
    (hb : (s.atel pkg).booted = false) (hs : signedImage image = false) :
    execAtelierBoot pkg image s = .next (s.setAtel pkg { s.atel pkg with failed := true }) := by
  unfold execAtelierBoot
  simp [hb, hs, Nat.not_le.mpr hp]

/-- The capability list of a package that boots stands in memory where CAPBASE leads (R25). -/
theorem bootCapabilities_list (s : State) (pkg : Nat) (image : BootImage) :
    let t := s.bootCapabilities pkg image
    tabGet 0 t.capbase pkg = image.capbase ∧ t.capsOf pkg = capabilityList s.packages ∧
      t.bytesAt (tabGet 0 t.capAt pkg) 320 = capabilityBytes 0 (t.capsOf pkg) := by
  have hc : (s.bootCapabilities pkg image).capsOf pkg = capabilityList s.packages := by
    simp [State.capsOf, State.bootCapabilities, tabGet_tabPut]
  refine ⟨by simp [State.bootCapabilities, tabGet_tabPut], hc, ?_⟩
  have hl : 320 = (capabilityBytes 0 (capabilityList s.packages)).length := by
    simp [capabilityBytes_length, capabilityList]
  rw [hc, hl]
  unfold State.bootCapabilities
  simp only [State.putBytes_capAt, tabGet_tabPut, if_true]
  exact bytesAt_putBytes ..

theorem startSupervisor_starts (image : BootImage) (now k : Nat) :
    let c := startSupervisor image now k
    c.id.core = k ∧ c.id.slot = 7 ∧ c.id.sup = true ∧ c.reg.pc = image.entry ∧ c.reg.ecause = 0 ∧
      c.sched.stopped = false ∧
      ∀ i : Fin 8, c.reg.amap[i] = rangeImage (((tabGet [] image.supervisorRanges k)[i.val]?).getD 0) :=
  ⟨rfl, rfl, rfl, rfl, rfl, rfl, fun i => getAt_bootRanges _ i⟩

theorem atelierBoot_boots : Claim.Boots := by
  intro s pkg image hp hb a signed
  constructor
  · intro hn
    have hs : signedImage image = false := by
      rw [← Bool.not_eq_true, signedImage_iff]; exact hn
    exact ⟨_, execAtelierBoot_unsigned hp hb hs, onlyAtelier_setAtel ..⟩
  · intro hs
    refine ⟨_, execAtelierBoot_signed hp hb ((signedImage_iff image).mpr hs), ?_⟩
    have hreg := bootRegisters_registersOnly ({ s with packages := max s.packages (min 8 image.packages) } : State) pkg image
    generalize State.bootRegisters _ pkg image = b at hreg ⊢
    obtain ⟨hbase, hcaps, hmem⟩ := bootCapabilities_list (b.bootRoutes pkg image) pkg image
    have hroutes : ((b.bootRoutes pkg image).bootCapabilities pkg image).routes =
        s.routes.filter (fun r => r.1 != pkg) ++ image.routes.map (fun r => (pkg, r.1, r.2)) :=
      (congrArg (fun v : State => (v.bootRoutes pkg image).routes) hreg :)
    replace hcaps : _ = capabilityList ((b.bootRoutes pkg image).bootCapabilities pkg image).packages := hcaps
    generalize (b.bootRoutes pkg image).bootCapabilities pkg image = v at hbase hcaps hmem hroutes ⊢
    have hrng := fun k h => bootSupervisors_ranges v pkg image (k := k) h
    obtain ⟨cs, e⟩ := bootSupervisors_eq v pkg image
    rw [e] at hrng ⊢
    refine ⟨by simp [atel_setAtel, a, measured], hbase, hcaps, hmem, fun r => ?_, fun k hk => ⟨fun i => ?_, ?_⟩⟩
    · change r ∈ v.routes ↔ _
      rw [hroutes]
      simp only [List.mem_append, List.mem_filter, List.mem_map, bne_iff_ne, eq_comm (a := r)]
    · exact (congrArg (fun w : Vector (BitVec 128) 8 => w[i]) (hrng k hk)).trans (getAt_bootRanges _ i)
    · exact ⟨_, startSupervisor_mem_withSupervisors v pkg image hk, startSupervisor_starts image v.now k⟩

/-- Settles O48: the boot changes control-block registers, strings and clusters, then routes, then the capability list, then
the supervisors, each of which leaves what the others have set. -/
theorem packageSteps : Obligations.PackageSteps := ⟨packageReset_resets, atelierBoot_boots⟩

/-! Links (R393). -/

theorem exec_voldinFlit (port : Nat) (body : List Byte) (crc : BitVec 32) (s : State) :
    exec (.voldinFlit port body crc) s = execVoldinFlit port body crc s := rfl

theorem flits_delivered : Claim.Flits := by
  intro s port body crc l k good
  have hlink : ∀ (v : Link) (p : Nat), ({ s with links := tabPut s.links port v } : State).link p =
      if p = port then v else s.link p := fun v p => tabGet_tabPut ..
  refine ⟨_, exec_voldinFlit .., rfl, fun p hp => (hlink ..).trans (if_neg hp), fun hg => ?_, fun hg => ?_⟩
  · refine (hlink ..).trans ((if_pos rfl).trans (if_neg ?_))
    simpa [good] using hg
  · refine (hlink ..).trans ((if_pos rfl).trans ((if_pos ?_).trans ?_))
    · simpa [good] using hg
    · simp [putAt, getAt, l, k]

/-! Register writes (R7, R8, R184, R371, R392). -/

theorem exec_registerWrite (place : RegPlace) (w : Word) (s : State) :
    exec (.registerWrite place w) s = execRegisterWrite place w s := rfl

/-- The bits of a control-block register that a write replaces. -/
def ctlMerged (old w : Word) (off : Nat) : Word :=
  (old &&& ~~~(BitVec.ofNat 64 (ctlRw off))) ||| (w &&& BitVec.ofNat 64 (ctlRw off))

theorem ctlMerged_low (old w : Word) : ctlMerged old w 0x740 = old.extractLsb' 32 32 ++ w.extractLsb' 0 32 := by
  have hm : ∀ i, (2 ^ 32 - 1).testBit i = decide (i < 32) := fun i => Nat.testBit_two_pow_sub_one ..
  have hr : ctlRw 0x740 = 2 ^ 32 - 1 := by decide
  refine BitVec.eq_of_getLsbD_eq fun i hi => ?_
  unfold ctlMerged
  rw [hr, BitVec.getLsbD_or, BitVec.getLsbD_and, BitVec.getLsbD_and, BitVec.getLsbD_not, BitVec.getLsbD_ofNat, hm,
    BitVec.getLsbD_append, BitVec.getLsbD_extractLsb', BitVec.getLsbD_extractLsb']
  by_cases h : i < 32
  · simp [hi, h]
  · simp [hi, h, show i - 32 < 32 by omega, show 32 + (i - 32) = i by omega]

/-- Two stretches of bits in a row, as numbers. -/
theorem toNat_append_eq_add {n m : Nat} (x : BitVec n) (y : BitVec m) : (x ++ y).toNat = x.toNat * 2 ^ m + y.toNat := by
  rw [BitVec.toNat_append, ← Nat.shiftLeft_add_eq_or_of_lt y.isLt, Nat.shiftLeft_eq]

theorem setBits_ctlMerged (old w : Word) (m : Nat) :
    setBits (ctlMerged old w 0x740) 15 0 (min (bitsOf (ctlMerged old w 0x740) 15 0) m) =
      old.extractLsb' 32 32 ++ w.extractLsb' 16 16 ++ BitVec.ofNat 16 (min (w.toNat % 2 ^ 16) m) := by
  have hx : (ctlMerged old w 0x740).toNat = old.toNat / 2 ^ 32 * 2 ^ 32 + w.toNat % 2 ^ 32 := by
    simp only [ctlMerged_low, toNat_append_eq_add, BitVec.extractLsb'_toNat, Nat.shiftRight_eq_div_pow]
    omega
  have hb : bitsOf (ctlMerged old w 0x740) 15 0 = w.toNat % 2 ^ 16 := by
    unfold bitsOf
    omega
  apply BitVec.eq_of_toNat_eq
  simp only [setBits, hb, hx, toNat_append_eq_add, BitVec.extractLsb'_toNat, Nat.shiftRight_eq_div_pow, BitVec.toNat_ofNat]
  omega

/-- Only MCCTL has bits that a write of 1 clears. -/
theorem and_not_ctlW1c (x w : Word) {off : Nat} (h : off ≠ 0x078) : x &&& ~~~(w &&& BitVec.ofNat 64 (ctlW1c off)) = x := by
  rw [ctlW1c, if_neg h, BitVec.and_zero]
  exact BitVec.and_allOnes

/-- A write of a register that takes no further action. -/
theorem regWrite_plain (s : State) (die off core : Nat) (w : Word) (hr : ctlRw off ≠ 0)
    (h : off ∉ [0x028, 0x050, 0x058, 0x078, 0x080, 0x088, 0x090, 0x0A0, 0x740]) :
    s.regWrite die off core w = s.ctlSet die off (ctlMerged (s.ctlGet die off) w off) := by
  simp only [List.mem_cons, List.not_mem_nil, or_false, not_or] at h
  obtain ⟨h1, h2, h3, h4, h5, h6, h7, h8, h9⟩ := h
  unfold State.regWrite
  simp only [h1, h2, h3, h5, h6, h7, h8, h9, hr, and_not_ctlW1c _ _ h4, if_false]
  rfl

theorem regWrite_ceilmax (s : State) (die core : Nat) (w : Word) :
    s.regWrite die 0x740 core w = s.ctlSet die 0x740 (setBits (ctlMerged (s.ctlGet die 0x740) w 0x740) 15 0
      (min (bitsOf (ctlMerged (s.ctlGet die 0x740) w 0x740) 15 0) (s.ctlField die 0x760 15 0))) := by
  have hr : ctlRw 0x740 ≠ 0 := by decide
  unfold State.regWrite
  simp only [hr, and_not_ctlW1c _ _ (show 0x740 ≠ 0x078 by decide), if_false, if_true, Nat.reduceEqDiff]
  rfl

/-- A write of a doubleword of the MSI-X table (R392). -/
theorem bar4Write_msix (s : State) (pkg off : Nat) (w : Word) (h8 : off % 8 = 0) (h1 : 0x8000 ≤ off) (h2 : off < 0x8400) :
    s.bar4Write pkg off w = s.msixWrite pkg off w := by
  unfold State.bar4Write
  rw [if_neg (by omega), if_neg (by omega), if_pos (by simp [h1, h2])]

theorem inboxWrite_stage (s : State) (core off : Nat) (w : Word) (h1 : 8 ≤ off) (h2 : off < 0x40) :
    s.inboxWrite core off w =
      s.setCore core { s.core core with stage := (s.core core).stage.set (off / 8 - 1) w } := by
  unfold State.inboxWrite
  rw [if_neg (by omega), if_pos h2]
  rfl

/-- What a write of the MSI-X table leaves: the word, and the message of an entry that it unmasks while it is pending. -/
theorem msixWrite_writes (s : State) (pkg off : Nat) (w : Word) (h2 : off < 0x8400) :
    let v := (off - 0x8000) / 16
    let sends := off % 16 = 8 ∧ w.getLsbD 32 = false ∧ (s.bar4Get pkg 0x9000).getLsbD v = true
    let t := s.msixWrite pkg off w
    { t with bar4 := s.bar4, msix := s.msix } = s ∧ t.bar4Get pkg off = w ∧
      (¬sends → t.msix = s.msix ∧ ∀ p o, p * 0x10000 + o ≠ pkg * 0x10000 + off → t.bar4Get p o = s.bar4Get p o) ∧
      (sends → t.msix = s.msix ++ [pkg * 64 + v] ∧
        t.bar4Get pkg 0x9000 = (s.bar4Get pkg 0x9000 &&& ~~~(BitVec.ofNat 64 (2 ^ v))) ∧
        ∀ p o, p * 0x10000 + o ≠ pkg * 0x10000 + off → p * 0x10000 + o ≠ pkg * 0x10000 + 0x9000 →
          t.bar4Get p o = s.bar4Get p o) := by
  intro v sends t
  by_cases hs : sends
  · have ht : t = { (s.bar4Put pkg off w).bar4Put pkg 0x9000
        (s.bar4Get pkg 0x9000 &&& ~~~(BitVec.ofNat 64 (2 ^ v))) with msix := s.msix ++ [pkg * 64 + v] } := by
      obtain ⟨h16, hw, hp⟩ := hs
      refine if_pos ?_
      simp only [Bool.and_eq_true, decide_eq_true_eq, Bool.not_eq_true']
      exact ⟨⟨h16, hw⟩, hp⟩
    have hg : ∀ p o, t.bar4Get p o = ((s.bar4Put pkg off w).bar4Put pkg 0x9000
        (s.bar4Get pkg 0x9000 &&& ~~~(BitVec.ofNat 64 (2 ^ v)))).bar4Get p o := fun p o => by rw [ht]; rfl
    refine ⟨by rw [ht]; rfl, ?_, fun h => absurd hs h, fun _ => ⟨by rw [ht], ?_, fun p o h h' => ?_⟩⟩
    · rw [hg, bar4Get_bar4Put, if_neg (Nat.add_lt_add_left (h2.trans (by decide)) _).ne, bar4Get_bar4Put, if_pos rfl]
    · rw [hg, bar4Get_bar4Put, if_pos rfl]
    · rw [hg, bar4Get_bar4Put, if_neg h', bar4Get_bar4Put, if_neg h]
  · have ht : t = s.bar4Put pkg off w := if_neg (by simpa [sends, and_assoc] using hs)
    refine ⟨by rw [ht]; rfl, ?_, fun _ => ⟨by rw [ht]; rfl, fun p o h => ?_⟩, fun h => absurd h hs⟩
    · rw [ht, bar4Get_bar4Put, if_pos rfl]
    · rw [ht, bar4Get_bar4Put, if_neg h]

theorem registerWrites_stored : Claim.RegisterWrites := by
  intro s w
  refine ⟨fun die off hr h => ?_, fun die => ?_, fun pkg off hb h8 h1 h2 => ?_, fun core off h1 h2 => ?_⟩
  · refine ⟨_, (exec_registerWrite ..).trans (congrArg Host.Outcome.next (regWrite_plain _ _ _ _ _ hr h)), ?_⟩
    exact onlyCtl_ctlSet ..
  · refine ⟨_, (exec_registerWrite ..).trans (congrArg Host.Outcome.next ((regWrite_ceilmax ..).trans
      (congrArg (State.ctlSet _ die 0x740) (setBits_ctlMerged ..)))), ?_⟩
    exact onlyCtl_ctlSet ..
  · refine ⟨_, (exec_registerWrite ..).trans (congrArg Host.Outcome.next ?_), msixWrite_writes s pkg off w h2⟩
    exact (if_pos hb).trans (bar4Write_msix s pkg off w h8 h1 h2)
  · exact ⟨_, (exec_registerWrite ..).trans (congrArg Host.Outcome.next (inboxWrite_stage s core off w h1 h2)),
      onlyCore_setCore _ _ _⟩

/-! The host's accesses through CXL.mem (R391, R394). -/

theorem exec_cxlMemAccess (acc : HostAccess) (s : State) : exec (.cxlMemAccess acc) s = execCxlMemAccess acc s := rfl

/-- No line has a release noted where none is noted at all. -/
theorem forceLoc_none {s : State} (h : s.narrow = []) (loc : Nat) : s.narrowLoc loc = [] ∧ s.forceLoc loc = s := by
  have hn : s.narrowLoc loc = [] := by simp [State.narrowLoc, h]
  exact ⟨hn, by simp [State.forceLoc, hn]⟩

theorem touchedAt_none {s : State} (h : s.touches = []) (loc : Nat) : s.touchedAt loc = false := by
  simp [State.touchedAt, h]

theorem clobberLoc_none {s : State} (h : s.objects = []) (loc n : Nat) : s.clobberLoc loc n = s := by
  simp [State.clobberLoc, h]

theorem poisonAt_iff (s : State) (loc n : Nat) : s.poisonAt loc n = true ↔ ∃ b ∈ s.poison, loc ≤ b ∧ b < loc + n := by
  simp [State.poisonAt]

/-- The low bytes of a word that a store of at most 8 bytes takes. -/
theorem length_take_toBytes (w n : Nat) (h : n ≤ 8) : ((toBytes 8 w).take n).length = n := by simp [h]

/-- Whether an access through CXL.mem is one to on-package DRAM. -/
def State.inDram (s : State) (acc : HostAccess) : Prop :=
  acc.addr / 2 ^ 53 < s.packages ∧ acc.addr % 2 ^ 53 + acc.size ≤ 0x9000000000

theorem execCxlMemAccess_outside {s : State} {acc : HostAccess} (h : ¬s.inDram acc) :
    execCxlMemAccess acc s = .next { s with host := .unsupported } := by
  unfold State.inDram at h
  refine if_pos ?_
  simp only [Bool.or_eq_true, decide_eq_true_eq]
  omega

section InDram

variable {s : State} {acc : HostAccess} (h : s.inDram acc) (hn : s.narrow = [])
include h

theorem execCxlMemAccess_held (hb : (s.atel (acc.addr / 2 ^ 53)).booted = false) :
    execCxlMemAccess acc s = .next { s with host := .held } := by
  obtain ⟨h1, h2⟩ := h
  unfold execCxlMemAccess
  simp only [Nat.not_le.mpr h1, Nat.not_lt.mpr h2, decide_false, Bool.or_self, Bool.false_eq_true, if_false, State.hostPort,
    hb, Bool.not_false, if_true]

variable (hb : (s.atel (acc.addr / 2 ^ 53)).booted = true)
include hn hb

theorem execCxlMemAccess_load (hs : acc.store = none) :
    execCxlMemAccess acc s = .next { s with host :=
      (if s.poisonAt acc.addr acc.size then .poisoned else .data (word (s.numAt acc.addr acc.size)) : HostReply) } := by
  obtain ⟨h1, h2⟩ := h
  obtain ⟨hl, hf⟩ := forceLoc_none hn acc.addr
  unfold execCxlMemAccess
  simp only [Nat.not_le.mpr h1, Nat.not_lt.mpr h2, decide_false, Bool.or_self, Bool.false_eq_true, if_false, State.hostPort,
    hb, Bool.not_true, hf, hl, List.isEmpty_nil, hs]

theorem execCxlMemAccess_store {w : Word} (hs : acc.store = some w) (ht : s.touches = []) (ho : s.objects = []) :
    execCxlMemAccess acc s =
      .next { s.putBytes acc.addr ((toBytes 8 w.toNat).take acc.size) with host := .done } := by
  obtain ⟨h1, h2⟩ := h
  obtain ⟨hl, hf⟩ := forceLoc_none hn acc.addr
  unfold execCxlMemAccess
  simp only [Nat.not_le.mpr h1, Nat.not_lt.mpr h2, decide_false, Bool.or_self, Bool.false_eq_true, if_false, State.hostPort,
    hb, Bool.not_true, hf, hl, List.isEmpty_nil, hs, touchedAt_none ht, clobberLoc_none ho]

end InDram

theorem hostMemory_answers : Claim.HostMemory := by
  intro s acc hsz inside hn
  refine ⟨execCxlMemAccess_outside, fun hi hb => execCxlMemAccess_held hi hb, fun hi hb hs hp => ?_, fun hi hb hs hp => ?_,
    fun w hi hb hs ht ho => ?_⟩
  · rw [exec_cxlMemAccess, execCxlMemAccess_load hi hn hb hs, if_pos ((poisonAt_iff ..).mpr hp)]
  · have hc : ¬s.poisonAt acc.addr acc.size = true := by
      rw [poisonAt_iff]
      rintro ⟨b, hb, h1, h2⟩
      have := hp b hb
      omega
    rw [exec_cxlMemAccess, execCxlMemAccess_load hi hn hb hs, if_neg hc]
    rfl
  · exact ⟨_, execCxlMemAccess_store hi hn hb hs ht ho, wrote_of_noted (Noted.refl _), rfl⟩

/-! Writers and readers that no context is, and lines without a release (R304). -/

theorem find_uid_none {s : State} {uid : Nat} (h : ∀ c ∈ s.contexts, c.id.uid ≠ uid) :
    s.contexts.find? (fun c => c.id.uid = uid) = none := by
  simpa [List.find?_eq_none] using h

theorem readerOf_none {s : State} {uid : Nat} (h : ∀ c ∈ s.contexts, c.id.uid ≠ uid) : s.readerOf uid = none := by
  unfold State.readerOf
  rw [find_uid_none h]
  rfl

theorem tokenOf_none {s : State} {uid : Nat} (h : ∀ c ∈ s.contexts, c.id.uid ≠ uid) : s.tokenOf uid = 0 := by
  unfold State.tokenOf
  rw [find_uid_none h]

theorem narrowAt_unnoted {s : State} {ia n : Nat} (h : Unnoted s ia n) (reader : Option (Nat × Nat)) :
    s.narrowAt ia n reader = [] := by
  unfold State.narrowAt
  rw [List.filter_eq_nil_iff]
  intro r hr
  simp only [Bool.and_eq_true, decide_eq_true_eq]
  rintro ⟨⟨⟨h1, h2⟩, -⟩, -⟩
  rcases h r hr with h | h <;> omega

section Unwithheld

variable {s : State} {ia n : Nat} {reader : Option (Nat × Nat)} (h : s.narrowAt ia n reader = [])
include h

theorem withheld_none : s.withheld ia n reader = false := by simp [State.withheld, h]

theorem published_none : s.published ia n reader = s := by simp [State.published, h]

theorem forcePublish_none : s.forcePublish ia n reader = s := by
  unfold State.forcePublish
  simp [h, withheld_none h, published_none h]

end Unwithheld

/-! Stores of one part (R188, R199). -/

theorem performParts_single {s : State} {uid ia loc : Nat} {bs : List Byte} (hp : Plain s ia bs.length)
    (hn : s.narrowAt ia bs.length (s.readerOf uid) = []) (hm : s.meet ia .write (s.tokenOf uid) = (.ok loc, s))
    (hr : (s.readOnly loc bs.length && (s.readerOf uid).isSome) = false) :
    s.performParts uid [(ia, bs)] = (.done, [], s.storeAt ia loc bs (s.writerOf uid)) := by
  unfold State.performParts
  simp only [hp.2, withheld_none hn, published_none hn, hm, hr, Bool.false_and, Bool.or_self, Bool.false_eq_true, if_false]
  rfl

/-- A store within one granule is one part. -/
theorem partsOf_single {ia : Nat} {bs : List Byte} (h0 : 0 < bs.length) (hg : ia % 32 + bs.length ≤ 32) :
    partsOf ia (bs.length + 1) bs = [(ia, bs)] := by
  obtain ⟨n, hn⟩ : ∃ n, bs.length = n + 1 := ⟨bs.length - 1, by omega⟩
  have he : bs.isEmpty = false := by
    rw [List.isEmpty_eq_false_iff, ← List.length_pos_iff]; exact h0
  have ht : bs.take (32 - ia % 32) = bs := List.take_of_length_le (by omega)
  have hd : bs.drop (32 - ia % 32) = [] := List.drop_of_length_le (by omega)
  rw [hn]
  simp [partsOf, he, ht, hd]

/-- A write of the host that nothing holds up. -/
theorem hostWrite_single {s : State} {ia loc : Nat} {bs : List Byte} (hu : ∀ c ∈ s.contexts, c.id.uid ≠ 2 ^ 65)
    (hp : Plain s ia bs.length) (hn : Unnoted s ia bs.length) (h0 : 0 < bs.length) (hg : ia % 32 + bs.length ≤ 32)
    (hm : s.meet ia .write 0 = (.ok loc, s)) : ∃ t, s.hostWrite ia bs = (.done, t) ∧ Wrote s t loc bs := by
  have hr : s.readerOf hostUid = none := readerOf_none hu
  have ht : s.tokenOf hostUid = 0 := tokenOf_none hu
  refine ⟨_, ?_, wrote_of_noted (storeAt_plain (s.writerOf hostUid) hp)⟩
  unfold State.hostWrite
  rw [partsOf_single h0 hg, performParts_single hp (narrowAt_unnoted hn _) (ht ▸ hm) (by simp [hr])]

/-! The host's accesses through BAR0, BAR2 and BAR4 (R391, R392, R394). -/

theorem exec_hostBar0Access (pkg : Nat) (acc : HostAccess) (s : State) :
    exec (.hostBar0Access pkg acc) s = execHostBar0Access pkg acc s := rfl

theorem execHostBar0Access_held {s : State} {pkg : Nat} {acc : HostAccess} (hp : pkg < s.packages)
    (hb : (s.atel pkg).booted = false) : execHostBar0Access pkg acc s = .next { s with host := .held } := by
  simp [execHostBar0Access, State.hostPort, Nat.not_le.mpr hp, hb]

theorem execHostBar0Access_released {s : State} {pkg : Nat} {acc : HostAccess} (hp : pkg < s.packages)
    (hb : (s.atel pkg).booted = true) :
    execHostBar0Access pkg acc s = .next { (s.hostAccess pkg acc).2 with host := (s.hostAccess pkg acc).1 } := by
  simp [execHostBar0Access, State.hostPort, Nat.not_le.mpr hp, hb]

theorem hostAccess_bar0_none {s : State} {pkg : Nat} {acc : HostAccess} (hbar : acc.bar = .bar0)
    (h : ∀ c, rangeMap (if acc.store.isSome then .write else .read) acc.addr (s.hmap pkg) ≠ .ok c) :
    s.hostAccess pkg acc = (.unsupported, s) := by
  have hi : s.hostIa pkg acc.addr acc.store.isSome = none := by
    unfold State.hostIa
    cases hr : rangeMap (if acc.store.isSome then .write else .read) acc.addr (s.hmap pkg) with
    | error e => rfl
    | ok c => exact absurd hr (h c)
  simp [State.hostAccess, hbar, hi]

theorem hostAccess_bar0 {s : State} {pkg ia : Nat} {acc : HostAccess} (hbar : acc.bar = .bar0) (ha : acc.addr < 2 ^ 36)
    (h : rangeMap (if acc.store.isSome then .write else .read) acc.addr (s.hmap pkg) = .ok ia) :
    s.hostAccess pkg acc = s.hostAt pkg ia acc := by
  have hi : s.hostIa pkg acc.addr acc.store.isSome = some ia := by
    unfold State.hostIa
    rw [h]
    exact if_pos ha
  simp only [State.hostAccess, hbar, hi]

theorem hostAt_store {s : State} {pkg ia : Nat} {acc : HostAccess} {w : Word} (hp : HostPlace s ia) (hs : acc.store = some w) :
    s.hostAt pkg ia acc = s.hostWrite ia ((toBytes 8 w.toNat).take acc.size) := by
  unfold State.hostAt
  rcases hp with hp | ⟨d, hp⟩ | ⟨c, hp⟩ <;> simp only [hp, hs]

theorem hostAt_load {s : State} {pkg ia : Nat} {acc : HostAccess} (hp : HostPlace s ia) (hs : acc.store = none) :
    s.hostAt pkg ia acc = s.hostRead pkg 9 ia acc.size [] := by
  unfold State.hostAt
  rcases hp with hp | ⟨d, hp⟩ | ⟨c, hp⟩ <;> simp only [hp, hs]

theorem fromBytes_wordBytes (w : Word) {off : Nat} (h : off % 8 = 0) : fromBytes (wordBytes w off 8) = w.toNat := by
  have hl : (toBytes 8 w.toNat).take 8 = toBytes 8 w.toNat := List.take_of_length_le (by simp)
  rw [wordBytes, h, List.drop_zero, hl, fromBytes_toBytes]
  exact Nat.mod_eq_of_lt w.isLt

theorem mergeBytes_whole (u w : Word) {off : Nat} (h : off % 8 = 0) : mergeBytes u off (toBytes 8 w.toNat) = w := by
  have hd : (toBytes 8 u.toNat).drop (0 + (toBytes 8 w.toNat).length) = [] := List.drop_of_length_le (by simp)
  unfold mergeBytes
  dsimp only
  rw [h, List.take_zero, hd, List.nil_append, List.append_nil, fromBytes_toBytes]
  exact BitVec.eq_of_toNat_eq (by simpa using Nat.mod_eq_of_lt w.isLt)

/-- A doubleword written to an inbox window. -/
theorem inboxPut_word (s : State) (core off : Nat) (w : Word) (h : off % 8 = 0) :
    s.inboxPut 9 core off (toBytes 8 w.toNat) = s.inboxWrite core off w := by
  have hl : (toBytes 8 w.toNat).take 8 = toBytes 8 w.toNat := List.take_of_length_le (by simp)
  have hd : (toBytes 8 w.toNat).drop 8 = [] := List.drop_of_length_le (by simp)
  have he : (toBytes 8 w.toNat).isEmpty = false := by
    rw [List.isEmpty_eq_false_iff, ← List.length_pos_iff, toBytes_length]; decide
  have ho : off / 8 * 8 = off := by omega
  unfold State.inboxPut
  simp only [he, h, hl, hd, ho, mergeBytes_whole _ _ h, Bool.false_eq_true, if_false, Nat.sub_zero]
  rfl

/-- A read of PWR in BAR4. -/
theorem bar4At_pwr {s : State} {pkg : Nat} {acc : HostAccess} (ha : acc.addr = 0x108) (hs : acc.size = 8)
    (hst : acc.store = none) : s.bar4At pkg acc = (.data (s.ctlGet (pkg * 4) 0x758), s) := by
  have hr : s.bar4Read pkg 0x108 = s.ctlGet (pkg * 4) 0x758 := by simp [State.bar4Read, State.regRead]
  have hw := fromBytes_wordBytes (s.ctlGet (pkg * 4) 0x758) (show 0x108 % 8 = 0 by decide)
  unfold State.bar4At
  simp [ha, hs, hst, hr, hw, bar4Shape, word]

/-- A request of a package on a failed route for some of n bytes at a location (R393). -/
theorem lostFor_iff (pkg loc n : Nat) (r : Nat × Nat) :
    lostFor pkg loc n r = true ↔ r.1 = pkg ∧ r.2 * 32 < loc + n ∧ loc < r.2 * 32 + 32 := by
  simp [lostFor, and_assoc]

theorem endLost_eq (s : State) (pkg loc n : Nat) :
    s.endLost pkg loc n = { s with lost := s.lost.filter (fun r => !(lostFor pkg loc n r)) } := by
  unfold State.endLost
  split
  · rename_i h
    rw [List.isEmpty_iff] at h
    rw [h, List.filter_nil, ← h]
  · rfl

/-- A read of the host within one granule. -/
theorem hostRead_single {s : State} {pkg ia n loc : Nat} (hn : Unnoted s ia n) (h0 : 0 < n) (hg : ia % 32 + n ≤ 32)
    (hm : s.meet ia .read 0 = (.ok loc, s)) :
    s.hostRead pkg 9 ia n [] = if s.poisonedTo pkg loc n then (.poisoned, s.endLost pkg loc n)
      else (.data (word (fromBytes (s.bytesAt loc n))), s) := by
  have hk : min n (32 - ia % 32) = n := by omega
  have hr := narrowAt_unnoted hn none
  unfold State.hostRead
  rw [if_neg (by omega)]
  simp only [hk, forcePublish_none hr, withheld_none hr, Bool.false_eq_true, if_false, hm, List.nil_append,
    Nat.sub_self]
  rfl

theorem poisonedTo_iff (s : State) (pkg loc n : Nat) :
    s.poisonedTo pkg loc n = true ↔ (∃ b ∈ s.poison, loc ≤ b ∧ b < loc + n) ∨
      ∃ r ∈ s.lost, r.1 = pkg ∧ r.2 * 32 < loc + n ∧ loc < r.2 * 32 + 32 := by
  simp only [State.poisonedTo, Bool.or_eq_true, poisonAt_iff, List.any_eq_true, lostFor_iff]

/-- A staging word written through BAR2 (R392). -/
theorem hostAccess_stage {s : State} {pkg : Nat} {acc : HostAccess} {w : Word} (hbar : acc.bar = .bar2)
    (h1 : acc.addr < 0x200000) (h2 : 8 ≤ acc.addr % 0x1000) (h3 : acc.addr % 0x1000 < 0x40) (h4 : acc.addr % 8 = 0)
    (hs : acc.size = 8) (hst : acc.store = some w) :
    let k := pkg * 512 + acc.addr / 0x1000
    s.hostAccess pkg acc = (.done, s.setCore k { s.core k with
      stage := (s.core k).stage.set (acc.addr % 0x1000 / 8 - 1) w }) := by
  intro k
  have hl : (toBytes 8 w.toNat).take 8 = toBytes 8 w.toNat := List.take_of_length_le (by simp)
  rw [← inboxWrite_stage _ _ _ _ h2 h3, ← inboxPut_word _ _ _ _ (by omega)]
  simp only [State.hostAccess, hbar, Nat.not_le.mpr h1, if_false, State.inboxAt, hst, hs, hl]
  rfl

theorem wrote_host {s t : State} {loc : Nat} {bs : List Byte} (h : Wrote s t loc bs) :
    Wrote s { t with host := s.host } loc bs := by
  have hh : s.host = t.host := (congrArg State.host h.1 :).symm
  rw [hh]
  exact h

theorem hostWindow_answers : Claim.HostWindow := by
  intro s pkg acc hp
  refine ⟨execHostBar0Access_held hp, fun hb => ?_⟩
  have hrun : ∀ r t, s.hostAccess pkg acc = (r, t) → exec (.hostBar0Access pkg acc) s = .next { t with host := r } := by
    intro r t h
    rw [exec_hostBar0Access, execHostBar0Access_released hp hb, h]
  refine ⟨fun hbar h => hrun _ _ (hostAccess_bar0_none hbar h), ?_, ?_, ?_⟩
  · intro w hbar h1 h2 h3 h4 hs hst core
    exact ⟨_, hrun _ _ (hostAccess_stage hbar h1 h2 h3 h4 hs hst), rfl, onlyCore_setCore _ _ _⟩
  · intro hbar ha hs hst
    refine hrun _ _ ?_
    rw [State.hostAccess, hbar]
    exact bar4At_pwr ha hs hst
  · intro ia loc hbar ha hpl hn hg h0 h8 hu
    constructor
    · intro w hst hr hpn hm
      have hl := length_take_toBytes w.toNat acc.size h8
      obtain ⟨t, ht, hw⟩ := hostWrite_single (bs := (toBytes 8 w.toNat).take acc.size) hu
        (by rwa [hl]) (by rwa [hl]) (by rwa [hl]) (by rwa [hl]) hm
      have hacc := (hostAccess_bar0 hbar ha (by rwa [hst])).trans ((hostAt_store hpl hst).trans ht)
      exact ⟨_, hrun _ _ hacc, wrote_host (t := t) hw, rfl⟩
    · intro hst hr hm lost bad
      have hacc := (hostAccess_bar0 hbar ha (by rwa [hst])).trans ((hostAt_load hpl hst).trans (hostRead_single hn h0 hg hm))
      constructor
      · intro hbad
        exact hrun _ _ (hacc.trans (if_neg (fun h => hbad ((poisonedTo_iff ..).mp h))))
      · intro hbad
        rw [if_pos ((poisonedTo_iff ..).mpr hbad), endLost_eq] at hacc
        refine ⟨_, hrun _ _ hacc, rfl, rfl, fun r => ?_⟩
        simp only [List.mem_filter, Bool.not_eq_true', ← Bool.not_eq_true, lostFor_iff]
        rfl

/-! A context by its number. -/

theorem ctx_uid {s : State} {uid : Nat} {c : Context} (h : s.ctx uid = some c) : c.id.uid = uid := by
  have := List.find?_some h
  simp only [Bool.and_eq_true, decide_eq_true_eq] at this
  exact this.1

/-- Where no two contexts bear one number, the live one of a number is the one of that number. -/
theorem find_uid_ctx {s : State} {uid : Nat} {c : Context} (hd : Distinct s) (h : s.ctx uid = some c) :
    s.contexts.find? (fun c => c.id.uid = uid) = some c := by
  have hc := List.mem_of_find?_eq_some h
  have hu := ctx_uid h
  have hs : (s.contexts.find? (fun c => c.id.uid = uid)).isSome := by
    rw [List.find?_isSome]
    exact ⟨c, hc, by simpa using hu⟩
  obtain ⟨d, hf⟩ := Option.isSome_iff_exists.mp hs
  have hdu : d.id.uid = uid := by simpa using List.find?_some hf
  rw [hf, List.inj_on_of_nodup_map hd (List.mem_of_find?_eq_some hf) hc (hdu.trans hu.symm)]

section OwnContext

variable {s : State} {uid : Nat} {c : Context} (hd : Distinct s) (h : s.ctx uid = some c)
include hd h

theorem readerOf_ctx : s.readerOf uid = some (uid, c.id.core) := by
  unfold State.readerOf
  rw [find_uid_ctx hd h]
  rfl

theorem tokenOf_ctx : s.tokenOf uid = c.token := by
  unfold State.tokenOf
  rw [find_uid_ctx hd h]

end OwnContext

theorem contexts_mapCtx (s : State) (uid : Nat) (f : Context → Context) :
    (s.mapCtx uid f).contexts = s.contexts.map (fun c => if c.id.uid = uid && c.live then f c else c) := rfl

theorem ctx_mapCtx (s : State) (uid : Nat) (f : Context → Context) (hf : ∀ c, (f c).id = c.id ∧ (f c).sched = c.sched) :
    (s.mapCtx uid f).ctx uid = (s.ctx uid).map f := by
  have hp : (fun c : Context => decide (c.id.uid = uid) && c.live) ∘
      (fun c => if c.id.uid = uid && c.live then f c else c) = fun c => decide (c.id.uid = uid) && c.live := by
    funext c
    simp only [Function.comp]
    split
    · simp only [Context.live, (hf c).1, (hf c).2]
    · rfl
  unfold State.ctx
  rw [contexts_mapCtx, List.find?_map, hp]
  cases h : s.contexts.find? (fun c => decide (c.id.uid = uid) && c.live) with
  | none => rfl
  | some c => exact congrArg some (if_pos (List.find?_some (p := fun c : Context => decide (c.id.uid = uid) && c.live) h))

theorem onlyContext_mapCtx (s : State) (uid : Nat) (f : Context → Context) : OnlyContext s (s.mapCtx uid f) uid f := by
  refine ⟨rfl, ?_⟩
  rw [contexts_mapCtx]
  simp only [Bool.and_eq_true, decide_eq_true_eq]

/-! A posted store that is performed at once (R188, R199). -/

theorem Noted.ctx {s t : State} (h : Noted s t) (uid : Nat) : t.ctx uid = s.ctx uid :=
  (congrArg (fun v : State => v.ctx uid) (h : t.withNotes s = s) :)

/-- No reader meets a release where all that are noted are its own. -/
theorem narrowAt_own {s : State} {ia n uid core : Nat} (h : ∀ r ∈ s.narrow, r.uid = uid) :
    s.narrowAt ia n (some (uid, core)) = [] := by
  unfold State.narrowAt
  rw [List.filter_eq_nil_iff]
  intro r hr
  simp [h r hr]

/-- The oldest of a context's accesses in flight, alone among its posted stores, is let through its gate (R203). -/
theorem lets_oldest {c : Context} {g : Gate} {born : Nat} (h : c.oldest born) :
    g.lets { c.io with posted := [] } born = true := by
  obtain ⟨-, hr, hdr⟩ := h
  have h1 : c.io.reds.any (fun r => decide (r.born < born)) = false := by
    simpa using hr
  have h2 : c.io.drains.any (fun d => decide (d.born < born)) = false := by
    simpa using hdr
  have h3 : c.io.drains.any (fun d => d.counted = some (waitKind g.wait) && decide (d.born < born)) = false := by
    simp only [List.any_eq_false, Bool.and_eq_true, decide_eq_true_eq, not_and, not_lt]
    exact fun d hd _ => hdr d hd
  simp [Gate.lets, h1, h2, h3]

theorem refreshCounts_slot {s : State} {uid : Nat} {c : Context} (h : s.ctx uid = some c) (hp : c.sched.place = .slot) :
    s.refreshCounts uid = s := by
  unfold State.refreshCounts
  simp only [h, hp]

theorem regate_agenda (s : State) (uid : Nat) (before : InFlight) : ∃ a, s.regate uid before = { s with agenda := a } := by
  unfold State.regate
  dsimp only
  split
  · exact ⟨s.agenda, rfl⟩
  · split <;> exact ⟨_, rfl⟩

/-- A context without its posted stores. -/
def Context.unposted (c : Context) : Context := { c with io := { c.io with posted := [] } }

/-- A posted store of one part performed at a location. -/
def State.performedAt (s : State) (uid : Nat) (p : Posted) (ia loc : Nat) (bs : List Byte) : State :=
  (s.storeAt ia loc bs (s.writerOf uid)).gateDone uid p.gate [(ia, bs)] p.born

theorem performedAt_noted {s : State} {uid ia loc : Nat} {p : Posted} {bs : List Byte} (hp : Plain s ia bs.length) :
    Noted (s.putBytes loc bs) (s.performedAt uid p ia loc bs) := (storeAt_plain _ hp).trans (gateDone_noted ..)

section PostedAlone

variable {s : State} {uid ia loc : Nat} {c : Context} {p : Posted} {bs : List Byte} {f : Posted → Bool}
  (hd : Distinct s) (hc : s.ctx uid = some c) (hf : f p = true) (hh : p.held = false) (hk : p.kind ≠ .f ∧ p.kind ≠ .w)
  (ho : c.oldest p.born) (hps : s.partsAt p = .ok [(ia, bs)]) (hper : Performs s c .write ia loc bs.length)
include hd hc hk hps hper

theorem performPosted_single : s.performPosted uid p = (none, s.storeAt ia loc bs (s.writerOf uid)) := by
  obtain ⟨hp, hm, hro, hnr⟩ := hper
  rw [ctx_uid hc] at hnr
  unfold State.performPosted
  rw [if_neg hk.1, if_neg hk.2, hps]
  dsimp only
  rw [performParts_single hp (by rw [readerOf_ctx hd hc]; exact narrowAt_own hnr) (by rw [tokenOf_ctx hd hc]; exact hm)
    (by simp [hro])]

include hf hh ho

theorem runPosted_single : s.runPosted uid f [] [p] = ([], s.performedAt uid p ia loc bs) := by
  have hio : s.ioOf uid = c.io := by simp [State.ioOf, hc]
  unfold State.runPosted
  simp only [hh, hf, hio, lets_oldest ho, List.any_nil, Bool.not_true, Bool.or_self, Bool.false_eq_true, if_false, hps,
    performPosted_single hd hc hk hps hper]
  rfl

theorem drainPosted_single (hsl : c.sched.place = .slot) (hio : c.io.posted = [p]) :
    ∃ t1, Wrote s t1 loc bs ∧ OnlyContext t1 { s.drainPosted uid f with agenda := s.agenda } uid Context.unposted := by
  have hv := performedAt_noted (uid := uid) (loc := loc) (p := p) hper.1
  have hrun := runPosted_single hd hc hf hh hk ho hps hper
  generalize s.performedAt uid p ia loc bs = v at hv hrun
  have hcv : (v.mapCtx uid Context.unposted).ctx uid = some c.unposted := by
    rw [ctx_mapCtx v uid Context.unposted (fun _ => ⟨rfl, rfl⟩), hv.ctx]
    exact congrArg (Option.map Context.unposted) hc
  have ha : v.agenda = s.agenda := (congrArg State.agenda (hv : v.withNotes _ = _) :)
  obtain ⟨a, hra⟩ := regate_agenda (v.mapCtx uid Context.unposted) uid c.io
  have he : s.drainPosted uid f = { v.mapCtx uid Context.unposted with agenda := a } := by
    unfold State.drainPosted
    simp only [hc, hio, List.isEmpty_cons, Bool.false_eq_true, if_false, hrun]
    rw [← hra]
    exact congrArg (fun w : State => w.regate uid c.io) (refreshCounts_slot hcv hsl)
  refine ⟨v, wrote_of_noted hv, ?_⟩
  rw [he, ← ha]
  exact onlyContext_mapCtx v uid Context.unposted

end PostedAlone

/-! Global requests (R284, R285). -/

theorem exec_globalRequest (req : GlobalReq) (s : State) : exec (.globalRequest req) s = execGlobalRequest req s := rfl

/-- Whether a posted store is the one that a global request names. -/
def namedBy (req : GlobalReq) (p : Posted) : Bool := p.global && (p.parts.head?.map (fun q => q.1)) = some req.addr

theorem execGlobalRequest_ctx {s : State} {req : GlobalReq} {c : Context} (h : s.ctx req.uid = some c) :
    execGlobalRequest req s =
      .next (if c.io.posted.any (namedBy req) then s.drainPosted req.uid (namedBy req) else s) := by
  simp only [execGlobalRequest, h]
  rfl

theorem globalRequests_performed : Claim.GlobalRequests := by
  intro s req ia loc hd hu hm
  refine ⟨fun hc hp h0 h8 hg hn hmeet => ?_, fun c p bs hc hsl hio hh hk1 hk2 hgl hps ho hper => ?_⟩
  · have hl := length_take_toBytes req.value.toNat req.size h8
    obtain ⟨t, ht, hw⟩ := hostWrite_single (bs := (toBytes 8 req.value.toNat).take req.size) hu
      (by rwa [hl]) (by rwa [hl]) (by rwa [hl]) (by rwa [hl]) hmeet
    refine ⟨t, ?_, hw⟩
    rw [exec_globalRequest, execGlobalRequest]
    simp only [hc, hm, ht]
  · have hmine : namedBy req p = true := by simp [namedBy, hgl, hps]
    have hpa : s.partsAt p = .ok [(ia, bs)] := by simp [State.partsAt, hgl, hps, hm]
    obtain ⟨t1, hw, ho1⟩ := drainPosted_single hd hc hmine hh ⟨hk1, hk2⟩ ho hpa hper hsl hio
    refine ⟨_, t1, (exec_globalRequest ..).trans ((execGlobalRequest_ctx hc).trans ?_), hw, ho1⟩
    rw [if_pos (by simp [hio, hmine])]

/-! Errors (R361, R362, R393, R398). -/

theorem exec_machineCheckError (key : Nat) (corrected : Bool) (unit : BitVec 16) (syndrome : Word) (s : State) :
    exec (.machineCheckError key corrected unit syndrome) s = execMachineCheckError key corrected unit syndrome s := rfl

theorem exec_failedRoute (port key : Nat) (s : State) : exec (.failedRoute port key) s = execFailedRoute port key s := rfl

theorem holdsGranule_iff (s : State) (key die u : Nat) : s.holdsGranule key die u = true ↔ HeldBy s key die u := by
  unfold State.holdsGranule HeldBy
  cases s.whereIs (key * 32) <;>
    simp only [Bool.and_eq_true, Bool.or_eq_true, decide_eq_true_eq, or_assoc, Bool.false_eq_true] <;> rfl

/-- Some bit of a nonzero number below 2^32 is set. -/
theorem testBit_of_pos_lt {n : Nat} (h0 : 0 < n) (h1 : n < 2 ^ 32) : ∃ k, k < 32 ∧ n.testBit k = true := by
  obtain ⟨k, hk⟩ := Nat.exists_testBit_of_ne_zero h0.ne'
  exact ⟨k, (Nat.pow_lt_pow_iff_right (by omega)).mp ((Nat.ge_two_pow_of_testBit hk).trans_lt h1), hk⟩

theorem poisonSome_spoils (s : State) (key : Nat) : Spoils s (s.poisonSome key) key := by
  refine ⟨rfl, rfl, fun k => (s.draw.1 % (2 ^ 32 - 1) + 1).testBit k, ?_, fun b => ?_⟩
  · exact testBit_of_pos_lt (by omega) (by omega)
  · simp only [State.poisonSome, List.mem_eraseDups, List.mem_append, List.mem_map, List.mem_filter, List.mem_range]
    refine or_congr Iff.rfl ⟨?_, ?_⟩
    · rintro ⟨k, ⟨hk, hb⟩, rfl⟩
      rw [show (key * 32 + k) / 32 = key by omega, show (key * 32 + k) % 32 = k by omega]
      exact ⟨rfl, hb⟩
    · rintro ⟨rfl, hb⟩
      exact ⟨b % 32, ⟨by omega, hb⟩, by omega⟩

/-- A granule of memory after an error in it. -/
def State.struck (s : State) (key : Nat) (corrected : Bool) : State := if corrected then s else s.poisonSome key

theorem struck_marks (s : State) (key : Nat) (corrected : Bool) :
    if corrected = true then s.struck key corrected = s else Spoils s (s.struck key corrected) key := by
  cases corrected
  · exact poisonSome_spoils ..
  · rfl

theorem struck_ctl (s : State) (key : Nat) (corrected : Bool) : (s.struck key corrected).ctl = s.ctl := by
  cases corrected <;> rfl

theorem struck_tstamp (s : State) (key : Nat) (corrected : Bool) : (s.struck key corrected).tstamp = s.tstamp := by
  cases corrected <;> rfl

/-- The die that an error of a unit names, for a granule of a package. -/
def errorDie (key : Nat) (unit : BitVec 16) : Nat := key * 32 / 2 ^ 53 % 8 * 4 + unit.toNat / 2 ^ 14

/-- An error recorded at an IA. -/
def State.errorLogged (s : State) (key : Nat) (corrected : Bool) (unit : BitVec 16) (syndrome : Word) (ia : Nat) : State :=
  s.machineCheck (errorDie key unit) ia (unit.toNat % 2 ^ 14) (if corrected then 0 else 1) (if corrected then 0 else 0x13) 0
    syndrome

section MachineCheckError

variable (s : State) (key : Nat) (corrected : Bool) (unit : BitVec 16) (syndrome : Word)

variable (hp : errorDie key unit / 4 < s.packages)
include hp

theorem execMachineCheckError_held (hh : HeldBy s key (errorDie key unit) (unit.toNat % 2 ^ 14)) :
    execMachineCheckError key corrected unit syndrome s =
      .next (((s.granuleIa key).2.struck key corrected).errorLogged key corrected unit syndrome (s.granuleIa key).1) := by
  unfold execMachineCheckError
  exact (if_neg (Nat.not_le.mpr hp)).trans (if_pos ((holdsGranule_iff ..).mpr hh))

theorem execMachineCheckError_notHeld (hh : ¬HeldBy s key (errorDie key unit) (unit.toNat % 2 ^ 14)) :
    execMachineCheckError key corrected unit syndrome s =
      if unit.toNat % 2 ^ 14 / 2 ^ 11 < 2 && unit.toNat % 2 ^ 14 % 2 ^ 11 < 128 then
        .next (s.errorLogged key corrected unit syndrome 0)
      else .next s := by
  unfold execMachineCheckError
  exact (if_neg (Nat.not_le.mpr hp)).trans (if_neg (fun h => hh ((holdsGranule_iff ..).mp h)))

end MachineCheckError

theorem mem_routed {s : State} {port key p : Nat} : p ∈ s.routed port key ↔ (p, key * 32 / 2 ^ 53, port) ∈ s.routes := by
  simp only [State.routed, List.mem_map, List.mem_filter, Bool.and_eq_true, decide_eq_true_eq]
  exact ⟨fun ⟨⟨_, _, _⟩, ⟨h, rfl, rfl⟩, rfl⟩ => h, fun h => ⟨_, ⟨h, rfl, rfl⟩, rfl⟩⟩

/-- Requests for a granule spoilt by the failure of the routes that lead over a port, and a free value used up. -/
def State.routeFailed (s : State) (port key : Nat) : State :=
  { s.draw.2 with lost := (s.lost ++ (s.routed port key).map (fun p => (p, key))).eraseDups }

theorem mem_routeFailed_lost {s : State} {port key p k : Nat} : (p, k) ∈ (s.routeFailed port key).lost ↔
    (p, k) ∈ s.lost ∨ (k = key ∧ (p, key * 32 / 2 ^ 53, port) ∈ s.routes) := by
  simp only [State.routeFailed, List.mem_eraseDups, List.mem_append, List.mem_map, mem_routed, Prod.mk.injEq]
  refine or_congr Iff.rfl ⟨?_, ?_⟩
  · rintro ⟨_, h, rfl, rfl⟩
    exact ⟨rfl, h⟩
  · rintro ⟨rfl, h⟩
    exact ⟨p, h, rfl, rfl⟩

theorem errors_recorded : Claim.Errors := by
  intro s key
  constructor
  · intro corrected unit syndrome die u record ran marks hp hroom
    refine ⟨fun hh hw => ?_, fun hh hw => ?_, fun hh h1 h2 => ?_, fun hh h => ?_⟩
    · have hi : s.granuleIa key = (key * 32, s) := by simp [State.granuleIa, State.pageable, hw]
      have he := execMachineCheckError_held s key corrected unit syndrome hp hh
      rw [hi] at he
      exact ⟨_, s.struck key corrected, he, struck_marks ..,
        machineCheck_reports_of hroom (struck_ctl ..) (struck_tstamp ..) ..⟩
    · have hi : s.granuleIa key = (s.draw.1 % 2 ^ 56, s.draw.2) := by simp [State.granuleIa, State.pageable, hw]
      have he := execMachineCheckError_held s key corrected unit syndrome hp hh
      rw [hi] at he
      exact ⟨_, s.draw.2.struck key corrected, s.draw.1 % 2 ^ 56, he, Nat.mod_lt _ (by decide), struck_marks ..,
        machineCheck_reports_of hroom (struck_ctl s.draw.2 ..) (struck_tstamp s.draw.2 ..) ..⟩
    · refine ⟨_, (execMachineCheckError_notHeld s key corrected unit syndrome hp hh).trans (if_pos ?_),
        machineCheck_reports hroom ..⟩
      simp only [Bool.and_eq_true, decide_eq_true_eq]
      exact ⟨h1, h2⟩
    · refine (execMachineCheckError_notHeld s key corrected unit syndrome hp hh).trans (if_neg ?_)
      simp only [Bool.and_eq_true, decide_eq_true_eq]
      omega
  · intro port die hroom
    have hr := machineCheck_reports_of (v := s.routeFailed port key) hroom rfl rfl 0 (unitOf 5 port) 1 0x13 0
      (BitVec.ofNat 64 (s.draw.1 / 32))
    rw [unitOf, ← Nat.add_assoc] at hr
    exact ⟨_, s.routeFailed port key, _, exec_failedRoute .., rfl, fun p k => mem_routeFailed_lost, hr⟩

/-- Settles O57, claim by claim: a write of the host and one from beyond are one part of a store that nothing holds up, a GST on
its way is the only posted store of its context, and an error leaves its record in a ring that has room. -/
theorem hostSteps : Obligations.HostSteps :=
  ⟨hostWindow_answers, hostMemory_answers, registerWrites_stored, globalRequests_performed, flits_delivered,
    errors_recorded⟩

end Sys2Proof.Machine
end

section
/-! PROOF. Scalar loads and stores that trap (O11): the checks of an access that fail, each with its cause and its address. -/

namespace Sys2Proof.Machine

/-! The checks of an address that fail, and the traps they raise (R80, R176, R177, R192). -/

/-- A function of the answer of an action that stopped. -/
theorem op_map_error {α β : Type} {x : Op α} {f : α → β} {s t : State} {e : Stop} (h : x s = .error e t) :
    (f <$> x) s = .error e t := by
  show EStateM.map f x s = _
  unfold EStateM.map
  rw [h]

/-- An instruction that stops with a cause and an address for EADDR, and has changed nothing, traps. -/
theorem does_traps {s : State} {op : Op Unit} {cause info : Nat} (h : TrapReady s) (hc : cause ≠ 1 ∧ cause ≠ 2)
    (ho : op s = .error (.trap cause (some (BitVec.ofNat 64 info))) s) :
    ∃ t, s.does op = .next t ∧
      Traps s t cause s.cur.reg.edepth s.cur.reg.pc (BitVec.ofNat 64 info) s.cur.reg.pc :=
  ⟨_, does_error ho, deliverTrap_spec h cause (some (BitVec.ofNat 64 info)) .device (by decide) (.inl hc)⟩

theorem effectiveVa_error {s : State} {base : Word} {off : Int} {size al cause info : Nat}
    (h : s.cur.effective base off size = .error (cause, info)) :
    effectiveVa base off size al s = .error (.trap cause (some (BitVec.ofNat 64 info))) s := by
  simp [effectiveVa, h]

theorem effectiveVa_misaligned {s : State} {base : Word} {off : Int} {size al va : Nat}
    (h : s.cur.effective base off size = .ok va) (ha : va % al ≠ 0) :
    effectiveVa base off size al s = .error (.trap 0x04 (some (BitVec.ofNat 64 va))) s := by
  simp [effectiveVa, h, ha]

theorem mapSpot_unmapped {s : State} {k : Access} {va cause : Nat} (w : Bool) (hv : va < 2 ^ 60)
    (h : s.cur.mapVa k va = .error cause) : mapSpot va k w s = .error (.trap cause (some (BitVec.ofNat 64 va))) s := by
  unfold mapSpot
  rw [if_neg (Nat.not_le.mpr hv)]
  simp [h]

theorem mapSpot_checked {s : State} {k : Access} {va ia cause : Nat} (w : Bool) (hv : va < 2 ^ 60)
    (h : s.cur.mapVa k va = .ok ia) (hc : s.checkIa s.cur ia k w = some cause) :
    mapSpot va k w s = .error (.trap cause (some (BitVec.ofNat 64 va))) s := by
  unfold mapSpot
  rw [if_neg (Nat.not_le.mpr hv)]
  simp [h, hc]

/-- RANGE_FAULT and SEG_LIMIT are the causes of an effective address that fails (R80). -/
theorem effective_error_cause {c : Context} {base : Word} {off : Int} {n cause info : Nat}
    (h : c.effective base off n = .error (cause, info)) : cause = 0x05 ∨ cause = 0x08 := by
  unfold Context.effective at h
  grind

/-- RANGE_FAULT and PERMISSION are the causes of an address that no range maps (R176). -/
theorem rangeMap_error_cause {k : Access} {va cause : Nat} {l : List (BitVec 128)}
    (h : rangeMap k va l = .error cause) : cause = 0x05 ∨ cause = 0x07 := by
  induction l with
  | nil => exact .inl (Except.error.inj h).symm
  | cons a rest ih =>
    unfold rangeMap at h
    split at h
    · split at h
      · cases h
      · exact .inr (Except.error.inj h).symm
    · exact ih h

theorem cowBreak_fail_cause {s t : State} {ia loc e log token cause : Nat}
    (h : s.cowBreak ia loc e log token = (.fail cause, t)) : cause = 0x06 := by
  unfold State.cowBreak at h
  grind

/-- TRANSLATION_FAULT and PERMISSION are the causes of an access that the memory side refuses (R181 to R186). -/
theorem meet_fail_cause {s t : State} {ia token cause : Nat} {k : Access} (h : s.meet ia k token = (.fail cause, t)) :
    cause = 0x06 ∨ cause = 0x07 := by
  unfold State.meet at h
  grind [cowBreak_fail_cause]

/-- What the place of an access that a context may not make raises (R177). -/
theorem checkIa_user {s : State} {c : Context} {ia : Nat} (k : Access) (w : Bool) (h : c.id.sup = false) :
    (s.whereIs ia = .reserved → s.checkIa c ia k w = some 0x05) ∧
    ((∃ j o, s.whereIs ia = .inbox j o) ∨ (∃ d o, s.whereIs ia = .control d o) ∨
      (∃ j, s.whereIs ia = .tcm j ∧ j ≠ c.id.core) → s.checkIa c ia k w = some 0x07) := by
  unfold State.checkIa
  refine ⟨fun e => by rw [e], ?_⟩
  rintro (⟨j, o, e⟩ | ⟨d, o, e⟩ | ⟨j, e, hj⟩)
  · simp [e, h]
  · simp [e, h]
  · simp [e, hj]

/-! The memory side (R183, R186, R25). -/

theorem reach_fail {s : State} {k : Access} {va ia cause : Nat} (n : Nat) (h : s.meet ia k s.cur.token = (.fail cause, s)) :
    reach ⟨va, ia⟩ k n s = .error (.trap cause (some (BitVec.ofNat 64 va))) s := by
  simp [reach, h]

theorem reach_readOnly {s : State} {va ia loc n : Nat} (h : s.meet ia .write s.cur.token = (.ok loc, s))
    (hr : s.readOnly loc n = true) :
    reach ⟨va, ia⟩ .write n s = .error (.trap 0x07 (some (BitVec.ofNat 64 va))) s := by
  simp [reach, h, hr]

/-- A load of a context with nothing in flight comes to the memory side once its address is checked. -/
theorem load_reach_error {s : State} {f : AccessForm} {va ia : Nat} {e : Stop} (h : Still s)
    (hr : ∀ w, resolve (s.arg f.a) f.off f.n .read w s = .ok ⟨va, ia⟩ s) (ha : s.atomicAt ia s.cur.id.core = true)
    (hm : reach ⟨va, ia⟩ .read 1 s = .error e s) : load f.t f.a f.m f.off f.n f.len s = .error e s := by
  have hread : readMem ⟨va, ia⟩ f.n s = .error e s := by
    unfold readMem
    rw [op_bind_ok (settle_still _ _ h), op_bind_ok (forcePublish_still _ _ h), op_bind_error hm]
  have hspot : readSpot ⟨va, ia⟩ f.n s = .error e s := by
    unfold readSpot
    rcases atomicAt_cases ha with h' | ⟨c, h'⟩ | ⟨c, h'⟩ | h' <;> simp [h', hread]
  have hinv : readInv ⟨va, ia⟩ f.n s = .error e s := by
    unfold readInv
    simp only [inGlaze_bind_run, h.2.1, Option.isSome_none, Bool.false_eq_true, if_false]
    rw [op_bind_ok (settle_still _ _ h), op_bind_ok (forcePublish_still _ _ h), op_bind_error hm]
  unfold load
  simp only [readX_bind_run, x_eq]
  rw [op_bind_ok (hr _), op_bind_ok (loadWaits_still _ h)]
  simp only [get_bind_run]
  split
  · exact op_bind_error hinv
  · exact op_bind_error hspot

/-- A store of a context with nothing in flight, that no counter counts, comes to the memory side once its address is
checked. -/
theorem store_reach_error {s : State} {f : AccessForm} {va ia : Nat} {e : Stop} (h : Still s)
    (hr : ∀ w, resolve (s.arg f.a) f.off f.n .write w s = .ok ⟨va, ia⟩ s) (ha : s.atomicAt ia s.cur.id.core = true)
    (hk : s.postKind s.cur ia (f.m.cls = 2) = none) (hm : reach ⟨va, ia⟩ .write f.n s = .error e s) :
    store f.t f.a f.m f.off f.n f.len s = .error e s := by
  have hprep : prepare ⟨va, ia⟩ f.n s = .error e s := by
    unfold prepare
    rw [op_bind_ok (settle_still _ _ h), op_bind_ok (forcePublish_still _ _ h), op_bind_error hm]
  have hspot : prepareSpot ⟨va, ia⟩ f.n s = .error e s := by
    unfold prepareSpot
    simp only [get_bind_run]
    rcases atomicAt_cases ha with h' | ⟨c, h'⟩ | ⟨c, h'⟩ | h' <;> simp only [h'] <;> exact op_map_error hprep
  unfold store
  simp only [readX_bind_run, x_eq]
  rw [op_bind_ok (hr _)]
  simp only [readX_bind_run, get_bind_run, hk]
  exact op_bind_error hspot

/-! Loads and stores. -/

theorem offM_one (off : BitVec 9) : offM off 1 = off.toInt := Int.mul_one _

theorem exec_of_loadRow {i : Instr} {f : AccessForm} (h : loadRow i = some f) (s : State) :
    exec i s = s.does (load f.t f.a f.m f.off f.n f.len) := by
  unfold loadRow at h
  split at h <;> cases h
  · exact congrArg (fun o => s.does (load _ _ _ o 1 4)) (offM_one _)
  all_goals rfl

theorem exec_of_storeRow {i : Instr} {f : AccessForm} (h : storeRow i = some f) (s : State) :
    exec i s = s.does (store f.t f.a f.m f.off f.n f.len) := by
  unfold storeRow at h
  split at h <;> cases h
  · exact congrArg (fun o => s.does (store _ _ _ o 1 4)) (offM_one _)
  all_goals rfl

/-- A scalar load or store, of a kind of access. -/
def Accesses (i : Instr) (f : AccessForm) (k : Access) : Prop :=
  (loadRow i = some f ∧ k = .read) ∨ (storeRow i = some f ∧ k = .write)

section Accesses

variable {s : State} {i : Instr} {f : AccessForm} {k : Access} (hi : Accesses i f k) (hs : TrapReady s)
include hi hs

/-- A load or store whose address is refused traps. -/
theorem access_traps_resolve {cause info : Nat} (hc : cause ≠ 1 ∧ cause ≠ 2)
    (hr : ∀ w, resolve (s.arg f.a) f.off f.n k w s = .error (.trap cause (some (BitVec.ofNat 64 info))) s) :
    ∃ t, exec i s = .next t ∧
      Traps s t cause s.cur.reg.edepth s.cur.reg.pc (BitVec.ofNat 64 info) s.cur.reg.pc := by
  rcases hi with ⟨hi, rfl⟩ | ⟨hi, rfl⟩
  · rw [exec_of_loadRow hi]
    exact does_traps hs hc ((readX_bind_run ..).trans (op_bind_error (hr _)))
  · rw [exec_of_storeRow hi]
    exact does_traps hs hc ((readX_bind_run ..).trans (op_bind_error (hr _)))

/-- A load or store that the memory side refuses traps. -/
theorem access_traps_reach {cause va ia : Nat} (hc : cause ≠ 1 ∧ cause ≠ 2) (h : Still s)
    (hr : ∀ w, resolve (s.arg f.a) f.off f.n k w s = .ok ⟨va, ia⟩ s) (ha : s.atomicAt ia s.cur.id.core = true)
    (hk : k = .write → s.postKind s.cur ia (f.m.cls = 2) = none)
    (hm : ∀ n, (k = .write → n = f.n) → reach ⟨va, ia⟩ k n s = .error (.trap cause (some (BitVec.ofNat 64 va))) s) :
    ∃ t, exec i s = .next t ∧
      Traps s t cause s.cur.reg.edepth s.cur.reg.pc (BitVec.ofNat 64 va) s.cur.reg.pc := by
  rcases hi with ⟨hi, rfl⟩ | ⟨hi, rfl⟩
  · rw [exec_of_loadRow hi]
    exact does_traps hs hc (load_reach_error h hr ha (hm 1 nofun))
  · rw [exec_of_storeRow hi]
    exact does_traps hs hc (store_reach_error h hr ha (hk rfl) (hm f.n fun _ => rfl))

end Accesses

/-- Settles O11: each check of an access stops it with its cause and the address, in the order in which the checks are
made, and what stops so traps with nothing else changed. -/
theorem accessTraps : Obligations.AccessTraps := by
  intro s i f k hs hi
  refine ⟨fun cause info he => ?_, fun va he => ⟨fun ha => ?_, fun cause ha hv hm => ?_, fun ia ha hv hm => ⟨?_, ?_, ?_⟩⟩⟩
  · have hc := effective_error_cause he
    exact access_traps_resolve hi hs (by omega) fun _ => op_bind_error (effectiveVa_error he)
  · exact access_traps_resolve hi hs (by decide) fun _ => op_bind_error (effectiveVa_misaligned he ha)
  · have hc := rangeMap_error_cause hm
    exact access_traps_resolve hi hs (by omega) fun w =>
      (op_bind_ok (effectiveVa_ok he ha)).trans (mapSpot_unmapped w hv hm)
  · intro hw
    exact access_traps_resolve hi hs (by decide) fun w =>
      (op_bind_ok (effectiveVa_ok he ha)).trans (mapSpot_checked w hv hm ((checkIa_user k w hs.1).1 hw))
  · intro hw
    exact access_traps_resolve hi hs (by decide) fun w =>
      (op_bind_ok (effectiveVa_ok he ha)).trans (mapSpot_checked w hv hm ((checkIa_user k w hs.1).2 hw))
  · intro hat h hk
    have hr (w : Bool) := resolve_maps w he ha ⟨hv, hm, hat⟩ h.2.1
    refine ⟨fun cause hf => ?_, ?_⟩
    · have hc := meet_fail_cause hf
      exact access_traps_reach hi hs (by omega) h hr hat hk fun n _ => reach_fail n hf
    · rintro loc rfl hl ho
      exact access_traps_reach hi hs (by decide) h hr hat hk fun n hn => by
        rw [hn rfl]
        exact reach_readOnly hl ho

end Sys2Proof.Machine
end

section
/-! PROOF. Messages (O56): those that come to a mailbox or to a message ring, the posts of the host, and the agent's work on a
SPAWN message. -/

namespace Sys2Proof.Machine

/-! Events, cluster by cluster (R390). -/

theorem counted_none {c : Cluster} {src : Nat} (h : c.counters.any (fun k => k.src = src) = false) : c.counted src = c := by
  have he : c.counters.map (fun e => if e.src = src then { e with value := (e.value + 1) % 2 ^ 64 } else e) = c.counters := by
    conv_rhs => rw [← List.map_id c.counters]
    refine List.map_congr_left fun e he => if_neg ?_
    simpa using List.any_eq_false.mp h e he
  unfold Cluster.counted
  rw [he]

theorem cluster_event (s : State) (cl src k : Nat) :
    (s.event cl src).cluster k = if k = cl then (s.cluster k).counted src else s.cluster k := by
  unfold State.event
  dsimp only
  split
  · refine (tabGet_tabPut ..).trans ?_
    by_cases h : k = cl
    · subst h; rfl
    · rw [if_neg h, if_neg h]; rfl
  · rename_i hn
    split
    · rename_i h
      rw [h, counted_none (by simpa using hn)]
    · rfl

/-! A message that its agent accepts (R277). -/

/-- The first message of the network, once its agent accepts it. -/
theorem bringMail_accepted {s s1 : State} {n : NetMsg} {rest : List NetMsg} {f : NetMsg → Bool} (hn : s.net = n :: rest)
    (hf : f n = true) (ha : s.arrive n.dest n.msg = .accepted s1) :
    s.bringMail f = ({ s1 with net := rest } : State).answered n 0 none := by
  unfold State.bringMail
  rw [hn, State.deliverNet]
  simp only [hf, ha, behind, List.any_nil, Bool.not_true, Bool.or_self, Bool.false_eq_true, if_false, List.nil_append]

theorem answered_unawaited {n : NetMsg} (s : State) (h : n.awaited = false) : s.answered n 0 none = s := by
  simp [State.answered, h]

/-- What an MSEND that waits for its answer is given. -/
def Context.replied (c : Context) : Context :=
  if c.sync.wait = .reply then { c with sync := { c.sync with grant := some 0 } } else c

theorem answered_awaited {n : NetMsg} (s : State) (h : n.awaited = true) :
    s.answered n 0 none = s.mapCtx n.sender Context.replied := by
  simp only [State.answered, h, Option.isSome_none, Bool.not_true, Bool.false_and, Bool.or_self, Bool.false_eq_true, if_false,
    if_true]
  rfl

/-! Mailboxes (R277, R278). -/

theorem bitsOf_low (w : Word) (k : Nat) : bitsOf w k 0 = w.toNat % 2 ^ (k + 1) := by simp [bitsOf]

/-- Where no two contexts bear one number, what becomes of the contexts of a number is what becomes of the live one. -/
theorem mapCtx_congr {s : State} {uid : Nat} {c : Context} {f g : Context → Context} (hd : Distinct s)
    (hc : s.ctx uid = some c) (h : f c = g c) : s.mapCtx uid f = s.mapCtx uid g := by
  have he : ∀ d ∈ s.contexts, (if d.id.uid = uid && d.live then f d else d) = if d.id.uid = uid && d.live then g d else d := by
    intro d hm
    by_cases hu : (decide (d.id.uid = uid) && d.live) = true
    · have hdc : d = c := List.inj_on_of_nodup_map hd hm (List.mem_of_find?_eq_some hc)
        ((by simpa using hu : d.id.uid = uid ∧ d.live = true).1.trans (ctx_uid hc).symm)
      rw [hdc, h]
    · rw [if_neg hu, if_neg hu]
  have ho := List.map_congr_left fun d (hm : d ∈ s.others) => he d (List.mem_cons_of_mem _ hm)
  simp only [State.mapCtx, State.mapAll, he s.cur List.mem_cons_self, ho]

theorem arrive_mailbox {s : State} {n : NetMsg} {c : Context} (hd : Distinct s) (h : Accepts s n.dest c) :
    s.arrive n.dest n.msg = .accepted (s.mapCtx c.id.uid (Context.take c.id.core n.msg)) := by
  obtain ⟨hb, hm, hc, hp, hf, hr⟩ := h
  have ha : s.accept c.id.uid n.msg = some (s.mapCtx c.id.uid (fun d => d.pushInbox n.msg d.id.core)) := by
    have hroom : (decide (c.mail.guaranteed < 3) || decide (0 < s.sharedFree c.id.core)) = true := by
      rw [Bool.or_eq_true, decide_eq_true_iff, decide_eq_true_iff]
      exact hr
    unfold State.accept
    simp only [hc, Context.resident, hp, hf, decide_true, Bool.not_true, List.isEmpty_nil, Bool.or_self, Bool.false_eq_true,
      if_false, hroom, if_true]
  unfold State.arrive
  simp only [hb, Bool.false_eq_true, if_false, bitsOf_low, hm, ha]
  exact congrArg Answer.accepted (mapCtx_congr hd hc rfl)

theorem arrive_nobody {s : State} {n : NetMsg} (hb : n.dest.getLsbD 37 = false)
    (hm : s.mailbox (destCore n.dest) (n.dest.toNat % 2 ^ 6) = none) :
    s.arrive n.dest n.msg = .accepted (s.event (destCore n.dest / 4) 16) := by
  unfold State.arrive
  simp only [hb, Bool.false_eq_true, if_false, bitsOf_low, hm]
  rfl

theorem msgType_eq (h : Word) : msgType h = h.toNat / 2 ^ 56 := by
  have := h.isLt
  unfold msgType bitsOf
  omega

/-- The instructions that bring a message of a type to a mailbox. -/
def Brings (i : Instr) (n : NetMsg) : Prop :=
  i = .user n.dest n.msg ∧ n.msg.header.toNat / 2 ^ 56 = 1 ∨ i = .ferryDone n.dest n.msg ∧ n.msg.header.toNat / 2 ^ 56 = 2 ∨
    i = .blocksum n.dest n.msg ∧ n.msg.header.toNat / 2 ^ 56 = 4

theorem exec_brings {i : Instr} {n : NetMsg} (h : Brings i n) (hb : n.dest.getLsbD 37 = false) (s : State) :
    ∃ f : NetMsg → Bool, f n = true ∧ exec i s = .next (s.bringMail f) := by
  have hf (type : Nat) (ht : n.msg.header.toNat / 2 ^ 56 = type) : mailIs type n.dest n.msg n = true := by
    unfold mailIs
    rw [msgType_eq, ht, hb]
    simp
  obtain ⟨rfl, ht⟩ | ⟨rfl, ht⟩ | ⟨rfl, ht⟩ := h
  · exact ⟨_, hf 1 ht, rfl⟩
  · exact ⟨_, hf 2 ht, rfl⟩
  · exact ⟨_, hf 4 ht, rfl⟩

theorem mailboxes_entered : Claim.Mailboxes := by
  intro s i n rest hd hn type hi
  constructor
  · intro c hc
    obtain ⟨f, hf, he⟩ := exec_brings hi hc.1 s
    refine ⟨_, _, he, onlyContext_mapCtx { s with net := rest } c.id.uid (Context.take c.id.core n.msg), fun ha => ?_,
      fun ha => ?_⟩
    · rw [bringMail_accepted hn hf (arrive_mailbox hd hc), answered_unawaited _ ha]
      rfl
    · rw [bringMail_accepted hn hf (arrive_mailbox hd hc), answered_awaited _ ha]
      exact onlyContext_mapCtx _ n.sender Context.replied
  · intro hb hm ha
    obtain ⟨f, hf, he⟩ := exec_brings hi hb s
    rw [bringMail_accepted hn hf (arrive_nobody hb hm), answered_unawaited _ ha] at he
    exact ⟨_, he, congrArg (fun v : State => { v with net := s.net }) (event_fields s (destCore n.dest / 4) 16), rfl,
      fun k => cluster_event s (destCore n.dest / 4) 16 k⟩

/-! Message rings (R25, R281). -/

/-- A store that meets no watched object writes its bytes and no others. -/
theorem wrote_storeAt {s : State} (h : s.objects = []) (ia loc : Nat) (bs : List Byte) (w : Writer) :
    Wrote s (s.storeAt ia loc bs w) loc bs := by
  refine wrote_of_noted ?_
  unfold State.storeAt
  rw [clobber_plain (by simp [h])]
  exact (putBy_noted ..).trans (announce_noted ..)

/-- A store outside pageable memory leaves no object watched that was not. -/
theorem storeAt_objects {s : State} (h : s.objects = []) {ia : Nat} (hp : s.whereIs ia ≠ .pageable) (loc : Nat) (bs : List Byte)
    (w : Writer) : (s.storeAt ia loc bs w).objects = [] := by
  have hw : (s.putBy w loc bs).whereIs ia ≠ .pageable := hp
  unfold State.storeAt
  rw [clobber_plain (by simp [h])]
  unfold State.announce
  dsimp only
  rw [if_pos (by simp [hw])]
  exact h

theorem Wrote.setNet {s t : State} {loc : Nat} {bs : List Byte} (h : Wrote s t loc bs) (net : List NetMsg) :
    Wrote { s with net := net } { t with net := net } loc bs :=
  ⟨congrArg (fun v : State => { v with net := net }) h.1, h.2⟩

/-- Part of a stretch of memory in which no capability list lies has none (R25). -/
theorem readOnly_within {s : State} {loc n a k : Nat} (h : s.readOnly loc n = false) (h1 : loc ≤ a) (h2 : a + k ≤ loc + n) :
    s.readOnly a k = false := by
  unfold State.readOnly at h ⊢
  rw [List.any_eq_false] at h ⊢
  intro p hp
  have := h p hp
  simp only [Bool.and_eq_true, decide_eq_true_eq, not_and, not_lt] at this ⊢
  omega

/-- Pageable memory is the lower half of a package's addresses (R177). -/
theorem whereIs_low {s : State} {ia : Nat} (hp : ia / 2 ^ 53 < s.packages) (h : ia % 2 ^ 53 < 2 ^ 52) :
    s.whereIs ia = .pageable := by
  unfold State.whereIs
  dsimp only
  rw [if_neg (Nat.not_le.mpr hp)]
  exact if_pos h

theorem whereIs_package {s : State} {ia : Nat} (h : s.whereIs ia ≠ .reserved) : ia / 2 ^ 53 < s.packages := by
  by_contra hp
  exact h (if_pos (Nat.not_lt.mp hp))

theorem whereIs_high {s : State} {ia : Nat} (h : 2 ^ 52 ≤ ia % 2 ^ 53) : s.whereIs ia ≠ .pageable := by
  unfold State.whereIs
  dsimp only
  split
  · exact nofun
  · refine (if_neg (Nat.not_lt.mpr h)).trans_ne ?_
    grind

/-- What lies in the same SRAM as another place lies above pageable memory. -/
theorem sameSram_high {s : State} {a b : Nat} (h : s.sameSram a b = true) : 2 ^ 52 ≤ b % 2 ^ 53 := by
  have hne : s.whereIs b ≠ .reserved ∧ s.whereIs b ≠ .pageable := by
    unfold State.sameSram at h
    split at h <;> simp_all
  by_contra hlt
  exact hne.2 (whereIs_low (whereIs_package hne.1) (Nat.not_le.mp hlt))

/-! A ring that a message fits into. -/

/-- The header of a message ring at an IA, as the ring of R281 has it: the size and the place of its data area. -/
theorem msgRingOk_area {s : State} {ia : Nat} (h : s.msgRingOk ia = true) : 64 ≤ s.numAt ia 4 ∧ s.numAt ia 4 ≤ 2 ^ 24 ∧
    2 ^ 52 ≤ s.numAt (ia + 8) 8 % 2 ^ 53 ∧ 2 ^ 52 ≤ (s.numAt (ia + 8) 8 + s.numAt ia 4 - 1) % 2 ^ 53 := by
  simp only [State.msgRingOk, Bool.and_eq_true, decide_eq_true_eq] at h
  obtain ⟨⟨⟨⟨⟨⟨⟨h1, h2⟩, -⟩, -⟩, -⟩, h3⟩, h4⟩, -⟩ := h
  exact ⟨h1, h2, sameSram_high h3, sameSram_high h4⟩

/-- A place in the data area of a message ring (R281). -/
theorem area_high {data size o : Nat} (hs : size ≤ 2 ^ 24) (ho : o < size) (h1 : 2 ^ 52 ≤ data % 2 ^ 53)
    (h2 : 2 ^ 52 ≤ (data + size - 1) % 2 ^ 53) : 2 ^ 52 ≤ (data + o) % 2 ^ 53 := by
  omega

/-- No capability list lies where a message goes in the data area of a ring that has none. -/
theorem wrapsReadOnly_none {s : State} {data size at_ n : Nat} (h : s.readOnly data size = false) (h0 : 0 < size)
    (hn : n ≤ size) : s.wrapsReadOnly data size at_ n = false := by
  have ho := Nat.mod_lt at_ h0
  have h1 : s.readOnly (data + at_ % size) (min n (size - at_ % size)) = false := readOnly_within h (by omega) (by omega)
  have h2 : s.readOnly data (n - (size - at_ % size)) = false := readOnly_within h (by omega) (by omega)
  simp [State.wrapsReadOnly, h1, h2]

/-- A message ring that takes a message of some bytes: its header keeps to its layout, no release is noted with it, no
capability list lies where the message and WR go, and there is room. -/
def Takes (s : State) (dest : Word) (n : Nat) : Prop :=
  let ia := s.gwIa (destCore dest) (dest.toNat % 2 ^ 37)
  let size := s.numAt ia 4
  dest.toNat % 2 ^ 37 < s.gwLength (destCore dest) ∧ Unnoted s ia 64 ∧ s.msgRingOk ia = true ∧
    (s.numAt (ia + 0x10) 4 + 2 ^ 32 - s.numAt (ia + 0x14) 4) % 2 ^ 32 + n ≤ size ∧ s.readOnly (ia + 0x10) 4 = false ∧
    s.readOnly (s.numAt (ia + 8) 8) size = false

theorem ringMessage_taken {s : State} {dest : Word} {m : Message} (h : Takes s dest (messageOctets m).length) :
    let ia := s.gwIa (destCore dest) (dest.toNat % 2 ^ 37)
    let wr := s.numAt (ia + 0x10) 4
    s.ringMessage dest m = .accepted ((s.writeWrapped (s.numAt (ia + 8) 8) (s.numAt ia 4) wr (messageOctets m)).storeAt
      (ia + 0x10) (ia + 0x10) (toBytes 4 ((wr + (messageOctets m).length) % 2 ^ 32)) (Writer.agent 0)) := by
  obtain ⟨hoff, hn, hok, hroom, hro, hdata⟩ := h
  unfold State.ringMessage
  simp only [bitsOf_low, Nat.reduceAdd]
  rw [if_neg (Nat.not_le.mpr hoff)]
  generalize s.gwIa (destCore dest) (dest.toNat % 2 ^ 37) = ia at hn hok hroom hro hdata
  have hnone := narrowAt_unnoted hn none
  have h64 := (msgRingOk_area hok).1
  have hfit : (messageOctets m).length ≤ s.numAt ia 4 := (Nat.le_add_left _ _).trans hroom
  have hw := wrapsReadOnly_none (at_ := s.numAt (ia + 0x10) 4) hdata (by omega) hfit
  simp only [withheld_none hnone, hok, published_none hnone, Bool.not_true, Bool.false_eq_true, if_false, hro, hw,
    Bool.or_self, Nat.not_lt.mpr hfit, Nat.not_lt.mpr hroom]

/-- What a message leaves in the data area of a ring with no capability list and no object watched. -/
theorem writeWrapped_wrote {s : State} {data size at_ : Nat} {bs : List Byte} (ho : s.objects = []) (h64 : 64 ≤ size)
    (hs : size ≤ 2 ^ 24) (h1 : 2 ^ 52 ≤ data % 2 ^ 53) (h2 : 2 ^ 52 ≤ (data + size - 1) % 2 ^ 53) :
    (s.writeWrapped data size at_ bs).objects = [] ∧
    (bs.length ≤ size - at_ % size → Wrote s (s.writeWrapped data size at_ bs) (data + at_ % size) bs) ∧
    (size - at_ % size < bs.length → ∃ t1, Wrote s t1 (data + at_ % size) (bs.take (size - at_ % size)) ∧
      Wrote t1 (s.writeWrapped data size at_ bs) data (bs.drop (size - at_ % size))) := by
  have hlt := Nat.mod_lt at_ (show size > 0 by omega)
  have hp := whereIs_high (s := s) (area_high hs hlt h1 h2)
  have ho1 := storeAt_objects ho hp (data + at_ % size) (bs.take (size - at_ % size)) (Writer.agent 0)
  have hw1 := wrote_storeAt ho (data + at_ % size) (data + at_ % size) (bs.take (size - at_ % size)) (Writer.agent 0)
  unfold State.writeWrapped
  dsimp only
  generalize s.storeAt _ _ _ _ = t1 at ho1 hw1
  refine ⟨?_, fun hle => ?_, fun hlt => ?_⟩
  · split
    · exact ho1
    · exact storeAt_objects ho1 (whereIs_high h1) ..
  · rw [if_pos hle]
    rwa [List.take_of_length_le hle] at hw1
  · rw [if_neg (Nat.not_le.mpr hlt)]
    exact ⟨t1, hw1, wrote_storeAt ho1 ..⟩

theorem exec_messageRingWrite (n : NetMsg) (s : State) (hb : n.dest.getLsbD 37 = true) :
    ∃ f : NetMsg → Bool, f n = true ∧ exec (.messageRingWrite n.dest n.msg) s = .next (s.bringMail f) :=
  ⟨_, by simp only [hb, decide_true, Bool.and_self], rfl⟩

theorem messageRings_written : Claim.MessageRings := by
  intro s n rest hn ha hb off ia size data wr rd bs room moved hoff hun hok hfit ho hro hdata
  obtain ⟨f, hf, he⟩ := exec_messageRingWrite n s hb
  have hr := ringMessage_taken (m := n.msg) ⟨hoff, hun, hok, hfit, hro, hdata⟩
  obtain ⟨h64, hs, h1, h2⟩ := msgRingOk_area hok
  obtain ⟨ho1, hone, htwo⟩ := writeWrapped_wrote (at_ := wr) (bs := bs) ho h64 hs h1 h2
  rw [bringMail_accepted hn hf (by unfold State.arrive; rw [if_pos hb]; exact hr), answered_unawaited _ ha] at he
  have hwr := wrote_storeAt ho1 (ia + 0x10) (ia + 0x10) moved (Writer.agent 0)
  refine ⟨fun hle => ⟨_, _, he, (hone hle).setNet rest, hwr.setNet rest⟩, fun hlt => ?_⟩
  obtain ⟨t1, hw1, hw2⟩ := htwo hlt
  exact ⟨_, _, _, he, hw1.setNet rest, hw2.setNet rest, hwr.setNet rest⟩

/-! Posts of the host (R277, R282, R394). -/

theorem exec_post {core : Nat} {s : State} (h : Word) (hb : (s.atel (core / 512)).booted = true) :
    exec (.post core h) s = .next (s.inboxWrite core 0 h) :=
  congrArg Host.Outcome.next (if_pos hb)

/-- The message that a post of the host makes of its header. -/
def postHeader (type : Nat) (h : Word) : Word :=
  BitVec.ofNat 64 (type * 2 ^ 56 + h.toNat / 2 ^ 48 % 2 ^ 8 * 2 ^ 48 + h.toNat / 2 ^ 32 % 2 ^ 16 * 2 ^ 32 + 0xFFFFFFFF)

theorem mkHeader_post {type : Nat} (ht : type < 2 ^ 8) (h : Word) :
    mkHeader type (msgLen h) (msgTag h) 0xFFFFFFFF = postHeader type h := by
  unfold mkHeader postHeader msgLen msgTag bitsOf
  simp only [Nat.reduceAdd, Nat.reduceSub, Nat.mod_mod, Nat.mod_eq_of_lt ht]
  rfl

theorem msgLen_eq (h : Word) : msgLen h = h.toNat / 2 ^ 48 % 2 ^ 8 := rfl

/-- A message that a post of the host makes, with the words staged for it. -/
def CoreSt.posted (k : CoreSt) (type : Nat) (h : Word) : Message :=
  ⟨postHeader type h, k.stage.take (h.toNat / 2 ^ 48 % 2 ^ 8)⟩

/-- The agent of a core may take a post of the host (R282): a shared entry is free, its type is USER or SPAWN, and it has no
more than seven words. -/
def Postable (s : State) (core : Nat) (h : Word) : Prop :=
  0 < s.sharedFree core ∧ (h.toNat / 2 ^ 56 = 1 ∨ h.toNat / 2 ^ 56 = 3) ∧ h.toNat / 2 ^ 48 % 2 ^ 8 ≤ 7

/-- A post of the host that its core's agent does not take. -/
def State.postDropped (s : State) (core : Nat) : State :=
  let s1 := s.setCore core { s.core core with ovf := true }
  if (s.core core).ovf then s1 else s1.signal (core / 128) 5

theorem postRefused_iff (s : State) (core : Nat) (h : Word) :
    (decide (s.sharedFree core = 0) || (msgType h != 1 && msgType h != 3) || decide (7 < msgLen h)) = true ↔
      ¬Postable s core h := by
  simp only [Bool.or_eq_true, Bool.and_eq_true, decide_eq_true_eq, bne_iff_ne, ne_eq]
  rw [Postable, msgType_eq, msgLen_eq]
  omega

theorem hostPost_dropped {s : State} {core : Nat} {h : Word} (hp : ¬Postable s core h) :
    s.hostPost core h = s.postDropped core := by
  unfold State.hostPost
  exact if_pos ((postRefused_iff ..).mpr hp)

theorem hostPost_taken {s : State} {core : Nat} {h : Word} (hp : Postable s core h) :
    s.hostPost core h = if msgType h = 3 then
        s.setCore core { s.core core with spawns := (s.core core).spawns ++ [(s.core core).posted 3 h] }
      else match s.mailbox core (bitsOf h 5 0) with
        | none => s.event (clusterOf core) 16
        | some c => s.placePost core ((s.core core).posted 1 h) c := by
  unfold State.hostPost
  refine (if_neg (fun hr => (postRefused_iff ..).mp hr hp)).trans ?_
  rw [mkHeader_post (by decide), mkHeader_post (by decide)]
  rfl

/-- A post that lays no SPAWN message down is over with its effects on the machine. -/
theorem inboxWrite_post {s : State} {core : Nat} {h : Word}
    (hs : ((s.hostPost core h).core core).spawns = (s.core core).spawns) : s.inboxWrite core 0 h = s.hostPost core h := by
  unfold State.inboxWrite
  rw [if_pos rfl]
  exact if_pos (congrArg List.length hs)

theorem inboxWrite_spawn {s : State} {core : Nat} {h : Word} (hp : Postable s core h) (ht : h.toNat / 2 ^ 56 = 3) :
    s.inboxWrite core 0 h =
      { s.setCore core { s.core core with spawns := (s.core core).spawns ++ [(s.core core).posted 3 h] } with
        agenda := s.agenda ++ [.spawnMessage core] } := by
  unfold State.inboxWrite
  rw [if_pos rfl, hostPost_taken hp, if_pos ((msgType_eq h).trans ht)]
  simp [core_setCore]

/-- A post for a context in a slot, with its inbox in order, enters the inbox. -/
theorem placePost_slot {s : State} {core : Nat} {m : Message} {c : Context} (hn : s.net = []) (hp : c.sched.place = .slot)
    (hf : c.mail.frame = []) : s.placePost core m c = s.mapCtx c.id.uid (Context.take core m) := by
  unfold State.placePost
  simp only [hn, Context.resident, hp, hf, List.any_nil, decide_true, Bool.not_true, List.isEmpty_nil, Bool.or_self,
    Bool.false_and, Bool.false_eq_true, if_false]
  rfl

/-- A post for a saved context whose mailbox is full keeps its entry in the network. -/
theorem placePost_full {s : State} {core : Nat} {m : Message} {c : Context} {why : Saved} (hn : s.net = [])
    (hp : c.sched.place = .frame why) (hf : 32 ≤ c.mail.frame.length) :
    ∃ dest, s.placePost core m c = { s with net := [⟨hostSender core, dest, m, false⟩] } := by
  refine ⟨BitVec.ofNat 64 (pkgOf core * 2 ^ 47 + core % 512 * 2 ^ 38 + c.id.cid), ?_⟩
  unfold State.placePost
  simp only [hn, Context.resident, hp, hf, List.any_nil, reduceCtorEq, decide_false, decide_true, Bool.not_false, Bool.true_or,
    Bool.and_self, Bool.false_or, if_true, List.nil_append]

/-- A message of the host that keeps its entry takes one shared entry of its core. -/
theorem sharedUsed_kept (s : State) (core : Nat) (dest : Word) (m : Message) (hn : s.net = []) :
    ({ s with net := [⟨hostSender core, dest, m, false⟩] } : State).sharedUsed core = s.sharedUsed core + 1 := by
  have hadd : ∀ (l : List Context) (a : Nat), l.foldl (fun n c =>
      n + (c.mail.inbox.filter (fun e => e.core = some core)).length) (a + 1) =
      l.foldl (fun n c => n + (c.mail.inbox.filter (fun e => e.core = some core)).length) a + 1 := by
    intro l
    induction l with
    | nil => exact fun a => rfl
    | cons c l ih =>
      intro a
      rw [List.foldl_cons, List.foldl_cons, Nat.add_right_comm, ih]
  unfold State.sharedUsed
  rw [hn]
  simp only [List.filter_cons, decide_true, if_true, List.filter_nil, List.length_cons, List.length_nil]
  exact hadd s.contexts _

theorem postDropped_spawns (s : State) (core : Nat) : ((s.postDropped core).core core).spawns = (s.core core).spawns := by
  obtain ⟨b, x, hs⟩ := signal_eq (s.setCore core { s.core core with ovf := true }) (core / 128) 5
  unfold State.postDropped
  dsimp only
  split
  · rw [core_setCore, if_pos rfl]
  · rw [hs]
    exact (congrArg CoreSt.spawns (core_setCore ..)).trans (by rw [if_pos rfl])

theorem postDropped_drops (s : State) (core : Nat) :
    let t := s.postDropped core
    OnlyCore s { t with bar4 := s.bar4, msix := s.msix } core { s.core core with ovf := true } ∧
      ((s.core core).ovf = false → Signals s t (core / 128) 5) ∧
      ((s.core core).ovf = true → t.bar4 = s.bar4 ∧ t.msix = s.msix) := by
  have hc := onlyCore_setCore s core { s.core core with ovf := true }
  have hsig := signals_signal (s.setCore core { s.core core with ovf := true }) (core / 128) 5
  obtain ⟨b, x, hs⟩ := signal_eq (s.setCore core { s.core core with ovf := true }) (core / 128) 5
  unfold State.postDropped
  dsimp only
  cases ho : (s.core core).ovf
  · rw [if_neg Bool.false_ne_true]
    exact ⟨by rw [hs]; exact hc, fun _ => hsig, nofun⟩
  · rw [if_pos rfl]
    exact ⟨hc, nofun, fun _ => ⟨rfl, rfl⟩⟩

theorem hostPosts_taken : Claim.HostPosts := by
  intro s core h hd k type len msg room hb hn
  refine ⟨fun c hr ht hl hm hc => ?_, fun hr ht hl => ?_, fun hno => ?_⟩
  · have hpost : s.hostPost core h = s.placePost core (msg 1) c := by
      have h3 : ¬msgType h = 3 := by
        rw [msgType_eq]
        omega
      rw [hostPost_taken ⟨hr, .inl ht, hl⟩, if_neg h3, bitsOf_low, hm]
      rfl
    constructor
    · intro hp hf
      rw [placePost_slot hn hp hf] at hpost
      refine ⟨_, (exec_post h hb).trans (congrArg Host.Outcome.next ((inboxWrite_post ?_).trans hpost)),
        onlyContext_mapCtx s c.id.uid (Context.take core (msg 1))⟩
      rw [hpost]
      rfl
    · rintro ⟨why, hp⟩ hf
      obtain ⟨dest, hkept⟩ := placePost_full (core := core) (m := msg 1) hn hp hf
      rw [hkept] at hpost
      refine ⟨_, _, (exec_post h hb).trans (congrArg Host.Outcome.next ((inboxWrite_post ?_).trans hpost)), rfl, rfl, rfl, ?_⟩
      · rw [hpost]
        rfl
      · have hu := sharedUsed_kept s core dest (msg 1) hn
        have hfree : 0 < 11 - s.sharedUsed core := hr
        unfold State.sharedFree
        rw [hu]
        omega
  · have hspawn := inboxWrite_spawn (s := s) ⟨hr, .inr ht, hl⟩ ht
    exact ⟨_, (exec_post h hb).trans (congrArg Host.Outcome.next hspawn), onlyCore_setCore .., rfl⟩
  · have hdrop := hostPost_dropped (s := s) (core := core) (h := h) (fun ⟨h1, h2, h3⟩ => by omega)
    refine ⟨_, (exec_post h hb).trans (congrArg Host.Outcome.next ((inboxWrite_post ?_).trans hdrop)),
      postDropped_drops s core⟩
    rw [hdrop]
    exact postDropped_spawns ..

/-! The agent's work on a SPAWN message (R283). -/

theorem refill_inOrder {s : State} (h : ∀ c ∈ s.contexts, c.sched.place = .slot → c.mail.frame = []) (uid : Nat) :
    s.refill uid = s := by
  unfold State.refill State.refillFuel
  cases hc : s.ctx uid with
  | none => rfl
  | some c =>
    dsimp only
    split
    · rfl
    · rename_i m rest hf
      have hr : c.resident = false := by
        rw [Context.resident, decide_eq_false_iff_not]
        intro hp
        rw [h c (List.mem_of_find?_eq_some hc) hp] at hf
        cases hf
      rw [hr]
      rfl

theorem OnlyCore.of_setCore {s t : State} {k : Nat} {v w : CoreSt} (h : OnlyCore (s.setCore k v) t k w) : OnlyCore s t k w := by
  obtain ⟨hall, hk, hrest⟩ := h
  refine ⟨congrArg (fun u : State => { u with cores := s.cores }) hall, hk, fun j hj => ?_⟩
  rw [hrest j hj, core_setCore, if_neg hj]

/-- The oldest SPAWN message of a core gone, and the agent's work on it over. -/
def CoreSt.nextSpawn (k : CoreSt) : CoreSt := { k with spawns := k.spawns.drop 1, spawnWait := none, spawnDone := none }

/-- A core with the entry of its oldest SPAWN message free, and the work on the next one laid down. -/
def State.spawnFreed (s : State) (core : Nat) : State :=
  let s1 := s.setCore core (s.core core).nextSpawn
  if 1 < (s.core core).spawns.length then { s1 with agenda := s1.agenda ++ [.spawnMessage core] } else s1

theorem spawnFreed_only (s : State) (core : Nat) :
    OnlyCore s { s.spawnFreed core with agenda := s.agenda } core (s.core core).nextSpawn := by
  unfold State.spawnFreed
  dsimp only
  split <;> exact onlyCore_setCore ..

theorem spawnFreed_agenda (s : State) (core : Nat) : (s.spawnFreed core).agenda =
    s.agenda ++ if 1 < (s.core core).spawns.length then [.spawnMessage core] else [] := by
  unfold State.spawnFreed
  dsimp only
  split
  · rfl
  · exact (List.append_nil _).symm

/-- The end of the work on a SPAWN message, where no message waits for the entry that it frees. -/
theorem spawnOver_inOrder {s : State} (core : Nat) (hn : s.net = [])
    (h : ∀ c ∈ s.contexts, c.sched.place = .slot → c.mail.frame = []) : s.spawnOver core = s.spawnFreed core := by
  have hfields := (spawnFreed_only s core).1
  have hctx : (s.spawnFreed core).contexts = s.contexts := (congrArg State.contexts hfields :)
  have hnet : (s.spawnFreed core).net = [] := (congrArg State.net hfields :).trans hn
  have hfold (l : List Nat) : (l.foldl State.refill (s.spawnFreed core)).flushNet = s.spawnFreed core := by
    rw [foldl_id l State.refill _ fun uid _ => refill_inOrder (by rwa [hctx]) uid, State.flushNet, hnet]
    rfl
  exact hfold _

theorem spawnReply_none (s : State) (core st : Nat) : s.spawnReply core st 0 = s.spawnOver core := if_pos rfl

theorem spawnReply_written {s s3 : State} {core st : Nat} {va : Word} (h0 : va ≠ 0) (h8 : va.toNat % 8 = 0)
    (hw : (s.core core).spawnWait = none) (hr : s.agentRun core (replyOp va.toNat st) = (.ok (), s3)) :
    s.spawnReply core st va = s3.spawnOver core := by
  unfold State.spawnReply
  rw [if_neg h0, if_neg (by simp [h8]), hw, hr]
  rfl

theorem spawnJudge_misaligned {s : State} {core va : Nat} (hw : (s.core core).spawnWait = none) (h : va % 64 ≠ 0) :
    s.spawnJudge core va = (some 0x04, s) := by
  unfold State.spawnJudge
  rw [hw]
  simp [h]

theorem spawnJudge_done {s s1 : State} {core va st : Nat} (hw : (s.core core).spawnWait = none) (h : va % 64 = 0)
    (hr : s.agentRun core (spawnAt va) = (.ok st, s1)) : s.spawnJudge core va = (some st, s1) := by
  unfold State.spawnJudge
  rw [hw, hr]
  simp [h]

/-- A core whose agent has judged the record of its oldest SPAWN message. -/
def CoreSt.judged (k : CoreSt) (st : Nat) : CoreSt := { k with spawnDone := some st }

section SpawnWork

variable {s : State} {core : Nat} {h record reply : Word} {rest : List Message}
  (hs : (s.core core).spawns = ⟨h, [record, reply]⟩ :: rest) (hw : (s.core core).spawnWait = none)
  (hdone : (s.core core).spawnDone = none)
include hs hw hdone

theorem nextSpawn_judged (st : Nat) : ((s.core core).judged st).nextSpawn = { s.core core with spawns := rest } := by
  rw [CoreSt.nextSpawn, CoreSt.judged, hs, ← hw, ← hdone]
  rfl

/-- The agent's work on the oldest SPAWN message once its record is judged. -/
theorem exec_spawnMessage_judged {s1 : State} {st : Nat} (hj : s.spawnJudge core record.toNat = (some st, s1))
    (hk : s1.core core = s.core core) :
    exec (.spawnMessage core ⟨h, [record, reply]⟩) s =
      .next ((s1.setCore core ((s.core core).judged st)).spawnReply core st reply) := by
  have hc : ({ s1.core core with spawnDone := some st, spawnWait := none } : CoreSt) =
      (s.core core).judged st := by
    rw [CoreSt.judged, hk, ← hw]
  refine congrArg Host.Outcome.next ((if_pos (by rw [hs]; rfl)).trans ?_)
  unfold State.spawnAgent
  simp only [hs, hw, hdone, Option.any_none, Bool.false_eq_true, if_false, List.length_cons, List.length_nil, Nat.reduceAdd,
    Nat.lt_irrefl]
  unfold State.payloadWord getAt
  simp only [List.getD_cons_zero, List.getD_cons_succ, hj]
  rw [hc]

/-- A status word written, the work on the message is over. -/
theorem exec_spawnMessage_replied {s1 s3 : State} {st : Nat} (hj : s.spawnJudge core record.toNat = (some st, s1))
    (hk : s1.core core = s.core core) (h0 : reply ≠ 0) (h8 : reply.toNat % 8 = 0)
    (hr : (s1.setCore core ((s.core core).judged st)).agentRun core (replyOp reply.toNat st) = (.ok (), s3))
    (h3 : s3.core core = (s.core core).judged st) (hn : s3.net = [])
    (hm : ∀ c ∈ s3.contexts, c.sched.place = .slot → c.mail.frame = []) :
    ∃ t, exec (.spawnMessage core ⟨h, [record, reply]⟩) s = .next t ∧
      OnlyCore s3 { t with agenda := s3.agenda } core { s.core core with spawns := rest } := by
  have hwait : ((s1.setCore core ((s.core core).judged st)).core core).spawnWait = none := by
    rw [core_setCore, if_pos rfl]
    exact hw
  have hover := (spawnReply_written h0 h8 hwait hr).trans (spawnOver_inOrder core hn hm)
  refine ⟨_, (exec_spawnMessage_judged hs hw hdone hj hk).trans (congrArg Host.Outcome.next hover), ?_⟩
  have hnext : (s3.core core).nextSpawn = { s.core core with spawns := rest } := h3 ▸ nextSpawn_judged hs hw hdone st
  rw [← hnext]
  exact spawnFreed_only ..

end SpawnWork

/-! The agent's status word (R283). -/

/-- A machine whose turn it is a core's agent's. -/
def State.asAgent (u : State) (core : Nat) : State := { u with cur := u.agentOf core, others := u.cur :: u.others }

/-- A status word written at the location to which the supervisor's ranges map its address. -/
theorem replyOp_written {s : State} {va st ia loc : Nat} (hg : s.cur.sync.region = none) (hr : Reaches s .write va ia loc)
    (hp : Plain s ia 8) (hn : s.narrow = []) :
    replyOp va st s = .ok () (s.storeAt ia loc (toBytes 8 st) (Writer.agent 0)) := by
  have hpub : forcePublish ia 8 s = .ok ⟨⟩ s := by
    unfold forcePublish
    simp only [get_bind_run, hn, List.isEmpty_nil, if_true]
    rfl
  have htail : (do
      forcePublish ia 8
      let loc ← reach ⟨va, ia⟩ .write
      let s ← get
      if s.pageable ia && s.touchedBy none ia 8 then waitFor .access
      set (s.storeAt ia loc (toBytes 8 st) (Writer.agent 0)) : Op Unit) s =
        .ok () (s.storeAt ia loc (toBytes 8 st) (Writer.agent 0)) := by
    refine (op_bind_ok hpub).trans ((op_bind_ok (reach_reaches hr)).trans ?_)
    simp only [get_bind_run, hp.2, Bool.and_false, Bool.false_eq_true, if_false]
    rfl
  unfold replyOp
  refine (op_bind_ok (mapSpot_reaches false hr hg)).trans ?_
  simp only [get_bind_run]
  rcases atomicAt_cases hr.2.2.1 with h | ⟨c, h⟩ | ⟨c, h⟩ | h <;> simp only [h] <;> exact htail

/-- An agent's work that writes bytes leaves them, and the turn where it was. -/
theorem agentRun_wrote {u t : State} {core loc : Nat} {bs : List Byte} {op : Op Unit}
    (ho : op (u.asAgent core) = .ok () t) (hw : Wrote (u.asAgent core) t loc bs) :
    ∃ t', u.agentRun core op = (.ok (), t') ∧ Wrote u t' loc bs := by
  have hothers : t.others = u.cur :: u.others := (congrArg State.others hw.1 :)
  refine ⟨{ t with cur := u.cur, others := u.others }, ?_, ?_, hw.2⟩
  · have ho' : op { u with cur := u.agentOf core, others := u.cur :: u.others } = .ok () t := ho
    unfold State.agentRun
    simp only [ho', hothers]
  · exact congrArg (fun v : State => { v with cur := u.cur, others := u.others }) hw.1

theorem spawnMessages_worked : Claim.SpawnMessages := by
  intro s core h record reply rest k m hs hw hdone hn hm
  refine ⟨fun hr h0 => ?_, fun s3 hr h0 h8 hrun h3 hn3 hm3 => ?_, fun u va st ia loc _ hr hp hu => ?_,
    fun st s1 s3 hr h0 h8 hrun hk1 _ hrun3 h3 hn3 hm3 => ?_⟩
  · subst h0
    have he := exec_spawnMessage_judged hs hw hdone (spawnJudge_misaligned hw hr) rfl
    rw [spawnReply_none,
      spawnOver_inOrder (s := s.setCore core ((s.core core).judged 4)) core hn hm] at he
    have hcore : (s.setCore core ((s.core core).judged 4)).core core = (s.core core).judged 4 := by
      rw [core_setCore, if_pos rfl]
    have hnext : ((s.setCore core ((s.core core).judged 4)).core core).nextSpawn = { s.core core with spawns := rest } :=
      (congrArg CoreSt.nextSpawn hcore).trans (nextSpawn_judged hs hw hdone 4)
    refine ⟨_, he, OnlyCore.of_setCore (v := (s.core core).judged 4) ?_, ?_⟩
    · have honly := spawnFreed_only (s.setCore core ((s.core core).judged 4)) core
      rw [hnext] at honly
      exact honly
    · rw [spawnFreed_agenda, hcore, CoreSt.judged, hs]
      cases rest <;> rfl
  · exact exec_spawnMessage_replied hs hw hdone (spawnJudge_misaligned hw hr) rfl h0 h8 hrun h3 hn3 hm3
  · exact agentRun_wrote (replyOp_written rfl hr hp hu) (wrote_of_noted (storeAt_plain _ ((toBytes_length 8 st).symm ▸ hp)))
  · exact exec_spawnMessage_replied hs hw hdone (spawnJudge_done hw hr hrun) hk1 h0 h8 hrun3 h3 hn3 hm3

/-- Settles O56: the mailboxes, the message rings, the host's posts and the agents' work, each by its own theorem. -/
theorem messageSteps : Obligations.MessageSteps :=
  ⟨mailboxes_entered, messageRings_written, hostPosts_taken, spawnMessages_worked⟩

end Sys2Proof.Machine
end

section
/-! PROOF. Loading, dispatch, the completion tree and streaming graphs (O54), upon what an access of the device to an object
leaves of the machine. -/

namespace Sys2Proof.Machine

/-! Numbers in memory. -/

theorem cellsGet_congr {m m' : List Host.Cell} {loc n : Nat}
    (h : ∀ a, loc ≤ a → a < loc + n → cellGet m a = cellGet m' a) : cellsGet m loc n = cellsGet m' loc n := by
  induction n generalizing loc with
  | zero => rfl
  | succ n ih =>
    rw [cellsGet, cellsGet, h loc (by omega) (by omega), ih fun a h1 h2 => h a (by omega) (by omega)]

theorem fromBytes_lt (bs : List Byte) : fromBytes bs < 256 ^ bs.length := by
  induction bs with
  | nil => decide
  | cons b bs ih =>
    have hb := b.isLt
    rw [fromBytes, List.length_cons, pow_succ]
    omega

theorem cellsGet_length (m : List Host.Cell) (loc n : Nat) : (cellsGet m loc n).length = n := by
  induction n generalizing loc with
  | zero => rfl
  | succ n ih => rw [cellsGet, List.length_cons, ih]

theorem numAt_lt (s : State) (loc n : Nat) : s.numAt loc n < 256 ^ n := by
  have h := fromBytes_lt (s.bytesAt loc n)
  rwa [State.bytesAt, cellsGet_length] at h

theorem numAt_congr {s t : State} {loc n : Nat} (h : ∀ a, loc ≤ a → a < loc + n → cellGet t.mem a = cellGet s.mem a) :
    t.numAt loc n = s.numAt loc n := congrArg fromBytes (cellsGet_congr h)

theorem cellGet_putNum (s : State) {loc n v a : Nat} (h : a < loc ∨ loc + n ≤ a) :
    cellGet (s.putNum loc n v).mem a = cellGet s.mem a :=
  cellGet_cellsSet_outside _ _ _ _ (by rwa [toBytes_length])

theorem numAt_putNum (s : State) (loc n v : Nat) : (s.putNum loc n v).numAt loc n = v % 256 ^ n := by
  have h := bytesAt_putBytes s loc (toBytes n v)
  rw [toBytes_length] at h
  rw [State.numAt, State.putNum, h, fromBytes_toBytes]

theorem numAt_putNum_apart (s : State) {loc n v at_ m : Nat} (h : Apart loc n at_ m) :
    (s.putNum loc n v).numAt at_ m = s.numAt at_ m :=
  numAt_congr fun a h1 h2 => cellGet_putNum s (by unfold Apart at h; omega)

/-! What the walk to a page leaves. -/

/-- A machine with memory, what stands beside it and what counts and reports as another has them. -/
def State.withStage (t s : State) : State :=
  { t with
    mem := s.mem, history := s.history, broken := s.broken, poison := s.poison, ctl := s.ctl, clusters := s.clusters
    dies := s.dies, freeAt := s.freeAt, bar4 := s.bar4, msix := s.msix, atelier := s.atelier }

/-- Nothing but memory, what stands beside it and what counts and reports has changed. -/
def Backstage (s t : State) : Prop := t.withStage s = s

theorem Backstage.refl (s : State) : Backstage s s := rfl

theorem Backstage.trans {s t u : State} (h : Backstage s t) (h' : Backstage t u) : Backstage s u :=
  (congrArg (fun v : State => v.withStage s) h' :).trans h

theorem Backstage.launches {s t : State} (h : Backstage s t) : t.launches = s.launches := (congrArg State.launches h :)

theorem Backstage.nodes {s t : State} (h : Backstage s t) : t.nodes = s.nodes := (congrArg State.nodes h :)

theorem Backstage.contexts {s t : State} (h : Backstage s t) : t.contexts = s.contexts := (congrArg State.contexts h :)

theorem Backstage.tstamp {s t : State} (h : Backstage s t) : t.tstamp = s.tstamp := (congrArg State.tstamp h :)

theorem Backstage.putBytes {s t : State} (h : Backstage s t) (loc : Nat) (bs : List Byte) : Backstage s (t.putBytes loc bs) :=
  h.trans rfl

theorem Backstage.putNum {s t : State} (h : Backstage s t) (loc n v : Nat) : Backstage s (t.putNum loc n v) :=
  h.putBytes ..

theorem Backstage.ctlPutField {s t : State} (h : Backstage s t) (die off hi lo v : Nat) :
    Backstage s (t.ctlPutField die off hi lo v) := h.trans rfl

theorem Backstage.signal {s t : State} (h : Backstage s t) (die e : Nat) : Backstage s (t.signal die e) := by
  obtain ⟨b, m, he⟩ := signal_eq t die e
  rw [he]
  exact h.trans rfl

theorem Backstage.event {s t : State} (h : Backstage s t) (cl src : Nat) : Backstage s (t.event cl src) :=
  h.trans (congrArg (fun v : State => v.withStage t) (event_fields t cl src) :)

theorem Backstage.dieEvent {s t : State} (h : Backstage s t) (die src : Nat) : Backstage s (t.dieEvent die src) := by
  unfold State.dieEvent
  generalize List.range 32 = l
  induction l generalizing t with
  | nil => exact h
  | cons i l ih => exact ih (h.event ..)

theorem Backstage.ite {s : State} {α : Type} {c : Prop} [Decidable c] {a b : α × State} (ha : Backstage s a.2)
    (hb : Backstage s b.2) : Backstage s (if c then a else b).2 := by
  split
  · exact ha
  · exact hb

theorem ringPost_backstage {s t : State} {die baseOff ctlOff e : Nat} {bs : List Byte}
    (h : s.ringPost die baseOff ctlOff e bs = some t) : Backstage s t := by
  unfold State.ringPost at h
  dsimp only at h
  split at h
  · cases h
  · have hput := ((Backstage.refl s).putBytes (pkgBase (die / 4) + (s.ctlGet die baseOff).toNat % 2 ^ 52 +
      s.ctlField die ctlOff 15 0 * bs.length) bs).ctlPutField die ctlOff 15 0
        ((s.ctlField die ctlOff 15 0 + 1) % s.ctlField die ctlOff 63 48)
    obtain rfl := Option.some.inj h
    split
    · exact hput.signal ..
    · exact hput

theorem machineCheck_backstage (s : State) (die ia unit kind cause token : Nat) (detail : Word) :
    Backstage s (s.machineCheck die ia unit kind cause token detail) := by
  unfold State.machineCheck
  dsimp only
  split
  · rename_i h
    exact (ringPost_backstage h).trans rfl
  · exact (Backstage.refl s).ctlPutField ..

theorem walkerCheck_backstage (s : State) (die ia unit kind cause token : Nat) (detail : Word) :
    Backstage s (s.walker.2.machineCheck die ia unit kind cause token detail) :=
  Backstage.trans (t := s.walker.2) rfl (machineCheck_backstage ..)

theorem takeFrame_backstage (s : State) (die : Nat) : Backstage s (s.takeFrame die).2 := by
  unfold State.takeFrame
  dsimp only
  split
  · rfl
  · exact (Backstage.refl s).ite ((Backstage.refl s).ctlPutField ..)

theorem cowBreak_backstage (s : State) (ia loc e log token : Nat) : Backstage s (s.cowBreak ia loc e log token).2 := by
  unfold State.cowBreak
  dsimp only
  split
  · exact .refl s
  split
  · exact walkerCheck_backstage ..
  split
  · dsimp only
    exact (((Backstage.refl s).putNum ..).ctlPutField ..).dieEvent ..
  have hf := takeFrame_backstage s (homeDie ia)
  split
  · rename_i h
    rwa [h] at hf
  · rename_i f s1 h
    rw [h] at hf
    dsimp only at hf ⊢
    exact ((((((hf.putBytes ..).putNum ..).putNum ..).putNum ..).putNum ..).ctlPutField ..).dieEvent ..

theorem meet_backstage (s : State) (ia : Nat) (k : Access) (token : Nat) : Backstage s (s.meet ia k token).2 := by
  unfold State.meet
  refine (Backstage.refl s).ite ?_
  dsimp only
  split
  · exact .refl s
  · exact .refl s
  · exact walkerCheck_backstage ..
  · rename_i loc e log _
    refine (Backstage.refl s).ite (.ite ?_ (.ite ((Backstage.refl s).putNum ..) (.refl s)))
    have hc := cowBreak_backstage s ia loc e log token
    split
    · rename_i h
      rwa [h] at hc
    · exact hc

theorem objLoc_backstage (s : State) (ia : Nat) : Backstage s (s.objLoc ia).2 := by
  have h := meet_backstage s ia .atomic 0
  unfold State.objLoc
  split <;> rename_i hm <;> rwa [hm] at h

/-! An object of 64 bytes whose page is seated. -/

/-- Of what meets an object, only bytes of the 64 at a location have changed. -/
structure AtObject (loc : Nat) (s t : State) : Prop where
  packages : t.packages = s.packages
  ctl : t.ctl = s.ctl
  outside : ∀ a, a < loc ∨ loc + 64 ≤ a → cellGet t.mem a = cellGet s.mem a

theorem AtObject.refl (loc : Nat) (s : State) : AtObject loc s s := ⟨rfl, rfl, fun _ _ => rfl⟩

theorem AtObject.trans {loc : Nat} {s t u : State} (h : AtObject loc s t) (h' : AtObject loc t u) : AtObject loc s u :=
  ⟨h'.packages.trans h.packages, h'.ctl.trans h.ctl, fun a ha => (h'.outside a ha).trans (h.outside a ha)⟩

theorem AtObject.putNum {loc : Nat} {s t : State} (h : AtObject loc s t) {off n v : Nat} (ho : off + n ≤ 64) :
    AtObject loc s (t.putNum (loc + off) n v) :=
  h.trans ⟨rfl, rfl, fun _ ha => cellGet_putNum t (by omega)⟩

theorem Seated.meet {s t : State} {ia loc : Nat} (h : Seated s ia loc [(loc, 64)]) (ht : AtObject loc s t) {k : Access}
    (token : Nat) (hk : k ≠ .fetch) : t.meet ia k token = (.ok loc, t) :=
  h t ht.packages ht.ctl (fun a ha => ht.outside a (ha _ (List.mem_singleton_self _))) k token hk

theorem Seated.objLoc {s t : State} {ia loc : Nat} (h : Seated s ia loc [(loc, 64)]) (ht : AtObject loc s t) :
    t.objLoc ia = (some loc, t) := by
  unfold State.objLoc
  rw [h.meet ht 0 (by decide)]

/-! The ends of a node (R385). -/

section Tree

variable {s : State} {l : Launch} {n : Node} {pre post : List Node} (hl : s.launch n.launch = some l)
  (hobj : ∀ k ∈ s.launches, k.lobjIa = l.lobjIa → k.num = l.num) (hn : s.nodes = pre ++ n :: post)
  (hone : ∀ m ∈ pre ++ post, m.launch ≠ l.num)
include hl

theorem launch_num : l.num = n.launch := of_decide_eq_true (List.find?_some hl :)

include hn hone

theorem find_node : s.nodes.find? (fun m => m.launch = l.num && m.node = n.node) = some n := by
  rw [hn, List.find?_append, List.find?_eq_none.2 fun m hm => by simp [hone m (List.mem_append_left _ hm)]]
  simp [launch_num hl]

theorem dropNode_rest : s.dropNode l.num n.node = { s with nodes := pre ++ post } := by
  have hkeep : ∀ m ∈ pre ++ post, (!(m.launch = l.num && m.node = n.node)) = true := fun m hm => by simp [hone m hm]
  unfold State.dropNode
  rw [hn, List.filter_append, List.filter_cons_of_neg (by simp [launch_num hl]),
    ← List.filter_append, List.filter_eq_self.2 hkeep]

include hobj

omit hone in
theorem find_launch : ∃ k, s.launches.find? (fun k => k.lobjIa = l.lobjIa &&
    s.nodes.any (fun m => m.launch = k.num && m.node = n.node)) = some k ∧ k.num = l.num := by
  have hany : s.nodes.any (fun m => m.launch = l.num && m.node = n.node) = true :=
    List.any_eq_true.2 ⟨n, by rw [hn]; simp, by simp [launch_num hl]⟩
  have hsome : (s.launches.find? (fun k => k.lobjIa = l.lobjIa &&
      s.nodes.any (fun m => m.launch = k.num && m.node = n.node))).isSome :=
    List.find?_isSome.2 ⟨l, List.mem_of_find?_eq_some hl, by simp [hany]⟩
  obtain ⟨k, hk⟩ := Option.isSome_iff_exists.1 hsome
  have hia := List.find?_some hk
  rw [Bool.and_eq_true, decide_eq_true_eq] at hia
  exact ⟨k, hk, hobj k (List.mem_of_find?_eq_some hk) hia.1⟩

/-- The root's ends go to the object. -/
theorem forward_root (h0 : n.node = 0) :
    s.forward l.lobjIa 0 = ({ s with nodes := pre ++ post } : State).homeFold l.num 5 0 n.ended n.word.toNat := by
  obtain ⟨k, hk, hnum⟩ := find_launch hl hobj hn
  have hnode := find_node hl hn hone
  have hdrop := dropNode_rest hl hn hone
  rw [h0] at hk hnode hdrop
  unfold State.forward
  simp only [hk, hnum, hnode, hdrop]
  rfl

/-- The ends of any other node go to its parent. -/
theorem forward_up (h0 : n.node ≠ 0) (hlow : n.node < 2 ^ 32) :
    s.forward l.lobjIa n.node = { s with
      nodes := pre ++ post ++ [⟨l.num, (n.node - 1) / 4, n.ended, n.word⟩]
      agenda := s.agenda ++ [.treeForward l.lobjIa ((n.node - 1) / 4)] } := by
  obtain ⟨k, hk, hnum⟩ := find_launch hl hobj hn
  have hnew : (pre ++ post).find? (fun m => m.launch = l.num && m.node = (n.node - 1) / 4) = none :=
    List.find?_eq_none.2 fun m hm => by simp [hone m hm]
  have hhome : ¬atHome 0 ≤ n.node := by unfold atHome; omega
  unfold State.forward
  simp only [hk, hnum, find_node hl hn hone, dropNode_rest hl hn hone, hhome, h0, if_false, State.addNode, hnew,
    BitVec.ofNat_toNat, BitVec.setWidth_eq]

end Tree

/-! The decrement of an object (R58). -/

/-- An object's count less the ends that came, with their word joined to its STATUS. -/
def State.countDown (s : State) (loc count word : Nat) : State :=
  (s.putNum loc 4 ((s.numAt loc 4 + 2 ^ 32 - count % 2 ^ 32) % 2 ^ 32)).putNum (loc + 0x0C) 4
    (joinStatus (s.numAt (loc + 0x0C) 4) word)

section CountDown

variable (s : State) (loc count word : Nat)

theorem countDown_atObject : AtObject loc s (s.countDown loc count word) :=
  (AtObject.putNum (off := 0) (.refl loc s) (by decide)).putNum (by decide)

theorem countDown_backstage : Backstage s (s.countDown loc count word) := ((Backstage.refl s).putNum ..).putNum ..

theorem numAt_countDown_apart {at_ m : Nat} (h1 : Apart loc 4 at_ m) (h2 : Apart (loc + 0x0C) 4 at_ m) :
    (s.countDown loc count word).numAt at_ m = s.numAt at_ m :=
  (numAt_putNum_apart _ h2).trans (numAt_putNum_apart _ h1)

theorem numAt_countDown :
    (s.countDown loc count word).numAt loc 4 = (s.numAt loc 4 + 2 ^ 32 - count % 2 ^ 32) % 2 ^ 32 := by
  refine (numAt_putNum_apart _ (.inr (by omega))).trans ((numAt_putNum ..).trans ?_)
  omega

theorem count_countDown (h : count ≤ s.numAt loc 4) :
    (s.countDown loc count word).numAt loc 4 = s.numAt loc 4 - count := by
  have hlt := numAt_lt s loc 4
  have hleft : (s.numAt loc 4 + 2 ^ 32 - count % 2 ^ 32) % 2 ^ 32 = s.numAt loc 4 - count := by omega
  rw [numAt_countDown, hleft]

theorem status_countDown (hw : word < 2 ^ 32) : (s.countDown loc count word).numAt (loc + 0x0C) 4 =
    min (s.numAt (loc + 0x0C) 4 / 2 ^ 16 + word / 2 ^ 16) 0xFFFF * 2 ^ 16 + (s.numAt (loc + 0x0C) 4 ||| word) % 2 ^ 16 := by
  have hlt := numAt_lt s (loc + 0x0C) 4
  refine (numAt_putNum ..).trans ?_
  unfold joinStatus
  rw [Nat.mod_eq_of_lt (a := s.numAt (loc + 0x0C) 4 / 2 ^ 16) (by omega), Nat.mod_eq_of_lt (a := word / 2 ^ 16) (by omega)]
  omega

end CountDown

/-- TDONE and the state of an object that ends, before anyone is told. -/
def State.closed (s : State) (loc : Nat) : State :=
  (s.putNum (loc + 8) 1 (if s.numAt (loc + 8) 1 = 1 then 2 else 4)).putNum (loc + 0x30) 8 s.tstamp

/-- What the waiters of an object that ends are given. -/
def State.outcome (s : State) (loc : Nat) : Word :=
  BitVec.ofNat 64 ((s.closed loc).numAt (loc + 0x0C) 4 * 2 ^ 32 + if s.numAt (loc + 8) 1 = 1 then 0 else 1)

theorem finishObject_eq (s : State) (ia loc : Nat) : s.finishObject ia loc =
    { (s.closed loc).releaseWaiters (.object ia) (s.outcome loc) with attached := s.attached.filter (fun a => a.ia != ia) } := by
  unfold State.finishObject State.outcome State.closed
  simp only [decide_eq_true_eq]
  rfl

theorem closed_backstage (s : State) (loc : Nat) : Backstage s (s.closed loc) := ((Backstage.refl s).putNum ..).putNum ..

theorem closed_atObject (s : State) (loc : Nat) : AtObject loc s (s.closed loc) :=
  ((AtObject.refl loc s).putNum (by decide)).putNum (by decide)

theorem numAt_closed_apart (s : State) {loc at_ m : Nat} (h1 : Apart (loc + 8) 1 at_ m) (h2 : Apart (loc + 0x30) 8 at_ m) :
    (s.closed loc).numAt at_ m = s.numAt at_ m := (numAt_putNum_apart _ h2).trans (numAt_putNum_apart _ h1)

theorem tdone_closed (s : State) (loc : Nat) : (s.closed loc).numAt (loc + 0x30) 8 = s.tstamp % 2 ^ 64 := numAt_putNum ..

theorem state_closed {s : State} {loc : Nat} (h : s.numAt (loc + 8) 1 = 1 ∨ s.numAt (loc + 8) 1 = 3) :
    (s.closed loc).numAt (loc + 8) 1 = s.numAt (loc + 8) 1 + 1 := by
  refine (numAt_putNum_apart _ (.inr (by omega))).trans ((numAt_putNum ..).trans ?_)
  rcases h with h | h <;> rw [h] <;> rfl

theorem releaseWaiters_mem (s : State) (w : Wait) (st : Word) : (s.releaseWaiters w st).mem = s.mem := rfl

theorem releaseWaiters_nodes (s : State) (w : Wait) (st : Word) : (s.releaseWaiters w st).nodes = s.nodes := rfl

theorem releaseWaiters_launches (s : State) (w : Wait) (st : Word) : (s.releaseWaiters w st).launches = s.launches := rfl

theorem contexts_releaseWaiters (s : State) (w : Wait) (st : Word) : (s.releaseWaiters w st).contexts =
    s.contexts.map (fun c => if c.live ∧ c.sync.wait = w ∧ c.sync.grant = none then
      { c with sync := { c.sync with grant := some st } } else c) := by
  have hcond (c : Context) : ((c.live && c.sync.wait = w && c.sync.grant.isNone) = true) =
      (c.live ∧ c.sync.wait = w ∧ c.sync.grant = none) := by
    rw [Bool.and_eq_true, Bool.and_eq_true, decide_eq_true_eq, Option.isNone_iff_eq_none, and_assoc]
  unfold State.releaseWaiters
  simp only [hcond]
  rfl

theorem finishObject_mem (s : State) (ia loc : Nat) : (s.finishObject ia loc).mem = (s.closed loc).mem := by
  rw [finishObject_eq]
  exact releaseWaiters_mem (s.closed loc) (.object ia) (s.outcome loc)

theorem finishObject_nodes (s : State) (ia loc : Nat) : (s.finishObject ia loc).nodes = s.nodes := by
  rw [finishObject_eq]
  exact (releaseWaiters_nodes (s.closed loc) (.object ia) (s.outcome loc)).trans (closed_backstage s loc).nodes

theorem finishObject_launches (s : State) (ia loc : Nat) : (s.finishObject ia loc).launches = s.launches := by
  rw [finishObject_eq]
  exact (releaseWaiters_launches (s.closed loc) (.object ia) (s.outcome loc)).trans (closed_backstage s loc).launches

theorem finishObject_contexts (s : State) (ia loc : Nat) : (s.finishObject ia loc).contexts =
    s.contexts.map (fun c => if c.live ∧ c.sync.wait = .object ia ∧ c.sync.grant = none then
      { c with sync := { c.sync with grant := some (s.outcome loc) } } else c) := by
  rw [finishObject_eq]
  refine (contexts_releaseWaiters (s.closed loc) (.object ia) (s.outcome loc)).trans ?_
  rw [(closed_backstage s loc).contexts]

theorem mapLaunch_mem (s : State) (num : Nat) (f : Launch → Launch) : (s.mapLaunch num f).mem = s.mem := rfl

theorem mapLaunch_nodes (s : State) (num : Nat) (f : Launch → Launch) : (s.mapLaunch num f).nodes = s.nodes := rfl

theorem mapLaunch_contexts (s : State) (num : Nat) (f : Launch → Launch) : (s.mapLaunch num f).contexts = s.contexts := rfl

theorem mapLaunch_launches (s : State) (num : Nat) (f : Launch → Launch) :
    (s.mapLaunch num f).launches = s.launches.map (fun k => if k.num = num then f k else k) := rfl

theorem launch_mapLaunch {s : State} {num : Nat} {f : Launch → Launch} (hf : ∀ k, (f k).num = k.num) :
    (s.mapLaunch num f).launch num = (s.launch num).map f := by
  have hnum (k : Launch) : (if k.num = num then f k else k).num = k.num := by
    split
    · exact hf k
    · rfl
  unfold State.launch State.mapLaunch
  simp only [List.find?_map, Function.comp_def, hnum]
  cases hfind : s.launches.find? (fun k => k.num = num) with
  | none => rfl
  | some k => exact congrArg some (if_pos (of_decide_eq_true (List.find?_some hfind :)))

/-- The last end of a launch's object, where nothing is above it. -/
def State.finishLaunch (s : State) (num ia loc : Nat) : State :=
  (s.finishObject ia loc).mapLaunch num (fun k => { k with finished := true })

theorem inherit_nil (s : State) (loc : Nat) : s.inherit loc [] = s := rfl

/-- A launch without objects above its own counts down there, and its object is finished by the last end. -/
theorem homeFold_alone {s : State} {l : Launch} {num loc : Nat} (hl : s.launch num = some l) (hchain : l.chain = [])
    (hbusy : s.objBusy l.lobjIa = false) (hseat : Seated s l.lobjIa loc [(loc, 64)]) (fuel count word : Nat) :
    let t := s.countDown loc count word
    s.homeFold num (fuel + 2) 0 count word =
      if t.numAt loc 4 = 0 ∧ (s.numAt (loc + 8) 1 = 1 ∨ s.numAt (loc + 8) 1 = 3) then t.finishLaunch num l.lobjIa loc
      else t := by
  intro t
  have hobject : l.object 0 = some l.lobjIa := rfl
  have habove : (l.lobjIa :: l.chain).drop (0 + 1) = [] := hchain
  have hlocs := hseat.objLoc (.refl loc s)
  have hstate : t.numAt (loc + 8) 1 = s.numAt (loc + 8) 1 :=
    numAt_countDown_apart s loc count word (.inl (by omega)) (.inr (by omega))
  have hleft := numAt_countDown s loc count word
  have hnext : (t.finishLaunch num l.lobjIa loc).homeFold num (fuel + 1) 1 1
      (foldStatus 0 (joinStatus (s.numAt (loc + 0x0C) 4) word)) = t.finishLaunch num l.lobjIa loc := by
    have hsame : (t.finishObject l.lobjIa loc).launch num = some l := by
      rw [State.launch, finishObject_launches, (countDown_backstage ..).launches]
      exact hl
    have hlast : (t.finishLaunch num l.lobjIa loc).launch num = some { l with finished := true } :=
      (launch_mapLaunch (f := fun k => { k with finished := true }) fun _ => rfl).trans (congrArg (Option.map _) hsame)
    have hnone : ({ l with finished := true } : Launch).object 1 = none := by
      unfold Launch.object
      rw [hchain]
      rfl
    rw [State.homeFold, hlast]
    dsimp only
    rw [hnone]
  have hcount : (s.putNum loc 4 ((s.numAt loc 4 + 2 ^ 32 - count % 2 ^ 32) % 2 ^ 32)).putNum (loc + 0x0C) 4
      (joinStatus (s.numAt (loc + 0x0C) 4) word) = t := rfl
  have hfinish : (t.finishObject l.lobjIa loc).mapLaunch num (fun k => { k with finished := true }) =
      t.finishLaunch num l.lobjIa loc := rfl
  rw [State.homeFold, hl]
  dsimp only
  rw [hobject]
  dsimp only
  rw [habove, hbusy, hlocs]
  rw [List.any_nil, Bool.or_false, if_neg Bool.false_ne_true]
  dsimp only
  rw [inherit_nil, hcount, hstate, hfinish]
  simp only [Bool.and_eq_true, Bool.or_eq_true, decide_eq_true_eq]
  rw [← hleft]
  split
  · exact hnext
  · rfl

section FinishLaunch

variable (s : State) (num ia loc : Nat)

theorem finishLaunch_mem : (s.finishLaunch num ia loc).mem = (s.closed loc).mem :=
  (mapLaunch_mem (s.finishObject ia loc) num _).trans (finishObject_mem ..)

theorem finishLaunch_nodes : (s.finishLaunch num ia loc).nodes = s.nodes :=
  (mapLaunch_nodes (s.finishObject ia loc) num _).trans (finishObject_nodes ..)

theorem finishLaunch_contexts : (s.finishLaunch num ia loc).contexts =
    s.contexts.map (fun c => if c.live ∧ c.sync.wait = .object ia ∧ c.sync.grant = none then
      { c with sync := { c.sync with grant := some (s.outcome loc) } } else c) :=
  (mapLaunch_contexts (s.finishObject ia loc) num _).trans (finishObject_contexts ..)

theorem finishLaunch_launches : (s.finishLaunch num ia loc).launches =
    s.launches.map (fun k => if k.num = num then { k with finished := true } else k) := by
  rw [State.finishLaunch, mapLaunch_launches, finishObject_launches]

theorem numAt_finishLaunch (at_ m : Nat) : (s.finishLaunch num ia loc).numAt at_ m = (s.closed loc).numAt at_ m :=
  numAt_congr fun a _ _ => congrArg (cellGet · a) (finishLaunch_mem s num ia loc)

theorem finishLaunch_outside {a : Nat} (ha : a < loc ∨ loc + 64 ≤ a) :
    cellGet (s.finishLaunch num ia loc).mem a = cellGet s.mem a :=
  (congrArg (cellGet · a) (finishLaunch_mem s num ia loc)).trans ((closed_atObject s loc).outside a ha)

end FinishLaunch

theorem exec_treeForward (s : State) (ia node : Nat) : exec (.treeForward ia node) s = .next (s.forward ia node) := rfl

theorem treeForwards_joined : Claim.TreeForwards := by
  intro s l n pre post hl hobj hn hone hlow
  refine ⟨fun h0 => ⟨_, (exec_treeForward ..).trans (congrArg _ (forward_up hl hobj hn hone h0 hlow)), rfl, rfl, rfl⟩, ?_⟩
  intro loc h0 hchain hbusy hseat remain status total
  let s1 : State := { s with nodes := pre ++ post }
  have hl1 : s1.launch l.num = some l := launch_num hl ▸ hl
  let u := s1.countDown loc n.ended n.word.toNat
  have hrun : s.forward l.lobjIa 0 = if u.numAt loc 4 = 0 ∧ (s1.numAt (loc + 8) 1 = 1 ∨ s1.numAt (loc + 8) 1 = 3) then
      u.finishLaunch l.num l.lobjIa loc else u :=
    (forward_root hl hobj hn hone h0).trans (homeFold_alone (s := s1) hl1 hchain hbusy hseat 3 n.ended n.word.toNat)
  have hcount : n.ended ≤ remain → u.numAt loc 4 = remain - n.ended := count_countDown s1 loc n.ended n.word.toNat
  have hstatus : u.numAt (loc + 0x0C) 4 = total := status_countDown s1 loc n.ended n.word.toNat n.word.isLt
  have hstate : u.numAt (loc + 8) 1 = s.numAt (loc + 8) 1 :=
    numAt_countDown_apart s1 loc n.ended n.word.toNat (.inl (by omega)) (.inr (by omega))
  have hat : AtObject loc s1 u := countDown_atObject ..
  have hback : Backstage s1 u := countDown_backstage ..
  clear_value u
  refine ⟨fun hlt => ?_, fun heq hst => ?_⟩
  · have hleft := hcount hlt.le
    rw [if_neg (fun h => by omega)] at hrun
    exact ⟨u, (exec_treeForward ..).trans (congrArg _ hrun), hback.nodes, hleft, hstatus, hstate, hat.outside, hback.launches⟩
  · have hleft : u.numAt loc 4 = 0 := by
      rw [hcount heq.le, heq, Nat.sub_self]
    have hst' : u.numAt (loc + 8) 1 = 1 ∨ u.numAt (loc + 8) 1 = 3 := by rwa [hstate]
    rw [if_pos ⟨hleft, hst⟩] at hrun
    have hword : (u.closed loc).numAt (loc + 0x0C) 4 = total :=
      (numAt_closed_apart u (.inl (by omega)) (.inr (by omega))).trans hstatus
    have hout : u.outcome loc = BitVec.ofNat 64 (total * 2 ^ 32 + if s.numAt (loc + 8) 1 = 1 then 0 else 1) := by
      rw [State.outcome, hword, hstate]
    refine ⟨_, (exec_treeForward ..).trans (congrArg _ hrun), (finishLaunch_nodes ..).trans hback.nodes, ?_, ?_, ?_, ?_,
      fun a ha => (finishLaunch_outside _ _ _ _ ha).trans (hat.outside a ha), ?_, ?_⟩
    · exact (numAt_finishLaunch ..).trans ((numAt_closed_apart u (.inr (by omega)) (.inr (by omega))).trans hleft)
    · exact (numAt_finishLaunch ..).trans hword
    · exact (numAt_finishLaunch ..).trans ((state_closed hst').trans (congrArg (· + 1) hstate))
    · exact (numAt_finishLaunch ..).trans ((tdone_closed u loc).trans (congrArg (· % 2 ^ 64) hback.tstamp))
    · rw [finishLaunch_launches, hback.launches]
    · rw [finishLaunch_contexts, hback.contexts, hout]
      rfl

/-! The loader's actions. -/

theorem load_bind_ok {α β : Type} {x : LoadOp α} {f : α → LoadOp β} {s t : State} {a : α} (h : x s = .ok a t) :
    (x >>= f) s = f a t := by
  change EStateM.bind x f s = _
  unfold EStateM.bind
  rw [h]

theorem load_get {β : Type} (f : State → LoadOp β) (s : State) : ((get : LoadOp State) >>= f) s = f s s := rfl

theorem load_bind_inv {α β : Type} {x : LoadOp α} {f : α → LoadOp β} {s t : State} {b : β} (h : (x >>= f) s = .ok b t) :
    ∃ a u, x s = .ok a u ∧ f a u = .ok b t := by
  change EStateM.bind x f s = _ at h
  unfold EStateM.bind at h
  split at h
  · exact ⟨_, _, ‹_›, h⟩
  · cases h

theorem patches_ok {s t : State} {ia : Nat} {bs : List Byte} (h : s.putIa 0 2 ia bs = (none, t)) :
    patches ia bs s = .ok () t := by
  unfold patches
  rw [h]

theorem patches_inv {s t : State} {ia : Nat} {bs : List Byte} (h : patches ia bs s = .ok () t) :
    s.putIa 0 2 ia bs = (none, t) := by
  unfold patches at h
  split at h
  · rename_i hp
    cases h
    exact hp
  · cases h

theorem loads_ok {s t : State} {ia n : Nat} {bs : List Byte} (h : s.getIa 0 (n / 4096 + 2) ia n = (.ok bs, t)) :
    loads ia n s = .ok bs t := by
  unfold loads
  rw [h]

section Judged

variable {s s1 s2 : State} {obj ncore : Nat} {o : CodeObj} (hp : s.putIa 0 2 (obj + 0x60) [0, 0, 0, 0] = (none, s1))
  (ho : loadObj obj s1 = .ok o s2)
include hp ho

theorem loaderJudge_refused {w : Nat} (hj : s2.judge o ncore = .error w) :
    exec (.loaderJudge obj ncore) s = .next { s2 with judged := BitVec.ofNat 32 w } := by
  have hrun : judgeObj obj ncore s = .ok () { s2 with judged := BitVec.ofNat 32 w } := by
    refine (load_bind_ok (patches_ok hp)).trans ((load_bind_ok ho).trans ((load_get ..).trans ?_))
    rw [hj]
    rfl
  change execLoaderJudge obj ncore s = _
  unfold execLoaderJudge
  rw [hrun]

theorem loaderJudge_passed {n : Nat} {s3 : State} (hj : s2.judge o ncore = .ok n) (hm : markJudged obj n o s2 = .ok () s3) :
    exec (.loaderJudge obj ncore) s = .next { s3 with judged := 0 } := by
  have hrun : judgeObj obj ncore s = .ok () { s3 with judged := 0 } := by
    refine (load_bind_ok (patches_ok hp)).trans ((load_bind_ok ho).trans ((load_get ..).trans ?_))
    rw [hj]
    exact load_bind_ok hm
  change execLoaderJudge obj ncore s = _
  unfold execLoaderJudge
  rw [hrun]

end Judged

/-! A header that is refused. -/

theorem headOk_magic {head : List Byte} (h : numIn head 0 4 ≠ 0x4B4F4C46) : headOk head = false := by
  simp [headOk, h]

theorem loadObj_refused {s s1 : State} {obj : Nat} {head : List Byte} (hl : s.getIa 0 2 obj 128 = (.ok head, s1))
    (hh : headOk head = false) : loadObj obj s = .ok ⟨obj / 2 ^ 53, head, [], [], [], [], [], []⟩ s1 := by
  refine (load_bind_ok (loads_ok hl)).trans ?_
  rw [hh]
  rfl

theorem judge_refused (s : State) {o : CodeObj} (ncore : Nat) (hh : headOk o.head = false) : s.judge o ncore = .error 0x20 := by
  unfold State.judge
  simp [hh]

/-! The core count (R22). -/

theorem judge_cores {s : State} {o : CodeObj} {ncore n : Nat} (h : s.judge o ncore = .ok n) :
    resolveCores o.head ncore = some n := by
  unfold State.judge at h
  dsimp only at h
  repeat' split at h
  all_goals cases h
  assumption

theorem resolveCores_bounds {head : List Byte} {ncore n : Nat} (h : resolveCores head ncore = some n) :
    n % numIn head 0x58 2 = 0 ∧ numIn head 0x50 4 ≤ n ∧ n ≤ ncore ∧ 0 < n := by
  unfold resolveCores at h
  dsimp only at h
  obtain ⟨m, hm, hle⟩ : ∃ m, (if (numIn head 0x54 4 != 0) = true then min ncore (numIn head 0x54 4) else ncore) = m ∧
      m ≤ ncore := ⟨_, rfl, by split <;> omega⟩
  rw [hm] at h
  split at h
  · cases h
  · rename_i hc
    rw [Bool.or_eq_true, decide_eq_true_eq, decide_eq_true_eq, not_or] at hc
    obtain rfl := Option.some.inj h
    exact ⟨Nat.mod_eq_zero_of_dvd (Nat.dvd_sub_mod m), Nat.le_of_not_lt hc.1, (Nat.sub_le ..).trans hle,
      Nat.pos_of_ne_zero hc.2⟩


/-! What the loader's reads and writes leave. -/

/-- Every run of the loader's action that succeeds keeps a property of the machine. -/
def LoadKeeps {α : Type} (P : State → Prop) (x : LoadOp α) : Prop := ∀ s a t, P s → x s = .ok a t → P t

section LoadKeeps

variable {α β : Type} {P : State → Prop}

theorem LoadKeeps.pure (a : α) : LoadKeeps P (pure a : LoadOp α) := by
  intro s b t hs h
  cases h
  exact hs

theorem LoadKeeps.bind {x : LoadOp α} {f : α → LoadOp β} (hx : LoadKeeps P x) (hf : ∀ a, LoadKeeps P (f a)) :
    LoadKeeps P (x >>= f) := by
  intro s b t hs h
  obtain ⟨a, u, ha, hb⟩ := load_bind_inv h
  exact hf a u b t (hx s a u hs ha) hb

theorem LoadKeeps.mapM {f : α → LoadOp β} (hf : ∀ a, LoadKeeps P (f a)) (l : List α) : LoadKeeps P (l.mapM f) := by
  induction l with
  | nil => exact .pure []
  | cons a l ih =>
    rw [List.mapM_cons]
    exact (hf a).bind fun b => ih.bind fun bs => .pure (b :: bs)

theorem LoadKeeps.forM {f : α → LoadOp PUnit} (hf : ∀ a, LoadKeeps P (f a)) (l : List α) : LoadKeeps P (l.forM f) := by
  induction l with
  | nil => exact .pure PUnit.unit
  | cons a l ih => exact (hf a).bind fun _ => ih

end LoadKeeps

/-- No home slice watches an object, and the package count is known. -/
def Unwatched (n : Nat) (s : State) : Prop := s.objects = [] ∧ s.packages = n

section Unwatched

variable {n : Nat} {s : State} (h : Unwatched n s)
include h

theorem Unwatched.of_backstage {t : State} (hb : Backstage s t) : Unwatched n t :=
  ⟨(congrArg State.objects hb :).trans h.1, (congrArg State.packages hb :).trans h.2⟩

theorem Unwatched.clobber (ia loc m token : Nat) : s.clobber ia loc m token = s := by
  unfold State.clobber
  rw [h.1]
  rfl

theorem Unwatched.putIa (token fuel ia : Nat) (bs : List Byte) : Unwatched n (s.putIa token fuel ia bs).2 := by
  induction fuel generalizing s ia bs with
  | zero => exact h
  | succ fuel ih =>
    have hm := h.of_backstage (meet_backstage s ia .write token)
    unfold State.putIa
    split
    · exact h
    dsimp only
    split <;> rename_i hmeet <;> rw [hmeet] at hm
    · rw [hm.clobber]
      exact ih (hm.of_backstage ((Backstage.refl _).putBytes ..)) _ _
    · exact hm
    · exact hm

theorem Unwatched.getIa (token fuel ia m : Nat) : Unwatched n (s.getIa token fuel ia m).2 := by
  induction fuel generalizing s ia m with
  | zero => exact h
  | succ fuel ih =>
    have hm := h.of_backstage (meet_backstage s ia .read token)
    unfold State.getIa
    split
    · exact h
    dsimp only
    split <;> rename_i hmeet <;> rw [hmeet] at hm
    · have hrest := ih hm (ia + min m (4096 - ia % 4096)) (m - min m (4096 - ia % 4096))
      split <;> rename_i hget <;> rwa [hget] at hrest
    · exact hm
    · exact hm

end Unwatched

section Loader

variable {n : Nat}

theorem patches_keeps (ia : Nat) (bs : List Byte) : LoadKeeps (Unwatched n) (patches ia bs) := by
  intro s a t hs h
  have hput := hs.putIa 0 2 ia bs
  rwa [patches_inv h] at hput

theorem loads_keeps (ia m : Nat) : LoadKeeps (Unwatched n) (loads ia m) := by
  intro s a t hs h
  have hget := hs.getIa 0 (m / 4096 + 2) ia m
  unfold loads at h
  split at h <;> rename_i hg <;> cases h
  rwa [hg] at hget

theorem loadTable_keeps (ia : Nat) (t : Nat × Nat × Nat) : LoadKeeps (Unwatched n) (loadTable ia t) :=
  LoadKeeps.bind (loads_keeps _ _) fun _ => .pure _

theorem loadObj_keeps (ia : Nat) : LoadKeeps (Unwatched n) (loadObj ia) := by
  refine LoadKeeps.bind (loads_keeps _ _) fun head => ?_
  dsimp only
  split
  · exact .pure _
  · refine (LoadKeeps.mapM (loadTable_keeps ia) _).bind fun tables => ?_
    split <;> exact .pure _

/-- The mark is the last thing that the loader writes. -/
theorem markJudged_last {ia m : Nat} {o : CodeObj} {s t : State} (hs : Unwatched n s)
    (h : markJudged ia m o s = .ok () t) : ∃ u, Unwatched n u ∧ patches (ia + 0x60) (toBytes 4 0x4744554A) u = .ok () t := by
  have hdraw : Unwatched n s.draw.2 := hs
  have hrest (v : Nat) {s : State} (hs : Unwatched n s) (h : (do
      o.sites.forM (fun p => patches (ia + numIn p 0 4) (toBytes 4 m))
      patches (ia + 0x64) (toBytes 2 v)
      patches (ia + 0x60) (toBytes 4 0x4744554A) : LoadOp Unit) s = .ok () t) :
      ∃ u, Unwatched n u ∧ patches (ia + 0x60) (toBytes 4 0x4744554A) u = .ok () t := by
    obtain ⟨_, s1, hsites, h1⟩ := load_bind_inv h
    obtain ⟨_, s2, hindex, h2⟩ := load_bind_inv h1
    exact ⟨s2, patches_keeps _ _ _ _ _ (LoadKeeps.forM (fun p => patches_keeps _ _) _ _ _ _ hs hsites) hindex, h2⟩
  unfold markJudged at h
  rw [load_get] at h
  dsimp only at h
  split at h
  · obtain ⟨_, u, hset, h1⟩ := load_bind_inv h
    cases hset
    exact hrest _ hdraw h1
  · exact hrest _ hs h

end Loader

/-! Bytes written to memory that no page holds. -/

theorem cellsGet_append (m : List Host.Cell) (a i j : Nat) :
    cellsGet m a (i + j) = cellsGet m a i ++ cellsGet m (a + i) j := by
  induction i generalizing a with
  | zero => rw [Nat.zero_add, Nat.add_zero]; rfl
  | succ i ih =>
    rw [Nat.succ_add, cellsGet, cellsGet, ih (a + 1), List.cons_append]
    congr 3
    omega

theorem bytesAt_putBytes_append (s : State) (loc : Nat) (xs ys : List Byte) :
    ((s.putBytes loc xs).putBytes (loc + xs.length) ys).bytesAt loc (xs ++ ys).length = xs ++ ys := by
  have hfirst : ((s.putBytes loc xs).putBytes (loc + xs.length) ys).bytesAt loc xs.length = xs :=
    (cellsGet_congr fun a _ h => cellGet_cellsSet_outside _ _ _ _ (.inl h)).trans (bytesAt_putBytes s loc xs)
  have hsecond := bytesAt_putBytes (s.putBytes loc xs) (loc + xs.length) ys
  unfold State.bytesAt at hfirst hsecond ⊢
  rw [List.length_append, cellsGet_append, hfirst, hsecond]

theorem meet_unpaged {s : State} {ia : Nat} (h : s.whereIs ia ≠ .pageable) (k : Access) (token : Nat) :
    s.meet ia k token = (.ok ia, s) := if_pos (by simpa using h)

theorem putIa_unpaged {n : Nat} {s : State} {ia : Nat} {bs : List Byte} (hs : Unwatched n s) (token fuel : Nat) (hne : bs ≠ [])
    (hw : s.whereIs ia ≠ .pageable) : s.putIa token (fuel + 1) ia bs =
      (s.putBytes ia (bs.take (4096 - ia % 4096))).putIa token fuel (ia + (4096 - ia % 4096)) (bs.drop (4096 - ia % 4096)) := by
  rw [State.putIa, if_neg (by simpa using hne), meet_unpaged hw]
  dsimp only
  rw [hs.clobber]

theorem putIa_nil (s : State) (token fuel ia : Nat) : s.putIa token fuel ia [] = (none, s) := by
  cases fuel <;> rfl

/-- At most 4 KiB written at an address in memory that no page holds stand there. -/
theorem bytesAt_putIa {n : Nat} {s t : State} {token ia : Nat} {bs : List Byte} (hs : Unwatched n s) (hlen : bs.length ≤ 4096)
    (hw : ∀ k, k < bs.length → s.whereIs (ia + k) ≠ .pageable) (h : s.putIa token 2 ia bs = (none, t)) :
    t.bytesAt ia bs.length = bs := by
  by_cases hne : bs = []
  · rw [hne]
    rfl
  have hpos := List.length_pos_of_ne_nil hne
  rw [putIa_unpaged (ia := ia) hs token 1 hne (hw 0 hpos)] at h
  obtain ⟨m, hm⟩ : ∃ m, 4096 - ia % 4096 = m := ⟨_, rfl⟩
  rw [hm] at h
  by_cases hfit : bs.length ≤ m
  · rw [List.drop_eq_nil_of_le hfit, List.take_of_length_le hfit, putIa_nil] at h
    obtain rfl := (Prod.mk.inj h).2
    exact bytesAt_putBytes ..
  · have hrest : bs.drop m ≠ [] := by
      rw [← List.length_pos_iff, List.length_drop]
      omega
    have hall : (bs.drop m).length ≤ 4096 - (ia + m) % 4096 := by
      rw [List.length_drop]
      omega
    have hput : Unwatched n (s.putBytes ia (bs.take m)) := hs.of_backstage ((Backstage.refl s).putBytes ..)
    rw [putIa_unpaged hput token 0 hrest (hw m (by omega)), List.take_of_length_le hall] at h
    obtain rfl := (Prod.mk.inj h).2
    have hboth := bytesAt_putBytes_append s ia (bs.take m) (bs.drop m)
    rwa [List.take_append_drop, List.length_take_of_le (by omega)] at hboth

theorem judgements_noted : Claim.Judgements := by
  intro s s1 obj ncore hp
  refine ⟨fun head s2 hl hmagic => ?_, fun o n s2 s3 ho hj hm => ?_, fun o w s2 ho hj => ?_⟩
  · have hh := headOk_magic hmagic
    exact ⟨_, loaderJudge_refused hp (loadObj_refused hl hh) (judge_refused s2 ncore hh), rfl, rfl⟩
  · obtain ⟨hstep, hlo, hhi, hpos⟩ := resolveCores_bounds (judge_cores hj)
    refine ⟨_, loaderJudge_passed hp ho hj hm, rfl, rfl, hstep, hlo, hhi, hpos, fun hobjects hplace => ?_⟩
    have h0 : Unwatched s.packages s := ⟨hobjects, rfl⟩
    have h1 : Unwatched s.packages s1 := by
      have hput := h0.putIa 0 2 (obj + 0x60) [0, 0, 0, 0]
      rwa [hp] at hput
    obtain ⟨u, hu, hlast⟩ := markJudged_last (loadObj_keeps obj s1 o s2 h1 ho) hm
    have hbytes := bytesAt_putIa hu (by decide) (fun k hk => by
      rw [State.whereIs, hu.2]
      exact hplace k hk) (patches_inv hlast)
    exact (congrArg fromBytes hbytes).trans (by decide)
  · exact ⟨_, loaderJudge_refused hp ho hj, rfl, rfl⟩

/-! The dispatch of a task (R54, R61, R141, R274, R355). -/

theorem startObject_backstage (s : State) (ia : Nat) : Backstage s (s.startObject ia) := by
  have h := objLoc_backstage s ia
  unfold State.startObject
  split
  · rename_i loc s1 ho
    rw [ho] at h
    split
    · exact h.putNum ..
    · exact h
  · exact .refl s

theorem putDisp_backstage (s : State) (ia disp : Nat) : Backstage s (s.putDisp ia disp) := by
  have h := objLoc_backstage s ia
  unfold State.putDisp
  split
  · rename_i loc s1 ho
    rw [ho] at h
    exact h.putNum ..
  · exact .refl s

theorem openLaunch_backstage (s : State) (l : Launch) : Backstage s (s.openLaunch l) := by
  unfold State.openLaunch
  split
  · exact putDisp_backstage ..
  · exact .refl s

theorem startObjects_backstage (l : List Nat) (s : State) : Backstage s (l.foldl State.startObject s) := by
  induction l generalizing s with
  | nil => exact .refl s
  | cons ia l ih => exact (startObject_backstage s ia).trans (ih _)

theorem Seated.startObject {s t : State} {ia loc : Nat} (h : Seated s ia loc [(loc, 64)]) (ht : AtObject loc s t) :
    t.startObject ia = if t.numAt (loc + 0x28) 8 = 0 then t.putNum (loc + 0x28) 8 t.tstamp else t := by
  unfold State.startObject
  rw [h.objLoc ht]

theorem Seated.putDisp {s t : State} {ia loc : Nat} (h : Seated s ia loc [(loc, 64)]) (ht : AtObject loc s t) (disp : Nat) :
    t.putDisp ia disp = t.putNum (loc + 0x0A) 1 disp := by
  unfold State.putDisp
  rw [h.objLoc ht]

/-- A new context among the others, with its account. -/
def State.enrol (s : State) (l : Launch) (c : Context) : State :=
  { s with
    others := s.others ++ [c]
    nextUid := s.nextUid + 1
    nextGen := s.nextGen + 1
    accounts := s.accounts ++ [⟨c.id.uid, c.token, l.lobj, s.now, none, [], []⟩] }

/-- A launch with one task more dispatched, on a core. -/
def Launch.advanced (core : Nat) (l : Launch) : Launch :=
  { l with next := l.next + 1, used := l.used ++ [core], stalled := false }

/-- The objects of a launch once a task of it has been enrolled. -/
def State.started (s : State) (l : Launch) (core : Nat) (c : Context) : State :=
  ((l.lobjIa :: l.chain).foldl State.startObject (s.enrol l c)).mapLaunch l.num (Launch.advanced core)

/-- The same with DISP of the launch's object written. -/
def State.counted (s : State) (l : Launch) (core : Nat) (c : Context) : State :=
  (s.started l core c).putDisp l.lobjIa (if l.next + 1 = l.total then 2 else 1)

/-- What follows a dispatch in the books: the space that the launch keeps, its priority's turn, its core set. -/
def State.booked (s : State) (l : Launch) (core : Nat) (set : Option Spread) : State :=
  ((s.keepSpace l.num core).noteTurn l).mapLaunch l.num (fun k => { k with set := set })

/-- Among free things, the ones that the device chooses use up choices alone. -/
theorem vacant_draws {s s1 : State} {l : Launch} {core slot cid frame ext : Nat} (h : Vacant s l core slot cid frame ext s1) :
    ∃ n, s1 = { s with freeAt := n } := by
  obtain ⟨s2, s3, _, hframes, hslot, hcid⟩ := h
  have h2 : s2 = s.draw.2.draw.2 := by
    unfold State.takeFrames at hframes
    dsimp only at hframes
    repeat' split at hframes
    all_goals cases hframes
    rfl
  have h3 : s3 = s2.draw.2 := (congrArg Prod.snd hslot).symm
  have h1 : s1 = s3.draw.2 := (congrArg Prod.snd hcid).symm
  exact ⟨s.freeAt + 4, by rw [h1, h3, h2]; rfl⟩

theorem placeTasks_vacant {s s1 : State} {l : Launch} {core slot cid frame ext : Nat} (set : Option Spread)
    (hl : s.launch l.num = some l) (h : Vacant s l core slot cid frame ext s1) : s.placeTasks l [core] set =
      some ((s1.counted l core (s1.newContext l core slot cid frame ext none [])).booked l core set) := by
  obtain ⟨s2, s3, hcells, hframes, hslot, hcid⟩ := h
  have hres (e : Nat) :
      s2.reserveOn l.demands.tcells (reserveEasels l.demands.tcells l.demands.group core e) = (some [], s2) := by
    rw [hcells]
    rfl
  have hplace : s.placeTask l.num core =
      some ((s1.counted l core (s1.newContext l core slot cid frame ext none [])).keepSpace l.num core) := by
    unfold State.placeTask
    rw [hl]
    dsimp only
    rw [show clusterOf core = core / 4 from rfl, hframes]
    dsimp only
    rw [hres, if_pos hcells]
    dsimp only
    rw [hslot]
    dsimp only
    rw [hcid]
    rfl
  unfold State.placeTasks
  rw [List.foldlM_cons, hplace]
  rfl

theorem started_launches (s : State) (l : Launch) (core : Nat) (c : Context) : (s.started l core c).launches =
    s.launches.map (fun k => if k.num = l.num then k.advanced core else k) := by
  rw [State.started, mapLaunch_launches, (startObjects_backstage ..).launches]
  rfl

/-- Enrolled, and with its launch counted: memory, what stands beside it and what counts and reports are free. -/
def Enrolled (s t : State) (l : Launch) (core : Nat) (c : Context) : Prop :=
  t.cur = s.cur ∧ t.others = s.others ++ [c] ∧ t.nextUid = s.nextUid + 1 ∧ t.nextGen = s.nextGen + 1 ∧
    t.lastLaunch = s.lastLaunch ∧ t.launches = s.launches.map (fun k => if k.num = l.num then k.advanced core else k)

theorem counted_enrolled (s : State) (l : Launch) (core : Nat) (c : Context) : Enrolled s (s.counted l core c) l core c := by
  have hput : Backstage (s.started l core c) (s.counted l core c) := putDisp_backstage ..
  have hobj : Backstage (s.enrol l c) ((l.lobjIa :: l.chain).foldl State.startObject (s.enrol l c)) := startObjects_backstage ..
  have hlaunches := hput.launches.trans (started_launches s l core c)
  exact ⟨(congrArg State.cur hput :).trans (congrArg State.cur hobj :),
    (congrArg State.others hput :).trans (congrArg State.others hobj :),
    (congrArg State.nextUid hput :).trans (congrArg State.nextUid hobj :),
    (congrArg State.nextGen hput :).trans (congrArg State.nextGen hobj :),
    (congrArg State.lastLaunch hput :).trans (congrArg State.lastLaunch hobj :), hlaunches⟩

/-- One resident task more in a place. -/
theorem residents_enrolled {s t : State} {l : Launch} {core : Nat} {c : Context} (h : Enrolled s t l core c)
    (hc : c.sched.place = .slot ∧ c.id.sup = false ∧ c.job.launch = l.num) (f : Context → Bool) (hf : f c = true) :
    ((t.residents l.num).filter f).length = ((s.residents l.num).filter f).length + 1 := by
  obtain ⟨hcur, hothers, _⟩ := h
  obtain ⟨hplace, hsup, hjob⟩ := hc
  have hall : t.contexts = s.contexts ++ [c] := by
    rw [State.contexts, State.contexts, hcur, hothers, List.cons_append]
  have hres : (c.resident && !c.id.sup && c.job.launch = l.num) = true := by
    simp [Context.resident, hplace, hsup, hjob]
  unfold State.residents
  rw [hall]
  simp only [List.filter_append, List.filter_cons, hres, hf, if_true, List.filter_nil, List.length_append, List.length_singleton]

theorem booked_launches (s : State) (l : Launch) (core : Nat) (set : Option Spread) : (s.booked l core set).launches =
    s.launches.map (fun k => if k.num = l.num then { k with
      set := set
      tcmKept := atLeast k.tcmKept core ((s.residents l.num).filter (fun d => d.id.core = core)).length k.demands.tcm
      palKept := atLeast k.palKept (core / 4)
        ((s.residents l.num).filter (fun d => d.id.core / 4 = core / 4)).length k.demands.pal } else k) := by
  unfold State.booked State.keepSpace
  rw [mapLaunch_launches, State.noteTurn]
  dsimp only
  rw [mapLaunch_launches, List.map_map]
  refine List.map_congr_left fun k _ => ?_
  by_cases hk : k.num = l.num
  · rw [Function.comp_apply, if_pos hk, if_pos hk, if_pos hk]
    rfl
  · rw [Function.comp_apply, if_neg hk, if_neg hk, if_neg hk]

theorem newContext_dispatched {s t : State} {l : Launch} {core slot cid frame ext : Nat} (set : Option Spread)
    (h : Enrolled s t l core (s.newContext l core slot cid frame ext none [])) :
    Dispatched s (t.booked l core set) l core slot cid frame ext set (s.newContext l core slot cid frame ext none []) := by
  have hres := residents_enrolled h ⟨rfl, rfl, rfl⟩
  obtain ⟨hcur, hothers, huid, hgen, hlast, hlaunches⟩ := h
  refine ⟨hcur, hothers, huid, hgen, congrArg (tabPut · (l.queue / 16) l.num) hlast, ?_, rfl, rfl, rfl, rfl, rfl, rfl, rfl⟩
  rw [booked_launches, hres _ (decide_eq_true rfl), hres _ (decide_eq_true rfl), hlaunches, List.map_map]
  refine List.map_congr_left fun k _ => ?_
  by_cases hk : k.num = l.num
  · have hnum : (k.advanced core).num = l.num := hk
    rw [Function.comp_apply, if_pos hk, if_pos hnum, if_pos hk]
    rfl
  · rw [Function.comp_apply, if_neg hk, if_neg hk, if_neg hk]

/-- A task of a launch has begun, as its object tells: DISP, and TSTART where it is the first. -/
def Begun (s t : State) (l : Launch) (loc : Nat) : Prop :=
  t.numAt (loc + 0x0A) 1 = (if l.next + 1 = l.total then 2 else 1) ∧
    (s.numAt (loc + 0x28) 8 = 0 → t.numAt (loc + 0x28) 8 = s.tstamp % 2 ^ 64) ∧
    ∀ a, a < loc ∨ loc + 64 ≤ a → cellGet t.mem a = cellGet s.mem a

theorem Seated.of_atObject {s t : State} {ia loc : Nat} (h : Seated s ia loc [(loc, 64)]) (ht : AtObject loc s t) :
    Seated t ia loc [(loc, 64)] := fun _ hp hc hm _ token hk =>
  h.meet (ht.trans ⟨hp, hc, fun a ha => hm a fun p hp => by obtain rfl := List.mem_singleton.1 hp; exact ha⟩) token hk

theorem startObject_begun {s : State} {ia loc : Nat} (h : Seated s ia loc [(loc, 64)]) :
    AtObject loc s (s.startObject ia) ∧
      (s.numAt (loc + 0x28) 8 = 0 → (s.startObject ia).numAt (loc + 0x28) 8 = s.tstamp % 2 ^ 64) := by
  rw [h.startObject (.refl loc s)]
  split
  · exact ⟨(AtObject.refl loc s).putNum (by decide), fun _ => numAt_putNum ..⟩
  · exact ⟨.refl loc s, fun h0 => absurd h0 ‹_›⟩

theorem counted_begun {s : State} {l : Launch} {loc : Nat} (hchain : l.chain = []) (h : Seated s l.lobjIa loc [(loc, 64)])
    (core : Nat) (c : Context) : Begun s (s.counted l core c) l loc := by
  have henrol : AtObject loc s (s.enrol l c) := ⟨rfl, rfl, fun _ _ => rfl⟩
  obtain ⟨hat, hstart⟩ := startObject_begun (h.of_atObject henrol)
  have hstarted : s.started l core c = ((s.enrol l c).startObject l.lobjIa).mapLaunch l.num (Launch.advanced core) := by
    rw [State.started, hchain]
    rfl
  obtain ⟨v, hv⟩ : ∃ v, (s.enrol l c).startObject l.lobjIa = v := ⟨_, rfl⟩
  rw [hv] at hat hstart hstarted
  have hmap : AtObject loc s (s.started l core c) := by
    rw [hstarted]
    exact (henrol.trans hat).trans ⟨rfl, rfl, fun _ _ => rfl⟩
  have hcounted := h.putDisp hmap (if l.next + 1 = l.total then 2 else 1)
  change Begun s ((s.started l core c).putDisp _ _) l loc
  rw [hcounted]
  refine ⟨(numAt_putNum ..).trans (by split <;> rfl), fun h0 => ?_, (hmap.putNum (by decide)).outside⟩
  refine (numAt_putNum_apart _ (.inl (by omega))).trans ?_
  rw [hstarted]
  exact hstart h0

theorem Dispatched.of_backstage {s u t : State} {l : Launch} {core slot cid frame ext : Nat} {set : Option Spread} {c : Context}
    (hb : Backstage s u) (h : Dispatched u t l core slot cid frame ext set c) :
    Dispatched s t l core slot cid frame ext set c :=
  (congrArg (fun v : State => Dispatched v t l core slot cid frame ext set c) hb : _ = _) ▸ h

theorem Begun.of_mem {s u t v : State} {l : Launch} {loc : Nat} (h : Begun u t l loc) (hmem : u.mem = s.mem)
    (htime : u.tstamp = s.tstamp) (hv : v.mem = t.mem) : Begun s v l loc := by
  have hu (a m : Nat) : u.numAt a m = s.numAt a m := numAt_congr fun _ _ _ => by rw [hmem]
  have ht (a m : Nat) : v.numAt a m = t.numAt a m := numAt_congr fun _ _ _ => by rw [hv]
  obtain ⟨hdisp, hstart, hout⟩ := h
  refine ⟨(ht ..).trans hdisp, fun h0 => ?_, fun a ha => ?_⟩
  · rw [ht, hstart ((hu ..).trans h0), htime]
  · rw [hv, hout a ha, hmem]

theorem booked_mem (s : State) (l : Launch) (core : Nat) (set : Option Spread) : (s.booked l core set).mem = s.mem := rfl

/-- A launch whose next task finds what it needs on a core is dispatched there. -/
theorem placeTasks_dispatched {s s1 : State} {l : Launch} {core slot cid frame ext : Nat} (set : Option Spread)
    (hl : s.launch l.num = some l) (hv : Vacant s l core slot cid frame ext s1) :
    ∃ t c, s.placeTasks l [core] set = some t ∧ Dispatched s t l core slot cid frame ext set c ∧
      ∀ loc, l.chain = [] → Seated s l.lobjIa loc [(loc, 64)] → Begun s t l loc := by
  have hplace := placeTasks_vacant set hl hv
  obtain ⟨n, hn⟩ := vacant_draws hv
  have hback : Backstage s s1 := by
    rw [hn]
    rfl
  have hat (loc : Nat) : AtObject loc s s1 := by
    rw [hn]
    exact ⟨rfl, rfl, fun _ _ => rfl⟩
  have hmem : s1.mem = s.mem := by rw [hn]
  exact ⟨_, _, hplace, (newContext_dispatched set (counted_enrolled ..)).of_backstage hback, fun loc hchain h =>
    (counted_begun hchain (h.of_atObject (hat loc)) core _).of_mem hmem hback.tstamp (booked_mem ..)⟩

/-! A launch that may dispatch (R66). -/

section Open

variable {s : State} {lobj : Nat} {l : Launch} (hobj : s.launchOf lobj = some l) (hper : s.permitted l = true)
  (hmiss : s.missing l = none) (hbusy : ∀ ia ∈ l.lobjIa :: l.chain, s.objBusy ia = false)
include hper hmiss

theorem openLaunch_new {loc : Nat} (h : Seated s l.lobjIa loc [(loc, 64)]) (h0 : s.numAt (loc + 0x0A) 1 = 0) :
    s.openLaunch l = s.putNum (loc + 0x0A) 1 1 := by
  have hdisp : s.dispOf l.lobjIa = 0 := by
    unfold State.dispOf
    rw [h.meet (.refl loc s) 0 (by decide)]
    exact h0
  unfold State.openLaunch
  rw [if_pos (by simp [hper, hmiss, hdisp])]
  exact h.putDisp (.refl loc s) 1

include hobj hbusy

theorem dispatch_open : s.dispatch lobj =
    if (s.openLaunch l).mayDispatch l then (s.openLaunch l).dispatchNext l else s.openLaunch l := by
  have hany : (l.lobjIa :: l.chain).any s.objBusy = false := List.any_eq_false.2 fun ia hia => by simp [hbusy ia hia]
  unfold State.dispatch
  rw [hobj]
  dsimp only
  rw [hper, hmiss, hany]
  rfl

end Open

theorem openLaunch_object {s : State} {l : Launch} {loc : Nat} (h : Seated s l.lobjIa loc [(loc, 64)]) :
    AtObject loc s (s.openLaunch l) ∧ (s.openLaunch l).numAt (loc + 0x28) 8 = s.numAt (loc + 0x28) 8 := by
  unfold State.openLaunch
  split
  · rw [h.putDisp (.refl loc s)]
    exact ⟨(AtObject.refl loc s).putNum (by decide), numAt_putNum_apart _ (.inl (by omega))⟩
  · exact ⟨.refl loc s, rfl⟩

theorem dispatches_made : Claim.Dispatches := by
  intro s lobj l hobj hl hper hmiss hbusy
  have hrun := dispatch_open hobj hper hmiss hbusy
  have hexec : exec (.taskDispatch lobj) s = .next (s.dispatch lobj) := rfl
  refine ⟨fun loc h h0 htarget => ?_, fun s0 s1 core slot cid frame ext set hs0 hmay hco htarget hfits hrank hv => ?_⟩
  · have hnone : (s.openLaunch l).dispatchNext l = s.openLaunch l := by
      unfold State.dispatchNext
      rw [htarget]
    rw [hnone, ite_self, openLaunch_new hper hmiss h h0] at hrun
    exact ⟨_, hexec.trans (congrArg _ hrun), wrote_of_noted rfl⟩
  · have hb : Backstage s s0 := hs0 ▸ openLaunch_backstage s l
    have hl0 : s0.launch l.num = some l := by rwa [State.launch, hb.launches]
    obtain ⟨t, c, hplace, hdisp, hbegun⟩ := placeTasks_dispatched set hl0 hv
    have hnext : s0.dispatchNext l = t := by
      have hclear : s0.cleared l [core] = s0 := by
        unfold State.cleared
        rw [hco]
        rfl
      unfold State.dispatchNext
      rw [htarget]
      dsimp only
      rw [hclear, hfits, hrank, hplace]
      rfl
    rw [← hs0, if_pos hmay, hnext] at hrun
    refine ⟨t, c, hexec.trans (congrArg _ hrun), hdisp.of_backstage hb, fun loc hchain h => ?_⟩
    obtain ⟨hat, hstart⟩ := openLaunch_object h
    rw [← hs0] at hat hstart
    obtain ⟨hd, hfirst, hout⟩ := hbegun loc hchain (h.of_atObject hat)
    exact ⟨hd, fun h0 => (hfirst (hstart.trans h0)).trans (congrArg (· % 2 ^ 64) hb.tstamp),
      fun a ha => (hout a ha).trans (hat.outside a ha)⟩

/-! Streaming graphs (R68). -/

/-- One step of the search for the task that has been blocked longest. -/
def longer (b : Option Context) (c : Context) : Option Context :=
  match b with
  | none => some c
  | some d => if c.sync.since < d.sync.since then some c else some d

/-- The search from a task that has been found goes on to one blocked at least as long as it and as any later one. -/
theorem foldl_longer_some (l : List Context) (b : Context) : ∃ d, l.foldl longer (some b) = some d ∧ (d = b ∨ d ∈ l) ∧
    d.sync.since ≤ b.sync.since ∧ ∀ c ∈ l, d.sync.since ≤ c.sync.since := by
  induction l generalizing b with
  | nil => exact ⟨b, rfl, .inl rfl, le_rfl, by simp⟩
  | cons a l ih =>
    rw [List.foldl_cons]
    by_cases hab : a.sync.since < b.sync.since
    · obtain ⟨d, hd, hmem, hda, hall⟩ := ih a
      have hstep : longer (some b) a = some a := if_pos hab
      refine ⟨d, by rw [hstep, hd], .inr ?_, hda.trans hab.le, List.forall_mem_cons.2 ⟨hda, hall⟩⟩
      exact hmem.elim (fun h => h ▸ List.mem_cons_self) (List.mem_cons_of_mem a)
    · obtain ⟨d, hd, hmem, hdb, hall⟩ := ih b
      have hstep : longer (some b) a = some b := if_neg hab
      exact ⟨d, by rw [hstep, hd], hmem.imp_right (List.mem_cons_of_mem a), hdb,
        List.forall_mem_cons.2 ⟨hdb.trans (Nat.le_of_not_lt hab), hall⟩⟩

/-- The task that leaves is one that has been blocked longest, where one is blocked. -/
theorem evictOne_blocked {s : State} {num : Nat} {c d : Context} (h : s.evictOne num = some d)
    (hc : c ∈ ((s.residents num).filter (fun c => !c.sched.parked && c.sched.ending.isNone)).filter
      (fun c => c.sync.wait.evictable && !(s.waitOver c))) :
    d ∈ ((s.residents num).filter (fun c => !c.sched.parked && c.sched.ending.isNone)).filter
      (fun c => c.sync.wait.evictable && !(s.waitOver c)) ∧ d.sync.since ≤ c.sync.since := by
  unfold State.evictOne at h
  dsimp only at h
  obtain ⟨l, hl⟩ : ∃ l, ((s.residents num).filter (fun c => !c.sched.parked && c.sched.ending.isNone)).filter
      (fun c => c.sync.wait.evictable && !(s.waitOver c)) = l := ⟨_, rfl⟩
  rw [hl] at h hc ⊢
  change (match l.foldl longer none with | some c => some c | none => _) = some d at h
  cases l with
  | nil => cases hc
  | cons a l =>
    obtain ⟨e, he, hmem, hea, hall⟩ := foldl_longer_some l a
    rw [List.foldl_cons, show longer none a = some a from rfl, he] at h
    obtain rfl := Option.some.inj h
    refine ⟨List.mem_cons.2 hmem, ?_⟩
    rcases List.mem_cons.1 hc with rfl | hc
    · exact hea
    · exact hall c hc

theorem rebalance_stageless {s : State} {graph : Nat}
    (h : ∀ l ∈ s.launches, l.chain.head? = some graph → l.stage = false) : s.rebalance graph = s := by
  have hstages : s.launches.filter (fun l => !l.finished && l.stage && l.chain.head? = some graph) = [] := by
    refine List.filter_eq_nil_iff.2 fun l hl hstage => ?_
    rw [Bool.and_eq_true, Bool.and_eq_true, decide_eq_true_eq] at hstage
    exact Bool.false_ne_true ((h l hl hstage.2).symm.trans hstage.1.2)
  unfold State.rebalance
  rw [hstages]
  rfl

section TwoStages

variable {s : State} {graph : Nat} {h k : Launch} (hall : s.launches = [h, k]) (hhf : h.finished = false)
  (hkf : k.finished = false) (hhs : h.stage = true) (hks : k.stage = true) (hhc : h.chain.head? = some graph)
  (hkc : k.chain.head? = some graph) (hin : h.qin = 0) (hout : h.qout = 0) (hkin : k.qin ≠ 0) (hco : k.coresident = false)
  (hmax : (s.residents h.num).length < h.slotmax) (hmin : k.slotmin < (s.residents k.num).length)
  (hempty : s.numAt (k.qin + 0x10) 4 = s.numAt (k.qin + 0x14) 4)
include hall hhf hkf hhs hks hhc hkc hin hout hkin hco hmax hmin hempty

/-- Of a full first stage and one with nothing to do, the second gives a task up for the first. -/
theorem rebalance_two : s.rebalance graph = (s.evictOne k.num).elim s fun d =>
    ((s.saveContext d.id.uid .evicted none).event (clusterOf d.id.core) 26).dispatchOne h d := by
  have hfill : (s.ringFill k.qin).1 = 0 := by
    have hlt := numAt_lt s (k.qin + 0x14) 4
    unfold State.ringFill
    rw [hempty]
    omega
  have hstages : s.launches.filter (fun l => !l.finished && l.stage && l.chain.head? = some graph) = [h, k] := by
    rw [hall]
    simp [hhf, hkf, hhs, hks, hhc, hkc]
  unfold State.rebalance
  rw [hstages]
  cases hev : s.evictOne k.num <;> simp [hin, hout, hkin, hco, hfill, hmax, hmin, hev]

end TwoStages

section NoneWakes

variable {s : State} {h : Launch} {gone : Context} (hw : ∀ c ∈ s.contexts, c.job.launch = h.num → s.wakes c = false)
include hw

theorem noneRestored : s.contexts.findSome? (fun d => if d.job.launch = h.num && s.wakes d && d.id.uid != gone.id.uid &&
    !(s.classShed (pkgOf d.id.core) d.reg.cls) then
      (s.restoreInto d gone.id.core).bind (fun core => if s.yields d core then none else some (d, core)) else none) = none := by
  refine List.findSome?_eq_none_iff.2 fun c hc => if_neg fun hcond => ?_
  rw [Bool.and_eq_true, Bool.and_eq_true, Bool.and_eq_true, decide_eq_true_eq] at hcond
  exact Bool.false_ne_true ((hw c hc hcond.1.1.1).symm.trans hcond.1.1.2)

/-- Where no task of a stage wakes and none of it may be dispatched, nothing takes the place of the task that has gone. -/
theorem dispatchOne_stays (hmay : s.mayDispatch h = false) : s.dispatchOne h gone = s := by
  unfold State.dispatchOne
  dsimp only
  rw [noneRestored hw]
  dsimp only
  rw [hmay]
  rfl

/-- A task of the stage takes the place of the one that has gone. -/
theorem dispatchOne_placed {t : State} (hmay : s.mayDispatch h = true) (hmiss : s.missing h = none) (hone : h.together = 1)
    (hcould : s.couldTake h gone.id.core = true) (hfits : s.fitsNow h [gone.id.core] = true)
    (hrank : s.outranked h [gone.id.core] (some gone.id.uid) = false)
    (hplace : s.placeTasks h [gone.id.core] none = some t) : s.dispatchOne h gone = t := by
  unfold State.dispatchOne
  dsimp only
  rw [noneRestored hw]
  dsimp only
  rw [hmay, hmiss, if_neg (by decide), if_pos (by simp [hone, hcould, hfits, hrank]), hplace]
  rfl

end NoneWakes

theorem rebalances_made : Claim.Rebalances := by
  intro s graph
  have hexec : exec (.streamRebalance graph) s = .next (s.rebalance graph) := rfl
  refine ⟨fun h => hexec.trans (congrArg _ (rebalance_stageless h)), ?_⟩
  intro h k hall hhf hkf hhs hks hhc hkc hin hout hkin hco hmax hmin hempty
  have htwo := rebalance_two hall hhf hkf hhs hks hhc hkc hin hout hkin hco hmax hmin hempty
  refine ⟨fun hev => hexec.trans (congrArg _ (htwo.trans (by rw [hev]; rfl))), fun d hev => ?_⟩
  intro blocked s1
  have hrun : exec (.streamRebalance graph) s = .next (s1.dispatchOne h d) :=
    hexec.trans (congrArg _ (htwo.trans (by rw [hev]; rfl)))
  refine ⟨fun c hc => ?_, fun hw => ⟨fun hmay => ?_,
    fun slot cid frame ext s2 hmay hl hmiss hone hcould hfits hrank hv => ?_⟩⟩
  · have hblocked (c : Context) : c ∈ ((s.residents k.num).filter (fun c => !c.sched.parked && c.sched.ending.isNone)).filter
        (fun c => c.sync.wait.evictable && !(s.waitOver c)) ↔ blocked c := by
      simp only [List.mem_filter, Bool.and_eq_true, Bool.not_eq_true', Option.isNone_iff_eq_none]
      exact ⟨fun ⟨⟨hmem, hpark, hend⟩, hwait, hover⟩ => ⟨hmem, hpark, hend, hwait, hover⟩,
        fun ⟨hmem, hpark, hend, hwait, hover⟩ => ⟨⟨hmem, hpark, hend⟩, hwait, hover⟩⟩
    obtain ⟨hd, hsince⟩ := evictOne_blocked hev ((hblocked c).2 hc)
    exact ⟨(hblocked d).1 hd, hsince⟩
  · exact hrun.trans (congrArg _ (dispatchOne_stays hw hmay))
  · obtain ⟨t, c, hplace, hdisp, _⟩ := placeTasks_dispatched none hl hv
    exact ⟨t, c, hrun.trans (congrArg _ (dispatchOne_placed hw hmay hmiss hone hcould hfits hrank hplace)), hdisp⟩

/-- Settles O54: the loader, dispatch, the completion tree and streaming graphs, each by its own theorem. -/
theorem launchSteps : Obligations.LaunchSteps :=
  ⟨judgements_noted, dispatches_made, treeForwards_joined, rebalances_made⟩

end Sys2Proof.Machine
end

section
/-! PROOF. The state after package reset (O38). -/

namespace Sys2Proof.Machine

/-- Each core of package 0 has its supervisor at reset (R107). -/
theorem supervisorAtReset_mem (k : Nat) (h : k < 512) : supervisorAtReset k ∈ State.reset.contexts := by
  unfold State.contexts State.reset supervisorsAtReset
  cases k with
  | zero => exact List.mem_cons_self ..
  | succ k => simpa using Or.inr ⟨k, by omega, rfl⟩

/-- Every context at reset is the supervisor of a core. -/
theorem mem_contexts_reset {c : Context} (h : c ∈ State.reset.contexts) : ∃ k, c = supervisorAtReset k := by
  unfold State.contexts State.reset supervisorsAtReset at h
  rcases List.mem_cons.mp h with rfl | h
  · exact ⟨0, rfl⟩
  · simp only [List.mem_map] at h
    obtain ⟨k, -, rfl⟩ := h
    exact ⟨k + 1, rfl⟩

/-- Every x register reads zero at reset (R109). -/
theorem arg_reset (a : XReg) : State.reset.arg a = 0 := by
  have : State.reset.cur.reg.x[a] = 0 := Vector.getElem_replicate ..
  unfold State.arg
  split
  · rfl
  · exact this

/-- Settles O38: the supervisors are listed core by core, and every other part of the reset state is a literal. -/
theorem resetState : Obligations.ResetState := by
  unfold Obligations.ResetState
  refine ⟨rfl, wf_reset, rfl, rfl, rfl, fun c hc => ?_, fun k hk => ⟨_, supervisorAtReset_mem k hk, rfl⟩, rfl, rfl,
    arg_reset, fun _ => ⟨rfl, rfl, rfl⟩, fun _ => rfl, fun _ => ⟨rfl, rfl⟩, rfl, rfl⟩
  obtain ⟨k, rfl⟩ := mem_contexts_reset hc
  exact ⟨rfl, rfl, rfl⟩

end Sys2Proof.Machine
end

section
/-! PROOF. Vector conversions (O18), after the rules of vector results that they use. -/

namespace Sys2Proof.Machine

/-! Elements of a register (R110, R146). -/

/-- An element as the statements read it. -/
theorem elem_eq_laneOf (v : VReg) (w i : Nat) : v.elem w i = laneOf w v.bits i := by
  simp [VReg.elem, laneOf, BitVec.extractLsb'_toNat, Nat.shiftRight_eq_div_pow]

theorem packElems_lt (w : Nat) (l : List Nat) : packElems w l < 2 ^ (l.length * w) := by
  induction l with
  | nil => simp [packElems]
  | cons e l ih =>
    have he : e % 2 ^ w < 2 ^ w := Nat.mod_lt _ (by positivity)
    have h : packElems w (e :: l) = packElems w l * 2 ^ w + e % 2 ^ w := rfl
    have hs : (packElems w l + 1) * 2 ^ w ≤ 2 ^ (l.length * w) * 2 ^ w := Nat.mul_le_mul_right _ ih
    rw [h, List.length_cons, Nat.add_mul, Nat.one_mul, Nat.pow_add]
    rw [Nat.add_mul] at hs
    omega

/-- Element i of packed elements. -/
theorem packElems_lane (w : Nat) (l : List Nat) (i : Nat) (h : i < l.length) :
    packElems w l / 2 ^ (w * i) % 2 ^ w = l[i] % 2 ^ w := by
  induction l generalizing i with
  | nil => simp at h
  | cons e l ih =>
    have hc : packElems w (e :: l) = packElems w l * 2 ^ w + e % 2 ^ w := rfl
    cases i with
    | zero => simp [hc]
    | succ i =>
      have hd : (packElems w l * 2 ^ w + e % 2 ^ w) / 2 ^ w = packElems w l := by
        rw [Nat.mul_comm, Nat.mul_add_div (by positivity), Nat.div_eq_of_lt (Nat.mod_lt _ (by positivity)), Nat.add_zero]
      rw [Nat.mul_succ, Nat.add_comm, Nat.pow_add, ← Nat.div_div_eq_div_mul, hc, hd]
      exact ih i (by simpa using h)

theorem rows_eq (s : State) : s.cur.rows = (s.cur.reg.shape.extractLsb' 16 16).toNat := by
  simp [Context.rows, bitsOf, BitVec.extractLsb'_toNat, Nat.shiftRight_eq_div_pow]

theorem cols_eq (s : State) : s.cur.cols = (s.cur.reg.shape.extractLsb' 0 16).toNat := by
  simp [Context.cols, bitsOf, BitVec.extractLsb'_toNat]

theorem grid_eq (s : State) : s.cur.grid = s.elements := by
  unfold Context.grid State.elements
  rw [rows_eq, cols_eq]

theorem active_vpxOf (s : State) (p : Option Vpx) (w i : Nat) : s.cur.active (vpxOf p).mask w i = s.isOn p w i := by
  cases p with
  | none => rfl
  | some v => by_cases h : v.mask = 0 <;> simp [vpxOf, Context.active, State.isOn, h]

theorem mz_vpxOf (p : Option Vpx) : (vpxOf p).mz = zeroing p := by cases p <;> rfl

/-- ResolveMode as the statements write it (R131). -/
theorem resolveMode_eq (s : State) (rnd : Fin 8) (narrowing : Bool) :
    resolveMode rnd.val s.cur.rnd narrowing = s.roundMode rnd narrowing := by
  have hr : s.cur.rnd = (s.cur.reg.fps.extractLsb' 9 3).toNat := by
    simp [Context.rnd, bitsOf, BitVec.extractLsb'_toNat, Nat.shiftRight_eq_div_pow]
  unfold resolveMode State.roundMode
  rw [hr]
  simp only [Fin.ext_iff, Fin.val_zero, Bool.and_eq_true, decide_eq_true_eq, Bool.not_eq_true']

theorem modeV_vpxOf (s : State) (p : Option Vpx) (narrowing : Bool) :
    s.cur.modeV (vpxOf p) narrowing = s.vecMode p narrowing := by
  have h : (vpxOf p).rnd = (p.map (fun v => v.rnd)).getD 0 := by cases p <;> rfl
  unfold Context.modeV State.vecMode
  rw [resolveMode_eq, h]

/-! A vector destination (R147). -/

/-- The bits of packed elements that fit a register. -/
theorem toNat_packElems {n : Nat} (w : Nat) (l : List Nat) (h : l.length * w ≤ n) :
    (BitVec.ofNat n (packElems w l)).toNat = packElems w l := by
  rw [BitVec.toNat_ofNat]
  exact Nat.mod_eq_of_lt ((packElems_lt w l).trans_le (Nat.pow_le_pow_right Nat.two_pos h))

theorem laneOf_lt (w : Nat) (b : BitVec 4096) (i : Nat) : laneOf w b i < 2 ^ w := Nat.mod_lt _ (by positivity)

/-- Every element below n of a vector result. -/
theorem vecResult_lane (c : Context) (v : Vpx) (d : VNum) (w : Nat) (tag : FmtCode) (comp : Bool) (res : Nat → Nat)
    (hf : c.grid * w ≤ 4096) (i : Nat) (hi : i < c.grid) :
    laneOf w (c.vecResult v d w tag comp res).bits i =
      if c.active v.mask w i then res i % 2 ^ w else if v.mz then 0 else laneOf w c.reg.v[d].bits i := by
  unfold Context.vecResult laneOf
  rw [toNat_packElems _ _ (by simpa using hf), packElems_lane _ _ _ (by simpa using hi)]
  simp only [List.getElem_map, List.getElem_range, elem_eq_laneOf]
  split_ifs
  · rfl
  · exact Nat.zero_mod _
  · exact Nat.mod_eq_of_lt (laneOf_lt ..)

/-- Nothing lies above the n elements of a vector result. -/
theorem vecResult_lt (c : Context) (v : Vpx) (d : VNum) (w : Nat) (tag : FmtCode) (comp : Bool) (res : Nat → Nat)
    (hf : c.grid * w ≤ 4096) : (c.vecResult v d w tag comp res).bits.toNat < 2 ^ (c.grid * w) := by
  unfold Context.vecResult
  rw [toNat_packElems _ _ (by simpa using hf)]
  exact (packElems_lt w _).trans_eq (by rw [List.length_map, List.length_range])

/-- An instruction that writes a vector result over registers r, and retires. -/
theorem writes_retired {s : State} {p : Option Vpx} {d : VNum} {w : Nat} {tag : FmtCode} {comp : Bool} {v : Vpx}
    {on : Nat → Bool} {res out : Nat → Nat} (r : Regs) (hf : s.fits w) (hz : v.mz = zeroing p)
    (hon : ∀ i, s.cur.active v.mask w i = on i) (hres : ∀ i, i < s.elements → on i = true → out i = res i) :
    Writes s (({ s with cur := { s.cur with
      reg := { r with v := r.v.set d (s.cur.vecResult v d w tag comp out) } } } : State).retired (lenV p))
      p d w tag (comp && tag = 14) on res r := by
  have hg : s.cur.grid * w ≤ 4096 := grid_eq s ▸ hf.1
  refine ⟨_, finishes_retired .., rfl, rfl, fun i hi => ?_, grid_eq s ▸ vecResult_lt _ _ _ _ _ _ _ hg⟩
  rw [vecResult_lane _ _ _ _ _ _ _ hg _ (grid_eq s ▸ hi), hon, hz]
  by_cases ho : on i = true
  · rw [if_pos ho, if_pos ho, hres i hi ho]
  · rw [if_neg ho, if_neg ho]

/-! The checks (R146, R148). -/

theorem needShape_fits {s : State} {w : Nat} (h : s.fits w) : needShape w s = .ok ⟨⟩ s := by
  have hb : s.cur.shapeBad w = false := by
    unfold Context.shapeBad
    rw [grid_eq]
    by_cases hw : w = 4
    · subst hw
      simp [Nat.not_lt.mpr h.1, h.2 rfl]
    · simp [hw, Nat.not_lt.mpr h.1]
  unfold needShape
  rw [self_bind_run, hb]
  rfl

theorem tagOk_some {v : VReg} {f : FmtCode} (h : v.tag = f) (h0 : f ≠ 0) (h15 : f ≠ 15) : tagOk v (some f) = true := by
  subst h
  simp [tagOk, h0, h15]

theorem needTag_carries {s : State} {a : VNum} {f : FmtCode} (h : s.carries a f) : needTag a (some f) s = .ok ⟨⟩ s := by
  obtain ⟨ht, h0, h15⟩ := h
  unfold needTag
  rw [self_bind_run, tagOk_some ht h0 h15]
  rfl

/-! Results of all elements. -/

theorem getAt_map_range {α : Type} (n i : Nat) (g : Nat → α) (x : α) (h : i < n) :
    getAt ((List.range n).map g) i x = g i := by
  simp [getAt, h]

/-- The flags of the selected elements alone. -/
theorem flagsOf_lanes (n : Nat) (on : Nat → Bool) (res : Nat → Nat × Flags) :
    flagsOf ((List.range n).map (fun i => if on i then res i else (0, 0))) = flagsUpTo n on (fun k => (res k).2) := by
  unfold flagsOf flagsUpTo
  rw [List.foldl_map]
  congr 1
  funext f i
  split <;> simp

/-! Conversions (R44, R162). -/

/-- FPS.LFSR after n steps where a mode steps it, and untouched where it does not (R44). -/
def lfsrAfter (sr : Bool) (n : Nat) (l : BitVec 32) : BitVec 32 := lfsrStep^[if sr then n else 0] l

theorem lfsrAfter_succ (sr : Bool) (n : Nat) (l : BitVec 32) :
    (if sr then lfsrStep (lfsrAfter sr n l) else lfsrAfter sr n l) = lfsrAfter sr (n + 1) l := by
  cases sr with
  | false => rfl
  | true => exact (Function.iterate_succ_apply' lfsrStep n l).symm

/-- The results of a list of elements followed by one more. -/
theorem srLanes_concat (sr : Bool) (fn : BitVec 32 → Nat → Nat × Flags) (xs : List (Nat × Bool)) (i : Nat) (on : Bool)
    (l : BitVec 32) :
    srLanes sr fn (xs ++ [(i, on)]) l =
      let (rs, l1) := srLanes sr fn xs l
      let l2 := if on && sr then lfsrStep l1 else l1
      (rs ++ [if on then fn l2 i else (0, 0)], l2) := by
  induction xs generalizing l with
  | nil => rfl
  | cons x xs ih =>
    rw [List.cons_append, srLanes, ih, srLanes]
    rfl

/-- How many of the first k elements are selected. -/
def selectedBelow (on : Nat → Bool) (k : Nat) : Nat := ((List.range k).filter on).length

theorem selectedBelow_succ (on : Nat → Bool) (k : Nat) :
    selectedBelow on (k + 1) = if on k then selectedBelow on k + 1 else selectedBelow on k := by
  unfold selectedBelow
  rw [List.range_succ, List.filter_append, List.length_append]
  by_cases h : on k = true <;> simp [h]

/-- Each selected element is converted with FPS.LFSR as it stands after the steps of those up to it, in ascending order. -/
theorem srLanes_range (sr : Bool) (fn : BitVec 32 → Nat → Nat × Flags) (on : Nat → Bool) (l : BitVec 32) (n : Nat) :
    srLanes sr fn ((List.range n).map (fun i => (i, on i))) l =
      ((List.range n).map (fun i => if on i then fn (lfsrAfter sr (selectedBelow on (i + 1)) l) i else (0, 0)),
        lfsrAfter sr (selectedBelow on n) l) := by
  induction n with
  | zero => cases sr <;> rfl
  | succ n ih =>
    have hl : (if on n && sr then lfsrStep (lfsrAfter sr (selectedBelow on n) l) else lfsrAfter sr (selectedBelow on n) l) =
        lfsrAfter sr (selectedBelow on (n + 1)) l := by
      rw [selectedBelow_succ]
      cases on n with
      | false => rfl
      | true => exact lfsrAfter_succ ..
    rw [List.range_succ, List.map_append, List.map_append, List.map_singleton, List.map_singleton, srLanes_concat, ih]
    dsimp only
    rw [hl]

/-- FPS.LFSR as the statement gives it. -/
theorem lfsrAfter_eq (s : State) (p : Option Vpx) (w mode k : Nat) :
    lfsrAfter (mode = 6) (selectedBelow (s.isOn p w) k) s.cur.lfsr = s.lfsrAt p w mode k := by
  simp only [lfsrAfter, State.lfsrAt, selectedBelow, Context.lfsr, decide_eq_true_eq]

/-- Where no CTWR or CTSWAP stands at the cluster's code table, its banks are captured at once (R266). -/
theorem capture_free {s : State} (bs : List Bool) (h : (s.cluster s.cl).table = []) : capture bs s = .ok ⟨⟩ s := by
  have hn : bs.find? (fun b => [s.cl].any (fun cl => (s.cluster cl).stalls b)) = none := by
    simp [Cluster.stalls, h]
  unfold capture captureIn
  rw [get_bind_run, get_bind_run, hn]
  rfl

theorem bank_vpxOf (p : Option Vpx) :
    decide ((vpxOf p).c.val % 2 = 1) = (p.map (fun v => decide (v.c.val % 2 = 1))).getD false := by
  cases p <;> rfl

/-- What a conversion does, told by the results of its elements and the LFSR after them. -/
theorem vcvtOp_run {s : State} {p : Option Vpx} {dst src : FmtCode} {sat : Bool} {d a : VNum} {l : List (Nat × Flags)}
    {z : BitVec 32} (hd : s.fits (fmtWidth dst)) (hs : s.fits (fmtWidth src)) (ha : s.carries a src)
    (ht : (s.cluster s.cl).table = [])
    (hl : srLanes (s.cur.modeV (vpxOf p) (narrowingFmt dst) = 6)
      (fun l i => convert dst src (s.cur.modeV (vpxOf p) (narrowingFmt dst)) l sat
        (s.codeTable dst ((vpxOf p).c.val % 2 = 1)) (s.codeTable src s.cur.reg.v[a].comp)
        ((s.cur.reg.v[a]).elem (fmtWidth src) i))
      ((List.range s.cur.grid).map (fun i => (i, s.cur.active (vpxOf p).mask (fmtWidth dst) i))) s.cur.lfsr = (l, z)) :
    let r := s.cur.reg.flag (flagsOf l)
    vcvtOp p dst src sat d a s = .ok ⟨⟩ (({ s with cur := { s.cur with
      reg := { r with
        fps := z ++ r.fps.extractLsb' 0 32
        v := r.v.set d (s.cur.vecResult (vpxOf p) d (fmtWidth dst) dst ((vpxOf p).c.val % 2 = 1)
          (fun i => (getAt l i (0, 0)).1)) } } } : State).retired (lenV p)) := by
  unfold vcvtOp
  refine (op_bind_ok (needShape_fits hd)).trans ((op_bind_ok (needShape_fits hs)).trans
    ((op_bind_ok (needTag_carries ha)).trans ?_))
  rw [get_bind_run]
  refine (op_bind_ok (capture_free _ ht)).trans ?_
  dsimp only
  rw [hl]
  rfl

/-- Settles O18: a conversion takes the elements in ascending order, so that the LFSR has stepped for each selected one up to
the k-th when that is converted. -/
theorem vectorConversions : Obligations.VectorConversions := by
  intro s i p dst src sat d a h hd hs ha ht w bank mode res r
  have hexec : exec i s = s.does (vcvtOp p dst src sat d a) := by
    unfold convertRow at h
    split at h <;> cases h <;> rfl
  have hrun := vcvtOp_run (sat := sat) (d := d) (z := s.lfsrAt p w mode s.elements)
    (l := (List.range s.elements).map (fun i => if s.isOn p w i then res i else (0, 0))) hd hs ha ht (by
      simp only [modeV_vpxOf, bank_vpxOf, active_vpxOf, grid_eq, srLanes_range, lfsrAfter_eq, elem_eq_laneOf]
      rfl)
  rw [flagsOf_lanes, bank_vpxOf] at hrun
  exact ⟨_, hexec.trans (does_ok hrun), writes_retired
    { r with fps := s.lfsrAt p w mode s.elements ++ r.fps.extractLsb' 0 32 } hd (mz_vpxOf p) (active_vpxOf s p _)
    fun i hi ho => by rw [getAt_map_range _ _ _ _ hi, if_pos ho]⟩

end Sys2Proof.Machine
end

section
/-! PROOF. Vector selections (O16) and tile instructions (O42), refuted: the states in which the model does otherwise. -/

namespace Sys2Proof.Machine

/-! VMOV with .u of a register that carries the reserved tag (R31, R157). -/

/-- CheckTag refuses the reserved tag 15 where it takes any other (R31). -/
theorem vmov_reserved_traps {s : State} (p : Option Vpx) (d : VNum) {a : VNum} (h : s.cur.reg.v[a].tag = 15) :
    exec (.vmov p 0 d a) s = .next (s.stopped (.trap 0x03 none)) := by
  have ht : tagOk s.cur.reg.v[a] none = false := by rw [tagOk, h]; rfl
  refine does_error ?_
  unfold vmovOp needTag
  rw [if_pos rfl, bind_assoc_run, self_bind_run, need_bind_run, ht]
  rfl

/-- A user context alone in slot 0 of core 0, whose v registers carry the reserved tag. -/
def reservedTags : State :=
  { State.reset with
    cur := { Context.reset 4096 0 0 false with reg := { Regs.reset with v := .replicate 32 ⟨0, 15, false⟩ } }
    others := [] }

/-- The trap leaves the instruction unretired. -/
theorem reservedTags_unretired : (reservedTags.stopped (.trap 0x03 none)).cur.id.rob = 0 := rfl

/-- Refutes O16: its clause for VMOV with .u asks nothing of the source's tag, and with the reserved tag 15 VMOV traps
(R31) where the clause has it retire. -/
theorem not_vectorSelections : ¬ Obligations.VectorSelections := by
  intro ⟨hmoves, _⟩
  obtain ⟨_, _, t, hexec, ⟨hcur, _⟩, _⟩ := hmoves reservedTags none 0 0 0 0
  have htrap := vmov_reserved_traps (s := reservedTags) none 0 (a := 0) (congrArg VReg.tag (Vector.getElem_replicate ..))
  have ht : t = reservedTags.stopped (.trap 0x03 none) := Host.Outcome.next.inj (hexec.symm.trans htrap)
  have hrob : t.cur.id.rob = 1 := congrArg (fun c : Context => c.id.rob) hcur
  rw [ht, reservedTags_unretired] at hrob
  exact absurd hrob (by decide)

/-! A tile store that no counter counts (R227, R249). -/

/-- The report of a tile store's command. -/
def storeReport : EngineCmd :=
  { easel := 0, tag := 0, op := 0x22, uid := 4096, bits := 0, sources := [], cells := [], name := 0, slots := []
    start := none, state := .complete, squashed := false, banks := [], result := none, flags := 0, lfsr := none
    fault := none }

/-- One FP32 element, 1.0. -/
def oneTile : Tile := { zeroTile 2 false 1 1 false with elems := [0x3F800000] }

/-- A user context alone in slot 0 of core 0, at a TST whose command has been reported: t0 holds the tile, x1 describes it,
x2 is address 0, and a range maps 1 GiB from there to pageable memory. -/
def tileStoring : State :=
  { State.reset with
    cur := { Context.reset 4096 0 0 false with
      reg := { Regs.reset with
        t := Regs.reset.t.set 0 (some oneTile)
        x := Regs.reset.x.set 1 0x10001
        amap := Regs.reset.amap.set 0 (BitVec.ofNat 128 (0x1F + 32 * 2 ^ 87)) } }
    others := []
    clusters := [(0, { Cluster.reset with cmds := [storeReport] })] }

theorem tileStoring_calm : Calm tileStoring := by
  simp only [Calm, Still]
  decide

theorem tileStoring_reported : Reported tileStoring (0, storeReport) [] := by
  simp only [Reported]
  decide

theorem tileStoring_mapped : RowsMapped tileStoring 2 1 2 .write 0 0 id := by
  have hbytes : ∀ va < 4, tileStoring.cur.mapVa .write va = .ok va ∧
      tileStoring.atomicAt va tileStoring.cur.id.core = true := by decide
  have hspan : (descOf (tileStoring.arg 1)).span 2 = 4 := by decide
  refine ⟨by decide, rfl, fun va _ h => ?_⟩
  rw [hspan, Nat.zero_add] at h
  exact ⟨by omega, hbytes va h⟩

/-- The undrained stores of the context whose turn it is, after an instruction. -/
def drainsAfter (o : Host.Outcome State Fault Refusal) : List Drain :=
  match o with
  | .next t => t.cur.io.drains
  | _ => []

/-- The plain TST retires and leaves nothing to drain: drainLater returns where no counter counts the store, before it lays
the drain down. -/
theorem tileStoring_lost : drainsAfter (exec (.tst 0 2 1 2 ⟨0, 0, 0⟩ 0) tileStoring) = [] := by decide

theorem not_tileStores : ¬ Claim.TileStores := by
  intro h
  obtain ⟨hst, -⟩ := h tileStoring 0 1 2 2 0 (0, storeReport) [] oneTile tileStoring_calm tileStoring_reported rfl rfl
    (by decide) (by decide) (by decide) (by decide)
  obtain ⟨t, k, hexec, -, -, hdrains, -⟩ := hst ⟨0, 0, 0⟩ 0 id none tileStoring_mapped
    (fun va _ => (Nat.zero_add va).symm)
    (fun _ _ _ => if_neg fun hc => absurd hc.1 (by decide))
  have hnone : t.cur.io.drains = [] := (congrArg drainsAfter hexec).symm.trans tileStoring_lost
  exact List.cons_ne_nil k [] (hdrains.symm.trans hnone)

/-- Refutes O42 by its claim about stores: a TST that no counter counts is lost, and never reaches memory. -/
theorem not_tileInstructions : ¬ Obligations.TileInstructions := by
  intro ⟨_, _, _, _, hstores, _⟩
  exact not_tileStores hstores

end Sys2Proof.Machine
end

section
/-! PROOF. Strings, droop detectors and idle cores (O46). -/

namespace Sys2Proof.Machine

/-! Units beside each other. -/

theorem string_setString (s : State) (k j : Nat) (v : StringSt) :
    (s.setString k v).string j = if j = k then v else s.string j := tabGet_tabPut ..

theorem cluster_setCluster (s : State) (k j : Nat) (v : Cluster) :
    (s.setCluster k v).cluster j = if j = k then v else s.cluster j := tabGet_tabPut ..

theorem onlyString_setString (s : State) (k : Nat) (v : StringSt) : OnlyString s (s.setString k v) k v :=
  ⟨rfl, (string_setString ..).trans (if_pos rfl), fun _ hj => (string_setString ..).trans (if_neg hj)⟩

theorem onlyCluster_setCluster (s : State) (k : Nat) (v : Cluster) : OnlyCluster s (s.setCluster k v) k v :=
  ⟨rfl, (cluster_setCluster ..).trans (if_pos rfl), fun _ hj => (cluster_setCluster ..).trans (if_neg hj)⟩

/-- An event of a cluster that has changed, and nothing else. -/
theorem OnlyCluster.event {s t : State} {k : Nat} {v : Cluster} (h : OnlyCluster s t k v) (src : Nat) :
    OnlyCluster s (t.event k src) k (v.counted src) := by
  obtain ⟨hs, hv, hothers⟩ := h
  refine ⟨?_, ?_, fun j hj => ?_⟩
  · exact (congrArg (fun u : State => { u with clusters := s.clusters }) (event_fields t k src)).trans hs
  · rw [cluster_event, if_pos rfl, hv]
  · rw [cluster_event, if_neg hj, hothers j hj]

/-- A bit field is the number that its bits spell. -/
theorem bitsOf_eq_extractLsb' (w : Word) (hi lo : Nat) :
    bitsOf w hi lo = (w.extractLsb' lo (hi + 1 - lo)).toNat := by
  rw [bitsOf, BitVec.extractLsb'_toNat, Nat.shiftRight_eq_div_pow]

/-! Imbalances (R70 to R72). -/

theorem exec_strimbRefresh (k : Nat) (a b c : BitVec 10) (s : State) :
    exec (.strimbRefresh k a b c) s = execStrimbRefresh k a b c s := rfl

theorem exec_gessoStart (k : Nat) (s : State) : exec (.gessoStart k) s = execGessoStart k s := rfl

theorem exec_gessoStop (k : Nat) (s : State) : exec (.gessoStop k) s = execGessoStop k s := rfl

theorem exec_stringThrottle (k : Nat) (s : State) : exec (.stringThrottle k) s = execStringThrottle k s := rfl

theorem exec_stringThrottleEnd (k : Nat) (s : State) : exec (.stringThrottleEnd k) s = execStringThrottleEnd k s := rfl

/-- What has held for n cycles has held since some step. -/
theorem heldFor_iff (s : State) (k n : Nat) (since : Option Nat) :
    s.heldFor k n since = true ↔ ∃ t0, since = some t0 ∧ n ≤ s.cyclesSince (k * 4) t0 := by
  cases since <;> simp [State.heldFor]

/-- A step that changes a unit where a condition holds, and else nothing. -/
theorem next_ite {p : Prop} {b : Bool} {s u : State} {i : Instr} {P : State → Prop} (hp : b = true ↔ p)
    (hi : exec i s = .next (if b then u else s)) (hu : P u) :
    (p → ∃ t, exec i s = .next t ∧ P t) ∧ (¬p → exec i s = .next s) := by
  rw [← hp]
  exact ⟨fun h => ⟨u, by rw [hi, if_pos h], hu⟩, fun h => by rw [hi, if_neg h]⟩

/-- What a refresh shows, the comparisons with THRESH written out node by node. -/
theorem strimbRefresh_shows (s : State) (k : Nat) (a b c : BitVec 10) : ∃ t, exec (.strimbRefresh k a b c) s = .next t ∧
    OnlyString s t k (
      let v := s.string k
      let gesso := v.gessoNext.getD v.gesso
      let thresh := bitsOf gesso 19 10
      let size (n : BitVec 10) : Nat := n.toInt.natAbs
      { v with
        node1 := a, node2 := b, node3 := c, gesso := gesso, gessoNext := none, gactShown := v.gact, throtShown := v.throt
        above := [sinceWhen (thresh < size a) (getAt v.above 0 none) s.now,
          sinceWhen (thresh < size b) (getAt v.above 1 none) s.now, sinceWhen (thresh < size c) (getAt v.above 2 none) s.now]
        calm := sinceWhen (4 * size a < 3 * thresh ∧ 4 * size b < 3 * thresh ∧ 4 * size c < 3 * thresh) v.calm s.now
        below := sinceWhen (size a < thresh ∧ size b < thresh ∧ size c < thresh) v.below s.now }) := by
  have hcalm (m : Nat) : ([a, b, c].map (fun n => n.toInt.natAbs)).all (fun n => decide (4 * n < 3 * m)) =
      decide (4 * a.toInt.natAbs < 3 * m ∧ 4 * b.toInt.natAbs < 3 * m ∧ 4 * c.toInt.natAbs < 3 * m) := by
    simp
  have hbelow (m : Nat) : ([a, b, c].map (fun n => n.toInt.natAbs)).all (fun n => decide (n < m)) =
      decide (a.toInt.natAbs < m ∧ b.toInt.natAbs < m ∧ c.toInt.natAbs < m) := by
    simp
  dsimp only
  rw [← hcalm, ← hbelow]
  exact ⟨_, exec_strimbRefresh .., onlyString_setString ..⟩

theorem imbalances_judged : Claim.Imbalances := by
  intro s k
  refine ⟨fun a b c => ?_, ?_, ?_, ?_, ?_⟩
  · have h := strimbRefresh_shows s k a b c
    simpa only [bitsOf_eq_extractLsb', getAt, List.getD_eq_getElem?_getD, sinceWhen] using h
  · refine next_ite ?_ (exec_gessoStart k s) (onlyString_setString ..)
    simp only [Bool.and_eq_true, List.any_eq_true, heldFor_iff]
    exact and_congr_right fun _ => ⟨fun ⟨_, hx, t0, he, h⟩ => ⟨t0, he ▸ hx, h⟩, fun ⟨t0, hx, h⟩ => ⟨_, hx, t0, rfl, h⟩⟩
  · exact next_ite (heldFor_iff ..) (exec_gessoStop k s) (onlyString_setString ..)
  · refine next_ite ?_ (exec_stringThrottle k s) (onlyString_setString ..)
    simp [StringSt.sizes, StringSt.limit, bitsOf_eq_extractLsb']
  · exact next_ite (heldFor_iff ..) (exec_stringThrottleEnd k s) (onlyString_setString ..)

/-! Droops (R118, R172). -/

/-- The end of a hold that is set. -/
theorem exec_halfWidthHoldEnd {s : State} {k e : Nat} (h : (s.cluster k).holdEnd = some e) :
    exec (.halfWidthHoldEnd k) s =
      .next (if e ≤ s.cyc k then s.setCluster k { s.cluster k with holdEnd := none, holdOff := e } else s) := by
  show execHalfWidthHoldEnd k s = _
  unfold execHalfWidthHoldEnd
  dsimp only
  rw [h]

theorem droops_stretch : Claim.Droops := by
  intro s k sag c hold level
  have hlevel : 5 * bitsOf c.drpth 7 0 = level := congrArg (5 * ·) (bitsOf_eq_extractLsb' ..)
  have hhold : bitsOf c.drpth 31 16 = hold := bitsOf_eq_extractLsb' ..
  have hsags : c.sags sag = decide (level < sag) := by rw [← hlevel]; rfl
  have hdroop : exec (.droopEvent ⟨k, sag⟩) s = .next (if c.stretching || !(c.sags sag) then s
    else (s.setCluster k { c with droops := c.droops + 1, stretching := true, stretchAt := s.now }).event k 8) := rfl
  have hend : exec (.stretchEnd k sag) s = .next (if c.stretching && sag < 5 * bitsOf c.drpth 7 0 then s.setCluster k { c with
      stretching := false, stretch := s.stretchedSince k c.stretchAt
      holdEnd := if bitsOf c.drpth 31 16 = 0 then c.holdEnd else some (s.cyc k + bitsOf c.drpth 31 16) } else s) := rfl
  rw [hsags] at hdroop
  rw [hlevel, hhold] at hend
  refine ⟨fun h => ?_, fun hs hlt => ?_, fun hs hlt => ?_, fun h => ?_, fun e he hle => ?_, fun e he hlt => ?_⟩
  · rw [hdroop, if_pos (by simpa using h)]
  · rw [if_neg (by simp [hs, hlt])] at hdroop
    exact ⟨_, hdroop, (onlyCluster_setCluster ..).event 8⟩
  · rw [if_pos (by simp [hs, hlt])] at hend
    exact ⟨_, hend, onlyCluster_setCluster ..⟩
  · rw [hend, if_neg]
    rcases h with h | h <;> simp [h]
  · exact ⟨_, (exec_halfWidthHoldEnd he).trans (by rw [if_pos hle]), onlyCluster_setCluster ..⟩
  · rw [exec_halfWidthHoldEnd he, if_neg (by omega)]

/-! Idle cores (R171). -/

theorem coreReady_iff (s : State) (k : Nat) : s.coreReady k = true ↔
    ∃ c ∈ s.contexts, c.sched.place = .slot ∧ c.id.core = k ∧ c.runnable = true ∧ s.waitOver c = true := by
  simp [State.coreReady, Context.resident, and_assoc]

theorem exec_coreIdle (k : Nat) (s : State) : exec (.coreIdle k) s = .next (
    if s.coreReady k || s.cyclesSince (k / 4) (max (s.core k).readyAt s.resetAt) < 256 then s
    else s.setCore k { s.core k with idle := true }) := rfl

theorem idleCores_marked : Claim.IdleCores := by
  intro s k cycles
  refine ⟨fun hnone hlong => ?_, fun c hc hslot hcore hrun hover => ?_, fun hshort => ?_⟩
  · have hready : ¬s.coreReady k = true := by
      rw [coreReady_iff]
      rintro ⟨c, hc, hslot, hcore, hrun, hover⟩
      exact Bool.false_ne_true ((hnone c hc hslot hcore hrun).symm.trans hover)
    refine ⟨_, (exec_coreIdle k s).trans ?_, onlyCore_setCore ..⟩
    rw [if_neg (by simpa [hready] using hlong)]
  · rw [exec_coreIdle, if_pos]
    rw [(coreReady_iff s k).2 ⟨c, hc, hslot, hcore, hrun, hover⟩, Bool.true_or]
  · rw [exec_coreIdle, if_pos]
    rw [decide_eq_true hshort, Bool.or_true]

/-- Settles O46: the strings, the droop detectors and the idle cores, each by its own theorem. -/
theorem stringSteps : Obligations.StringSteps := ⟨imbalances_judged, droops_stretch, idleCores_marked⟩

end Sys2Proof.Machine
end

section
/-! PROOF. What a write of a system register stores (O21). -/

namespace Sys2Proof.Machine

/-! Masks of bit fields. -/

theorem ones_eq_mul {hi lo : Nat} (h : lo ≤ hi + 1) : ones hi lo = (2 ^ (hi + 1 - lo) - 1) * 2 ^ lo := by
  rw [ones, Nat.sub_mul, ← pow_add, Nat.sub_add_cancel h, Nat.one_mul]

/-- A mask of one field keeps that field. -/
theorem and_ones (n : Nat) {hi lo : Nat} (h : lo ≤ hi + 1) :
    n &&& ones hi lo = n / 2 ^ lo % 2 ^ (hi + 1 - lo) * 2 ^ lo := by
  refine Nat.eq_of_testBit_eq fun i => ?_
  rw [ones_eq_mul h, Nat.testBit_and, Nat.testBit_mul_two_pow, Nat.testBit_mul_two_pow, Nat.testBit_two_pow_sub_one,
    Nat.testBit_mod_two_pow, Nat.testBit_div_two_pow]
  by_cases hi : lo ≤ i
  · simp [hi, Bool.and_comm]
  · simp [hi]

/-- A mask of a field and of what lies below it keeps both. -/
theorem and_ones_add (n : Nat) {m hi lo : Nat} (h : lo ≤ hi + 1) (hm : m < 2 ^ lo) :
    n &&& (ones hi lo + m) = n / 2 ^ lo % 2 ^ (hi + 1 - lo) * 2 ^ lo + (n &&& m) := by
  have hlow : n &&& m < 2 ^ lo := Nat.and_lt_two_pow n hm
  rw [← and_ones n h, and_ones n h, Nat.mul_comm, Nat.two_pow_add_eq_or_of_lt hlow, Nat.mul_comm, ← and_ones n h,
    ones_eq_mul h, Nat.mul_comm, Nat.two_pow_add_eq_or_of_lt hm, Nat.and_or_distrib_left]

theorem toNat_and_ofNat (w : Word) {m : Nat} (h : m < 2 ^ 64) : (w &&& BitVec.ofNat 64 m).toNat = w.toNat &&& m := by
  rw [BitVec.toNat_and, BitVec.toNat_ofNat, Nat.mod_eq_of_lt h]

theorem and_spillMask (w : Word) : w &&& BitVec.ofNat 64 (ones 55 12) =
    (0 : BitVec 8) ++ w.extractLsb' 12 44 ++ (0 : BitVec 12) := by
  apply BitVec.eq_of_toNat_eq
  rw [toNat_and_ofNat _ (by decide), and_ones _ (by decide)]
  simp only [toNat_append_eq_add, BitVec.extractLsb'_toNat, Nat.shiftRight_eq_div_pow, BitVec.ofNat_eq_ofNat, BitVec.toNat_zero]
  omega

/-! What a write stores (R71, R112, R113, R118, R343, R355). -/

theorem toNat_extract (w : Word) (lo n : Nat) : (w.extractLsb' lo n).toNat = w.toNat / 2 ^ lo % 2 ^ n := by
  rw [BitVec.extractLsb'_toNat, Nat.shiftRight_eq_div_pow]

theorem toNat_setBits (w : Word) (hi lo v : Nat) : (setBits w hi lo v).toNat =
    (w.toNat - w.toNat / 2 ^ lo % 2 ^ (hi + 1 - lo) * 2 ^ lo + v % 2 ^ (hi + 1 - lo) * 2 ^ lo) % 2 ^ 64 := by
  rw [setBits, bitsOf, BitVec.toNat_ofNat]

theorem shapeOk_iff (w : Word) :
    (bitsOf w 63 32 = 0 && shapeOk (bitsOf w 31 16) (bitsOf w 15 0)) = true ↔ ShapeOk w := by
  have hlow (a b : Nat) (hb : 1 ≤ b) : a ≤ a * b := Nat.le_mul_of_pos_right a hb
  have hlow' (a b : Nat) (ha : 1 ≤ a) : b ≤ a * b := Nat.le_mul_of_pos_left b ha
  simp only [bitsOf_eq_extractLsb', shapeOk, ShapeOk, Bool.and_eq_true, decide_eq_true_eq, ← BitVec.toNat_inj]
  constructor
  · rintro ⟨h0, ⟨⟨⟨hr, -⟩, hc⟩, -⟩, hrc⟩
    exact ⟨h0, hr, hc, hrc⟩
  · rintro ⟨h0, hr, hc, hrc⟩
    exact ⟨h0, ⟨⟨⟨hr, (hlow _ _ hc).trans hrc⟩, hc⟩, (hlow' _ _ hr).trans hrc⟩, hrc⟩

theorem sysStored_shape {w : Word} (old : Word) (h : ShapeOk w) : sysStored 0x00 old w = .ok w :=
  if_pos ((shapeOk_iff w).2 h)

theorem sysStored_shape_refused {w : Word} (old : Word) (h : ¬ShapeOk w) : sysStored 0x00 old w = .error 0x10 :=
  if_neg (mt (shapeOk_iff w).1 h)

/-- FPS.LFSR is never written as zero. -/
theorem sysStored_fps {w : Word} (old : Word) (h0 : w.extractLsb' 9 3 ≠ 0) (h7 : w.extractLsb' 9 3 ≠ 7) :
    sysStored 0x01 old w = .ok ((if w.extractLsb' 32 32 = 0 then (1 : BitVec 32) else w.extractLsb' 32 32) ++
      (w.extractLsb' 0 32 &&& 0xE3F)) := by
  have hrnd : (bitsOf w 11 9 = 0 || bitsOf w 11 9 = 7) = false := by
    simpa [bitsOf_eq_extractLsb', ← BitVec.toNat_inj] using And.intro h0 h7
  have hlow (n : Nat) : n &&& 0xE3F = n / 2 ^ 9 % 2 ^ 3 * 2 ^ 9 + n % 2 ^ 6 := by
    have h := and_ones_add n (hi := 11) (lo := 9) (m := ones 5 0) (by decide) (by decide)
    rwa [and_ones n (by decide), pow_zero, Nat.div_one, Nat.mul_one] at h
  have hmask : (w &&& BitVec.ofNat 64 (ones 63 32 + ones 11 9 + ones 5 0)).toNat =
      w.toNat / 2 ^ 32 % 2 ^ 32 * 2 ^ 32 + (w.toNat &&& 0xE3F) := by
    rw [toNat_and_ofNat _ (by decide), Nat.add_assoc, and_ones_add _ (by decide) (by decide)]
    rfl
  have hkept : (w.extractLsb' 0 32 &&& 0xE3F).toNat = w.toNat &&& 0xE3F := by
    rw [BitVec.toNat_and, toNat_extract, hlow]
    exact (hlow _).trans (by omega)
  have hrun : sysStored 0x01 old w = .ok (
      let v := w &&& BitVec.ofNat 64 (ones 63 32 + ones 11 9 + ones 5 0)
      if bitsOf v 63 32 = 0 then setBits v 63 32 1 else v) := if_neg (by rw [hrnd]; decide)
  rw [hrun]
  have hsmall : w.toNat &&& 0xE3F < 2 ^ 32 := hkept ▸ BitVec.isLt _
  generalize w &&& BitVec.ofNat 64 (ones 63 32 + ones 11 9 + ones 5 0) = v at hmask ⊢
  have hlfsr : bitsOf v 63 32 = 0 ↔ w.extractLsb' 32 32 = 0 := by
    rw [← BitVec.toNat_inj, toNat_extract, bitsOf, hmask, BitVec.ofNat_eq_ofNat, BitVec.toNat_zero]
    omega
  refine congrArg Except.ok (BitVec.eq_of_toNat_eq (Eq.trans ?_ (toNat_append_eq_add ..).symm))
  dsimp only
  by_cases h : w.extractLsb' 32 32 = 0
  · rw [if_pos h, if_pos (hlfsr.2 h)]
    have hone : (1 : BitVec 32).toNat = 1 := rfl
    simp only [toNat_setBits, hmask, hkept, hone]
    omega
  · rw [if_neg h, if_neg (mt hlfsr.1 h)]
    simp only [hmask, hkept, toNat_extract]

theorem sysStored_fps_refused {w : Word} (old : Word) (h : w.extractLsb' 9 3 = 0 ∨ w.extractLsb' 9 3 = 7) :
    sysStored 0x01 old w = .error 0x02 := by
  refine if_pos ?_
  simpa [bitsOf_eq_extractLsb', ← BitVec.toNat_inj] using h

theorem sysStored_drpth (old w : Word) : sysStored 0x07 old w = .ok ((0 : BitVec 32) ++ w.extractLsb' 16 16 ++ (0 : BitVec 8) ++
    (if w.extractLsb' 0 8 = 0 then (1 : BitVec 8) else w.extractLsb' 0 8)) := by
  have hmask : (w &&& BitVec.ofNat 64 (ones 31 16 + ones 7 0)).toNat = w.toNat / 2 ^ 16 % 2 ^ 16 * 2 ^ 16 + w.toNat % 2 ^ 8 := by
    rw [toNat_and_ofNat _ (by decide), and_ones_add _ (by decide) (by decide), and_ones _ (by decide)]
    omega
  unfold sysStored
  generalize w &&& BitVec.ofNat 64 (ones 31 16 + ones 7 0) = v at hmask ⊢
  have hthresh : bitsOf v 7 0 = 0 ↔ w.extractLsb' 0 8 = 0 := by
    rw [← BitVec.toNat_inj, toNat_extract, bitsOf, hmask, BitVec.ofNat_eq_ofNat, BitVec.toNat_zero]
    omega
  refine congrArg Except.ok (BitVec.eq_of_toNat_eq (Eq.trans ?_ (toNat_append_eq_add ..).symm))
  by_cases h : w.extractLsb' 0 8 = 0
  · rw [if_pos h, if_pos (hthresh.2 h)]
    simp only [toNat_setBits, hmask, toNat_append_eq_add, toNat_extract, BitVec.ofNat_eq_ofNat, BitVec.toNat_ofNat]
    omega
  · rw [if_neg h, if_neg (mt hthresh.1 h)]
    simp only [hmask, toNat_append_eq_add, toNat_extract, BitVec.ofNat_eq_ofNat, BitVec.toNat_ofNat]
    omega

theorem sysStored_gesso (old w : Word) : sysStored 0x0A old w = .ok (gessoOf w) := by
  have hmask : (w &&& BitVec.ofNat 64 (ones 29 10 + 1)).toNat = w.toNat / 2 ^ 10 % 2 ^ 20 * 2 ^ 10 + w.toNat % 2 := by
    rw [toNat_and_ofNat _ (by decide), and_ones_add _ (by decide) (by decide), Nat.and_one_is_mod]
  have hrun : sysStored 0x0A old w = .ok (gessoFix (w &&& BitVec.ofNat 64 (ones 29 10 + 1))) := rfl
  rw [hrun]
  generalize w &&& BitVec.ofNat 64 (ones 29 10 + 1) = v at hmask
  have hthresh : bitsOf v 19 10 = (w.extractLsb' 10 10).toNat := by
    rw [toNat_extract, bitsOf, hmask]
    omega
  have hlimit : bitsOf v 29 20 = (w.extractLsb' 20 10).toNat := by
    rw [toNat_extract, bitsOf, hmask]
    omega
  have hbad : (bitsOf v 19 10 = 0 || bitsOf v 29 20 < bitsOf v 19 10 || 300 < bitsOf v 29 20) = true ↔
      (w.extractLsb' 10 10 = 0 ∨ (w.extractLsb' 20 10).toNat < (w.extractLsb' 10 10).toNat ∨
        300 < (w.extractLsb' 20 10).toNat) := by
    rw [hthresh, hlimit]
    simp [← BitVec.toNat_inj, or_assoc]
  refine congrArg Except.ok (BitVec.eq_of_toNat_eq ?_)
  unfold gessoFix gessoOf
  dsimp only
  by_cases h : w.extractLsb' 10 10 = 0 ∨ (w.extractLsb' 20 10).toNat < (w.extractLsb' 10 10).toNat ∨
      300 < (w.extractLsb' 20 10).toNat
  · rw [if_pos h, if_pos (hbad.2 h)]
    refine Eq.trans ?_ (toNat_append_eq_add ..).symm
    simp only [toNat_setBits, hmask, toNat_append_eq_add, toNat_extract, BitVec.ofNat_eq_ofNat, BitVec.toNat_ofNat]
    omega
  · rw [if_neg h, if_neg (mt hbad.1 h)]
    refine Eq.trans ?_ (toNat_append_eq_add ..).symm
    simp only [hmask, toNat_append_eq_add, toNat_extract, BitVec.ofNat_eq_ofNat, BitVec.toNat_ofNat]
    omega

theorem sysStored_ecause (old w : Word) : sysStored 0x0F old w = .ok ((0 : BitVec 40) ++ old.extractLsb' 20 4 ++
    (0 : BitVec 2) ++ (if 2 ≤ (w.extractLsb' 16 2).toNat then (1 : BitVec 2) else w.extractLsb' 16 2) ++
    w.extractLsb' 0 16) := by
  have hset : (setBits (w &&& BitVec.ofNat 64 (ones 17 0)) 23 20 (bitsOf old 23 20)).toNat =
      old.toNat / 2 ^ 20 % 2 ^ 4 * 2 ^ 20 + w.toNat % 2 ^ 18 := by
    rw [toNat_setBits, toNat_and_ofNat _ (by decide), and_ones _ (by decide), bitsOf]
    omega
  unfold sysStored
  generalize setBits (w &&& BitVec.ofNat 64 (ones 17 0)) 23 20 (bitsOf old 23 20) = v at hset ⊢
  have hdisp : bitsOf v 17 16 = (w.extractLsb' 16 2).toNat := by
    rw [toNat_extract, bitsOf, hset]
    omega
  refine congrArg Except.ok (BitVec.eq_of_toNat_eq (Eq.trans ?_ (toNat_append_eq_add ..).symm))
  rw [hdisp]
  by_cases h : 2 ≤ (w.extractLsb' 16 2).toNat
  · rw [if_pos h, if_pos h]
    simp only [toNat_setBits, hset, toNat_append_eq_add, toNat_extract, BitVec.ofNat_eq_ofNat, BitVec.toNat_ofNat]
    omega
  · rw [if_neg h, if_neg h]
    simp only [hset, toNat_append_eq_add, toNat_extract, BitVec.ofNat_eq_ofNat, BitVec.toNat_ofNat]
    omega

end Sys2Proof.Machine
end

section
/-! PROOF. SRD and SWR (O21). -/

namespace Sys2Proof.Machine

/-! Reads (R111). -/

theorem drpstat_fields (s : State) (cl : Nat) : s.drpstat cl =
    (s.cluster cl).droops ++ BitVec.ofNat 8 (min (if (s.cluster cl).stretching then s.stretchedSince cl (s.cluster cl).stretchAt
      else (s.cluster cl).stretch) 255) ++ (0 : BitVec 7) ++ BitVec.ofBool (s.halfWidth cl) ++ BitVec.ofNat 16 (s.holdLeft cl) := by
  unfold State.drpstat
  dsimp only
  generalize (if (s.cluster cl).stretching then s.stretchedSince cl (s.cluster cl).stretchAt else (s.cluster cl).stretch) = n
  refine BitVec.eq_of_toNat_eq (Eq.trans ?_ (toNat_append_eq_add ..).symm)
  have hd := (s.cluster cl).droops.isLt
  have hh := (s.halfWidth cl).toNat_le
  simp only [toNat_append_eq_add, BitVec.toNat_ofBool, BitVec.ofNat_eq_ofNat, BitVec.toNat_ofNat]
  omega

theorem strimb_fields (s : State) (str : Nat) : s.strimb str =
    (0 : BitVec 32) ++ BitVec.ofBool (s.string str).throtShown ++ BitVec.ofBool (s.string str).gactShown ++
      (s.string str).node3 ++ (s.string str).node2 ++ (s.string str).node1 := by
  unfold State.strimb
  dsimp only
  refine BitVec.eq_of_toNat_eq (Eq.trans ?_ (toNat_append_eq_add ..).symm)
  have h1 := (s.string str).node1.isLt
  have h2 := (s.string str).node2.isLt
  have h3 := (s.string str).node3.isLt
  have ht := (s.string str).throtShown.toNat_le
  have hg := (s.string str).gactShown.toNat_le
  simp only [toNat_append_eq_add, BitVec.toNat_ofBool, BitVec.ofNat_eq_ofNat, BitVec.toNat_ofNat]
  omega

theorem ctver_fields (s : State) (cl : Nat) : s.ctver cl =
    (0 : BitVec 32) ++ (s.cluster cl).swaps ++ (0 : BitVec 15) ++ BitVec.ofBool (s.cluster cl).bank := by
  unfold State.ctver
  refine BitVec.eq_of_toNat_eq (Eq.trans ?_ (toNat_append_eq_add ..).symm)
  have hs := (s.cluster cl).swaps.isLt
  have hb := (s.cluster cl).bank.toNat_le
  simp only [toNat_append_eq_add, BitVec.toNat_ofBool, BitVec.ofNat_eq_ofNat, BitVec.toNat_ofNat]
  omega

/-- A segment register by its number. -/
theorem seg_getAt (sg : Vector Seg 16) {n base : Nat} (h : base ≤ n) (h' : n < base + 16) (hb : base % 16 = 0) :
    getAt sg.toList (n - base) ⟨0, 0⟩ = sg[Fin.ofNat 16 n] := by
  have hn : (Fin.ofNat 16 n).val = n - base := by
    simp only [Fin.ofNat]
    omega
  have hi : n - base < 16 := by omega
  simp only [getAt, Fin.getElem_fin, hn]
  simp [hi]

theorem gzstat_closed {s : State} {c : Context} (h : c.sync.region = none) : s.gzstat c = c.reg.gzstat := by
  unfold State.gzstat
  rw [h]

/-- A segment register is read from the context that owns it. -/
theorem sysOf_segment (s : State) (c : Context) {n : Nat} (h : 0x20 ≤ n) : s.sysOf c n = BitVec.ofNat 64 (sysOwned c n) := by
  unfold State.sysOf
  split
  case h_10 => rfl
  all_goals omega

theorem sysOwned_base (c : Context) {n : Nat} (h : 0x20 ≤ n) (h' : n < 0x30) :
    sysOwned c n = (c.reg.sg[Fin.ofNat 16 n]).base.toNat := by
  unfold sysOwned
  rw [if_pos (by simp [h, h']), seg_getAt _ h h' rfl]

theorem sysOwned_limit (c : Context) {n : Nat} (h : 0x30 ≤ n) (h' : n < 0x40) :
    sysOwned c n = (c.reg.sg[Fin.ofNat 16 n]).limit.toNat := by
  unfold sysOwned
  rw [if_neg (by simp [h]), if_pos (by simp [h, h']), seg_getAt _ h h' rfl]

/-- A register that R111 lists holds what its row says. -/
theorem sysOf_of_row {s : State} {c : Context} {n : Nat} {w : Word} (h : s.systemRow c n = some w) : s.sysOf c n = w := by
  unfold State.systemRow at h
  split at h
  case h_22 =>
    split at h
    · rename_i hn
      obtain rfl := Option.some.inj h
      rw [sysOf_segment s c hn.1, sysOwned_base c hn.1 hn.2, BitVec.ofNat_toNat, BitVec.setWidth_eq]
    · split at h
      · rename_i hn
        obtain rfl := Option.some.inj h
        rw [sysOf_segment s c (by omega), sysOwned_limit c hn.1 hn.2, BitVec.ofNat_toNat, BitVec.setWidth_eq]
      · cases h
  all_goals obtain rfl := Option.some.inj h
  case h_9 => exact drpstat_fields ..
  case h_10 => exact strimb_fields ..
  case h_15 =>
    split
    · rfl
    · rename_i hr
      exact gzstat_closed (by simpa using hr)
  case h_21 => exact ctver_fields ..
  case h_1 | h_2 | h_5 | h_6 | h_16 | h_17 | h_18 | h_19 => exact (BitVec.ofNat_toNat ..).trans (BitVec.setWidth_eq _)
  all_goals rfl

/-- R111 lists the numbers of the registers. -/
theorem sysAssigned_iff (s : State) (c : Context) (n : Nat) : sysAssigned n = true ↔ ∃ w, s.systemRow c n = some w := by
  unfold State.systemRow
  split
  case h_22 =>
    split
    · rename_i hn
      exact iff_of_true (by simp [sysAssigned]; omega) ⟨_, rfl⟩
    · split
      · exact iff_of_true (by simp [sysAssigned]; omega) ⟨_, rfl⟩
      · refine iff_of_false (fun ha => ?_) (by simp)
        simp only [sysAssigned, Bool.or_eq_true, Bool.and_eq_true, decide_eq_true_eq] at ha
        rcases ha with ha | ha
        · interval_cases n <;> contradiction
        · omega
  all_goals exact iff_of_true rfl ⟨_, rfl⟩

theorem exec_srd (d : XReg) (sn : Fin 1024) (s : State) : exec (.srd d sn) s = s.gives d (s.sysRead sn.val) 4 := rfl

theorem checkFields_srd (d : XReg) (sn : Fin 1024) :
    checkFields (.srd d sn) = if sysAssigned sn.val then none else some .illegalField := by
  show verdict (sysAssigned sn.val) true = _
  cases sysAssigned sn.val <;> rfl

theorem checkFields_swr (sn : Fin 1024) (a : XReg) :
    checkFields (.swr sn a) = if sysAssigned sn.val then none else some .illegalField := checkFields_srd a sn

theorem systemReads_answered : Claim.SystemReads := by
  intro s d sn
  refine ⟨fun w h => ?_, fun h => ?_⟩
  · have hlisted : sysAssigned sn.val = true := (sysAssigned_iff s s.cur sn.val).2 ⟨w, h⟩
    have hread : s.sysRead sn.val = if sn.val = 0x12 ∧ s.cur.id.sup = false then 0 else w := by
      unfold State.sysRead
      rw [sysOf_of_row h]
      simp
    rw [checkFields_srd, checkFields_swr, if_pos hlisted, ← hread]
    exact ⟨rfl, rfl, (gives_spec s d _ 4).imp fun _ ht => ht⟩
  · have hnot : ¬sysAssigned sn.val = true := by
      rw [sysAssigned_iff s s.cur]
      simp [h]
    rw [checkFields_srd, checkFields_swr, if_neg hnot]
    exact ⟨rfl, rfl⟩

/-! Writes. -/

theorem exec_swr (sn : Fin 1024) (a : XReg) (s : State) : exec (.swr sn a) s = s.does (swrOp sn.val a) := rfl

section Swr

variable {s : State} {n : Nat} (a : XReg)

/-- A register that a context may not write is left as it is. -/
theorem swrOp_ignored (h : sysWritable s.cur.id.sup n = false) : swrOp n a s = .ok ⟨⟩ (s.retired 4) := by
  unfold swrOp
  simp [h]

theorem swrOp_refused {cause : Nat} (h : sysWritable s.cur.id.sup n = true)
    (hw : sysStored n (s.sysOf s.cur n) (s.arg a) = .error cause) : swrOp n a s = .error (.trap cause none) s := by
  unfold swrOp
  simp only [get_bind_run, h, if_true, x_eq, hw, raise_bind_run]

theorem swrOp_stored {w : Word} (h : sysWritable s.cur.id.sup n = true)
    (hw : sysStored n (s.sysOf s.cur n) (s.arg a) = .ok w) : swrOp n a s = .ok ⟨⟩
      ((if sysShared n then s.setShared s.cl n w else { s with cur := s.cur.setSys n w } : State).retired 4) := by
  unfold swrOp
  simp only [get_bind_run, h, if_true, x_eq, hw]
  cases sysShared n <;> rfl

end Swr

/-- A trap with the bits of the instruction in EADDR. -/
theorem does_raises {s : State} {op : Op Unit} {cause : Nat} (h : TrapReady s)
    (hd : (cause ≠ 1 ∧ cause ≠ 2) ∨ s.cur.reg.edepth ≠ 1) (ho : op s = .error (.trap cause none) s) :
    ∃ t, s.does op = .next t ∧ Traps s t cause s.cur.reg.edepth s.cur.reg.pc s.cur.bits s.cur.reg.pc :=
  ⟨_, does_error ho, deliverTrap_spec h cause (some s.cur.bits) .device (by decide) (hd.imp_right .inl)⟩

theorem openWrites_done : Claim.OpenWrites := by
  intro s a w r rnd lfsr
  refine ⟨fun h => ?_, fun h0 h7 => ?_, fun ht h => ?_, fun ht hd h => ?_⟩
  · exact ⟨_, (exec_swr ..).trans (does_ok (swrOp_stored a rfl (sysStored_shape _ h))), finishes_retired ..⟩
  · exact ⟨_, (exec_swr ..).trans (does_ok (swrOp_stored a rfl (sysStored_fps _ h0 h7))), finishes_retired ..⟩
  · exact does_raises ht (.inl (by decide)) (swrOp_refused a rfl (sysStored_shape_refused _ h))
  · exact does_raises ht (.inr hd) (swrOp_refused a rfl (sysStored_fps_refused _ h))

theorem sysWritable_user {n : Nat} (h : 2 ≤ n) : sysWritable false n = false := by
  simp [sysWritable]
  omega

/-- Segment registers are sixteen: their numbers count modulo 16. -/
theorem setSeg_sub (c : Context) (f : Seg → Seg) {n base : Nat} (h : base ≤ n) (hb : base % 16 = 0) :
    c.setSeg (n - base) f = c.setSeg n f := by
  have hn : Fin.ofNat 16 (n - base) = Fin.ofNat 16 n := by
    simp only [Fin.ofNat, Fin.mk.injEq]
    omega
  simp only [Context.setSeg, hn]

/-- The supervisor's own registers that R111 lets it write, and what a write leaves there. -/
theorem sysStored_own {r : Regs} {c : Context} {n : Nat} {w old : Word} (h : c.reg.sysPut n w = some r)
    (hold : n = 0x0F → old = c.reg.ecause) : sysWritable true n = true ∧ sysShared n = false ∧
      ∃ v, sysStored n old w = .ok v ∧ c.setSys n v = { c with reg := r } := by
  unfold Regs.sysPut at h
  split at h
  · obtain rfl := Option.some.inj h
    rw [hold rfl]
    exact ⟨rfl, rfl, _, sysStored_ecause .., rfl⟩
  · obtain rfl := Option.some.inj h
    exact ⟨rfl, rfl, _, rfl, rfl⟩
  · obtain rfl := Option.some.inj h
    exact ⟨rfl, rfl, _, rfl, rfl⟩
  · obtain rfl := Option.some.inj h
    exact ⟨rfl, rfl, _, congrArg Except.ok (and_spillMask w), rfl⟩
  · dsimp only at h
    have hstored (hn : 0x20 ≤ n) : sysStored n old w = .ok w := by
      unfold sysStored
      split
      case h_7 => rfl
      all_goals omega
    split at h
    · rename_i hn
      obtain rfl := Option.some.inj h
      refine ⟨by simp [sysWritable]; omega, by simp [sysShared]; omega, w, hstored hn.1, ?_⟩
      unfold Context.setSys
      rw [if_neg (by omega), if_pos hn.1, setSeg_sub c _ hn.1 rfl]
      rfl
    · split at h
      · rename_i hn
        obtain rfl := Option.some.inj h
        refine ⟨by simp [sysWritable]; omega, by simp [sysShared]; omega, w, hstored (by omega), ?_⟩
        unfold Context.setSys
        rw [if_pos hn.1, setSeg_sub c _ hn.1 rfl]
        rfl
      · cases h

/-- No register is writable but those of which R111 says so. -/
theorem sysWritable_other {r : Regs} {n : Nat} {w : Word} (ha : sysAssigned n = true) (h2 : 2 ≤ n) (h7 : n ≠ 0x07) (hA : n ≠ 0x0A)
    (h : r.sysPut n w = none) : sysWritable true n = false := by
  unfold Regs.sysPut at h
  split at h
  case h_5 =>
    dsimp only at h
    split at h
    · cases h
    · split at h
      · cases h
      · simp [sysAssigned, sysWritable] at *
        omega
  all_goals cases h

theorem supervisorWrites_done : Claim.SupervisorWrites := by
  intro s sn a v hv h2 w r k finish
  have hsup (h : s.cur.id.sup = true) (n : Nat) : sysWritable s.cur.id.sup n = sysWritable true n := by rw [h]
  refine ⟨fun hu => ?_, fun hs hn => ?_, fun hs hn => ?_, fun hs r' hr => ?_, fun hs h7 hA hr => ?_⟩
  · exact ⟨_, (exec_swr ..).trans (does_ok (swrOp_ignored a (hu ▸ sysWritable_user h2))), finishes_retired ..⟩
  · subst hn
    exact ⟨_, (exec_swr ..).trans (does_ok (swrOp_stored a (hsup hs 7) (sysStored_drpth ..))), finishes_retired ..⟩
  · subst hn
    exact ⟨_, (exec_swr ..).trans (does_ok (swrOp_stored a (hsup hs 10) (sysStored_gesso ..))), finishes_retired ..⟩
  · obtain ⟨hwrite, hown, x, hx, hset⟩ := sysStored_own (old := s.sysOf s.cur sn.val) hr (fun h => by rw [h]; exact sysOf_of_row rfl)
    refine ⟨_, (exec_swr ..).trans (does_ok (swrOp_stored a ((hsup hs _).trans hwrite) hx)), ?_⟩
    rw [hown, hset]
    exact finishes_retired ..
  · have hlisted := (sysAssigned_iff s s.cur sn.val).2 ⟨v, hv⟩
    have h7' : sn.val ≠ 7 := fun h => h7 (Fin.ext h)
    have hA' : sn.val ≠ 0x0A := fun h => hA (Fin.ext h)
    exact ⟨_, (exec_swr ..).trans (does_ok (swrOp_ignored a ((hsup hs _).trans (sysWritable_other hlisted h2 h7' hA' hr)))),
      finishes_retired ..⟩

/-- Settles O21: reads by the rows of R111, writes of SHAPE and FPS, and those of the supervisor. -/
theorem systemRegisters : Obligations.SystemRegisters :=
  ⟨systemReads_answered, openWrites_done, supervisorWrites_done⟩

end Sys2Proof.Machine
end

section
/-! PROOF. The memory side on a machine whose context alone has changed (O26, O27). -/

namespace Sys2Proof.Machine

/-! An access that finds its location at once changes nothing, and finds it there from another context's state too. -/

theorem event_history (s : State) (cl src : Nat) : (s.event cl src).history = s.history :=
  (congrArg State.history (event_fields s cl src) :)

theorem dieEvent_history (s : State) (die src : Nat) : (s.dieEvent die src).history = s.history := by
  unfold State.dieEvent
  generalize List.range 32 = l
  induction l generalizing s with
  | nil => rfl
  | cons i l ih => exact (ih _).trans (event_history ..)

theorem takeFrame_history (s : State) (die : Nat) : (s.takeFrame die).2.history = s.history := by
  unfold State.takeFrame
  dsimp only
  split
  · rfl
  · split <;> rfl

theorem putNum_history (s : State) (loc n v : Nat) : (s.putNum loc n v).history.length = s.history.length + 1 := rfl

theorem putBytes_history (s : State) (loc : Nat) (bs : List Byte) :
    (s.putBytes loc bs).history.length = s.history.length + 1 := rfl

theorem ctlPutField_history (s : State) (die off hi lo v : Nat) : (s.ctlPutField die off hi lo v).history = s.history := rfl

/-- A break of a copy-on-write page writes: the history of memory grows. -/
theorem cowBreak_writes {s t : State} {ia loc e log token page : Nat} (h : s.cowBreak ia loc e log token = (.ok page, t)) :
    s.history.length < t.history.length := by
  unfold State.cowBreak at h
  dsimp only at h
  split at h
  · cases h
  split at h
  · cases h
  split at h
  · obtain ⟨-, rfl⟩ := Prod.mk.inj h
    rw [dieEvent_history, ctlPutField_history, putNum_history]
    exact Nat.lt_succ_self _
  have hf := takeFrame_history s (homeDie ia)
  split at h
  · cases h
  · rename_i hframe
    rw [hframe] at hf
    obtain ⟨-, rfl⟩ := Prod.mk.inj h
    simp only [dieEvent_history, ctlPutField_history, putNum_history, putBytes_history, ← hf]
    omega

/-- Two choices by one condition, branch by branch. -/
theorem ite_imp_ite {α β : Type} {c : Prop} [Decidable c] {a b x : α} {a' b' y : β} (h : (if c then a else b) = x)
    (ha : a = x → a' = y) (hb : b = x → b' = y) : (if c then a' else b') = y := by
  split
  · exact ha (by rwa [if_pos ‹_›] at h)
  · exact hb (by rwa [if_neg ‹_›] at h)

/-- An access that is answered without a change is answered alike wherever its walk is the same. -/
theorem meet_settled {s u : State} {ia loc token : Nat} {k : Access} (h : s.meet ia k token = (.ok loc, s))
    (hwhere : u.whereIs ia = s.whereIs ia) (hwalk : u.walk ia = s.walk ia) (token' : Nat) :
    u.meet ia k token' = (.ok loc, u) := by
  unfold State.meet at h ⊢
  rw [hwhere, hwalk]
  refine ite_imp_ite h (fun h => by rw [(Prod.mk.inj h).1]) fun h => ?_
  cases hleaf : s.walk ia with
  | off => rw [hleaf] at h; cases h
  | absent level => rw [hleaf] at h; cases h
  | malformed e => rw [hleaf] at h; cases h
  | leaf l e log =>
    rw [hleaf] at h
    refine ite_imp_ite h (fun h => by cases h) fun h => ite_imp_ite h (fun h => ?_) fun h =>
      ite_imp_ite h (fun h => ?_) fun h => by rw [(Prod.mk.inj h).1]
    · split at h
      · rename_i hcow
        have hlonger := cowBreak_writes hcow
        rw [(Prod.mk.inj h).2] at hlonger
        exact absurd hlonger (Nat.lt_irrefl _)
      · rename_i hnot
        exact absurd h (hnot loc s)
    · have hlonger := putNum_history s l 8 (e + 2 ^ 7)
      rw [(Prod.mk.inj h).2] at hlonger
      omega

end Sys2Proof.Machine
end

section
/-! PROOF. TEND and CANCEL (O27). -/

namespace Sys2Proof.Machine

/-! A machine that has released. -/

theorem released_still {s : State} (n : Nat) (h : Still s) : Still (s.released n) := h

theorem Reaches.released {s : State} {k : Access} {va ia loc : Nat} (n : Nat) (h : Reaches s k va ia loc) :
    Reaches (s.released n) k va ia loc := by
  obtain ⟨hva, hmap, hplace, hmeet, hwrite⟩ := h
  exact ⟨hva, hmap, hplace, meet_settled (u := s.released n) hmeet rfl rfl _, hwrite⟩

theorem ObjectAt.reaches {s : State} {a : XReg} {k : Access} {ia loc : Nat} (h : ObjectAt s a k ia loc) :
    ∃ va, s.cur.effective (s.arg a) 0 64 = .ok va ∧ va % 64 = 0 ∧ Reaches s k va ia loc ∧
      s.touchedBy none ia 64 = false := by
  obtain ⟨va, heff, halign, hva, hmap, hpage, hmeet, hwrite, htouch⟩ := h
  exact ⟨va, heff, halign, ⟨hva, hmap, by simp [State.atomicAt, hpage], hmeet, fun _ => hwrite⟩, htouch⟩

/-- An object that no live region has touched is ready for its update at once. -/
theorem homeLoc_reaches {s : State} {k : Access} {va ia loc : Nat} (h : Still s) (hr : Reaches s k va ia loc)
    (ht : s.touchedBy none ia 64 = false) : homeLoc ⟨va, ia⟩ k s = .ok loc s := by
  unfold homeLoc
  rw [op_bind_ok (settle_still _ _ h), op_bind_ok (forcePublish_still _ _ h), op_bind_ok (reach_reaches hr 64)]
  simp [ht]

/-! TEND (R138, R141, R215). -/

/-- The deferred flags enter FPS at a release of the widest scope. -/
theorem takeDeferred_still {s : State} (h : s.cur.sync.region = none) : takeDeferred 6 s = .ok ⟨⟩ { s with cur := { s.cur with
    reg := s.cur.reg.flag s.cur.io.deferred, io := { s.cur.io with deferred := 0 } } } := by
  unfold takeDeferred
  simp only [inGlaze_bind_run, h]
  rfl

theorem exec_tend (a : XReg) (s : State) : exec (.tend a) s = s.does (tendOp a) := rfl

theorem tendOp_ends {s : State} (a : XReg) (hu : s.cur.id.sup = false) (h : Still s) (hm : s.cur.sync.monitors = []) :
    tendOp a s = .ok ⟨⟩ ((({ s with cur := { s.cur with
      reg := s.cur.reg.flag s.cur.io.deferred, io := { s.cur.io with deferred := 0 } } } : State).released 6).endTask
        s.cur.id.uid ((s.arg a).extractLsb' 0 32)) := by
  have hg : (s.released 6).cur.sync.region = none := h.2.1
  unfold tendOp
  simp only [userOnly_bind_run, notInGlaze_bind_run, self_bind_run, need_bind_run, hu, h.2.1, hm, Option.isNone_none,
    List.isEmpty_nil, if_true, Bool.false_eq_true, if_false]
  rw [op_bind_ok (takeLate_still _ h), op_bind_ok (releaseSystem_still h), op_bind_ok (takeDeferred_still hg)]
  rfl

theorem tendOp_monitor {s : State} (a : XReg) (hu : s.cur.id.sup = false) (hg : s.cur.sync.region = none)
    (hm : s.cur.sync.monitors ≠ []) : tendOp a s = .error (.trap 0x0E none) s := by
  have hsome : s.cur.sync.monitors.isEmpty = false := by simpa using hm
  unfold tendOp
  simp only [userOnly_bind_run, notInGlaze_bind_run, self_bind_run, need_bind_run, hu, hg, hsome, Option.isNone_none, if_true,
    Bool.false_eq_true, if_false]

theorem tasks_end : Claim.TaskEnds := by
  intro s a hu h
  refine ⟨fun hm => ?_, fun hm ht => ?_⟩
  · exact (exec_tend ..).trans (does_ok (tendOp_ends a hu h hm))
  · exact does_raises ht (.inl (by decide)) (tendOp_monitor a hu h.2.1 hm)

/-! CANCEL (R67, R143). -/

/-- STATE of an object hangs on the walk to it and on memory alone. -/
theorem objState_congr {s u : State} {ia : Nat} (hwhere : u.whereIs ia = s.whereIs ia) (hwalk : u.walk ia = s.walk ia)
    (hmem : u.mem = s.mem) : u.objState ia = s.objState ia := by
  have hmeet : (u.meet ia .read 0).1 = (s.meet ia .read 0).1 := by
    unfold State.meet
    rw [hwhere, hwalk]
    split
    · rfl
    dsimp only
    cases s.walk ia with
    | off => rfl
    | absent level => rfl
    | malformed e => rfl
    | leaf l e log =>
      cases hr : entryBit e 3 <;> simp [hr]
  unfold State.objState State.numAt State.bytesAt
  rw [hmeet, hmem]

/-- A machine differs from another only in contexts, counters and notes of the scheduler: its objects stand the same. -/
theorem cancelling_congr {s u : State} (num : Nat) (hl : u.launches = s.launches)
    (hwhere : ∀ ia, u.whereIs ia = s.whereIs ia) (hwalk : ∀ ia, u.walk ia = s.walk ia) (hmem : u.mem = s.mem) :
    u.cancelling num = s.cancelling num := by
  have hstate (ia : Nat) : u.objState ia = s.objState ia := objState_congr (hwhere ia) (hwalk ia) hmem
  simp only [State.cancelling, State.launch, hl, hstate]

theorem cancelling_agenda (s : State) (ds : List Duty) (num : Nat) :
    ({ s with agenda := ds } : State).cancelling num = s.cancelling num :=
  cancelling_congr num rfl (fun _ => rfl) (fun _ => rfl) rfl

/-- An event leaves the objects above a launch as they are. -/
theorem cancelling_event (s : State) (cl src num : Nat) : (s.event cl src).cancelling num = s.cancelling num :=
  cancelling_congr num (congrArg State.launches (event_fields s cl src) :)
    (fun ia => (congrArg (fun v : State => v.whereIs ia) (event_fields s cl src) :))
    (fun ia => (congrArg (fun v : State => v.walk ia) (event_fields s cl src) :))
    (congrArg State.mem (event_fields s cl src) :)

theorem homeCancel_open {s : State} {loc : Nat} (cause : Nat) (h : s.numAt (loc + 8) 1 = 1) :
    s.homeCancel loc cause = (0, (s.putNum (loc + 8) 1 3).putNum (loc + 0x24) 4 cause) := by
  unfold State.homeCancel State.markCancelling
  simp only [h, if_true]

/-- The answer of an object that is not OPEN. -/
def closedCode (state : Nat) : Nat := if state = 2 ∨ state = 4 then 1 else if state = 3 then 2 else 3

theorem homeCancel_closed {s : State} {loc : Nat} (cause : Nat) (h : s.numAt (loc + 8) 1 ≠ 1) :
    s.homeCancel loc cause = (closedCode (s.numAt (loc + 8) 1), s) := by
  unfold State.homeCancel closedCode
  split
  case h_1 h1 => exact absurd h1 h
  case h_5 h1 h2 h4 h3 => rw [if_neg (not_or.2 ⟨h2, h4⟩), if_neg h3]
  all_goals simp [*]

theorem closedCode_ne_zero (state : Nat) : closedCode state ≠ 0 := by
  unfold closedCode
  split_ifs <;> decide

/-- What CANCEL does once its answer is known: it acquires, the mark of an OPEN object is handed on, and it retires. -/
def cancelled (s : State) (ia : Nat) (d : XReg) (code : Nat) : State :=
  let s1 : State := if code = 0 then { s with agenda := s.agenda ++ [.cancelMark ia] } else s
  let c : Context := { s.cur with
    reg := s.cur.reg.put d (word code), order := { s.cur.order with acquired := s.now } }
  ({ s1 with cur := c } : State).retired 4

theorem cancelled_cancelling (s : State) (ia : Nat) (d : XReg) (code num : Nat) :
    (cancelled s ia d code).cancelling num = s.cancelling num := by
  unfold cancelled
  rw [retired_eq]
  refine (cancelling_event ..).trans ?_
  split <;> exact cancelling_congr num rfl (fun _ => rfl) (fun _ => rfl) rfl

/-- It has finished from the machine that holds the mark. -/
theorem cancelled_finishes (s : State) (ia : Nat) (d : XReg) (code : Nat) :
    let s1 : State := if code = 0 then { s with agenda := s.agenda ++ [.cancelMark ia] } else s
    Finishes s1 (cancelled s ia d code) (s1.gpr d (word code) 4) := by
  dsimp only
  unfold cancelled
  split <;> exact finishes_of 4 rfl (beside_cur ..)

theorem cancelled_job (s : State) (ia : Nat) (d : XReg) (code : Nat) : (cancelled s ia d code).cur.job = s.cur.job := by
  unfold cancelled
  rw [retired_eq, event_cur]

theorem exec_cancel (d a b : XReg) (s : State) : exec (.cancel d a b) s = s.does (cancelOp d a b) := rfl

theorem cancelOp_run {s s1 : State} {d a b : XReg} {ia loc code : Nat} (h : Still s) (hobj : ObjectAt s a .write ia loc)
    (hhome : ((s.released 6).watch ia loc .completion).homeCancel loc
      (if (s.x b).toNat % 2 ^ 32 = 0 then 0xFFFFFFFF else (s.x b).toNat % 2 ^ 32) = (code, s1))
    (hjob : s1.cur.job = s.cur.job) (hlive : s1.cancelling s.cur.job.launch = false) :
    cancelOp d a b s = .ok ⟨⟩ (cancelled s1 ia d code) := by
  obtain ⟨va, heff, halign, hreach, htouch⟩ := hobj.reaches
  rw [← x_eq] at heff
  have hloc := homeLoc_reaches (released_still 6 h) (hreach.released 6) htouch
  have hend : (if (cancelled s1 ia d code).cancelling (cancelled s1 ia d code).cur.job.launch then
      (cancelled s1 ia d code).endTask (cancelled s1 ia d code).cur.id.uid 0 else cancelled s1 ia d code) =
      cancelled s1 ia d code := by
    rw [cancelled_cancelling, cancelled_job, hjob, hlive]
    rfl
  unfold cancelOp
  simp only [notInGlaze_bind_run, h.2.1, Option.isNone_none, if_true, readX_bind_run]
  rw [op_bind_ok (effectiveVa_ok heff halign), op_bind_ok (mapSpot_reaches false hreach h.2.1)]
  rw [readX_bind_run, op_bind_ok (releaseSystem_still h), op_bind_ok hloc]
  simp only [get_bind_run, hhome, set_bind_run]
  refine Eq.trans ?_ (congrArg (EStateM.Result.ok PUnit.unit) hend)
  by_cases hcode : code = 0
  · subst hcode
    simp only [acquireNow, modify_bind_run, if_true, due_bind_run, writeX_bind_run, setX_eq, retires_bind_run, modify_run]
    rfl
  · simp only [acquireNow, modify_bind_run, if_neg hcode, writeX_bind_run, setX_eq, retires_bind_run, modify_run]
    unfold cancelled
    rw [if_neg hcode]

theorem cancels_answer : Claim.Cancels := by
  intro s d a b ia loc h hobj state w ans s0 s1 hlive
  have hnoted : Noted (s.released 6) s0 := watch_noted ..
  have hstate : s0.numAt (loc + 8) 1 = state := by
    unfold State.numAt State.bytesAt
    rw [hnoted.mem]
    rfl
  have hagenda : s0.agenda = s.agenda := (congrArg State.agenda hnoted :)
  have hjob : s0.cur.job = s.cur.job := (congrArg Context.job hnoted.cur).trans rfl
  by_cases hopen : state = 1
  · have hhome := homeCancel_open (if w = 0 then 0xFFFFFFFF else w) (hstate.trans hopen)
    have hs1 : s1 = (let v := (s0.putNum (loc + 8) 1 3).putNum (loc + 0x24) 4 (if w = 0 then 0xFFFFFFFF else w)
        { v with agenda := v.agenda ++ [.cancelMark ia] }) := by
      unfold s1
      rw [if_pos hopen, ← hagenda]
      rfl
    have hv : ((s0.putNum (loc + 8) 1 3).putNum (loc + 0x24) 4 (if w = 0 then 0xFFFFFFFF else w)).cur.job = s.cur.job := hjob
    have hans : ans = word 0 := if_pos hopen
    generalize (s0.putNum (loc + 8) 1 3).putNum (loc + 0x24) 4 (if w = 0 then 0xFFFFFFFF else w) = v at hhome hs1 hv
    rw [hs1] at hlive ⊢
    rw [hans]
    exact ⟨_, (exec_cancel ..).trans (does_ok (cancelOp_run (d := d) (b := b) h hobj hhome hv
      ((cancelling_agenda ..).symm.trans hlive))), cancelled_finishes v ia d 0⟩
  · have hs1 : s1 = s0 := if_neg hopen
    have hans : ans = word (closedCode state) := by
      unfold ans closedCode
      rw [if_neg hopen]
      split_ifs <;> rfl
    rw [hs1] at hlive ⊢
    have hrun := cancelOp_run (d := d) (b := b) h hobj (homeCancel_closed _ (hstate.symm ▸ hopen)) hjob hlive
    refine ⟨_, (exec_cancel ..).trans (does_ok hrun), ?_⟩
    rw [hans, hstate]
    have hdone := cancelled_finishes s0 ia d (closedCode state)
    rwa [if_neg (closedCode_ne_zero state)] at hdone

/-- Settles O27: TEND and CANCEL, each by its own theorem. -/
theorem taskEndings : Obligations.TaskEndings := ⟨tasks_end, cancels_answer⟩

end Sys2Proof.Machine
end

section
/-! PROOF. SPAWN (O26). -/

namespace Sys2Proof.Machine

theorem exec_spawn (d a : XReg) (s : State) : exec (.spawn d a) s = s.does (spawnOp d a) := rfl

/-- SPAWN with its status word, once the record has been reached and the context has released. -/
theorem spawnOp_run {s t : State} {d a : XReg} {va ia st : Nat} (h : Still s) (heff : s.cur.effective (s.arg a) 0 128 = .ok va)
    (halign : va % 64 = 0) (hmap : Maps s .read va ia) (hat : spawnAt va (s.released 6) = .ok st t) :
    spawnOp d a s = .ok ⟨⟩ (({ t with cur := { t.cur with reg := t.cur.reg.put d (word st) } } : State).retired 4) := by
  unfold spawnOp
  simp only [notInGlaze_bind_run, h.2.1, Option.isNone_none, if_true, readX_bind_run, x_eq]
  rw [op_bind_ok (effectiveVa_ok heff halign), op_bind_ok (mapSpot_maps false hmap h.2.1), op_bind_ok (releaseSystem_still h),
    op_bind_ok hat, writeX_bind_run, retires_run, setX_eq]

/-! The launch is created (R60). -/

/-- The objects above a launch, each made ready. -/
theorem homeLocs_run {s : State} {os : List Obj} {loc : Obj → Nat} (h : ∀ o ∈ os, homeLoc o.spot .atomic s = .ok (loc o) s) :
    os.mapM (fun o => do return (o.spot.ia, ← homeLoc o.spot .atomic) : Obj → Op (Nat × Nat)) s =
      .ok (os.map (fun o => (o.spot.ia, loc o))) s := by
  induction os with
  | nil => rfl
  | cons o os ih =>
    simp only [List.mem_cons, forall_eq_or_imp] at h
    simp only [List.mapM_cons, bind_assoc_run]
    rw [op_bind_ok h.1, pure_bind_run, op_bind_ok (ih h.2)]
    rfl

/-- An object above a launch has one child more. -/
def withChild (s : State) (o : Nat × Nat) : State :=
  (s.putNum (o.2 + 0x20) 4 ((s.numAt (o.2 + 0x20) 4 + 1) % 2 ^ 32)).watch o.1 o.2 .completion

/-- A machine whose memory and its notes alone have changed, as far as a launch asks. -/
def SameTasks (s t : State) : Prop := t.cur = s.cur ∧ t.launches = s.launches ∧ t.attached = s.attached

theorem SameTasks.watch (s : State) (ia loc : Nat) (k : ObjKind) : SameTasks s (s.watch ia loc k) := by
  have h := watch_noted s ia loc k
  exact ⟨h.cur, (congrArg State.launches h :), (congrArg State.attached h :)⟩

theorem SameTasks.trans {s t u : State} (h : SameTasks s t) (h' : SameTasks t u) : SameTasks s u :=
  ⟨h'.1.trans h.1, h'.2.1.trans h.2.1, h'.2.2.trans h.2.2⟩

theorem withChild_same (s : State) (o : Nat × Nat) : SameTasks s (withChild s o) :=
  SameTasks.trans (t := s.putNum (o.2 + 0x20) 4 ((s.numAt (o.2 + 0x20) 4 + 1) % 2 ^ 32)) ⟨rfl, rfl, rfl⟩ (.watch ..)

theorem withChild_mem (s : State) (o : Nat × Nat) : (withChild s o).mem =
    cellsSet s.mem (o.2 + 0x20) (toBytes 4 ((fromBytes (cellsGet s.mem (o.2 + 0x20) 4) + 1) % 2 ^ 32)) :=
  (watch_noted ..).mem

theorem withChildren_spec (s : State) (os : List Obj) (loc : Obj → Nat) :
    SameTasks s ((os.map (fun o => (o.spot.ia, loc o))).foldl withChild s) ∧
      ((os.map (fun o => (o.spot.ia, loc o))).foldl withChild s).mem = os.foldl
        (fun m o => cellsSet m (loc o + 0x20) (toBytes 4 ((fromBytes (cellsGet m (loc o + 0x20) 4) + 1) % 2 ^ 32))) s.mem := by
  induction os generalizing s with
  | nil => exact ⟨⟨rfl, rfl, rfl⟩, rfl⟩
  | cons o os ih =>
    obtain ⟨hsame, hmem⟩ := ih (withChild s (o.spot.ia, loc o))
    refine ⟨(withChild_same ..).trans hsame, ?_⟩
    rw [List.map_cons, List.foldl_cons, hmem, withChild_mem, List.foldl_cons]

/-- The machine with a launch created. -/
def launched (s : State) (l : Launch) (tree : Tree) (home : Nat) (loc : Obj → Nat) (parent : Nat) : State :=
  let s1 := (s.putBytes home (objectBytes l.total parent)).watch l.lobjIa home .completion
  let s2 := (tree.attach.map (fun o => (o.spot.ia, loc o))).foldl withChild s1
  { s2 with
    launches := s2.launches ++ [l]
    attached := s2.attached.filter (fun a => !(tree.links.any (fun b => b.ia = a.ia))) ++ tree.links }

theorem createLaunch_run {s : State} {l : Launch} {obj : Obj} {tree : Tree} {home : Nat} {loc : Obj → Nat} (parent : Nat)
    (hhome : homeLoc obj.spot .atomic s = .ok home s) (hlocs : ∀ o ∈ tree.attach, homeLoc o.spot .atomic s = .ok (loc o) s) :
    createLaunch (l, obj, tree) parent s = .ok ⟨⟩ (launched s l tree home loc parent) := by
  unfold createLaunch
  dsimp only
  rw [op_bind_ok hhome, op_bind_ok (homeLocs_run hlocs), modify_run]
  rfl

theorem launched_spec (s : State) (l : Launch) (tree : Tree) (home : Nat) (loc : Obj → Nat) (parent : Nat) :
    let t := launched s l tree home loc parent
    t.cur = s.cur ∧ t.launches = s.launches ++ [l] ∧
      t.attached = s.attached.filter (fun p => !(tree.links.any (fun q => q.ia = p.ia))) ++ tree.links ∧
      t.mem = tree.attach.foldl
        (fun m o => cellsSet m (loc o + 0x20) (toBytes 4 ((fromBytes (cellsGet m (loc o + 0x20) 4) + 1) % 2 ^ 32)))
        (cellsSet s.mem home (objectBytes l.total parent)) := by
  unfold launched
  dsimp only
  generalize objectBytes l.total parent = bs
  have hwritten : SameTasks s ((s.putBytes home bs).watch l.lobjIa home .completion) :=
    SameTasks.trans (t := s.putBytes home bs) ⟨rfl, rfl, rfl⟩ (.watch ..)
  have hobject : ((s.putBytes home bs).watch l.lobjIa home .completion).mem = (s.putBytes home bs).mem := (watch_noted ..).mem
  rw [show (s.putBytes home bs).mem = cellsSet s.mem home bs from rfl] at hobject
  generalize (s.putBytes home bs).watch l.lobjIa home .completion = s1 at hwritten hobject
  obtain ⟨hsame, hmem⟩ := withChildren_spec s1 tree.attach loc
  generalize (tree.attach.map (fun o => (o.spot.ia, loc o))).foldl withChild s1 = s2 at hsame hmem
  obtain ⟨hcur, hlaunches, hattached⟩ := hwritten.trans hsame
  rw [hobject] at hmem
  exact ⟨hcur, congrArg (· ++ [l]) hlaunches, by rw [hattached], hmem⟩

/-- Settles O26: SPAWN up to its status word, then a refusal, or CreateLaunch. -/
theorem spawns : Obligations.Spawns := by
  intro s d a va ia bs h s0 heff halign hmap hpeek
  refine ⟨fun st hcheck => ?_, fun l obj tree home loc hcheck hhome hlocs => ?_⟩
  · have hat : spawnAt va s0 = .ok st s0 := by
      unfold spawnAt
      rw [op_bind_ok hpeek, op_bind_ok hcheck]
      rfl
    exact ⟨_, (exec_spawn ..).trans (does_ok (spawnOp_run h heff halign hmap hat)), finishes_retired ..⟩
  · have hat : spawnAt va s0 = .ok 0 (launched s0 l tree home loc (numIn bs 0x18 8)) := by
      unfold spawnAt
      rw [op_bind_ok hpeek, op_bind_ok hcheck]
      dsimp only
      rw [op_bind_ok (createLaunch_run _ hhome hlocs)]
      rfl
    obtain ⟨hcur, hlaunches, hattached, hmem⟩ := launched_spec s0 l tree home loc (numIn bs 0x18 8)
    refine ⟨_, (exec_spawn ..).trans (does_ok (spawnOp_run h heff halign hmap hat)), ?_⟩
    generalize launched s0 l tree home loc (numIn bs 0x18 8) = u at hcur hlaunches hattached hmem
    obtain ⟨⟨hretired, hsync⟩, -⟩ := finishes_retired u (u.cur.reg.put d (word 0)) 4
    rw [hcur] at hretired hsync
    rw [retired_eq] at hretired hsync ⊢
    refine ⟨⟨hcur ▸ hretired, hcur ▸ hsync⟩, ?_, ?_, ?_⟩
    · exact (congrArg State.launches (event_fields ..)).trans hlaunches
    · exact (congrArg State.attached (event_fields ..)).trans hattached
    · exact (congrArg State.mem (event_fields ..)).trans hmem

end Sys2Proof.Machine
end

section
/-! PROOF. A cancel carried down to what lies beneath (O55, R67, R143). -/

namespace Sys2Proof.Machine

/-! Pages that stay seated while an object changes. -/

theorem Seated.meet_mem {s t : State} {ia loc at_ : Nat} {spans : List (Nat × Nat)} (h : Seated s ia loc spans)
    (hm : (at_, 64) ∈ spans) (ht : AtObject at_ s t) {k : Access} (token : Nat) (hk : k ≠ .fetch) :
    t.meet ia k token = (.ok loc, t) :=
  h t ht.packages ht.ctl (fun a ha => ht.outside a (ha _ hm)) k token hk

section SeatedObject

variable {s t : State} {ia loc at_ : Nat} {spans : List (Nat × Nat)} (h : Seated s ia loc spans) (hm : (at_, 64) ∈ spans)
  (ht : AtObject at_ s t)
include h hm ht

theorem Seated.objLoc_mem : t.objLoc ia = (some loc, t) := by
  unfold State.objLoc
  rw [h.meet_mem hm ht 0 (by decide)]

theorem Seated.objState_mem : t.objState ia = t.numAt (loc + 8) 1 := by
  unfold State.objState
  rw [h.meet_mem hm ht 0 (by decide)]

theorem Seated.objCause_mem : t.objCause ia = t.numAt (loc + 0x24) 4 := by
  unfold State.objCause
  rw [h.meet_mem hm ht 0 (by decide)]

theorem Seated.objAway_mem : t.objAway ia = false := by
  unfold State.objAway
  rw [h.meet_mem hm ht 0 (by decide)]

end SeatedObject

/-! Resident tasks that are to end at their next boundary. -/

/-- A task that a cancel has reached. -/
def Context.marked (c : Context) : Context := { c with sched := { c.sched with cancelled := true } }

/-- A resident task marked, and its end laid down. -/
def State.cancelOne (s : State) (c : Context) : State :=
  let s1 := s.mapCtx c.id.uid Context.marked
  { s1 with agenda := s1.agenda ++ [.cancelEnd c.id.uid] }

theorem cancelOne_contexts (s : State) (c : Context) : (s.cancelOne c).contexts =
    s.contexts.map (fun d => if d.id.uid = c.id.uid && d.live then d.marked else d) := rfl

theorem cancelOnes_mem (l : List Context) (s : State) : (l.foldl State.cancelOne s).mem = s.mem := by
  induction l generalizing s with
  | nil => rfl
  | cons c l ih => exact ih _

/-- Those of the numbers of a list are marked, and no other. -/
theorem cancelOnes_contexts (l : List Context) (s : State) : (l.foldl State.cancelOne s).contexts =
    s.contexts.map (fun d => if d.live && l.any (fun c => d.id.uid = c.id.uid) then d.marked else d) := by
  induction l generalizing s with
  | nil => simp
  | cons c l ih =>
    rw [List.foldl_cons, ih, cancelOne_contexts, List.map_map]
    refine List.map_congr_left fun d _ => ?_
    have hlive : d.marked.live = d.live := rfl
    have huid : d.marked.id = d.id := rfl
    have htwice : d.marked.marked = d.marked := rfl
    rw [List.any_cons]
    cases hl : d.live <;> by_cases hu : d.id.uid = c.id.uid <;> simp [Function.comp, hl, hu, hlive, huid, htwice]

/-- Residents are marked one by one. -/
theorem cancelEach_residents (l : List Context) (h : ∀ c ∈ l, c.sched.place = .slot) (s : State) :
    l.foldl (fun s c => if c.resident then
      let s3 := s.mapCtx c.id.uid (fun c => { c with sched := { c.sched with cancelled := true } })
      { s3 with agenda := s3.agenda ++ [.cancelEnd c.id.uid] }
    else s.endTask c.id.uid 0) s = l.foldl State.cancelOne s := by
  refine List.foldl_ext _ _ s fun s' c hc => ?_
  rw [if_pos (by simp [Context.resident, h c hc])]
  rfl

/-- The tasks of a launch all of whose tasks have been dispatched and stand in slots. -/
theorem cancelTasks_residents {s : State} {l : Launch} (hnext : l.next = l.total)
    (h : ∀ c ∈ s.contexts, c.live = true → c.id.sup = false → c.job.launch = l.num → c.sched.place = .slot ∧
      c.sched.ending = none) :
    let mine (c : Context) : Prop := c.live = true ∧ c.id.sup = false ∧ c.job.launch = l.num
    Distinct s → (s.cancelTasks l).mem = s.mem ∧ (∀ c ∈ s.contexts, mine c → c.marked ∈ (s.cancelTasks l).contexts) ∧
      ∀ c ∈ s.contexts, ¬mine c → c ∈ (s.cancelTasks l).contexts := by
  intro mine hd
  let chosen := s.contexts.filter (fun c => c.live && !c.id.sup && c.job.launch = l.num && c.sched.ending.isNone)
  have hleft : l.total - l.next - l.dropped = 0 := by omega
  have hmine (c : Context) (hc : c ∈ s.contexts) : c ∈ chosen ↔ mine c := by
    simp only [chosen, mine, List.mem_filter, hc, true_and, Bool.and_eq_true, Bool.not_eq_true', decide_eq_true_eq,
      Option.isNone_iff_eq_none, and_assoc]
    exact ⟨fun ⟨h1, h2, h3, _⟩ => ⟨h1, h2, h3⟩, fun ⟨h1, h2, h3⟩ => ⟨h1, h2, h3, (h c hc h1 h2 h3).2⟩⟩
  have hrun : s.cancelTasks l = chosen.foldl State.cancelOne (s.mapLaunch l.num (fun l' => { l' with dropped := l'.dropped + 0 })) := by
    unfold State.cancelTasks
    simp only [hleft, if_true]
    refine cancelEach_residents _ (fun c hc => ?_) _
    have hc' : c ∈ chosen := hc
    have hmem := List.mem_of_mem_filter hc'
    obtain ⟨h1, h2, h3⟩ := (hmine c hmem).1 hc'
    exact (h c hmem h1 h2 h3).1
  have himage (c : Context) (hc : c ∈ s.contexts) :
      (if c.live && chosen.any (fun d => c.id.uid = d.id.uid) then c.marked else c) ∈ (s.cancelTasks l).contexts := by
    rw [hrun, cancelOnes_contexts, mapLaunch_contexts]
    exact List.mem_map.2 ⟨c, hc, rfl⟩
  refine ⟨by rw [hrun, cancelOnes_mem, mapLaunch_mem], fun c hc hm => ?_, fun c hc hm => ?_⟩
  · have hyes : (c.live && chosen.any (fun d => c.id.uid = d.id.uid)) = true := by
      rw [hm.1, Bool.true_and, List.any_eq_true]
      exact ⟨c, (hmine c hc).2 hm, decide_eq_true rfl⟩
    have himg := himage c hc
    rwa [if_pos hyes] at himg
  · have hno : ¬(c.live && chosen.any (fun d => c.id.uid = d.id.uid)) = true := by
      rw [Bool.and_eq_true, List.any_eq_true]
      rintro ⟨-, d, hd', hu⟩
      have hdc : c = d := List.inj_on_of_nodup_map hd hc (List.mem_of_mem_filter hd') (of_decide_eq_true hu)
      exact hm ((hmine c hc).1 (hdc ▸ hd'))
    have himg := himage c hc
    rwa [if_neg hno] at himg

/-! The mark of a cancelled object (R143). -/

theorem markCancelling_open {s : State} {loc : Nat} (cause : Nat) (h : s.numAt (loc + 8) 1 = 1) :
    s.markCancelling loc cause = (s.putNum (loc + 8) 1 3).putNum (loc + 0x24) 4 cause := if_pos h

section Mark

variable (s : State) (loc cause : Nat)

theorem mark_atObject : AtObject loc s ((s.putNum (loc + 8) 1 3).putNum (loc + 0x24) 4 cause) :=
  ((AtObject.refl loc s).putNum (by decide)).putNum (by decide)

theorem mark_backstage : Backstage s ((s.putNum (loc + 8) 1 3).putNum (loc + 0x24) 4 cause) :=
  ((Backstage.refl s).putNum ..).putNum ..

theorem mark_state : ((s.putNum (loc + 8) 1 3).putNum (loc + 0x24) 4 cause).numAt (loc + 8) 1 = 3 :=
  (numAt_putNum_apart _ (.inr (by omega))).trans (numAt_putNum ..)

theorem mark_cause (h : cause < 2 ^ 32) :
    ((s.putNum (loc + 8) 1 3).putNum (loc + 0x24) 4 cause).numAt (loc + 0x24) 4 = cause :=
  (numAt_putNum ..).trans (Nat.mod_eq_of_lt h)

end Mark

section Descend

variable {s : State} {l : Launch} {obj lloc oloc : Nat} (hls : s.launches = [l]) (hfin : l.finished = false)
  (hchain : l.chain = [obj]) (hatt : s.attached = [])

include hls hfin hchain in
theorem treeBelow_single (hatt : s.attached = []) : s.treeBelow obj = [l.lobjIa] := by
  simp [State.treeBelow, hatt, hls, hfin, hchain]

include hls hfin hchain hatt in
/-- A CANCELLING object marks the object of the one launch beneath it, whose tasks then end. -/
theorem markDescendants_single (hbusy : s.objBusy l.lobjIa = false) (hoc : s.numAt (oloc + 8) 1 = 3)
    (hl : Seated s l.lobjIa lloc [(lloc, 64), (oloc, 64)]) (ho : Seated s obj oloc [(lloc, 64), (oloc, 64)])
    (hopen : s.numAt (lloc + 8) 1 = 1) :
    s.markDescendants obj = (((({ s with unmarked := s.unmarked.filter (· != obj) } : State).putNum (lloc + 8) 1 3).putNum
      (lloc + 0x24) 4 (s.numAt (oloc + 0x24) 4)).cancelTasks l) := by
  have hspan : (lloc, 64) ∈ [(lloc, 64), (oloc, 64)] := List.mem_cons_self
  have hfold : ([l].filter (fun k => !k.finished && (k.lobjIa :: k.chain).contains obj)).map (fun k => k.num) = [l.num] := by
    simp [hfin, hchain]
  unfold State.markDescendants
  rw [ho.objAway_mem hspan (.refl lloc s), ho.objState_mem hspan (.refl lloc s), ho.objCause_mem hspan (.refl lloc s), hoc,
    treeBelow_single hls hfin hchain hatt]
  generalize hs0 : ({ s with unmarked := s.unmarked.filter (· != obj) } : State) = s0
  rw [hls]
  have hat0 : AtObject lloc s s0 := hs0 ▸ ⟨rfl, rfl, fun _ _ => rfl⟩
  have hlaunches0 : s0.launches = [l] := hs0 ▸ hls
  have hfree0 : s0.objBusy l.lobjIa = false := hs0 ▸ hbusy
  have hopen0 : s0.numAt (lloc + 8) 1 = 1 := hs0 ▸ hopen
  have hfree : ((s0.putNum (lloc + 8) 1 3).putNum (lloc + 0x24) 4 (s.numAt (oloc + 0x24) 4)).objBusy l.lobjIa = false := hfree0
  have hmark : s0.markAt (s.numAt (oloc + 0x24) 4) l.lobjIa =
      some ((s0.putNum (lloc + 8) 1 3).putNum (lloc + 0x24) 4 (s.numAt (oloc + 0x24) 4)) := by
    unfold State.markAt
    rw [hfree0, hl.objLoc_mem hspan hat0]
    exact congrArg some (markCancelling_open _ hopen0)
  have hat := hat0.trans (mark_atObject s0 lloc (s.numAt (oloc + 0x24) 4))
  have hlaunches := (mark_backstage s0 lloc (s.numAt (oloc + 0x24) 4)).launches.trans hlaunches0
  have hstate := mark_state s0 lloc (s.numAt (oloc + 0x24) 4)
  generalize (s0.putNum (lloc + 8) 1 3).putNum (lloc + 0x24) 4 (s.numAt (oloc + 0x24) 4) = m at hfree hmark hat hlaunches hstate ⊢
  have hlaunch : m.launch l.num = some l := by
    rw [State.launch, hlaunches]
    simp
  have hcancelling : m.cancelling l.num = true := by
    unfold State.cancelling
    rw [hlaunch]
    simp only [List.any_cons]
    rw [hl.objState_mem hspan hat, hstate]
    rfl
  simp only [Bool.false_eq_true, if_false, bne_self_eq_false, List.foldl_cons, List.foldl_nil, hmark, Option.getD_some,
    List.find?_cons, List.find?_nil, hfree, hl.objLoc_mem hspan hat, Option.isNone_some, Bool.or_false, hfold, hlaunch,
    hcancelling, if_true]

end Descend

theorem cancels_marked : Claim.CancelMarks := by
  intro s l obj lloc oloc hls hfin hchain hatt hbusy hoc _ hnext _ hl ho hopen hd hres mine
  have hrun := markDescendants_single hls hfin hchain hatt hbusy hoc hl ho hopen
  have hlt : s.numAt (oloc + 0x24) 4 < 2 ^ 32 := numAt_lt s _ 4
  generalize hs0 : ({ s with unmarked := s.unmarked.filter (· != obj) } : State) = s0 at hrun
  have hmem0 : s0.mem = s.mem := hs0 ▸ rfl
  have hctx0 : s0.contexts = s.contexts := hs0 ▸ rfl
  have hstate := mark_state s0 lloc (s.numAt (oloc + 0x24) 4)
  have hcause := mark_cause s0 lloc _ hlt
  have houtside := (mark_atObject s0 lloc (s.numAt (oloc + 0x24) 4)).outside
  have hctx := (mark_backstage s0 lloc (s.numAt (oloc + 0x24) 4)).contexts.trans hctx0
  generalize (s0.putNum (lloc + 8) 1 3).putNum (lloc + 0x24) 4 (s.numAt (oloc + 0x24) 4) = m at hrun hstate hcause houtside hctx
  obtain ⟨hmem, hmine, hrest⟩ := cancelTasks_residents (s := m) hnext (by rwa [hctx]) (by rwa [Distinct, hctx])
  rw [hctx] at hmine hrest
  refine ⟨_, congrArg Host.Outcome.next hrun, ?_, ?_, fun a ha => ?_, hmine, hrest⟩
  · exact (congrArg (fun q => fromBytes (cellsGet q (lloc + 8) 1)) hmem).trans hstate
  · exact (congrArg (fun q => fromBytes (cellsGet q (lloc + 0x24) 4)) hmem).trans hcause
  · rw [hmem, houtside a ha, hmem0]

end Sys2Proof.Machine
end

section
/-! PROOF. Tasks that nothing holds end at once (O55, R67, R138, R141, R384). -/

namespace Sys2Proof.Machine

/-! What stands beside tasks. -/

/-- Units alone have changed: cores, clusters and dies. -/
def UnitsOnly (s t : State) : Prop := { t with cores := s.cores, clusters := s.clusters, dies := s.dies } = s

theorem UnitsOnly.refl (s : State) : UnitsOnly s s := rfl

theorem UnitsOnly.trans {s t u : State} (h : UnitsOnly s t) (h' : UnitsOnly t u) : UnitsOnly s u :=
  (congrArg (fun v : State => { v with cores := s.cores, clusters := s.clusters, dies := s.dies }) h' :).trans h

theorem UnitsOnly.contexts {s t : State} (h : UnitsOnly s t) : t.contexts = s.contexts := (congrArg State.contexts h :)

theorem UnitsOnly.ctx {s t : State} (h : UnitsOnly s t) (uid : Nat) : t.ctx uid = s.ctx uid :=
  (congrArg (fun v : State => v.ctx uid) h :)

theorem leavesReady_fields (s : State) (c : Context) : { s.leavesReady c with cores := s.cores } = s := by
  unfold State.leavesReady
  split <;> rfl

theorem leavesReady_units (s : State) (c : Context) : UnitsOnly s (s.leavesReady c) :=
  (congrArg (fun v : State => { v with clusters := s.clusters, dies := s.dies }) (leavesReady_fields s c) :)

theorem leavesReady_traps (s : State) (c : Context) (k : Nat) : ((s.leavesReady c).core k).traps = (s.core k).traps := by
  unfold State.leavesReady
  split
  · rw [core_setCore]
    split
    · rename_i hk
      rw [hk]
    · rfl
  · rfl

theorem freeEntry_units (s : State) (die entry : Nat) : UnitsOnly s (s.freeEntry die entry) := by
  unfold State.freeEntry
  dsimp only
  split <;> rfl

theorem UnitsOnly.foldl {α : Type} {f : State → α → State} (h : ∀ t a, UnitsOnly t (f t a)) (l : List α) (s : State) :
    UnitsOnly s (l.foldl f s) := by
  induction l generalizing s with
  | nil => exact .refl s
  | cons a l ih => exact (h s a).trans (ih _)

theorem leaveEntryQueue_units (s : State) (uid : Nat) : UnitsOnly s (s.leaveEntryQueue uid) := by
  refine UnitsOnly.foldl (fun t d => ?_) s.dies s
  dsimp only
  split
  · rfl
  · exact UnitsOnly.trans (rfl : UnitsOnly t (t.setDie d.1 _)) (freeEntry_units ..)

theorem leaveTable_commands (s : State) (uid n : Nat) : (s.leaveTable uid).commandsOf n = s.commandsOf n := by
  unfold State.commandsOf State.leaveTable
  rw [List.flatMap_map]

/-- A context with no command in flight gives up its place at the code table alone. -/
theorem squashOf_units {s : State} {uid : Nat} (h : s.commandsOf uid = []) : UnitsOnly s (s.squashOf uid) := by
  unfold State.squashOf
  rw [squashFrom_none ((leaveTable_commands ..).trans h)]
  rfl

theorem dropTraps_units (s : State) (uid core : Nat) : UnitsOnly s (s.dropTraps uid core) := by
  unfold State.dropTraps
  dsimp only
  split <;> rfl

/-! A context by its number, changed. -/

/-- A change that keeps a live context's number and life is what becomes of it. -/
theorem ctx_mapCtx_live (s : State) (uid : Nat) (f : Context → Context)
    (hf : ∀ c, c.id.uid = uid → c.live = true → (f c).id.uid = uid ∧ (f c).live = true) :
    (s.mapCtx uid f).ctx uid = (s.ctx uid).map f := by
  have hp : (fun c : Context => decide (c.id.uid = uid) && c.live) ∘
      (fun c => if c.id.uid = uid && c.live then f c else c) = fun c => decide (c.id.uid = uid) && c.live := by
    funext c
    simp only [Function.comp]
    split
    · rename_i hc
      rw [Bool.and_eq_true, decide_eq_true_eq] at hc
      obtain ⟨hu, hl⟩ := hf c hc.1 hc.2
      simp [hc, hu, hl]
    · rfl
  unfold State.ctx
  rw [contexts_mapCtx, List.find?_map, hp]
  cases h : s.contexts.find? (fun c => decide (c.id.uid = uid) && c.live) with
  | none => rfl
  | some c => exact congrArg some (if_pos (List.find?_some (p := fun c : Context => decide (c.id.uid = uid) && c.live) h))

/-- A context of another number stays as it is. -/
theorem mem_mapCtx {s : State} {uid : Nat} {f : Context → Context} {o : Context} (ho : o ∈ s.contexts) (hu : o.id.uid ≠ uid) :
    o ∈ (s.mapCtx uid f).contexts := by
  rw [contexts_mapCtx]
  exact List.mem_map.2 ⟨o, ho, if_neg (by simp [hu])⟩

/-! Nothing of a task is in flight, or held. -/

section Idle

variable {s : State} {uid : Nat} {c : Context} (h : s.ctx uid = some c)
include h

theorem drainAll_idle (hp : c.io.posted = []) (hr : c.io.reds = []) (hd : c.io.drains = []) : s.drainAll uid = s := by
  have htiles : s.drainTiles uid (fun _ => true) = s := by
    unfold State.drainTiles
    simp [h, hd]
  have hposted : s.drainPosted uid (fun _ => true) = s := by
    unfold State.drainPosted
    simp [h, hp]
  have hreds : s.drainReds uid (fun _ => true) true = s := by
    unfold State.drainReds
    simp [h, hr]
  rw [State.drainAll, htiles, hposted, hreds]

theorem abandon_none (hm : c.sync.monitors = []) (n : Nat) : s.abandon n uid = s := by
  cases n with
  | zero => rfl
  | succ n =>
    unfold State.abandon
    simp only [h, hm]

theorem closeHandles_none (hp : ∀ p ∈ c.reg.p, p = none) : s.closeHandles uid = s := by
  refine foldl_id _ _ _ fun n _ => ?_
  have hn : c.reg.p[n] = none := hp _ (Vector.getElem_mem ..)
  unfold State.closeHandle
  simp only [h, hn]

theorem endLease_none (hl : c.power.lease = none) : s.endLease uid = s := by
  unfold State.endLease
  simp [h, hl]

end Idle

theorem flushNet_empty {s : State} (h : s.net = []) : s.flushNet = s := by
  unfold State.flushNet
  rw [h]
  rfl

theorem easeHalf_ctl (s : State) (pkg : Nat) : { s.easeHalf pkg with ctl := s.ctl } = s := by
  unfold State.easeHalf
  dsimp only
  split <;> rfl

/-! The end is reported (R384, R385). -/

/-- A first status word folded into a node. -/
theorem foldStatus_zero (w : BitVec 32) : BitVec.ofNat 32 (foldStatus 0 w.toNat) =
    if w = 0 then 0 else (1 : BitVec 16) ++ w.extractLsb' 0 16 := by
  have hw := w.isLt
  have hz : w.toNat % 2 ^ 32 = 0 ↔ w = 0 := by
    rw [Nat.mod_eq_of_lt hw, ← BitVec.toNat_inj]
    rfl
  unfold foldStatus
  by_cases h : w = 0
  · rw [if_pos (hz.2 h), if_pos h]
    rfl
  · rw [if_neg (mt hz.1 h), if_neg h]
    refine BitVec.eq_of_toNat_eq (Eq.trans ?_ (toNat_append_eq_add ..).symm)
    simp only [BitVec.toNat_ofNat, BitVec.extractLsb'_toNat, Nat.zero_or, BitVec.ofNat_eq_ofNat]
    omega

theorem addNode_new {s : State} {num node : Nat} (count word : Nat)
    (h : ∀ n ∈ s.nodes, ¬(n.launch = num ∧ n.node = node)) :
    s.addNode num node count word = { s with nodes := s.nodes ++ [⟨num, node, count, BitVec.ofNat 32 word⟩] } := by
  have hnone : s.nodes.find? (fun n => n.launch = num && n.node = node) = none :=
    List.find?_eq_none.2 fun n hn => by simpa using h n hn
  unfold State.addNode
  rw [hnone]

theorem addNode_fields (s : State) (num node count word : Nat) : { s.addNode num node count word with nodes := s.nodes } = s := by
  unfold State.addNode
  split <;> rfl

/-- The report of an end to a node that has none yet, and what every report leaves. -/
theorem reportEnd_spec {s : State} {l : Launch} {num core : Nat} (w : BitVec 32) (hl : s.launch num = some l) :
    let t := s.reportEnd num core w
    { t with nodes := s.nodes, agenda := s.agenda } = s ∧ t.agenda = s.agenda ++ [.treeForward l.lobjIa (s.treeNode l core)] ∧
      ((∀ n ∈ s.nodes, ¬(n.launch = l.num ∧ n.node = s.treeNode l core)) →
        t.nodes = s.nodes ++ [⟨l.num, s.treeNode l core, 1, if w = 0 then 0 else (1 : BitVec 16) ++ w.extractLsb' 0 16⟩]) := by
  have hnum : l.num = num := of_decide_eq_true (List.find?_some hl :)
  have hfields := addNode_fields s num (s.treeNode l core) 1 (foldStatus 0 w.toNat)
  unfold State.reportEnd
  rw [hl]
  refine ⟨(congrArg (fun v : State => { v with agenda := s.agenda }) hfields :), ?_, fun hnew => ?_⟩
  · exact (congrArg (fun v : State => v.agenda ++ [.treeForward l.lobjIa (s.treeNode l core)]) hfields :)
  · dsimp only
    rw [hnum] at hnew ⊢
    rw [addNode_new _ _ hnew, foldStatus_zero]

/-! The last step of an end (R141). -/

/-- A task that has ended: it holds nothing, and its mailbox is gone. -/
def Context.over (c : Context) : Context :=
  { c with sched := { c.sched with place := .ended, ending := none }, mail := ⟨[], [], none⟩ }

/-- The machine without the task of a number, its account closed. -/
def State.without (s : State) (uid : Nat) : State :=
  let s3 := s.mapCtx uid Context.over
  { s3 with
    others := s3.others.filter (fun c => c.id.uid != uid)
    accounts := s3.accounts.map (fun a => if a.uid = uid then { a with ended := some s3.now } else a) }

theorem without_ctx (s : State) (uid : Nat) : (s.without uid).ctx uid = none := by
  refine List.find?_eq_none.2 fun d hd => ?_
  rw [Bool.and_eq_true, decide_eq_true_eq]
  rintro ⟨hu, hlive⟩
  rcases List.mem_cons.1 hd with hcur | hother
  · have hid : (if s.cur.id.uid = uid && s.cur.live then s.cur.over else s.cur) = d := hcur.symm
    split at hid
    · rw [← hid] at hlive
      exact absurd hlive Bool.false_ne_true
    · rename_i hno
      rw [← hid] at hu hlive
      exact hno (by simp [hu, hlive])
  · have hne := (List.mem_filter.1 hother).2
    simp [hu] at hne

theorem without_others {s : State} {uid : Nat} {o : Context} (ho : o ∈ s.contexts) (hu : o.id.uid ≠ uid) :
    o ∈ (s.without uid).contexts := by
  have hm : o ∈ (s.mapCtx uid Context.over).contexts := mem_mapCtx ho hu
  rcases List.mem_cons.1 hm with hcur | hother
  · exact List.mem_cons.2 (.inl hcur)
  · exact List.mem_cons.2 (.inr (List.mem_filter.2 ⟨hother, by simp [hu]⟩))

/-- The end of a task that holds nothing. -/
theorem finalEnd_idle {s : State} {uid : Nat} {c : Context} (w : BitVec 32) (h : s.ctx uid = some c)
    (hp : ∀ p ∈ c.reg.p, p = none) (hlease : c.power.lease = none) (hin : c.mail.inbox = []) (hframe : c.mail.frame = []) :
    s.finalEnd uid w = (((s.without uid).reportEnd c.job.launch c.id.core w).flushNet).easeHalf (pkgOf c.id.core) := by
  have hmail : c.mail.all = [] := by simp [Mail.all, hin, hframe]
  unfold State.finalEnd
  simp only [h, closeHandles_none h hp, endLease_none h hlease, hmail, List.foldl_nil]
  rfl

/-- A task at its end: everything of it has drained, and it holds nothing. -/
theorem finalEnd_gone {s : State} {uid : Nat} {c : Context} {l : Launch} (w : BitVec 32) (h : s.ctx uid = some c)
    (hp : ∀ p ∈ c.reg.p, p = none) (hlease : c.power.lease = none) (hin : c.mail.inbox = []) (hframe : c.mail.frame = [])
    (hnet : s.net = []) (hl : s.launch c.job.launch = some l) : Gone s (s.finalEnd uid w) uid c l w := by
  obtain ⟨hfields, hagenda, hnodes⟩ := reportEnd_spec (core := c.id.core) w (show (s.without uid).launch c.job.launch = some l from hl)
  rw [finalEnd_idle w h hp hlease hin hframe]
  have hnet' : ((s.without uid).reportEnd c.job.launch c.id.core w).net = [] := (congrArg State.net hfields :).trans hnet
  rw [flushNet_empty hnet']
  have heased := easeHalf_ctl ((s.without uid).reportEnd c.job.launch c.id.core w) (pkgOf c.id.core)
  generalize (s.without uid).reportEnd c.job.launch c.id.core w = r at hfields hagenda hnodes heased ⊢
  generalize r.easeHalf (pkgOf c.id.core) = t at heased ⊢
  have hcontexts : t.contexts = (s.without uid).contexts :=
    (congrArg State.contexts heased :).trans (congrArg State.contexts hfields :)
  refine ⟨?_, fun o ho hu => ?_, ?_, ?_, ?_, fun hnew => ?_⟩
  · exact (congrArg (List.find? _) hcontexts).trans (without_ctx s uid)
  · rw [hcontexts]
    exact without_others ho hu
  · exact (congrArg State.mem heased :).trans (congrArg State.mem hfields :)
  · exact (congrArg State.agenda heased :).trans hagenda
  · exact (congrArg State.accounts heased :).trans (congrArg State.accounts hfields :)
  · exact (congrArg State.nodes heased :).trans (hnodes hnew)

/-! The end of a task from its first step (R141). -/

/-- A task that is ending with a status word: it waits for nothing more. -/
def Context.ends (w : BitVec 32) (c : Context) : Context :=
  { c with
    sched := { c.sched with ending := some w, parked := false, toSafe := none }
    sync := { c.sync with wait := .none, grant := none } }

/-- The machine with everything of a task squashed and its trap records dropped. -/
def State.unplaced (s : State) (uid core : Nat) : State := ((s.squashOf uid).leaveEntryQueue uid).dropTraps uid core

theorem unplaced_units {s : State} {uid : Nat} (core : Nat) (h : s.commandsOf uid = []) : UnitsOnly s (s.unplaced uid core) :=
  ((squashOf_units h).trans (leaveEntryQueue_units ..)).trans (dropTraps_units ..)

/-- What an end tells of a machine is the same of another whose contexts, tree and accounts are. -/
theorem Gone.of_same {s s1 t : State} {uid : Nat} {c c1 : Context} {l : Launch} {w : BitVec 32} (h : Gone s1 t uid c1 l w)
    (hcontexts : ∀ o ∈ s.contexts, o.id.uid ≠ uid → o ∈ s1.contexts) (hcore : c1.id.core = c.id.core)
    (hmem : s1.mem = s.mem) (hagenda : s1.agenda = s.agenda) (haccounts : s1.accounts = s.accounts) (hnow : s1.now = s.now)
    (hnodes : s1.nodes = s.nodes) (hpackages : s1.packages = s.packages) : Gone s t uid c l w := by
  have htree : s1.treeNode l c.id.core = s.treeNode l c.id.core := by
    have hcores : s1.treeCores l = s.treeCores l := by rw [State.treeCores, State.eligible, hpackages]; rfl
    rw [State.treeNode, hcores]
    rfl
  obtain ⟨hgone, hothers, hm, ha, hacc, hn⟩ := h
  rw [hcore, htree] at ha hn
  rw [hmem] at hm
  rw [hagenda] at ha
  rw [haccounts, hnow] at hacc
  rw [hnodes] at hn
  exact ⟨hgone, fun o ho hu => hothers o (hcontexts o ho hu) hu, hm, ha, hacc, hn⟩

/-- A task that nothing holds has gone once its end begins. -/
theorem endTask_gone {s : State} {uid : Nat} {c : Context} {l : Launch} (w : BitVec 32) (h : EndsAtOnce s uid c l) :
    Gone s (s.endTask uid w) uid c l w := by
  obtain ⟨-, hc, -, hposted, hreds, hdrains, hregion, hmonitors, hhandles, hlease, hin, hframe, hending, hcommands, hnet, -, -, hl⟩ := h
  have hunits := unplaced_units c.id.core hcommands
  have hrun : s.endTask uid w = ((s.unplaced uid c.id.core).mapCtx uid (Context.ends w)).tryEnd uid := by
    unfold State.endTask
    simp only [hc, hending, hregion, Option.isSome_none, Bool.false_eq_true, if_false]
    rfl
  have hctx1 := hunits.ctx uid
  have hnet1 : (s.unplaced uid c.id.core).net = s.net := (congrArg State.net hunits :)
  have hlaunches1 : (s.unplaced uid c.id.core).launches = s.launches := (congrArg State.launches hunits :)
  have hsame {t : State} {c1 : Context} (hcore : c1.id.core = c.id.core)
      (hg : Gone ((s.unplaced uid c.id.core).mapCtx uid (Context.ends w)) t uid c1 l w) : Gone s t uid c l w := by
    refine hg.of_same (fun o ho hu => mem_mapCtx ?_ hu) hcore (congrArg State.mem hunits :) (congrArg State.agenda hunits :)
      (congrArg State.accounts hunits :) (congrArg State.now hunits :) (congrArg State.nodes hunits :)
      (congrArg State.packages hunits :)
    rwa [hunits.contexts]
  rw [hrun]
  generalize s.unplaced uid c.id.core = s1 at hctx1 hnet1 hlaunches1 hsame ⊢
  have hctx2 : (s1.mapCtx uid (Context.ends w)).ctx uid = some (c.ends w) := by
    rw [ctx_mapCtx_live _ _ (Context.ends w) fun _ hu hlive => ⟨hu, hlive⟩, hctx1, hc]
    rfl
  have hnet2 : (s1.mapCtx uid (Context.ends w)).net = [] := hnet1.trans hnet
  have hl2 : (s1.mapCtx uid (Context.ends w)).launch c.job.launch = some l := by
    rw [← hl]
    exact congrArg (List.find? _) hlaunches1
  generalize s1.mapCtx uid (Context.ends w) = s2 at hctx2 hnet2 hl2 hsame ⊢
  have hquiet : (c.ends w).io.quiet = true := by simp [InFlight.quiet, Context.ends, hposted, hreds, hdrains]
  have hend : (c.ends w).sched.ending = some w := rfl
  have hnone : (c.ends w).sync.monitors.isEmpty = true := by simp [Context.ends, hmonitors]
  have htry : s2.tryEnd uid = s2.finalEnd uid w := by
    unfold State.tryEnd
    simp only [hctx2, hend, drainAll_idle hctx2 hposted hreds hdrains, hquiet, abandon_none hctx2 hmonitors, hnone, if_true,
      Bool.not_true, Bool.false_eq_true, if_false]
  rw [htry]
  exact hsame (c1 := c.ends w) rfl (finalEnd_gone w hctx2 hhandles hlease hin hframe hnet2 hl2)

theorem EndsAtOnce.leavesReady {s : State} {uid : Nat} {c : Context} {l : Launch} (h : EndsAtOnce s uid c l) (d : Context) :
    EndsAtOnce (s.leavesReady d) uid c l := by
  obtain ⟨hd, hc, hsup, hposted, hreds, hdrains, hregion, hmonitors, hhandles, hlease, hin, hframe, hending, hcommands, hnet,
    htraps, hdies, hl⟩ := h
  have hf := leavesReady_fields s d
  have hcontexts : (s.leavesReady d).contexts = s.contexts := (congrArg State.contexts hf :)
  have hsamedies : (s.leavesReady d).dies = s.dies := (congrArg State.dies hf :)
  refine ⟨?_, (congrArg (fun v : State => v.ctx uid) hf :).trans hc, hsup, hposted, hreds, hdrains, hregion, hmonitors, hhandles,
    hlease, hin, hframe, hending, (congrArg (fun v : State => v.commandsOf uid) hf :).trans hcommands,
    (congrArg State.net hf :).trans hnet, ?_, ?_, (congrArg (fun v : State => v.launch c.job.launch) hf :).trans hl⟩
  · rwa [Distinct, hcontexts]
  · rwa [leavesReady_traps]
  · rwa [hsamedies]

theorem cancelEnds_gone : Claim.CancelEnds := by
  intro s uid c l h hcancelled
  have hunits := leavesReady_units s c
  have hrun : exec (.taskCancelEnd uid) s = .next ((s.leavesReady c).endTask uid 0) := by
    refine congrArg Host.Outcome.next ?_
    unfold State.cancelEnd
    simp only [h.2.1, hcancelled, Bool.true_or, if_true]
  refine ⟨_, hrun, (endTask_gone 0 (h.leavesReady c)).of_same (fun o ho _ => ?_) rfl (congrArg State.mem hunits :)
    (congrArg State.agenda hunits :) (congrArg State.accounts hunits :) (congrArg State.now hunits :)
    (congrArg State.nodes hunits :) (congrArg State.packages hunits :)⟩
  rwa [hunits.contexts]

/-- TEND of a task that nothing holds takes it away, its flags and its release notwithstanding. -/
theorem quietEnds_gone : Claim.QuietEnds := by
  intro s a l h hstill
  obtain ⟨hd, hc, hsup, hposted, hreds, hdrains, hregion, hmonitors, hhandles, hlease, hin, hframe, hending, hcommands, hnet,
    htraps, hdies, hl⟩ := h
  have hrun := (exec_tend a s).trans (does_ok (tendOp_ends a hsup hstill hmonitors))
  refine ⟨_, hrun, Gone.of_same (c1 := { s.cur with
    reg := s.cur.reg.flag s.cur.io.deferred, io := { s.cur.io with deferred := 0 }
    order := { s.cur.order with fenced := none } }) (endTask_gone _ ?_) (fun o ho hu => ?_) rfl rfl rfl rfl rfl rfl rfl⟩
  · exact ⟨hd, ctx_cur hstill.1, hsup, hposted, hreds, hdrains, hregion, hmonitors, hhandles, hlease, hin, hframe, hending,
      hcommands, hnet, htraps, hdies, hl⟩
  · rcases List.mem_cons.1 ho with hcur | hother
    · exact absurd (congrArg (fun d : Context => d.id.uid) hcur) hu
    · exact List.mem_cons.2 (.inr hother)

end Sys2Proof.Machine
end

section
/-! PROOF. Tasks leave for their frames (O55, R63 to R65, R68). -/

namespace Sys2Proof.Machine

/-! What a write of the device to memory leaves of the contexts: waiters of an object that it reaches may be released. -/

/-- A context with another wait, its status and what goes with them. -/
def Context.withSync (c d : Context) : Context := { c with sync := d.sync }

/-- The network is as it was, and of the contexts nothing has changed but what they wait for. -/
def WakesOnly (s t : State) : Prop :=
  t.net = s.net ∧ ∃ f : Context → Context, (∀ c, f c = c.withSync (f c)) ∧ t.contexts = s.contexts.map f

theorem WakesOnly.refl (s : State) : WakesOnly s s := ⟨rfl, id, fun _ => rfl, (List.map_id _).symm⟩

theorem WakesOnly.trans {s t u : State} (h : WakesOnly s t) (h' : WakesOnly t u) : WakesOnly s u := by
  obtain ⟨hnet, f, hf, hcontexts⟩ := h
  obtain ⟨hnet', g, hg, hcontexts'⟩ := h'
  refine ⟨hnet'.trans hnet, g ∘ f, fun c => ?_, by rw [hcontexts', hcontexts, List.map_map]⟩
  rw [Function.comp, hg (f c), hf c]
  rfl

theorem WakesOnly.of_backstage {s t : State} (h : Backstage s t) : WakesOnly s t :=
  ⟨(congrArg State.net h :), id, fun _ => rfl, h.contexts.trans (List.map_id _).symm⟩

theorem WakesOnly.foldl {α : Type} {f : State → α → State} (h : ∀ t a, WakesOnly t (f t a)) (l : List α) (s : State) :
    WakesOnly s (l.foldl f s) := by
  induction l generalizing s with
  | nil => exact .refl s
  | cons a l ih => exact (h s a).trans (ih _)

theorem WakesOnly.ctx {s t : State} (h : WakesOnly s t) {uid : Nat} {c : Context} (hc : s.ctx uid = some c) :
    ∃ d, t.ctx uid = some d ∧ d = c.withSync d := by
  obtain ⟨-, f, hf, hcontexts⟩ := h
  have hp : (fun d : Context => decide (d.id.uid = uid) && d.live) ∘ f = fun d => decide (d.id.uid = uid) && d.live := by
    funext d
    simp only [Function.comp]
    rw [hf d]
    rfl
  refine ⟨f c, ?_, hf c⟩
  unfold State.ctx at hc ⊢
  rw [hcontexts, List.find?_map, hp, hc]
  rfl

theorem releaseWaiters_wakes (s : State) (w : Wait) (st : Word) : WakesOnly s (s.releaseWaiters w st) := by
  refine ⟨rfl, fun c => if c.live && c.sync.wait = w && c.sync.grant.isNone then
    { c with sync := { c.sync with grant := some st } } else c, fun c => ?_, rfl⟩
  dsimp only
  split <;> rfl

theorem clobberOne_wakes (s : State) (ia loc : Nat) (k : ObjKind) (token : Nat) : WakesOnly s (s.clobberOne ia loc k token) := by
  have hcheck (t : State) : WakesOnly t (t.machineCheck (homeDie ia) ia (unitOf 2 (homeSlice ia)) 6 0 token 0) :=
    .of_backstage (machineCheck_backstage ..)
  have hevent (t : State) : WakesOnly t (t.dieEvent (homeDie ia) 33) := .of_backstage ((Backstage.refl t).dieEvent ..)
  unfold State.clobberOne
  split
  · exact .refl s
  split
  · exact ⟨rfl, id, fun _ => rfl, (List.map_id _).symm⟩
  cases k with
  | barrier => exact ((releaseWaiters_wakes ..).trans (hevent _)).trans (hcheck _)
  | monitor => exact ((releaseWaiters_wakes ..).trans (hevent _)).trans (hcheck _)
  | completion => exact (releaseWaiters_wakes ..).trans (hcheck _)
  | chain => exact hcheck s

theorem clobber_wakes (s : State) (ia loc n token : Nat) : WakesOnly s (s.clobber ia loc n token) := by
  refine WakesOnly.foldl (fun t o => ?_) s.objects s
  split
  · exact clobberOne_wakes ..
  · exact .refl t

theorem putIa_wakes (token fuel : Nat) (s : State) (ia : Nat) (bs : List Byte) : WakesOnly s (s.putIa token fuel ia bs).2 := by
  induction fuel generalizing s ia bs with
  | zero => exact .refl s
  | succ fuel ih =>
    have hmeet := WakesOnly.of_backstage (meet_backstage s ia .write token)
    unfold State.putIa
    split
    · exact .refl s
    dsimp only
    split
    · rename_i loc s1 hm
      have hs1 : WakesOnly s s1 := by rwa [hm] at hmeet
      exact ((hs1.trans (clobber_wakes s1 ia loc _ token)).trans (.of_backstage ((Backstage.refl _).putBytes ..))).trans (ih ..)
    · rename_i hm
      rwa [hm] at hmeet
    · rename_i hm
      rwa [hm] at hmeet

theorem thenPut_wakes {s : State} {r : Option Nat × State} {f : State → Option Nat × State} (hr : WakesOnly s r.2)
    (hf : ∀ t, WakesOnly t (f t).2) : WakesOnly s (thenPut r f).2 := by
  unfold thenPut
  split
  · exact hr.trans (hf _)
  · exact hr

theorem writeFrame_wakes (s : State) (c : Context) (safe : Bool) (live : LiveMap) : WakesOnly s (s.writeFrame c safe live).2 := by
  have hput (p : Prop) [Decidable p] (token fuel ia : Nat) (bs : List Byte) (t : State) :
      WakesOnly t (if p then (none, t) else t.putIa token fuel ia bs).2 := by
    split
    · exact .refl t
    · exact putIa_wakes ..
  have hbase := thenPut_wakes (putIa_wakes c.token 8 s c.frameIa (frameBytes s c safe live))
    (hput (tileRoom c.job.tcells c.job.group = 0) c.token (c.sched.xsize / 4096 + 2) c.sched.xbase (tileExtension c.reg.t))
  unfold State.writeFrame
  dsimp only
  split
  · exact hbase
  · exact thenPut_wakes (thenPut_wakes hbase fun t => putIa_wakes ..) (hput _ _ _ _ _)

theorem saveFrame_wakes (s : State) (c : Context) (safe : Bool) (live : LiveMap) : WakesOnly s (s.saveFrame c safe live).2 :=
  writeFrame_wakes ..

/-! HWPWR clears (R373). -/

theorem easeHalf_eased (s : State) (pkg : Nat) : Eased s (s.easeHalf pkg) pkg := by
  have hbit : s.ctlField (pkg * 4) 0x758 30 30 = 1 ↔ (s.ctlGet (pkg * 4) 0x758).getLsbD 30 = true := by
    rw [State.ctlField, bitsOf, BitVec.getLsbD, Nat.testBit_eq_decide_div_mod_eq, decide_eq_true_eq]
    rfl
  have hlow : s.ctlField (pkg * 4) 0x758 15 0 = ((s.ctlGet (pkg * 4) 0x758).extractLsb' 0 16).toNat := bitsOf_eq_extractLsb' ..
  have hall (c : Context) : (!c.live || c.id.sup || pkgOf c.id.core != pkg || !(s.classShed pkg c.reg.cls) || !c.resident ||
      c.power.hold) = true ↔ (c.live = true → c.id.sup = false → pkgOf c.id.core = pkg → s.classShed pkg c.reg.cls = true →
        c.sched.place = .slot → c.power.hold = true) := by
    simp only [Context.resident, Bool.or_eq_true, Bool.not_eq_true', bne_iff_ne, decide_eq_true_eq, ← Bool.not_eq_true]
    tauto
  have hcond : (s.ctlField (pkg * 4) 0x758 30 30 = 1 && s.estimate pkg ≤ s.ctlField (pkg * 4) 0x748 31 16 &&
      (s.pkg pkg).lowered = 0 && (s.pkg pkg).safeLowered = 0 &&
      s.ctlField (pkg * 4) 0x758 15 0 ≤ s.ctlField (pkg * 4) 0x748 31 16 &&
      s.contexts.all (fun c => !c.live || c.id.sup || pkgOf c.id.core != pkg || !(s.classShed pkg c.reg.cls) ||
        !c.resident || c.power.hold)) = true ↔
      ((s.ctlGet (pkg * 4) 0x758).getLsbD 30 = true ∧ s.estimate pkg ≤ s.ctlField (pkg * 4) 0x748 31 16 ∧
        (s.pkg pkg).lowered = 0 ∧ (s.pkg pkg).safeLowered = 0 ∧
        ((s.ctlGet (pkg * 4) 0x758).extractLsb' 0 16).toNat ≤ s.ctlField (pkg * 4) 0x748 31 16 ∧
        ∀ c ∈ s.contexts, c.live = true → c.id.sup = false → pkgOf c.id.core = pkg → s.classShed pkg c.reg.cls = true →
          c.sched.place = .slot → c.power.hold = true) := by
    simp only [hlow, Bool.and_eq_true, decide_eq_true_eq, hbit, List.all_eq_true, hall, and_assoc]
  unfold State.easeHalf
  dsimp only
  refine ⟨fun h => ?_, fun h => ?_⟩
  · rw [if_pos (hcond.2 h)]
    exact onlyCtl_ctlSet ..
  · rw [if_neg (mt hcond.1 h)]

/-! A context saved (R188, R356). -/

/-- A mask of all ones keeps every register. -/
theorem mapFinIdx_testBit {α : Type} {n k : Nat} (v : Vector α n) (z : α) (h : n ≤ k) :
    v.mapFinIdx (fun i w _ => if (2 ^ k - 1).testBit i then w else z) = v := by
  ext i hi
  simp [Nat.testBit_two_pow_sub_one, hi.trans_le h]

theorem alive_all (r : Regs) : r.alive LiveMap.all = r := by
  show ({ r with
    x := r.x.mapFinIdx (fun i w _ => if (2 ^ 32 - 1).testBit i then w else 0)
    v := r.v.mapFinIdx (fun i w _ => if (2 ^ 32 - 1).testBit i then w else VReg.reset)
    m := r.m.mapFinIdx (fun i w _ => if (2 ^ 8 - 1).testBit i then w else 0)
    t := r.t.mapFinIdx (fun i w _ => if (2 ^ 8 - 1).testBit i then w else none)
    q := r.q.mapFinIdx (fun i w _ => if (2 ^ 8 - 1).testBit i then w else QAcc.clear) } : Regs) = r
  rw [mapFinIdx_testBit r.x _ (by decide), mapFinIdx_testBit r.v _ (by decide), mapFinIdx_testBit r.m _ (by decide),
    mapFinIdx_testBit r.t _ (by decide), mapFinIdx_testBit r.q _ (by decide)]

/-- A context that can be saved leaves for its frame. -/
theorem saveContext_departs {s s1 : State} {uid : Nat} {c : Context} {why : Saved} (h : Savable s uid c why s1) :
    Departs s1 (s.saveContext uid why none) uid (c.saved why s.now) := by
  obtain ⟨hc, hslot, hfree, hnet, hsave⟩ := h
  have hrecord : ({ c with
      reg := c.reg.alive LiveMap.all
      sched := { c.sched with place := .frame why, savedAt := s.now, toSafe := none }
      mail := { c.mail with inbox := [], frame := c.mail.all } } : Context) = c.saved why s.now := by
    rw [alive_all]
    rfl
  have hstill : ((if c.sync.wait.evictable then s
      else s.setCore c.id.core { s.core c.id.core with readyAt := s.now } : State).squashOf uid) = if c.sync.wait.evictable then s
      else s.setCore c.id.core { s.core c.id.core with readyAt := s.now } := by
    refine squashOf_none ?_
    split <;> exact hfree
  have hempty : s1.net = [] := by
    have hwakes := saveFrame_wakes (if c.sync.wait.evictable then s
      else s.setCore c.id.core { s.core c.id.core with readyAt := s.now }) (c.saved why s.now) false LiveMap.all
    rw [hsave] at hwakes
    refine hwakes.1.trans ?_
    split <;> exact hnet
  refine ⟨s1.mapCtx uid (fun _ => (c.saved why s.now).bare), onlyContext_mapCtx .., ?_⟩
  have hrun : s.saveContext uid why none =
      (s1.mapCtx uid (fun _ => (c.saved why s.now).bare)).easeHalf (pkgOf c.id.core) := by
    have hlive : (none : Option LiveMap).getD LiveMap.all = LiveMap.all := rfl
    have hsafe : (none : Option LiveMap).isSome = false := rfl
    unfold State.saveContext
    simp only [hc, Context.resident, hslot, decide_true, Bool.not_true, Bool.false_eq_true, if_false, hlive, hsafe, hrecord, hstill,
      hsave]
    rw [flushNet_empty (s := s1.mapCtx uid _) hempty]
  rw [hrun]
  exact easeHalf_eased ..

theorem atMinimum_below {s : State} {c : Context}
    (h : ∀ l, s.launch c.job.launch = some l → l.stage = true → l.slotmin < (s.residents l.num).length) :
    s.atMinimum c = false := by
  unfold State.atMinimum
  split
  · rfl
  · rename_i l hl
    cases hs : l.stage
    · rfl
    · simpa using h l hl hs

theorem exec_taskEvict (uid : Nat) (s : State) : exec (.taskEvict uid) s = .next (s.evict uid) := rfl

theorem exec_preEmption {s : State} {uid : Nat} {c : Context} (hc : s.ctx uid = some c) : exec (.schedulerPreEmption uid) s =
    if !c.resident || c.id.sup || c.job.coresident || c.sched.parked || c.sched.ending.isSome || s.atMinimum c then .next s
    else .next (s.saveContext uid .preempted none) := by
  show execSchedulerPreEmption uid s = _
  unfold execSchedulerPreEmption
  rw [hc]

theorem evict_blocked {s : State} {uid : Nat} {c : Context} (hc : s.ctx uid = some c) (h : s.mayEvict c = true) :
    s.evict uid = (s.saveContext uid .evicted none).event (c.id.core / 4) 26 := by
  unfold State.evict
  rw [hc]
  exact if_pos h

theorem evict_not {s : State} {uid : Nat} {c : Context} (hc : s.ctx uid = some c) (h : s.mayEvict c = false) :
    s.evict uid = s := by
  unfold State.evict
  rw [hc]
  exact if_neg (by rw [h]; decide)

theorem evictions_depart : Claim.Evictions := by
  intro s s1 uid c hc hsup hparked hending
  refine ⟨fun hsave hcore hwait hgrant hlong hwanted hstage => ?_, fun hshort => ?_, fun hsave hcore hstage => ?_, fun hcore => ?_⟩
  · have hover : s.waitOver c = false ∧ c.sync.wait.evictable = true := by
      obtain ⟨ia, h | h⟩ := hwait <;> simp [State.waitOver, Wait.evictable, hgrant, h]
    have hmay : s.mayEvict c = true := by
      simp [State.mayEvict, State.blockedLong, Context.resident, hsave.2.1, hsup, hcore, hover.1, hover.2, hparked, hending, hlong,
        atMinimum_below hstage, hwanted]
    refine ⟨_, s.saveContext uid .evicted none, (exec_taskEvict ..).trans (congrArg Host.Outcome.next (evict_blocked hc hmay)),
      saveContext_departs hsave, event_fields .., fun k hk => ?_, ?_⟩
    · rw [cluster_event, if_neg hk]
    · rw [cluster_event, if_pos rfl]
  · have hmay : s.mayEvict c = false := by
      simp [State.mayEvict, State.blockedLong, Nat.not_lt.2 hshort]
    rw [exec_taskEvict, evict_not hc hmay]
  · refine ⟨_, (exec_preEmption hc).trans (if_neg ?_), saveContext_departs hsave⟩
    simp [Context.resident, hsave.2.1, hsup, hcore, hparked, hending, atMinimum_below hstage]
  · have hmay : s.mayEvict c = false := by
      simp [State.mayEvict, State.blockedLong, hcore]
    rw [exec_preEmption hc, if_pos (by simp [hcore]), exec_taskEvict, evict_not hc hmay]
    exact ⟨rfl, rfl⟩

end Sys2Proof.Machine
end

section
/-! PROOF. Saved tasks come back, or enter SHED (O55, R65, R69, R188, R375, R376). -/

namespace Sys2Proof.Machine

/-! A frame read back (R356). -/

theorem meet_read_ok {s t : State} {ia token loc : Nat} (h : s.meet ia .read token = (.ok loc, t)) : t = s := by
  unfold State.meet at h
  split at h
  · exact (Prod.mk.inj h).2.symm
  dsimp only at h
  split at h
  · cases h
  · cases h
  · cases h
  · rename_i e _ _
    cases hr : entryBit e 3
    · simp [hr] at h
    · simp [hr] at h
      exact h.2.symm

theorem getIa_ok {s t : State} {token fuel ia n : Nat} {bs : List Byte} (h : s.getIa token fuel ia n = (.ok bs, t)) : t = s := by
  induction fuel generalizing s ia n bs with
  | zero => exact (Prod.mk.inj h).2.symm
  | succ fuel ih =>
    unfold State.getIa at h
    split at h
    · exact (Prod.mk.inj h).2.symm
    dsimp only at h
    split at h
    · rename_i hm
      split at h
      · rename_i hg
        obtain ⟨-, rfl⟩ := Prod.mk.inj h
        exact (ih hg).trans (meet_read_ok hm)
      · cases h
    · cases h
    · cases h

/-- A task without cells comes back from its frame with no tile, and as the context that it was. -/
theorem readFrame_cells {s t : State} {c c1 : Context} (ht : c.job.tcells = 0) (h : s.readFrame c = (.ok c1, t)) :
    t = s ∧ ∃ f, c1 = c.readBack f [] := by
  have hroom : tileRoom c.job.tcells c.job.group = 0 := by rw [ht]; rfl
  unfold State.readFrame at h
  rw [hroom] at h
  split at h
  · cases h
  · rename_i f s1 hg
    obtain rfl := getIa_ok hg
    obtain ⟨hc, rfl⟩ := Prod.mk.inj h
    exact ⟨rfl, f, (Except.ok.inj hc).symm⟩

theorem readBack_tiles (c : Context) (f : List Byte) (n : Fin 8) : (c.readBack f []).reg.t[n] = none := by
  simp [Context.readBack]

/-! What a restore leaves alone. -/

theorem glazeAbort_closed {s : State} {uid : Nat} {c : Context} (hc : s.ctx uid = some c) (hr : c.sync.region = none) (code : Nat) :
    s.glazeAbort uid code = s := by
  have hregion : s.region uid = none := by simp [State.region, hc, hr]
  unfold State.glazeAbort State.glazeAbortFuel
  simp only [hc, hregion]

theorem rehouse_bare {s : State} {uid : Nat} {c : Context} (hc : s.ctx uid = some c) (hr : c.sync.region = none) (n : Fin 8)
    (ht : c.reg.t[n] = none) : s.rehouse uid n = s := by
  unfold State.rehouse
  simp only [hc, hr, ht, Option.bind_none]

theorem refill_empty {s : State} {uid : Nat} {c : Context} (hc : s.ctx uid = some c) (hm : c.mail.frame = []) :
    s.refill uid = s := by
  unfold State.refill State.refillFuel
  simp only [hc, hm]

/-- The context that a restored one is, on a core and in a slot, with a generation. -/
def Context.seated (c c1 : Context) (core slot gen : Nat) : Context :=
  { c1 with
    id := { c.id with core := core, slot := slot, gen := gen, rob := 0 }
    job := { c1.job with easel := none, cells := [] }
    sched := { c1.sched with place := .slot }
    power := { c1.power with afterBarw := false } }

section Restore

variable {s : State} {uid core slot : Nat} {c c1 : Context} (hu : c.id.uid = uid)
  (hplace : c.sched.place = .frame .preempted ∨ c.sched.place = .frame .evicted) (hcells : c.job.tcells = 0)
  (heasel : c.job.easel = none) (hlease : c1.power.lease = none) (hread : s.readFrame c = (.ok c1, s))
include hu hplace hcells heasel hlease hread

/-- A context that takes nothing but its slot goes there as its frame has it. -/
theorem restoreTo_run {d : Context} (hd : ({ c1 with
      id := { c1.id with core := core, slot := slot, gen := s.nextGen, rob := 0 }
      job := { c1.job with easel := none, cells := [] }
      sched := { c1.sched with place := .slot }
      power := { c1.power with afterBarw := false } } : Context) = d) (hctx : (s.mapCtx uid (fun _ => d)).ctx uid = some d)
    (hclosed : d.sync.region = none) (hempty : d.mail.frame = []) (htiles : ∀ n : Fin 8, d.reg.t[n] = none) :
    ∃ acc, s.restoreTo c core slot =
      ({ s.mapCtx uid (fun _ => d) with nextGen := s.nextGen + 1, accounts := acc } : State).keepSpace c.job.launch core := by
  have hreserve : s.reserveOn 0 (reserveEasels 0 c.job.group core 0) = (some [], s) := rfl
  have hrest {s3 : State} (h3 : s3.ctx uid = some d) : (((List.finRange 8).foldl (fun s n => s.rehouse uid n) s3).refill uid) = s3 := by
    rw [foldl_id _ _ _ fun n _ => rehouse_bare h3 hclosed n (htiles n), refill_empty h3 hempty]
  apply Exists.intro
  unfold State.restoreTo
  simp only [hread, hu, hcells, heasel, if_true, Option.getD_none, hreserve, Option.getD_some, hd]
  simp only [hlease, Bool.false_eq_true, if_false]
  rcases hplace with h | h <;> simp only [h] <;> exact congrArg (fun v : State => v.keepSpace c.job.launch core) (hrest hctx)

theorem restoreTo_seated (hc : s.ctx uid = some c) (hregion : c.sync.region = none) (hmail : c.mail.frame = []) :
    let t := s.restoreTo c core slot
    t.mem = s.mem ∧ t.nextGen = s.nextGen + 1 ∧
      t.contexts = (s.mapCtx uid (fun _ => c.seated c1 core slot s.nextGen)).contexts := by
  intro t
  obtain ⟨-, f, hf⟩ := readFrame_cells hcells hread
  have hid : c1.id = c.id := by rw [hf]; rfl
  have hd : ({ c1 with
      id := { c1.id with core := core, slot := slot, gen := s.nextGen, rob := 0 }
      job := { c1.job with easel := none, cells := [] }
      sched := { c1.sched with place := .slot }
      power := { c1.power with afterBarw := false } } : Context) = c.seated c1 core slot s.nextGen := by
    rw [hid]
    rfl
  have hctx : (s.mapCtx uid (fun _ => c.seated c1 core slot s.nextGen)).ctx uid = some (c.seated c1 core slot s.nextGen) := by
    rw [ctx_mapCtx_live _ _ (fun _ => c.seated c1 core slot s.nextGen) fun _ _ _ => ⟨hu, rfl⟩, hc]
    rfl
  have hclosed : (c.seated c1 core slot s.nextGen).sync.region = none := by rw [hf]; exact hregion
  have hempty : (c.seated c1 core slot s.nextGen).mail.frame = [] := by rw [hf]; exact hmail
  have htiles (n : Fin 8) : (c.seated c1 core slot s.nextGen).reg.t[n] = none := by rw [hf]; exact readBack_tiles c f n
  obtain ⟨acc, hrun⟩ := restoreTo_run hu hplace hcells heasel hlease hread hd hctx hclosed hempty htiles
  generalize c.seated c1 core slot s.nextGen = d at hrun ⊢
  exact ⟨(congrArg State.mem hrun :), (congrArg State.nextGen hrun :), (congrArg State.contexts hrun :)⟩

end Restore

/-! A class that is shed (R375, R376). -/

/-- A saved context in SHED, with a failure that it has still to take. -/
def Context.sheds (c : Context) : Context :=
  { c with sched := { c.sched with place := .frame (.shed (match c.sched.place with
    | .frame (.failed va) => some va
    | _ => none)) } }

theorem frameField_wakes (s : State) (uid off : Nat) (bs : List Byte) : WakesOnly s (s.frameField uid off bs) := by
  unfold State.frameField
  split
  · exact .refl s
  · split
    · exact putIa_wakes ..
    · exact .refl s

/-- A context that enters SHED keeps its registers. -/
theorem enterShed_ctx {s : State} {uid : Nat} {c : Context} (hc : s.ctx uid = some c) :
    ∃ d, (s.enterShed uid).ctx uid = some d ∧ d.reg = c.reg ∧ d.sched.place = c.sheds.sched.place := by
  have hctx : (s.mapCtx uid Context.sheds).ctx uid = some c.sheds := by
    rw [ctx_mapCtx_live _ _ Context.sheds fun _ hu _ => ⟨hu, rfl⟩, hc]
    rfl
  have hrun : s.enterShed uid = (s.mapCtx uid Context.sheds).frameField uid 0x50 (powerBytes c.sheds) := by
    have henter : s.enterShed uid = (match (s.mapCtx uid Context.sheds).ctx uid with
      | none => s.mapCtx uid Context.sheds
      | some c => (s.mapCtx uid Context.sheds).frameField uid 0x50 (powerBytes c)) := rfl
    rw [henter, hctx]
  obtain ⟨d, hd, hsame⟩ := (frameField_wakes (s.mapCtx uid Context.sheds) uid 0x50 (powerBytes c.sheds)).ctx hctx
  refine ⟨d, by rw [hrun]; exact hd, ?_, ?_⟩ <;> rw [hsame] <;> rfl

/-! Which of the two meets a context that wakes. -/

theorem exec_contextRestore (uid : Nat) (s : State) : exec (.contextRestore uid) s = .next (s.restore uid) := rfl

theorem restore_shed {s : State} {uid : Nat} {c : Context} (hc : s.ctx uid = some c) (hw : s.wakes c = true)
    (hshed : s.classShed (pkgOf c.id.core) c.reg.cls = true) : s.restore uid = s.enterShed uid := by
  unfold State.restore
  simp only [hc, hw, hshed, Bool.not_true, Bool.false_eq_true, if_false, if_true]

theorem restore_placed {s s1 : State} {uid core slot : Nat} {c : Context} (hc : s.ctx uid = some c) (hw : s.wakes c = true)
    (hshed : s.classShed (pkgOf c.id.core) c.reg.cls = false) (hyields : s.yields c core = false)
    (hregion : c.sync.region = none) (hcore : s.restoreCore c = some core)
    (hslot : s.choose (s.freeSlots core) = (some slot, s1)) : s.restore uid = s1.restoreTo c core slot := by
  have hu := ctx_uid hc
  have habort : (if s.awayOver c 100000 then s.glazeAbort c.id.uid 6 else s) = s := by
    rw [glazeAbort_closed (hu ▸ hc) hregion, ite_self]
  unfold State.restore
  simp only [hc, hw, hshed, hcore, hyields, Bool.not_true, Bool.false_eq_true, if_false]
  unfold State.restoreOn
  rw [habort]
  simp only [hu, hc, hslot]

theorem saved_restored : Claim.Restores := by
  intro s s1 s2 uid core slot c c1 _ hc hw
  refine ⟨fun hshed => ?_, fun hshed hyields hplace hcells heasel hregion hlease hmail hcore hslot hread => ?_⟩
  · obtain ⟨d, hd, hreg, hplace⟩ := enterShed_ctx hc
    refine ⟨_, d, (exec_contextRestore ..).trans (congrArg Host.Outcome.next (restore_shed hc hw hshed)), hd, hreg,
      fun va hva => ?_, fun hnone => ?_⟩
    · rw [hplace, Context.sheds, hva]
    · rw [hplace, Context.sheds]
      dsimp only
      split
      · rename_i va hva
        exact absurd hva (hnone va)
      · rfl
  · obtain rfl : s1 = s.draw.2 := (Prod.mk.inj hslot).2.symm
    obtain ⟨rfl, -⟩ := readFrame_cells hcells hread
    obtain ⟨hmem, hgen, hcontexts⟩ := restoreTo_seated (core := core) (slot := slot) (ctx_uid hc) hplace hcells heasel hlease hread
      hc hregion hmail
    exact ⟨_, (exec_contextRestore ..).trans (congrArg Host.Outcome.next
      (restore_placed hc hw hshed hyields hregion hcore hslot)), hmem, hgen, hcontexts.trans (onlyContext_mapCtx ..).2⟩

/-- Settles O55: cancels, ends, evictions and restores, each by its own theorem. -/
theorem contextSteps : Obligations.ContextSteps :=
  ⟨cancels_marked, cancelEnds_gone, quietEnds_gone, evictions_depart, saved_restored⟩

end Sys2Proof.Machine
end


section
/-! PROOF. The fields of the formats (O37): what a decoder reads of a parcel, and the round trip of an instruction. -/

namespace Sys2Proof

/-! Round trips. -/

/-- An instruction's parcels are 32 bits wide each, and it decodes from them and from their bytes. -/
structure RoundTrips (i : Instr) : Prop where
  parcels : ∀ w ∈ encode i, w < 2 ^ 32
  list : decodeList (encode i) = some (.ok i)
  bytes : decodeBytes ((encode i).flatMap (toBytes 4)) = some (.ok i)

theorem fromBytes_parcel {w : Nat} (h : w < 2 ^ 32) : fromBytes (toBytes 4 w) = w := by
  rw [Machine.fromBytes_toBytes]
  exact Nat.mod_eq_of_lt h

theorem take_toBytes (n w : Nat) : (toBytes n w).take n = toBytes n w := List.take_of_length_le (by simp)

theorem drop_toBytes (n w : Nat) : (toBytes n w).drop n = [] := List.drop_of_length_le (by simp)

theorem roundTrips_short {i : Instr} {w : Nat} (he : encode i = [w]) (hw : w < 2 ^ 32) (hl : isLong w = false)
    (hd : decodeParcels w 0 = .ok i) : RoundTrips i := by
  refine ⟨by rw [he]; simpa using hw, by simp [he, decodeList, hl, hd], ?_⟩
  simp [he, decodeBytes, take_toBytes, drop_toBytes, fromBytes_parcel hw, hl, hd, fromBytes]

theorem roundTrips_long {i : Instr} {w v : Nat} (he : encode i = [w, v]) (hw : w < 2 ^ 32) (hv : v < 2 ^ 32)
    (hl : isLong w = true) (hd : decodeParcels w v = .ok i) : RoundTrips i := by
  refine ⟨by rw [he]; simpa using ⟨hw, hv⟩, by simp [he, decodeList, hl, hd], ?_⟩
  simp [he, decodeBytes, take_toBytes, fromBytes_parcel hw, fromBytes_parcel hv, hd]

/-! Readings of a parcel, each through the bits that it takes. -/

theorem rx_eq (w lo : Nat) : rx w lo = Fin.ofNat 32 (fld w lo 5) := by simp [rx, fld, Fin.ext_iff]
theorem rv_eq (w lo : Nat) : rv w lo = Fin.ofNat 32 (fld w lo 5) := by simp [rv, fld, Fin.ext_iff]
theorem r4_eq (w lo : Nat) : r4 w lo = Fin.ofNat 16 (fld w lo 4) := by simp [r4, fld, Fin.ext_iff]
theorem r3_eq (w lo : Nat) : r3 w lo = Fin.ofNat 8 (fld w lo 3) := by simp [r3, fld, Fin.ext_iff]
theorem bt_eq (w lo : Nat) : bt w lo = decide (fld w lo 1 = 1) := by simp [bt, fld]
theorem ofNat_eq_fld (n w : Nat) : BitVec.ofNat n w = BitVec.ofNat n (fld w 0 n) := by
  apply BitVec.eq_of_toNat_eq
  simp [fld]
theorem attrM_eq (w : Nat) : attrM w = ⟨Fin.ofNat 8 (fld w 13 3), Fin.ofNat 4 (fld w 11 2), Fin.ofNat 4 (fld w 9 2)⟩ := by
  simp [attrM, fld, Fin.ext_iff]

theorem isLong_eq (w : Nat) : isLong w = decide (0x3E ≤ fld w 26 6) := by
  have : fld w 26 6 < 64 := Nat.mod_lt _ (by decide)
  unfold isLong
  rw [Bool.eq_iff_iff]
  simp only [Bool.or_eq_true, decide_eq_true_eq]
  omega

/-- A parcel of one of the majors below 0x3E is an instruction. -/
theorem roundTrips_major {i : Instr} {w maj : Nat} (he : encode i = [w]) (hw : w < 2 ^ 32) (hm : fld w 26 6 = maj)
    (hb : maj < 0x3E) (hd : decodeShort w = .ok i) : RoundTrips i := by
  refine roundTrips_short he hw ?_ ?_
  · rw [isLong_eq, hm]; simp; omega
  · unfold decodeParcels
    rw [hm, if_neg (by omega), if_neg (by omega), hd]


/-! The formats (R75): what each field of a parcel reads. -/

/-- The fields of an RR parcel, and the parts of FN and AUX that some instructions read. -/
structure IsRR (w maj d a b fn aux : Nat) : Prop where
  lt : w < 2 ^ 32
  hmaj : fld w 26 6 = maj
  hd : fld w 21 5 = d
  ha : fld w 16 5 = a
  hb : fld w 11 5 = b
  hfn : fld w 4 7 = fn
  fnHigh : fld w 5 6 = fn / 2
  fnLow : fld w 4 1 = fn % 2
  haux : fld w 0 4 = aux
  auxHigh : fld w 1 3 = aux / 2
  auxLow : fld w 0 1 = aux % 2
  auxTop : fld w 2 2 = aux / 4
  scale : Fin.ofNat 4 w = Fin.ofNat 4 aux

theorem isRR_word {maj d a b fn aux : Nat} (hm : maj < 64) (hd : d < 32) (ha : a < 32) (hb : b < 32) (hf : fn < 128)
    (hx : aux < 16) : IsRR (maj * 2 ^ 26 + d * 2 ^ 21 + a * 2 ^ 16 + b * 2 ^ 11 + fn * 2 ^ 4 + aux) maj d a b fn aux := by
  refine ⟨by omega, ?_, ?_, ?_, ?_, ?_, ?_, ?_, ?_, ?_, ?_, ?_, Fin.ext ?_⟩ <;> simp only [fld, Fin.val_ofNat] <;> omega

/-- The fields of an RI parcel, whose immediate is read in parts too. -/
structure IsRI (w maj d a imm : Nat) : Prop where
  lt : w < 2 ^ 32
  hmaj : fld w 26 6 = maj
  hd : fld w 21 5 = d
  ha : fld w 16 5 = a
  part : ∀ {lo n}, lo + n ≤ 16 → fld w lo n = fld imm lo n

theorem fld_mod {x lo n m : Nat} (h : lo + n ≤ m) : fld (x % 2 ^ m) lo n = fld x lo n := by
  obtain ⟨k, rfl⟩ := Nat.exists_eq_add_of_le h
  unfold fld
  rw [Nat.add_assoc, Nat.pow_add, Nat.mod_mul_right_div_self, Nat.mod_mod_of_dvd _ (Nat.pow_dvd_pow 2 (by omega))]

theorem isRI_word {maj d a imm : Nat} (hm : maj < 64) (hd : d < 32) (ha : a < 32) (hi : imm < 2 ^ 16) :
    IsRI (maj * 2 ^ 26 + d * 2 ^ 21 + a * 2 ^ 16 + imm) maj d a imm := by
  have e : (maj * 2 ^ 26 + d * 2 ^ 21 + a * 2 ^ 16 + imm) % 2 ^ 16 = imm := by omega
  refine ⟨by omega, by simp only [fld]; omega, by simp only [fld]; omega, by simp only [fld]; omega, fun h => ?_⟩
  rw [← fld_mod h, e]

/-- The fields of a V parcel, and the parts of D, A and B that hold an m register or a format. -/
structure IsV (w maj d a b f fn : Nat) : Prop where
  lt : w < 2 ^ 32
  hmaj : fld w 26 6 = maj
  hd : fld w 21 5 = d
  dHigh : fld w 24 2 = d / 8
  dLow : fld w 21 3 = d % 8
  ha : fld w 16 5 = a
  aHigh : fld w 19 2 = a / 8
  aLow : fld w 16 3 = a % 8
  hb : fld w 11 5 = b
  bHigh : fld w 14 2 = b / 8
  bLow : fld w 11 3 = b % 8
  bTop : fld w 15 1 = b / 16
  bForm : fld w 11 4 = b % 16
  hf : fld w 7 4 = f
  hfn : fld w 0 7 = fn

theorem isV_word {maj d a b f fn : Nat} (hm : maj < 64) (hd : d < 32) (ha : a < 32) (hb : b < 32) (hf : f < 16)
    (hn : fn < 128) : IsV (maj * 2 ^ 26 + d * 2 ^ 21 + a * 2 ^ 16 + b * 2 ^ 11 + f * 2 ^ 7 + fn) maj d a b f fn := by
  refine ⟨by omega, ?_, ?_, ?_, ?_, ?_, ?_, ?_, ?_, ?_, ?_, ?_, ?_, ?_, ?_⟩ <;> simp only [fld] <;> omega

/-- The fields of the first parcel of an LM form. -/
structure IsLM (w lop d a : Nat) (m : MemAttr) : Prop where
  lt : w < 2 ^ 32
  hmaj : fld w 26 6 = 0x3F
  hlop : fld w 18 8 = lop
  hd : fld w 13 5 = d
  dHigh : fld w 16 2 = d / 8
  dLow : fld w 13 3 = d % 8
  ha : fld w 8 5 = a
  hm : attrL w = m
  mz : fld w 1 7 = m.scope.val * 2 ^ 4 + m.cls.val * 2 ^ 2 + m.wait.val

theorem isLM_word {lop d a : Nat} (m : MemAttr) (hl : lop < 256) (hd : d < 32) (ha : a < 32) :
    IsLM (0x3F * 2 ^ 26 + lop * 2 ^ 18 + d * 2 ^ 13 + a * 2 ^ 8 + m.scope.val * 2 ^ 5 + m.cls.val * 2 ^ 3 +
      m.wait.val * 2) lop d a m := by
  have := m.scope.isLt
  have := m.cls.isLt
  have := m.wait.isLt
  refine ⟨by omega, ?_, ?_, ?_, ?_, ?_, ?_, ?_, ?_⟩
  case refine_7 =>
    obtain ⟨s, c, t⟩ := m
    simp only [attrL, MemAttr.mk.injEq, Fin.ext_iff, Fin.val_ofNat]
    refine ⟨?_, ?_, ?_⟩ <;> dsimp only at * <;> omega
  all_goals simp only [fld]; omega

/-- The fields of the second parcel of an LM form. -/
structure IsLM2 (v f xs pr off : Nat) : Prop where
  lt : v < 2 ^ 32
  hf : fld v 28 4 = f
  hx : fld v 23 5 = xs
  hp : fld v 19 4 = pr
  offTop : fld v 18 1 = off / 2 ^ 18
  off : BitVec.ofNat 19 v = BitVec.ofNat 19 off

theorem isLM2_word {f xs pr off : Nat} (hf : f < 16) (hx : xs < 32) (hp : pr < 16) (ho : off < 2 ^ 19) :
    IsLM2 (f * 2 ^ 28 + xs * 2 ^ 23 + pr * 2 ^ 19 + off) f xs pr off := by
  refine ⟨by omega, ?_, ?_, ?_, ?_, BitVec.eq_of_toNat_eq ?_⟩ <;> simp only [fld, BitVec.toNat_ofNat] <;> omega

/-- The fields of the first parcel of an LT form. -/
structure IsLT (w lop td ta tb fa fb : Nat) : Prop where
  lt : w < 2 ^ 32
  hmaj : fld w 26 6 = 0x3F
  hlop : fld w 18 8 = lop
  hd : fld w 15 3 = td
  qHigh : fld w 16 2 = td / 2
  hq : Fin.ofNat 2 (w / 32768) = Fin.ofNat 2 td
  ha : fld w 12 3 = ta
  hb : fld w 9 3 = tb
  bHigh : fld w 10 2 = tb / 2
  bLow : fld w 9 1 = tb % 2
  hfa : fld w 5 4 = fa
  hfb : fld w 1 4 = fb

theorem isLT_word {lop td ta tb fa fb : Nat} (hl : lop < 256) (hd : td < 8) (ha : ta < 8) (hb : tb < 8) (hfa : fa < 16)
    (hfb : fb < 16) : IsLT (encT0 lop td ta tb fa fb) lop td ta tb fa fb := by
  unfold encT0
  refine ⟨by omega, ?_, ?_, ?_, ?_, Fin.ext ?_, ?_, ?_, ?_, ?_, ?_, ?_⟩ <;> simp only [fld, Fin.val_ofNat] <;> omega

/-- The fields of the second parcel of an LT form. -/
structure IsLT2 (v fd pa pb : Nat) (ra rb : Bool) (sp rnd : Nat) (sat : Bool) (xs xt : Nat) : Prop where
  lt : v < 2 ^ 32
  hfd : fld v 28 4 = fd
  hpa : fld v 24 4 = pa
  hpb : fld v 20 4 = pb
  hra : fld v 19 1 = ra.toNat
  hrb : fld v 18 1 = rb.toNat
  ring : fld v 18 6 = pb * 4 + ra.toNat * 2 + rb.toNat
  hsp : fld v 15 3 = sp
  hrnd : fld v 12 3 = rnd
  hsat : fld v 11 1 = sat.toNat
  hxs : fld v 6 5 = xs
  hxt : fld v 1 5 = xt
  hM : fld v 0 1 = 0

theorem isLT2_word {fd pa pb sp rnd xs xt : Nat} (ra rb sat : Bool) (hf : fd < 16) (ha : pa < 16) (hb : pb < 16)
    (hs : sp < 8) (hr : rnd < 8) (hxs : xs < 32) (hxt : xt < 32) :
    IsLT2 (encT1 fd pa pb ra rb sp rnd sat xs xt) fd pa pb ra rb sp rnd sat xs xt := by
  have := ra.toNat_lt
  have := rb.toNat_lt
  have := sat.toNat_lt
  unfold encT1
  refine ⟨by omega, ?_, ?_, ?_, ?_, ?_, ?_, ?_, ?_, ?_, ?_, ?_, ?_⟩ <;> simp only [fld] <;> omega

end Sys2Proof
end


section
/-! PROOF. Decoding what the encoder writes (O37), table by table of the opcode map. -/

namespace Sys2Proof

/-! Round trips, format by format. -/

theorem roundTrips_rr {i : Instr} {maj d a b fn aux : Nat} (he : encode i = encRR maj d a b fn aux)
    (hb : maj < 0x3E ∧ d < 32 ∧ a < 32 ∧ b < 32 ∧ fn < 128 ∧ aux < 16)
    (hdec : ∀ w, IsRR w maj d a b fn aux → decodeShort w = .ok i) : RoundTrips i := by
  obtain ⟨hm, hd, ha, hb, hf, hx⟩ := hb
  have h := isRR_word (maj := maj) (by omega) hd ha hb hf hx
  exact roundTrips_major he h.lt h.hmaj hm (hdec _ h)

theorem roundTrips_ri {i : Instr} {maj d a imm : Nat} (he : encode i = encRI maj d a imm)
    (hb : maj < 0x3E ∧ d < 32 ∧ a < 32 ∧ imm < 2 ^ 16)
    (hdec : ∀ w, IsRI w maj d a imm → decodeShort w = .ok i) : RoundTrips i := by
  obtain ⟨hm, hd, ha, hi⟩ := hb
  have h := isRI_word (maj := maj) (by omega) hd ha hi
  exact roundTrips_major he h.lt h.hmaj hm (hdec _ h)

/-- The operands of a floating-point parcel (R86): RND and P share AUX. -/
theorem IsRR.float {w d a b fn : Nat} {rnd : Fin 8} {p : Bool} (h : IsRR w 0x0E d a b fn (rnd.val * 2 + p.toNat)) :
    r3 w 1 = rnd ∧ bt w 0 = p ∧ fld w 1 3 = rnd.val := by
  have := rnd.isLt
  have hr : fld w 1 3 = rnd.val := by rw [h.auxHigh]; have := p.toNat_lt; omega
  refine ⟨by rw [r3_eq, hr]; simp, ?_, hr⟩
  rw [bt_eq, h.auxLow]
  cases p <;> simp

theorem roundTrips_float {i : Instr} {d a b fn : Nat} {rnd : Fin 8} {p : Bool} (he : encode i = encF fn d a b rnd.val p)
    (hb : d < 32 ∧ a < 32 ∧ b < 32 ∧ fn < 128)
    (hdec : ∀ w, IsRR w 0x0E d a b fn (rnd.val * 2 + p.toNat) → decodeFloat w = .ok i) : RoundTrips i := by
  have := rnd.isLt
  have := p.toNat_lt
  refine roundTrips_rr he (by omega) (fun w h => ?_)
  simp only [decodeShort, h.hmaj, hdec w h]

/-- The operands of an atomic or a reduction (R87): FN holds the size, and AUX the scope and the order. -/
theorem IsRR.atomic {w maj d a b op : Nat} {z o : Bool} {s : Fin 8}
    (h : IsRR w maj d a b (op * 2 + z.toNat) (s.val * 2 + o.toNat)) :
    fld w 5 6 = op ∧ bt w 4 = z ∧ r3 w 1 = s ∧ bt w 0 = o := by
  have := s.isLt
  have := o.toNat_lt
  have := z.toNat_lt
  refine ⟨by rw [h.fnHigh]; omega, ?_, ?_, ?_⟩
  · rw [bt_eq, h.fnLow]; cases z <;> simp
  · rw [r3_eq, h.auxHigh, show (s.val * 2 + o.toNat) / 2 = s.val by omega]; simp
  · rw [bt_eq, h.auxLow]; cases o <;> simp

theorem roundTrips_atomic {i : Instr} {maj op d : Nat} {a b : XReg} {z o : Bool} {s : Fin 8}
    (he : encode i = encA maj op d a b z s o) (hb : maj < 0x3E ∧ op < 64 ∧ d < 32)
    (hdec : ∀ w, fld w 26 6 = maj → fld w 5 6 = op → fld w 21 5 = d → rx w 16 = a → rx w 11 = b → bt w 4 = z → r3 w 1 = s →
      bt w 0 = o → decodeShort w = .ok i) : RoundTrips i := by
  have := s.isLt
  have := o.toNat_lt
  have := z.toNat_lt
  refine roundTrips_rr he (by omega) (fun w h => ?_)
  obtain ⟨hop, hz, hs, ho⟩ := h.atomic
  exact hdec w h.hmaj hop h.hd (by rw [rx_eq, h.ha]; simp) (by rw [rx_eq, h.hb]; simp) hz hs ho

/-- A shift amount as the parcel holds it: five bits in B and the sixth in AUX (R123). -/
theorem shiftAmount (n : Fin 64) : n.val / 32 ≤ 1 ∧ Fin.ofNat 64 (n.val / 32 % 2 * 32 + n.val % 32) = n := by
  refine ⟨by omega, Fin.ext ?_⟩
  rw [Fin.val_ofNat]
  omega

/-- A number reads back from as many low bits as it has. -/
theorem ofNat_mod {n : Nat} [NeZero n] (k : Fin n) : Fin.ofNat n (k.val % n) = k :=
  Fin.ext (by rw [Fin.val_ofNat, Nat.mod_mod, Nat.mod_eq_of_lt k.isLt])

/-- An immediate of 16 bits. -/
theorem IsRI.imm16 {w maj d a : Nat} {imm : BitVec 16} (h : IsRI w maj d a imm.toNat) : BitVec.ofNat 16 w = imm := by
  have e : fld w 0 16 = imm.toNat := (h.part (by omega)).trans (by simp only [fld]; omega)
  rw [ofNat_eq_fld, e]
  simp

/-- The fields of the immediate of a system instruction (R91). -/
theorem IsRI.system {w d a sf sn : Nat} (h : IsRI w 0x1E d a (sf * 2 ^ 10 + sn)) (hs : sf < 64) (hn : sn < 1024) :
    fld w 10 6 = sf ∧ fld w 0 10 = sn := by
  refine ⟨(h.part (by omega)).trans ?_, (h.part (by omega)).trans ?_⟩ <;> simp only [fld] <;> omega

/-- The parts of SN that single system instructions read. -/
theorem system_parts (w : Nat) : fld w 3 7 = fld w 0 10 / 8 ∧ fld w 1 9 = fld w 0 10 / 2 ∧
    r3 w 0 = Fin.ofNat 8 (fld w 0 10) ∧ bt w 0 = decide (fld w 0 10 % 2 = 1) ∧
    Fin.ofNat 1024 w = Fin.ofNat 1024 (fld w 0 10) := by
  have h8 : w % 8 = w % 1024 % 8 := by omega
  have h2 : w % 2 = w % 1024 % 2 := by omega
  simp only [fld, r3, bt, Fin.ext_iff, Fin.val_ofNat, Nat.pow_zero, Nat.div_one]
  refine ⟨by omega, by omega, by omega, by rw [h2, Nat.pow_succ], by omega⟩

theorem roundTrips_system {i : Instr} {sf d a sn : Nat} (he : encode i = encS sf d a sn)
    (hb : sf < 64 ∧ d < 32 ∧ a < 32 ∧ sn < 1024)
    (hdec : ∀ w, fld w 10 6 = sf → fld w 21 5 = d → fld w 16 5 = a → fld w 0 10 = sn → decodeSystem w = .ok i) :
    RoundTrips i := by
  refine roundTrips_ri he (by omega) (fun w h => ?_)
  obtain ⟨hsf, hsn⟩ := h.system (by omega) (by omega)
  simp only [decodeShort, h.hmaj, hdec w hsf h.hd h.ha hsn]

/-- Memory attributes as the M format holds them. -/
theorem attrM_word {w : Nat} (m : MemAttr) (hs : fld w 13 3 = m.scope.val) (hc : fld w 11 2 = m.cls.val)
    (hw : fld w 9 2 = m.wait.val) : attrM w = m := by
  obtain ⟨s, c, t⟩ := m
  rw [attrM_eq, hs, hc, hw]
  simp

/-- A scalar load or store of the M format. -/
theorem roundTrips_m {i : Instr} {maj : Nat} {t a : XReg} {m : MemAttr} {off : BitVec 9} (he : encode i = encM maj t a m off)
    (hb : maj < 0x3E)
    (hdec : ∀ w, fld w 26 6 = maj → rx w 21 = t → rx w 16 = a → attrM w = m → BitVec.ofNat 9 w = off → decodeShort w = .ok i) :
    RoundTrips i := by
  have := m.scope.isLt
  have := m.cls.isLt
  have := m.wait.isLt
  have he' : encode i = encRI maj t.val a.val
      (m.scope.val * 2 ^ 13 + m.cls.val * 2 ^ 11 + m.wait.val * 2 ^ 9 + off.toNat) := by
    rw [he]; unfold encM encRI; simp only [Nat.add_assoc]
  refine roundTrips_ri he' (by omega) (fun w h => ?_)
  have ho : fld w 0 9 = off.toNat := (h.part (by omega)).trans (by simp only [fld]; omega)
  refine hdec w h.hmaj (by rw [rx_eq, h.hd]; simp) (by rw [rx_eq, h.ha]; simp) (attrM_word m ?_ ?_ ?_) ?_
  · exact (h.part (by omega)).trans (by simp only [fld]; omega)
  · exact (h.part (by omega)).trans (by simp only [fld]; omega)
  · exact (h.part (by omega)).trans (by simp only [fld]; omega)
  · rw [ofNat_eq_fld, ho]; simp

/-- JAL, whose offset reaches into the field of A. -/
theorem roundTrips_jal (d : XReg) (off : BitVec 21) : RoundTrips (.jal d off) := by
  have hm : fld (0x0C * 2 ^ 26 + d.val * 2 ^ 21 + 0 * 2 ^ 16 + off.toNat) 26 6 = 0x0C := by simp only [fld]; omega
  have hd : fld (0x0C * 2 ^ 26 + d.val * 2 ^ 21 + 0 * 2 ^ 16 + off.toNat) 21 5 = d.val := by simp only [fld]; omega
  have ho : fld (0x0C * 2 ^ 26 + d.val * 2 ^ 21 + 0 * 2 ^ 16 + off.toNat) 0 21 = off.toNat := by simp only [fld]; omega
  refine roundTrips_major rfl (by omega) hm (by decide) ?_
  simp only [decodeShort, hm, rx_eq, hd]
  rw [ofNat_eq_fld, ho]
  simp

/-- NOP, whose hint takes every bit beside the major. -/
theorem roundTrips_nop (hint : BitVec 26) : RoundTrips (.nop hint) := by
  have hm : fld (0x01 * 2 ^ 26 + 0 * 2 ^ 21 + 0 * 2 ^ 16 + hint.toNat) 26 6 = 0x01 := by simp only [fld]; omega
  have ho : fld (0x01 * 2 ^ 26 + 0 * 2 ^ 21 + 0 * 2 ^ 16 + hint.toNat) 0 26 = hint.toNat := by simp only [fld]; omega
  refine roundTrips_major rfl (by omega) hm (by decide) ?_
  simp only [decodeShort, hm]
  rw [ofNat_eq_fld, ho]
  simp

/-- A fence of a kind (R88). -/
theorem roundTrips_fence {i : Instr} {kind : Nat} {s : Fin 8} {t : Fin 4}
    (he : encode i = encRI 0x19 0 0 (t.val * 2 ^ 5 + kind * 2 ^ 3 + s.val)) (hb : kind < 4)
    (hdec : ∀ w, fld w 26 6 = 0x19 → fld w 3 2 = kind → fld w 7 19 = 0 → r3 w 0 = s →
      Fin.ofNat 4 (w / 2 ^ 5) = t → decodeShort w = .ok i) : RoundTrips i := by
  unfold encRI at he
  refine roundTrips_major he (by omega) (by simp only [fld]; omega) (by decide : 0x19 < 0x3E)
    (hdec _ (by simp only [fld]; omega) (by simp only [fld]; omega) (by simp only [fld]; omega) ?_ ?_)
  · rw [r3, Fin.ext_iff, Fin.val_ofNat]; omega
  · rw [Fin.ext_iff, Fin.val_ofNat]; omega

/-! Vector instructions, with or without a prefix (R81). -/

/-- A prefix parcel, whose fields decode to the prefix. -/
theorem prefix_word (v : Vpx) : ∃ w, (∀ u, encVpx (some v) u = [w, u]) ∧ w < 2 ^ 32 ∧ fld w 26 6 = 0x3E ∧ fld w 4 4 = 0 ∧
    (⟨r3 w 23, bt w 22, r3 w 19, rv w 14, Fin.ofNat 64 (w / 2 ^ 8)⟩ : Vpx) = v := by
  obtain ⟨k, z, r, c, n⟩ := v
  have := z.toNat_lt
  refine ⟨0x3E * 2 ^ 26 + k.val * 2 ^ 23 + z.toNat * 2 ^ 22 + r.val * 2 ^ 19 + c.val * 2 ^ 14 + n.val * 2 ^ 8, fun u => rfl,
    by omega, by simp only [fld]; omega, by simp only [fld]; omega, ?_⟩
  simp only [Vpx.mk.injEq, r3, rv, bt, Fin.ext_iff, Fin.val_ofNat]
  refine ⟨by omega, ?_, by omega, by omega, by omega⟩
  cases z <;> simp <;> omega

/-- A vector parcel under any prefix. -/
theorem roundTrips_vector {i : Instr} {p : Option Vpx} {w maj : Nat} (he : encode i = encVpx p w) (hw : w < 2 ^ 32)
    (hm : fld w 26 6 = maj) (hv : 0x1A ≤ maj ∧ maj ≤ 0x1D) (hd : decodeVector p w = .ok i) : RoundTrips i := by
  cases p with
  | none =>
    refine roundTrips_major he hw hm (by omega) (Eq.trans ?_ hd)
    obtain h | h | h | h : maj = 0x1A ∨ maj = 0x1B ∨ maj = 0x1C ∨ maj = 0x1D := by omega
    all_goals simp only [decodeShort, hm, h]
  | some v =>
    obtain ⟨u, hu, hlt, hmaj, hz, hp⟩ := prefix_word v
    refine roundTrips_long (he.trans (hu w)) hlt hw ?_ ?_
    · rw [isLong_eq, hmaj]; rfl
    · unfold decodeParcels decodePrefixed
      rw [hmaj, hp, hd, hz]
      rfl

theorem roundTrips_v {i : Instr} {p : Option Vpx} {maj d a b fn : Nat} {f : FmtCode} (he : encode i = encV p maj f d a b fn)
    (hb : (0x1A ≤ maj ∧ maj ≤ 0x1D) ∧ d < 32 ∧ a < 32 ∧ b < 32 ∧ fn < 128)
    (hdec : ∀ w, IsV w maj d a b f.val fn → decodeVector p w = .ok i) : RoundTrips i := by
  obtain ⟨hm, hd, ha, hbb, hf⟩ := hb
  have h := isV_word (maj := maj) (by omega) hd ha hbb f.isLt hf
  exact roundTrips_vector he h.lt h.hmaj hm (hdec _ h)

/-- A vector load or store. -/
theorem roundTrips_mv {i : Instr} {p : Option Vpx} {maj : Nat} {f : FmtCode} {t : VNum} {a : XReg} {m : MemAttr}
    {off : BitVec 5}
    (he : encode i = encMV p maj f t a m off) (hb : 0x1A ≤ maj ∧ maj ≤ 0x1D)
    (hdec : ∀ w, fld w 26 6 = maj → r4 w 5 = f → rv w 21 = t → rx w 16 = a → attrM w = m → BitVec.ofNat 5 w = off →
      decodeVector p w = .ok i) : RoundTrips i := by
  have := m.scope.isLt
  have := m.cls.isLt
  have := m.wait.isLt
  have h := isRI_word (maj := maj) (d := t.val) (a := a.val)
    (imm := m.scope.val * 2 ^ 13 + m.cls.val * 2 ^ 11 + m.wait.val * 2 ^ 9 + f.val * 2 ^ 5 + off.toNat)
    (by omega) (by omega) (by omega) (by omega)
  simp only [← Nat.add_assoc] at h
  have hf : fld _ 5 4 = f.val := (h.part (by omega)).trans (by simp only [fld]; omega)
  have ho : fld _ 0 5 = off.toNat := (h.part (by omega)).trans (by simp only [fld]; omega)
  refine roundTrips_vector he h.lt h.hmaj hb (hdec _ h.hmaj (by rw [r4_eq, hf]; simp) (by rw [rv_eq, h.hd]; simp)
    (by rw [rx_eq, h.ha]; simp) (attrM_word m ?_ ?_ ?_) (by rw [ofNat_eq_fld, ho]; simp))
  · exact (h.part (by omega)).trans (by simp only [fld]; omega)
  · exact (h.part (by omega)).trans (by simp only [fld]; omega)
  · exact (h.part (by omega)).trans (by simp only [fld]; omega)

/-! The long forms (R93). -/

/-- An offset with its highest bit clear. -/
theorem offset_top {off : BitVec 19} (h : off.msb = false) : off.toNat < 262144 := by
  have := BitVec.toNat_lt_of_msb_false h
  omega

theorem roundTrips_lm {i : Instr} {lop d a f xs pr : Nat} {m : MemAttr} {off : BitVec 19}
    (he : encode i = encLM lop d a m f xs pr off) (hb : lop < 0x40 ∧ d < 32 ∧ a < 32 ∧ f < 16 ∧ xs < 32 ∧ pr < 16)
    (hdec : ∀ w v, IsLM w lop d a m → IsLM2 v f xs pr off.toNat → BitVec.ofNat 19 v = off → decodeLM w v = .ok i) :
    RoundTrips i := by
  obtain ⟨hl, hd, ha, hf, hx, hp⟩ := hb
  have h := isLM_word m (lop := lop) (by omega) hd ha
  have h2 := isLM2_word hf hx hp off.isLt
  refine roundTrips_long he h.lt h2.lt (by rw [isLong_eq, h.hmaj]; rfl) ?_
  unfold decodeParcels
  rw [h.hmaj, if_pos rfl, h.hlop, if_pos hl, hdec _ _ h h2 (h2.off.trans (by simp))]

theorem roundTrips_li {i : Instr} {lop : Nat} {d : XReg} {imm : BitVec 32} (he : encode i = encLI lop d imm) (hb : lop < 0x40)
    (hdec : ∀ w, IsLM w lop d.val 0 attr0 → decodeLM w imm.toNat = .ok i) : RoundTrips i := by
  have h : IsLM (0x3F * 2 ^ 26 + lop * 2 ^ 18 + d.val * 2 ^ 13) lop d.val 0 attr0 :=
    isLM_word (a := 0) attr0 (by omega) d.isLt (by decide)
  refine roundTrips_long he h.lt imm.isLt (by rw [isLong_eq, h.hmaj]; rfl) ?_
  unfold decodeParcels
  rw [h.hmaj, if_pos rfl, h.hlop, if_pos hb]
  exact hdec _ h

theorem roundTrips_lt {i : Instr} {lop td ta tb fa fb fd pa pb sp rnd xs xt : Nat} {ra rb sat : Bool}
    (he : encode i = [encT0 lop td ta tb fa fb, encT1 fd pa pb ra rb sp rnd sat xs xt])
    (hb : 0x40 ≤ lop ∧ lop < 256 ∧ td < 8 ∧ ta < 8 ∧ tb < 8 ∧ fa < 16 ∧ fb < 16 ∧ fd < 16 ∧ pa < 16 ∧ pb < 16 ∧ sp < 8 ∧
      rnd < 8 ∧ xs < 32 ∧ xt < 32)
    (hdec : ∀ w v, IsLT w lop td ta tb fa fb → IsLT2 v fd pa pb ra rb sp rnd sat xs xt → decodeLT w v = .ok i) :
    RoundTrips i := by
  obtain ⟨hlo, hl, htd, hta, htb, hfa, hfb, hfd, hpa, hpb, hsp, hr, hx, ht⟩ := hb
  have h := isLT_word hl htd hta htb hfa hfb
  have h2 := isLT2_word ra rb sat hfd hpa hpb hsp hr hx ht
  refine roundTrips_long he h.lt h2.lt (by rw [isLong_eq, h.hmaj]; rfl) ?_
  unfold decodeParcels
  rw [h.hmaj, if_pos rfl, h.hlop, if_neg (by omega), hdec _ _ h h2]

/-! The tables of the opcode map (R85 to R93), each row decoded from the fields of its format. -/

theorem roundTrips_integer (d a b : XReg) : ∀ i ∈ [Instr.add d a b, .sub d a b, .and d a b, .or d a b, .xor d a b,
    .sll d a b, .srl d a b, .sra d a b, .mul d a b, .mulh d a b, .mulhu d a b, .div d a b, .divu d a b, .rem d a b,
    .remu d a b, .min d a b, .max d a b, .minu d a b, .maxu d a b, .slt d a b, .sltu d a b, .seq d a b, .clz d a, .ctz d a,
    .popc d a], RoundTrips i := by
  intro i hi
  fin_cases hi
  all_goals exact roundTrips_rr rfl (by omega) (fun w h => by
    simp [decodeShort, decodeInt, must, rx_eq, h.hmaj, h.hfn, h.hd, h.ha, h.hb, h.haux])

theorem roundTrips_shift (d a : XReg) (n : Fin 64) : ∀ i ∈ [Instr.slli d a n, .srli d a n, .srai d a n], RoundTrips i := by
  intro i hi
  fin_cases hi
  all_goals exact roundTrips_rr rfl (by omega) (fun w h => by
    simp [-Fin.ofNat_eq_cast, decodeShort, decodeInt, must, rx_eq, h.hmaj, h.hfn, h.hd, h.ha, h.hb, h.auxHigh, h.auxLow,
      shiftAmount n])

theorem roundTrips_lea (d a b : XReg) (n : Fin 4) : RoundTrips (.lea d a b n) :=
  roundTrips_rr rfl (by omega) (fun w h => by
    simp [decodeShort, decodeInt, must, rx_eq, h.hmaj, h.hfn, h.hd, h.ha, h.hb, h.auxTop]
    exact h.scale.trans (by simp))

theorem roundTrips_immediate (d a : XReg) (imm : BitVec 16) : ∀ i ∈ [Instr.addi d a imm, .beq d a imm, .bne d a imm,
    .blt d a imm, .bge d a imm, .bltu d a imm, .bgeu d a imm, .jalr d a imm], RoundTrips i := by
  intro i hi
  fin_cases hi
  all_goals exact roundTrips_ri rfl (by omega) (fun w h => by simp [decodeShort, rx_eq, h.hmaj, h.hd, h.ha, h.imm16])

theorem roundTrips_rounded (d a b : XReg) (r : Fin 8) (p : Bool) : ∀ i ∈ [Instr.fadd d a b r p, .fsub d a b r p,
    .fmul d a b r p, .fma d a b r p, .fdiv d a b r p, .fcmp d a b r p, .fsqrt d a r p], RoundTrips i := by
  intro i hi
  fin_cases hi
  all_goals exact roundTrips_float rfl (by omega) (fun w h => by
    obtain ⟨hr, hp, -⟩ := h.float
    simp [decodeFloat, must, rx_eq, hr, hp, h.hfn, h.hd, h.ha, h.hb])

theorem roundTrips_unrounded (d a b : XReg) (p : Bool) :
    ∀ i ∈ [Instr.fmin d a b p, .fmax d a b p, .fclass d a p], RoundTrips i := by
  intro i hi
  fin_cases hi
  all_goals exact roundTrips_float (rnd := 0) rfl (by omega) (fun w h => by
    obtain ⟨-, hp, hz⟩ := h.float
    simp [decodeFloat, must, rx_eq, hz, hp, h.hfn, h.hd, h.ha, h.hb])

theorem roundTrips_fcvt (d a : XReg) (sel : Fin 32) (r : Fin 8) : RoundTrips (.fcvt d a sel r) :=
  roundTrips_float rfl (by omega) (fun w h => by
    obtain ⟨hr, -, -⟩ := h.float
    simp [decodeFloat, must, rx_eq, hr, h.auxLow, h.hfn, h.hd, h.ha, h.hb])

theorem roundTrips_scalarMemory (t a : XReg) (m : MemAttr) (off : BitVec 9) : ∀ i ∈ [Instr.ldB t a m off, .ldH t a m off,
    .ldW t a m off, .ldD t a m off, .stB t a m off, .stH t a m off, .stW t a m off, .stD t a m off], RoundTrips i := by
  intro i hi
  fin_cases hi
  all_goals exact roundTrips_m rfl (by omega) (fun w hm ht ha hat ho => by simp [decodeShort, hm, ht, ha, hat, ho])

theorem roundTrips_amo (d a b : XReg) (z : Bool) (s : Fin 8) (o : Bool) : ∀ i ∈ [Instr.amoAdd d a b z s o,
    .amoMin d a b z s o, .amoMax d a b z s o, .amoAnd d a b z s o, .amoOr d a b z s o, .amoXor d a b z s o,
    .amoSwap d a b z s o, .amoCas d a b z s o, .amoFadd d a b z s o], RoundTrips i := by
  intro i hi
  fin_cases hi
  all_goals exact roundTrips_atomic rfl (by omega) (fun w hm hop hd ha hb hz hs ho => by
    simp [decodeShort, decodeAmo, hm, hop, ha, hb, hz, hs, ho, rx_eq w 21, hd])

theorem roundTrips_red (a b : XReg) (z : Bool) (s : Fin 8) (o : Bool) : ∀ i ∈ [Instr.redAdd a b z s o, .redMin a b z s o,
    .redMax a b z s o, .redAnd a b z s o, .redOr a b z s o, .redXor a b z s o, .redFadd a b z s o], RoundTrips i := by
  intro i hi
  fin_cases hi
  all_goals exact roundTrips_atomic rfl (by omega) (fun w hm hop hd ha hb hz hs ho => by
    simp [decodeShort, decodeRed, must, hm, hop, ha, hb, hz, hs, ho, hd])

theorem roundTrips_task (d a b : XReg) (sel : Fin 32) : ∀ i ∈ [Instr.spawn d a, .tend a, .cancel d a b, .cwait d a b,
    .barinit d a b, .barw d a b, .menter d a, .mexit a, .gzbegin d, .gzend d, .gzabort a, .pclass d a, .blease d a b,
    .msend d a b, .mrecv d a b, .mpeek d sel], RoundTrips i := by
  intro i hi
  fin_cases hi
  all_goals exact roundTrips_rr rfl (by omega) (fun w h => by
    simp [decodeShort, decodeTask, must, rx_eq, h.hmaj, h.hfn, h.hd, h.ha, h.hb, h.haux])

theorem roundTrips_privileged (d a : XReg) (n : Fin 1024) (k : Fin 8) : ∀ i ∈ [Instr.srd d n, .swr n a, .svc n, .eret,
    .trap n, .bkpt n, .pkrd d a n, .pkwr d a n, .spill a, .amapw k a, .tlbinv a, .cflush a, .capq d a], RoundTrips i := by
  intro i hi
  fin_cases hi
  all_goals exact roundTrips_system rfl (by omega) (fun w hf hd ha hn => by
    obtain ⟨h8, -, hr, -, hs⟩ := system_parts w
    simp [-Fin.ofNat_eq_cast, decodeSystem, must, rx_eq, hf, hd, ha, hn, h8, hr, hs])

theorem roundTrips_cinv (a : XReg) (k : Bool) : RoundTrips (.cinv a k) := by
  cases k
  all_goals exact roundTrips_system rfl (by simp only [Bool.toNat_false, Bool.toNat_true]; omega) (fun w hf hd ha hn => by
    obtain ⟨-, h2, -, hb, -⟩ := system_parts w
    simp [decodeSystem, must, rx_eq, hf, hd, ha, hn, h2, hb])

theorem roundTrips_vectorMemory (p : Option Vpx) (f : FmtCode) (t : VNum) (a : XReg) (m : MemAttr) (off : BitVec 5) :
    ∀ i ∈ [Instr.vld p f t a m off, .vst p f t a m off], RoundTrips i := by
  intro i hi
  fin_cases hi
  all_goals exact roundTrips_mv rfl (by omega) (fun w hm hf ht ha hat ho => by simp [decodeVector, hm, hf, ht, ha, hat, ho])

theorem roundTrips_vectorA (p : Option Vpx) (f : FmtCode) (d a b : VNum) : ∀ i ∈ [Instr.vadd p f d a b, .vsub p f d a b,
    .vmul p f d a b, .vfma p f d a b, .vmin p f d a b, .vmax p f d a b, .vsel p f d a b, .vand p f d a b, .vor p f d a b,
    .vxor p f d a b, .vshl p f d a b, .vshr p f d a b, .vabs p f d a, .vneg p f d a], RoundTrips i := by
  intro i hi
  fin_cases hi
  all_goals exact roundTrips_v rfl (by omega) (fun w h => by
    simp [decodeVector, decodeVecA, must, rv_eq, r4_eq, h.hmaj, h.hfn, h.hd, h.ha, h.hb, h.hf])

theorem roundTrips_compare (p : Option Vpx) (f : FmtCode) (d : MNum) (a b : VNum) : ∀ i ∈ [Instr.vcmpEq p f d a b,
    .vcmpNe p f d a b, .vcmpLt p f d a b, .vcmpLe p f d a b, .vcmpUnord p f d a b], RoundTrips i := by
  intro i hi
  fin_cases hi
  all_goals exact roundTrips_v rfl (by omega) (fun w h => by
    simp [-Fin.ofNat_eq_cast, decodeVector, decodeVecA, must, rv_eq, r4_eq, r3_eq, ofNat_mod, h.hmaj, h.hfn, h.dHigh, h.dLow,
      h.ha, h.hb, h.hf])

theorem roundTrips_vectorB (p : Option Vpx) (f : FmtCode) (d a b : VNum) (x y z : XReg) : ∀ i ∈ [Instr.vldg p f d x b,
    .vsts p f d x b, .vsumRow p f d a, .vsumCol p f d a, .vmaxrRow p f d a, .vmaxrCol p f d a, .vperm p f d a b,
    .vrot p f d a x, .vtrn p f d a, .vbcast p f d x, .vmov p f d a, .vshape p f x y z, .vrint p f d a, .vexp2f p f d a,
    .vscaleb p f d a b, .vrcp p f d a, .vrsqrt p f d a, .vlog2 p f d a, .vsinpi p f d a], RoundTrips i := by
  intro i hi
  fin_cases hi
  all_goals exact roundTrips_v rfl (by omega) (fun w h => by
    simp [decodeVector, decodeVecB, must, rv_eq, rx_eq, r4_eq, h.hmaj, h.hfn, h.hd, h.ha, h.hb, h.hf])

theorem roundTrips_convert (p : Option Vpx) (f g : FmtCode) (d a : VNum) :
    ∀ i ∈ [Instr.vcvt p f g d a, .vcvtSat p f g d a], RoundTrips i := by
  intro i hi
  fin_cases hi
  all_goals exact roundTrips_v rfl (by omega) (fun w h => by
    simp [-Fin.ofNat_eq_cast, decodeVector, decodeVecB, must, rv_eq, r4_eq, ofNat_mod, h.hmaj, h.hfn, h.hd, h.ha, h.bTop,
      h.bForm, h.hf])

theorem roundTrips_mask (p : Option Vpx) (f : FmtCode) (d a b : MNum) (x : XReg) :
    ∀ i ∈ [Instr.mand p f d a b, .mor p f d a b, .mnot p f d a, .mpop p f x a], RoundTrips i := by
  intro i hi
  fin_cases hi
  all_goals exact roundTrips_v rfl (by omega) (fun w h => by
    simp [-Fin.ofNat_eq_cast, decodeVector, decodeVecB, must, rx_eq, r4_eq, r3_eq, ofNat_mod, h.hmaj, h.hfn, h.hd, h.dHigh,
      h.dLow, h.aHigh, h.aLow, h.hb, h.bHigh, h.bLow, h.hf])

theorem roundTrips_longMemory (d a : XReg) (m : MemAttr) (off : BitVec 19) : ∀ i ∈ [Instr.ldBLong d a m off,
    .ldHLong d a m off, .ldWLong d a m off, .ldDLong d a m off, .stBLong d a m off, .stHLong d a m off, .stWLong d a m off,
    .stDLong d a m off], RoundTrips i := by
  intro i hi
  fin_cases hi
  all_goals exact roundTrips_lm rfl (by omega) (fun w v h h2 ho => by
    simp [decodeLM, must, rx_eq, h.hlop, h.hd, h.ha, h.hm, h2.hf, h2.hx, h2.hp, ho])

theorem roundTrips_longImmediate (d : XReg) (imm : BitVec 32) :
    ∀ i ∈ [Instr.lih d imm, .lihHi d imm, .jalLong d imm], RoundTrips i := by
  intro i hi
  fin_cases hi
  all_goals exact roundTrips_li rfl (by omega) (fun w h => by
    simp [decodeLM, must, rx_eq, h.hlop, h.hd, h.ha, h.mz, attr0])

theorem roundTrips_global (z : Bool) (d a : XReg) (m : MemAttr) (off : BitVec 19) :
    ∀ i ∈ [Instr.gld z d a m off, .gst z d a m off], RoundTrips i := by
  intro i hi
  cases z <;> fin_cases hi
  all_goals exact roundTrips_lm rfl (by simp only [Bool.toNat_false, Bool.toNat_true]; omega) (fun w v h h2 ho => by
    simp [decodeLM, must, rx_eq, h.hlop, h.hd, h.ha, h.hm, h2.hf, h2.hx, h2.hp, ho])

theorem roundTrips_gamo (z : Bool) (d a xs : XReg) (m : MemAttr) (off : BitVec 19) : ∀ i ∈ [Instr.gamoAdd z d a xs m off,
    .gamoMin z d a xs m off, .gamoMax z d a xs m off, .gamoAnd z d a xs m off, .gamoOr z d a xs m off,
    .gamoXor z d a xs m off, .gamoSwap z d a xs m off, .gamoCas z d a xs m off, .gamoFadd d a xs m off], RoundTrips i := by
  intro i hi
  cases z <;> fin_cases hi
  all_goals exact roundTrips_lm rfl (by simp only [Bool.toNat_false, Bool.toNat_true]; omega) (fun w v h h2 ho => by
    simp [decodeLM, must, rx_eq, h.hlop, h.hd, h.ha, h.hm, h2.hf, h2.hx, h2.hp, ho])

theorem roundTrips_tileMemory (t : TNum) (a xs : XReg) (f : FmtCode) (m : MemAttr) (off : BitVec 19) :
    ∀ i ∈ [Instr.tld t a xs f m off, .tst t a xs f m off], RoundTrips i := by
  intro i hi
  fin_cases hi
  all_goals exact roundTrips_lm rfl (by omega) (fun w v h h2 ho => by
    simp [-Fin.ofNat_eq_cast, decodeLM, must, rx_eq, r3_eq, r4_eq, ofNat_mod, h.hlop, h.dHigh, h.dLow, h.ha, h.hm, h2.hf,
      h2.hx, h2.hp, ho])

theorem roundTrips_ringMemory (t : TNum) (pr : PNum) (a xs : XReg) (f : FmtCode) {off : BitVec 19} (h0 : off.msb = false) :
    ∀ i ∈ [Instr.tldp t pr xs f off, .tstp t pr a xs f off], RoundTrips i := by
  intro i hi
  have hoff := offset_top h0
  fin_cases hi
  all_goals exact roundTrips_lm rfl (by omega) (fun w v h h2 ho => by
    simp [-Fin.ofNat_eq_cast, decodeLM, must, rx_eq, r3_eq, r4_eq, ofNat_mod, h.hlop, h.dHigh, h.dLow, h.ha, h.mz, attr0,
      h2.hf, h2.hx, h2.hp, h2.offTop, hoff, ho])

theorem roundTrips_chain (d a xs : XReg) (m : MemAttr) (off : BitVec 19) :
    ∀ i ∈ [Instr.ctwr a m off, .fapp d a xs off, .fseq d a off], RoundTrips i := by
  intro i hi
  fin_cases hi
  all_goals exact roundTrips_lm rfl (by omega) (fun w v h h2 ho => by
    simp [decodeLM, must, rx_eq, h.hlop, h.hd, h.ha, h.hm, h.mz, attr0, h2.hf, h2.hx, h2.hp, ho])

theorem roundTrips_tile (td ta tb : TNum) (fa fb fd : FmtCode) (pa pb : PNum) (ra rb : Bool) (sp r : Fin 8) (xs : XReg) :
    ∀ i ∈ [Instr.tmma td ta tb fa fb fd pa pb ra rb, .tmmas td ta tb fa fb fd pa pb ra rb sp xs, .tzero td fd xs,
      .tadd td ta tb fd r, .tgrp td fd xs], RoundTrips i := by
  intro i hi
  fin_cases hi
  all_goals exact roundTrips_lt rfl (by omega) (fun w v h h2 => by
    simp [decodeLT, must, rx_eq, r3_eq, r4_eq, bt_eq, h.hlop, h.hd, h.ha, h.hb, h.hfa, h.hfb, h2.hfd, h2.hpa, h2.hpb, h2.hra,
      h2.hrb, h2.ring, h2.hsp, h2.hrnd, h2.hsat, h2.hxs, h2.hxt, h2.hM])

theorem roundTrips_tcvt (td ta : TNum) (bank : Bool) (fa fd : FmtCode) (r : Fin 8) (sat : Bool) :
    RoundTrips (.tcvt td ta bank fa fd r sat) := by
  cases bank <;> cases sat
  all_goals exact roundTrips_lt rfl (by simp only [Bool.toNat_false, Bool.toNat_true]; omega) (fun w v h h2 => by
    simp [decodeLT, must, r3_eq, r4_eq, bt_eq, h.hlop, h.hd, h.ha, h.bHigh, h.bLow, h.hfa, h.hfb, h2.hfd, h2.hpa, h2.ring,
      h2.hsp, h2.hrnd, h2.hsat, h2.hxs, h2.hxt, h2.hM])

theorem roundTrips_ctswap : RoundTrips .ctswap :=
  roundTrips_lt (show encode .ctswap = [encT0 0x46 0 0 0 0 0, encT1 0 0 0 false false 0 0 false 0 0] from rfl)
    (by decide) (fun w v h h2 => by
    simp [decodeLT, must, h.hlop, h.hd, h.ha, h.hb, h.hfa, h.hfb, h2.hfd, h2.hpa, h2.ring, h2.hsp, h2.hrnd, h2.hsat, h2.hxs,
      h2.hxt, h2.hM])

theorem roundTrips_ring (p : PNum) (xs xt : XReg) : ∀ i ∈ [Instr.pdef p xs xt, .psub p xs xt, .pclaim p xt, .ppost p xs,
    .pwfill p xt, .pwfree p xs xt, .ppop p], RoundTrips i := by
  intro i hi
  fin_cases hi
  all_goals exact roundTrips_lt rfl (by omega) (fun w v h h2 => by
    simp [decodeLT, must, rx_eq, r4_eq, h.hlop, h.hd, h.ha, h.hb, h.hfa, h.hfb, h2.hfd, h2.hpa, h2.ring, h2.hsp, h2.hrnd,
      h2.hsat, h2.hxs, h2.hxt, h2.hM])

theorem roundTrips_qclr (q : QNum) : RoundTrips (.qclr q) :=
  roundTrips_lt (show encode (.qclr q) = [encT0 0x60 q.val 0 0 0 0, encT1 0 0 0 false false 0 0 false 0 0] from rfl)
    (by omega) (fun w v h h2 => by
    simp [-Fin.ofNat_eq_cast, decodeLT, must, h.hlop, h.qHigh, h.hq, h.ha, h.hb, h.hfa, h.hfb, h2.hfd, h2.hpa, h2.ring, h2.hsp,
      h2.hrnd, h2.hsat, h2.hxs, h2.hxt, h2.hM]
    omega)

theorem roundTrips_exact (q : QNum) (f : FmtCode) (r : Fin 8) (xs xt : XReg) :
    ∀ i ∈ [Instr.qadd q xs xt, .qaddf q f xs, .qrnd q f r xs xt, .qsendQ q xs xt], RoundTrips i := by
  intro i hi
  fin_cases hi
  all_goals exact roundTrips_lt rfl (by omega) (fun w v h h2 => by
    simp [-Fin.ofNat_eq_cast, decodeLT, must, rx_eq, r3_eq, r4_eq, h.hlop, h.qHigh, h.hq, h.ha, h.hb, h.hfa, h.hfb, h2.hfd,
      h2.hpa, h2.ring, h2.hsp, h2.hrnd, h2.hsat, h2.hxs, h2.hxt, h2.hM]
    omega)

/-- A QSEND of a block shares its LOP with that of an accumulator, and differs in FA, which names the block's format. -/
theorem roundTrips_block (ta tb : TNum) {fa : FmtCode} (fb : FmtCode) (xs xt : XReg) (hfa : fa ≠ 0) :
    RoundTrips (.qsendQ4n ta tb fa fb xs xt) :=
  roundTrips_lt rfl (by omega) (fun w v h h2 => by
    simp [decodeLT, must, rx_eq, r3_eq, r4_eq, h.hlop, h.hd, h.ha, h.hb, h.hfa, h.hfb, h2.hfd, h2.hpa, h2.ring, h2.hsp,
      h2.hrnd, h2.hsat, h2.hxs, h2.hxt, h2.hM, hfa])

theorem roundTrips_fences (s : Fin 8) (t : Fin 4) : ∀ i ∈ [Instr.fence s t, .fenceAcq s t, .fenceRel s t], RoundTrips i := by
  intro i hi
  have dec : ∀ kind < 3, ∀ w, fld w 26 6 = 0x19 → fld w 3 2 = kind → fld w 7 19 = 0 → r3 w 0 = s →
      Fin.ofNat 4 (w / 2 ^ 5) = t →
      decodeShort w = .ok (if kind = 0 then .fence s t else if kind = 1 then .fenceAcq s t else .fenceRel s t) := by
    intro kind hk w hm hf hz hs ht
    simp only [decodeShort, decodeFence, hm, hs, ht]
    rw [hf, hz]
    interval_cases kind <;> rfl
  fin_cases hi
  · exact roundTrips_fence (kind := 0)
      (congrArg (encRI 0x19 0 0) (by omega : t.val * 2 ^ 5 + s.val = t.val * 2 ^ 5 + 0 * 2 ^ 3 + s.val)) (by decide)
      (dec 0 (by decide))
  · exact roundTrips_fence (kind := 1) rfl (by decide) (dec 1 (by decide))
  · exact roundTrips_fence (kind := 2) rfl (by decide) (dec 2 (by decide))

/-- Offsets of TLDP and TSTP that pass the decode checks have their highest bit clear. -/
theorem msb_of_ringMemory {off : BitVec 19} {f : FmtCode} (h : (verdict (!off.msb) (fmtTile f) = none)) : off.msb = false := by
  cases hm : off.msb
  · rfl
  · simp [verdict, hm] at h

theorem fa_of_block {fa : FmtCode} {b : Bool} (h : verdict true (fmtQ4 fa && b) = none) : fa ≠ 0 := by
  rintro rfl
  simp [verdict, fmtQ4] at h

theorem roundTrips_wellFormed (i : Instr) (he : encodable i = true) (hw : checkFields i = none) : RoundTrips i := by
  cases i with
  | add d a b | sub d a b | and d a b | or d a b | xor d a b | sll d a b | srl d a b | sra d a b | mul d a b | mulh d a b
    | mulhu d a b | div d a b | divu d a b | rem d a b | remu d a b | min d a b | max d a b | minu d a b | maxu d a b
    | slt d a b | sltu d a b | seq d a b => exact roundTrips_integer d a b _ (by simp)
  | clz d a | ctz d a | popc d a => exact roundTrips_integer d a 0 _ (by simp)
  | slli d a n | srli d a n | srai d a n => exact roundTrips_shift d a n _ (by simp)
  | lea d a b n => exact roundTrips_lea d a b n
  | addi d a imm | beq d a imm | bne d a imm | blt d a imm | bge d a imm | bltu d a imm | bgeu d a imm | jalr d a imm =>
    exact roundTrips_immediate d a imm _ (by simp)
  | jal d off => exact roundTrips_jal d off
  | nop hint => exact roundTrips_nop hint
  | fadd d a b r p | fsub d a b r p | fmul d a b r p | fma d a b r p | fdiv d a b r p | fcmp d a b r p =>
    exact roundTrips_rounded d a b r p _ (by simp)
  | fsqrt d a r p => exact roundTrips_rounded d a 0 r p _ (by simp)
  | fmin d a b p | fmax d a b p => exact roundTrips_unrounded d a b p _ (by simp)
  | fclass d a p => exact roundTrips_unrounded d a 0 p _ (by simp)
  | fcvt d a sel r => exact roundTrips_fcvt d a sel r
  | ldB t a m off | ldH t a m off | ldW t a m off | ldD t a m off | stB t a m off | stH t a m off | stW t a m off
    | stD t a m off => exact roundTrips_scalarMemory t a m off _ (by simp)
  | amoAdd d a b z s o | amoMin d a b z s o | amoMax d a b z s o | amoAnd d a b z s o | amoOr d a b z s o
    | amoXor d a b z s o | amoSwap d a b z s o | amoCas d a b z s o | amoFadd d a b z s o =>
    exact roundTrips_amo d a b z s o _ (by simp)
  | redAdd a b z s o | redMin a b z s o | redMax a b z s o | redAnd a b z s o | redOr a b z s o | redXor a b z s o
    | redFadd a b z s o => exact roundTrips_red a b z s o _ (by simp)
  | fence s t | fenceAcq s t | fenceRel s t => exact roundTrips_fences s t _ (by simp)
  | spawn d a | pclass d a | menter d a => exact roundTrips_task d a 0 0 _ (by simp)
  | tend a | mexit a | gzabort a => exact roundTrips_task 0 a 0 0 _ (by simp)
  | gzbegin d | gzend d => exact roundTrips_task d 0 0 0 _ (by simp)
  | cancel d a b | cwait d a b | barinit d a b | barw d a b | blease d a b | msend d a b | mrecv d a b =>
    exact roundTrips_task d a b 0 _ (by simp)
  | mpeek d sel => exact roundTrips_task d 0 0 sel _ (by simp)
  | eret => exact roundTrips_privileged 0 0 0 0 _ (by simp)
  | svc n | trap n | bkpt n => exact roundTrips_privileged 0 0 n 0 _ (by simp)
  | srd d n => exact roundTrips_privileged d 0 n 0 _ (by simp)
  | swr n a => exact roundTrips_privileged 0 a n 0 _ (by simp)
  | pkrd d a n | pkwr d a n => exact roundTrips_privileged d a n 0 _ (by simp)
  | spill a | tlbinv a | cflush a => exact roundTrips_privileged 0 a 0 0 _ (by simp)
  | amapw k a => exact roundTrips_privileged 0 a 0 k _ (by simp)
  | capq d a => exact roundTrips_privileged d a 0 0 _ (by simp)
  | cinv a k => exact roundTrips_cinv a k
  | vld p f t a m off | vst p f t a m off => exact roundTrips_vectorMemory p f t a m off _ (by simp)
  | vadd p f d a b | vsub p f d a b | vmul p f d a b | vfma p f d a b | vmin p f d a b | vmax p f d a b | vsel p f d a b
    | vand p f d a b | vor p f d a b | vxor p f d a b | vshl p f d a b | vshr p f d a b =>
    exact roundTrips_vectorA p f d a b _ (by simp)
  | vabs p f d a | vneg p f d a => exact roundTrips_vectorA p f d a 0 _ (by simp)
  | vcmpEq p f d a b | vcmpNe p f d a b | vcmpLt p f d a b | vcmpLe p f d a b | vcmpUnord p f d a b =>
    exact roundTrips_compare p f d a b _ (by simp)
  | vldg p f d a b | vsts p f d a b => exact roundTrips_vectorB p f d 0 b a 0 0 _ (by simp)
  | vsumRow p f d a | vsumCol p f d a | vmaxrRow p f d a | vmaxrCol p f d a | vtrn p f d a | vmov p f d a | vrint p f d a
    | vexp2f p f d a | vrcp p f d a | vrsqrt p f d a | vlog2 p f d a | vsinpi p f d a =>
    exact roundTrips_vectorB p f d a 0 0 0 0 _ (by simp)
  | vperm p f d a b | vscaleb p f d a b => exact roundTrips_vectorB p f d a b 0 0 0 _ (by simp)
  | vrot p f d a b => exact roundTrips_vectorB p f d a 0 b 0 0 _ (by simp)
  | vbcast p f d a => exact roundTrips_vectorB p f d 0 0 a 0 0 _ (by simp)
  | vshape p f d a b => exact roundTrips_vectorB p f 0 0 0 d a b _ (by simp)
  | vcvt p f g d a | vcvtSat p f g d a => exact roundTrips_convert p f g d a _ (by simp)
  | mand p f d a b | mor p f d a b => exact roundTrips_mask p f d a b 0 _ (by simp)
  | mnot p f d a => exact roundTrips_mask p f d a 0 0 _ (by simp)
  | mpop p f d a => exact roundTrips_mask p f 0 a 0 d _ (by simp)
  | ldBLong d a m off | ldHLong d a m off | ldWLong d a m off | ldDLong d a m off | stBLong d a m off | stHLong d a m off
    | stWLong d a m off | stDLong d a m off => exact roundTrips_longMemory d a m off _ (by simp)
  | lih d imm | lihHi d imm | jalLong d imm => exact roundTrips_longImmediate d imm _ (by simp)
  | gld z d a m off | gst z d a m off => exact roundTrips_global z d a m off _ (by simp)
  | gamoAdd z d a xs m off | gamoMin z d a xs m off | gamoMax z d a xs m off | gamoAnd z d a xs m off | gamoOr z d a xs m off
    | gamoXor z d a xs m off | gamoSwap z d a xs m off | gamoCas z d a xs m off =>
    exact roundTrips_gamo z d a xs m off _ (by simp)
  | gamoFadd d a xs m off => exact roundTrips_gamo false d a xs m off _ (by simp)
  | tld t a xs f m off | tst t a xs f m off => exact roundTrips_tileMemory t a xs f m off _ (by simp)
  | tldp t pr xs f off => exact roundTrips_ringMemory t pr 0 xs f (msb_of_ringMemory hw) _ (by simp)
  | tstp t pr a xs f off => exact roundTrips_ringMemory t pr a xs f (msb_of_ringMemory hw) _ (by simp)
  | ctwr a m off => exact roundTrips_chain 0 a 0 m off _ (by simp)
  | fapp d a xs off => exact roundTrips_chain d a xs attr0 off _ (by simp)
  | fseq d a off => exact roundTrips_chain d a 0 attr0 off _ (by simp)
  | tmma td ta tb fa fb fd pa pb ra rb => exact roundTrips_tile td ta tb fa fb fd pa pb ra rb 0 0 0 _ (by simp)
  | tmmas td ta tb fa fb fd pa pb ra rb sp xs => exact roundTrips_tile td ta tb fa fb fd pa pb ra rb sp 0 xs _ (by simp)
  | tzero td fd xs | tgrp td fd xs => exact roundTrips_tile td 0 0 0 0 fd 0 0 false false 0 0 xs _ (by simp)
  | tadd td ta tb fd r => exact roundTrips_tile td ta tb 0 0 fd 0 0 false false 0 r 0 _ (by simp)
  | tcvt td ta bank fa fd r sat => exact roundTrips_tcvt td ta bank fa fd r sat
  | ctswap => exact roundTrips_ctswap
  | pdef p xs xt | psub p xs xt | pwfree p xs xt => exact roundTrips_ring p xs xt _ (by simp)
  | pclaim p xt | pwfill p xt => exact roundTrips_ring p 0 xt _ (by simp)
  | ppost p xs => exact roundTrips_ring p xs 0 _ (by simp)
  | ppop p => exact roundTrips_ring p 0 0 _ (by simp)
  | qclr q => exact roundTrips_qclr q
  | qadd q xs xt | qsendQ q xs xt => exact roundTrips_exact q 0 0 xs xt _ (by simp)
  | qaddf q f xs => exact roundTrips_exact q f 0 xs 0 _ (by simp)
  | qrnd q f r xs xt => exact roundTrips_exact q f r xs xt _ (by simp)
  | qsendQ4n ta tb fa fb xs xt => exact roundTrips_block ta tb fb xs xt (fa_of_block hw)
  | _ => exact Bool.noConfusion he

/-- Settles O37: each row of the opcode map decodes from the fields that its format gives the encoder's parcels, and the steps
of the device have no parcels. -/
theorem encodingsAgree : Obligations.EncodingsAgree := fun i he hw =>
  have h := roundTrips_wellFormed i he (of_decide_eq_true hw)
  ⟨h.parcels, h.list, h.bytes⟩

end Sys2Proof
end


section
/-! PROOF. The words of the manual (O36), the hint space (O2), branches and jumps (O5, O6) and the effective address (O8). -/

namespace Sys2Proof.Machine

/-! Reference words. -/

/-- Settles O36: the decoder and the encoder compute on each word. -/
theorem referenceWords : Obligations.ReferenceWords := by
  unfold Obligations.ReferenceWords
  decide

/-! The hint space (R95). -/

theorem exec_nop (hint : BitVec 26) (s : State) : exec (.nop hint) s = .next (s.retire 4) := rfl

theorem decodeParcels_hint (hint : BitVec 26) (v : Nat) : decodeParcels (0x01 * 2 ^ 26 + hint.toNat) v = .ok (.nop hint) := by
  have hm : fld (0x01 * 2 ^ 26 + hint.toNat) 26 6 = 0x01 := by simp only [fld]; omega
  have hh : BitVec.ofNat 26 (0x01 * 2 ^ 26 + hint.toNat) = hint := by
    apply BitVec.eq_of_toNat_eq
    rw [BitVec.toNat_ofNat]
    omega
  simp only [decodeParcels, decodeShort, hm, hh]
  rfl

/-- Settles O2: a parcel of the hint space decodes to NOP, which retires and does nothing else. -/
theorem hintSpace : Obligations.HintSpace :=
  ⟨rfl, fun s hint v => ⟨decodeParcels_hint hint v, rfl, _, exec_nop hint s, finishes_retire s s.cur.reg 4⟩⟩

/-! Control to a target (R78). -/

theorem goto_eq (s : State) (pc : Word) :
    s.goto pc = ({ s with cur := { s.cur with
      reg := { s.cur.reg with pc := pc }, id := { s.cur.id with rob := s.cur.id.rob + 1 } } } : State).event
      (clusterOf s.cur.id.core) 2 := rfl

theorem finishes_goto (s : State) (r : Regs) (pc : Word) :
    Finishes s (({ s with cur := { s.cur with reg := r } } : State).goto pc) { r with pc := pc } := by
  rw [goto_eq]
  exact ⟨⟨by rw [event_cur], Or.inl (by rw [event_cur])⟩, beside_event (beside_cur ..) ..⟩

theorem jump_done {s : State} {target : Word} (d : XReg) (link : Word) (ha : target.toNat % 4 = 0)
    (hl : target.toNat < 2 ^ 60) :
    ∃ t, s.jump target d link = .next t ∧ Finishes s t { s.cur.reg.put d link with pc := target } := by
  refine ⟨(s.setX d link).goto target, ?_, ?_⟩
  · unfold State.jump
    rw [if_neg (by simpa using ha), if_neg (Nat.not_le.mpr hl)]
  · rw [setX_eq]
    exact finishes_goto s _ target

theorem jump_misaligned {s : State} {target : Word} (d : XReg) (link : Word) (h : TrapReady s) (ha : target.toNat % 4 ≠ 0) :
    ∃ t, s.jump target d link = .next t ∧ Traps s t 0x04 s.cur.reg.edepth s.cur.reg.pc target s.cur.reg.pc := by
  refine ⟨s.stopped (.trap 0x04 (some target)), ?_, deliverTrap_spec h 4 (some target) .device (by decide) (.inl (by decide))⟩
  unfold State.jump
  rw [if_pos (by simpa using ha)]

theorem jump_beyond {s : State} {target : Word} (d : XReg) (link : Word) (h : TrapReady s) (ha : target.toNat % 4 = 0)
    (hl : 2 ^ 60 ≤ target.toNat) :
    ∃ t, s.jump target d link = .next t ∧ Traps s t 0x05 s.cur.reg.edepth s.cur.reg.pc target s.cur.reg.pc := by
  refine ⟨s.stopped (.trap 0x05 (some target)), ?_, deliverTrap_spec h 5 (some target) .device (by decide) (.inl (by decide))⟩
  unfold State.jump
  rw [if_neg (by simpa using ha), if_pos hl]

/-! Branches and jumps (R127, R128). -/

theorem ofInt_toNat (w : Word) : BitVec.ofInt 64 w.toNat = w := by
  rw [BitVec.ofInt_natCast, BitVec.ofNat_toNat, BitVec.setWidth_eq]

theorem sext_add {n : Nat} (w : Word) (imm : BitVec n) : w + sext imm = BitVec.ofInt 64 (w.toNat + imm.toInt) := by
  rw [BitVec.ofInt_add, ofInt_toNat]
  rfl

theorem branchTarget_eq {n : Nat} (pc : Word) (off : BitVec n) :
    branchTarget pc off = BitVec.ofInt 64 (pc.toNat + off.toInt * 4) := by
  unfold branchTarget sext
  rw [BitVec.ofInt_add, BitVec.ofInt_mul, ofInt_toNat, BitVec.shiftLeft_eq_mul_twoPow]
  rfl

theorem branch_eq (s : State) {taken c : Bool} (off : BitVec 16) (h : c = taken) : s.branch c off =
    if taken then s.jump (BitVec.ofInt 64 (s.cur.reg.pc.toNat + off.toInt * 4)) 0 0 else .next (s.retire 4) := by
  rw [← branchTarget_eq, h]
  rfl

/-- What a conditional branch does, by its row. -/
theorem exec_of_branchRow {s : State} {i : Instr} {taken : Bool} {o : Int} (h : s.branchRow i = some (taken, o)) :
    exec i s = if taken then s.jump (BitVec.ofInt 64 (s.cur.reg.pc.toNat + o * 4)) 0 0 else .next (s.retire 4) := by
  unfold State.branchRow at h
  dsimp only at h
  split at h <;> cases h
  · exact branch_eq s _ (by simp [x_eq, BitVec.toNat_inj, beq_eq_decide])
  · exact branch_eq s _ (by simp [x_eq, BitVec.toNat_inj, bne, beq_eq_decide])
  · exact branch_eq s _ rfl
  · exact branch_eq s _ (decide_not.symm.trans (decide_eq_decide.mpr Int.not_lt))
  · exact branch_eq s _ rfl
  · exact branch_eq s _ (decide_not.symm.trans (decide_eq_decide.mpr Nat.not_lt))

/-- What a jump does, by its row. -/
theorem exec_of_jumpRow {s : State} {i : Instr} {target : Word} {d : XReg} {n : Nat} (h : s.jumpRow i = some (target, d, n)) :
    exec i s = s.jump target d (s.cur.reg.pc + BitVec.ofNat 64 n) := by
  unfold State.jumpRow at h
  split at h <;> cases h
  · exact congrArg (fun w => s.jump w _ _) (branchTarget_eq _ _)
  · exact congrArg (fun w => s.jump w _ _) (branchTarget_eq _ _)
  · exact congrArg (fun w => s.jump w _ _) (sext_add _ _)

/-- Settles O5: a branch that is taken and a jump end in the same move of control. -/
theorem controlTransfers : Obligations.ControlTransfers := by
  intro s i
  refine ⟨fun off h => ?_, fun off h => ?_, fun target d n h ha hl => ?_⟩
  · exact ⟨_, exec_of_branchRow h, finishes_retire s s.cur.reg 4⟩
  · intro target ha hl
    rw [exec_of_branchRow h]
    exact jump_done 0 0 ha hl
  · rw [exec_of_jumpRow h]
    exact jump_done d _ ha hl

/-- Settles O6: the two checks of a target come before the link and the program counter are written. -/
theorem transferTraps : Obligations.TransferTraps := by
  intro s i target hs hi
  have hj : ∃ d link, exec i s = s.jump target d link := by
    rcases hi with ⟨off, h, rfl⟩ | ⟨d, n, h⟩
    · exact ⟨0, 0, exec_of_branchRow h⟩
    · exact ⟨d, _, exec_of_jumpRow h⟩
  obtain ⟨d, link, he⟩ := hj
  rw [he]
  exact ⟨jump_misaligned d link hs, jump_beyond d link hs⟩

/-! The effective address (R80). -/

theorem effective_address (c : Context) (base : Word) (off : Int) (n : Nat) (h : c.reg.segMode = false ∨ c.id.sup = true) :
    c.effective base off n = if ((base.toNat + off) % 2 ^ 64).toNat < 2 ^ 60 then .ok ((base.toNat + off) % 2 ^ 64).toNat
      else .error (0x05, ((base.toNat + off) % 2 ^ 64).toNat) := by
  unfold Context.effective
  rw [if_neg (by rcases h with h | h <;> simp [h])]
  rfl

theorem effective_segment (c : Context) (base : Word) (off : Int) (n : Nat) (hm : c.reg.segMode = true) (hs : c.id.sup = false)
    (g : Fin 16) (hg : g.val = base.toNat / 2 ^ 60) :
    let o : Int := base.toNat % 2 ^ 60 + off
    let lin : Int := (c.reg.sg[g]).base.toNat + o
    c.effective base off n =
      if o < 0 ∨ o + n > (c.reg.sg[g]).limit.toNat then .error (0x08, (lin % 2 ^ 64).toNat)
      else if lin < 2 ^ 60 then .ok lin.toNat else .error (0x05, (lin % 2 ^ 64).toNat) := by
  intro o lin
  have hlt := base.isLt
  have hi : bitsOf base 63 60 % 16 = g.val := by unfold bitsOf; omega
  have ho : ((bitsOf base 59 0 : Nat) : Int) + off = o := by unfold bitsOf; omega
  have hg' : c.reg.sg[bitsOf base 63 60 % 16]'(Nat.mod_lt _ (by decide)) = c.reg.sg[g] := by simp only [hi]; rfl
  unfold Context.effective
  simp only [hm, hs, hg', ho, Bool.not_false, Bool.and_true, if_true, Bool.or_eq_true, decide_eq_true_eq]
  split
  · rfl
  · next hb =>
    rw [not_or, not_lt] at hb
    obtain ⟨k, hk⟩ := Int.eq_ofNat_of_zero_le hb.1
    simp only [lin, hk, Int.toNat_natCast, ← Nat.cast_add]
    norm_cast

/-- Settles O8: ADDRESS mode and the supervisor take the sum as it is; SEGMENT mode checks the offset part first. -/
theorem effectiveAddress : Obligations.EffectiveAddress := fun c base off n =>
  ⟨effective_address c base off n, fun hm hs g hg => effective_segment c base off n hm hs g hg⟩

end Sys2Proof.Machine
end


section
/-! PROOF. A step runs the decoded instruction (O39). -/

namespace Sys2Proof.Machine

/-! What the passing of time leaves. -/

theorem wakeCores_fields (s : State) : { s.wakeCores with cores := s.cores } = s := by
  unfold State.wakeCores
  generalize s.cores.filter _ = l
  generalize hc : s.cores = cs
  have h : ∀ (l : List (Nat × CoreSt)) (u : State), { l.foldl (fun s k =>
      s.setCore k.1 { s.core k.1 with idle := false, readyAt := s.now }) u with cores := cs } = { u with cores := cs } := by
    intro l
    induction l with
    | nil => intro u; rfl
    | cons k l ih => intro u; exact ih _
  rw [h, ← hc]

theorem tick_fields (s : State) : { s.tick with cores := s.cores, clusters := s.clusters, now := s.now } = s :=
  congrArg (fun t : State => { t with cores := s.cores, clusters := s.clusters, now := s.now })
    (wakeCores_fields ({ s.countCycles with now := s.now + 1 } : State))

theorem tick_cur (s : State) : s.tick.cur = s.cur := (congrArg State.cur (tick_fields s) :)
theorem tick_others (s : State) : s.tick.others = s.others := (congrArg State.others (tick_fields s) :)
theorem tick_turns (s : State) : s.tick.turns = s.turns := (congrArg State.turns (tick_fields s) :)
theorem tick_agenda (s : State) : s.tick.agenda = s.agenda := (congrArg State.agenda (tick_fields s) :)
theorem tick_net (s : State) : s.tick.net = s.net := (congrArg State.net (tick_fields s) :)

/-! A turn. -/

/-- A context at an instruction boundary with nothing due there. -/
theorem boundary_none {s : State} (he : s.cur.sched.ending = none) (hc : s.cur.sched.cancelled = false)
    (hs : s.cur.sched.toSafe = none) : s.boundary = none := by
  unfold State.boundary
  simp [he, hc, hs]

/-- The turn of the context that stands at the front, where nothing else is due at its boundary. -/
theorem turnOf_cur {s : State} (hr : s.cur.runnable = true) (hw : s.stalled s.cur = false)
    (he : s.cur.sched.ending = none) (hc : s.cur.sched.cancelled = false) (hs : s.cur.sched.toSafe = none) :
    s.turnOf s.cur.id.uid = (if s.waitOver s.cur then s.served s.cur.id.core else s).instruction := by
  have hb : s.bring s.cur.id.uid = s := if_pos rfl
  have hn : (if s.waitOver s.cur then s.served s.cur.id.core else s).boundary = none := by
    split <;> exact boundary_none he hc hs
  unfold State.turnOf
  simp only [hb, hr, hw, decide_true, Bool.not_false, Bool.and_self, if_true, hn]

/-- Where nothing is laid down, due or waiting, the one context that there is takes its turn. -/
theorem natural_cur {s : State} (ha : s.agenda = []) (hn : s.net = []) (ho : s.others = []) (hq : s.schedule = none)
    (hr : s.cur.runnable = true) (hw : s.stalled s.cur = false) : s.natural = s.turnOf s.cur.id.uid := by
  unfold State.natural State.carry State.nextUp
  simp [ha, hn, ho, hq, hr, hw]

theorem step_turn {s : State} {rest : List Turn} (h : s.turns = .run s.cur.id.uid :: rest ∨
      (s.turns = [] ∧ rest = [] ∧ s.agenda = [] ∧ s.net = [] ∧ s.others = [] ∧ s.tick.schedule = none))
    (hr : s.cur.runnable = true) (hw : ({ s.tick with turns := rest } : State).stalled s.cur = false) :
    step s = ({ s.tick with turns := rest } : State).turnOf s.cur.id.uid := by
  unfold step State.oneStep
  obtain h | ⟨ht, rfl, ha, hn, ho, hq⟩ := h
  · simp only [tick_turns, h]
  · have e : ({ s.tick with turns := [] } : State) = s.tick := by rw [← ht, ← tick_turns]
    rw [e] at hw ⊢
    simp only [tick_turns, ht]
    rw [natural_cur (by rw [tick_agenda, ha]) (by rw [tick_net, hn]) (by rw [tick_others, ho]) hq (by rw [tick_cur, hr])
      (by rw [tick_cur, hw]), tick_cur]

/-! Fetching (R73, R97, R100). -/

/-- The bits of the instruction in issue, as fetching notes them. -/
def State.withBits (s : State) (bits : Nat) (long : Bool) : State :=
  { s with cur := { s.cur with bits := BitVec.ofNat 64 bits, long := long } }

@[simp] theorem noteBits_bind_run {α : Type} (bits : Nat) (long : Bool) (f : PUnit → Op α) (s : State) :
    (noteBits bits long >>= f) s = f ⟨⟩ (s.withBits bits long) := rfl

theorem withBits_withBits (s : State) (b c : Nat) (l m : Bool) : (s.withBits b l).withBits c m = s.withBits c m := rfl

/-- Noted bits are no part of what a fetch looks at. -/
theorem Fetches.withBits {s : State} {va w : Nat} (h : Fetches s va w) (b : Nat) (l : Bool) :
    Fetches (s.withBits b l) va w := by
  obtain ⟨ia, loc, hm, hc, hr, hrest⟩ := h
  exact ⟨ia, loc, hm, hc, meet_settled (u := s.withBits b l) hr rfl rfl _, hrest⟩

/-- No release noted with the lines of n bytes holds up a reader that is inside its scope. -/
theorem forcePublish_run {s : State} {ia n : Nat} (h : s.narrowAt ia n (some (s.cur.id.uid, s.cur.id.core)) = []) :
    forcePublish ia n s = .ok ⟨⟩ s := by
  unfold forcePublish
  simp only [get_bind_run, forcePublish_none h, withheld_none h]
  split <;> rfl

theorem fetchParcel_run {s : State} {va w : Nat} (h : Fetches s va w) : fetchParcel va s = .ok w s := by
  obtain ⟨ia, loc, hm, hc, hr, hp, hw, hn, hv⟩ := h
  have hq : s.narrowAt ia 4 (some (s.cur.id.uid, s.cur.id.core)) = [] := by
    unfold State.narrowAt
    rw [List.filter_eq_nil_iff]
    intro r hr
    rcases hn r hr with h | h
    · simp [h]
    · simp only [Bool.and_eq_true, decide_eq_true_eq]
      rintro ⟨⟨⟨h1, h2⟩, -⟩, -⟩
      omega
  have hreach : reach ⟨va, ia⟩ .fetch 1 s = .ok loc s := by
    unfold reach
    simp [hr]
  have hold : s.staleParcels loc (s.cur.sees loc) = [] := by
    have hnone : (List.range 4).flatMap (fun k =>
        ((s.versions (loc + k)).filter (fun v => s.cur.sees loc < v.step)).map (·.step)) = [] := by
      rw [List.flatMap_eq_nil_iff]
      intro k hk
      rw [List.map_eq_nil_iff, List.filter_eq_nil_iff]
      intro v hv'
      simpa using hv k (List.mem_range.mp hk) v hv'
    unfold State.staleParcels
    simp only [hnone]
    rfl
  unfold fetchParcel
  simp only [get_bind_run, hm, hc]
  rw [op_bind_ok (forcePublish_run hq), op_bind_ok hreach]
  unfold needClean
  simp [hp, hold, hw]

theorem fetch_run {s : State} {w v : Nat} {i : Instr} (ha : s.cur.reg.pc.toNat % 4 = 0)
    (hl : s.cur.reg.pc.toNat + 8 ≤ 2 ^ 60) (hw : Fetches s s.cur.reg.pc.toNat w)
    (hv : if isLong w then Fetches s (s.cur.reg.pc.toNat + 4) v else v = 0) (hd : decodeParcels w v = .ok i)
    (hc : checkFields i = none) : fetch s = .ok i (s.withBits (v * 2 ^ 32 + w) (isLong w)) := by
  unfold fetch
  simp only [noteBits_bind_run, self_bind_run]
  have hpc : (s.withBits 0 false).cur.reg.pc = s.cur.reg.pc := rfl
  simp only [hpc, ha, bne_self_eq_false, Bool.false_eq_true, if_false, Nat.not_le.mpr (by omega : s.cur.reg.pc.toNat < 2 ^ 60)]
  rw [op_bind_ok (fetchParcel_run (hw.withBits 0 false))]
  simp only [noteBits_bind_run, withBits_withBits]
  cases hlong : isLong w with
  | true =>
    rw [hlong, if_pos rfl] at hv
    rw [if_pos rfl, if_neg (by omega), op_bind_ok (fetchParcel_run (hv.withBits w true)), noteBits_bind_run,
      withBits_withBits, hd]
    simp only [hc]
    rfl
  | false =>
    obtain rfl : v = 0 := by simpa [hlong] using hv
    rw [if_neg (by decide), pure_bind, noteBits_bind_run, withBits_withBits, hd]
    simp only [hc]
    rfl

/-- Settles O39: the turn comes to the context, its parcels are fetched, and what they decode to is executed. -/
theorem stepRunsDecoded : Obligations.StepRunsDecoded := by
  intro s i w v rest s1 s0 long v0 hturn hr hw he hc hs ha hl hf hf2 hd hcheck
  have hcur : s1.cur = s.cur := tick_cur s
  have hcur0 : s0.cur = s.cur := by
    unfold s0
    split <;> exact hcur
  have hfetch : fetch s0 = .ok i (s0.withBits (v0 * 2 ^ 32 + w) long) := by
    rw [← hcur0] at ha hl hf hf2
    refine fetch_run ha hl hf ?_ hd hcheck
    unfold v0
    split
    · exact hf2 ‹_›
    · rfl
  have hs0 : (if s1.waitOver s1.cur then s1.served s1.cur.id.core else s1) = s0 := by unfold s0; rw [hcur]
  rw [step_turn hturn hr hw, ← hcur,
    turnOf_cur (s := s1) (hcur ▸ hr) (hcur ▸ hw) (hcur ▸ he) (hcur ▸ hc) (hcur ▸ hs), hs0]
  unfold State.instruction
  rw [hfetch]
  rfl

end Sys2Proof.Machine
end


section
/-! PROOF. AMAPW, TLBINV, CFLUSH, CINV and CAPQ (O25). -/

namespace Sys2Proof.Machine

theorem exec_capq (d a : XReg) (s : State) : exec (.capq d a) s = s.does (capqOp d a) := rfl
theorem exec_cflush (a : XReg) (s : State) : exec (.cflush a) s = s.does (cflushOp a) := rfl
theorem exec_cinv (a : XReg) (b : Bool) (s : State) : exec (.cinv a b) s = s.does (cinvOp a b) := rfl
theorem exec_amapw (n : Fin 8) (a : XReg) (s : State) : exec (.amapw n a) s = s.does (amapwOp n a) := rfl
theorem exec_tlbinv (a : XReg) (s : State) : exec (.tlbinv a) s = s.does (tlbinvOp a) := rfl

/-- A machine whose context is about to retire. -/
theorem finishes_self (s : State) (len : Nat) : Finishes s (s.retired len) (s.cur.reg.step len) :=
  finishes_retired s s.cur.reg len

/-! CAPQ (R367). -/

/-- What CAPQ answers of a word: the capability of its identifier with a high enough version, or all ones. -/
def State.capability (s : State) (w : Word) : Word :=
  match (s.capsOf (pkgOf s.cur.id.core)).find? (fun k => k.capid = bitsOf w 15 0 && bitsOf w 23 16 ≤ k.ver) with
  | none => BitVec.allOnes 64
  | some k => k.value

theorem capqOp_run {s : State} {d a : XReg} (h : (s.arg a).toNat < 2 ^ 24) :
    capqOp d a s = .ok ⟨⟩ ((s.setX d (s.capability (s.arg a))).retired 4) := by
  have hf : bitsOf (s.arg a) 63 24 = 0 := by unfold bitsOf; omega
  unfold capqOp
  simp only [readX_bind_run, need_bind_run, x_eq, hf, decide_true, if_true]
  rfl

theorem capability_eq (s : State) {w : Word} (h : w.toNat < 2 ^ 24) : s.capability w =
    ((tabGet [] s.caps (s.cur.id.core / 512)).find? (fun c =>
      c.capid = w.toNat % 2 ^ 16 && w.toNat / 2 ^ 16 ≤ c.ver)).elim (BitVec.allOnes 64) (·.value) := by
  have hid : bitsOf w 15 0 = w.toNat % 2 ^ 16 := by unfold bitsOf; omega
  have hver : bitsOf w 23 16 = w.toNat / 2 ^ 16 := by unfold bitsOf; omega
  unfold State.capability State.capsOf pkgOf
  rw [hid, hver]
  split <;> rename_i hk <;> rw [hk] <;> rfl

/-! CFLUSH and CINV (R366). -/

/-- The line that CFLUSH and CINV name; none where its page is away. -/
theorem cacheLine_run {s : State} {a : XReg} {va ia : Nat} (he : s.cur.effective (s.arg a) 0 1 = .ok va)
    (hm : s.cur.mapVa .read va = .ok ia) : ∃ line, cacheLine a s = .ok line s := by
  unfold cacheLine
  simp only [readX_bind_run, x_eq]
  rw [op_bind_ok (effectiveVa_ok he (Nat.mod_one va))]
  simp only [get_bind_run, hm]
  cases (s.meet (ia / 128 * 128) .read s.cur.token).1 <;> exact ⟨_, rfl⟩

/-- An event is a change of the counters of the clusters alone, and looks at nothing else. -/
theorem event_eq (s : State) (cl src : Nat) : s.event cl src = { s with clusters := (s.event cl src).clusters } :=
  congrArg (fun t : State => { t with clusters := (s.event cl src).clusters }) (event_fields s cl src)

theorem event_clusters {s u : State} (h : u.clusters = s.clusters) (cl src : Nat) :
    (u.event cl src).clusters = (s.event cl src).clusters := by
  have hc : u.cluster cl = s.cluster cl := congrArg (fun t => tabGet _ t cl) h
  unfold State.event
  rw [hc]
  dsimp only
  split
  · exact congrArg (fun t => tabPut t cl _) h
  · exact h

theorem retired_fields (s : State) (len : Nat) :
    s.retired len = { s with cur := (s.retired len).cur, clusters := (s.retired len).clusters } := by
  rw [retired_eq]
  exact (event_eq ..).trans (congrArg (fun c => ({ s with cur := c, clusters := _ } : State)) (event_cur ..).symm)

theorem retired_others (s : State) (len : Nat) : (s.retired len).others = s.others :=
  (congrArg State.others (retired_fields s len) :)

theorem retired_mem (s : State) (len : Nat) : (s.retired len).mem = s.mem :=
  (congrArg State.mem (retired_fields s len) :)

theorem retired_core (s : State) (len k : Nat) : (s.retired len).core k = s.core k :=
  (congrArg (fun t : State => t.core k) (retired_fields s len) :)

theorem retired_reg (s : State) (len : Nat) : (s.retired len).cur.reg = s.cur.reg.step len := by
  rw [retired_eq, event_cur]

/-- What retirement changes depends on the context and the clusters alone. -/
theorem retired_congr {s u : State} (hcur : u.cur = s.cur) (h : u.clusters = s.clusters) (len : Nat) :
    u.retired len = { u with cur := (s.retired len).cur, clusters := (s.retired len).clusters } := by
  have hc : (u.retired len).cur = (s.retired len).cur := by
    rw [retired_eq, retired_eq, event_cur, event_cur, hcur]
  have hcl : (u.retired len).clusters = (s.retired len).clusters := by
    rw [retired_eq, retired_eq, hcur]
    exact event_clusters (by exact h) ..
  rw [← hc, ← hcl]
  exact retired_fields u len

theorem retired_withFlushes (s : State) (fl : List Flush) (len : Nat) :
    ({ s with flushes := fl } : State).retired len = { s.retired len with flushes := fl } :=
  (retired_congr (s := s) (u := { s with flushes := fl }) rfl rfl len).trans
    (congrArg (fun t : State => { t with flushes := fl }) (retired_fields s len)).symm

theorem retired_withOthers (s : State) (os : List Context) (len : Nat) :
    ({ s with others := os } : State).retired len = { s.retired len with others := os } :=
  (retired_congr (s := s) (u := { s with others := os }) rfl rfl len).trans
    (congrArg (fun t : State => { t with others := os }) (retired_fields s len)).symm

/-- CFLUSH retires and may note a flush. -/
theorem cflushOp_run {s : State} {a : XReg} {va ia : Nat} (h : Still s) (he : s.cur.effective (s.arg a) 0 1 = .ok va)
    (hm : s.cur.mapVa .read va = .ok ia) : ∃ fl, cflushOp a s = .ok ⟨⟩ (({ s with flushes := fl } : State).retired 4) := by
  obtain ⟨line, hline⟩ := cacheLine_run he hm
  unfold cflushOp
  rw [op_bind_ok hline]
  cases line with
  | none => exact ⟨s.flushes, rfl⟩
  | some p => exact ⟨_, op_bind_ok (settle_still _ _ h)⟩

theorem cflush_spec {s : State} {a : XReg} {va ia : Nat} (h : Still s) (he : s.cur.effective (s.arg a) 0 1 = .ok va)
    (hm : s.cur.mapVa .read va = .ok ia) :
    ∃ t, exec (.cflush a) s = .next t ∧ Finishes s { t with flushes := s.flushes } (s.cur.reg.step 4) := by
  obtain ⟨fl, hop⟩ := cflushOp_run h he hm
  refine ⟨_, (exec_cflush a s).trans (does_ok hop), ?_⟩
  rw [← retired_withFlushes]
  exact finishes_self s 4

/-- Reading a line anew changes only what a context has seen of it. -/
theorem unread_discard (s : State) (core line step : Nat) :
    let unread (c : Context) : Context := { c with order := { c.order with seen := [] } }
    (s.discard core line step).others.map unread = s.others.map unread := by
  intro unread
  unfold State.discard
  simp only [List.map_map]
  refine List.map_congr_left fun c _ => ?_
  simp only [Function.comp]
  split <;> rfl

theorem discard_cur (s : State) (core line step : Nat) :
    (s.discard core line step).cur = { s.cur with order := (s.discard core line step).cur.order } := by
  unfold State.discard
  dsimp only
  split <;> rfl

/-- CINV retires, with i = 1 after the core has given up its parcels of a line that is there. -/
theorem cinvOp_run {s : State} {a : XReg} {va ia : Nat} (b : Bool) (he : s.cur.effective (s.arg a) 0 1 = .ok va)
    (hm : s.cur.mapVa .read va = .ok ia) :
    cinvOp a b s = .ok ⟨⟩ (s.retired 4) ∨
      b = true ∧ ∃ core line step, cinvOp a b s = .ok ⟨⟩ ((s.discard core line step).retired 4) := by
  obtain ⟨line, hline⟩ := cacheLine_run he hm
  unfold cinvOp
  rw [op_bind_ok hline]
  cases line with
  | none => exact .inl rfl
  | some p =>
    cases b with
    | false => exact .inl rfl
    | true => exact .inr ⟨rfl, _, _, _, rfl⟩

theorem cinv_spec {s : State} {a : XReg} {va ia : Nat} (b : Bool) (he : s.cur.effective (s.arg a) 0 1 = .ok va)
    (hm : s.cur.mapVa .read va = .ok ia) :
    ∃ t, exec (.cinv a b) s = .next t ∧ Finishes s { t with others := s.others } (s.cur.reg.step 4) ∧
      (b = false → t.others = s.others) ∧
      let unread (c : Context) : Context := { c with order := { c.order with seen := [] } }
      t.others.map unread = s.others.map unread := by
  obtain hop | ⟨rfl, core, line, step, hop⟩ := cinvOp_run b he hm
  · have ho := retired_others s 4
    refine ⟨_, (exec_cinv ..).trans (does_ok hop), ?_, fun _ => ho, by rw [ho]⟩
    rw [← retired_withOthers]
    exact finishes_self s 4
  · have ho := retired_others (s.discard core line step) 4
    refine ⟨_, (exec_cinv ..).trans (does_ok hop), ?_, by simp, ho ▸ unread_discard s core line step⟩
    rw [← retired_withOthers]
    exact finishes_of 4 (discard_cur s core line step) (beside_cur s _)

theorem capabilities_and_caches : Claim.CapabilitiesAndCaches := by
  intro s d a
  refine ⟨fun h => ?_, fun va ia h he hm => ⟨cflush_spec h he hm, fun b => cinv_spec b he hm⟩⟩
  refine ⟨_, s.capability (s.arg a), (exec_capq d a s).trans (does_ok (capqOp_run h)), ?_, ?_⟩
  · rw [setX_eq]
    exact finishes_retired ..
  · rw [capability_eq s h]
    refine ⟨fun c hc => by rw [hc]; rfl, fun hnone => ?_⟩
    rw [List.find?_eq_none.mpr fun c hc => by simpa using hnone c hc]
    rfl

/-! AMAPW (R364). -/

theorem fromBytes_append (xs ys : List Byte) : fromBytes (xs ++ ys) = fromBytes xs + 256 ^ xs.length * fromBytes ys := by
  induction xs with
  | nil => simp [fromBytes]
  | cons x xs ih => simp only [List.cons_append, fromBytes, ih, List.length_cons]; ring

theorem bytesAt_length (s : State) (loc n : Nat) : (s.bytesAt loc n).length = n := by
  unfold State.bytesAt
  induction n generalizing loc with
  | zero => rfl
  | succ n ih => simp [cellsGet, ih]

/-- Reads that change nothing, one after another. -/
theorem flatMapM_run {α β : Type} {f : α → Op (List β)} {g : α → List β} {s : State} (l : List α)
    (h : ∀ a ∈ l, f a s = .ok (g a) s) : l.flatMapM f s = .ok (l.flatMap g) s := by
  have key : ∀ (l : List α) (acc : List (List β)), (∀ a ∈ l, f a s = .ok (g a) s) →
      List.flatMapM.loop f l acc s = .ok (acc.reverse.flatten ++ l.flatMap g) s := by
    intro l
    induction l with
    | nil => intro acc _; simp [List.flatMapM.loop]
    | cons a l ih =>
      intro acc h
      unfold List.flatMapM.loop
      rw [op_bind_ok (h a (by simp)), ih _ fun b hb => h b (by simp [hb])]
      simp
  exact key l [] h

/-- The block of AMAPW: its first two words are the image, and byte 16 is the target where the rest is zero. -/
theorem block_fields {b0 b1 b2 b3 : List Byte} (h0 : b0.length = 8) (h1 : b1.length = 8) (h2 : b2.length = 8)
    (ht : fromBytes b2 ≤ 8) (h3 : fromBytes b3 = 0) :
    let bs := b0 ++ (b1 ++ (b2 ++ b3))
    fromBytes (bs.take 16) = fromBytes b0 + fromBytes b1 * 2 ^ 64 ∧ fromBytes ((bs.drop 16).take 1) = fromBytes b2 ∧
      fromBytes (bs.drop 17) = 0 := by
  intro bs
  obtain ⟨x, xs, rfl⟩ := List.exists_cons_of_length_eq_add_one h2
  have hbs : bs = (b0 ++ b1) ++ (x :: (xs ++ b3)) := by simp [bs]
  have hlen : (b0 ++ b1).length = 16 := by simp [h0, h1]
  have hrest : fromBytes xs = 0 := by simp only [fromBytes] at ht; omega
  rw [hbs, List.take_left' hlen, List.drop_left' hlen, ← List.drop_drop (i := 1) (j := 16), List.drop_left' hlen]
  refine ⟨by rw [fromBytes_append, h0]; ring, by simp [fromBytes, hrest], ?_⟩
  simp [fromBytes_append, hrest, h3]

theorem amapwOp_run {s : State} {n : Fin 8} {a : XReg} {va : Nat} {ia loc : Nat → Nat} (hs : s.cur.id.sup = true)
    (h : Still s) (he : s.cur.effective (s.arg a) 0 32 = .ok va) (hal : va % 32 = 0)
    (hr : ∀ k, k < 4 → Reaches s .read (va + 8 * k) (ia k) (loc k) ∧ s.poisoned (loc k) 8 = false)
    (ht : fromBytes (s.bytesAt (loc 2) 8) ≤ 8) (h3 : fromBytes (s.bytesAt (loc 3) 8) = 0) :
    amapwOp n a s = .ok ⟨⟩ ((s.writeRange (fromBytes (s.bytesAt (loc 2) 8)) n (rangeImage (BitVec.ofNat 128
      (fromBytes (s.bytesAt (loc 0) 8) + fromBytes (s.bytesAt (loc 1) 8) * 2 ^ 64)))).retired 4) := by
  have hread := flatMapM_run (s := s) (f := fun k => do readSpot (← mapSpot (va + 8 * k) .read false) 8)
    (g := fun k => s.bytesAt (loc k) 8) (List.range 4) fun k hk => by
      obtain ⟨hreach, hpoison⟩ := hr k (List.mem_range.mp hk)
      rw [op_bind_ok (mapSpot_reaches false hreach h.2.1)]
      exact readSpot_ok h hreach hpoison
  have hb := block_fields (bytesAt_length s (loc 0) 8) (bytesAt_length s (loc 1) 8) (bytesAt_length s (loc 2) 8) ht h3
  have hlist : (List.range 4).flatMap (fun k => s.bytesAt (loc k) 8) =
      s.bytesAt (loc 0) 8 ++ (s.bytesAt (loc 1) 8 ++ (s.bytesAt (loc 2) 8 ++ s.bytesAt (loc 3) 8)) := by
    simp [List.range, List.range.loop]
  obtain ⟨himage, htarget, hzero⟩ := hb
  unfold amapwOp
  simp only [privileged_bind_run, hs, if_true, readX_bind_run, x_eq]
  rw [op_bind_ok (effectiveVa_ok he hal), op_bind_ok hread, hlist]
  simp only [need_bind_run, himage, htarget, hzero, ht, decide_true, Bool.and_self, if_true, modify_bind_run, retires_run]

/-- A context beside the one whose turn it is, changed. -/
theorem mapCtx_other {s : State} {uid : Nat} (hu : uid ≠ s.cur.id.uid) (hl : ∀ o ∈ s.others, o.sched.place ≠ .ended)
    (f : Context → Context) :
    s.mapCtx uid f = { s with others := s.others.map (fun c => if c.id.uid = uid then f c else c) } := by
  have hothers : s.others.map (fun c => if c.id.uid = uid && c.live then f c else c) =
      s.others.map (fun c => if c.id.uid = uid then f c else c) :=
    List.map_congr_left fun c hc => by simp [Context.live, hl c hc]
  unfold State.mapCtx State.mapAll
  simp only [hothers, hu.symm, decide_false, Bool.false_and, Bool.false_eq_true, if_false]

theorem alters_retired {s : State} {uid : Nat} (hu : uid ≠ s.cur.id.uid) (hl : ∀ o ∈ s.others, o.sched.place ≠ .ended)
    (f : Context → Context) : Alters s ((s.mapCtx uid f).retired 4) uid f := by
  obtain ⟨hret, hbeside, hcount⟩ := finishes_self s 4
  rw [mapCtx_other hu hl, retired_withOthers]
  exact ⟨hret, congrArg (fun t : State => { t with others := s.others }) hbeside, hcount, rfl⟩

theorem writeRange_parked {s : State} {target : Nat} {c : Context} (ht : target < 7)
    (hp : s.parkedIn s.cur.id.core target = some c) (hc : c.sched.place = .slot) (n : Fin 8) (v : BitVec 128) :
    s.writeRange target n v = s.mapCtx c.id.uid (fun c => c.setRange n v) := by
  unfold State.writeRange
  simp only [hp, if_neg (by omega : ¬target = 8), if_neg (by omega : ¬target = 7), Context.resident, hc]
  simp

theorem writeRange_empty {s : State} {target : Nat} (ht : target < 7) (hp : s.parkedIn s.cur.id.core target = none)
    (n : Fin 8) (v : BitVec 128) : s.writeRange target n v = s := by
  unfold State.writeRange
  simp only [hp, if_neg (by omega : ¬target = 8), if_neg (by omega : ¬target = 7)]

theorem range_writes : Claim.RangeWrites := by
  intro s n a va ia loc hs h he hal hr word core image ht h3
  have hexec : exec (.amapw n a) s = .next ((s.writeRange (word 2) n image).retired 4) :=
    (exec_amapw n a s).trans <| does_ok (amapwOp_run hs h.1 he hal hr ht h3)
  rw [hexec]
  refine ⟨fun h7 => ⟨_, rfl, ?_⟩, fun _ => ⟨_, rfl, finishes_self _ 4⟩, fun h8 => ⟨_, rfl, ?_⟩,
    fun hlt hnone => ⟨_, rfl, ?_⟩, fun c hlt hp hc hu _ hl => ⟨_, rfl, ?_⟩⟩
  · rw [h7]
    exact finishes_retired s _ 4
  · rw [h8]
    exact finishes_self _ 4
  · rw [writeRange_empty hlt hnone]
    exact finishes_self s 4
  · rw [writeRange_parked hlt hp hc]
    exact alters_retired hu hl _

/-! TLBINV (R365). -/

theorem tlbinvOp_run {s : State} {a : XReg} (hs : s.cur.id.sup = true) (h : Still s) (hk : (s.arg a).toNat % 16 ≤ 4)
    (hz : (s.arg a).toNat / 16 % 2 ^ 11 = 0) (hw : (s.arg a).toNat < 2 ^ 56)
    (hp : s.whereIs ((s.arg a).toNat / 2 ^ 15 * 2 ^ 15) = .pageable) : tlbinvOp a s = .ok ⟨⟩
      (((s.released 6).tlbDone ((s.arg a).toNat / 2 ^ 15 * 2 ^ 15) ((s.arg a).toNat % 16)).retired 4) := by
  have hkind : bitsOf (s.arg a) 3 0 = (s.arg a).toNat % 16 := by unfold bitsOf; omega
  have hhigh : bitsOf (s.arg a) 63 56 = 0 := by unfold bitsOf; omega
  have hlow : bitsOf (s.arg a) 14 4 = 0 := by unfold bitsOf; omega
  have hpage : bitsOf (s.arg a) 55 15 = (s.arg a).toNat / 2 ^ 15 := by unfold bitsOf; omega
  unfold tlbinvOp
  simp only [privileged_bind_run, hs, if_true, readX_bind_run, x_eq, need_bind_run, hkind, hhigh, hlow, hk, decide_true,
    Bool.and_self, get_bind_run, hpage, State.pageable, hp, Bool.not_true, Bool.false_eq_true, if_false]
  rw [op_bind_ok (releaseSystem_still h)]
  rfl

/-- Where no region is live, no object watched and no write of a ferry still to come, an invalidation has nothing to do. -/
theorem tlbDone_idle {s : State} (hr : ∀ c ∈ s.contexts, c.sync.region = none) (ho : s.objects = [])
    (hf : ∀ f ∈ s.ferry, f.tail = []) (ia kind : Nat) : s.tlbDone ia kind = s := by
  have hregions : s.regions = [] := by
    unfold State.regions
    rw [List.map_eq_nil_iff, List.filter_eq_nil_iff]
    intro c hc
    simp [hr c hc]
  have hflush (lo hi : Nat) : s.flushTails lo hi = s := by
    unfold State.flushTails
    exact if_pos (List.all_eq_true.mpr fun f hmem => by simp [hf f hmem])
  unfold State.tlbDone State.goneIn
  simp [hregions, hflush, ho]

theorem translation_invalidates : Claim.TranslationInvalidates := by
  intro s a hs h w hk hz hw hp
  have hop := tlbinvOp_run hs h hk hz hw hp
  have hexec := (exec_tlbinv a s).trans (does_ok hop)
  refine ⟨⟨_, hexec, finishes_self _ 4⟩, fun hr ho hf => ⟨_, hexec, ?_⟩⟩
  rw [tlbDone_idle (s := s.released 6) ?_ ho hf]
  · exact finishes_self (s.released 6) 4
  · intro c hc
    rcases List.mem_cons.mp hc with rfl | hc
    · exact h.2.1
    · exact hr c (List.mem_cons_of_mem _ hc)

/-- Settles O25: each instruction's action is run to its end, and what it leaves beside retirement is compared. -/
theorem addressSystem : Obligations.AddressSystem := ⟨capabilities_and_caches, range_writes, translation_invalidates⟩

end Sys2Proof.Machine
end


section
/-! PROOF. ERET (O23). -/

namespace Sys2Proof.Machine

theorem exec_eret (s : State) : exec .eret s = s.does eretOp := rfl

theorem eretOp_user {s : State} (h : s.cur.id.sup = false) : eretOp s = eretUser s := by
  unfold eretOp
  simp only [self_bind_run, h]
  rfl

theorem eretOp_supervisor {s : State} (h : s.cur.id.sup = true) : eretOp s = eretSupervisor s := by
  unfold eretOp
  simp only [self_bind_run, h]
  rfl

/-! The end of an emulation (R354). -/

/-- The instruction behind the emulated one. -/
def Regs.behindEmulated (r : Regs) : Word := r.epcx + (if r.ecause.getLsbD 11 then 8 else 4)

theorem clearDepth_eq (w : Word) :
    setBits w 13 12 0 = w.extractLsb' 14 50 ++ (0 : BitVec 2) ++ w.extractLsb' 0 12 := by
  have hw := w.isLt
  apply BitVec.eq_of_toNat_eq
  rw [toNat_setBits]
  simp only [toNat_append_eq_add, toNat_extract, BitVec.ofNat_eq_ofNat, BitVec.toNat_zero]
  omega

/-- The checks of ERET in a user context, in their order, and what it does once they have passed. -/
theorem eretUser_run (s : State) : eretUser s =
    if s.cur.reg.edepth ≠ 1 then .error (.trap 0x07 (some (BitVec.ofNat 64 s.draw.1))) s.draw.2
    else if s.cur.reg.behindEmulated.toNat % 4 ≠ 0 then
      .error (.trap 0x04 (some (BitVec.ofNat 64 s.cur.reg.behindEmulated.toNat))) s
    else if 2 ^ 60 ≤ s.cur.reg.behindEmulated.toNat then
      .error (.trap 0x05 (some (BitVec.ofNat 64 s.cur.reg.behindEmulated.toNat))) s
    else .ok ⟨⟩ (({ s with cur := { s.cur with
      reg := { s.cur.reg with edepth := 0, ecause := setBits s.cur.reg.ecause 13 12 0 } } } : State).goto
        s.cur.reg.behindEmulated) := by
  have htarget : s.cur.reg.epcx + (if s.cur.reg.ecause.getLsbD 11 then 8 else 4) = s.cur.reg.behindEmulated := rfl
  unfold eretUser
  simp only [self_bind_run, bne_iff_ne, htarget]
  split
  · rfl
  · split
    · rfl
    · split <;> rfl

/-- Drawing a free value leaves a context that is ready for a trap so. -/
theorem TrapReady.draw {s : State} (h : TrapReady s) : TrapReady s.draw.2 := h

theorem emulation_return : Claim.EmulationReturn := by
  intro s hs r target
  have hpass (hd : r.edepth = 1) : ¬s.cur.reg.edepth ≠ 1 := not_not.mpr hd
  have haligned (ha : target.toNat % 4 = 0) : ¬s.cur.reg.behindEmulated.toNat % 4 ≠ 0 := not_not.mpr ha
  have hbelow (hl : target.toNat < 2 ^ 60) : ¬2 ^ 60 ≤ s.cur.reg.behindEmulated.toNat := Nat.not_le.mpr hl
  have hword : BitVec.ofNat 64 target.toNat = target := BitVec.ofNat_toNat .. |>.trans (BitVec.setWidth_eq _)
  have hrun := (eretOp_user hs).trans (eretUser_run s)
  refine ⟨fun hd ha hl => ?_, fun hd ht ha => ?_, fun hd ht ha hl => ?_, fun hd ht => ?_⟩
  · rw [if_neg (hpass hd), if_neg (haligned ha), if_neg (hbelow hl)] at hrun
    refine ⟨_, does_ok hrun, ?_⟩
    rw [← clearDepth_eq]
    exact finishes_goto s { r with edepth := 0, ecause := setBits r.ecause 13 12 0 } target
  · rw [if_neg (hpass hd), if_pos (show s.cur.reg.behindEmulated.toNat % 4 ≠ 0 from ha)] at hrun
    have htraps := does_traps ht (by decide) hrun
    rw [hd] at htraps
    exact hword ▸ htraps
  · rw [if_neg (hpass hd), if_neg (haligned ha), if_pos (show 2 ^ 60 ≤ s.cur.reg.behindEmulated.toNat from hl)] at hrun
    have htraps := does_traps ht (by decide) hrun
    rw [hd] at htraps
    exact hword ▸ htraps
  · rw [if_pos hd] at hrun
    exact ⟨_, _, does_error hrun, deliverTrap_spec ht.draw 7 _ .device (by decide) (.inl (by decide))⟩

/-! The supervisor takes its next record (R346, R348). -/

/-- Every context is found under its number after one has changed but for its number and its place. -/
theorem ctx_mapCtx_placed (s : State) (uid n : Nat) (f : Context → Context)
    (hf : ∀ c, (f c).id = c.id ∧ (f c).sched.place = c.sched.place) :
    (s.mapCtx uid f).ctx n = (s.ctx n).map (fun c => if c.id.uid = uid && c.live then f c else c) := by
  have hp : (fun c : Context => decide (c.id.uid = n) && c.live) ∘
      (fun c => if c.id.uid = uid && c.live then f c else c) = fun c => decide (c.id.uid = n) && c.live := by
    funext c
    simp only [Function.comp]
    split
    · simp only [Context.live, (hf c).1, (hf c).2]
    · rfl
  unfold State.ctx
  rw [contexts_mapCtx, List.find?_map, hp]

/-- A context whose trap the supervisor serves runs on, and acquires. -/
def Context.resumedAt (now : Nat) (c : Context) : Context :=
  { c with sched := { c.sched with parked := false }, order := { c.order with acquired := now } }

theorem ctx_other {s : State} {uid : Nat} (h : uid ≠ s.cur.id.uid) :
    s.ctx uid = s.others.find? (fun c => c.id.uid = uid && c.live) := by
  unfold State.ctx State.contexts
  exact List.find?_cons_of_neg (by simp [h.symm])

/-- The machine of a supervisor that has released and disposed of the record it served. -/
def State.disposed (s : State) : State := (s.released 6).dispose.setReg (fun g => { g with ecause := 0 })

/-- What disposing of a record leaves to the supervisor that takes the next one: its registers and its queue, the others,
memory, and no record served. -/
structure Disposed (s u : State) (others : List Context) : Prop where
  reg : u.cur.reg = { s.cur.reg with ecause := 0 }
  id : u.cur.id = s.cur.id
  core : u.core s.cur.id.core = { s.core s.cur.id.core with serving := none }
  mem : u.mem = s.mem
  others : u.others = others

theorem dispose_unserved {s : State} (h : (s.core s.cur.id.core).serving = none) :
    s.dispose = s.setCore s.cur.id.core { s.core s.cur.id.core with serving := none } := by
  unfold State.dispose
  simp only [h]

theorem dispose_resumes {s : State} {c : Context} (hserve : (s.core s.cur.id.core).serving = some c.id.uid)
    (hc : s.ctx c.id.uid = some c) (hp : c.sched.parked = true) (hcause : s.cur.reg.ecause.extractLsb' 0 8 ≠ 0)
    (hdisp : s.cur.reg.ecause.extractLsb' 16 2 = 0) :
    s.dispose = (s.setCore s.cur.id.core { s.core s.cur.id.core with serving := none }).mapCtx c.id.uid
      (Context.resumedAt s.now) := by
  have hctx : (s.setCore s.cur.id.core { s.core s.cur.id.core with serving := none }).ctx c.id.uid = some c := hc
  have h0 : bitsOf s.cur.reg.ecause 7 0 ≠ 0 := by
    rw [← BitVec.toNat_inj.ne, toNat_extract] at hcause
    exact hcause
  have h17 : bitsOf s.cur.reg.ecause 17 16 = 0 := by
    rw [← BitVec.toNat_inj, toNat_extract] at hdisp
    exact hdisp
  unfold State.dispose
  simp only [hserve, hctx, h0, hp, h17]
  rfl

/-- The registers that the supervisor takes from a record for information only, or from the parked context of a record. -/
def TakenFrom (s : State) (r : TrapRec) (ec epcx eaddr : Word) : Prop :=
  (r.info = true ∧ ec = r.ecause ∧ epcx = r.epcx ∧ eaddr = r.eaddr) ∨
    (r.info = false ∧ r.uid ≠ s.cur.id.uid ∧ ∃ c, s.ctx r.uid = some c ∧ c.sched.place = .slot ∧
      ec = c.reg.ecause ∧ epcx = c.reg.epcx ∧ eaddr = c.reg.eaddr)

/-- A resident context's registers are read where they stand. -/
theorem parkedSys_resident (s : State) {c : Context} (h : c.sched.place = .slot) : s.parkedSys c 0x0F = c.reg.ecause ∧
    s.parkedSys c 0x10 = c.reg.epcx ∧ s.parkedSys c 0x11 = c.reg.eaddr := by
  have hr : c.resident = true := decide_eq_true h
  unfold State.parkedSys State.sysOf sysOwned
  simp [hr]

/-- The supervisor's machine once it has taken a record, with the registers that it gets. -/
def State.took (s : State) (r : TrapRec) (rest : List TrapRec) (ecause epcx eaddr : Word) : State :=
  (s.setCore s.cur.id.core { s.core s.cur.id.core with
    traps := rest, serving := if r.info then none else some r.uid }).setReg
    (fun g => { g with ecause := ecause, epcx := epcx, eaddr := eaddr })

theorem took_core (s : State) (r : TrapRec) (rest : List TrapRec) (ecause epcx eaddr : Word) :
    (s.took r rest ecause epcx eaddr).core s.cur.id.core = { s.core s.cur.id.core with
      traps := rest, serving := if r.info then none else some r.uid } :=
  (core_setCore ..).trans (if_pos rfl)

theorem took_reg (s : State) (r : TrapRec) (rest : List TrapRec) (ecause epcx eaddr : Word) :
    (s.took r rest ecause epcx eaddr).cur.reg =
      { s.cur.reg with ecause := ecause, epcx := epcx, eaddr := eaddr } := rfl

theorem took_mem (s : State) (r : TrapRec) (rest : List TrapRec) (ecause epcx eaddr : Word) :
    (s.took r rest ecause epcx eaddr).mem = s.mem := rfl

theorem took_others (s : State) (r : TrapRec) (rest : List TrapRec) (ecause epcx eaddr : Word) :
    (s.took r rest ecause epcx eaddr).others = s.others := rfl

theorem takeRecord_eq {s : State} {r : TrapRec} {rest : List TrapRec} {ec epcx eaddr : Word}
    (h : TakenFrom s r ec epcx eaddr) : s.takeRecord r rest = s.took r rest (setBits ec 23 20 rest.length) epcx eaddr := by
  unfold State.takeRecord
  obtain ⟨hi, rfl, rfl, rfl⟩ | ⟨hi, -, c, hc, hplace, rfl, rfl, rfl⟩ := h
  · simp only [hi, State.took, if_true]
    split <;> rfl
  · have hctx (v : CoreSt) : (s.setCore s.cur.id.core v).ctx r.uid = some c := hc
    have hr : c.resident = true := decide_eq_true hplace
    obtain ⟨hecause, hepcx, headdr⟩ := parkedSys_resident (s.setCore s.cur.id.core { s.core s.cur.id.core with
      traps := rest, serving := some r.uid }) hplace
    simp only [hi, Bool.false_eq_true, if_false, hctx, hecause, hepcx, headdr, State.frameRead, hr, if_true, State.took]

theorem ctx_of_others {s u : State} {n : Nat} (hid : u.cur.id = s.cur.id) (ho : u.others = s.others)
    (hn : n ≠ s.cur.id.uid) : u.ctx n = s.ctx n := by
  rw [ctx_other hn, ctx_other (by rwa [hid]), ho]

theorem TakenFrom.of_ctx {s u : State} {r : TrapRec} {ec epcx eaddr : Word} (h : TakenFrom s r ec epcx eaddr)
    (hid : u.cur.id = s.cur.id) (hctx : r.uid ≠ s.cur.id.uid → ∀ c, s.ctx r.uid = some c →
      ∃ d, u.ctx r.uid = some d ∧ d.reg = c.reg ∧ d.sched.place = c.sched.place) : TakenFrom u r ec epcx eaddr := by
  refine h.imp_right ?_
  rintro ⟨hi, hn, c, hc, hplace, rfl, rfl, rfl⟩
  obtain ⟨d, hd, hreg, hdplace⟩ := hctx hn c hc
  exact ⟨hi, hid ▸ hn, d, hd, hdplace.trans hplace, by rw [hreg], by rw [hreg], by rw [hreg]⟩

theorem mapCtx_other_cur {s : State} {uid : Nat} (h : uid ≠ s.cur.id.uid) (f : Context → Context) :
    (s.mapCtx uid f).cur = s.cur :=
  if_neg (by simp [h.symm])

theorem eretSupervisor_takes {s : State} {r : TrapRec} {rest : List TrapRec} (h : Still s)
    (hq : (s.disposed.core s.disposed.cur.id.core).traps = r :: rest) :
    eretSupervisor s = .ok ⟨⟩ ((s.disposed.takeRecord r rest).retired 4) := by
  have hd : (s.released 6).dispose.setReg (fun g => { g with ecause := 0 }) = s.disposed := rfl
  unfold eretSupervisor
  rw [op_bind_ok (releaseSystem_still h)]
  simp only [modify_bind_run, get_bind_run, hd, hq, set_bind_run, retires_run]

/-- The supervisor, with its last record disposed of, takes the next one. -/
theorem supervisor_takes {s : State} {r : TrapRec} {rest : List TrapRec} {ec epcx eaddr : Word} {os : List Context}
    (hs : s.cur.id.sup = true) (h : Still s) (hq : (s.core s.cur.id.core).traps = r :: rest)
    (hu : Disposed s s.disposed os) (htake : TakenFrom s.disposed r ec epcx eaddr) :
    ∃ t, exec .eret s = .next t ∧
      t.cur.reg = ({ s.cur.reg with
        ecause := setBits ec 23 20 rest.length, epcx := epcx, eaddr := eaddr } : Regs).step 4 ∧
      (t.core s.cur.id.core).traps = rest ∧
      (t.core s.cur.id.core).serving = (if r.info then none else some r.uid) ∧ t.mem = s.mem ∧ t.others = os := by
  obtain ⟨hreg, hid, hcore, hmem, hothers⟩ := hu
  have hrun := eretSupervisor_takes h (r := r) (rest := rest) (by rw [hid, hcore]; exact hq)
  rw [takeRecord_eq htake] at hrun
  refine ⟨_, (exec_eret s).trans (does_ok ((eretOp_supervisor hs).trans hrun)), ?_⟩
  have hcore' := hid ▸ took_core s.disposed r rest (setBits ec 23 20 rest.length) epcx eaddr
  rw [retired_reg, retired_core, retired_mem, retired_others, took_reg, hcore', took_mem, took_others, hreg, hmem, hothers]
  exact ⟨rfl, rfl, rfl, rfl, rfl⟩

theorem disposed_unserved {s : State} (h : (s.core s.cur.id.core).serving = none) :
    Disposed s s.disposed s.others := by
  unfold State.disposed
  rw [dispose_unserved (s := s.released 6) h]
  exact ⟨rfl, rfl, (core_setCore ..).trans (if_pos rfl), rfl, rfl⟩

theorem disposed_resumed {s : State} {c : Context} (hserve : (s.core s.cur.id.core).serving = some c.id.uid)
    (hc : s.ctx c.id.uid = some c) (hn : c.id.uid ≠ s.cur.id.uid) (hp : c.sched.parked = true)
    (hcause : s.cur.reg.ecause.extractLsb' 0 8 ≠ 0) (hdisp : s.cur.reg.ecause.extractLsb' 16 2 = 0) :
    Disposed s s.disposed (s.mapCtx c.id.uid (Context.resumedAt s.now)).others := by
  unfold State.disposed
  have hctx : (s.released 6).ctx c.id.uid = some c := (ctx_of_others (s := s) (u := s.released 6) rfl rfl hn).trans hc
  rw [dispose_resumes (s := s.released 6) hserve hctx hp hcause hdisp]
  have hcur := mapCtx_other_cur (s := (s.released 6).setCore s.cur.id.core { s.core s.cur.id.core with serving := none })
    hn (Context.resumedAt s.now)
  exact ⟨congrArg (fun c => ({ c.reg with ecause := 0 } : Regs)) hcur, congrArg (·.id) hcur,
    (core_setCore ..).trans (if_pos rfl), rfl, rfl⟩

theorem supervisor_return : Claim.SupervisorReturn := by
  intro s r rest ec epcx eaddr hs h _ hq htake count finish
  refine ⟨fun hnone => ?_, fun c hserve hc hn hp hcause hdisp => ?_⟩
  · have hu := disposed_unserved hnone
    refine supervisor_takes hs h hq hu (TakenFrom.of_ctx htake hu.id fun hr d hd => ⟨d, ?_, rfl, rfl⟩)
    exact (ctx_of_others hu.id hu.others hr).trans hd
  · have hu := disposed_resumed hserve hc hn hp hcause hdisp
    refine supervisor_takes hs h hq hu (TakenFrom.of_ctx htake hu.id fun hr d hd => ?_)
    have hcur := mapCtx_other_cur hn (Context.resumedAt s.now)
    have hmap := ctx_mapCtx_placed s c.id.uid r.uid (Context.resumedAt s.now) fun _ => ⟨rfl, rfl⟩
    have hsame : s.disposed.ctx r.uid = (s.mapCtx c.id.uid (Context.resumedAt s.now)).ctx r.uid :=
      ctx_of_others (by rw [hcur]; exact hu.id) hu.others (by rw [hcur]; exact hr)
    rw [hsame, hmap, hd]
    exact ⟨_, rfl, by dsimp only; split <;> rfl, by dsimp only; split <;> rfl⟩

/-- Settles O23: ERET ends an emulation behind the checks of its target, and in the supervisor disposes of one record and
takes the next. -/
theorem trapReturns : Obligations.TrapReturns := ⟨emulation_return, supervisor_return⟩

end Sys2Proof.Machine
end


section
/-! PROOF. LD.D and ST.D of control-block registers (O14). -/

namespace Sys2Proof.Machine

/-! The bits of a register that software writes (R7, R8, R184). -/

/-- The ones of a mask among 64 bits are the bits of some fields, each given by its highest and its lowest bit. -/
abbrev Masks (mask : Nat) (fields : List (Nat × Nat)) : Prop :=
  ∀ k, k < 64 → mask.testBit k = decide (∃ p ∈ fields, p.2 ≤ k ∧ k ≤ p.1)

theorem Masks.ite {c d : Prop} [Decidable c] [Decidable d] {a b : Nat} {l l' : List (Nat × Nat)} (hcd : c ↔ d)
    (h : Masks a l) (h' : Masks b l') : Masks (if c then a else b) (if d then l else l') := by
  by_cases hc : c
  · rwa [if_pos hc, if_pos (hcd.mp hc)]
  · rwa [if_neg hc, if_neg (mt hcd.mpr hc)]

/-- A write of a register that holds what it was given stores the bits that software writes. -/
theorem masks_ctlRw {reg : Nat} (h : PlainRegister reg) : Masks (ctlRw reg) (softwareBits reg) := by
  have h740 : reg ≠ 0x740 := fun e => h.1 (by simp [e])
  unfold ctlRw softwareBits
  refine .ite Iff.rfl (by decide) (.ite Iff.rfl (by decide) (.ite (by simp [or_assoc]) (by decide)
    (.ite (by simp [or_assoc]) (by decide) (.ite Iff.rfl (by decide) (.ite Iff.rfl (by decide)
    (.ite Iff.rfl (by decide) ?_))))))
  by_cases hring : 0x100 ≤ reg ∧ reg < 0x500
  · have hupper : ¬(0x500 ≤ reg ∧ reg < 0x700) ∧ ¬(0x700 ≤ reg ∧ reg < 0x740) ∧ ¬(0x780 ≤ reg ∧ reg < 0x7C0) ∧
        ¬0x800 ≤ reg := by omega
    obtain ⟨h5, h7, h78, h8⟩ := hupper
    simp only [hring.1, hring.2, decide_true, Bool.and_self, if_true, true_and, h5, h7, h78, h8, if_false]
    exact .ite Iff.rfl (by decide) (.ite Iff.rfl (by decide) (.ite Iff.rfl (by decide) (by decide)))
  · have hnot (c : Prop) : ¬(0x100 ≤ reg ∧ reg < 0x500 ∧ c) := fun hc => hring ⟨hc.1, hc.2.1⟩
    rw [if_neg (by simpa using hring), if_neg (hnot _), if_neg (hnot _), if_neg (hnot _)]
    have hcurve : (0x700 ≤ reg && reg ≤ 0x740) = true ↔ 0x700 ≤ reg ∧ reg < 0x740 := by
      simp only [Bool.and_eq_true, decide_eq_true_eq]
      omega
    exact .ite (by simp) (.ite Iff.rfl (by decide) (by decide)) (.ite hcurve (by decide) (.ite (by simp) (by decide)
      (.ite Iff.rfl (.ite Iff.rfl (by decide) (by decide)) (by decide))))

/-- Only MCCTL.DROPPED is cleared by ones. -/
theorem masks_ctlW1c (reg : Nat) : Masks (ctlW1c reg) (if reg = 0x078 then [(47, 32)] else []) :=
  .ite Iff.rfl (by decide) (by decide)

/-- No bit that software writes is one that is cleared by ones. -/
theorem softwareBits_mcctl (k : Nat) (h : 32 ≤ k ∧ k < 48) : ¬∃ p ∈ softwareBits 0x078, p.2 ≤ k ∧ k ≤ p.1 := by
  have hbits : softwareBits 0x078 = [(63, 48), (31, 16)] := rfl
  simp only [hbits, List.mem_cons, List.not_mem_nil, or_false, exists_eq_or_imp, exists_eq_left]
  omega

/-- What a write leaves of a register that holds what it was given. -/
def ctlWritten (old w : Word) (reg : Nat) : Word :=
  ctlMerged old w reg &&& ~~~(w &&& BitVec.ofNat 64 (ctlW1c reg))

theorem ctlWritten_bit {reg k : Nat} (old w : Word) (hp : PlainRegister reg) (hk : k < 64) :
    (ctlWritten old w reg).getLsbD k =
      if ∃ p ∈ softwareBits reg, p.2 ≤ k ∧ k ≤ p.1 then w.getLsbD k
      else if reg = 0x078 ∧ 32 ≤ k ∧ k < 48 ∧ w.getLsbD k = true then false
      else old.getLsbD k := by
  have hw1c : (ctlW1c reg).testBit k = decide (reg = 0x078 ∧ 32 ≤ k ∧ k < 48) := by
    rw [masks_ctlW1c reg k hk]
    refine decide_eq_decide.mpr ?_
    by_cases hreg : reg = 0x078
    · simp [hreg]
      omega
    · simp [hreg]
  unfold ctlWritten ctlMerged
  simp only [BitVec.getLsbD_and, BitVec.getLsbD_or, BitVec.getLsbD_not, BitVec.getLsbD_ofNat, hk, decide_true,
    Bool.true_and, masks_ctlRw hp k hk, hw1c]
  by_cases hsoft : ∃ p ∈ softwareBits reg, p.2 ≤ k ∧ k ≤ p.1
  · have hnot : ¬(reg = 0x078 ∧ 32 ≤ k ∧ k < 48) := by
      rintro ⟨rfl, hbits⟩
      exact softwareBits_mcctl k hbits hsoft
    rw [if_pos hsoft, decide_eq_true hsoft, decide_eq_false hnot]
    simp
  · rw [if_neg hsoft, decide_eq_false hsoft]
    by_cases hclear : reg = 0x078 ∧ 32 ≤ k ∧ k < 48
    · rw [decide_eq_true hclear]
      obtain ⟨hreg, hlo, hhi⟩ := hclear
      cases hb : w.getLsbD k <;> simp [hreg, hlo, hhi]
    · rw [decide_eq_false hclear, if_neg fun ⟨hreg, hlo, hhi, _⟩ => hclear ⟨hreg, hlo, hhi⟩]
      simp

/-! A write of a register (R184). -/

theorem ctlWritten_readOnly {reg : Nat} (old w : Word) (hp : PlainRegister reg) (h : ctlRw reg = 0) :
    ctlWritten old w reg = old := by
  have hne : reg ≠ 0x078 := by
    rintro rfl
    exact absurd h (by decide)
  unfold ctlWritten ctlMerged
  rw [and_not_ctlW1c _ _ hne, h, BitVec.and_zero, BitVec.or_zero]
  exact BitVec.and_allOnes

theorem flushEnergy_none {s : State} {die : Nat} (h : (s.die die).energyWait = []) (n : Nat) : s.flushEnergy n die = s := by
  cases n with
  | zero => rfl
  | succ n => simp only [State.flushEnergy, h]

/-- A write of a register that holds what it was given, where no energy record waits for room in its ring. -/
theorem regWrite_get {s : State} {die reg core : Nat} (w : Word) (hp : PlainRegister reg)
    (he : reg = 0x0A0 → (s.die die).energyWait = []) :
    (s.regWrite die reg core w).ctlGet die reg = ctlWritten (s.ctlGet die reg) w reg := by
  have hset : (s.ctlSet die reg (ctlWritten (s.ctlGet die reg) w reg)).ctlGet die reg = ctlWritten (s.ctlGet die reg) w reg :=
    (ctlGet_ctlSet ..).trans (if_pos rfl)
  have hplain := hp.1
  simp only [List.mem_cons, List.not_mem_nil, or_false, not_or] at hplain
  obtain ⟨h50, h58, h60, h80, h88, h90, ha8, h740, h748⟩ := hplain
  unfold State.regWrite
  simp only [h50, h58, h80, h88, h90, h740, if_false]
  split
  · exact (ctlWritten_readOnly _ _ hp ‹_›).symm
  · split
    · split <;> exact hset
    · split
      · have hnone : ((s.ctlSet die reg (ctlWritten (s.ctlGet die reg) w reg)).die die).energyWait = [] := he ‹_›
        exact (congrArg (fun t : State => t.ctlGet die reg) (flushEnergy_none hnone _)).trans hset
      · exact hset

/-! Registers of a control block as addresses (R177). -/

theorem effective_below {s : State} {base : Word} {off : Int} {n va : Nat} (hs : s.cur.id.sup = true)
    (h : s.cur.effective base off n = .ok va) : va < 2 ^ 60 := by
  rw [effective_address _ _ _ _ (.inr hs)] at h
  split at h
  · cases h
    assumption
  · cases h

theorem mapSpot_control {s : State} {k : Access} {va ia die reg : Nat} (hs : s.cur.id.sup = true)
    (hg : s.cur.sync.region = none) (hva : va < 2 ^ 60) (hk : k = .read ∨ k = .write) (hm : s.cur.mapVa k va = .ok ia)
    (hw : s.whereIs ia = .control die reg) : mapSpot va k true s = .ok ⟨va, ia⟩ s := by
  have hcheck : s.checkIa s.cur ia k true = none := by
    unfold State.checkIa
    rcases hk with rfl | rfl <;> simp [hw, hs]
  unfold mapSpot
  rw [if_neg (Nat.not_le.mpr hva)]
  simp only [get_bind_run, hm, hcheck, hg, Option.isSome_none, Bool.false_and, Bool.false_eq_true, if_false, pure_run]

theorem resolve_control {s : State} {k : Access} {base : Word} {off : Int} {va ia die reg : Nat} (hs : s.cur.id.sup = true)
    (hg : s.cur.sync.region = none) (he : s.cur.effective base off 8 = .ok va) (ha : va % 8 = 0) (hk : k = .read ∨ k = .write)
    (hm : s.cur.mapVa k va = .ok ia) (hw : s.whereIs ia = .control die reg) :
    resolve base off 8 k true s = .ok ⟨va, ia⟩ s := by
  unfold resolve
  rw [op_bind_ok (effectiveVa_ok he ha)]
  exact mapSpot_control hs hg (effective_below hs he) hk hm hw

/-! LD.D of a register. -/

theorem readSpot_control {s : State} {va ia die reg n : Nat} (h : Still s) (hw : s.whereIs ia = .control die reg) :
    readSpot ⟨va, ia⟩ n s = .ok (wordBytes (s.regRead die reg s.cur.id.core) 0 n) s := by
  unfold readSpot settleWindows
  simp [hw, h.2.2.1]

theorem load_control {s : State} {x a : XReg} {m : MemAttr} {off : Int} {va ia die reg : Nat} (h : Calm s)
    (hs : s.cur.id.sup = true) (he : s.cur.effective (s.arg a) off 8 = .ok va) (ha : va % 8 = 0)
    (hm : s.cur.mapVa .read va = .ok ia) (hw : s.whereIs ia = .control die reg) :
    ∃ t, s.does (load x a m off 8 4) = .next t ∧ Finishes s t (s.gpr x (s.regRead die reg s.cur.id.core) 4) := by
  obtain ⟨t, ht, hfin⟩ := loaded_spec (t := x) (m := m) (n := 8) (len := 4) (p := ⟨va, ia⟩)
    (w := s.regRead die reg s.cur.id.core) h
  have hword : word (fromBytes (wordBytes (s.regRead die reg s.cur.id.core) 0 8)) = s.regRead die reg s.cur.id.core := by
    rw [fromBytes_wordBytes _ (by decide)]
    exact (BitVec.ofNat_toNat ..).trans (BitVec.setWidth_eq _)
  have hmem : s.inMemory ia = false := by simp [State.inMemory, hw]
  refine ⟨t, does_ok ?_, hfin⟩
  unfold load
  simp only [readX_bind_run, x_eq, decide_true]
  rw [op_bind_ok (resolve_control hs h.1.2.1 he ha (.inl rfl) hm hw), op_bind_ok (loadWaits_still m h.1)]
  simp only [get_bind_run, hmem, Bool.and_false, Bool.false_eq_true, if_false]
  rw [op_bind_ok (readSpot_control h.1 hw), hword]
  exact ht

theorem regRead_plain {s : State} {die reg : Nat} (core : Nat) (hp : PlainRegister reg) :
    s.regRead die reg core = s.ctlGet die reg := by
  obtain ⟨hplain, hrange⟩ := hp
  simp only [List.mem_cons, List.not_mem_nil, or_false, not_or] at hplain
  obtain ⟨h50, h58, h60, h80, h88, h90, ha8, h740, h748⟩ := hplain
  have hdemand : ¬(0x7C0 ≤ reg ∧ reg < 0x800) := by omega
  unfold State.regRead
  simp only [h60, h80, h88, h90, ha8, h748, if_false, Bool.and_eq_true, decide_eq_true_eq, hdemand]

/-! ST.D of a register. -/

theorem prepareSpot_control {s : State} {va ia die reg n : Nat} (hw : s.whereIs ia = .control die reg) :
    prepareSpot ⟨va, ia⟩ n s = .ok none s := by
  unfold prepareSpot
  simp only [get_bind_run, hw, pure_run]

theorem postKind_control {s : State} {ia die reg : Nat} (b : Bool) (hw : s.whereIs ia = .control die reg) :
    s.postKind s.cur ia b = none := by
  unfold State.postKind
  simp [hw]

theorem windowPut_control {s : State} {ia die reg : Nat} (core : Nat) (w : Word) (hw : s.whereIs ia = .control die reg) :
    s.windowPut ia core (toBytes 8 w.toNat) = s.regWrite die reg core w := by
  have hword : BitVec.ofNat 64 (fromBytes (toBytes 8 w.toNat)) = w := by
    rw [fromBytes_toBytes, Nat.mod_eq_of_lt (by exact w.isLt)]
    exact (BitVec.ofNat_toNat ..).trans (BitVec.setWidth_eq _)
  unfold State.windowPut
  simp only [hw, hword]

theorem writeWindow_control {s : State} {va ia die reg : Nat} (w : Word) (g : Gate) (h : Still s)
    (hw : s.whereIs ia = .control die reg) : writeWindow ⟨va, ia⟩ (toBytes 8 w.toNat) g s =
      .ok ⟨⟩ ((s.regWrite die reg s.cur.id.core w).gateDone s.cur.id.uid g [(ia, toBytes 8 w.toNat)] s.now) := by
  unfold writeWindow
  simp only [get_bind_run, lets_still g h, h.2.2.1, windowPut_control _ _ hw]
  rfl

/-- What a gate that has let a store through notes. -/
theorem gateDone_eq (s : State) (uid : Nat) (g : Gate) (ps : List (Nat × List Byte)) (born : Nat) :
    ∃ na fl, s.gateDone uid g ps born = { s with narrow := na, flushes := fl } := by
  have hself : ∃ na fl, s = { s with narrow := na, flushes := fl } := ⟨s.narrow, s.flushes, rfl⟩
  unfold State.gateDone
  split
  · exact hself
  · split
    · exact hself
    · unfold State.noteRelease
      dsimp only
      split
      · exact ⟨s.narrow, _, rfl⟩
      · exact ⟨_, _, rfl⟩

theorem retired_withNarrow (s : State) (na : List Narrow) (fl : List Flush) (len : Nat) :
    ({ s with narrow := na, flushes := fl } : State).retired len = { s.retired len with narrow := na, flushes := fl } :=
  (retired_congr (s := s) (u := { s with narrow := na, flushes := fl }) rfl rfl len).trans
    (congrArg (fun t : State => { t with narrow := na, flushes := fl }) (retired_fields s len)).symm

theorem store_control {s : State} {x a : XReg} {m : MemAttr} {off : Int} {va ia die reg : Nat} (h : Still s)
    (hs : s.cur.id.sup = true) (he : s.cur.effective (s.arg a) off 8 = .ok va) (ha : va % 8 = 0)
    (hm : s.cur.mapVa .write va = .ok ia) (hw : s.whereIs ia = .control die reg) : ∃ na fl,
      s.does (store x a m off 8 4) = .next { ((s.unfenced (m.cls = 1 || m.cls = 3)).regWrite die reg
        s.cur.id.core (s.arg x)).retired 4 with narrow := na, flushes := fl } := by
  have hmod : (s.arg x).toNat % 2 ^ (8 * 8) = (s.arg x).toNat := Nat.mod_eq_of_lt (s.arg x).isLt
  have hfenced := unfenced_eq s (m.cls = 1 || m.cls = 3)
  have hstill := unfenced_still (m.cls = 1 || m.cls = 3) h
  have hgate := storeGate_still m h
  generalize s.unfenced (m.cls = 1 || m.cls = 3) = s0 at *
  have hcore : s0.cur.id = s.cur.id := by rw [hfenced]
  have hwhere : s0.whereIs ia = .control die reg := by rw [hfenced]; exact hw
  obtain ⟨na, fl, hnotes⟩ := gateDone_eq (s0.regWrite die reg s0.cur.id.core (s.arg x)) s0.cur.id.uid (s.storeGateOf m)
    [(ia, toBytes 8 (s.arg x).toNat)] s0.now
  refine ⟨na, fl, does_ok ?_⟩
  unfold store
  simp only [readX_bind_run, x_eq, decide_true]
  rw [op_bind_ok (resolve_control hs h.2.1 he ha (.inr rfl) hm hw)]
  simp only [readX_bind_run, x_eq, hmod, get_bind_run, postKind_control _ hw]
  rw [op_bind_ok (prepareSpot_control hw)]
  dsimp only
  rw [op_bind_ok hgate, op_bind_ok (writeWindow_control _ _ hstill hwhere), hnotes, hcore]
  exact congrArg _ (retired_withNarrow ..)

/-- The reach of a fence ends at a store that releases. -/
theorem unfenced_of_store (s : State) (m : MemAttr) : s.unfenced (m.cls = 1 || m.cls = 3) =
    if m.cls = 1 ∨ m.cls = 3 then { s with cur := { s.cur with order := { s.cur.order with fenced := none } } } else s := by
  unfold State.unfenced
  by_cases hrel : m.cls = 1 ∨ m.cls = 3
  · cases hf : s.cur.order.fenced with
    | some k => simp [hrel]
    | none =>
      have hnone : ({ s.cur.order with fenced := none } : Order) = s.cur.order := by rw [← hf]
      simp [hrel, hnone]
  · simp [hrel]

/-- Settles O14: a load answers what the register reads, and a store that nothing holds up is performed at once. -/
theorem controlRegisters : Obligations.ControlRegisters := by
  intro s x a m off va ia die reg h hs he ha hw core w idx
  refine ⟨fun hm => ?_, fun hm => ?_⟩
  · obtain ⟨t, ht, hfin⟩ := load_control (x := x) (m := m) h hs he ha hm hw
    have hexec : exec (.ldD x a m off) s = s.does (load x a m (off.toInt * 8) 8 4) := 
      exec_of_loadRow (f := ⟨x, a, m, off.toInt * 8, 8, 4⟩) rfl s
    exact ⟨t, _, hexec.trans ht, hfin, rfl, regRead_plain core, by rintro rfl; rfl⟩
  · obtain ⟨na, fl, ht⟩ := store_control (x := x) (m := m) h.1 hs he ha hm hw
    have hfenced := unfenced_eq s (m.cls = 1 || m.cls = 3)
    rw [unfenced_of_store] at ht hfenced
    have hexec : exec (.stD x a m off) s = s.does (store x a m (off.toInt * 8) 8 4) := 
      exec_of_storeRow (f := ⟨x, a, m, off.toInt * 8, 8, 4⟩) rfl s
    refine ⟨_, hexec.trans ht, ?_⟩
    intro s0 s1
    have hdie : s0.die die = s.die die := (congrArg (fun t : State => t.die die) hfenced :)
    have hget : s0.ctlGet die reg = s.ctlGet die reg := (congrArg (fun t : State => t.ctlGet die reg) hfenced :)
    refine ⟨?_, fun hp hwait k hk => ?_, fun h80 => ?_⟩
    · rw [← retired_withNarrow]
      exact finishes_self s1 4
    · have hctl : (s1.retired 4).ctlGet die reg = s1.ctlGet die reg :=
        (congrArg (fun t : State => t.ctlGet die reg) (retired_fields s1 4) :)
      rw [← ctlWritten_bit (s.ctlGet die reg) w hp hk, ← hget, ← regWrite_get w hp (by rwa [hdie])]
      exact congrArg (BitVec.getLsbD · k) hctl
    · subst h80
      have hevcidx : (s1.retired 4).evcidx = tabPut s0.evcidx (die * 0x1000 + core) (w &&& 0x1FF) :=
        (congrArg State.evcidx (retired_fields s1 4) :)
      exact (congrArg (fun l => tabGet 0 l (die * 0x1000 + core)) hevcidx).trans ((tabGet_tabPut ..).trans (if_pos rfl))

end Sys2Proof.Machine
end


section
/-! PROOF. Mask instructions and VSHAPE (O19). -/

namespace Sys2Proof.Machine

/-! Masks (R164). -/

/-- A mask instruction with a result in m[D]. -/
theorem givesM_spec (s : State) (p : Option Vpx) (d : MNum) (fn : Context → BitVec 512) :
    ∃ t, s.does (givesM p d fn) = .next t ∧
      Finishes s t (({ s.cur.reg with m := s.cur.reg.m.set d (fn s.cur) } : Regs).step (lenOf p)) :=
  ⟨_, does_ok rfl, finishes_retired ..⟩

/-- MPOP counts the bits that are one. -/
theorem maskOnes_eq (m : BitVec 512) (n : Nat) :
    maskOnes m n = ((List.range n).filter (fun k => m.getLsbD k)).length := by
  induction n with
  | zero => rfl
  | succ n ih =>
    rw [maskOnes, ih, List.range_succ, List.filter_append, List.length_append, Nat.add_comm]
    cases h : m.getLsbD n <;> simp [h]

theorem exec_mpop (p : Option Vpx) (f : FmtCode) (d : XReg) (a : MNum) (s : State) : exec (.mpop p f d a) s =
    s.gives d (BitVec.ofNat 64 (maskOnes s.cur.reg.m[a] 512)) (lenOf p) := rfl

/-! SHAPE (R112, R163). -/

theorem shapeOk_of {rows cols : Nat} (h1 : 1 ≤ rows) (h2 : rows ≤ 1024) (h3 : 1 ≤ cols) (h4 : cols ≤ 1024)
    (h : rows * cols ≤ 1024) : shapeOk rows cols = true := by
  simp [shapeOk, *]

/-- ROWS and COLS of SHAPE written from two words. -/
theorem shapeFields_eq (w a b : Word) : setBits (setBits w 31 16 a.toNat) 15 0 b.toNat =
    w.extractLsb' 32 32 ++ a.extractLsb' 0 16 ++ b.extractLsb' 0 16 := by
  have hw := w.isLt
  apply BitVec.eq_of_toNat_eq
  simp only [toNat_setBits, toNat_append_eq_add, toNat_extract]
  omega

theorem vshapeOp_run {s : State} {x y : XReg} (h : shapeOk (s.arg x).toNat (s.arg y).toNat = true) (p : Option Vpx)
    (d : XReg) : vshapeOp p d x y s = .ok ⟨⟩ (({ s with cur := { s.cur with
      reg := { (s.cur.reg.put d s.cur.reg.shape) with
        shape := setBits (setBits s.cur.reg.shape 31 16 (s.arg x).toNat) 15 0 (s.arg y).toNat } } } : State).retired
          (lenOf p)) := by
  unfold vshapeOp
  simp only [readX_bind_run, x_eq, need_bind_run, h, if_true, self_bind_run, writeX_bind_run, setX_eq,
    modifySelf_bind_run, retires_run]
  rfl

/-- Settles O19: every mask result is one write of an m register, and a shape that is one passes the check of VSHAPE. -/
theorem masksAndShape : Obligations.MasksAndShape := by
  intro s p f m a b d x y r maskTo
  refine ⟨givesM_spec s p m _, givesM_spec s p m _, givesM_spec s p m _, ?_, fun h1 h2 h3 h4 h => ?_⟩
  · rw [exec_mpop, ← maskOnes_eq]
    exact gives_spec ..
  · rw [← shapeFields_eq]
    exact ⟨_, does_ok (vshapeOp_run (shapeOk_of h1 h2 h3 h4 h) p d), finishes_retired ..⟩

end Sys2Proof.Machine
end


section
/-! PROOF. Software traps, the trap of a privileged instruction and the double fault (O22). -/

namespace Sys2Proof.Machine

/-! SVC, BKPT and TRAP (R345, R352, R353). -/

/-- SVC and BKPT trap with their number in EADDR, and go on behind themselves. -/
theorem call_traps {s : State} (h : TrapReady s) {cause : Nat} (hc : cause ≠ 1 ∧ cause ≠ 2) (n : Word) :
    ∃ t, s.does (throw (.call cause n)) = .next t ∧ Traps s t cause s.cur.reg.edepth s.cur.reg.pc n (s.cur.reg.pc + 4) :=
  ⟨_, does_error (throw_run ..), deliverTrap_spec h cause (some n) .call (by decide) (.inl hc)⟩

theorem software_traps : Claim.SoftwareTraps := by
  intro s n h r
  refine ⟨call_traps h (by decide) _, call_traps h (by decide) _, _, does_error (throw_run ..), ?_⟩
  have htraps := deliverTrap_spec h n.val none .routine (by decide) (.inr (.inr rfl))
  by_cases hd : s.cur.reg.edepth = 1
  · rw [if_pos hd]
    simp only [trapLong, trapDepth, trapPc, hd, and_self, if_true] at htraps
    exact htraps
  · rw [if_neg hd]
    simp only [trapLong, trapDepth, trapPc, hd, and_false, if_false] at htraps
    exact htraps

/-! Privileged instructions (R108). -/

/-- A privileged instruction traps in a user context before it does anything else. -/
theorem privileged_traps {s : State} (h : TrapReady s) (f : PUnit → Op Unit) :
    ∃ t w, s.does (privileged >>= f) = .next t ∧
      Traps { s with freeAt := s.freeAt + 1 } t 0x07 s.cur.reg.edepth s.cur.reg.pc w s.cur.reg.pc := by
  have huser : s.cur.id.sup = false := h.1
  have hrun := privileged_bind_run f s
  rw [huser, if_neg (by decide)] at hrun
  exact ⟨_, _, does_error hrun, deliverTrap_spec h.draw 7 _ .device (by decide) (.inl (by decide))⟩

theorem privileged_trap : Claim.PrivilegedTrap := by
  rintro s i h (⟨d, a, n, rfl⟩ | ⟨d, a, n, rfl⟩ | ⟨a, rfl⟩ | ⟨n, a, rfl⟩ | ⟨a, rfl⟩) <;>
    exact privileged_traps h _

/-! The double fault (R349). -/

/-- A supervisor that has stopped. -/
def Context.halted (c : Context) : Context := { c with sched := { c.sched with stopped := true } }

/-- The machine of a supervisor that has stopped, its fault recorded and its core dead. -/
def State.deadCore (s : State) : State :=
  let u := ({ s with cur := s.cur.halted } : State).machineCheck (dieOf s.cur.id.core) 0 (unitCore s.cur.id.core) 4 0x0F
    s.cur.token s.cur.bits
  u.setCore s.cur.id.core { u.core s.cur.id.core with dead := true }

theorem deadCore_contexts (s : State) : s.deadCore.contexts = s.cur.halted :: s.others :=
  (machineCheck_backstage { s with cur := s.cur.halted } ..).contexts

/-- Where no context is parked, a double fault ends none. -/
theorem doubleFault_unparked {s : State} (hplace : s.cur.sched.place = .slot) (ha : Alone s)
    (hp : ∀ c ∈ s.contexts, c.sched.parked = false) : s.doubleFault s.cur = s.deadCore := by
  have hnone : s.deadCore.contexts.filter (fun c => c.live && c.sched.parked && c.id.core = s.cur.id.core) = [] := by
    rw [List.filter_eq_nil_iff, deadCore_contexts]
    intro c hc
    have hparked : c.sched.parked = false := by
      obtain rfl | hother := List.mem_cons.mp hc
      · exact hp s.cur List.mem_cons_self
      · exact hp c (List.mem_cons_of_mem _ hother)
    simp [hparked]
  unfold State.doubleFault
  rw [mapCtx_cur hplace ha]
  exact congrArg (fun l : List Context => (l.map (·.id.uid)).foldl (fun s u => s.endTask u 0) s.deadCore) hnone

/-- A trap of the supervisor, whatever its cause. -/
theorem deliverTrap_supervisor {s : State} (hplace : s.cur.sched.place = .slot) (hsup : s.cur.id.sup = true) (cause : Nat)
    (info : Option Word) (how : Raised) : s.deliverTrap s.cur.id.uid cause info how = s.doubleFault s.cur := by
  unfold State.deliverTrap
  simp only [ctx_cur hplace, hsup, if_true]

theorem double_fault : Claim.DoubleFault := by
  intro s n hsup hplace ha hp
  have htrap : s.deliverTrap s.cur.id.uid n.val none .routine = s.deadCore :=
    (deliverTrap_supervisor hplace hsup ..).trans (doubleFault_unparked hplace ha hp)
  refine ⟨s.deadCore, congrArg _ htrap, (List.cons.inj (deadCore_contexts s)).1, ?_⟩
  exact congrArg CoreSt.dead ((core_setCore ..).trans (if_pos rfl))

/-- Settles O22: a trap is delivered to the context that is ready for it, and stops a supervisor. -/
theorem trapsTaken : Obligations.TrapsTaken := ⟨software_traps, privileged_trap, double_fault⟩

end Sys2Proof.Machine
end


section
/-! PROOF. Integer instructions: ADDI (O1), LIH (O3), and the results of them all (O4). -/

namespace Sys2Proof.Machine

/-! Words as the numbers that the statements write (R123 to R126). -/

theorem sub_eq_ofInt (x y : Word) : x - y = BitVec.ofInt 64 (x.toInt - y.toInt) := by
  rw [Int.sub_eq_add_neg, BitVec.ofInt_add, BitVec.ofInt_neg, BitVec.ofInt_toInt, BitVec.ofInt_toInt,
    BitVec.sub_eq_add_neg]

theorem mul_eq_ofNat (x y : Word) : x * y = BitVec.ofNat 64 (x.toNat * y.toNat) :=
  BitVec.eq_of_toNat_eq ((BitVec.toNat_mul ..).trans (BitVec.toNat_ofNat ..).symm)

theorem shiftLeft_eq_ofNat (x : Word) (n : Nat) : x <<< n = BitVec.ofNat 64 (x.toNat * 2 ^ n) := by
  apply BitVec.eq_of_toNat_eq
  rw [BitVec.toNat_shiftLeft, BitVec.toNat_ofNat, Nat.shiftLeft_eq]

theorem ushiftRight_eq_ofNat (x : Word) (n : Nat) : x >>> n = BitVec.ofNat 64 (x.toNat / 2 ^ n) := by
  rw [← Nat.shiftRight_eq_div_pow, ← BitVec.toNat_ushiftRight, BitVec.ofNat_toNat, BitVec.setWidth_eq]

theorem sshiftRight_eq_ofInt (x : Word) (n : Nat) : x.sshiftRight n = BitVec.ofInt 64 (x.toInt / 2 ^ n) := by
  unfold BitVec.sshiftRight
  rw [Int.shiftRight_eq_div_pow]
  norm_cast

theorem shiftLeft_add_eq_ofNat (x y : Word) (n : Nat) : x + y <<< n = BitVec.ofNat 64 (x.toNat + y.toNat * 2 ^ n) := by
  rw [shiftLeft_eq_ofNat, BitVec.ofNat_add, BitVec.ofNat_toNat, BitVec.setWidth_eq]

theorem highHalf_natCast (p : Nat) : highHalf p = BitVec.ofNat 64 (p / 2 ^ 64) := by
  unfold highHalf
  rw [← BitVec.ofInt_natCast]
  norm_cast

/-- A divisor of zero, in a word and in its number. -/
theorem ite_zero_word {α : Type} (y : Word) (p q : α) : (if y = 0 then p else q) = if y.toNat = 0 then p else q :=
  if_congr BitVec.toNat_eq rfl rfl

/-- Of two words one that a comparison of numbers picks. -/
theorem ite_eq_ofInt {c : Prop} [Decidable c] (x y : Word) :
    (if c then x else y) = BitVec.ofInt 64 (if c then x.toInt else y.toInt) := by
  split <;> exact BitVec.ofInt_toInt.symm

theorem ite_eq_ofNat {c : Prop} [Decidable c] (x y : Word) :
    (if c then x else y) = BitVec.ofNat 64 (if c then x.toNat else y.toNat) := by
  split <;> rw [BitVec.ofNat_toNat, BitVec.setWidth_eq]

theorem min_eq_ofInt (x y : Word) : (if y.slt x then y else x) = BitVec.ofInt 64 (min x.toInt y.toInt) := by
  simp only [BitVec.slt_iff_toInt_lt, min_comm x.toInt, min_def_lt, ite_eq_ofInt]

theorem max_eq_ofInt (x y : Word) : (if x.slt y then y else x) = BitVec.ofInt 64 (max x.toInt y.toInt) := by
  simp only [BitVec.slt_iff_toInt_lt, max_def_lt, ite_eq_ofInt]

theorem min_eq_ofNat (x y : Word) : (if y.ult x then y else x) = BitVec.ofNat 64 (min x.toNat y.toNat) := by
  simp only [BitVec.ult_iff_toNat_lt, min_comm x.toNat, min_def_lt, ite_eq_ofNat]

theorem max_eq_ofNat (x y : Word) : (if x.ult y then y else x) = BitVec.ofNat 64 (max x.toNat y.toNat) := by
  simp only [BitVec.ult_iff_toNat_lt, max_def_lt, ite_eq_ofNat]

theorem wordOf_of_iff {b : Bool} {c : Prop} [Decidable c] (h : b = true ↔ c) : wordOf b = if c then 1 else 0 :=
  if_congr h rfl rfl

theorem add_sext_eq_ofInt {n : Nat} (x : Word) (imm : BitVec n) : x + sext imm = BitVec.ofInt 64 (x.toInt + imm.toInt) := by
  rw [BitVec.ofInt_add, BitVec.ofInt_toInt]
  rfl

theorem append_low_eq_ofNat (imm : BitVec 32) (x : Word) :
    imm ++ x.extractLsb' 0 32 = BitVec.ofNat 64 (imm.toNat * 2 ^ 32 + x.toNat % 2 ^ 32) := by
  apply BitVec.eq_of_toNat_eq
  rw [toNat_append_eq_add, toNat_extract, BitVec.toNat_ofNat]
  omega

/-! Results (R123 to R126). -/

/-- What an integer instruction does, by its row. -/
theorem exec_of_integerRow {s : State} {i : Instr} {d : XReg} {w : Word} {n : Nat} (h : s.integerRow i = some (d, w, n)) :
    exec i s = s.gives d w n := by
  unfold State.integerRow at h
  dsimp only at h
  have result {v : Word} (he : v = w) (hx : exec i s = s.gives d v n) : exec i s = s.gives d w n := he ▸ hx
  split at h <;> cases h
  · exact result (BitVec.add_def ..) rfl
  · exact result (sub_eq_ofInt ..) rfl
  · rfl
  · rfl
  · rfl
  · exact result (shiftLeft_eq_ofNat ..) rfl
  · exact result (ushiftRight_eq_ofNat ..) rfl
  · exact result (sshiftRight_eq_ofInt ..) rfl
  · exact result (shiftLeft_eq_ofNat ..) rfl
  · exact result (ushiftRight_eq_ofNat ..) rfl
  · exact result (sshiftRight_eq_ofInt ..) rfl
  · exact result (mul_eq_ofNat ..) rfl
  · rfl
  · exact result (highHalf_natCast _) rfl
  · exact result (ite_zero_word ..) rfl
  · exact result (ite_zero_word ..) rfl
  · exact result (ite_zero_word ..) rfl
  · exact result (ite_zero_word ..) rfl
  · exact result (min_eq_ofInt ..) rfl
  · exact result (max_eq_ofInt ..) rfl
  · exact result (min_eq_ofNat ..) rfl
  · exact result (max_eq_ofNat ..) rfl
  · exact result (wordOf_of_iff BitVec.slt_iff_toInt_lt) rfl
  · exact result (wordOf_of_iff BitVec.ult_iff_toNat_lt) rfl
  · exact result (wordOf_of_iff (beq_iff_eq.trans BitVec.toNat_eq)) rfl
  · exact result (shiftLeft_add_eq_ofNat ..) rfl
  · exact result (add_sext_eq_ofInt ..) rfl
  · rfl
  · exact result (append_low_eq_ofNat ..) rfl

theorem integer_results : Claim.IntegerResults := by
  intro s i d w n h
  rw [exec_of_integerRow h]
  exact gives_spec ..

/-! Counts of bits (R123). -/

/-- Below bit n, as many bits from the top as leadingZeros counts are zero, and the next one is one. -/
theorem leadingZeros_spec (a : Word) (n : Nat) : leadingZeros a n ≤ n ∧
    (∀ k, k < leadingZeros a n → a.getLsbD (n - 1 - k) = false) ∧
    (leadingZeros a n < n → a.getLsbD (n - 1 - leadingZeros a n) = true) := by
  induction n with
  | zero => simp [leadingZeros]
  | succ n ih =>
    obtain ⟨hle, hzero, hone⟩ := ih
    rw [leadingZeros]
    split
    · next h => simpa using h
    · next h =>
      refine ⟨by omega, fun k hk => ?_, fun hlt => ?_⟩
      · cases k with
        | zero => simpa using h
        | succ k => rw [show n + 1 - 1 - (k + 1) = n - 1 - k by omega]; exact hzero k (by omega)
      · rw [show n + 1 - 1 - (1 + leadingZeros a n) = n - 1 - leadingZeros a n by omega]
        exact hone (by omega)

/-- Among the top n bits, as many from the lowest one as trailingZeros counts are zero, and the next one is one. -/
theorem trailingZeros_spec (a : Word) {n : Nat} (hn : n ≤ 64) : trailingZeros a n ≤ n ∧
    (∀ k, k < trailingZeros a n → a.getLsbD (64 - n + k) = false) ∧
    (trailingZeros a n < n → a.getLsbD (64 - n + trailingZeros a n) = true) := by
  induction n with
  | zero => simp [trailingZeros]
  | succ n ih =>
    obtain ⟨hle, hzero, hone⟩ := ih (by omega)
    rw [trailingZeros, show 64 - (n + 1) = 63 - n by omega]
    split
    · next h => simpa using h
    · next h =>
      refine ⟨by omega, fun k hk => ?_, fun hlt => ?_⟩
      · cases k with
        | zero => simpa using h
        | succ k => rw [show 63 - n + (k + 1) = 64 - n + k by omega]; exact hzero k (by omega)
      · rw [show 63 - n + (1 + trailingZeros a n) = 64 - n + trailingZeros a n by omega]
        exact hone (by omega)

theorem countOnes_eq (a : Word) (n : Nat) : countOnes a n = selectedBelow a.getLsbD n := by
  induction n with
  | zero => rfl
  | succ n ih =>
    rw [countOnes, ih, selectedBelow_succ, Nat.add_comm]
    cases a.getLsbD n <;> rfl

theorem exec_popc (d a : XReg) (s : State) : exec (.popc d a) s =
    s.gives d (BitVec.ofNat 64 (countOnes (s.arg a) 64)) 4 := rfl

theorem bit_counts : Claim.BitCounts := by
  intro s d a
  refine ⟨?_, ?_, ?_⟩
  · obtain ⟨t, ht, hf⟩ := gives_spec s d (word (leadingZeros (s.arg a) 64)) 4
    exact ⟨t, _, ht, hf, leadingZeros_spec (s.arg a) 64⟩
  · obtain ⟨t, ht, hf⟩ := gives_spec s d (word (trailingZeros (s.arg a) 64)) 4
    have hspec := trailingZeros_spec (s.arg a) (le_refl 64)
    simp only [Nat.sub_self, Nat.zero_add] at hspec
    exact ⟨t, _, ht, hf, hspec⟩
  · rw [exec_popc, countOnes_eq]
    exact gives_spec ..

/-- Settles O4: each result is one write of x[d], and the counts follow the bits from one end. -/
theorem integerInstructions : Obligations.IntegerInstructions := ⟨integer_results, bit_counts⟩

/-! ADDI (R125). -/

theorem decodeParcels_addi (d a : XReg) (imm : BitVec 16) :
    decodeParcels (0x03 * 2 ^ 26 + d.val * 2 ^ 21 + a.val * 2 ^ 16 + imm.toNat) 0 = .ok (.addi d a imm) := by
  have h := isRI_word (maj := 0x03) (by decide) d.isLt a.isLt imm.isLt
  generalize 0x03 * 2 ^ 26 + d.val * 2 ^ 21 + a.val * 2 ^ 16 + imm.toNat = w at h ⊢
  simp [decodeParcels, decodeShort, rx_eq, h.hmaj, h.hd, h.ha, h.imm16]

theorem exec_addi (d a : XReg) (imm : BitVec 16) (s : State) :
    exec (.addi d a imm) s = s.gives d (BitVec.ofInt 64 ((s.arg a).toNat + imm.toInt)) 4 := by
  rw [← sext_add]
  rfl

/-- Settles O1: ADDI is one write of x[D], which Regs.put discards for x0. -/
theorem addiWhole : Obligations.AddiWhole := by
  intro s d a imm
  rw [exec_addi]
  exact ⟨decodeParcels_addi d a imm, gives_spec ..⟩

/-! LIH (R126). -/

/-- The fields of the first parcel of LIH, k being what lies below D: A, the memory attributes and the hint bit. -/
structure IsLih (w lop d k : Nat) : Prop where
  hmaj : fld w 26 6 = 0x3F
  hlop : fld w 18 8 = lop
  hd : fld w 13 5 = d
  zero : (decide (fld w 8 5 = 0) && decide (fld w 1 7 = 0)) = decide (k / 2 = 0)

theorem isLih_word {lop d k : Nat} (hl : lop < 2 ^ 8) (hd : d < 2 ^ 5) (hk : k < 2 ^ 13) :
    IsLih (0x3F * 2 ^ 26 + lop * 2 ^ 18 + d * 2 ^ 13 + k) lop d k := by
  refine ⟨?_, ?_, ?_, ?_⟩
  case refine_4 =>
    rw [← Bool.decide_and, decide_eq_decide]
    simp only [fld]
    omega
  all_goals simp only [fld]; omega

theorem IsLih.decode {w k : Nat} {d : XReg} (h : IsLih w 0x08 d k) (imm : BitVec 32) :
    decodeParcels w imm.toNat = if k / 2 = 0 then .ok (.lih d imm) else .error .illegalField := by
  simp only [decodeParcels, decodeLM, must, rx_eq, h.hmaj, h.hlop, h.hd, h.zero]
  simp

theorem IsLih.decodeHi {w k : Nat} {d : XReg} (h : IsLih w 0x09 d k) (imm : BitVec 32) :
    decodeParcels w imm.toNat = if k / 2 = 0 then .ok (.lihHi d imm) else .error .illegalField := by
  simp only [decodeParcels, decodeLM, must, rx_eq, h.hmaj, h.hlop, h.hd, h.zero]
  simp

/-- Settles O3: the fields of the first parcel decide the form, and each form is one write of x[D]. -/
theorem lihWhole : Obligations.LihWhole :=
  ⟨fun d imm _ hk => ⟨(isLih_word (by decide) d.isLt hk).decode imm, (isLih_word (by decide) d.isLt hk).decodeHi imm⟩,
    fun s d imm => ⟨gives_spec s d (imm.signExtend 64) 8, gives_spec s d (imm ++ (s.arg d).extractLsb' 0 32) 8⟩,
    rfl, rfl⟩

end Sys2Proof.Machine
end


section
/-! PROOF. Scalar floating point (O7). -/

namespace Sys2Proof.Machine

/-! Operands, patterns and flags (R130, R131, R137). -/

/-- A machine whose context holds registers r. -/
def State.holding (s : State) (r : Regs) : State := { s with cur := { s.cur with reg := r } }

theorem givesF_spec (s : State) (r : Regs) (d : XReg) (p : Nat × Flags) :
    ∃ t, (s.holding r).givesF d p = .next t ∧ Finishes s t (((r.put d (BitVec.ofNat 64 p.1)).flag p.2).step 4) := by
  refine ⟨_, rfl, ?_⟩
  rw [setX_eq]
  exact finishes_retire ..

/-- The low bits of a register that P selects. -/
theorem fx_eq (s : State) (single : Bool) (a : XReg) :
    s.fx (fpP single) a = (s.arg a).toNat % if single then 2 ^ 32 else 2 ^ 64 := by
  cases single <;> rfl

theorem mode_eq (s : State) (rnd : Fin 8) : s.mode rnd = s.roundMode rnd false := resolveMode_eq ..

/-- FCLASS writes no flags, which is to OR none. -/
theorem gives_eq_givesF (s : State) (d : XReg) (n : Nat) : s.gives d (word n) 4 = s.givesF d (n, 0) := by
  have hfps (r : Regs) : r.fps ||| (0 : Flags).zeroExtend 64 = r.fps := by simp
  unfold State.gives State.givesF State.orFlags Context.orFlags
  rw [hfps]

/-- A conversion that rounds stochastically starts from registers with FPS.LFSR stepped (R44, R136). -/
theorem stepSr_eq (s : State) (mode : Nat) :
    s.stepSr mode = s.holding (if mode = 6 then s.cur.reg.stepLfsr else s.cur.reg) := by
  unfold State.stepSr
  split <;> rfl

theorem exec_fcvt (d a : XReg) (sel : Fin 32) (rnd : Fin 8) (s : State) :
    let mode := s.roundMode rnd (sel.val = 6 || sel.val = 8)
    exec (.fcvt d a sel rnd) s = (s.holding (if mode = 6 then s.cur.reg.stepLfsr else s.cur.reg)).givesF d
      (fcvtOp sel.val mode (lfsrStep (s.cur.reg.fps.extractLsb' 32 32)) (s.arg a)) := by
  simp only [← stepSr_eq, ← resolveMode_eq]
  rfl

/-- What a scalar floating-point instruction does, by its row. -/
theorem exec_of_floatRow {s : State} {i : Instr} {r : Regs} {d : XReg} {p : Nat × Flags}
    (h : s.floatRow i = some (r, d, p)) : exec i s = (s.holding r).givesF d p := by
  unfold State.floatRow at h
  simp only [← fx_eq, ← mode_eq] at h
  split at h <;> cases h
  case h_10 => exact gives_eq_givesF ..
  case h_11 => exact exec_fcvt ..
  all_goals rfl

/-- Settles O7: every row ends in the same write of a pattern and its flags. -/
theorem floatResults : Obligations.FloatResults := by
  intro s i r d v f h
  rw [exec_of_floatRow h]
  exact givesF_spec s r d (v, f)

end Sys2Proof.Machine
end


section
/-! PROOF. CWAIT (O28). -/

namespace Sys2Proof.Machine

/-! Beginning and resuming (R144, R145). -/

theorem exec_cwait (d a b : XReg) (s : State) : exec (.cwait d a b) s = s.does (cwaitOp d a b) := rfl

/-- Where the context waits for no object, which hw says to simp for the match, CWAIT begins. -/
theorem cwaitOp_begins {s : State} (hu : s.cur.id.sup = false) (hg : s.cur.sync.region = none)
    (hw : ∀ k, s.cur.sync.wait ≠ .object k) (d a b : XReg) : cwaitOp d a b s = cwaitBegin d a b s := by
  unfold cwaitOp
  simp only [userOnly_bind_run, notInGlaze_bind_run, self_bind_run, hu, hg, Option.isNone_none, if_true, Bool.false_eq_true,
    if_false]

theorem cwaitOp_resumes {s : State} {ia : Nat} (hu : s.cur.id.sup = false) (hg : s.cur.sync.region = none)
    (hw : s.cur.sync.wait = .object ia) (d a b : XReg) : cwaitOp d a b s = cwaitResume d b ia s.cur.sync.grant s := by
  unfold cwaitOp
  simp only [userOnly_bind_run, notInGlaze_bind_run, self_bind_run, hu, hg, hw, Option.isNone_none, if_true,
    Bool.false_eq_true, if_false]

/-! Answers (R144). -/

/-- The answer of a CWAIT is one write of x[D], with an acquire beside it where the object is finished. -/
theorem cwaitReturn_run (s : State) (d : XReg) (w : Word) :
    ∃ t, cwaitReturn d w s = .ok ⟨⟩ t ∧ Finishes s t (s.gpr d w 4) := by
  have hacquired := beside_cur s { s.cur with reg := s.cur.reg.put d w, order := { s.cur.order with acquired := s.now } }
  unfold cwaitReturn
  split
  · simp only [acquireNow, modify_bind_run, writeX_bind_run, setX_eq, retires_run]
    exact ⟨_, rfl, finishes_of 4 rfl hacquired⟩
  · simp only [writeX_bind_run, setX_eq, retires_run]
    exact ⟨_, rfl, finishes_retired ..⟩

theorem cwait_returns {s : State} {d a b : XReg} {w : Word} (h : cwaitOp d a b s = cwaitReturn d w s) :
    ∃ t, exec (.cwait d a b) s = .next t ∧ Finishes s t (s.gpr d w 4) := by
  obtain ⟨t, ht, hf⟩ := cwaitReturn_run s d w
  exact ⟨t, (exec_cwait ..).trans (does_ok (h.trans ht)), hf⟩

theorem due_of_passed {s : State} {limit : Word} (h0 : limit ≠ 0) (h : limit.toNat ≤ s.tstamp) : s.due limit = true := by
  simpa [State.due, h] using h0

theorem not_due_of_ahead {s : State} {limit : Word} (h : limit = 0 ∨ s.tstamp < limit.toNat) : s.due limit = false := by
  rcases h with h | h
  · simp [State.due, h]
  · simp [State.due, Nat.not_le.mpr h]

/-! What the object says (R144). -/

/-- CWAIT once it has read its object at a location. -/
def cwaitRead (d b : XReg) (ia loc : Nat) : Op Unit := do
  let s ← get
  let st := s.numAt (loc + 8) 1
  let status := s.numAt (loc + 0x0C) 4
  if st = 2 || st = 4 then cwaitReturn d (word (status * 2 ^ 32 + (if st = 2 then 0 else 1)))
  else if st != 1 && st != 3 then cwaitReturn d 5
  else if s.due (← readX b) then cwaitReturn d 2
  else
    set (s.watch ia loc .completion)
    waitFor (.object ia)

/-- Up to the walk of the PARENT chain, CWAIT changes nothing. -/
theorem cwaitBegin_chain {s : State} {a : XReg} {va ia loc : Nat} (h : Still s) (hr : Reaches s .read va ia loc)
    (he : s.cur.effective (s.arg a) 0 64 = .ok va) (ha : va % 64 = 0) (d b : XReg) {c : Bool}
    (hc : onChain 4 va s.cur.reg.tlaunch.toNat s = .ok c s) :
    cwaitBegin d a b s = if c then cwaitReturn d 6 s else cwaitRead d b ia loc s := by
  unfold cwaitBegin
  rw [readX_bind_run, x_eq, op_bind_ok (effectiveVa_ok he ha), op_bind_ok (mapSpot_reaches false hr h.2.1), self_bind_run,
    op_bind_ok hc]
  cases c with
  | true => rfl
  | false =>
    simp only [Bool.false_eq_true, if_false]
    rw [op_bind_ok (settle_still _ _ h), op_bind_ok (forcePublish_still _ _ h), op_bind_ok (reach_reaches hr)]
    rfl

section Read

variable {s : State} {loc : Nat} (d b : XReg) (ia : Nat)

theorem cwaitRead_complete (h : s.numAt (loc + 8) 1 = 2) :
    cwaitRead d b ia loc s = cwaitReturn d (word (s.numAt (loc + 0x0C) 4 * 2 ^ 32)) s := by
  unfold cwaitRead
  simp [h]

theorem cwaitRead_cancelled (h : s.numAt (loc + 8) 1 = 4) :
    cwaitRead d b ia loc s = cwaitReturn d (word (s.numAt (loc + 0x0C) 4 * 2 ^ 32 + 1)) s := by
  unfold cwaitRead
  simp [h]

theorem cwaitRead_none (h : s.numAt (loc + 8) 1 = 0 ∨ 4 < s.numAt (loc + 8) 1) :
    cwaitRead d b ia loc s = cwaitReturn d 5 s := by
  have h1 : s.numAt (loc + 8) 1 ≠ 1 := by omega
  have h2 : s.numAt (loc + 8) 1 ≠ 2 := by omega
  have h3 : s.numAt (loc + 8) 1 ≠ 3 := by omega
  have h4 : s.numAt (loc + 8) 1 ≠ 4 := by omega
  unfold cwaitRead
  simp [h1, h2, h3, h4]

theorem cwaitRead_expired (h : s.numAt (loc + 8) 1 = 1 ∨ s.numAt (loc + 8) 1 = 3) (hd : s.due (s.arg b) = true) :
    cwaitRead d b ia loc s = cwaitReturn d 2 s := by
  unfold cwaitRead
  rcases h with h | h <;> simp [h, x_eq, hd]

theorem cwaitRead_blocks (h : s.numAt (loc + 8) 1 = 1 ∨ s.numAt (loc + 8) 1 = 3) (hd : s.due (s.arg b) = false) :
    cwaitRead d b ia loc s = .error (.wait (.object ia)) (s.watch ia loc .completion) := by
  unfold cwaitRead
  rcases h with h | h <;> simp [h, x_eq, hd]

end Read

/-! Waiting (R144, R145). -/

/-- A context that has a wait begins it with its registers as they are. -/
theorem cwait_waits {s u : State} {d a b : XReg} {ia : Nat} (h : cwaitOp d a b s = .error (.wait (.object ia)) u)
    (hu : u.cur.reg = s.cur.reg) :
    ∃ t, exec (.cwait d a b) s = .next t ∧ t.cur.sync.wait = .object ia ∧ t.cur.reg = s.cur.reg :=
  ⟨_, (exec_cwait ..).trans (does_error h), rfl, hu⟩

theorem watch_reg (s : State) (ia loc : Nat) (k : ObjKind) : (s.watch ia loc k).cur.reg = s.cur.reg :=
  congrArg Context.reg (watch_noted s ia loc k).cur

theorem cwaitResume_due {s : State} {b : XReg} (h : s.due (s.arg b) = true) (d : XReg) (ia : Nat) :
    cwaitResume d b ia none s = cwaitReturn d 2 s := by
  unfold cwaitResume
  dsimp only
  rw [get_bind_run, readX_bind_run, x_eq, h]
  rfl

/-- What the home slice has granted is the answer. -/
theorem cwait_granted {s : State} {ia : Nat} {g : Word} (hu : s.cur.id.sup = false) (hg : s.cur.sync.region = none)
    (hw : s.cur.sync.wait = .object ia) (hgrant : s.cur.sync.grant = some g) (d a b : XReg) :
    ∃ t, exec (.cwait d a b) s = .next t ∧ Finishes s t (s.gpr d g 4) := by
  have hresume := cwaitOp_resumes hu hg hw d a b
  rw [hgrant] at hresume
  exact cwait_returns hresume

/-- Settles O28: once the walk of the PARENT chain has found nothing, the state of the object decides the answer; a wait that
is taken up again has its answer from its grant, or from its deadline. -/
theorem completionWaits : Obligations.CompletionWaits := by
  intro s d a b va ia loc hready heff halign hreach state gives begins
  obtain ⟨hstill, hgrant, huser⟩ := hready
  have hglaze : s.cur.sync.region = none := hstill.2.1
  have hbegin (hb : begins) {c : Bool} (hc : onChain 4 va s.cur.reg.tlaunch.toNat s = .ok c s) :
      cwaitOp d a b s = if c then cwaitReturn d 6 s else cwaitRead d b ia loc s :=
    (cwaitOp_begins huser hglaze hb d a b).trans (cwaitBegin_chain hstill hreach heff halign d b hc)
  refine ⟨fun hb hc => cwait_returns (hbegin hb hc), fun hb hc => ?_, fun hw h0 hpast => ?_, fun g => ?_⟩
  · have hread : cwaitOp d a b s = cwaitRead d b ia loc s := hbegin hb hc
    refine ⟨fun h => ?_, fun h => ?_, fun h => ?_, fun h h0 hpast => ?_, fun h hahead => ?_⟩
    · exact cwait_returns (hread.trans (cwaitRead_complete d b ia h))
    · exact cwait_returns (hread.trans (cwaitRead_cancelled d b ia h))
    · exact cwait_returns (hread.trans (cwaitRead_none d b ia h))
    · exact cwait_returns (hread.trans (cwaitRead_expired d b ia h (due_of_passed h0 hpast)))
    · exact cwait_waits (hread.trans (cwaitRead_blocks d b ia h (not_due_of_ahead hahead))) (watch_reg ..)
  · have hresume := cwaitOp_resumes huser hglaze hw d a b
    rw [hgrant, cwaitResume_due (due_of_passed h0 hpast)] at hresume
    exact cwait_returns hresume
  · obtain ⟨t, ht, ⟨hcur, -⟩, -⟩ := cwait_granted (s := { s with cur := { s.cur with
      sync := { s.cur.sync with wait := .object ia, grant := some g } } }) huser hglaze rfl rfl d a b
    exact ⟨t, ht, congrArg Context.reg hcur⟩

end Sys2Proof.Machine
end

section
/-! PROOF. Vector instructions that work element by element (O15). -/

namespace Sys2Proof.Machine

/-! Reads that change nothing. -/

theorem self_run (s : State) : self s = .ok s.cur s := rfl

theorem readX_run (a : XReg) (s : State) : readX a s = .ok (s.x a) s := rfl

/-! Instructions that end in a vector result (R147, R149). -/

/-- An action retires having given each element that is on its result, and FPS the flags of those elements. -/
def GivesLanes (s : State) (op : Op Unit) (p : Option Vpx) (f : FmtCode) (d : VNum) (on : Nat → Bool)
    (res : Nat → Nat × Flags) : Prop :=
  ∃ t, op s = .ok ⟨⟩ t ∧ Writes s t p d (fmtWidth f) f false on (fun k => (res k).1)
    (s.cur.reg.flag (flagsUpTo s.elements on (fun k => (res k).2)))

section GivesLanes

variable {s : State} {op : Op Unit} {p : Option Vpx} {f : FmtCode} {d : VNum} {on : Nat → Bool}
  {res res' : Nat → Nat × Flags}

/-- The write of the results of all elements, zero where one is not on. -/
theorem vecWrite_givesLanes {v : Vpx} (hf : s.fits (fmtWidth f)) (hz : v.mz = zeroing p)
    (hon : ∀ i, s.cur.active v.mask (fmtWidth f) i = on i) :
    GivesLanes s (do
      vecWrite v d f false ((List.range s.elements).map (fun i => if on i then res i else (0, 0)))
      retires (lenV p)) p f d on res := by
  refine ⟨_, rfl, ?_⟩
  have hflags := flagsOf_lanes s.elements on res
  rw [← hflags]
  exact writes_retired (s.cur.reg.flag (flagsOf _)) hf hz hon
    fun i hi ho => by rw [getAt_map_range _ _ _ _ hi, if_pos ho]

/-- A step before that answers and changes nothing: a check passed, or a register read. -/
theorem GivesLanes.after {α : Type} {m : Op α} {k : α → Op Unit} {x : α} (hm : m s = .ok x s)
    (h : GivesLanes s (k x) p f d on res) : GivesLanes s (m >>= k) p f d on res := by
  obtain ⟨t, hrun, hw⟩ := h
  exact ⟨t, (op_bind_ok hm).trans hrun, hw⟩

/-- Results count as far as they fit an element. -/
theorem GivesLanes.congr (h : GivesLanes s op p f d on res)
    (hbits : ∀ k, (res k).1 % 2 ^ fmtWidth f = (res' k).1 % 2 ^ fmtWidth f) (hflags : ∀ k, (res k).2 = (res' k).2) :
    GivesLanes s op p f d on res' := by
  obtain ⟨t, hrun, x, hfin, htag, hcomp, hlanes, htop⟩ := h
  rw [funext hflags] at hfin
  exact ⟨t, hrun, x, hfin, htag, hcomp, fun i hi => by rw [hlanes i hi, hbits i], htop⟩

end GivesLanes

/-! The shapes of element-wise instructions. -/

section Shapes

variable {s : State} {p : Option Vpx} {f : FmtCode} {d a b : VNum}

/-- The write of the results of the elements that the mask selects. -/
theorem lanes_givesLanes (res : Nat → Nat × Flags) (hf : s.fits (fmtWidth f)) :
    GivesLanes s (do
      vecWrite (vpxOf p) d f false (s.cur.lanes (vpxOf p).mask (fmtWidth f) res)
      retires (lenV p)) p f d (s.isOn p (fmtWidth f)) res := by
  unfold Context.lanes
  simp only [grid_eq, active_vpxOf]
  exact vecWrite_givesLanes hf (mz_vpxOf p) (active_vpxOf s p _)

theorem lane1_givesLanes {fn : Nat → Nat → Nat × Flags} (hf : s.fits (fmtWidth f)) (hs : ∀ c ∈ [a], s.carries c f) :
    GivesLanes s (lane1 p f d a fn) p f d (s.isOn p (fmtWidth f))
      (fun k => fn (s.vecMode p false) (laneOf (fmtWidth f) s.cur.reg.v[a].bits k)) := by
  simp only [← elem_eq_laneOf, ← modeV_vpxOf]
  unfold lane1
  exact .after (needShape_fits hf) <| .after (needTag_carries (hs a (by simp))) <| .after (self_run s) <|
    lanes_givesLanes _ hf

theorem vmov_givesLanes (hz : f ≠ 0) (hf : s.fits (fmtWidth f)) (hs : ∀ c ∈ [a], s.carries c f) :
    GivesLanes s (vmovOp p f d a) p f d (s.isOn p (fmtWidth f))
      (fun k => (laneOf (fmtWidth f) s.cur.reg.v[a].bits k, 0)) := by
  unfold vmovOp
  rw [if_neg hz]
  exact lane1_givesLanes hf hs

theorem lane2_givesLanes {fn : Nat → Nat → Nat → Nat × Flags} (hf : s.fits (fmtWidth f))
    (hs : ∀ c ∈ [a, b], s.carries c f) :
    GivesLanes s (lane2 p f d a b fn) p f d (s.isOn p (fmtWidth f))
      (fun k => fn (s.vecMode p false) (laneOf (fmtWidth f) s.cur.reg.v[a].bits k)
        (laneOf (fmtWidth f) s.cur.reg.v[b].bits k)) := by
  simp only [← elem_eq_laneOf, ← modeV_vpxOf]
  unfold lane2
  exact .after (needShape_fits hf) <| .after (needTag_carries (hs a (by simp))) <|
    .after (needTag_carries (hs b (by simp))) <| .after (self_run s) <| lanes_givesLanes _ hf

theorem vfma_givesLanes (hf : s.fits (fmtWidth f)) (hs : ∀ c ∈ [a, b, thirdV p d], s.carries c f) :
    GivesLanes s (vfmaOp p f d a b) p f d (s.isOn p (fmtWidth f))
      (fun k => laneFma f (s.vecMode p false) (laneOf (fmtWidth f) s.cur.reg.v[a].bits k)
        (laneOf (fmtWidth f) s.cur.reg.v[b].bits k) (laneOf (fmtWidth f) s.cur.reg.v[thirdV p d].bits k)) := by
  simp only [← elem_eq_laneOf, ← modeV_vpxOf]
  unfold vfmaOp
  exact .after (needShape_fits hf) <| .after (needTag_carries (hs a (by simp))) <|
    .after (needTag_carries (hs b (by simp))) <| .after (needTag_carries (hs (thirdV p d) (by simp))) <|
    .after (self_run s) <| lanes_givesLanes _ hf

theorem vbcast_givesLanes {x : XReg} (hf : s.fits (fmtWidth f)) :
    GivesLanes s (vbcastOp p f d x) p f d (s.isOn p (fmtWidth f)) (fun _ => ((s.arg x).toNat % 2 ^ fmtWidth f, 0)) := by
  unfold vbcastOp
  exact .after (needShape_fits hf) <| .after (readX_run x s) <| .after (self_run s) <| lanes_givesLanes _ hf

/-- A movement with nothing to check beside its source. -/
theorem move_givesLanes {pick : Context → Nat → Nat} (hf : s.fits (fmtWidth f)) (hs : ∀ c ∈ [a], s.carries c f) :
    GivesLanes s (moveOp p f d a (pure ()) pick) p f d (s.isOn p (fmtWidth f)) (fun k => (pick s.cur k, 0)) := by
  unfold moveOp
  exact .after (needShape_fits hf) <| .after (needTag_carries (hs a (by simp))) <|
    .after (pure_run () s) <| .after (self_run s) <| lanes_givesLanes _ hf

end Shapes

/-! Shifts (R159). -/

theorem laneShl_mod (w a b : Nat) : laneShl w a b % 2 ^ w = a * 2 ^ (b % w) % 2 ^ w := Nat.mod_mod _ _

theorem toSigned_eq_signedBits {w n : Nat} (h : n < 2 ^ w) : toSigned w n = signedBits w n := by
  unfold toSigned signedBits
  rw [Nat.mod_eq_of_lt h]

/-- VSHR of an element, as the statement gives it. -/
theorem laneShr_eq (f : FmtCode) {a : Nat} (b : Nat) (h : a < 2 ^ fmtWidth f) :
    laneShr f a b = if f = 11 then a / 2 ^ (b % fmtWidth f)
      else ((signedBits (fmtWidth f) a / 2 ^ (b % fmtWidth f)) % 2 ^ fmtWidth f).toNat := by
  unfold laneShr unsignedFmt ofSigned
  simp only [toSigned_eq_signedBits h, decide_eq_true_eq]

/-! Movements (R161). -/

theorem columns_eq (s : State) : s.cur.cols = s.columns := cols_eq s

theorem rotPick_eq (s : State) (w k : Nat) (a : VNum) (i : Nat) :
    rotPick w k a s.cur i =
      laneOf w s.cur.reg.v[a].bits (i / s.columns * s.columns + (i % s.columns + k) % s.columns) := by
  simp only [rotPick, elem_eq_laneOf, columns_eq]

theorem trnPick_eq (s : State) (w : Nat) (a : VNum) (i : Nat) :
    trnPick w a s.cur i = laneOf w s.cur.reg.v[a].bits
      (i % (s.cur.reg.shape.extractLsb' 16 16).toNat * s.columns + i / (s.cur.reg.shape.extractLsb' 16 16).toNat) := by
  simp only [trnPick, elem_eq_laneOf, columns_eq, rows_eq]

/-! The rows. -/

/-- What an element-wise instruction does, by its row: the rows of one source, those of two, and those whose results the
statement writes in words of its own. -/
theorem exec_of_laneRow {s : State} {i : Instr} {f : LaneForm} (h : s.laneRow i = some f) (hf : s.fits (fmtWidth f.f))
    (hs : ∀ a ∈ f.sources, s.carries a f.f) :
    ∃ op, exec i s = s.does op ∧ GivesLanes s op f.p f.f f.d (s.isOn f.p (fmtWidth f.f)) f.res := by
  unfold State.laneRow at h
  split at h
  case h_19 => -- VMOV
    split at h
    · cases h
    next hz =>
      cases h
      exact ⟨_, rfl, vmov_givesLanes hz hf hs⟩
  all_goals cases h
  case h_1 | h_2 | h_3 | h_5 | h_6 | h_13 => exact ⟨_, rfl, lane2_givesLanes hf hs⟩
  case h_7 | h_8 | h_11 | h_12 | h_14 | h_15 | h_16 | h_17 => exact ⟨_, rfl, lane1_givesLanes hf hs⟩
  case h_4 => exact ⟨_, rfl, vfma_givesLanes hf hs⟩
  case h_9 => -- VSHL
    exact ⟨_, rfl, (lane2_givesLanes hf hs).congr (fun _ => laneShl_mod ..) fun _ => rfl⟩
  case h_10 => -- VSHR
    exact ⟨_, rfl, (lane2_givesLanes hf hs).congr (fun _ => by rw [laneShr_eq _ _ (laneOf_lt ..)]) fun _ => rfl⟩
  case h_18 => -- VBCAST
    exact ⟨_, rfl, (vbcast_givesLanes hf).congr (fun _ => Nat.mod_mod ..) fun _ => rfl⟩
  case h_20 => -- VROT
    exact ⟨_, rfl, (move_givesLanes hf hs).congr (fun _ => by rw [rotPick_eq, x_eq]) fun _ => rfl⟩
  case h_21 => -- VTRN
    exact ⟨_, rfl, (move_givesLanes hf hs).congr (fun _ => by rw [trnPick_eq]) fun _ => rfl⟩

/-- Settles O15: every row ends in the same write of the selected elements' results and flags. -/
theorem vectorLanes : Obligations.VectorLanes := by
  intro s i f h hf hs
  obtain ⟨op, hexec, t, hrun, hw⟩ := exec_of_laneRow h hf hs
  exact ⟨t, hexec.trans (does_ok hrun), hw⟩

end Sys2Proof.Machine
end

section
/-! PROOF. Vector comparisons and reductions (O17). -/

namespace Sys2Proof.Machine

/-! Reductions (R160). -/

/-- The row or the column of an element. -/
def State.lineOf (s : State) (rows : Bool) (k : Nat) : Nat := if rows then k / s.columns else k % s.columns

/-- The selected elements of a line of a register, ascending. -/
def State.lineLanes (s : State) (p : Option Vpx) (w : Nat) (r : VReg) (rows : Bool) (line : Nat) : List Nat :=
  ((List.range s.elements).filter (fun j => s.lineOf rows j = line && s.isOn p w j)).map (laneOf w r.bits)

theorem along_eq (s : State) (p : Option Vpx) (w : Nat) (r : VReg) (rows : Bool) (line : Nat) :
    s.cur.along (vpxOf p) w r rows line = s.lineLanes p w r rows line := by
  simp only [Context.along, State.lineLanes, State.lineOf, grid_eq, columns_eq, active_vpxOf, elem_eq_laneOf]
  rfl

/-- An element of the grid lies in one of its lines. -/
theorem lineOf_lt {s : State} (rows : Bool) {k : Nat} (h : k < s.elements) :
    s.lineOf rows k < if rows then s.cur.rows else s.cur.cols := by
  rw [← grid_eq] at h
  unfold State.lineOf
  rw [← columns_eq]
  cases rows with
  | true => exact Nat.div_lt_of_lt_mul (by rwa [Nat.mul_comm])
  | false => exact Nat.mod_lt _ (Nat.pos_of_ne_zero fun h0 => by simp [Context.grid, h0] at h)

/-- The result of each element is that of its line. -/
theorem lineResults_eq {α : Type} (s : State) (rows : Bool) (g : Nat → α) (x : α) :
    (List.range s.cur.grid).map (fun i => getAt ((List.range (if rows then s.cur.rows else s.cur.cols)).map g)
      (if rows then i / s.cur.cols else i % s.cur.cols) x) = (List.range s.elements).map (fun k => g (s.lineOf rows k)) := by
  rw [grid_eq]
  refine List.map_congr_left fun k hk => ?_
  have hline : (if rows then k / s.cur.cols else k % s.cur.cols) = s.lineOf rows k := by rw [columns_eq, State.lineOf]
  rw [hline, getAt_map_range _ _ _ _ (lineOf_lt rows (List.mem_range.mp hk))]

theorem reduce_givesLanes {s : State} {p : Option Vpx} {f : FmtCode} {d a : VNum} {rows : Bool}
    {fn : Nat → List Nat → Nat × Flags} (hf : s.fits (fmtWidth f)) (ha : s.carries a f) :
    GivesLanes s (reduceOp p f d a rows fn) p f d (fun _ => true)
      (fun k => fn (s.vecMode p false) (s.lineLanes p (fmtWidth f) s.cur.reg.v[a] rows (s.lineOf rows k))) := by
  unfold reduceOp
  refine .after (needShape_fits hf) <| .after (needTag_carries ha) <| .after (self_run s) ?_
  dsimp only
  rw [lineResults_eq, modeV_vpxOf]
  simp only [along_eq]
  exact vecWrite_givesLanes (v := { vpxOf p with mask := 0 }) (on := fun _ => true) hf (mz_vpxOf p) (fun _ => rfl)

/-- What a reduction does, by its row. -/
theorem exec_of_reduceRow {s : State} {i : Instr} {p : Option Vpx} {f : FmtCode} {d a : VNum} {rows : Bool}
    {fn : List Nat → Nat × Flags} (h : s.reduceRow i = some (p, f, d, a, rows, fn)) (hf : s.fits (fmtWidth f))
    (ha : s.carries a f) :
    ∃ op, exec i s = s.does op ∧ GivesLanes s op p f d (fun _ => true)
      (fun k => fn (s.lineLanes p (fmtWidth f) s.cur.reg.v[a] rows (s.lineOf rows k))) := by
  unfold State.reduceRow at h
  split at h <;> cases h <;> exact ⟨_, rfl, reduce_givesLanes hf ha⟩

theorem vectorReductions : Claim.VectorReductions := by
  intro s i p f d a rows fn h hf ha
  obtain ⟨op, hexec, t, hrun, hw⟩ := exec_of_reduceRow h hf ha
  exact ⟨t, hexec.trans (does_ok hrun), hw⟩

/-! Comparisons (R156). -/

/-- A bit of packed bits. -/
theorem packBits_getLsbD {m n : Nat} (bit : Nat → Bool) (h : n ≤ m) (k : Nat) :
    (BitVec.ofNat m (packElems 1 ((List.range n).map (fun i => (bit i).toNat)))).getLsbD k = (decide (k < n) && bit k) := by
  rw [BitVec.getLsbD, toNat_packElems _ _ (by simpa using h), Nat.testBit_eq_decide_div_mod_eq]
  by_cases hk : k < n
  · have hlane := packElems_lane 1 ((List.range n).map (fun i => (bit i).toNat)) k (by simpa using hk)
    simp only [Nat.one_mul, Nat.pow_one, List.getElem_map, List.getElem_range] at hlane
    rw [hlane]
    cases bit k <;> simp [hk]
  · have hlt := packElems_lt 1 ((List.range n).map (fun i => (bit i).toNat))
    rw [List.length_map, List.length_range, Nat.mul_one] at hlt
    rw [Nat.div_eq_of_lt (hlt.trans_le (Nat.pow_le_pow_right Nat.two_pos (Nat.not_lt.mp hk)))]
    simp [hk]

/-- The bit that a comparison leaves for an element below n. -/
def State.comparedBit (s : State) (p : Option Vpx) (w : Nat) (d : MNum) (holds : Nat → Bool) (k : Nat) : Bool :=
  if s.isOn p w k then holds k else if zeroing p then false else (s.cur.reg.m[d]).getLsbD k

/-- A comparison's mask register. -/
def State.compared (s : State) (p : Option Vpx) (w : Nat) (d : MNum) (holds : Nat → Bool) : BitVec 512 :=
  BitVec.ofNat 512 (packElems 1 ((List.range s.elements).map (fun k => (s.comparedBit p w d holds k).toNat)))

/-- The flags of the selected elements alone, beside results of all. -/
theorem flagsOf_pairs (n : Nat) (on : Nat → Bool) (flags : Nat → Flags) (g : Nat → Nat) :
    flagsOf ((List.range n).map (fun k => (g k, if on k then flags k else 0))) = flagsUpTo n on flags := by
  unfold flagsOf flagsUpTo
  rw [List.foldl_map]
  congr 1
  funext f k
  split <;> simp

/-- What a comparison does, told by the bits and the flags of its elements. -/
theorem vcmpOp_run {s : State} {p : Option Vpx} {f : FmtCode} {cond : Nat} {d : MNum} {a b : VNum}
    (hf : s.fits (fmtWidth f)) (ha : s.carries a f) (hb : s.carries b f) :
    let w := fmtWidth f
    let res (k : Nat) : Bool × Flags := laneCmp f cond (laneOf w s.cur.reg.v[a].bits k) (laneOf w s.cur.reg.v[b].bits k)
    vcmpOp p f cond d a b s = .ok ⟨⟩ (({ s with cur := { s.cur with
      reg := ({ s.cur.reg with m := s.cur.reg.m.set d (s.compared p w d (fun k => (res k).1)) } : Regs).flag
        (flagsUpTo s.elements (s.isOn p w) (fun k => (res k).2)) } } : State).retired (lenV p)) := by
  intro w res
  unfold vcmpOp
  refine (op_bind_ok (needShape_fits hf)).trans ((op_bind_ok (needTag_carries ha)).trans
    ((op_bind_ok (needTag_carries hb)).trans ?_))
  rw [self_bind_run]
  dsimp only
  rw [grid_eq, List.map_congr_left (g := fun k => ((s.comparedBit p w d (fun k => (res k).1) k).toNat,
    if s.isOn p w k then (res k).2 else 0)) ?_, flagsOf_pairs, List.map_map]
  · rfl
  · intro k _
    simp only [active_vpxOf, mz_vpxOf, elem_eq_laneOf, State.comparedBit, Context.getM]
    by_cases hon : s.isOn p w k = true
    · simp only [w, hon, if_true]
      rfl
    · cases zeroing p <;> simp [w, hon]

theorem vectorCompares : Claim.VectorCompares := by
  intro s i p f d a b cond h hf hn ha hb w res
  have hexec : exec i s = s.does (vcmpOp p f cond d a b) := by
    unfold compareRow at h
    split at h <;> cases h <;> rfl
  refine ⟨_, _, hexec.trans (does_ok (vcmpOp_run hf ha hb)), finishes_retired .., fun k _ => ?_⟩
  rw [State.compared, packBits_getLsbD _ hn]
  by_cases hk : k < s.elements
  · rw [decide_eq_true hk, Bool.true_and, if_neg (Nat.not_le.mpr hk)]
    rfl
  · rw [decide_eq_false hk, Bool.false_and, if_pos (Nat.not_lt.mp hk)]

/-- Settles O17: a comparison packs one bit for each element below n, and a reduction gives each element the result of its
line. -/
theorem vectorReduces : Obligations.VectorReduces := ⟨vectorCompares, vectorReductions⟩

end Sys2Proof.Machine
end

section
/-! PROOF. Vector loads and stores (O20), refuted: a vector store that prepares an object clobbers it. -/

namespace Sys2Proof.Machine

/-! A monitor object prepared by one VST (R151, R317, R318). -/

/-- A user context alone in slot 0 of core 0, with SHAPE 1 x 5. x1 names an object's place, where nothing lies, and v1 holds
the first 40 bytes of a free monitor as FP64 elements: STATE = 1 at offset 5, else zeros. A range and one leaf of 1 GiB map
memory to itself. -/
def preparing : State :=
  { State.reset with
    cur := { Context.reset 4096 0 0 false with
      reg := { Regs.reset with
        shape := 0x10005
        x := Regs.reset.x.set 1 0x100000
        v := Regs.reset.v.set 1 ⟨0x0000010000000000, 1, false⟩
        amap := Regs.reset.amap.set 0 (BitVec.ofNat 128 (0x1F + 32 * 2 ^ 87)) } }
    others := []
    mem := cellsSet (cellsSet [] 0x4000 (toBytes 8 0x8001)) 0x8000 (toBytes 8 0xBD)
    ctl := [(0, 0x4001)] }

theorem preparing_still : Still preparing := by
  simp only [Still]
  decide

theorem preparing_carries : preparing.fits 64 ∧ preparing.carries 1 1 := by
  simp only [State.fits, State.carries]
  decide

theorem preparing_selected : preparing.selected none 64 = [0, 1, 2, 3, 4] := by decide

/-- Each element has a place in memory of its own, with no watched object near it. -/
theorem preparing_reaches : ∀ i ∈ [0, 1, 2, 3, 4],
    Reaches preparing .write (0x100000 + i * 8) (0x100000 + i * 8) (0x100000 + i * 8) ∧
    preparing.postKind preparing.cur (0x100000 + i * 8) false = none ∧ Plain preparing (0x100000 + i * 8) 8 := by
  simp only [Reaches, Plain]
  decide +kernel

/-- The control-block registers after an instruction. -/
def ctlAfter (o : Host.Outcome State Fault Refusal) : List (Nat × Word) :=
  match o with
  | .next t => t.ctl
  | _ => []

/-- The store reaches two granules. Once the first has been written, with STATE, the object is live and watched, so that the
write of the second is a clobber: its machine-check record finds no ring, and MCCTL.DROPPED of die 0 counts it. -/
theorem preparing_clobbers :
    ctlAfter (exec (.vst none 1 1 1 ⟨0, 0, 0⟩ 0) preparing) = [(0, 0x4001), (0x078, 0x0000000100000000)] := by
  decide +kernel

theorem BesideMemory.ctl {s t : State} (h : BesideMemory s t) : t.ctl = s.ctl := (congrArg State.ctl h.1 :)

theorem not_vectorStores : ¬ Claim.VectorStores := by
  intro h
  obtain ⟨hvst, -⟩ := h preparing none 1 1 1 (fun i => 0x100000 + i * 8) (fun i => 0x100000 + i * 8) preparing_still
  obtain ⟨t, hexec, -, hbeside, -⟩ := hvst ⟨0, 0, 0⟩ 0 0x100000 (by decide) rfl rfl
    (fun i hi => by
      obtain ⟨hreach, hkind, hplain⟩ := preparing_reaches i (preparing_selected ▸ hi)
      exact ⟨hreach, hkind, hplain, fun _ _ hsame => hsame⟩)
    (.inr preparing_carries)
  have hctl : preparing.ctl = [(0, 0x4001), (0x078, 0x0000000100000000)] :=
    hbeside.ctl.symm.trans ((congrArg ctlAfter hexec).symm.trans preparing_clobbers)
  exact absurd hctl (by decide)

/-- Refutes O20 by its claim about stores: a VST whose first granule makes an object live clobbers it with the second, which
is counted and logged (R317, R361), where the claim has nothing change beside memory. -/
theorem not_vectorAccesses : ¬ Obligations.VectorAccesses := by
  intro ⟨_, hstores⟩
  exact not_vectorStores hstores

end Sys2Proof.Machine
end

section
/-! PROOF. Accesses in flight (O51), refuted: a submission that is gated as a release releases the flushes before it. -/

namespace Sys2Proof.Machine

/-! A submission behind a flush of its context (R100, R199, R270). -/

/-- A user context alone in slot 0 of core 0 has flushed a line at step 1 and then, at step 2, submitted a command whose gate
makes it a release at system scope. (FAPP itself posts its submissions without a gate; the claim speaks of every one.) -/
def submitting : State :=
  { State.reset with
    cur := { Context.reset 4096 0 0 false with
      io := { InFlight.none with posted := [⟨.f, [], 0, false, false, 2, { scope := some 6 }⟩] } }
    others := []
    now := 3
    ferry := [⟨0, 0, 1, 0, 0, 0, 4096, 0, 0, .replicate 8 0, false, false, 0, 0, none, none, false, [], none, 0, false, false,
      false, none, 0, 0⟩]
    flushes := [⟨5, 4096, 1, []⟩] }

/-- The flushes that are noted after a step. -/
def flushesAfter (o : Host.Outcome State Fault Refusal) : List Flush :=
  match o with
  | .next t => t.flushes
  | _ => []

/-- The ferry accepts the submission, and the line's flush is released at system scope. -/
theorem submitting_releases :
    flushesAfter (exec (.postedStoreAck 4096) submitting) = [⟨5, 4096, 1, [(3, 0, 6)]⟩] := by
  decide

theorem OnlyContext.flushes {s t : State} {uid : Nat} {f : Context → Context} (h : OnlyContext s t uid f) :
    t.flushes = s.flushes := (congrArg State.flushes h.1 :)

theorem not_postedAcks : ¬ Claim.PostedAcks := by
  intro h
  obtain ⟨-, hsubmit, -⟩ := h submitting 4096 submitting.cur _ [] (by simp only [Distinct]; decide) rfl rfl rfl rfl (by simp)
    (by simp only [Context.oldest]; decide)
  obtain ⟨t, more, hexec, honly, -⟩ := hsubmit [] _ [] rfl rfl rfl (by simp) rfl rfl
  have hflushes : submitting.flushes = [⟨5, 4096, 1, [(3, 0, 6)]⟩] :=
    honly.flushes.symm.trans ((congrArg flushesAfter hexec).symm.trans submitting_releases)
  exact absurd hflushes (by decide)

/-- Refutes O51 by its claim about posted stores: a submission whose gate makes it a release releases its context's flushes of
lines before it (R100), where the claim has nothing change beside the context, the ferry and what is due. -/
theorem not_flightSteps : ¬ Obligations.FlightSteps := by
  intro ⟨hposted, _⟩
  exact not_postedAcks hposted

end Sys2Proof.Machine
end

section
/-! PROOF. Walks, merges and fault records (O50, R179 to R182, R188, R190, R390). -/

namespace Sys2Proof.Machine

/-! Walks (R180 to R182, R190). -/

theorem exec_pageWalk (ia : Nat) (k : Access) (s : State) : exec (.pageWalk ia k) s = .next (s.meet ia k 0).2 := rfl

theorem wrote_putNum (s : State) (loc n v : Nat) : Wrote s (s.putNum loc n v) loc (toBytes n v) := wrote_of_noted (.refl _)

section Meet

variable {s : State} {ia : Nat} (hp : s.whereIs ia = .pageable)
include hp

theorem meet_write_clean {loc e log : Nat} (hw : s.walk ia = .leaf loc e log) (h4 : entryBit e 4 = true)
    (h6 : entryBit e 6 = false) (h7 : entryBit e 7 = false) (token : Nat) :
    (s.meet ia .write token).2 = s.putNum loc 8 (e + 2 ^ 7) := by
  simp [State.meet, hp, hw, h4, h6, h7]

theorem meet_read_leaf {loc e log : Nat} (hw : s.walk ia = .leaf loc e log) (token : Nat) :
    (s.meet ia .read token).2 = s := by
  cases hr : entryBit e 3 <;> simp [State.meet, hp, hw, hr]

theorem meet_absent {lv : Nat} (hw : s.walk ia = .absent lv) (k : Access) (token : Nat) : (s.meet ia k token).2 = s := by
  simp [State.meet, hp, hw]

end Meet

theorem walks_marked : Claim.Walks := by
  intro s ia loc e log hp
  refine ⟨fun hw h4 h6 h7 => ⟨s.putNum loc 8 (e + 2 ^ 7), ?_, wrote_putNum ..⟩, fun hw => ?_, fun k lv hw => ?_⟩
  · rw [exec_pageWalk, meet_write_clean hp hw h4 h6 h7]
  · rw [exec_pageWalk, meet_read_leaf hp hw]
  · rw [exec_pageWalk, meet_absent hp hw]

/-! An event of a die (R179, R390). -/

theorem dieEvent_fields (s : State) (die src : Nat) : { s.dieEvent die src with clusters := s.clusters } = s := by
  unfold State.dieEvent
  generalize List.range 32 = l
  induction l generalizing s with
  | nil => rfl
  | cons i l ih =>
    exact (congrArg (fun v : State => { v with clusters := s.clusters }) (ih (s.event (die * 32 + i) src)) :).trans
      (event_fields s (die * 32 + i) src)

theorem cluster_events (l : List Nat) (hl : l.Nodup) (s : State) (src k : Nat) :
    (l.foldl (fun s cl => s.event cl src) s).cluster k = if k ∈ l then (s.cluster k).counted src else s.cluster k := by
  induction l generalizing s with
  | nil => rfl
  | cons cl l ih =>
    obtain ⟨hcl, hl⟩ := List.nodup_cons.mp hl
    rw [List.foldl_cons, ih hl, cluster_event]
    by_cases hk : k = cl
    · simp [hk, hcl]
    · simp [hk]

theorem cluster_dieEvent (s : State) (die src k : Nat) :
    (s.dieEvent die src).cluster k = if k / 32 = die then (s.cluster k).counted src else s.cluster k := by
  have hmem : k ∈ (List.range 32).map (fun i => die * 32 + i) ↔ k / 32 = die := by
    simp only [List.mem_map, List.mem_range]
    exact ⟨fun ⟨i, hi, hk⟩ => by omega, fun h => ⟨k % 32, Nat.mod_lt _ (by omega), by omega⟩⟩
  have h := cluster_events ((List.range 32).map (fun i => die * 32 + i))
    (List.nodup_range.map fun i j hij => by simpa using hij) s src k
  rw [List.foldl_map] at h
  simp only [hmem] at h
  exact h

theorem merges_counted : Claim.Merges := fun _ _ _ => ⟨_, rfl, dieEvent_fields .., fun _ => cluster_dieEvent ..⟩

/-! Fault records (R188). -/

theorem exec_faultRecordPost (die : Nat) (s : State) : exec (.faultRecordPost die) s = .next (s.postWaiting die) := rfl

theorem ringPost_full {s : State} {die ctlOff : Nat} (h : ¬RingRoom s die ctlOff) (baseOff e : Nat) (bs : List Byte) :
    s.ringPost die baseOff ctlOff e bs = none := by
  unfold RingRoom at h
  unfold State.ringPost
  refine if_pos ?_
  rw [Bool.or_eq_true, decide_eq_true_iff, decide_eq_true_iff]
  tauto

theorem Posts.dies {s t : State} {die baseOff ctlOff e : Nat} {bs : List Byte} (h : Posts s t die baseOff ctlOff e bs) :
    t.dies = s.dies := (congrArg State.dies h.1 :)

theorem Posts.agenda {s t : State} {die baseOff ctlOff e : Nat} {bs : List Byte} (h : Posts s t die baseOff ctlOff e bs) :
    t.agenda = s.agenda := (congrArg State.agenda h.1 :)

theorem die_setDie (s : State) (d k : Nat) (v : Die) : (s.setDie d v).die k = if k = d then v else s.die k := tabGet_tabPut ..

/-- The records that wait at a die but for the oldest, which has been posted. -/
def State.faultTaken (s : State) (die : Nat) (rest : List FaultRec) : State :=
  { s.setDie die { s.die die with faultWait := rest } with
    agenda := s.agenda ++ (if rest = [] then [] else [.faultRecord die]) }

section FaultRecords

variable {s : State} {die : Nat} {r : FaultRec} {rest : List FaultRec} (hw : (s.die die).faultWait = r :: rest)
include hw

theorem postWaiting_full (h : ¬RingRoom s die 0x028) : s.postWaiting die = s := by
  simp only [State.postWaiting, hw, ringPost_full h]

theorem postWaiting_room (h : RingRoom s die 0x028) :
    s.postWaiting die = (s.recordPosted die 0x020 0x028 2 r.bytes).faultTaken die rest := by
  simp only [State.postWaiting, hw, ringPost_room h]
  cases rest with
  | nil => simp [State.faultTaken, State.setDie]
  | cons q rest => rfl

end FaultRecords

theorem faultRecords_posted : Claim.FaultRecords := by
  intro s die r rest hw
  refine ⟨fun h => ?_, fun h => ⟨(s.recordPosted die 0x020 0x028 2 r.bytes).faultTaken die rest, ?_, ?_⟩⟩
  · rw [exec_faultRecordPost, postWaiting_full hw h]
  · rw [exec_faultRecordPost, postWaiting_room hw h]
  · have hp := posts_recordPosted s die 0x020 0x028 2 r.bytes
    generalize s.recordPosted die 0x020 0x028 2 r.bytes = u at hp
    have hdie (k : Nat) : u.die k = s.die k := by rw [State.die, hp.dies]; rfl
    refine ⟨?_, ?_, fun d hd => ?_, ?_⟩
    · rw [← hp.dies, ← hp.agenda]
      exact hp
    · exact (die_setDie ..).trans ((if_pos rfl).trans (by rw [hdie]))
    · exact (die_setDie ..).trans ((if_neg hd).trans (hdie d))
    · exact congrArg (· ++ _) hp.agenda

end Sys2Proof.Machine
end

section
/-! PROOF. Breaks of copy-on-write pages (O50, R186). -/

namespace Sys2Proof.Machine

/-! A leaf's entry is what its place in memory holds. -/

theorem walkFrom_leaf {mem : List Host.Cell} {base ia loc e log : Nat} {ls : List (Nat × Nat × Nat × Nat)} {table : Nat}
    (h : walkFrom mem base ia ls table = .leaf loc e log) : e = fromBytes (cellsGet mem loc 8) := by
  induction ls generalizing table with
  | nil => cases h
  | cons l ls ih =>
    obtain ⟨level, low, bits, nextLog⟩ := l
    obtain ⟨-, habsent⟩ | ⟨-, h⟩ := ite_eq_iff.mp h
    · cases habsent
    obtain ⟨-, hbad⟩ | ⟨-, h⟩ := ite_eq_iff.mp h
    · cases hbad
    obtain ⟨-, hleaf⟩ | ⟨-, htable⟩ := ite_eq_iff.mp h
    · obtain ⟨rfl, rfl, -⟩ := Walk.leaf.inj hleaf
      rfl
    · exact ih htable

theorem walk_leaf {s : State} {ia loc e log : Nat} (h : s.walk ia = .leaf loc e log) : e = s.numAt loc 8 := by
  unfold State.walk at h
  dsimp only at h
  split at h
  · cases h
  · exact walkFrom_leaf h

/-! The entry and the count after a break. -/

/-- The entry of a page that has been copied to a frame of its own. -/
theorem copiedEntry_eq {e f : Nat} (he : e < 2 ^ 64) (h6 : entryBit e 6 = true) (hf : f % 2 ^ 15 = 0) (hlt : f < 2 ^ 52) :
    (e % 2 ^ 8 - 2 ^ 6 + (if entryBit e 7 then 0 else 2 ^ 7) + f / 2 ^ 8 % 2 ^ 44 * 2 ^ 8 + e / 2 ^ 52 * 2 ^ 52) % 256 ^ 8 =
      e % 2 ^ 8 - 2 ^ 6 + (if entryBit e 7 then 0 else 2 ^ 7) + f + e / 2 ^ 52 * 2 ^ 52 := by
  simp only [entryBit, decide_eq_true_eq] at h6 ⊢
  split <;> omega

theorem decrement_mod {r : Nat} (h2 : 2 ≤ r) (h : r < 256 ^ 4) : (r + 2 ^ 32 - 1) % 256 ^ 4 = r - 1 := by omega

/-- The upper half of a register one higher (R184). -/
theorem setBits_upper (w : Word) : setBits w 63 32 (bitsOf w 63 32 + 1) =
    (w.extractLsb' 32 32 + 1) ++ w.extractLsb' 0 32 := by
  apply BitVec.eq_of_toNat_eq
  rw [toNat_setBits, toNat_append_eq_add, BitVec.toNat_add, toNat_extract, toNat_extract]
  simp only [bitsOf, BitVec.toNat_ofNat, BitVec.ofNat_eq_ofNat]
  omega

/-! The steps of a break. -/

theorem exec_cowBreak {s : State} {ia loc e log : Nat} (hp : s.whereIs ia = .pageable) (hw : s.walk ia = .leaf loc e log)
    (h4 : entryBit e 4 = true) (h6 : entryBit e 6 = true) (lost : Bool) : exec (.cowBreak ⟨ia, lost⟩) s =
      .next (if lost then s.cowLost ia e log else (s.cowBreak ia loc e log 0).2) := by
  show execCowBreak ⟨ia, lost⟩ s = _
  simp only [execCowBreak, hp, hw, h4, h6]
  rfl

theorem takeFrame_reserve {s : State} {die f : Nat} (h : (s.die die).reserve = some f) :
    s.takeFrame die = (some f, s.setDie die { s.die die with reserve := none }) := by
  simp only [State.takeFrame, h]

/-- The machine once a break has taken a die's reserve frame. -/
def State.frameTaken (s : State) (die : Nat) : State := s.setDie die { s.die die with reserve := none }

/-- A page copied to a frame of its package. -/
def State.copied (s : State) (pkg pa f : Nat) : State :=
  s.putBytes (pkgBase pkg + f) (s.bytesAt (pkgBase pkg + pa) (2 ^ 15))

theorem copied_die (s : State) (pkg pa f d : Nat) : (s.copied pkg pa f).die d = s.die d := by
  rw [State.die, State.copied, State.putBytes_dies, State.die]

theorem ctlField_putNum (s : State) (loc n v die off hi lo : Nat) :
    (s.putNum loc n v).ctlField die off hi lo = s.ctlField die off hi lo := rfl

theorem descLoc_putNum (s : State) (loc n v pkg pa : Nat) : (s.putNum loc n v).descLoc pkg pa = s.descLoc pkg pa := rfl

/-- Bytes put in memory between two changes of dies leave the rest as it was. -/
theorem putBytes_between_dies (s : State) (d k loc : Nat) (v w : Die) (bs : List Byte) :
    { (((s.setDie d v).putBytes loc bs).setDie k w).withNotes s with mem := s.mem, poison := s.poison, dies := s.dies } = s := by
  cases s
  rfl

section Break

variable {s : State} {ia e : Nat}

theorem cowLost_sole (h : s.numAt (s.descLoc (ia / 2 ^ 53) (entryAddr e)) 4 ≤ 1) : s.cowLost ia e 15 = s := by
  unfold State.cowLost
  dsimp only
  rw [if_pos (by rw [Bool.or_eq_true, decide_eq_true_iff, decide_eq_true_iff]; exact .inr h)]

/-- The machine after a break whose CAS fails: the copy stays in the die's reserve frame. -/
def State.keptCopy (s : State) (ia e f : Nat) : State :=
  let u := (s.frameTaken (homeDie ia)).copied (ia / 2 ^ 53) (entryAddr e) f
  u.setDie (homeDie ia) { u.die (homeDie ia) with reserve := some f }

theorem cowLost_shared {f : Nat} (h : 2 ≤ s.numAt (s.descLoc (ia / 2 ^ 53) (entryAddr e)) 4)
    (hf : (s.die (homeDie ia)).reserve = some f) : s.cowLost ia e 15 = s.keptCopy ia e f := by
  unfold State.cowLost State.keptCopy State.copied State.frameTaken
  dsimp only
  rw [if_neg (by rw [Bool.or_eq_true, decide_eq_true_iff, decide_eq_true_iff]; omega), takeFrame_reserve hf]

theorem keptCopy_die {f : Nat} (hf : (s.die (homeDie ia)).reserve = some f) (d : Nat) :
    (s.keptCopy ia e f).die d = s.die d := by
  have hd (k : Nat) : ((s.frameTaken (homeDie ia)).copied (ia / 2 ^ 53) (entryAddr e) f).die k =
      if k = homeDie ia then { s.die (homeDie ia) with reserve := none } else s.die k := by
    rw [copied_die, State.frameTaken, die_setDie]
  rw [State.keptCopy, die_setDie, hd, hd, if_pos rfl]
  split
  · rename_i h
    rw [h, ← hf]
  · rfl

/-- The entry after a break in place. -/
theorem cowBreak_sole {loc : Nat} (h6 : entryBit e 6 = true) (h : s.numAt (s.descLoc (ia / 2 ^ 53) (entryAddr e)) 4 = 1)
    (token : Nat) : (s.cowBreak ia loc e 15 token).2 =
      ((s.putNum loc 8 (e - 2 ^ 6 + (if entryBit e 7 then 0 else 2 ^ 7))).ctlPutField (homeDie ia) 0x060 63 32
        (s.ctlField (homeDie ia) 0x060 63 32 + 1)).dieEvent (homeDie ia) 27 := by
  unfold State.cowBreak
  dsimp only
  rw [if_neg (by decide), if_neg (by rw [h]; decide), if_pos h, if_pos h6]
  dsimp only
  rw [ctlField_putNum]

/-- The entry after a break by a copy. -/
def copiedEntry (e f : Nat) : Nat :=
  e % 2 ^ 8 - 2 ^ 6 + (if entryBit e 7 then 0 else 2 ^ 7) + f / 2 ^ 8 % 2 ^ 44 * 2 ^ 8 + e / 2 ^ 52 * 2 ^ 52

/-- The page of an entry copied to a frame, to which the entry then points. -/
def State.moved (s : State) (ia loc e f : Nat) : State :=
  ((s.frameTaken (homeDie ia)).copied (ia / 2 ^ 53) (entryAddr e) f).putNum loc 8 (copiedEntry e f)

/-- A page moved to a frame of its own: the count of its old frame is one less, that of the new one 1. -/
def State.divided (s : State) (ia loc e f : Nat) : State :=
  let desc := s.descLoc (ia / 2 ^ 53) (entryAddr e)
  let fd := s.descLoc (ia / 2 ^ 53) f
  let s1 := s.moved ia loc e f
  ((s1.putNum desc 4 (s1.numAt desc 4 + 2 ^ 32 - 1)).putNum fd 4 1).putNum (fd + 4) 2 0

theorem descLoc_moved (s : State) (ia loc e f pkg pa : Nat) : (s.moved ia loc e f).descLoc pkg pa = s.descLoc pkg pa := by
  unfold State.descLoc State.ctlGet
  rw [State.moved, State.putNum, State.putBytes_ctl, State.copied, State.putBytes_ctl, State.frameTaken, State.setDie_ctl]

theorem cowBreak_shared {loc f : Nat} (h6 : entryBit e 6 = true)
    (h : 2 ≤ s.numAt (s.descLoc (ia / 2 ^ 53) (entryAddr e)) 4) (hf : (s.die (homeDie ia)).reserve = some f) (token : Nat) :
    (s.cowBreak ia loc e 15 token).2 = ((s.divided ia loc e f).ctlPutField (homeDie ia) 0x060 63 32
      ((s.divided ia loc e f).ctlField (homeDie ia) 0x060 63 32 + 1)).dieEvent (homeDie ia) 27 := by
  have hfd := descLoc_moved s ia loc e f (ia / 2 ^ 53) f
  unfold State.moved State.copied State.frameTaken copiedEntry at hfd
  unfold State.cowBreak State.divided State.moved State.copied State.frameTaken copiedEntry
  dsimp only
  rw [if_neg (by decide), if_neg (by omega), if_neg (by omega), takeFrame_reserve hf]
  dsimp only
  rw [if_pos h6, descLoc_putNum, hfd]

end Break

/-! What a break by a copy leaves in memory. -/

theorem cellGet_putBytes (s : State) {loc a : Nat} {bs : List Byte} (h : a < loc ∨ loc + bs.length ≤ a) :
    cellGet (s.putBytes loc bs).mem a = cellGet s.mem a := (stored_putBytes s loc bs).2 a h

theorem bytesAt_putNum_apart (s : State) {loc n v at_ m : Nat} (h : Apart loc n at_ m) :
    (s.putNum loc n v).bytesAt at_ m = s.bytesAt at_ m :=
  cellsGet_congr fun a h1 h2 => cellGet_putNum s (by unfold Apart at h; omega)

theorem copied_mem (s : State) {pkg pa f a : Nat} (h : a < pkgBase pkg + f ∨ pkgBase pkg + f + 2 ^ 15 ≤ a) :
    cellGet (s.copied pkg pa f).mem a = cellGet s.mem a := by
  refine cellGet_putBytes s ?_
  rwa [State.bytesAt, cellsGet_length]

theorem bytesAt_copied (s : State) (pkg pa f : Nat) :
    (s.copied pkg pa f).bytesAt (pkgBase pkg + f) (2 ^ 15) = s.bytesAt (pkgBase pkg + pa) (2 ^ 15) := by
  have h := bytesAt_putBytes s (pkgBase pkg + f) (s.bytesAt (pkgBase pkg + pa) (2 ^ 15))
  rwa [State.bytesAt, State.bytesAt, cellsGet_length] at h

theorem frameTaken_bytesAt (s : State) (die at_ n : Nat) : (s.frameTaken die).bytesAt at_ n = s.bytesAt at_ n := by
  rw [State.frameTaken, State.bytesAt, State.setDie_mem, State.bytesAt]

theorem keptCopy_stored (s : State) (ia e f : Nat) : Stored s (s.keptCopy ia e f) (pkgBase (ia / 2 ^ 53) + f)
    (s.bytesAt (pkgBase (ia / 2 ^ 53) + entryAddr e) (2 ^ 15)) := by
  have h := stored_putBytes (s.frameTaken (homeDie ia)) (pkgBase (ia / 2 ^ 53) + f)
    (s.bytesAt (pkgBase (ia / 2 ^ 53) + entryAddr e) (2 ^ 15))
  have hmem : (s.keptCopy ia e f).mem = ((s.frameTaken (homeDie ia)).putBytes (pkgBase (ia / 2 ^ 53) + f)
      (s.bytesAt (pkgBase (ia / 2 ^ 53) + entryAddr e) (2 ^ 15))).mem := by
    rw [State.keptCopy, State.setDie_mem, State.copied, frameTaken_bytesAt]
  refine ⟨?_, fun a ha => ?_⟩
  · rw [State.bytesAt, hmem]
    exact h.1
  · rw [hmem, h.2 a ha, State.frameTaken, State.setDie_mem]

section Divided

variable {s : State} {ia loc e f : Nat}

theorem moved_mem {a : Nat} (h1 : a < pkgBase (ia / 2 ^ 53) + f ∨ pkgBase (ia / 2 ^ 53) + f + 2 ^ 15 ≤ a)
    (h2 : a < loc ∨ loc + 8 ≤ a) : cellGet (s.moved ia loc e f).mem a = cellGet s.mem a := by
  rw [State.moved, cellGet_putNum _ h2, copied_mem _ h1, State.frameTaken, State.setDie_mem]

theorem divided_mem {a : Nat} (h1 : a < pkgBase (ia / 2 ^ 53) + f ∨ pkgBase (ia / 2 ^ 53) + f + 2 ^ 15 ≤ a)
    (h2 : a < loc ∨ loc + 8 ≤ a)
    (h3 : a < s.descLoc (ia / 2 ^ 53) (entryAddr e) ∨ s.descLoc (ia / 2 ^ 53) (entryAddr e) + 4 ≤ a)
    (h4 : a < s.descLoc (ia / 2 ^ 53) f ∨ s.descLoc (ia / 2 ^ 53) f + 6 ≤ a) :
    cellGet (s.divided ia loc e f).mem a = cellGet s.mem a := by
  unfold State.divided
  rw [cellGet_putNum _ (by omega), cellGet_putNum _ (by omega), cellGet_putNum _ h3, moved_mem h1 h2]

theorem divided_die_reserve : ((s.divided ia loc e f).die (homeDie ia)).reserve = none := by
  have h : (s.divided ia loc e f).dies = (s.frameTaken (homeDie ia)).dies := by
    simp only [State.divided, State.moved, State.copied, State.putNum, State.putBytes_dies]
  rw [State.die, h, ← State.die, State.frameTaken, die_setDie, if_pos rfl]

section Apart

variable (hnl : Apart (pkgBase (ia / 2 ^ 53) + f) (2 ^ 15) loc 8)
  (hnd : Apart (pkgBase (ia / 2 ^ 53) + f) (2 ^ 15) (s.descLoc (ia / 2 ^ 53) (entryAddr e)) 16)
  (hnf : Apart (pkgBase (ia / 2 ^ 53) + f) (2 ^ 15) (s.descLoc (ia / 2 ^ 53) f) 16)
  (hdf : Apart (s.descLoc (ia / 2 ^ 53) (entryAddr e)) 16 (s.descLoc (ia / 2 ^ 53) f) 16)
  (hdl : Apart (s.descLoc (ia / 2 ^ 53) (entryAddr e)) 16 loc 8) (hfl : Apart (s.descLoc (ia / 2 ^ 53) f) 16 loc 8)

include hnl hnd hnf in
theorem divided_page : (s.divided ia loc e f).bytesAt (pkgBase (ia / 2 ^ 53) + f) (2 ^ 15) =
    s.bytesAt (pkgBase (ia / 2 ^ 53) + entryAddr e) (2 ^ 15) := by
  unfold Apart at hnl hnd hnf
  unfold State.divided State.moved
  rw [bytesAt_putNum_apart _ (by unfold Apart; omega), bytesAt_putNum_apart _ (by unfold Apart; omega),
    bytesAt_putNum_apart _ (by unfold Apart; omega), bytesAt_putNum_apart _ (by unfold Apart; omega), bytesAt_copied,
    frameTaken_bytesAt]

include hdl hfl in
theorem divided_entry : (s.divided ia loc e f).numAt loc 8 = copiedEntry e f % 256 ^ 8 := by
  unfold Apart at hdl hfl
  unfold State.divided
  rw [numAt_putNum_apart _ (by unfold Apart; omega), numAt_putNum_apart _ (by unfold Apart; omega),
    numAt_putNum_apart _ (by unfold Apart; omega), State.moved, numAt_putNum]

include hnd hdl in
theorem moved_count : (s.moved ia loc e f).numAt (s.descLoc (ia / 2 ^ 53) (entryAddr e)) 4 =
    s.numAt (s.descLoc (ia / 2 ^ 53) (entryAddr e)) 4 := by
  unfold Apart at hnd hdl
  exact numAt_congr fun a h1 h2 => moved_mem (by omega) (by omega)

include hnd hdl hdf in
theorem divided_count (h : 2 ≤ s.numAt (s.descLoc (ia / 2 ^ 53) (entryAddr e)) 4) :
    (s.divided ia loc e f).numAt (s.descLoc (ia / 2 ^ 53) (entryAddr e)) 4 =
      s.numAt (s.descLoc (ia / 2 ^ 53) (entryAddr e)) 4 - 1 := by
  have hcount := moved_count hnd hdl
  unfold Apart at hdf
  unfold State.divided
  rw [numAt_putNum_apart _ (by unfold Apart; omega), numAt_putNum_apart _ (by unfold Apart; omega), numAt_putNum, hcount,
    decrement_mod h (numAt_lt ..)]

theorem divided_newCount : (s.divided ia loc e f).numAt (s.descLoc (ia / 2 ^ 53) f) 4 = 1 := by
  unfold State.divided
  rw [numAt_putNum_apart _ (by unfold Apart; omega), numAt_putNum]
  rfl

end Apart

end Divided

theorem dieEvent_mem (s : State) (die src : Nat) : (s.dieEvent die src).mem = s.mem := by
  have h := dieEvent_fields s die src
  generalize s.dieEvent die src = t at h ⊢
  exact (congrArg State.mem h :)

theorem dieEvent_dies (s : State) (die src : Nat) : (s.dieEvent die src).dies = s.dies := by
  have h := dieEvent_fields s die src
  generalize s.dieEvent die src = t at h ⊢
  exact (congrArg State.dies h :)

/-- A break in place, but for its count. -/
def State.claimed (s : State) (loc e : Nat) : State :=
  s.putNum loc 8 (e - 2 ^ 6 + (if entryBit e 7 then 0 else 2 ^ 7))

/-- A break counted at a die. -/
def State.breakCounted (s : State) (die : Nat) : State := s.ctlPutField die 0x060 63 32 (s.ctlField die 0x060 63 32 + 1)

theorem breakCounted_only (s : State) (die : Nat) : OnlyCtl s (s.breakCounted die) die 0x060
    (((s.ctlGet die 0x060).extractLsb' 32 32 + 1) ++ (s.ctlGet die 0x060).extractLsb' 0 32) := by
  rw [← setBits_upper]
  exact onlyCtl_ctlSet ..

theorem breakCounted_mem (s : State) (die : Nat) : (s.breakCounted die).mem = s.mem := rfl

theorem breakCounted_dies (s : State) (die : Nat) : (s.breakCounted die).dies = s.dies := rfl

/-- A shared page after its break: the machine but for the counters. -/
def State.apart (s : State) (ia loc e f : Nat) : State :=
  ((s.divided ia loc e f).breakCounted (homeDie ia)).dieEvent (homeDie ia) 27

theorem apart_mem (s : State) (ia loc e f : Nat) : (s.apart ia loc e f).mem = (s.divided ia loc e f).mem := by
  rw [State.apart, dieEvent_mem, breakCounted_mem]

theorem apart_die (s : State) (ia loc e f d : Nat) : (s.apart ia loc e f).die d = (s.divided ia loc e f).die d := by
  rw [State.die, State.apart, dieEvent_dies, breakCounted_dies, State.die]

theorem breaks_done : Claim.Breaks := by
  intro s ia loc e hp hw h4 h6
  have hexec := exec_cowBreak hp hw h4 h6
  refine ⟨fun h => ?_, fun f h hf => ⟨s.keptCopy ia e f, ?_, ?_, keptCopy_die hf, keptCopy_stored ..⟩, fun h => ?_,
    fun f h hf hmod hlt hnl hnd hnf hdf hdl hfl hnp => ⟨s.apart ia loc e f, ?_, ?_, ?_, ?_, ?_, ?_, ?_⟩⟩
  · rw [hexec, if_pos rfl, cowLost_sole h]
  · rw [hexec, if_pos rfl, cowLost_shared h hf]
  · exact putBytes_between_dies ..
  · refine ⟨((s.claimed loc e).breakCounted (homeDie ia)).dieEvent (homeDie ia) 27, s.claimed loc e,
      (s.claimed loc e).breakCounted (homeDie ia), ?_, wrote_putNum .., breakCounted_only .., dieEvent_fields ..,
      fun k => cluster_dieEvent ..⟩
    rw [hexec, if_neg Bool.false_ne_true, cowBreak_sole h6 h]
    rfl
  · rw [hexec, if_neg Bool.false_ne_true, cowBreak_shared h6 h hf]
    rfl
  · rw [State.bytesAt, apart_mem]
    exact divided_page hnl hnd hnf
  · rw [State.numAt, State.bytesAt, apart_mem]
    refine (divided_entry hdl hfl).trans (copiedEntry_eq ?_ h6 hmod hlt)
    rw [walk_leaf hw]
    exact numAt_lt s loc 8
  · rw [State.numAt, State.bytesAt, apart_mem]
    exact divided_count hnd hdf hdl h
  · rw [State.numAt, State.bytesAt, apart_mem]
    exact divided_newCount
  · rw [apart_die]
    exact divided_die_reserve
  · intro a h1 h2 h3 h4
    rw [apart_mem]
    exact divided_mem h1 h2 h3 h4

end Sys2Proof.Machine
end

section
/-! PROOF. Epochs of the access counters (O50, R187). -/

namespace Sys2Proof.Machine

/-! Pages by their frames: a page that is found lies in its package. -/

/-- Each level's index lies right below that of the level before it, the first one's below a bit. -/
def indexed : Nat → List (Nat × Nat × Nat × Nat) → Prop
  | _, [] => True
  | top, (_, low, bits, _) :: rest => low + bits = top ∧ indexed low rest

theorem leafOf_lt {mem : List Host.Cell} {base pa top table ia found : Nat} {ls : List (Nat × Nat × Nat × Nat)}
    (hls : indexed top ls) (h : leafOf mem base pa ls table ia = some found) : found < ia + 2 ^ top := by
  induction ls generalizing top table ia with
  | nil => cases h
  | cons l ls ih =>
    obtain ⟨level, low, bits, nextLog⟩ := l
    obtain ⟨rfl, hrest⟩ := hls
    obtain ⟨k, hk, hfound⟩ := List.exists_of_findSome?_eq_some h
    have hreach : ia + k * 2 ^ low + 2 ^ low ≤ ia + 2 ^ (low + bits) := by
      have := Nat.mul_le_mul_right (2 ^ low) (Nat.succ_le_of_lt (List.mem_range.mp hk))
      rw [Nat.succ_mul] at this
      rw [Nat.pow_add, Nat.mul_comm (2 ^ low)]
      omega
    refine Nat.lt_of_lt_of_le ?_ hreach
    obtain ⟨-, hnone⟩ | ⟨-, hfound⟩ := ite_eq_iff.mp hfound
    · cases hnone
    obtain ⟨-, hleaf⟩ | ⟨-, htable⟩ := ite_eq_iff.mp hfound
    · obtain ⟨-, hpage⟩ | ⟨-, hnone⟩ := ite_eq_iff.mp hleaf
      · obtain rfl := Option.some.inj hpage
        exact Nat.lt_add_of_pos_right (Nat.two_pow_pos low)
      · cases hnone
    · exact ih hrest htable

theorem indexed_levels : indexed 52 levels := ⟨rfl, rfl, rfl, rfl, rfl, trivial⟩

theorem pageOf_package {s : State} {pkg pa ia : Nat} (h : s.pageOf pkg pa = some ia) : ia / 2 ^ 53 = pkg := by
  obtain ⟨found, hfound, rfl⟩ := Option.map_eq_some_iff.mp h
  have := leafOf_lt indexed_levels hfound
  omega

theorem frameIndex_framePa {f : Nat} (h : f < allFrames) : frameIndex (framePa f) = f := by
  unfold allFrames at h
  unfold frameIndex framePa
  split
  · rw [if_pos (by omega)]
    omega
  split
  · rw [if_neg (by omega), if_pos (by omega)]
    omega
  · rw [if_neg (by omega), if_neg (by omega)]
    omega

theorem descLoc_framePa (s : State) (pkg : Nat) {f : Nat} (h : f < allFrames) :
    s.descLoc pkg (framePa f) = s.descLoc pkg 0 + 16 * f := by
  unfold State.descLoc
  rw [frameIndex_framePa h, show frameIndex 0 = 0 from rfl]
  omega

/-! The end of an epoch on a die (R187). -/

theorem exec_epochEnd (pkg : Nat) (up down : List Nat) (s : State) :
    exec (.epochEnd pkg up down) s = execEpochEnd pkg up down s := rfl

/-- The dies of a package whose epochs are over. -/
def State.overDies (s : State) (pkg : Nat) : List Nat := ((List.range 4).map (fun k => pkg * 4 + k)).filter s.epochOver

/-- Whether EPOCH.US microseconds have passed on a die since its last epoch ended. -/
def State.Over (s : State) (d : Nat) : Prop :=
  s.ctlField d 0x040 31 0 * 1000 ≤ s.elapsed (max (s.die d).epochAt s.resetAt)

theorem mem_overDies (s : State) (pkg d : Nat) : d ∈ s.overDies pkg ↔ d / 4 = pkg ∧ s.Over d := by
  rw [State.overDies, List.mem_filter, State.epochOver, decide_eq_true_iff, State.Over, List.mem_map]
  refine and_congr_left fun _ => ⟨fun ⟨k, hk, hd⟩ => ?_, fun h => ⟨d % 4, ?_, ?_⟩⟩
  · have := List.mem_range.mp hk
    omega
  · exact List.mem_range.mpr (by omega)
  · omega

theorem overDies_nodup (s : State) (pkg : Nat) : (s.overDies pkg).Nodup :=
  (List.nodup_range.map fun i j hij => by simpa using hij).filter _

/-- The epochs of some dies begin anew. -/
def State.renewed (s : State) (dies : List Nat) : State := dies.foldl (fun s d => s.setDie d { s.die d with epochAt := s.now }) s

theorem renewed_fields (s : State) (dies : List Nat) : { s.renewed dies with dies := s.dies } = s := by
  unfold State.renewed
  induction dies generalizing s with
  | nil => rfl
  | cons d dies ih => exact (congrArg (fun v : State => { v with dies := s.dies }) (ih (s.setDie d _)) :)

theorem renewed_die (s : State) {dies : List Nat} (hn : dies.Nodup) (d : Nat) :
    (s.renewed dies).die d = if d ∈ dies then { s.die d with epochAt := s.now } else s.die d := by
  unfold State.renewed
  induction dies generalizing s with
  | nil => rfl
  | cons a dies ih =>
    obtain ⟨ha, hn⟩ := List.nodup_cons.mp hn
    rw [List.foldl_cons, ih _ hn, die_setDie]
    by_cases hd : d = a
    · simp [hd, ha]
    · simp [hd]

theorem execEpochEnd_off {s : State} {pkg : Nat} (h : (s.ctlGet (pkg * 4) 0x000).getLsbD 0 = false) (up down : List Nat) :
    execEpochEnd pkg up down s = .next (s.renewed (s.overDies pkg)) := by
  unfold execEpochEnd
  dsimp only
  rw [h, if_neg Bool.false_ne_true]
  rfl

theorem execEpochEnd_on {s : State} {pkg : Nat} (h : (s.ctlGet (pkg * 4) 0x000).getLsbD 0 = true) (up down : List Nat) :
    execEpochEnd pkg up down s = .next ((List.range allFrames).foldl (State.epochFrame pkg (s.overDies pkg) (up ++ down))
      (s.renewed (s.overDies pkg))) := by
  unfold execEpochEnd
  dsimp only
  rw [h, if_pos rfl]
  rfl

theorem epochFrame_none (pkg : Nat) (pages : List Nat) (s : State) (f : Nat) : s.epochFrame pkg [] pages f = s := by
  unfold State.epochFrame
  dsimp only
  rw [List.contains_nil, Bool.not_false, if_pos rfl]

theorem epochEnd_early {s : State} {pkg : Nat} (h : s.overDies pkg = []) (up down : List Nat) :
    execEpochEnd pkg up down s = .next s := by
  cases hen : (s.ctlGet (pkg * 4) 0x000).getLsbD 0 with
  | false => rw [execEpochEnd_off hen, h]; rfl
  | true =>
    rw [execEpochEnd_on hen, h]
    exact congrArg Host.Outcome.next (foldl_id _ _ _ fun f _ => epochFrame_none ..)

/-! A frame's descriptor at the end of an epoch (R187). -/

/-- A frame descriptor whose COUNT starts anew, with its nibbles. -/
def State.swept (s : State) (loc nibbles : Nat) : State := (s.draw.2.putNum (loc + 4) 2 0).putNum (loc + 6) 1 nibbles

/-- The request of a frame names a page of its package, whose die's thresholds hold. -/
theorem epochFrame_cases (s : State) {pkg : Nat} {pages : List Nat} (h : ∀ ia ∈ pages, ia / 2 ^ 53 = pkg) (dies : List Nat)
    (f : Nat) : ∃ ia, ia / 2 ^ 53 = pkg ∧ (homeDie ia ∈ dies → ∃ n,
      s.epochFrame pkg dies pages f = s.swept (s.descLoc pkg (framePa f)) n ∨
      ∃ up, s.epochFrame pkg dies pages f = (s.swept (s.descLoc pkg (framePa f)) n).migrate ia up) := by
  have hopen : (s.draw.2.pageOf pkg (framePa f)).getD (pkg * 2 ^ 53 + s.draw.1 / 16 % 2 ^ 52) / 2 ^ 53 = pkg := by
    cases hpage : s.draw.2.pageOf pkg (framePa f) with
    | none =>
      rw [Option.getD_none]
      omega
    | some ia => exact pageOf_package hpage
  unfold State.epochFrame
  dsimp only
  split
  case' h_1 hfind => refine ⟨_, h _ (List.mem_of_find?_eq_some hfind), fun hd => ?_⟩
  case' h_2 hfind => refine ⟨_, hopen, fun hd => ?_⟩
  all_goals
    rw [if_neg (by rw [List.contains_iff_mem.mpr hd]; decide)]
    split
    · exact ⟨_, .inr ⟨_, rfl⟩⟩
    · exact ⟨_, .inl rfl⟩

/-- Without a migration ring a request is dropped and counted. -/
theorem migrate_dropped {s : State} {ia : Nat} (h : s.ctlField (homeDie ia) 0x038 63 48 = 0) (up : Bool) :
    ∃ n, s.migrate ia up = s.ctlPutField (homeDie ia) 0x060 31 16 n := by
  unfold State.migrate
  dsimp only
  rw [ringPost_full fun hr => hr.1 h]
  exact ⟨_, rfl⟩

/-- The counts of some frames of a package start anew: nothing else in memory has changed, nor where descriptors and the
migration rings lie, nor the contexts. -/
structure Sweeps (pkg : Nat) (s t : State) (fs : List Nat) : Prop where
  contexts : t.contexts = s.contexts
  desc : ∀ pa, t.descLoc pkg pa = s.descLoc pkg pa
  rings : ∀ d, t.ctlField d 0x038 63 48 = s.ctlField d 0x038 63 48
  counts : ∀ f ∈ fs, t.numAt (s.descLoc pkg 0 + 16 * f + 4) 2 = 0
  memory : ∀ a, (∀ f ∈ fs, a < s.descLoc pkg 0 + 16 * f + 4 ∨ s.descLoc pkg 0 + 16 * f + 7 ≤ a) →
    cellGet t.mem a = cellGet s.mem a

theorem Sweeps.nil (pkg : Nat) (s : State) : Sweeps pkg s s [] := ⟨rfl, fun _ => rfl, fun _ => rfl, by simp, fun _ _ => rfl⟩

/-- Descriptors are 16 bytes apart, so that a frame swept before keeps its count. -/
theorem Sweeps.cons {pkg f : Nat} {fs : List Nat} {s t u : State} (h : Sweeps pkg s t [f]) (h' : Sweeps pkg t u fs) :
    Sweeps pkg s u (f :: fs) := by
  have hbase := h.desc 0
  refine ⟨h'.contexts.trans h.contexts, fun pa => (h'.desc pa).trans (h.desc pa), fun d => (h'.rings d).trans (h.rings d),
    fun g hg => ?_, fun a ha => ?_⟩
  · by_cases hmem : g ∈ fs
    · rw [← hbase]
      exact h'.counts g hmem
    · obtain rfl : g = f := (List.mem_cons.mp hg).resolve_right hmem
      refine Eq.trans (numAt_congr fun a h1 h2 => h'.memory a fun k hk => ?_) (h.counts g List.mem_cons_self)
      have : k ≠ g := fun e => hmem (e ▸ hk)
      omega
  · rw [h'.memory a fun k hk => by rw [hbase]; exact ha k (List.mem_cons_of_mem _ hk),
      h.memory a fun k hk => ha k (by rw [List.mem_singleton.mp hk]; exact List.mem_cons_self)]

/-- None of this is about dies. -/
theorem Sweeps.setDies {pkg : Nat} {fs : List Nat} {s t : State} (h : Sweeps pkg s t fs) (ds : List (Nat × Die)) :
    Sweeps pkg { s with dies := ds } t fs := ⟨h.contexts, h.desc, h.rings, h.counts, h.memory⟩

theorem swept_sweeps (s : State) (pkg f n : Nat) : Sweeps pkg s (s.swept (s.descLoc pkg 0 + 16 * f) n) [f] := by
  refine ⟨rfl, fun _ => rfl, fun _ => rfl, fun g hg => ?_, fun a ha => ?_⟩
  · rw [List.mem_singleton.mp hg, State.swept, numAt_putNum_apart _ (by unfold Apart; omega), numAt_putNum, Nat.zero_mod]
  · have := ha f List.mem_cons_self
    rw [State.swept, cellGet_putNum _ (by omega), cellGet_putNum _ (by omega)]
    rfl

/-- A count of dropped requests is none of the registers that place descriptors and migration rings. -/
theorem Sweeps.drop {pkg : Nat} {fs : List Nat} {s t : State} (h : Sweeps pkg s t fs) (die v : Nat) :
    Sweeps pkg s (t.ctlPutField die 0x060 31 16 v) fs := by
  have hkept (d o : Nat) (ho : ctlKey d o ≠ ctlKey die 0x060) : (t.ctlPutField die 0x060 31 16 v).ctlGet d o = t.ctlGet d o :=
    (ctlGet_ctlSet ..).trans (if_neg ho)
  refine ⟨h.contexts, fun pa => ?_, fun d => ?_, h.counts, h.memory⟩
  · rw [← h.desc pa, State.descLoc, hkept _ _ (by simp only [ctlKey, pkgWide]; omega), State.descLoc]
  · rw [← h.rings d, State.ctlField, hkept _ _ (by simp only [ctlKey, pkgWide]; omega), State.ctlField]

section Sweep

variable {pkg : Nat} {dies pages : List Nat} (hdies : ∀ d, d / 4 = pkg → d ∈ dies) (hpages : ∀ ia ∈ pages, ia / 2 ^ 53 = pkg)
include hdies hpages

theorem epochFrame_sweeps {s : State} (hring : ∀ d, s.ctlField d 0x038 63 48 = 0) {f : Nat} (hf : f < allFrames) :
    Sweeps pkg s (s.epochFrame pkg dies pages f) [f] := by
  obtain ⟨ia, hpage, hcases⟩ := epochFrame_cases s hpages dies f
  obtain ⟨n, hcases⟩ := hcases (hdies _ (by unfold homeDie; omega))
  have hswept := swept_sweeps s pkg f n
  rw [descLoc_framePa s pkg hf] at hcases
  obtain hplain | ⟨up, hmigrates⟩ := hcases
  · rw [hplain]
    exact hswept
  · obtain ⟨v, hdrop⟩ := migrate_dropped ((hswept.rings (homeDie ia)).trans (hring _)) up
    rw [hmigrates, hdrop]
    exact hswept.drop ..

theorem epochFrames_sweep (l : List Nat) {s : State} (hring : ∀ d, s.ctlField d 0x038 63 48 = 0) (hl : ∀ f ∈ l, f < allFrames) :
    Sweeps pkg s (l.foldl (State.epochFrame pkg dies pages) s) l := by
  induction l generalizing s with
  | nil => exact .nil pkg s
  | cons f l ih =>
    have hfirst := epochFrame_sweeps hdies hpages hring (hl f List.mem_cons_self)
    exact hfirst.cons (ih (fun d => (hfirst.rings d).trans (hring d)) fun g hg => hl g (List.mem_cons_of_mem _ hg))

end Sweep

theorem epochs_end : Claim.Epochs := by
  intro s pkg up down
  refine ⟨fun h => ?_, fun hen => ⟨s.renewed (s.overDies pkg), ?_, renewed_fields .., fun d => ⟨fun h => ?_, fun h => ?_⟩⟩,
    fun hen hover hpages hring => ⟨_, (exec_epochEnd ..).trans (execEpochEnd_on hen ..), ?_⟩⟩
  · rw [exec_epochEnd, epochEnd_early]
    refine List.eq_nil_iff_forall_not_mem.mpr fun d hd => ?_
    obtain ⟨hpkg, hd⟩ := (mem_overDies ..).mp hd
    exact h d hpkg hd
  · rw [exec_epochEnd, execEpochEnd_off hen]
  · rw [renewed_die s (overDies_nodup ..), if_pos ((mem_overDies ..).mpr h)]
  · rw [renewed_die s (overDies_nodup ..), if_neg (mt (mem_overDies ..).mp h)]
  · have hrenewed := renewed_fields s (s.overDies pkg)
    have hdies : ∀ d, d / 4 = pkg → d ∈ s.overDies pkg := fun d hd => (mem_overDies s pkg d).mpr ⟨hd, hover d hd⟩
    generalize s.renewed (s.overDies pkg) = u at hrenewed
    have hrings (d : Nat) : u.ctlField d 0x038 63 48 = 0 :=
      (congrArg (fun v : State => v.ctlField d 0x038 63 48) hrenewed :).trans (hring d)
    have hsweep := (epochFrames_sweep hdies hpages (List.range allFrames) hrings fun f => List.mem_range.mp).setDies s.dies
    rw [hrenewed] at hsweep
    exact ⟨fun f hf => hsweep.counts f (List.mem_range.mpr hf), fun a ha => hsweep.memory a fun f hf => ha f (List.mem_range.mp hf),
      hsweep.contexts⟩

end Sys2Proof.Machine
end

section
/-! PROOF. The global windows (R284) through the steps of the memory side (O50): a posted store's page is the same before and
after them. -/

namespace Sys2Proof.Machine

/-- The packages are the same, and so are the registers of the global windows. -/
def WindowsKept (s t : State) : Prop :=
  t.packages = s.packages ∧ ∀ die off, 0x800 ≤ off → off < 0x1000 → t.ctlGet die off = s.ctlGet die off

theorem WindowsKept.of_ctl {s t : State} (hp : t.packages = s.packages) (hc : t.ctl = s.ctl) : WindowsKept s t :=
  ⟨hp, fun _ _ _ _ => by rw [State.ctlGet, hc, State.ctlGet]⟩

theorem WindowsKept.refl (s : State) : WindowsKept s s := .of_ctl rfl rfl

theorem WindowsKept.trans {s t u : State} (h : WindowsKept s t) (h' : WindowsKept t u) : WindowsKept s u :=
  ⟨h'.1.trans h.1, fun die off h1 h2 => (h'.2 die off h1 h2).trans (h.2 die off h1 h2)⟩

theorem WindowsKept.foldl {α : Type} {f : State → α → State} (h : ∀ t a, WindowsKept t (f t a)) (l : List α) (s : State) :
    WindowsKept s (l.foldl f s) := by
  induction l generalizing s with
  | nil => exact .refl s
  | cons a l ih => exact (h s a).trans (ih _)

theorem mapGlobal_kept {s t : State} (h : WindowsKept s t) (g : Nat) (k : Access) : t.mapGlobal g k = s.mapGlobal g k := by
  have hwhere (ia : Nat) : t.whereIs ia = s.whereIs ia := by
    unfold State.whereIs
    rw [h.1]
  have hwin (core : Nat) : t.gwin core = s.gwin core := by
    unfold State.gwin
    rw [h.2 _ _ (by omega) (by omega), h.2 _ _ (by omega) (by omega)]
  unfold State.mapGlobal State.gwLength State.gwIa
  simp only [hwin, hwhere, h.1]

theorem postedIa_kept {s t : State} (h : WindowsKept s t) (p : Posted) : t.postedIa p = s.postedIa p := by
  unfold State.postedIa
  simp only [mapGlobal_kept h]

theorem postedPage_kept {s t : State} (h : WindowsKept s t) (p : Posted) : t.postedPage p = s.postedPage p := by
  unfold State.postedPage
  rw [postedIa_kept h]

/-! Steps that keep the windows. -/

theorem ctlPutField_windows (s : State) (die : Nat) {off : Nat} (h : off < 0x800) (hi lo v : Nat) :
    WindowsKept s (s.ctlPutField die off hi lo v) := by
  refine ⟨rfl, fun d o h1 h2 => (ctlGet_ctlSet ..).trans (if_neg ?_)⟩
  have hwide : pkgWide o = false := by simp [pkgWide]; omega
  have hkey : ctlKey d o = d * 0x1000 + o := by simp [ctlKey, hwide]
  have hlow : ctlKey die off % 0x1000 = off := by
    unfold ctlKey
    omega
  omega

theorem signal_windows (s : State) (die e : Nat) : WindowsKept s (s.signal die e) := by
  obtain ⟨b, m, he⟩ := signal_eq s die e
  rw [he]
  exact .of_ctl rfl rfl

theorem dieEvent_windows (s : State) (die src : Nat) : WindowsKept s (s.dieEvent die src) := by
  have h := dieEvent_fields s die src
  generalize s.dieEvent die src = t at h ⊢
  exact .of_ctl (congrArg State.packages h :) (congrArg State.ctl h :)

theorem WindowsKept.ite {s : State} {α : Type} {p : Prop} [Decidable p] {a b : α × State} (ha : WindowsKept s a.2)
    (hb : WindowsKept s b.2) : WindowsKept s (if p then a else b).2 := by
  split
  · exact ha
  · exact hb

theorem putBytes_windows (s : State) (loc : Nat) (bs : List Byte) : WindowsKept s (s.putBytes loc bs) := .of_ctl rfl rfl

theorem putNum_windows (s : State) (loc n v : Nat) : WindowsKept s (s.putNum loc n v) := .of_ctl rfl rfl

theorem ringPost_windows {s t : State} {die baseOff ctlOff e : Nat} {bs : List Byte} (ho : ctlOff < 0x800)
    (h : s.ringPost die baseOff ctlOff e bs = some t) : WindowsKept s t := by
  by_cases hr : RingRoom s die ctlOff
  · rw [ringPost_room hr] at h
    have hrecorded : WindowsKept s (s.recorded die baseOff ctlOff bs) :=
      WindowsKept.trans (.of_ctl rfl rfl) (ctlPutField_windows (s.putBytes _ bs) die ho 15 0 _)
    obtain rfl := Option.some.inj h
    unfold State.recordPosted
    split
    · exact hrecorded.trans (signal_windows ..)
    · exact hrecorded
  · rw [ringPost_full hr] at h
    cases h

theorem machineCheck_windows (s : State) (die ia unit kind cause token : Nat) (detail : Word) :
    WindowsKept s (s.machineCheck die ia unit kind cause token detail) := by
  unfold State.machineCheck
  dsimp only
  split
  · rename_i h
    exact (ringPost_windows (by decide) h).trans (.of_ctl rfl rfl)
  · exact ctlPutField_windows s die (by decide) ..

theorem walkerCheck_windows (s : State) (die ia unit kind cause token : Nat) (detail : Word) :
    WindowsKept s (s.walker.2.machineCheck die ia unit kind cause token detail) :=
  WindowsKept.trans (t := s.walker.2) (.of_ctl rfl rfl) (machineCheck_windows ..)

theorem takeFrame_windows (s : State) (die : Nat) : WindowsKept s (s.takeFrame die).2 := by
  unfold State.takeFrame
  dsimp only
  split
  · exact .of_ctl rfl rfl
  split
  · exact .refl s
  · exact ctlPutField_windows s die (by decide) ..

/-- A break counted at a die keeps the windows. -/
theorem WindowsKept.counted {s t : State} (h : WindowsKept s t) (die v : Nat) :
    WindowsKept s ((t.ctlPutField die 0x060 63 32 v).dieEvent die 27) :=
  (h.trans (ctlPutField_windows t die (by decide) ..)).trans (dieEvent_windows ..)

theorem cowBreak_windows (s : State) (ia loc e log token : Nat) : WindowsKept s (s.cowBreak ia loc e log token).2 := by
  unfold State.cowBreak
  refine .ite (.refl s) ?_
  dsimp only
  refine .ite (walkerCheck_windows ..) (.ite ?_ ?_)
  · dsimp only
    exact WindowsKept.counted (putNum_windows s _ _ _) _ _
  have hf := takeFrame_windows s (homeDie ia)
  split
  · rename_i h
    rwa [h] at hf
  · rename_i f s1 h
    rw [h] at hf
    dsimp only at hf ⊢
    refine WindowsKept.counted ?_ _ _
    exact (((((hf.trans (putBytes_windows ..)).trans (putNum_windows ..)).trans (putNum_windows ..)).trans
      (putNum_windows ..)).trans (putNum_windows ..))

theorem meet_windows (s : State) (ia : Nat) (k : Access) (token : Nat) : WindowsKept s (s.meet ia k token).2 := by
  unfold State.meet
  refine .ite (.refl s) ?_
  dsimp only
  split
  · exact .refl s
  · exact .refl s
  · exact walkerCheck_windows ..
  · rename_i loc e log _
    refine .ite (.refl s) (.ite ?_ (.ite (putNum_windows ..) (.refl s)))
    have hc := cowBreak_windows s ia loc e log token
    split
    · rename_i h
      rwa [h] at hc
    · exact hc

theorem clobberOne_windows (s : State) (ia loc : Nat) (k : ObjKind) (token : Nat) :
    WindowsKept s (s.clobberOne ia loc k token) := by
  have hcheck (t : State) : WindowsKept t (t.machineCheck (homeDie ia) ia (unitOf 2 (homeSlice ia)) 6 0 token 0) :=
    machineCheck_windows ..
  have hrelease (w : Wait) (st : Word) : WindowsKept s (s.releaseWaiters w st) := .of_ctl rfl rfl
  unfold State.clobberOne
  split
  · exact .refl s
  split
  · exact .of_ctl rfl rfl
  cases k with
  | barrier => exact ((hrelease ..).trans (dieEvent_windows ..)).trans (hcheck _)
  | monitor => exact ((hrelease ..).trans (dieEvent_windows ..)).trans (hcheck _)
  | completion => exact (hrelease ..).trans (hcheck _)
  | chain => exact hcheck s

theorem clobber_windows (s : State) (ia loc n token : Nat) : WindowsKept s (s.clobber ia loc n token) := by
  refine WindowsKept.foldl (fun t o => ?_) s.objects s
  split
  · exact clobberOne_windows ..
  · exact .refl t

theorem putIa_windows (token fuel : Nat) (s : State) (ia : Nat) (bs : List Byte) :
    WindowsKept s (s.putIa token fuel ia bs).2 := by
  induction fuel generalizing s ia bs with
  | zero => exact .refl s
  | succ fuel ih =>
    have hmeet := meet_windows s ia .write token
    unfold State.putIa
    split
    · exact .refl s
    dsimp only
    split
    · rename_i loc s1 hm
      rw [hm] at hmeet
      exact ((hmeet.trans (clobber_windows s1 ia loc _ token)).trans (.of_ctl rfl rfl)).trans (ih ..)
    · rename_i hm
      rwa [hm] at hmeet
    · rename_i hm
      rwa [hm] at hmeet

end Sys2Proof.Machine
end

section
/-! PROOF. PGREADY and PGFAIL (O50, R184, R188). -/

namespace Sys2Proof.Machine

theorem thenPut_windows {s : State} {r : Option Nat × State} {f : State → Option Nat × State} (hr : WindowsKept s r.2)
    (hf : ∀ t, WindowsKept t (f t).2) : WindowsKept s (thenPut r f).2 := by
  unfold thenPut
  split
  · exact hr.trans (hf _)
  · exact hr

/-! A step that reworks what one context has in flight. -/

/-- The context is the same to a reader of its registers and of its scheduling state, its io apart. -/
structure SameTask (c d : Context) : Prop where
  id : d.id = c.id
  reg : d.reg = c.reg
  sched : d.sched = c.sched

theorem SameTask.trans {c d e : Context} (h : SameTask c d) (h' : SameTask d e) : SameTask c e :=
  ⟨h'.id.trans h.id, h'.reg.trans h.reg, h'.sched.trans h.sched⟩

theorem SameTask.live {c d : Context} (h : SameTask c d) : d.live = c.live := by
  rw [Context.live, h.sched, Context.live]

/-- The windows are kept; what the live context of a number has in flight is reworked, and otherwise no context changes but
in what it waits for. -/
def Reworks (s t : State) (uid : Nat) (F : InFlight → InFlight) : Prop :=
  WindowsKept s t ∧ ∃ f : Context → Context, t.contexts = s.contexts.map f ∧
    ∀ c, SameTask c (f c) ∧ (f c).io = if c.id.uid = uid ∧ c.live = true then F c.io else c.io

theorem Reworks.of_wakes {s t : State} (hw : WindowsKept s t) (h : WakesOnly s t) (uid : Nat) : Reworks s t uid id := by
  obtain ⟨-, f, hf, hcontexts⟩ := h
  refine ⟨hw, f, hcontexts, fun c => ?_⟩
  rw [hf c]
  exact ⟨⟨rfl, rfl, rfl⟩, (ite_self c.io).symm⟩

theorem Reworks.of_agenda (s : State) (ds : List Duty) (uid : Nat) : Reworks s { s with agenda := ds } uid id :=
  .of_wakes (.of_ctl rfl rfl) ⟨rfl, id, fun _ => rfl, (List.map_id _).symm⟩ uid

theorem Reworks.refl (s : State) (uid : Nat) : Reworks s s uid id := .of_wakes (.refl s) (.refl s) uid

theorem Reworks.of_mapCtx (s : State) (uid : Nat) (F : InFlight → InFlight) :
    Reworks s (s.mapCtx uid (fun c => { c with io := F c.io })) uid F := by
  refine ⟨.of_ctl rfl rfl, _, contexts_mapCtx .., fun c => ?_⟩
  by_cases h : c.id.uid = uid ∧ c.live = true
  · rw [if_pos h, if_pos (by simpa using h)]
    exact ⟨⟨rfl, rfl, rfl⟩, rfl⟩
  · rw [if_neg h, if_neg (by simpa using h)]
    exact ⟨⟨rfl, rfl, rfl⟩, rfl⟩

theorem Reworks.trans {s t u : State} {uid : Nat} {F G : InFlight → InFlight} (h : Reworks s t uid F)
    (h' : Reworks t u uid G) : Reworks s u uid (G ∘ F) := by
  obtain ⟨hw, f, hcontexts, hf⟩ := h
  obtain ⟨hw', g, hcontexts', hg⟩ := h'
  refine ⟨hw.trans hw', g ∘ f, by rw [hcontexts', hcontexts, List.map_map], fun c => ⟨(hf c).1.trans (hg (f c)).1, ?_⟩⟩
  rw [Function.comp, (hg (f c)).2, (hf c).1.live, (hf c).1.id, (hf c).2]
  split <;> rfl

/-- Contexts of different numbers reworked in turn: each of them is, and no other. -/
theorem foldl_reworks {s : State} {step : State → Context → State} {F : Context → InFlight → InFlight}
    (hstep : ∀ t c, WindowsKept s t → Reworks t (step t c) c.id.uid (F c)) (l : List Context)
    (hl : (l.map (fun c => c.id.uid)).Nodup) (t : State) (ht : WindowsKept s t) :
    ∃ f : Context → Context, (l.foldl step t).contexts = t.contexts.map f ∧ ∀ d, SameTask d (f d) ∧
      (∀ c ∈ l, d.id.uid = c.id.uid → d.live = true → (f d).io = F c d.io) ∧
      (d.id.uid ∉ l.map (fun c => c.id.uid) → (f d).io = d.io) := by
  induction l generalizing t with
  | nil => exact ⟨id, (List.map_id _).symm, fun d => ⟨⟨rfl, rfl, rfl⟩, by simp, fun _ => rfl⟩⟩
  | cons a l ih =>
    obtain ⟨hw, f, hcontexts, hf⟩ := hstep t a ht
    obtain ⟨ha, hl⟩ := List.nodup_cons.1 hl
    obtain ⟨g, hcontexts', hg⟩ := ih hl (step t a) (ht.trans hw)
    refine ⟨g ∘ f, by rw [List.foldl_cons, hcontexts', hcontexts, List.map_map], fun d => ?_⟩
    obtain ⟨hsame, hio⟩ := hf d
    obtain ⟨hsame', hlater, hnone⟩ := hg (f d)
    rw [hsame.id] at hlater hnone
    rw [hsame.live] at hlater
    refine ⟨hsame.trans hsame', fun c hc hu hlive => ?_, fun hd => ?_⟩
    · obtain rfl | hc := List.mem_cons.1 hc
      · exact (hnone (by rwa [hu])).trans (hio.trans (if_pos ⟨hu, hlive⟩))
      · have hne : d.id.uid ≠ a.id.uid := fun h => ha (List.mem_map.2 ⟨c, hc, hu.symm.trans h⟩)
        rw [if_neg fun h => hne h.1] at hio
        rw [Function.comp, hlater c hc hu hlive, hio]
    · rw [List.map_cons, List.mem_cons, not_or] at hd
      rw [Function.comp, hnone hd.2, hio, if_neg fun h => hd.1 h.1]

/-- The live contexts reworked in turn. -/
theorem foldl_live_reworks {s : State} (hd : Distinct s) {step : State → Context → State} {F : Context → InFlight → InFlight}
    (hstep : ∀ t c, WindowsKept s t → Reworks t (step t c) c.id.uid (F c)) :
    ∃ f : Context → Context, (s.contexts.foldl (fun t c => if c.live then step t c else t) s).contexts = s.contexts.map f ∧
      ∀ c ∈ s.contexts, c.live = true → SameTask c (f c) ∧ (f c).io = F c c.io := by
  have hlive (t : State) (c : Context) (ht : WindowsKept s t) :
      Reworks t (if c.live then step t c else t) c.id.uid (if c.live then F c else id) := by
    split
    · exact hstep t c ht
    · exact .refl t _
  obtain ⟨f, hcontexts, hf⟩ := foldl_reworks hlive s.contexts hd s (.refl s)
  refine ⟨f, hcontexts, fun c hc h => ?_⟩
  obtain ⟨hsame, hio, -⟩ := hf c
  exact ⟨hsame, (hio c hc rfl h).trans (congrFun (if_pos h) _)⟩

/-! The two sweeps. -/

/-- Late failures logged behind those of before (R201, R212). -/
def InFlight.logged (ls : List Late) (io : InFlight) : InFlight := { io with late := io.late ++ ls }

theorem lateFail_reworks (s : State) (uid : Nat) (k : LateKind) (ia : Nat) (bits : Word) :
    Reworks s (s.lateFail uid k ia bits) uid (.logged [⟨k, 0x06, BitVec.ofNat 64 ia⟩]) := by
  have hcheck : Reworks s (s.walker.2.machineCheck (homeDie ia) ia (unitOf 6 s.walker.1) 2 0x06 (s.tokenOf uid) bits)
      uid id :=
    .of_wakes (walkerCheck_windows ..) (.of_backstage (walkerCheck_backstage ..)) uid
  exact hcheck.trans (.of_mapCtx _ uid (.logged [⟨k, 0x06, BitVec.ofNat 64 ia⟩]))

theorem foldl_logged {α : Type} {s : State} {uid : Nat} {step : State → α → State} {e : α → Late}
    (hstep : ∀ t a, WindowsKept s t → Reworks t (step t a) uid (.logged [e a])) (l : List α) (t : State)
    (ht : WindowsKept s t) : Reworks t (l.foldl step t) uid (.logged (l.map e)) := by
  induction l generalizing t with
  | nil =>
    have hnil : InFlight.logged [] = id := by
      funext io
      rw [InFlight.logged, List.append_nil]
      rfl
    rw [List.map_nil, hnil]
    exact .refl t uid
  | cons a l ih =>
    have h := hstep t a ht
    have hcons : InFlight.logged ((a :: l).map e) = .logged (l.map e) ∘ .logged [e a] := by
      funext io
      simp [InFlight.logged]
    rw [hcons]
    exact h.trans (ih _ (ht.trans h.1))

theorem refreshCounts_reworks (s : State) (uid : Nat) : Reworks s (s.refreshCounts uid) uid id := by
  unfold State.refreshCounts
  split
  · exact .refl s uid
  split
  · exact .of_wakes (thenPut_windows (putIa_windows ..) fun t => putIa_windows ..)
      (thenPut_wakes (putIa_wakes ..) fun t => putIa_wakes ..) uid
  · exact .refl s uid

theorem regate_reworks (s : State) (uid : Nat) (before : InFlight) : Reworks s (s.regate uid before) uid id := by
  obtain ⟨a, ha⟩ := regate_agenda s uid before
  rw [ha]
  exact .of_agenda s a uid

/-- A posted store waits for a page. -/
def State.postedHeld (s : State) (page : Nat) (p : Posted) : Bool := p.held && s.postedPage p = some page

/-- A reduction waits for a page. -/
def Red.heldFor (page : Nat) (r : Red) : Bool := r.held && r.ia / 2 ^ 15 = page

/-- A tile store waits for a page. -/
def Drain.heldFor (page : Nat) (k : Drain) : Bool := k.held && inPage page k.left

theorem postedHeld_iff (s : State) (page : Nat) (p : Posted) :
    s.postedHeld page p = true ↔ p.held = true ∧ s.postedPage p = some page := by
  simp [State.postedHeld]

theorem Red.heldFor_iff (page : Nat) (r : Red) : r.heldFor page = true ↔ r.held = true ∧ r.ia / 2 ^ 15 = page := by
  simp [Red.heldFor]

theorem Drain.heldFor_iff (page : Nat) (k : Drain) :
    k.heldFor page = true ↔ k.held = true ∧ firstIa k.left / 2 ^ 15 = page ∧ k.left ≠ [] := by
  unfold Drain.heldFor inPage firstIa
  cases k.left <;> simp

theorem postedHeld_kept {s t : State} (h : WindowsKept s t) (page : Nat) : t.postedHeld page = s.postedHeld page := by
  funext p
  rw [State.postedHeld, postedPage_kept h, State.postedHeld]

/-- What of a context waits for a page goes on (R184). -/
def State.freed (s : State) (page : Nat) (before io : InFlight) : InFlight :=
  { io with
    posted := before.posted.map (fun p => if s.postedHeld page p then { p with held := false } else p)
    reds := before.reds.map (fun r => if r.heldFor page then { r with held := false } else r)
    drains := before.drains.map (fun k => if k.heldFor page then { k with held := false } else k) }

theorem wakeIo_reworks {s t : State} (h : WindowsKept s t) (page : Nat) (c : Context) :
    Reworks t (t.wakeIo page c) c.id.uid (s.freed page c.io) := by
  have hmap := Reworks.of_mapCtx t c.id.uid (t.freed page c.io)
  rw [show s.freed page = t.freed page by unfold State.freed; rw [postedHeld_kept h]]
  exact hmap.trans (.of_agenda _ _ _)

/-- The late failures of the accesses of a context that a failed page drops (R188). -/
def State.failures (s : State) (page : Nat) (io : InFlight) : List Late :=
  (io.posted.filter (s.postedHeld page)).map (fun p => ⟨.posted p.kind, 0x06, BitVec.ofNat 64 (s.postedIa p)⟩) ++
    (io.reds.filter (Red.heldFor page)).map (fun r => ⟨.reduction, 0x06, BitVec.ofNat 64 r.ia⟩) ++
    (io.drains.filter (Drain.heldFor page)).map (fun k => ⟨k.late, 0x06, BitVec.ofNat 64 (firstIa k.left)⟩)

/-- A failed page drops what waits for it (R188). -/
def State.dropped (s : State) (page : Nat) (io : InFlight) : InFlight :=
  { io with
    posted := io.posted.filter (fun p => !s.postedHeld page p)
    reds := io.reds.filter (fun r => !r.heldFor page)
    drains := io.drains.filter (fun k => !k.heldFor page) }

theorem failIo_reworks {s t : State} (h : WindowsKept s t) (page : Nat) (c : Context) :
    Reworks t (t.failIo page c) c.id.uid (s.dropped page ∘ .logged (s.failures page c.io)) := by
  have hposted := foldl_logged (s := s) (uid := c.id.uid) (step := fun s p => s.lateFail c.id.uid (.posted p.kind) (s.postedIa p) p.bits)
    (e := fun p => ⟨.posted p.kind, 0x06, BitVec.ofNat 64 (s.postedIa p)⟩)
    (fun u p hu => postedIa_kept hu p ▸ lateFail_reworks u ..) (c.io.posted.filter (t.postedHeld page)) t h
  have hreds := foldl_logged (s := s) (uid := c.id.uid) (step := fun s r => s.lateFail c.id.uid .reduction r.ia r.bits)
    (e := fun r => ⟨.reduction, 0x06, BitVec.ofNat 64 r.ia⟩)
    (fun u r _ => lateFail_reworks u ..) (c.io.reds.filter (Red.heldFor page)) _ (h.trans hposted.1)
  have hdrains := foldl_logged (s := s) (uid := c.id.uid)
    (step := fun s k => s.lateFail c.id.uid k.late ((k.left.head?.map (·.1)).getD 0) k.bits)
    (e := fun k => ⟨k.late, 0x06, BitVec.ofNat 64 (firstIa k.left)⟩)
    (fun u k _ => lateFail_reworks u ..) (c.io.drains.filter (Drain.heldFor page)) _ ((h.trans hposted.1).trans hreds.1)
  have hdropped := ((hposted.trans hreds).trans hdrains).trans (.of_mapCtx _ c.id.uid (t.dropped page))
  have hall := (hdropped.trans (refreshCounts_reworks _ c.id.uid)).trans (regate_reworks _ c.id.uid c.io)
  have hlogged : s.dropped page ∘ .logged (s.failures page c.io) = t.dropped page ∘
      .logged ((c.io.drains.filter (Drain.heldFor page)).map (fun k => ⟨k.late, 0x06, BitVec.ofNat 64 (firstIa k.left)⟩)) ∘
      .logged ((c.io.reds.filter (Red.heldFor page)).map (fun r => ⟨.reduction, 0x06, BitVec.ofNat 64 r.ia⟩)) ∘
      .logged ((c.io.posted.filter (t.postedHeld page)).map
        (fun p => ⟨.posted p.kind, 0x06, BitVec.ofNat 64 (s.postedIa p)⟩)) := by
    funext io
    simp [State.dropped, State.failures, InFlight.logged, postedHeld_kept h]
  rw [hlogged]
  exact hall

end Sys2Proof.Machine
end

section
/-! PROOF. PGREADY and PGFAIL as a whole (O50, R184, R188). -/

namespace Sys2Proof.Machine

/-- A context saved on a fault in a page moved to another place, its registers and what it has in flight kept. -/
structure Moved (page : Nat) (place : Word → Place) (c d : Context) : Prop where
  id : d.id = c.id
  reg : d.reg = c.reg
  io : d.io = c.io
  saved : ∀ ia va, c.sched.place = .frame (.fault page ia va) → d.sched = { c.sched with place := place va }
  other : (∀ ia va, c.sched.place ≠ .frame (.fault page ia va)) → d.sched = c.sched

theorem Moved.of_sync {page : Nat} {place : Word → Place} {c d : Context}
    (h : ∀ ia va, c.sched.place ≠ .frame (.fault page ia va)) (hd : d = c.withSync d) : Moved page place c d := by
  rw [hd]
  exact ⟨rfl, rfl, rfl, fun ia va h' => absurd h' (h ia va), fun _ => rfl⟩

theorem Moved.of_place {page : Nat} {place : Word → Place} {c : Context} {ia : Nat} {va : Word}
    (h : c.sched.place = .frame (.fault page ia va)) : Moved page place c { c with sched := { c.sched with place := place va } } := by
  refine ⟨rfl, rfl, rfl, fun ia' va' h' => ?_, fun h' => absurd h (h' ia va)⟩
  obtain ⟨-, -, rfl⟩ : page = page ∧ ia = ia' ∧ va = va' := by simpa [h] using h'
  rfl

theorem Moved.after_sync {page : Nat} {place : Word → Place} {c d e : Context} (h : Moved page place c d)
    (he : e = d.withSync e) : Moved page place c e := by
  rw [he]
  exact ⟨h.id, h.reg, h.io, h.saved, h.other⟩

theorem Moved.after_sameTask {page : Nat} {place : Word → Place} {c d e : Context} (h : SameTask c d)
    (h' : Moved page place d e) : e.id = c.id ∧ e.reg = c.reg ∧
      (∀ ia va, c.sched.place = .frame (.fault page ia va) → e.sched = { c.sched with place := place va }) ∧
      ((∀ ia va, c.sched.place ≠ .frame (.fault page ia va)) → e.sched = c.sched) ∧ e.io = d.io :=
  ⟨h'.id.trans h.id, h'.reg.trans h.reg, h.sched ▸ h'.saved, h.sched ▸ h'.other, h'.io⟩

theorem contexts_mapped {s t : State} {f : Context → Context} (hothers : t.others = s.others.map f) (hcur : t.cur = f s.cur) :
    t.contexts = s.contexts.map f := by
  rw [State.contexts, hothers, hcur]
  rfl

/-! PGREADY. -/

/-- The machine once the accesses that wait for a page go on. -/
def State.woken (s : State) (page : Nat) : State :=
  s.contexts.foldl (fun s c => if c.live then s.wakeIo page c else s) s

theorem woken_mem_ferry (s : State) (page : Nat) : (s.woken page).mem = s.mem ∧ (s.woken page).ferry = s.ferry := by
  have hfold (l : List Context) (t : State) (h : t.mem = s.mem ∧ t.ferry = s.ferry) :
      (l.foldl (fun s c => if c.live then s.wakeIo page c else s) t).mem = s.mem ∧
        (l.foldl (fun s c => if c.live then s.wakeIo page c else s) t).ferry = s.ferry := by
    induction l generalizing t with
    | nil => exact h
    | cons c l ih =>
      refine ih _ ?_
      dsimp only
      split
      · exact h
      · exact h
  exact hfold s.contexts s ⟨rfl, rfl⟩

theorem pageReady_contexts (s : State) (page : Nat) : ∃ f : Context → Context,
    (s.pageReady page).contexts = (s.woken page).contexts.map f ∧
      ∀ c, Moved page (fun _ => .frame .preempted) c (f c) := by
  refine ⟨_, contexts_mapped rfl rfl, fun c => ?_⟩
  dsimp only
  split
  · rename_i p ia va h
    split
    · rename_i hp
      exact .of_place (hp ▸ h)
    · rename_i hp
      exact .of_sync (fun ia' va' h' => hp (by simp_all)) rfl
  · rename_i h
    refine .of_sync (fun ia va => h page ia va) ?_
    split
    · split <;> rfl
    · rfl

theorem freed_eq {s : State} {page : Nat} {io : InFlight} : s.freed page io io = { io with
    posted := io.posted.map (fun p => if p.held ∧ s.postedPage p = some page then { p with held := false } else p)
    reds := io.reds.map (fun r => if r.held ∧ r.ia / 2 ^ 15 = page then { r with held := false } else r)
    drains := io.drains.map (fun k => if k.held ∧ firstIa k.left / 2 ^ 15 = page ∧ k.left ≠ []
      then { k with held := false } else k) } := by
  simp only [State.freed, postedHeld_iff, Red.heldFor_iff, Drain.heldFor_iff]

/-! PGFAIL. -/

/-- The machine once the late accesses to a failed page are dropped. -/
def State.failed (s : State) (page : Nat) : State :=
  s.contexts.foldl (fun s c => if c.live then s.failIo page c else s) s

theorem pageFail_contexts (s : State) (page : Nat) : ∃ f : Context → Context,
    (s.pageFail page).contexts = (s.failed page).contexts.map f ∧
      ∀ c, Moved page (fun va => .frame (.failed va)) c (f c) := by
  have hparts : ∃ f g : Context → Context, (s.pageFail page).contexts = (s.failed page).contexts.map (g ∘ f) ∧
      (∀ c, Moved page (fun va => .frame (.failed va)) c (f c)) ∧ ∀ d, g d = d.withSync (g d) := by
    refine ⟨_, _, contexts_mapped (List.map_map ..) rfl, fun c => ?_, fun d => ?_⟩
    · dsimp only
      split
      · rename_i p ia va h
        split
        · rename_i hp
          exact .of_place (hp ▸ h)
        · rename_i hp
          exact .of_sync (fun ia' va' h' => hp (by simp_all)) rfl
      · rename_i h
        exact .of_sync (fun ia va => h page ia va) rfl
    · dsimp only
      split
      · split <;> rfl
      · rfl
  obtain ⟨f, g, hcontexts, hf, hg⟩ := hparts
  exact ⟨g ∘ f, hcontexts, fun c => (hf c).after_sync (hg (f c))⟩

theorem filter_decide_of_iff {α : Type} (l : List α) {P : α → Prop} [DecidablePred P] {q : α → Bool}
    (h : ∀ a, q a = true ↔ P a) : l.filter (fun a => P a) = l.filter q :=
  List.filter_congr fun a _ => by simp only [← h a, Bool.decide_eq_true]

theorem filter_not_mem_filter {α : Type} [DecidableEq α] (l : List α) (p : α → Bool) :
    l.filter (fun a => a ∉ l.filter p) = l.filter (fun a => !p a) := by
  refine List.filter_congr fun a ha => ?_
  simp [List.mem_filter, ha]

/-- A sweep that reworks each live context and then moves those that were saved on a fault in the page. -/
theorem swept_context {s t : State} (hd : Distinct s) {step : State → Context → State} {F : Context → InFlight → InFlight}
    (hstep : ∀ t c, WindowsKept s t → Reworks t (step t c) c.id.uid (F c)) {page : Nat} {place : Word → Place}
    (hmoved : ∃ f : Context → Context,
      t.contexts = (s.contexts.foldl (fun t c => if c.live then step t c else t) s).contexts.map f ∧
        ∀ c, Moved page place c (f c)) {c : Context} (hc : c ∈ s.contexts) (hlive : c.live = true) :
    ∃ d ∈ t.contexts, d.id = c.id ∧ d.reg = c.reg ∧
      (∀ ia va, c.sched.place = .frame (.fault page ia va) → d.sched = { c.sched with place := place va }) ∧
      ((∀ ia va, c.sched.place ≠ .frame (.fault page ia va)) → d.sched = c.sched) ∧ d.io = F c c.io := by
  obtain ⟨f, hcontexts, hf⟩ := foldl_live_reworks hd hstep
  obtain ⟨g, hcontexts', hg⟩ := hmoved
  obtain ⟨hsame, hio⟩ := hf c hc hlive
  obtain ⟨hid, hreg, hsaved, hother, hio'⟩ := Moved.after_sameTask hsame (hg (f c))
  refine ⟨g (f c), ?_, hid, hreg, hsaved, hother, hio'.trans hio⟩
  rw [hcontexts', hcontexts]
  exact List.mem_map_of_mem (List.mem_map_of_mem hc)

theorem pagesReady_done : Claim.PagesReady := by
  intro s page hd
  refine ⟨⟨s.pageReady page, rfl, (woken_mem_ferry s page).1, fun c hc hlive => ?_,
    congrArg _ (woken_mem_ferry s page).2⟩, s.pageFail page, rfl, fun c hc hlive => ?_⟩
  · rw [← freed_eq]
    exact swept_context hd (fun t c h => wakeIo_reworks h page c) (pageReady_contexts s page) hc hlive
  · obtain ⟨d, hmem, hid, hreg, hsaved, hother, hio⟩ :=
      swept_context hd (fun t c h => failIo_reworks h page c) (pageFail_contexts s page) hc hlive
    refine ⟨d, hmem, hid, hreg, hsaved, hother, ?_⟩
    dsimp only
    rw [filter_decide_of_iff _ (postedHeld_iff s page), filter_decide_of_iff _ (Red.heldFor_iff page),
      filter_decide_of_iff _ (Drain.heldFor_iff page), filter_not_mem_filter, filter_not_mem_filter, filter_not_mem_filter, hio]
    refine ⟨rfl, rfl, rfl, ?_⟩
    simp [State.dropped, InFlight.logged, State.failures]

/-- Settles O50: each step by the lemma that says what it does to the state. -/
theorem pageSteps : Obligations.PageSteps :=
  ⟨walks_marked, faultRecords_posted, pagesReady_done, breaks_done, epochs_end, merges_counted⟩

end Sys2Proof.Machine
end

section
/-! PROOF. Scalar loads and stores (O9, O10), returning atomics (O12), reductions and fences (O13), when nothing holds them up. -/

namespace Sys2Proof.Machine

/-! Invariant loads (R197, R305). -/

/-- The machine once an invariant load of n bytes at a location has noted what it promises, and which promises were broken
before it. -/
def State.promising (s : State) (loc n : Nat) : State :=
  let bytes := (List.range n).map (fun k => loc + k)
  { s with
    broken := (s.broken ++ bytes.filter (fun a =>
      (s.versions a).any (fun v => decide (s.cur.order.began < v.step)))).eraseDups
    promised := (s.promised ++ bytes.map (fun a => (a, s.cur.id.uid))).eraseDups }

/-- A byte that is still as promised is broken neither before nor after the load notes its promise. -/
theorem not_mem_broken_promising {s : State} {loc n a : Nat} (h : Promised s loc n) (hl : loc ≤ a) (ha : a < loc + n) :
    a ∉ (s.promising loc n).broken := by
  obtain ⟨hb, hv⟩ := h a hl ha
  simp only [State.promising, List.mem_eraseDups, List.mem_append, List.mem_filter, not_or, not_and]
  refine ⟨hb, fun _ => ?_⟩
  simpa using hv

theorem readInvByte_kept {s : State} {a : Nat} (h : a ∉ s.broken) : readInvByte a s = .ok (cellGet s.mem a) s := by
  unfold readInvByte
  simp [h]

/-- Actions that leave the machine as it is, one for each element of a list. -/
theorem mapM_unchanged {ε α β : Type} {x : α → EStateM ε State β} {y : α → β} {s : State} {l : List α}
    (h : ∀ a ∈ l, x a s = .ok (y a) s) : l.mapM x s = .ok (l.map y) s := by
  induction l with
  | nil => rfl
  | cons a l ih =>
    rw [List.mapM_cons]
    change EStateM.bind (x a) _ s = _
    rw [EStateM.bind, h a (by simp)]
    change EStateM.bind (l.mapM x) _ s = _
    rw [EStateM.bind, ih fun b hb => h b (by simp [hb])]
    rfl

theorem cellsGet_eq_map (m : List Host.Cell) (a n : Nat) :
    cellsGet m a n = (List.range n).map (fun k => cellGet m (a + k)) := by
  induction n generalizing a with
  | zero => rfl
  | succ n ih =>
    rw [cellsGet, ih, List.range_succ_eq_map, List.map_cons, List.map_map]
    congr 2
    funext k
    simp [Nat.add_assoc, Nat.add_comm 1]

/-- An invariant read of bytes whose promise has been kept. -/
theorem readInv_kept {s : State} {va ia loc n : Nat} (h : Still s) (hr : Reaches s .read va ia loc)
    (hp : s.poisoned loc n = false) (hk : Promised s loc n) :
    readInv ⟨va, ia⟩ n s = .ok (s.bytesAt loc n) (s.promising loc n) := by
  have hclean : needClean ⟨va, ia⟩ loc n s = .ok ⟨⟩ s := by
    unfold needClean
    simp [hp]
  have hbytes : ∀ a ∈ (List.range n).map (fun k => loc + k), a ∉ (s.promising loc n).broken := by
    simp only [List.mem_map, List.mem_range]
    rintro _ ⟨k, hkn, rfl⟩
    exact not_mem_broken_promising hk (by omega) (by omega)
  unfold readInv
  simp only [inGlaze_bind_run, h.2.1, Option.isSome_none, Bool.false_eq_true, if_false]
  rw [op_bind_ok (settle_still _ _ h), op_bind_ok (forcePublish_still _ _ h), op_bind_ok (reach_reaches hr),
    op_bind_ok hclean]
  refine (mapM_unchanged fun a ha => readInvByte_kept (hbytes a ha)).trans ?_
  rw [List.map_map, State.bytesAt, cellsGet_eq_map]
  rfl

theorem event_promises (s : State) (cl src : Nat) (p : List (Nat × Nat)) (b : List Nat) :
    ({ s with promised := p, broken := b } : State).event cl src =
      { s.event cl src with promised := p, broken := b } := by
  have hclusters := event_clusters (s := s) (u := { s with promised := p, broken := b }) rfl cl src
  rw [event_eq, hclusters, event_eq s]

/-- Without the promises that an invariant load notes, it retires as a machine that has noted none. -/
theorem retired_unpromised {s : State} {m : MemAttr} (hm : m.cls = 2) (u : State) (len : Nat) :
    (u.retired len).unpromised s m = ({ u with promised := s.promised, broken := s.broken } : State).retired len := by
  rw [State.unpromised, if_pos hm, retired_eq, retired_eq]
  exact (event_promises ({ u with cur := { u.cur with
    reg := u.cur.reg.step len, id := { u.cur.id with rob := u.cur.id.rob + 1 }
    sync := { u.cur.sync with wait := .none, grant := none } } } : State) _ _ s.promised s.broken).symm

theorem inMemory_of_atomicAt {s : State} {ia core : Nat} (h : s.atomicAt ia core = true) : s.inMemory ia = true := by
  unfold State.inMemory
  rcases atomicAt_cases h with h | ⟨c, h⟩ | ⟨d, h⟩ | h <;> simp [h]

/-- An invariant load that nothing holds up, and whose promise has been kept, notes what it promises. -/
theorem load_invariant_spec {s : State} {t a : XReg} {m : MemAttr} {off : Int} {n len va ia loc : Nat} (h : Calm s)
    (he : s.cur.effective (s.arg a) off n = .ok va) (ha : va % n = 0) (hr : Reaches s .read va ia loc)
    (hp : s.poisoned loc n = false) (hm : m.cls = 2) (hk : Promised s loc n) :
    ∃ u, s.does (load t a m off n len) = .next u ∧
      Finishes s (u.unpromised s m) (s.gpr t (BitVec.ofNat 64 (fromBytes (s.bytesAt loc n))) len) := by
  refine ⟨((s.promising loc n).setX t (word (fromBytes (s.bytesAt loc n)))).retired len, does_ok ?_, ?_⟩
  · unfold load
    simp only [readX_bind_run, x_eq]
    rw [op_bind_ok (resolve_ok _ he ha hr h.1.2.1), op_bind_ok (loadWaits_still m h.1)]
    simp only [get_bind_run, hm, inMemory_of_atomicAt hr.2.2.1, decide_true, Bool.and_self, if_true]
    rw [op_bind_ok (readInv_kept h.1 hr hp hk)]
    simp [acquiring, hm]
  · rw [retired_unpromised hm, setX_eq]
    exact finishes_retired ..

/-- Settles O9: what a load's row says is what it does, an invariant one beside its promises. -/
theorem loadsComplete : Obligations.LoadsComplete := by
  intro s i f va ia loc hi h he ha hr hp hk
  rw [exec_of_loadRow hi]
  by_cases hm : f.m.cls = 2
  · exact load_invariant_spec h he ha hr hp hm (hk hm)
  · obtain ⟨u, hu, hf⟩ := load_spec (t := f.t) (len := f.len) h he ha hr hp hm
    refine ⟨u, hu, ?_⟩
    rwa [State.unpromised, if_neg hm]

/-! Stores (R191 to R194, R198, R199). -/

theorem storeRow_size {i : Instr} {f : AccessForm} (h : storeRow i = some f) : f.n ≤ 8 := by
  unfold storeRow at h
  split at h <;> cases h <;> simp

theorem stores_done : Claim.Stores := by
  intro s i f va ia loc hi h he ha hr hk hp
  have hn := storeRow_size hi
  rw [exec_of_storeRow hi]
  exact store_spec h he ha hr (by omega) hk hp

theorem postedStores_done : Claim.PostedStores := by
  intro s i f va ia k hi h he ha hm hk
  rw [exec_of_storeRow hi]
  exact store_posted h he ha hm hk

/-- Settles O10: the counter of a store decides which of the two it is. -/
theorem storesComplete : Obligations.StoresComplete := ⟨stores_done, postedStores_done⟩

/-! Returning atomics (R206 to R210). -/

theorem toSigned_eq_signedIn (n v : Nat) : toSigned (8 * n) v = signedIn n v := by
  unfold toSigned signedIn
  rw [BitVec.toInt_eq_toNat_cond]
  simp

theorem signedIn_mod (n v : Nat) : signedIn n (v % 2 ^ (8 * n)) = signedIn n v := by
  rw [← toSigned_eq_signedIn, ← toSigned_eq_signedIn]
  simp [toSigned]

section AtomicUnit

variable (n m b c : Nat)

/-! What the atomic unit computes of an operand taken in n bytes. -/

theorem amoOp_add_mod : amoOp .add n m (b % 2 ^ (8 * n)) c = ((m + b) % 2 ^ (8 * n), 0) := by
  simp [amoOp]

theorem amoOp_min_mod : amoOp .min n m (b % 2 ^ (8 * n)) c =
    (if signedIn n b < signedIn n m then b % 2 ^ (8 * n) else m, 0) := by
  simp [amoOp, toSigned_eq_signedIn, signedIn_mod]

theorem amoOp_max_mod : amoOp .max n m (b % 2 ^ (8 * n)) c =
    (if signedIn n m < signedIn n b then b % 2 ^ (8 * n) else m, 0) := by
  simp [amoOp, toSigned_eq_signedIn, signedIn_mod]

theorem amoOp_and_mod : amoOp .and n m (b % 2 ^ (8 * n)) c = (m &&& b % 2 ^ (8 * n), 0) := by
  simp [amoOp]

theorem amoOp_or_mod : amoOp .or n m (b % 2 ^ (8 * n)) c = (m ||| b % 2 ^ (8 * n), 0) := by
  simp [amoOp]

theorem amoOp_xor_mod : amoOp .xor n m (b % 2 ^ (8 * n)) c = (m ^^^ b % 2 ^ (8 * n), 0) := by
  simp [amoOp]

theorem amoOp_swap_mod : amoOp .swap n m (b % 2 ^ (8 * n)) c = (b % 2 ^ (8 * n), 0) := by
  simp [amoOp]

theorem amoOp_cas_mod : amoOp .cas n m (b % 2 ^ (8 * n)) c =
    (if m = c % 2 ^ (8 * n) then b % 2 ^ (8 * n) else m, 0) := by
  simp [amoOp]

theorem amoOp_fadd32_mod : amoOp .fadd32 4 m (b % 2 ^ 32) c = atomicFAdd FP32 m (b % 2 ^ 32) := by
  simp [amoOp]

theorem amoOp_fadd16_mod : amoOp .fadd16 2 m (b % 2 ^ 16) c = atomicFAdd BF16 m (b % 2 ^ 16) := by
  simp [amoOp]

end AtomicUnit

/-- A returning atomic goes through the shared operation, and its row gives what the atomic unit computes. -/
theorem exec_of_amoRow {i : Instr} {d a b : XReg} {n : Nat} {f : Nat → Word → Word → Nat × Flags}
    (h : amoRow i = some (d, a, b, n, f)) : ∃ fn scope o, n ≤ 8 ∧
      (∀ s, exec i s = s.does (amo fn n d a b scope o)) ∧
      ∀ m x c, amoOp fn n m (x.toNat % 2 ^ (8 * n)) c.toNat = f m x c := by
  have hsize (z : Bool) : (if z then 8 else 4) ≤ 8 := by cases z <;> decide
  unfold amoRow at h
  dsimp only at h
  split at h
  case h_9 =>
    split at h <;> cases h
    case isTrue hz => subst hz; exact ⟨.fadd16, _, _, by decide, fun _ => rfl, fun _ _ _ => amoOp_fadd16_mod ..⟩
    case isFalse hz =>
      rw [Bool.not_eq_true] at hz
      subst hz
      exact ⟨.fadd32, _, _, by decide, fun _ => rfl, fun _ _ _ => amoOp_fadd32_mod ..⟩
  all_goals cases h
  · exact ⟨.add, _, _, hsize _, fun _ => rfl, fun _ _ _ => amoOp_add_mod ..⟩
  · exact ⟨.min, _, _, hsize _, fun _ => rfl, fun _ _ _ => amoOp_min_mod ..⟩
  · exact ⟨.max, _, _, hsize _, fun _ => rfl, fun _ _ _ => amoOp_max_mod ..⟩
  · exact ⟨.and, _, _, hsize _, fun _ => rfl, fun _ _ _ => amoOp_and_mod ..⟩
  · exact ⟨.or, _, _, hsize _, fun _ => rfl, fun _ _ _ => amoOp_or_mod ..⟩
  · exact ⟨.xor, _, _, hsize _, fun _ => rfl, fun _ _ _ => amoOp_xor_mod ..⟩
  · exact ⟨.swap, _, _, hsize _, fun _ => rfl, fun _ _ _ => amoOp_swap_mod ..⟩
  · exact ⟨.cas, _, _, hsize _, fun _ => rfl, fun _ _ _ => amoOp_cas_mod ..⟩

/-- Settles O12: each row is the operation of the atomic unit. -/
theorem atomicsComplete : Obligations.AtomicsComplete := by
  intro s i d a b n f va ia loc hi h he ha hr hp hq
  obtain ⟨fn, scope, o, hn, hexec, hop⟩ := exec_of_amoRow hi
  rw [hexec]
  have hspec := amo_spec (fn := fn) (d := d) (b := b) (scope := scope) (o := o) h he ha hr hp hq (by omega)
  dsimp only at hspec
  rw [hop] at hspec
  exact hspec

/-! Reductions and fences (R204, R205, R211 to R215). -/

theorem exec_of_redRow {i : Instr} {a b : XReg} {fn : AmoFn} {n : Nat} {scope : Fin 8} {rel : Bool}
    (h : redRow i = some (a, b, fn, n, scope, rel)) (s : State) : exec i s = s.does (red fn n a b scope rel) := by
  unfold redRow at h
  split at h <;> cases h
  case h_7.refl z => cases z <;> rfl
  all_goals rfl

theorem reductions_queue : Claim.ReductionsQueue := by
  intro s i a b fn n va ia scope rel hi h he ha hm
  rw [exec_of_redRow hi]
  exact red_spec h he ha hm

theorem exec_of_fenceRow {i : Instr} {scope : Fin 8} (h : fenceRow i = some scope) :
    ∃ kind w, ∀ s, exec i s = s.does (fenceOp kind scope w) := by
  unfold fenceRow at h
  split at h <;> cases h
  · exact ⟨0, _, fun _ => rfl⟩
  · exact ⟨1, _, fun _ => rfl⟩
  · exact ⟨2, _, fun _ => rfl⟩

theorem fences_complete : Claim.FencesComplete := by
  intro s i scope hi h
  obtain ⟨kind, w, hexec⟩ := exec_of_fenceRow hi
  rw [hexec]
  exact fence_spec h

/-- Settles O13: reductions wait among the pending ones, fences retire. -/
theorem reductionsAndFences : Obligations.ReductionsAndFences := ⟨reductions_queue, fences_complete⟩

end Sys2Proof.Machine
end

section
/-! PROOF. A ferry's step on a command that it has fetched (O58, R269, R271, R297): what is performed, and what is due then. -/

namespace Sys2Proof.Machine

/-! Actions of a ferry, piece by piece. -/

section FerryOps

variable {α β : Type}

theorem ferry_bind_ok {x : FerryOp α} {f : α → FerryOp β} {s t : State} {a : α} (h : x s = .ok a t) :
    (x >>= f) s = f a t := by
  change EStateM.bind x f s = _
  rw [EStateM.bind, h]

theorem ferry_get (f : State → FerryOp β) (s : State) : ((get : FerryOp State) >>= f) s = f s s := rfl

theorem ferry_modify (g : State → State) (f : PUnit → FerryOp β) (s : State) :
    ((modify g : FerryOp PUnit) >>= f) s = f ⟨⟩ (g s) := rfl

end FerryOps

/-! The commands that stand with the ferries. -/

theorem mapFerry_eq (s : State) (chain seq : Nat) (g : FerryCmd → FerryCmd) : s.mapFerry chain seq g =
    { s with ferry := s.ferry.map fun f => if f.chain = chain ∧ f.seq = seq ∧ f.completed = false then g f else f } := by
  simp only [State.mapFerry, Bool.and_eq_true, decide_eq_true_eq, Bool.not_eq_true', and_assoc]

/-! To the work on a command (R271). -/

theorem exec_of_ferryCode {i : Instr} {n chain seq : Nat} (h : ferryCode i = some (n, chain, seq)) (s : State) :
    exec i s = .next (s.ferryStep (some n) chain seq) := by
  unfold ferryCode at h
  split at h <;> cases h <;> rfl

/-- The object at an IA that the home slice reaches at once. -/
theorem ferryReach_at {s : State} {f : FerryCmd} {ia loc : Nat} (hb : s.objBusy ia = false) (hp : f.page = none)
    (hm : s.meet ia .atomic f.token = (.ok loc, s)) (addr : Nat) : s.ferryReach f ia addr = .at loc s := by
  simp [State.ferryReach, hb, hp, hm]

theorem ferryStep_fetched {s : State} {f : FerryCmd} {loc n : Nat} {bs : List Byte} (h : Fetched s f loc bs)
    (hn : (ferryFields bs).op = n) : s.ferryStep (some n) f.chain f.seq = s.ferryGo f (ferryFields bs) := by
  obtain ⟨hcmd, hbusy, hmeet, hacc, hstart, hperf, hpage, hbefore, hhalt, hbytes⟩ := h
  have hready : (s.ferryBefore f.chain f.seq).any (fun g => !g.started) = false := by
    simpa [List.any_eq_false] using hbefore
  unfold State.ferryStep
  simp only [hcmd, hperf, hpage, hacc, hready, ferryReach_at hbusy hpage hmeet, hhalt, hbytes, hstart, hn, bne_self_eq_false,
    Option.isSome_none, Bool.not_true, Bool.or_self, Bool.false_eq_true, if_false, if_true]

/-! The work, once its plan can be performed (R269, R297). -/

/-- A command whose index array is read already, or that has none, needs nothing read before its elements. -/
theorem ferryIndex_ready {s : State} {f : FerryCmd} {c : FerryFields} (h : c.op = 2 ∨ c.op = 3 → f.places.isSome = true) :
    s.ferryIndex f c = .ok (f, s) := by
  unfold State.ferryIndex
  refine if_pos ?_
  by_cases hc : c.op = 2 ∨ c.op = 3
  · simp [h hc]
  · rw [not_or] at hc
    simp [hc.1, hc.2]

/-- Reading its index array changes nothing of a command but the places of its elements. -/
theorem ferryIndex_places {s s1 : State} {f g : FerryCmd} {c : FerryFields} (h : s.ferryIndex f c = .ok (g, s1)) :
    ∃ vas, g = { f with places := vas } := by
  unfold State.ferryIndex at h
  split at h
  · cases h
    exact ⟨f.places, rfl⟩
  · split at h
    · cases h
      exact ⟨_, rfl⟩
    · cases h

theorem ferryEarly_none {s : State} {f : FerryCmd} (h : f.early = false) (c : FerryFields) (plan : List (Nat × List Byte)) :
    s.ferryEarly f c plan = none := by
  unfold State.ferryEarly
  exact if_pos (by simp [h])

/-- The machine once the plan of a command's units is performed whole. -/
def State.unplanned (s : State) (f : FerryCmd) : State := s.mapFerry f.chain f.seq (fun g => { g with plan := some [] })

/-- A change of a command whose plan is performed. -/
theorem unplanned_mapFerry (s : State) (f : FerryCmd) (h : FerryCmd → FerryCmd) :
    (s.unplanned f).mapFerry f.chain f.seq h = s.mapFerry f.chain f.seq (fun g => h { g with plan := some [] }) := by
  have he : ∀ g : FerryCmd, (fun g : FerryCmd => if g.chain = f.chain ∧ g.seq = f.seq ∧ g.completed = false then h g else g)
      (if g.chain = f.chain ∧ g.seq = f.seq ∧ g.completed = false then { g with plan := some [] } else g) =
      if g.chain = f.chain ∧ g.seq = f.seq ∧ g.completed = false then h { g with plan := some [] } else g := by
    intro g
    split
    · exact if_pos ‹_›
    · exact if_neg ‹_›
  rw [State.unplanned, mapFerry_eq, mapFerry_eq, mapFerry_eq]
  simp only [List.map_map]
  exact congrArg (fun l => { s with ferry := l }) (List.map_congr_left fun g _ => he g)

section Work

variable {s s1 s2 : State} {f : FerryCmd} {c : FerryFields} {plan : List (Nat × List Byte)} (he : f.early = false)
  (hperform : f.perform c (planFuel plan) plan s1 = ([], none, s2))
include he hperform

/-- The work on units whose source is read. -/
theorem ferryWork_plan (h : f.plan = some plan) (hs : s1 = s) : s.ferryWork f c = (s2.unplanned f).ferryOn f c := by
  subst hs
  unfold State.ferryWork
  simp only [h, ferryEarly_none he, hperform]
  rfl

/-- The work on units whose source is still to be read. -/
theorem ferryWork_planned (h : f.plan = none) (hp : f.planned c s = .ok plan s1) :
    s.ferryWork f c = (s2.unplanned f).ferryOn f c := by
  unfold State.ferryWork
  simp only [h, hp, ferryEarly_none he, hperform]
  rfl

end Work

/-! The end of a step (R271, R297). -/

/-- Once a command's plan is performed whole, its accesses are over with a status, and nothing else changes. -/
theorem ferryOver_unplanned (s : State) (f : FerryCmd) (status : Nat) :
    { (s.unplanned f).ferryOver f.chain f.seq status 0 with ferry := s.ferry, agenda := s.agenda } = s ∧
      Performed s ((s.unplanned f).ferryOver f.chain f.seq status 0) f status := by
  unfold State.ferryOver
  rw [unplanned_mapFerry, mapFerry_eq]
  exact ⟨rfl, rfl, rfl⟩

theorem ferryPost_other {c : FerryFields} (h : c.op ≠ 5) (s : State) (f : FerryCmd) : s.ferryPost f c = s := by
  simp [State.ferryPost, h]

/-- A step that reaches the end of a command's units. -/
theorem ferryOn_ends {s : State} {f : FerryCmd} {c : FerryFields} (h : c.total ≤ c.until f.pos f.pace) (hop : c.op ≠ 5) :
    s.ferryOn f c = s.ferryOver f.chain f.seq 0 0 := by
  unfold State.ferryOn
  rw [ferryPost_other hop]
  exact if_pos h

/-- A step that leaves units of a command for its next one, of which a free value tells how many they are. -/
theorem ferryOn_continues {s : State} {f : FerryCmd} {c : FerryFields} (h : c.until f.pos f.pace < c.total) :
    s.ferryOn f c =
      let n := Config.free s.freeAt
      { s.mapFerry f.chain f.seq (fun g => { g with
          pos := c.until f.pos f.pace, plan := none, pace := n / 2, early := n % 2 = 1 }) with
        freeAt := s.freeAt + 1, agenda := s.agenda ++ [.ferry f.chain f.seq] } := by
  unfold State.ferryOn
  exact if_neg (Nat.not_le.mpr h)

theorem ferry_works : Claim.FerryWorks := by
  intro s s1 s2 s3 i f g loc n bs plan hf hplan hi hop hn hindex hplanned hperform he e
  obtain ⟨vas, rfl⟩ := ferryIndex_places hindex
  have hrun : exec i s = .next ((s3.unplanned f).ferryOn f (ferryFields bs)) := by
    rw [exec_of_ferryCode hi, ferryStep_fetched hf hop]
    unfold State.ferryGo
    rw [hindex]
    exact congrArg Host.Outcome.next (ferryWork_planned he hperform hplan hplanned)
  rw [hrun]
  refine ⟨fun hend => ?_, fun hmore => ?_⟩
  · rw [ferryOn_ends hend (hop ▸ hn)]
    exact ⟨_, rfl, ferryOver_unplanned s3 f 0⟩
  · rw [ferryOn_continues hmore]
    dsimp only
    rw [unplanned_mapFerry, mapFerry_eq]
    exact ⟨_, Config.free s3.freeAt, rfl, rfl, rfl, rfl, rfl⟩

end Sys2Proof.Machine
end

section
/-! PROOF. What a step of a ferry plans to write (O58, R269, R297), and the units that it takes. -/

namespace Sys2Proof.Machine

/-! What the operations write. -/

/-- Bytes of which none overlaps the source are no free values (R269). -/
theorem overlapFree_none {hit : Nat → Bool} {k : Nat} {bs : List Byte} (h : ∀ j, j < bs.length → hit (k + j) = false)
    (s : State) : overlapFree hit k bs s = (bs, s) := by
  induction bs generalizing k with
  | nil => rfl
  | cons b bs ih =>
    have h0 : hit k = false := h 0 (by simp)
    have hrest := ih (k := k + 1) fun j hj => by
      rw [Nat.add_assoc, Nat.add_comm 1]
      exact h (j + 1) (by simpa using hj)
    simp only [overlapFree, h0, Bool.false_eq_true, if_false, hrest]

section Planned

variable {s : State} {f : FerryCmd} {c : FerryFields}

theorem planned_fill (h : c.op = 4) : f.planned c s = .ok [(c.dst + f.pos, (List.range (c.until f.pos f.pace - f.pos)).map
    (fun k => BitVec.ofNat 8 (c.auxw / 2 ^ (8 * ((f.pos + k) % 8)))))] s := by
  unfold FerryCmd.planned
  rw [h]
  rfl

theorem planned_copy {bs out : List Byte} (h : c.op = 1)
    (hread : f.bytes (c.src + f.pos) (c.until f.pos f.pace - f.pos) s = .ok bs s)
    (hmask : f.mask [(c.src, c.len)] (c.dst + f.pos) bs s = .ok out s) :
    f.planned c s = .ok [(c.dst + f.pos, out)] s := by
  unfold FerryCmd.planned
  rw [h]
  exact (ferry_bind_ok hread).trans (ferry_bind_ok hmask)

theorem planned_gcopy {bs : List Byte} (h : c.op = 9)
    (hread : f.bytes (c.src + f.pos) (c.until f.pos f.pace - f.pos) s = .ok bs s)
    (hapart : ∀ k ia, s.mapGlobal (c.dst + f.pos + k) .write = .ok ia → f.sources [(c.src, c.len)] ia = false) :
    f.planned c s = .ok [(c.dst + f.pos, bs)] s := by
  unfold FerryCmd.planned
  rw [h]
  refine (ferry_bind_ok hread).trans ((ferry_get ..).trans ?_)
  rw [overlapFree_none fun j _ => ?_]
  · rfl
  · dsimp only
    split
    · next ia hia => exact hapart _ _ hia
    · rfl

theorem planned_reduce {data : Nat → List Byte} (h : c.op = 8)
    (hread : ∀ k, k < (c.until f.pos f.pace - f.pos) / c.size →
      f.bytes (c.src + (f.pos + k * c.size)) c.size s = .ok (data k) s) :
    f.planned c s = .ok ((List.range ((c.until f.pos f.pace - f.pos) / c.size)).map
      (fun k => (c.dst + (f.pos + k * c.size), data k))) s := by
  unfold FerryCmd.planned
  rw [h]
  exact mapM_unchanged fun k hk => ferry_bind_ok (hread k (List.mem_range.mp hk))

theorem indexed_places {vas : List Nat} (h : f.places = some vas) (base : Nat) : f.indexed c base s = .ok vas s := by
  unfold FerryCmd.indexed
  rw [h]
  rfl

theorem planned_gather {vas : List Nat} {data : Nat × Nat × Nat → List Byte} {out : List Byte} (h : c.op = 2)
    (hplaces : f.places = some vas)
    (hread : ∀ q ∈ c.parts f.pos (c.until f.pos f.pace), f.bytes (getAt vas q.1 0 + q.2.1) q.2.2 s = .ok (data q) s)
    (hmask : f.mask (vas.map (fun va => (va, c.elem))) (c.dst + f.pos)
      ((c.parts f.pos (c.until f.pos f.pace)).map data).flatten s = .ok out s) :
    f.planned c s = .ok [(c.dst + f.pos, out)] s := by
  unfold FerryCmd.planned
  rw [h]
  exact (ferry_bind_ok (indexed_places hplaces _)).trans ((ferry_bind_ok (mapM_unchanged hread)).trans (ferry_bind_ok hmask))

theorem planned_scatter {vas : List Nat} {data : Nat × Nat × Nat → List Byte} (h : c.op = 3) (hplaces : f.places = some vas)
    (hread : ∀ q ∈ c.parts f.pos (c.until f.pos f.pace), f.bytes (c.src + q.1 * c.elem + q.2.1) q.2.2 s = .ok (data q) s ∧
      f.mask [(c.src, c.len * c.elem)] (getAt vas q.1 0 + q.2.1) (data q) s = .ok (data q) s) :
    f.planned c s = .ok ((c.parts f.pos (c.until f.pos f.pace)).map (fun q => (getAt vas q.1 0 + q.2.1, data q))) s := by
  unfold FerryCmd.planned
  rw [h]
  refine (ferry_bind_ok (indexed_places hplaces _)).trans (mapM_unchanged fun q hq => ?_)
  obtain ⟨hbytes, hmask⟩ := hread q hq
  exact (ferry_bind_ok hbytes).trans (ferry_bind_ok hmask)

theorem indexed_read {ix : Nat → List Byte} (h : f.places = none)
    (hread : ∀ k, k < c.len → f.bytes (c.auxw + 4 * k) 4 s = .ok (ix k) s) (base : Nat) :
    f.indexed c base s = .ok ((List.range c.len).map (fun k =>
      (((base : Int) + (BitVec.ofNat 32 (fromBytes (ix k))).toInt * c.elem).emod (2 ^ 64)).toNat)) s := by
  unfold FerryCmd.indexed
  rw [h]
  refine mapM_unchanged fun k hk => (ferry_bind_ok (hread k (List.mem_range.mp hk))).trans ?_
  have hsigned := toSigned_eq_signedIn 4 (fromBytes (ix k))
  simp only [Nat.reduceMul, signedIn] at hsigned
  rw [hsigned]
  rfl

end Planned

/-! The units of a step (R297). -/

/-- A step that begins at a boundary of units of u bytes takes one and as many more as pace says. -/
theorem units_end {pos skew u : Nat} (h : (pos + skew) % u = 0) (pace : Nat) :
    ((pos + skew) / u + pace + 1) * u - skew = pos + u * (pace + 1) := by
  have hdiv := Nat.div_add_mod (pos + skew) u
  rw [h, Nat.add_zero] at hdiv
  rw [Nat.add_assoc, Nat.add_mul, Nat.mul_comm _ u, hdiv, Nat.mul_comm (pace + 1)]
  omega

theorem units_end_aligned {pos u : Nat} (h : pos % u = 0) (pace : Nat) :
    (pos / u + pace + 1) * u = pos + u * (pace + 1) := units_end (skew := 0) h pace

section Units

variable {c : FerryFields} {pos : Nat} (pace : Nat)

theorem until_elements (h : c.op = 2 ∨ c.op = 3) (hp : pos % min c.elem 8 = 0) :
    c.until pos pace = min c.total (pos + min c.elem 8 * (pace + 1)) := by
  have hu := units_end_aligned hp pace
  unfold FerryFields.until
  rcases h with h | h <;> simp [h, hu]

theorem until_reduce (h : c.op = 8) (hp : pos % c.size = 0) :
    c.until pos pace = min c.total (pos + c.size * (pace + 1)) := by
  have hu := units_end_aligned hp pace
  unfold FerryFields.until
  simp [h, hu]

theorem until_bytes (h2 : c.op ≠ 2) (h3 : c.op ≠ 3) (h8 : c.op ≠ 8) (hp : (pos + c.dst) % 8 = 0) :
    c.until pos pace = min c.total (pos + 8 * (pace + 1)) := by
  have hu := units_end (pos := pos) (skew := c.dst % 8) (u := 8) (by omega) pace
  unfold FerryFields.until
  simp [h2, h3, h8, hu]

/-- The parts of a whole transfer are its elements. -/
theorem parts_whole (he : 0 < c.elem) : c.parts 0 (c.len * c.elem) = (List.range c.len).map (fun k => (k, 0, c.elem)) := by
  have hcount : (c.len * c.elem + c.elem - 1) / c.elem = c.len := by
    rw [Nat.add_sub_assoc he, Nat.add_comm, Nat.add_mul_div_right _ _ he, Nat.div_eq_of_lt (by omega), Nat.zero_add]
  unfold FerryFields.parts
  simp only [hcount, Nat.zero_div, Nat.sub_zero, Nat.zero_add, Nat.zero_max, Nat.sub_self]
  refine List.map_congr_left fun k hk => ?_
  have hk := Nat.mul_le_mul_right c.elem (Nat.succ_le_of_lt (List.mem_range.mp hk))
  rw [Nat.min_eq_right hk, Nat.succ_mul, Nat.add_sub_cancel_left]

end Units

theorem ferry_plans : Claim.FerryPlans := by
  refine ⟨fun s f c => ?_, fun c pos pace => ⟨fun h _ => until_elements pace h, fun h => until_reduce pace h,
    fun h2 h3 h8 => until_bytes pace h2 h3 h8, parts_whole⟩⟩
  refine ⟨planned_fill, fun bs hread => ⟨fun h hmask => planned_copy h hread hmask, fun h => planned_gcopy h hread⟩,
    fun data h => planned_reduce h, fun vas data hplaces => ⟨fun h => planned_gather h hplaces,
    fun h => planned_scatter h hplaces⟩, fun base ix h hread => indexed_read h hread base⟩

end Sys2Proof.Machine
end

section
/-! PROOF. What a step of a ferry writes (O58, R230, R263, R269, R271, R297): bytes, elements of a REDUCE, and the slot of a
RINGPUT. -/

namespace Sys2Proof.Machine

/-! Accesses of a ferry that nothing holds up. -/

section Access

variable {s : State} {f : FerryCmd} {ia loc va n : Nat} {k : Access}

theorem ferryMap_ok (hv : va < 2 ^ 60) (hr : rangeMap k va f.amap.toList = .ok ia) (hp : HostPlace s ia) :
    f.map va k s = .ok ia s := by
  unfold FerryCmd.map
  rw [if_neg (Nat.not_le.mpr hv)]
  refine (ferry_get ..).trans ?_
  rw [hr]
  rcases hp with hp | ⟨d, hp⟩ | ⟨cl, hp⟩ <;> simp only [hp] <;> rfl

theorem ferryClear_ok (hp : Plain s ia n) (hn : Unnoted s ia n) : ferryClear ia n true s = .ok ⟨⟩ s := by
  have hnone := narrowAt_unnoted hn none
  unfold ferryClear
  refine (ferry_modify ..).trans ((ferry_get ..).trans ?_)
  rw [forcePublish_none hnone, withheld_none hnone, hp.2, Bool.and_false, Bool.or_self]
  rfl

theorem ferryReach_ok (hm : s.meet ia k f.token = (.ok loc, s)) (hr : s.readOnly loc n = false) (va : Nat) :
    f.reach ia va k n s = .ok loc s := by
  unfold FerryCmd.reach
  refine (ferry_get ..).trans ?_
  simp only [hm, hr, Bool.and_false, Bool.false_eq_true, if_false]
  rfl

end Access

/-! A plan of one piece (R297). -/

/-- A plan of bytes within one granule is one piece. -/
theorem perform_single {s s1 : State} {f : FerryCmd} {c : FerryFields} {dst : Nat} {data : List Byte}
    (h : f.piece c dst data s = .ok ⟨⟩ s1) (hfit : dst % 32 + data.length ≤ 32) :
    f.perform c (planFuel [(dst, data)]) [(dst, data)] s = ([], none, s1) := by
  have hfuel : planFuel [(dst, data)] = data.length / 32 + 1 + 1 + 1 := Nat.zero_add _
  have hlen : data.length ≤ 32 - dst % 32 := by omega
  rw [hfuel, FerryCmd.perform, List.take_of_length_le hlen, h]
  simp only [if_pos hlen, FerryCmd.perform]

/-- A step on a command whose units are read already, and which reaches their end. -/
theorem exec_ferry_planned {s s1 : State} {f : FerryCmd} {loc n : Nat} {bs : List Byte} {i : Instr}
    {plan : List (Nat × List Byte)} (hf : Fetched s f loc bs) (hi : ferryCode i = some (n, f.chain, f.seq))
    (hop : (ferryFields bs).op = n) (hready : n = 2 ∨ n = 3 → f.places.isSome = true) (hplan : f.plan = some plan)
    (he : f.early = false) (hperform : f.perform (ferryFields bs) (planFuel plan) plan s = ([], none, s1)) :
    exec i s = .next ((s1.unplanned f).ferryOn f (ferryFields bs)) := by
  rw [exec_of_ferryCode hi, ferryStep_fetched hf hop]
  unfold State.ferryGo
  rw [ferryIndex_ready (by rwa [hop])]
  exact congrArg Host.Outcome.next (ferryWork_plan he hperform hplan rfl)

/-! Bytes (R269, R271). -/

theorem target_mapped {s : State} {f : FerryCmd} {c : FerryFields} {va ia : Nat} (h5 : c.op ≠ 5) (h9 : c.op ≠ 9)
    (hm : f.map va .write s = .ok ia s) : f.target c va s = .ok ia s := by
  simpa only [FerryCmd.target] using hm

theorem target_global {s : State} {f : FerryCmd} {c : FerryFields} {va ia : Nat} (h : c.op = 9)
    (hcore : c.dst / 2 ^ 38 = va / 2 ^ 38) (hm : s.mapGlobal va .write = .ok ia) : f.target c va s = .ok ia s := by
  unfold FerryCmd.target
  simp only [h, hcore, bne_self_eq_false, Bool.false_eq_true, if_false]
  refine (ferry_get ..).trans ?_
  rw [hm]
  rfl

/-- A write of a ferry that nothing holds up puts its bytes in memory. -/
theorem put_ok {s : State} {f : FerryCmd} {ia loc : Nat} {bs : List Byte} (hp : Plain s ia bs.length)
    (hn : Unnoted s ia bs.length) (hm : s.meet ia .write f.token = (.ok loc, s)) (hr : s.readOnly loc bs.length = false)
    (va : Nat) : f.put ia va bs s = .ok ⟨⟩ (s.storeAt ia loc bs (Writer.agent 0)) := by
  unfold FerryCmd.put
  exact (ferry_bind_ok (ferryClear_ok hp hn)).trans (ferry_bind_ok (ferryReach_ok hm hr va))

theorem ferry_writes : Claim.FerryWrites := by
  intro s i f n loc dst ia at_ bs data hf hplan hi hop h5 h8 hready hends _ hfit hva hglobal hplace hp hu hm hr
  obtain ⟨he, hend⟩ := hends
  have htarget : f.target (ferryFields bs) dst s = .ok ia s := by
    by_cases h9 : n = 9
    · exact target_global (hop.trans h9) (hglobal h9).1 (hglobal h9).2
    · exact target_mapped (hop ▸ h5) (hop ▸ h9) (ferryMap_ok (hva h9).1 (hva h9).2 hplace)
  have hpiece : f.piece (ferryFields bs) dst data s = .ok ⟨⟩ (s.storeAt ia at_ data (Writer.agent 0)) := by
    unfold FerryCmd.piece
    rw [if_neg (hop ▸ h8)]
    exact (ferry_bind_ok htarget).trans (put_ok hp hu hm hr dst)
  refine ⟨_, s.storeAt ia at_ data (Writer.agent 0), exec_ferry_planned hf hi hop hready hplan he (perform_single hpiece hfit),
    wrote_of_noted (storeAt_plain _ hp), ?_⟩
  rw [ferryOn_ends hend (hop ▸ h5)]
  exact ferryOver_unplanned _ f 0

/-! Elements of a REDUCE (R206, R209, R210). -/

/-- What the atomic unit computes for a REDUCE. -/
theorem amoOp_redOp {c : FerryFields} {src : Nat} (hsrc : src < 2 ^ (8 * c.size)) (old : Nat) :
    (amoOp c.redOp c.size old src 0).1 = reduced c.fmt old src := by
  have hmod := Nat.mod_eq_of_lt hsrc
  have hsize : c.size = if c.fmt % 16 = 7 then 8 else 4 := rfl
  unfold FerryFields.redOp reduced
  rw [← hsize]
  dsimp only
  split
  · next h1 =>
    have hmin := amoOp_min_mod c.size old src 0
    rw [hmod] at hmin
    rw [hmin, if_pos h1]
  · next h2 =>
    have hmax := amoOp_max_mod c.size old src 0
    rw [hmod] at hmax
    have h1 : c.fmt / 16 ≠ 1 := by omega
    rw [hmax, if_neg h1, if_pos h2]
  · next h1 h2 =>
    rw [if_neg h1, if_neg h2]
    split
    · next hf =>
      have h4 : c.size = 4 := by rw [hsize, if_neg (by omega)]
      rw [h4] at hmod ⊢
      have hadd := amoOp_fadd32_mod old src 0
      rw [Nat.mod_eq_of_lt (by omega)] at hadd
      rw [hadd]
    · rfl

theorem clean_ok {s : State} {f : FerryCmd} {loc n : Nat} (hp : ∀ b ∈ s.poison, b < loc ∨ loc + n ≤ b) (hl : s.lost = [])
    (va : Nat) : f.clean loc n va s = .ok ⟨⟩ s := by
  have hnone : s.poisonedTo (pkgOf f.core) loc n = false := by
    have hat : s.poisonAt loc n = false := by
      rw [Bool.eq_false_iff, ne_eq, poisonAt_iff]
      rintro ⟨b, hb, h1, h2⟩
      have := hp b hb
      omega
    simp [State.poisonedTo, hat, hl]
  unfold FerryCmd.clean
  refine (ferry_get ..).trans ?_
  simp only [hnone, Bool.false_eq_true, if_false]
  rfl

/-- An element of a REDUCE that nothing holds up and that overlaps no source. -/
theorem reduce_ok {s : State} {f : FerryCmd} {c : FerryFields} {va ia loc : Nat} {bs : List Byte} (hlen : bs.length = c.size)
    (hfmt : c.fmt % 16 = 7 ∨ c.fmt % 16 = 8 ∨ c.fmt = 2) (hmap : f.map va .atomic s = .ok ia s)
    (hp : Plain s ia c.size) (hn : Unnoted s ia c.size) (hm : s.meet ia .atomic f.token = (.ok loc, s))
    (hr : s.readOnly loc c.size = false) (hpoison : ∀ b ∈ s.poison, b < loc ∨ loc + c.size ≤ b) (hl : s.lost = [])
    (hapart : ∀ k, k < c.size → f.sources [(c.src, c.len)] (ia + k) = false) :
    f.reduce c va bs s = .ok ⟨⟩ (s.storeAt ia loc (toBytes c.size (reduced c.fmt (s.numAt loc c.size) (fromBytes bs)))
      (Writer.agent 0)) := by
  have hsrc : fromBytes bs < 2 ^ (8 * c.size) := by
    have hlt := fromBytes_lt bs
    rwa [hlen, show 256 = 2 ^ 8 from rfl, ← pow_mul] at hlt
  have hopen : (decide (c.fmt % 16 = 2) && c.fmt / 16 != 0) = false := by
    rw [Bool.and_eq_false_iff, decide_eq_false_iff_not, bne_eq_false_iff_eq]
    omega
  unfold FerryCmd.reduce
  rw [hlen]
  refine (ferry_bind_ok hmap).trans ((ferry_bind_ok (ferryClear_ok hp hn)).trans
    ((ferry_bind_ok (ferryReach_ok hm hr va)).trans ((ferry_get ..).trans ((ferry_bind_ok (clean_ok hpoison hl va)).trans ?_))))
  rw [overlapFree_none fun j hj => ?_, amoOp_redOp hsrc]
  · rfl
  · rw [toBytes_length] at hj
    simp only [hopen, Nat.zero_add, Bool.false_or]
    exact hapart j hj

theorem ferry_reduces : Claim.FerryReduces := by
  intro s f loc dst ia at_ bs data hf c hplan hop hends hfmt _ hlen halign hva hrange hplace hp hu hm hr hpoison hl hapart
  obtain ⟨he, hend⟩ := hends
  have hsize : c.size = 8 ∨ c.size = 4 := by
    unfold FerryFields.size
    split
    · exact .inl rfl
    · exact .inr rfl
  have hfit : dst % 32 + data.length ≤ 32 := by
    rcases hsize with hs | hs <;> rw [hs] at hlen halign <;> omega
  have hreduce := reduce_ok hlen hfmt (ferryMap_ok hva hrange hplace) hp hu hm hr hpoison hl hapart
  have hpiece : f.piece c dst data s = f.reduce c dst data s := by
    unfold FerryCmd.piece
    rw [if_pos hop]
  refine ⟨_, _, exec_ferry_planned hf rfl hop (by omega) hplan he (perform_single (hpiece.trans hreduce) hfit),
    wrote_of_noted (storeAt_plain (Writer.agent 0) (by rwa [toBytes_length])), ?_⟩
  rw [ferryOn_ends hend (by omega)]
  exact ferryOver_unplanned _ f 0

/-! The slot of a RINGPUT (R230, R263). -/

theorem find?_tabPut {α : Type} (l : List (Nat × α)) (a : Nat) (x : α) :
    (tabPut l a x).find? (fun e => e.1 = a) = some (a, x) := by
  induction l with
  | nil => simp [tabPut]
  | cons e l ih =>
    obtain ⟨k, v⟩ := e
    unfold tabPut
    split
    · simp
    · split
      · simp
      · next h => rw [List.find?_cons_of_neg (by simpa using Ne.symm h), ih]

theorem ring_setRing (s : State) (cl idx : Nat) (r : Ring) : (s.setRing cl idx r).ring cl idx = some r := by
  unfold State.setRing State.ring
  rw [cluster_setCluster, if_pos rfl, find?_tabPut]
  rfl

/-- The slots and the subscriptions of a ring are the same once HEAD has moved on. -/
theorem advance_kept (n : Nat) (r : Ring) : (Ring.advance n r).slots = r.slots ∧ (Ring.advance n r).subs = r.subs := by
  induction n generalizing r with
  | zero => exact ⟨rfl, rfl⟩
  | succ n ih =>
    unfold Ring.advance
    split
    · exact ⟨rfl, rfl⟩
    · split
      · exact ih _
      · exact ⟨rfl, rfl⟩

section Unsubscribed

variable {r : Ring} (hs : r.subs = []) (hn : 0 < r.nsub)
include hs hn

/-- Where subscriptions are still to come, no slot has been delivered to all. -/
theorem settleSlot_unsubscribed (q : BitVec 32) : r.settleSlot q = r := by
  have hlen : decide (r.subs.length = r.nsub) = false := by
    rw [hs]
    exact decide_eq_false (by simp; omega)
  unfold Ring.settleSlot
  dsimp only
  split
  · simp [Ring.poppedAll, Ring.deliveredAll, hlen]
  · simp [Ring.poppedAll, hlen]
  · rfl

theorem settle_unsubscribed : r.settle = Ring.advance r.nslot r := by
  unfold Ring.settle
  dsimp only
  rw [foldl_id _ (fun r' k => r'.settleSlot (r.head + BitVec.ofNat 32 k)) r fun k _ => settleSlot_unsubscribed hs hn _]

theorem post_unsubscribed (q : BitVec 32) :
    (r.post q).slots = r.slots.set (q.toNat % r.nslot) ⟨.ready, (r.slot q).filler⟩ ∧ (r.post q).subs = [] := by
  have hset : (r.setSlot q ⟨.ready, (r.slot q).filler⟩).subs = [] := hs
  unfold Ring.post
  rw [settle_unsubscribed hset hn]
  obtain ⟨hslots, hsubs⟩ := advance_kept (r.setSlot q ⟨.ready, (r.slot q).filler⟩).nslot
    (r.setSlot q ⟨.ready, (r.slot q).filler⟩)
  exact ⟨hslots, hsubs.trans hset⟩

end Unsubscribed

theorem claimedBy_filler {r : Ring} {who : Claimer} {q : BitVec 32} (h : r.claimedBy who = some q) :
    (r.slot q).filler = some who := by
  have := List.find?_some h
  simp only [Bool.and_eq_true, decide_eq_true_eq] at this
  exact this.2

theorem deliverAll_unsubscribed {s : State} {cl idx : Nat} {r : Ring} (h : s.ring cl idx = some r) (hs : r.subs = []) :
    s.deliverAll cl idx = s := by
  unfold State.deliverAll
  refine foldl_id _ _ _ fun k _ => ?_
  unfold State.deliver
  simp [h, hs]

theorem ferryPost_claimed {s : State} {f : FerryCmd} {c : FerryFields} {cl : Nat} {r : Ring} {q : BitVec 32} (hop : c.op = 5)
    (hr : f.ringOf c s = .ok (cl, r) s) (hq : r.claimedBy (.ferry f.chain f.seq) = some q) (hs : r.subs = []) (hn : 0 < r.nsub) :
    s.ferryPost f c = s.setRing cl (c.ring % 64) (r.post q) := by
  unfold State.ferryPost
  simp only [hop, bne_self_eq_false, Bool.false_eq_true, if_false, hr, hq]
  exact deliverAll_unsubscribed (ring_setRing ..) (post_unsubscribed hs hn q).2

theorem ferry_puts : Claim.FerryPuts := by
  intro s f loc cl r q bs hf hplan hop hends hring hq hs hn hr
  obtain ⟨he, hend⟩ := hends
  have hrun := exec_ferry_planned (i := .ferryRingput f.chain f.seq) hf rfl hop (by omega) hplan he rfl
  refine ⟨_, r.post q, hrun, ?_⟩
  have hpost := ferryPost_claimed (s := s.unplanned f) hop (hring _ rfl rfl) hq hs hn
  have hon : (s.unplanned f).ferryOn f (ferryFields bs) =
      ((s.unplanned f).setRing cl ((ferryFields bs).ring % 64) (r.post q)).ferryOver f.chain f.seq 0 0 := by
    unfold State.ferryOn
    rw [hpost]
    exact if_pos hend
  rw [hon]
  refine ⟨ring_setRing .., ?_, ?_⟩
  · rw [(post_unsubscribed hs hn q).1, claimedBy_filler hq]
  · exact (ferryOver_unplanned s f 0).2

end Sys2Proof.Machine
end

section
/-! PROOF. How the commands of a chain complete, and how a chain idles (O58, R270 to R272); the steps of the ferries as a
whole. -/

namespace Sys2Proof.Machine

/-! CHAIN_IDLE (R270). -/

theorem exec_chainIdle (chain : Nat) (s : State) : exec (.chainIdle chain) s = .next (s.chainIdle chain) := rfl

theorem putNum_ferry (s : State) (loc n v : Nat) : (s.putNum loc n v).ferry = s.ferry := State.putBytes_ferry ..

/-- The commands that a chain which idles leaves: those of other chains, and its own that are not over yet. -/
theorem filter_idled (l : List FerryCmd) (chain : Nat) : (l.filter fun g => g.chain != chain || !g.completed || g.lingers) =
    l.filter fun g => g.chain ≠ chain ∨ g.completed = false ∨ g.lingers = true :=
  List.filter_congr fun g _ => by simp [bne, Bool.beq_eq_decide_eq, Bool.or_assoc]

section Idle

variable {s : State} {f : FerryCmd} {loc : Nat}
  (hlast : (s.ferry.filter (fun g => g.chain = f.chain)).getLast? = some f)
  (hm : s.meet f.chain .atomic f.token = (.ok loc, s)) (hbusy : s.objBusy f.chain = false)
include hlast hm hbusy

theorem chainIdle_idles (hs : f.started = true) (h1 : s.numAt (loc + 0x1A) 1 = 1)
    (h8 : s.numAt (loc + 8) 8 = f.cmdVa.toNat) : s.chainIdle f.chain =
      { (s.putNum loc 8 0).putNum (loc + 0x1A) 1 0 with
        ferry := s.ferry.filter fun g => g.chain ≠ f.chain ∨ g.completed = false ∨ g.lingers = true } := by
  unfold State.chainIdle
  simp only [hlast, hbusy, hs, hm, h1, h8, putNum_ferry, filter_idled, decide_true, Bool.not_true, Bool.or_self,
    Bool.and_self, Bool.false_eq_true, if_false, if_true]

theorem chainIdle_runs (h : s.numAt (loc + 0x1A) 1 ≠ 1 ∨ s.numAt (loc + 8) 8 ≠ f.cmdVa.toNat) : s.chainIdle f.chain = s := by
  have hno : (decide (s.numAt (loc + 0x1A) 1 = 1) && decide (s.numAt (loc + 8) 8 = f.cmdVa.toNat)) = false := by
    simpa [← not_and_or] using h
  unfold State.chainIdle
  simp only [hlast, hbusy, hm, hno, Bool.false_eq_true, if_false, ite_self]

end Idle

theorem chains_idle : Claim.ChainsIdle := by
  intro s f loc hlast hm hbusy
  rw [exec_chainIdle]
  refine ⟨fun hs h1 h8 => ?_, fun h => congrArg Host.Outcome.next (chainIdle_runs hlast hm hbusy h)⟩
  rw [chainIdle_idles hlast hm hbusy hs h1 h8]
  have hwrote := wrote_putNum (s.putNum loc 8 0) (loc + 0x1A) 1 0
  have hferry := (putNum_ferry (s.putNum loc 8 0) (loc + 0x1A) 1 0).trans (putNum_ferry s loc 8 0)
  generalize (s.putNum loc 8 0).putNum (loc + 0x1A) 1 0 = u at hwrote hferry
  refine ⟨_, _, rfl, wrote_putNum s loc 8 0, ?_, rfl⟩
  rw [← hferry]
  exact hwrote

/-! What a completion writes (R271, R272). -/

/-- The machine once a completed command's status stands in it and its number in its chain object, which is halted where the
command failed. -/
def State.told (s : State) (f : FerryCmd) (loc at_ : Nat) : State :=
  let s1 := (s.putNum (at_ + 0x34) 4 f.status).putNum (loc + 0x14) 4 f.seq
  if halts f.status then ((s1.putNum (loc + 0x1A) 1 2).putNum (loc + 0x1B) 1 f.status).putNum (loc + 0x20) 8 f.errAddr.toNat
  else s1

theorem halts_iff (status : Nat) : halts status = true ↔ status ≠ 0 ∧ status ≠ 2 := by
  simp [halts]

section Told

variable (s : State) (f : FerryCmd) {loc at_ : Nat}

/-- It writes bytes alone. -/
theorem told_fields : (s.told f loc at_).contexts = s.contexts ∧ (s.told f loc at_).cores = s.cores ∧
    (s.told f loc at_).net = s.net ∧ (s.told f loc at_).ferry = s.ferry := by
  unfold State.told
  split <;> simp only [State.putNum, State.contexts, State.putBytes_cur, State.putBytes_others, State.putBytes_cores,
    State.putBytes_net, State.putBytes_ferry, and_self]

/-- Nothing of memory changes outside the command and its chain object. -/
theorem cellGet_told {a : Nat} (hl : a < loc ∨ loc + 64 ≤ a) (ha : a < at_ ∨ at_ + 64 ≤ a) :
    cellGet (s.told f loc at_).mem a = cellGet s.mem a := by
  unfold State.told
  split
  · rw [cellGet_putNum _ (by omega), cellGet_putNum _ (by omega), cellGet_putNum _ (by omega), cellGet_putNum _ (by omega),
      cellGet_putNum _ (by omega)]
  · rw [cellGet_putNum _ (by omega), cellGet_putNum _ (by omega)]

theorem told_halted (h : halts f.status = true) (hs : f.status < 256) : (s.told f loc at_).numAt (loc + 0x1A) 1 = 2 ∧
    (s.told f loc at_).numAt (loc + 0x1B) 1 = f.status ∧ (s.told f loc at_).numAt (loc + 0x20) 8 = f.errAddr.toNat := by
  have he := f.errAddr.isLt
  unfold State.told
  rw [if_pos h]
  refine ⟨?_, ?_, ?_⟩
  · rw [numAt_putNum_apart _ (by unfold Apart; omega), numAt_putNum_apart _ (by unfold Apart; omega), numAt_putNum]
    rfl
  · rw [numAt_putNum_apart _ (by unfold Apart; omega), numAt_putNum]
    omega
  · rw [numAt_putNum]
    omega

theorem told_seq (hs : f.seq < 2 ^ 32) : (s.told f loc at_).numAt (loc + 0x14) 4 = f.seq := by
  have hput : ((s.putNum (at_ + 0x34) 4 f.status).putNum (loc + 0x14) 4 f.seq).numAt (loc + 0x14) 4 = f.seq := by
    rw [numAt_putNum]
    omega
  unfold State.told
  split
  · rw [numAt_putNum_apart _ (by unfold Apart; omega), numAt_putNum_apart _ (by unfold Apart; omega),
      numAt_putNum_apart _ (by unfold Apart; omega), hput]
  · exact hput

variable {s f} (hap : Apart loc 64 at_ 64)
include hap

theorem told_status (hs : f.status < 256) : (s.told f loc at_).numAt (at_ + 0x34) 4 = f.status := by
  have hput : (s.putNum (at_ + 0x34) 4 f.status).numAt (at_ + 0x34) 4 = f.status := by
    rw [numAt_putNum]
    omega
  unfold Apart at hap
  unfold State.told
  split
  · rw [numAt_putNum_apart _ (by unfold Apart; omega), numAt_putNum_apart _ (by unfold Apart; omega),
      numAt_putNum_apart _ (by unfold Apart; omega), numAt_putNum_apart _ (by unfold Apart; omega), hput]
  · rw [numAt_putNum_apart _ (by unfold Apart; omega), hput]

theorem told_runs (h : ¬halts f.status = true) : (s.told f loc at_).numAt (loc + 0x1A) 1 = s.numAt (loc + 0x1A) 1 := by
  unfold Apart at hap
  unfold State.told
  rw [if_neg h, numAt_putNum_apart _ (by unfold Apart; omega), numAt_putNum_apart _ (by unfold Apart; omega)]

end Told

/-! The commands that are left (R271, R307). -/

/-- The commands with the ferries once one has completed, in the machine that has told it. -/
def State.remaining (s : State) (f : FerryCmd) (loc : Nat) : List FerryCmd :=
  (s.mapFerry f.chain f.seq (fun g => { g with completed := true })).ferry.filter fun g =>
    g.chain != f.chain || g.lingers || (!halts f.status && (!g.completed ||
      (!(decide (s.numAt loc 8 = 0)) && g.seq = s.numAt (loc + 0x10) 4)))

/-- The machine once a completion is told, but for its message. -/
def State.tells (s : State) (f : FerryCmd) (loc at_ : Nat) (agenda : List Duty) : State :=
  { s.told f loc at_ with ferry := (s.told f loc at_).remaining f loc, agenda := agenda }

theorem tells_contexts (s : State) (f : FerryCmd) (loc at_ : Nat) (agenda : List Duty) :
    (s.tells f loc at_ agenda).contexts = s.contexts := (told_fields s f).1

theorem tells_ctx (s : State) (f : FerryCmd) (loc at_ : Nat) (agenda : List Duty) (uid : Nat) :
    (s.tells f loc at_ agenda).ctx uid = s.ctx uid := by
  unfold State.ctx
  rw [tells_contexts]

/-- Those that remain stood there before; the completed one is marked so, and of a halted chain those alone that have something
to write or to tell. -/
theorem mem_remaining {s : State} {f g : FerryCmd} {loc : Nat} (hg : g ∈ s.remaining f loc) :
    (∃ g0 ∈ s.ferry, g0.chain = g.chain ∧ g0.tail = g.tail ∧ g0.note = g.note) ∧
      (g.chain = f.chain → g.seq = f.seq → g.completed = true) ∧
      (g.chain = f.chain → g.lingers = true ∨ halts f.status = false) := by
  rw [State.remaining, mapFerry_eq, List.mem_filter, List.mem_map] at hg
  obtain ⟨⟨g0, hg0, he⟩, hkept⟩ := hg
  have hleft (hc : g.chain = f.chain) : g.lingers = true ∨ halts f.status = false := by
    simp only [hc, bne_self_eq_false, Bool.false_or, Bool.or_eq_true, Bool.and_eq_true, Bool.not_eq_true'] at hkept
    exact hkept.imp_right fun h => h.1
  by_cases hmine : g0.chain = f.chain ∧ g0.seq = f.seq ∧ g0.completed = false
  · rw [if_pos hmine] at he
    exact ⟨⟨g0, hg0, he ▸ rfl, he ▸ rfl, he ▸ rfl⟩, fun _ _ => he ▸ rfl, hleft⟩
  · rw [if_neg hmine] at he
    subst he
    refine ⟨⟨g0, hg0, rfl, rfl, rfl⟩, fun hc hs => ?_, hleft⟩
    simpa [hc, hs] using hmine

section Quiet

variable {s : State} {f g : FerryCmd} {loc : Nat} (h : ∀ g ∈ s.ferry, g.chain = f.chain → g.tail = [] ∧ g.note = none)
  (hg : g ∈ s.remaining f loc)
include h hg

/-- On a chain of which no write is left and no message is due, none is left to come. -/
theorem remaining_quiet (hc : g.chain = f.chain) : g.tail = [] ∧ g.note = none := by
  obtain ⟨⟨g0, hg0, hchain, htail, hnote⟩, -, -⟩ := mem_remaining hg
  rw [← htail, ← hnote]
  exact h g0 hg0 (hchain.trans hc)

theorem remaining_halted (hh : halts f.status = true) : g.chain ≠ f.chain := by
  intro hc
  obtain ⟨htail, hnote⟩ := remaining_quiet h hg hc
  rcases (mem_remaining hg).2.2 hc with hl | hl
  · simp [FerryCmd.lingers, htail, hnote] at hl
  · rw [hh] at hl
    cases hl

end Quiet

section Tell

variable {s : State} {f : FerryCmd} (h : ∀ g ∈ s.ferry, g.chain = f.chain → g.tail = [] ∧ g.note = none) (loc at_ : Nat)

theorem tells_iff (status flags : Nat) :
    (!(halts status || decide (flags % 2 = 1))) = true ↔ ¬(halts status = true ∨ flags % 2 = 1) := by simp

include h

theorem remaining_written :
    ¬((s.told f loc at_).remaining f loc).any (fun g => decide (g.chain = f.chain) && !g.tail.isEmpty) = true := by
  obtain ⟨-, -, -, hstood⟩ := told_fields s f (loc := loc) (at_ := at_)
  rw [Bool.not_eq_true, List.any_eq_false]
  intro g hg
  by_cases hc : g.chain = f.chain
  · simp [(remaining_quiet (hstood ▸ h) hg hc).1]
  · simp [hc]

/-- A completion on a chain of which no write is left and no message is due, and that has nothing to report (R271). -/
theorem ferryTell_silent {flags : Nat} (hs : ¬(halts f.status = true ∨ flags % 2 = 1)) (tagv : Nat) :
    ∃ w, (s.putNum (at_ + 0x34) 4 f.status).ferryTell f loc tagv flags = s.tells f loc at_ w := by
  unfold State.ferryTell
  exact ⟨_, (if_pos ((tells_iff ..).mpr hs)).trans (if_neg (remaining_written h loc at_))⟩

/-- One of a command that has failed, or whose NOTIFY is set (R272). -/
theorem ferryTell_done {flags : Nat} (hs : halts f.status = true ∨ flags % 2 = 1) (tagv : Nat) :
    ∃ w, (s.putNum (at_ + 0x34) 4 f.status).ferryTell f loc tagv flags = (s.tells f loc at_ w).ferryDone f tagv := by
  unfold State.ferryTell
  exact ⟨_, (if_neg fun hn => (tells_iff ..).mp hn hs).trans (if_neg (remaining_written h loc at_))⟩

end Tell

/-! The message of a completion (R272, R277). -/

theorem Accepts.congr {s t : State} {dest : Word} {c : Context} (h : Accepts s dest c) (hc : t.contexts = s.contexts)
    (hk : t.cores = s.cores) (hn : ∀ core, (t.net.filter fun m => m.sender = hostSender core) =
      s.net.filter fun m => m.sender = hostSender core) : Accepts t dest c := by
  unfold Accepts State.mailbox State.ctx State.sharedFree State.sharedUsed State.core at h ⊢
  rw [hc, hk, hn]
  exact h

/-- A message that its agent accepts at once leaves nothing in an empty network. -/
theorem inject_accepted {s : State} {n : NetMsg} {c : Context} (hd : Distinct s) (hnet : s.net = [])
    (hsender : ∀ core, n.sender ≠ hostSender core) (hawait : n.awaited = false) (h : Accepts s n.dest c) :
    s.inject n = s.mapCtx c.id.uid (Context.take c.id.core n.msg) := by
  have harrive : ({ s with net := [n] } : State).arrive n.dest n.msg =
      .accepted (({ s with net := [n] } : State).mapCtx c.id.uid (Context.take c.id.core n.msg)) :=
    arrive_mailbox hd (h.congr rfl rfl fun core => by simp [hnet, hsender core])
  unfold State.inject
  rw [hnet, List.nil_append]
  simp only [State.deliverNet, harrive, behind, decide_true, List.any_nil, Bool.not_true, Bool.or_self, Bool.false_eq_true,
    if_false, List.nil_append, answered_unawaited _ hawait]
  rw [← hnet]
  rfl

theorem ferryDone_gone {s : State} {f : FerryCmd} (h : s.ctx f.uid = none) (tagv : Nat) :
    s.ferryDone f tagv = s.event (clusterOf f.core) 16 := by
  unfold State.ferryDone
  rw [h]

/-- FERRY_DONE enters the mailbox that the command names. -/
theorem ferryDone_accepted {s : State} {f : FerryCmd} {c d : Context} (hd : Distinct s) (hnet : s.net = [])
    (hchain : f.chain < 2 ^ 56) (hc : s.ctx f.uid = some c) (hsup : c.id.sup = false) (h : Accepts s f.mailbox d) (tagv : Nat) :
    s.ferryDone f tagv = s.mapCtx d.id.uid (Context.take d.id.core ⟨BitVec.ofNat 64 (2 * 2 ^ 56 + 3 * 2 ^ 48), [f.chainVa,
      BitVec.ofNat 64 (f.status * 2 ^ 32 + f.seq), BitVec.ofNat 64 tagv]⟩) := by
  have hsender (core : Nat) : 2 ^ 64 + f.chain ≠ hostSender core := by
    unfold hostSender
    omega
  unfold State.ferryDone
  simp only [hc, hsup, Bool.false_eq_true, if_false]
  exact inject_accepted hd hnet hsender rfl h

/-! FERRY_COMMAND_COMPLETE (R271, R272). -/

theorem exec_ferryCommandComplete (chain : Nat) (s : State) :
    exec (.ferryCommandComplete chain) s = .next (s.ferryComplete chain) := rfl

/-- The oldest command of a chain that is not completed. -/
theorem find_oldest {f : FerryCmd} {pre post : List FerryCmd} (hpre : ∀ g ∈ pre, g.chain ≠ f.chain ∨ g.completed = true)
    (hf : f.completed = false) : (pre ++ f :: post).find? (fun g => decide (g.chain = f.chain) && !g.completed) = some f := by
  have hnone : pre.find? (fun g => decide (g.chain = f.chain) && !g.completed) = none := by
    rw [List.find?_eq_none]
    intro g hg
    rcases hpre g hg with h | h <;> simp [h]
  rw [List.find?_append, hnone, Option.none_or, List.find?_cons_of_pos (by simp [hf])]

theorem ferryComplete_reached {s : State} {f : FerryCmd} {loc at_ : Nat}
    (hfind : s.ferry.find? (fun g => decide (g.chain = f.chain) && !g.completed) = some f) (hp : f.performed = true)
    (hpage : f.page = none) (hchain : s.ferryReach f f.chain f.chainVa.toNat = .at loc s)
    (hcmd : s.ferryReach f f.cmdIa f.cmdVa.toNat = .at at_ s) :
    s.ferryComplete f.chain = (s.putNum (at_ + 0x34) 4 f.status).ferryTell f loc (s.numAt (at_ + 0x38) 8)
      (s.numAt (at_ + 9) 1) := by
  unfold State.ferryComplete
  simp only [hfind, hp, hpage, hchain, hcmd, Option.any_none, Bool.not_true, Bool.or_self, Bool.false_eq_true, if_false]

theorem ferry_completes : Claim.FerryCompletes := by
  intro s f loc at_ pre post hferry hpre hcompleted hperformed hpage hquiet hbusy hbusy' hseat hm hap hseq hstatus hchain
    notify failed done halted runs
  have hrun : s.ferryComplete f.chain = (s.putNum (at_ + 0x34) 4 f.status).ferryTell f loc (s.numAt (at_ + 0x38) 8)
      (s.numAt (at_ + 9) 1) :=
    ferryComplete_reached (hferry ▸ find_oldest hpre hcompleted) hperformed hpage
      (ferryReach_at hbusy hpage (hseat s rfl rfl (fun _ _ => rfl) .atomic f.token (by decide)) _)
      (ferryReach_at hbusy' hpage hm _)
  rw [exec_ferryCommandComplete, hrun]
  obtain ⟨-, hcores, hnet, hstood⟩ := told_fields s f (loc := loc) (at_ := at_)
  have hfailed : halts f.status = true ↔ failed := halts_iff f.status
  have hnum {t : State} (ht : t.mem = (s.told f loc at_).mem) (a n : Nat) : t.numAt a n = (s.told f loc at_).numAt a n :=
    numAt_congr fun _ _ _ => by rw [ht]
  have hdone (t : State) (ht : t.mem = (s.told f loc at_).mem) : done t :=
    ⟨(hnum ht ..).trans (told_status hap hstatus), (hnum ht ..).trans (told_seq s f hseq),
      fun a hl ha => (congrArg (cellGet · a) ht).trans (cellGet_told s f hl ha)⟩
  have hhalted (t : State) (ht : t.mem = (s.told f loc at_).mem) (hl : t.ferry = (s.told f loc at_).remaining f loc)
      (h : failed) : halted t := by
    obtain ⟨hstate, hcause, haddr⟩ := told_halted s f (loc := loc) (at_ := at_) (hfailed.mpr h) hstatus
    refine ⟨(hnum ht ..).trans hstate, (hnum ht ..).trans hcause, (hnum ht ..).trans haddr, fun g hg => ?_⟩
    exact remaining_halted (hstood ▸ hquiet) (hl ▸ hg) (hfailed.mpr h)
  have hruns (t : State) (ht : t.mem = (s.told f loc at_).mem) (hl : t.ferry = (s.told f loc at_).remaining f loc)
      (h : ¬failed) : runs t := by
    refine ⟨(hnum ht ..).trans (told_runs hap (mt hfailed.mp h)), fun g hg => ?_⟩
    rw [hl] at hg
    exact (mem_remaining hg).2.1
  refine ⟨fun hf hn => ?_, fun hf hc => ?_, fun hsays hd hempty c d hc hsup haccepts => ?_⟩
  · obtain ⟨w, htell⟩ := ferryTell_silent hquiet loc at_ (not_or.mpr ⟨mt hfailed.mp hf, hn⟩) (s.numAt (at_ + 0x38) 8)
    rw [htell]
    exact ⟨_, rfl, hdone _ rfl, hruns _ rfl rfl hf, tells_contexts ..⟩
  · obtain ⟨w, htell⟩ := ferryTell_done hquiet loc at_ (flags := s.numAt (at_ + 9) 1) (.inl (hfailed.mpr hf))
      (s.numAt (at_ + 0x38) 8)
    rw [htell, ferryDone_gone ((tells_ctx ..).trans hc), event_eq]
    exact ⟨_, rfl, hdone _ rfl, hhalted _ rfl rfl hf⟩
  · obtain ⟨w, htell⟩ := ferryTell_done hquiet loc at_ (hsays.imp_left hfailed.mpr) (s.numAt (at_ + 0x38) 8)
    have hdistinct : Distinct (s.tells f loc at_ w) := by
      unfold Distinct
      rwa [tells_contexts]
    rw [htell, ferryDone_accepted hdistinct (hnet.trans hempty) hchain ((tells_ctx ..).trans hc) hsup
      (haccepts.congr (tells_contexts ..) hcores fun _ => congrArg _ hnet)]
    refine ⟨_, rfl, hdone _ rfl, hhalted _ rfl rfl, hruns _ rfl rfl, ?_⟩
    rw [(onlyContext_mapCtx ..).2, tells_contexts]

/-- Settles O58: each step by the lemma that says what it does to the state. -/
theorem ferrySteps : Obligations.FerrySteps :=
  ⟨ferry_works, ferry_plans, ferry_writes, ferry_reduces, ferry_puts, ferry_completes, chains_idle⟩

end Sys2Proof.Machine
end
